-- ==== Sys2Proof/Word.lean ====
section
/-! DEFINITION. Word.lean: the machine's words. Registers are 32 bits wide, a pair holds 64 bits (R9), memory is
addressed in bytes, and an instruction word and a clause header are 64 bits each (R83, R89). -/

namespace Sys2Proof

/-- One byte of memory (R9). -/
abbrev Byte := BitVec 8

/-- One general register, team scalar or tile element (R9, R16, R237). -/
abbrev W32 := BitVec 32

/-- A register pair, an instruction word or a clause header (R9, R83, R89). -/
abbrev W64 := BitVec 64

/-- A 16-byte value: the data of a 128-bit access, of which shorter accesses use the low part (R94). -/
abbrev W128 := BitVec 128

/-- A 16-bit block descriptor (R145). -/
abbrev Descr := BitVec 16

end Sys2Proof
end

