-- ==== Sys2Proof/Syntax.lean ====
section
/-! DEFINITION. Syntax.lean: every row of the spec's table of operations and events as a constructor of the one
type Instr. The first 135 constructors are the instructions, with the operands their encodings carry; the others
are the package's events, whose arguments are what the outside world, or an order the spec leaves open, decides. -/

namespace Sys2Proof

/-! ## Fields that every instruction word carries -/

/-- Predicate, its negation and the stall count (R89). -/
structure Ctl where
  /-- predicate number, 0 to 23, or 31 for always -/
  pr : BitVec 5
  /-- act where the predicate is false -/
  pn : Bool
  /-- stall count -/
  st : BitVec 4
deriving DecidableEq, Repr

/-- A register, predicate or scalar number as a field of a word (R91). -/
abbrev Reg := BitVec 8

/-! ## Modifiers -/

/-- Signedness of a 32-bit integer operation (R166). -/
inductive ITy | s32 | n32
deriving DecidableEq, Repr

/-- Integer types that icmp, mov, mov.s and swrite admit (R166). -/
inductive WTy | s32 | n32 | s64 | n64
deriving DecidableEq, Repr

/-- Scalar float types (R142). -/
inductive FTy | f32 | f16 | bf16
deriving DecidableEq, Repr

/-- Packed float types (R141). -/
inductive PTy | f16x2 | bf16x2
deriving DecidableEq, Repr

/-- Types of a cvt operand: the codes of R93 that R183 admits. -/
inductive CTy | s32 | n32 | s64 | n64 | s16 | n16 | s8 | n8 | f32 | f16 | bf16 | s4 | n4 | ts8
deriving DecidableEq, Repr

/-- Destination types of pack, element types of unpack (R186). -/
inductive KTy | s8 | n8 | s4 | n4 | f16 | bf16 | ts8
deriving DecidableEq, Repr

/-- Output formats of drain (R239). -/
inductive DTy | s32 | s8 | n8 | f32 | f16 | bf16 | s4 | n4
deriving DecidableEq, Repr

/-- Types of redux (R128). -/
inductive RTy | s32 | n32 | f32
deriving DecidableEq, Repr

/-- Types of the atomics (R274). -/
inductive ATy | s32 | n32 | s64 | n64 | f32
deriving DecidableEq, Repr

/-- Rounding modes (R153). -/
inductive Rnd | rn | rz | rd | ru | ra
deriving DecidableEq, Repr

/-- Overflow policies (R155). -/
inductive Ovf | sat | inf | nan | trp
deriving DecidableEq, Repr

/-- Relations of icmp (R165). -/
inductive IRel | eq | ne | lt | le | gt | ge
deriving DecidableEq, Repr

/-- Relations of fcmp (R176). -/
inductive FRel | eq | ne | lt | le | gt | ge | un | ord
deriving DecidableEq, Repr

/-- Operations of plog (R128). -/
inductive POp | and | or | xor | andn
deriving DecidableEq, Repr

/-- Operations of vote (R128). -/
inductive VoteOp | all | any | uni
deriving DecidableEq, Repr

/-- Operations of shfl (R128). -/
inductive ShflOp | idx | up | down | xor
deriving DecidableEq, Repr

/-- The selector of shfl: a register or a literal (R128). -/
inductive ShflSel | reg (b : Reg) | imm (n : BitVec 5)
deriving DecidableEq, Repr

/-- Operations of redux (R128). -/
inductive ReduxOp | add | min | max
deriving DecidableEq, Repr

/-- Operations of atom (R274). -/
inductive AOp | add | min | max | and | or | xor | xchg
deriving DecidableEq, Repr

/-- Operations of red (R274). -/
inductive RedOp | add | min | max | and | or | xor
deriving DecidableEq, Repr

/-- Memory order of an atomic (R274). -/
inductive Order | rlx | acq | rel | ar | sc
deriving DecidableEq, Repr

/-- The two orders that red admits (R275). -/
inductive RedOrder | rlx | rel
deriving DecidableEq, Repr

/-- Scopes, narrowest first (R92, R259). -/
inductive Scope | team | die | pkg | sys
deriving DecidableEq, Repr

/-- Access sizes (R94). -/
inductive MSize | b8 | b16 | b32 | b64 | b128
deriving DecidableEq, Repr

/-- Where a blkd operand lies (R187). -/
inductive Space | global | scratch
deriving DecidableEq, Repr

/-- KIND of a matrix product (R240). -/
inductive MKind | i8 | i4 | ts | h16
deriving DecidableEq, Repr

/-- The m field of mma, mmag and mms (R240). -/
structure MMods where
  kind : MKind
  /-- plain A read as signed -/
  asg : Bool
  /-- plain B read as signed -/
  bsg : Bool
  /-- plain A read as f16 -/
  af16 : Bool
  /-- plain B read as f16 -/
  bf16 : Bool
  /-- saturating s32 chains -/
  sat : Bool
deriving DecidableEq, Repr

/-- The fields that every matrix instruction shares (R239). -/
structure XCtl where
  /-- accumulator tile -/
  acc : BitVec 4
  /-- the dependency slot it sets, if SETV = 1 -/
  set : Option (BitVec 3)
  /-- engine wait mask -/
  wait : BitVec 8
deriving DecidableEq, Repr

/-- Special registers (R173). -/
inductive SReg
  | tidX | tidY | tidZ | teamX | teamY | teamZ | gridX | gridY | gridZ | lane | core | lcore | die | launch
  | depth | swarm | time | clock
deriving DecidableEq, Repr

/-- Core control registers (R371). -/
inductive CReg | regroupage | mxpstall | issueshape
deriving DecidableEq, Repr

/-! ## Names that events use -/

/-- A team: by context, launch and team id (R7, R49), or a place in a core's walker slot (R195, R372). -/
inductive TeamKey
  | user (ctx launch team : Nat)
  | walker (core slot : Nat)
deriving DecidableEq, Repr

/-- A thread of a team, by its thread id (R7). -/
structure ThreadName where
  key : TeamKey
  tid : Nat
deriving DecidableEq, Repr

/-- A packet, by its queue and its free-running index (R37). -/
structure PktName where
  q : Nat
  idx : Nat
deriving DecidableEq, Repr

/-- A segment that arrives: one this package has sent, by its number, or one that a peer package sends for a collective
of a packet here, as its header flit and payload bits (R308). -/
inductive SegName
  | sent (id : Nat)
  | peer (p : PktName) (header : List Byte) (payload : Nat)
deriving DecidableEq, Repr

/-- Who writes a package register (R382). -/
inductive Writer | host | hive
deriving DecidableEq, Repr

/-- What the device's storage or network answers to one call of a known service whose arguments are in order (R346): the
result, and the bytes that it brings for the caller's buffer. -/
structure SvcReply where
  result : W64
  data : List Byte
deriving DecidableEq, Repr

/-- Why an operand fetch fails (R253). -/
inductive MxWhy | prot | cancel | streamError | latchError
deriving DecidableEq, Repr

/-- Where an uncorrectable error lies (R349). -/
inductive ErrPlace
  | memoryBlock (pa : Nat)
  | matrixFetch (pair op : Nat)
  | teamState (key : TeamKey)
  | contextState (ctx : Nat)
  | hive
deriving DecidableEq, Repr

/-- What happens on the way from reset to DONE: the management controller releases reset, and then the six steps of the ROM
and Folvis, with what the memory test and the flash answer (R383). -/
inductive BootEvent
  | release
  | memoryTest (ok : Bool)
  | readFlash (image : Option (List Byte))
  | check
  | load
  | train
  | finish
deriving DecidableEq, Repr

/-- What the host does through its port or as the loader of a context: it reads, it writes context memory, it writes the
recovery window of BAR2 or the MSI-X table of BAR4, it loads a section with its companion of block descriptors, if it has
one, or it loads an object whose flows, each a key and a block count, need predictor regions, for which the hive has granules
on each die, by coord code (R35, R149, R188, R306, R388). -/
inductive HostAccess
  | read
  | write (bytes : List Byte)
  | window (bytes : List Byte)
  | vector (bytes : List Byte)
  | loadSection (bytes : List Byte) (blockd : Option (List Byte))
  | loadFlows (flows : List (Nat × Nat)) (places : List (Nat × Nat))
deriving DecidableEq, Repr

/-! ## The instructions and events -/

/-- One constructor per row of the table of operations and events. -/
inductive Instr
  /-- NOP (R127) -/
  | nop (c : Ctl)
  /-- BRA (R120) -/
  | bra (c : Ctl) (off : BitVec 26)
  /-- BRX (R120) -/
  | brx (c : Ctl) (a : Reg)
  /-- CALL (R120) -/
  | call (c : Ctl) (d : Reg) (off : BitVec 26)
  /-- RET (R120) -/
  | ret (c : Ctl) (a : Reg)
  /-- EXIT (R122) -/
  | exit (c : Ctl)
  /-- REFORM (R123) -/
  | reform (c : Ctl)
  /-- REJOIN (R124) -/
  | rejoin (c : Ctl)
  /-- YIELD (R126) -/
  | yield (c : Ctl)
  /-- ADD (R167) -/
  | add (c : Ctl) (d a b : Reg) (t : ITy) (sat : Bool)
  /-- ADD_I (R167) -/
  | addI (c : Ctl) (d a : Reg) (imm : BitVec 26)
  /-- SUB (R167) -/
  | sub (c : Ctl) (d a b : Reg) (t : ITy) (sat : Bool)
  /-- MUL (R167) -/
  | mul (c : Ctl) (d a b : Reg) (t : ITy) (sat : Bool)
  /-- MUL_I (R167) -/
  | mulI (c : Ctl) (d a : Reg) (imm : BitVec 26)
  /-- MULHI (R167) -/
  | mulhi (c : Ctl) (d a b : Reg) (t : ITy)
  /-- MAD (R167) -/
  | mad (c : Ctl) (d a b e : Reg) (t : ITy) (sat : Bool)
  /-- DIV (R168) -/
  | div (c : Ctl) (d a b : Reg) (t : ITy)
  /-- REM (R168) -/
  | rem (c : Ctl) (d a b : Reg) (t : ITy)
  /-- MIN (R167) -/
  | min (c : Ctl) (d a b : Reg) (t : ITy)
  /-- MAX (R167) -/
  | max (c : Ctl) (d a b : Reg) (t : ITy)
  /-- ABS (R167) -/
  | abs (c : Ctl) (d a : Reg) (sat : Bool)
  /-- NEG (R167) -/
  | neg (c : Ctl) (d a : Reg) (t : ITy) (sat : Bool)
  /-- AND (R169) -/
  | and (c : Ctl) (d a b : Reg)
  /-- AND_I (R169) -/
  | andI (c : Ctl) (d a : Reg) (imm : BitVec 26)
  /-- OR (R169) -/
  | or (c : Ctl) (d a b : Reg)
  /-- OR_I (R169) -/
  | orI (c : Ctl) (d a : Reg) (imm : BitVec 26)
  /-- XOR (R169) -/
  | xor (c : Ctl) (d a b : Reg)
  /-- XOR_I (R169) -/
  | xorI (c : Ctl) (d a : Reg) (imm : BitVec 26)
  /-- NOT (R169) -/
  | not (c : Ctl) (d a : Reg)
  /-- SHL (R169) -/
  | shl (c : Ctl) (d a b : Reg)
  /-- SHL_I (R169) -/
  | shlI (c : Ctl) (d a : Reg) (imm : BitVec 26)
  /-- SHR (R169) -/
  | shr (c : Ctl) (d a b : Reg)
  /-- SHR_I (R169) -/
  | shrI (c : Ctl) (d a : Reg) (imm : BitVec 26)
  /-- SAR (R169) -/
  | sar (c : Ctl) (d a b : Reg)
  /-- SAR_I (R169) -/
  | sarI (c : Ctl) (d a : Reg) (imm : BitVec 26)
  /-- ROT (R169) -/
  | rot (c : Ctl) (d a b : Reg)
  /-- ROT_I (R169) -/
  | rotI (c : Ctl) (d a : Reg) (imm : BitVec 26)
  /-- CLZ (R169) -/
  | clz (c : Ctl) (d a : Reg)
  /-- POPC (R169) -/
  | popc (c : Ctl) (d a : Reg)
  /-- BREV (R169) -/
  | brev (c : Ctl) (d a : Reg)
  /-- BFE (R169) -/
  | bfe (c : Ctl) (d a : Reg) (pos len : BitVec 8) (t : ITy)
  /-- BFI (R169) -/
  | bfi (c : Ctl) (d a : Reg) (pos len : BitVec 8)
  /-- SEL (R170) -/
  | sel (c : Ctl) (d a b kc : Reg)
  /-- ICMP (R170) -/
  | icmp (c : Ctl) (rel : IRel) (d a b : Reg) (t : WTy)
  /-- LEA (R171) -/
  | lea (c : Ctl) (d a b : Reg) (sh : BitVec 8) (t : ITy)
  /-- ADD64 (R171) -/
  | add64 (c : Ctl) (d a b : Reg)
  /-- ADD64_I (R171) -/
  | add64I (c : Ctl) (d a : Reg) (imm : BitVec 26)
  /-- MOV (R172) -/
  | mov (c : Ctl) (d a : Reg) (t : WTy)
  /-- MOV_S (R172) -/
  | movS (c : Ctl) (d sa : Reg) (t : WTy)
  /-- MOVI (R172) -/
  | movi (c : Ctl) (d : Reg) (imm : BitVec 32)
  /-- SREAD (R173) -/
  | sread (c : Ctl) (d : Reg) (r : SReg)
  /-- SWRITE (R174) -/
  | swrite (c : Ctl) (sd a : Reg) (t : WTy)
  /-- FADD (R177) -/
  | fadd (c : Ctl) (d a b : Reg) (t : FTy) (rnd : Rnd) (ftz : Bool)
  /-- FSUB (R177) -/
  | fsub (c : Ctl) (d a b : Reg) (t : FTy) (rnd : Rnd) (ftz : Bool)
  /-- FMUL (R177) -/
  | fmul (c : Ctl) (d a b : Reg) (t : FTy) (rnd : Rnd) (ftz : Bool)
  /-- FMA (R177) -/
  | fma (c : Ctl) (d a b e : Reg) (t : FTy) (rnd : Rnd) (ftz : Bool)
  /-- FMIN (R178) -/
  | fmin (c : Ctl) (d a b : Reg) (t : FTy) (ftz : Bool)
  /-- FMAX (R178) -/
  | fmax (c : Ctl) (d a b : Reg) (t : FTy) (ftz : Bool)
  /-- FCMP (R179) -/
  | fcmp (c : Ctl) (rel : FRel) (d a b : Reg) (t : FTy) (ftz : Bool)
  /-- FCLASS (R179) -/
  | fclass (c : Ctl) (d a : Reg) (t : FTy)
  /-- FRND (R180) -/
  | frnd (c : Ctl) (d a : Reg) (t : FTy) (rnd : Rnd)
  /-- FSQRT (R177) -/
  | fsqrt (c : Ctl) (d a : Reg) (t : FTy) (rnd : Rnd) (ftz : Bool)
  /-- FRCP (R157) -/
  | frcp (c : Ctl) (d a : Reg) (ftz : Bool)
  /-- FRSQ (R157) -/
  | frsq (c : Ctl) (d a : Reg) (ftz : Bool)
  /-- FEXP2 (R157) -/
  | fexp2 (c : Ctl) (d a : Reg) (ftz : Bool)
  /-- FLOG2 (R157) -/
  | flog2 (c : Ctl) (d a : Reg) (ftz : Bool)
  /-- FSINP (R157) -/
  | fsinp (c : Ctl) (d a : Reg) (ftz : Bool)
  /-- FCOSP (R157) -/
  | fcosp (c : Ctl) (d a : Reg) (ftz : Bool)
  /-- HADD2 (R177) -/
  | hadd2 (c : Ctl) (d a b : Reg) (t : PTy) (rnd : Rnd) (ftz : Bool)
  /-- HMUL2 (R177) -/
  | hmul2 (c : Ctl) (d a b : Reg) (t : PTy) (rnd : Rnd) (ftz : Bool)
  /-- HFMA2 (R177) -/
  | hfma2 (c : Ctl) (d a b e : Reg) (t : PTy) (rnd : Rnd) (ftz : Bool)
  /-- DOT4 (R181) -/
  | dot4 (c : Ctl) (d a b e : Reg) (asg bsg sat : Bool)
  /-- DOTTS (R182) -/
  | dotts (c : Ctl) (d a b e : Reg) (ftz : Bool)
  /-- CVT (R184) -/
  | cvt (c : Ctl) (d a : Reg) (dt srcT : CTy) (rnd : Rnd) (ovf : Ovf) (ftz : Bool) (sc : (Option Reg))
  /-- CVTTS (R185) -/
  | cvtts (c : Ctl) (d a : Reg) (t : FTy) (ftz : Bool)
  /-- PACK (R186) -/
  | pack (c : Ctl) (d a : Reg) (t : KTy) (rnd : Rnd) (ovf : Ovf) (ftz : Bool)
  /-- UNPACK (R186) -/
  | unpack (c : Ctl) (d a : Reg) (j : BitVec 8) (t : KTy)
  /-- BLKD_RD (R187) -/
  | blkdRd (c : Ctl) (d a : Reg) (off : BitVec 16) (sp : Space) (sc : Scope)
  /-- BLKD_SET (R187) -/
  | blkdSet (c : Ctl) (d a : Reg) (off : BitVec 16) (sp : Space) (sc : Scope)
  /-- PLOG (R129) -/
  | plog (c : Ctl) (op : POp) (d a b : Reg) (inv : Bool)
  /-- PMOV (R129) -/
  | pmov (c : Ctl) (d a : Reg) (inv : Bool)
  /-- PMOV_TOW (R129) -/
  | pmovTow (c : Ctl) (d : Reg)
  /-- PMOV_FROMW (R129) -/
  | pmovFromw (c : Ctl) (a : Reg)
  /-- VOTE (R131) -/
  | vote (c : Ctl) (op : VoteOp) (d a : Reg) (neg : Bool)
  /-- BALLOT (R131) -/
  | ballot (c : Ctl) (d a : Reg) (neg : Bool)
  /-- SHFL (R132) -/
  | shfl (c : Ctl) (op : ShflOp) (d a : Reg) (sel : ShflSel)
  /-- REDUX (R133) -/
  | redux (c : Ctl) (op : ReduxOp) (t : RTy) (d a : Reg) (rnd : Rnd) (ftz : Bool)
  /-- LD (R212) -/
  | ld (c : Ctl) (d a : Reg) (off : BitVec 16) (sz : MSize) (sc : Scope) (na sx : Bool)
  /-- ST (R212) -/
  | st (c : Ctl) (d a : Reg) (off : BitVec 16) (sz : MSize) (sc : Scope)
  /-- LDC (R212) -/
  | ldc (c : Ctl) (d sa : Reg) (off : BitVec 16) (sz : MSize) (sx : Bool)
  /-- PREF (R213) -/
  | pref (c : Ctl) (a : Reg) (off : BitVec 16) (sc : Scope)
  /-- PREF_TR (R213) -/
  | prefTr (c : Ctl) (a : Reg) (off : BitVec 16) (sc : Scope)
  /-- PMIG_COMB (R213) -/
  | pmigComb (c : Ctl) (a : Reg) (off : BitVec 16) (sc : Scope)
  /-- PMIG_POOL (R213) -/
  | pmigPool (c : Ctl) (a : Reg) (off : BitVec 16) (sc : Scope)
  /-- FENCE (R214) -/
  | fence (c : Ctl) (sc : Scope)
  /-- TLBFILL (R216) -/
  | tlbfill (c : Ctl) (a b : Reg)
  /-- TLBINV_PG (R215) -/
  | tlbinvPg (c : Ctl) (a : Reg)
  /-- TLBINV_ASID (R215) -/
  | tlbinvAsid (c : Ctl)
  /-- TLBINV_ALL (R215) -/
  | tlbinvAll (c : Ctl)
  /-- WRET (R216) -/
  | wret (c : Ctl) (a : Reg)
  /-- ATOM (R276) -/
  | atom (c : Ctl) (op : AOp) (t : ATy) (o : Order) (sc : Scope) (d a b : Reg)
  /-- CAS (R276) -/
  | cas (c : Ctl) (t : ATy) (o : Order) (sc : Scope) (d a b e : Reg)
  /-- RED (R276) -/
  | red (c : Ctl) (op : RedOp) (t : ATy) (o : RedOrder) (sc : Scope) (a b : Reg)
  /-- LDS (R221) -/
  | lds (c : Ctl) (d a : Reg) (off : BitVec 16) (sz : MSize) (sx : Bool)
  /-- STS (R221) -/
  | sts (c : Ctl) (d a : Reg) (off : BitVec 16) (sz : MSize)
  /-- SPTAG_LOOK (R224) -/
  | sptagLook (c : Ctl) (d a : Reg)
  /-- SPTAG_SET (R224) -/
  | sptagSet (c : Ctl) (d a b : Reg)
  /-- SPTAG_CLR (R224) -/
  | sptagClr (c : Ctl) (d a : Reg)
  /-- TCOPY (R232) -/
  | tcopy (c : Ctl) (d a b : Reg) (bn : (Option (BitVec 4))) (sc : Scope)
  /-- TSTORE (R232) -/
  | tstore (c : Ctl) (d a b : Reg) (bn : (Option (BitVec 4))) (sc : Scope)
  /-- CSEAL (R236) -/
  | cseal (c : Ctl) (batch : BitVec 4)
  /-- CWAIT (R236) -/
  | cwait (c : Ctl) (batch : BitVec 4)
  /-- BAR_INIT (R228) -/
  | barInit (c : Ctl) (n : BitVec 4) (a : Reg) (ext : Bool)
  /-- BAR_ARRIVE (R228) -/
  | barArrive (c : Ctl) (n : BitVec 4) (x : Bool)
  /-- BAR_WAIT (R228) -/
  | barWait (c : Ctl) (n : BitVec 4)
  /-- MMA (R243) -/
  | mma (c : Ctl) (x : XCtl) (a b : Reg) (m : MMods)
  /-- MMAG (R245) -/
  | mmag (c : Ctl) (x : XCtl) (a b : Reg) (m : MMods)
  /-- MMS (R246) -/
  | mms (c : Ctl) (x : XCtl) (a b : Reg) (m : MMods)
  /-- ACCZ (R250) -/
  | accz (c : Ctl) (x : XCtl)
  /-- ACCLD (R250) -/
  | accld (c : Ctl) (x : XCtl) (a : Reg)
  /-- ACCST (R250) -/
  | accst (c : Ctl) (x : XCtl) (a : Reg) (accf fl : Bool)
  /-- DRAIN (R252) -/
  | drain (c : Ctl) (x : XCtl) (a b : Reg) (t : DTy) (rnd : Rnd) (ovf : Ovf) (accf : Bool)
  /-- WAITA (R285) -/
  | waita (c : Ctl) (d a b : Reg) (eq w64 : Bool) (sc : Scope)
  /-- SPAWN (R289) -/
  | spawn (c : Ctl) (a : Reg)
  /-- JOIN (R285) -/
  | join (c : Ctl) (a b : Reg) (sc : Scope)
  /-- ATFLUSH (R294) -/
  | atflush (c : Ctl)
  /-- TBAR (R288) -/
  | tbar (c : Ctl) (sc : Scope)
  /-- TXFER (R318) -/
  | txfer (c : Ctl) (d a b : Reg) (bn : (Option (BitVec 4))) (pull : Bool) (sc : Scope)
  /-- FLOW_RESET (R321) -/
  | flowReset (c : Ctl) (key : BitVec 16)
  /-- SYSCALL (R344) -/
  | syscall (c : Ctl) (d a : Reg) (code : BitVec 16)
  /-- TRAP (R348) -/
  | trap (c : Ctl) (a : Reg) (code : BitVec 16) (resume : Bool)
  /-- BRK (R370) -/
  | brk (c : Ctl) (code : BitVec 16)
  /-- MARK (R370) -/
  | mark (c : Ctl) (a : Reg) (code : BitVec 16) (w64 : Bool)
  /-- CRD (R371) -/
  | crd (c : Ctl) (d : Reg) (r : CReg)
  /-- CWR (R371) -/
  | cwr (c : Ctl) (a : Reg) (r : CReg)
  /-- CLAUSE_FETCH (R108) -/
  | clauseFetch (bundle : Nat)
  /-- RESULT_LANDS (R104) -/
  | resultLands (t : ThreadName) (k : Nat)
  /-- STORE_PERFORM (R263) -/
  | storePerform (core : Nat)
  /-- WAIT_WAKE (R286) -/
  | waitWake (t : ThreadName)
  /-- WAIT_POLL (R286) -/
  | waitPoll (t : ThreadName)
  /-- WALK_LIMIT_EXPIRY (R195) -/
  | walkLimitExpiry (core slot : Nat)
  /-- REGROUP_AGE_EXPIRY (R114) -/
  | regroupAgeExpiry (core bin : Nat)
  /-- ISLAND_IDLE (R134) -/
  | islandIdle (island : Nat)
  /-- RAMP_STEP (R134) -/
  | rampStep (island : Nat)
  /-- BREAKPOINT_HIT (R373) -/
  | breakpointHit (t : ThreadName) (bp : Nat)
  /-- COPY_BLOCK_LAND (R233) -/
  | copyBlockLand (op blk : Nat)
  /-- COPY_RETIRE (R233) -/
  | copyRetire (op : Nat)
  /-- COPY_PAGE_FAULT (R234) -/
  | copyPageFault (op blk : Nat)
  /-- TRANSFER_RETIRE (R318) -/
  | transferRetire (op : Nat)
  /-- MATRIX_OP_BEGIN (R248) -/
  | matrixOpBegin (pair : Nat)
  /-- MATRIX_OP_RETIRE (R248) -/
  | matrixOpRetire (pair op : Nat)
  /-- MMS_STREAM_COMPLETE (R246) -/
  | mmsStreamComplete (pair op : Nat)
  /-- MX_FETCH (R254) -/
  | mxFetch (pair op : Nat) (why : MxWhy)
  /-- STARVATION_FLUSH (R293) -/
  | starvationFlush (key : TeamKey)
  /-- QWPTR_DOORBELL (R38) -/
  | qwptrDoorbell (q : Nat) (widx : W32)
  /-- QUEUE_ENABLE (R37) -/
  | queueEnable (q : Nat) (v : W64)
  /-- QUEUE_DISABLE (R39) -/
  | queueDisable (q : Nat) (v : W64)
  /-- QUEUE_HALT_CLEAR (R45) -/
  | queueHaltClear (q : Nat) (v : W64)
  /-- PACKET_FETCH (R42) -/
  | packetFetch
  /-- LAUNCH_PACKET (R48) -/
  | launchPacket (p : PktName)
  /-- LAUNCH_BEGIN (R57) -/
  | launchBegin (p : PktName)
  /-- REUSE_COPY_COMPLETE (R65) -/
  | reuseCopyComplete (p : PktName)
  /-- COLL_PACKET (R322) -/
  | collPacket (p : PktName)
  /-- WRITE_PACKET (R47) -/
  | writePacket (p : PktName)
  /-- WAITV_PACKET (R47) -/
  | waitvPacket (p : PktName)
  /-- WAITV_TIMEOUT (R47) -/
  | waitvTimeout (p : PktName)
  /-- FENCE_PACKET (R47) -/
  | fencePacket (p : PktName)
  /-- SEAL_PACKET (R359) -/
  | sealPacket (p : PktName)
  /-- CANCEL_PACKET (R335) -/
  | cancelPacket (p : PktName)
  /-- SPAWN_ACCEPT (R52) -/
  | spawnAccept (key : TeamKey)
  /-- DISPATCH_BATCH (R71) -/
  | dispatchBatch (die ctx launch grid : Nat)
  /-- DISPATCH_START (R73) -/
  | dispatchStart (die : Nat)
  /-- MIGRATION_ATTEMPT (R74) -/
  | migrationAttempt (die : Nat)
  /-- MIGRATION_TIMEOUT (R74) -/
  | migrationTimeout (die : Nat)
  /-- SPATIAL_PREEMPT (R75) -/
  | spatialPreempt (die : Nat)
  /-- WINDOW_RESERVE (R76) -/
  | windowReserve (die : Nat)
  /-- SWAP_OUT (R81) -/
  | swapOut (key : TeamKey)
  /-- SWAP_READMIT (R82) -/
  | swapReadmit (key : TeamKey)
  /-- READMIT_OTHER_DIE (R82) -/
  | readmitOtherDie (key : TeamKey) (die : Nat)
  /-- TEAM_RETIRE (R122) -/
  | teamRetire (key : TeamKey)
  /-- LAUNCH_COMPLETE (R355) -/
  | launchComplete (ctx launch : Nat)
  /-- CTX_ENABLE (R40) -/
  | ctxEnable (ctx : Nat) (v : W64)
  /-- CTX_TEARDOWN (R41) -/
  | ctxTeardown (ctx : Nat) (v : W64)
  /-- CTX_QUOTA_CHANGE (R40) -/
  | ctxQuotaChange (ctx : Nat) (v : W64)
  /-- CTXCORE_WRITE (R68) -/
  | ctxcoreWrite (ctx word : Nat) (v : W64)
  /-- TLBSHOOT_PAGE (R199) -/
  | tlbshootPage (v : W64)
  /-- TLBSHOOT_ASID (R199) -/
  | tlbshootAsid (v : W64)
  /-- TLBSHOOT_ALL (R199) -/
  | tlbshootAll (v : W64)
  /-- TLBSHOOT_DONE (R199) -/
  | tlbshootDone
  /-- DERIVED_REGION_VALIDATE (R202) -/
  | derivedRegionValidate (n : Nat) (v : W64)
  /-- DERIVED_REGION_INVALIDATE (R202) -/
  | derivedRegionInvalidate (n : Nat) (v : W64)
  /-- PAGE_MIGRATE (R200) -/
  | pageMigrate (ctx va newPa : Nat)
  /-- HINT_DRAIN (R201) -/
  | hintDrain
  /-- HIVE_TAKE_EVENT (R66) -/
  | hiveTakeEvent (syscore : Nat) (replies : List SvcReply)
  /-- EVENT_POST_DEFERRED (R66) -/
  | eventPostDeferred
  /-- FAULT_RECORD_DEFERRED (R332) -/
  | faultRecordDeferred
  /-- FAULTACK_REPLAY (R334) -/
  | faultackReplay (group : Nat)
  /-- FAULTACK_FAIL (R333) -/
  | faultackFail (group : Nat)
  /-- FAULTACK_CANCEL (R333) -/
  | faultackCancel (group : Nat)
  /-- FP_WINDOW_CLOSE (R337) -/
  | fpWindowClose (core ctx launch : Nat)
  /-- PREEMPT_VACATE (R340) -/
  | preemptVacate (v : W64)
  /-- PREEMPT_DONE (R339) -/
  | preemptDone
  /-- CTXRESUME (R339) -/
  | ctxresume (v : W64)
  /-- CORECALL (R372) -/
  | corecall (v : W64)
  /-- DEBUG_ATTACH (R374) -/
  | debugAttach (ctx : Nat)
  /-- DEBUG_DETACH (R375) -/
  | debugDetach (ctx : Nat)
  /-- DEBUG_STOP (R375) -/
  | debugStop (ctx launch : Nat)
  /-- DEBUG_RESUME (R375) -/
  | debugResume (ctx launch : Nat)
  /-- DEBUG_STEP_FOCUSED (R376) -/
  | debugStepFocused (ctx launch : Nat)
  /-- DEBUG_STEP_ALL (R376) -/
  | debugStepAll (ctx launch : Nat)
  /-- ISSUESHAPE_WRITE (R393) -/
  | issueshapeWrite (island : Nat) (v : W64)
  /-- ISLCTL_WRITE (R390) -/
  | islctlWrite (island : Nat) (v : W64)
  /-- ISLAND_CLOCK_CHANGE (R390) -/
  | islandClockChange (island : Nat)
  /-- TRACECFG_WRITE (R365) -/
  | tracecfgWrite (ctx : Nat) (v : W64)
  /-- TRACE_SAMPLE (R367) -/
  | traceSample (core ctx : Nat)
  /-- REGISTER_WRITE (R10) -/
  | registerWrite (who : Writer) (addr : Nat) (v : W64)
  /-- SEGMENT_DATA_RECEIVE (R309) -/
  | segmentDataReceive (seg : SegName) (flips : List Nat)
  /-- SEGMENT_NAK_RECEIVE (R310) -/
  | segmentNakReceive (nak : Nat)
  /-- SEGMENT_REFRESH_RECEIVE (R310) -/
  | segmentRefreshReceive (seg : SegName) (flips : List Nat)
  /-- FLIT_REPLAY (R309) -/
  | flitReplay (seg : Nat)
  /-- COLL_MATCH_RECEIVE (R323) -/
  | collMatchReceive (p : PktName) (member : Nat) (msg : List Byte)
  /-- COLL_STEP_COMPLETE (R325) -/
  | collStepComplete (p : PktName) (step : Nat)
  /-- COLL_TIMEOUT (R323) -/
  | collTimeout (p : PktName)
  /-- POD_ARRIVAL_RECEIVE (R326) -/
  | podArrivalReceive (p : PktName) (member stamp : Nat)
  /-- POD_BARRIER_RELEASE (R326) -/
  | podBarrierRelease (p : PktName)
  /-- POD_GROUP_FILE (R326) -/
  | podGroupFile (p : PktName) (group : Nat)
  /-- HOST_MEMORY_ACCESS (R188, R388) -/
  | hostMemoryAccess (ctx va : Nat) (what : HostAccess)
  /-- UNCORRECTABLE_ERROR (R349) -/
  | uncorrectableError (place : ErrPlace)
  /-- CORRECTABLE_ERROR (R349) -/
  | correctableError
  /-- BOOT (R383) -/
  | boot (e : BootEvent)
  /-- RECOVGO (R385) -/
  | recovgo (v : W32)
  /-- FREEZE (R378) -/
  | freeze
  /-- PEER_SILENCE_TIMEOUT (R378) -/
  | peerSilenceTimeout (px py pz : Nat)
  /-- THERMAL_HOT (R391) -/
  | thermalHot (island : Nat) (temp : BitVec 16)
  /-- THERMAL_TRIP (R391) -/
  | thermalTrip (island : Nat) (temp : BitVec 16)
  /-- TIMER_EVENT (R66) -/
  | timerEvent (id : W64)
deriving DecidableEq, Repr

end Sys2Proof
end

