-- ==== Sys2Proof/Machine/Flags.lean ====
section
/-! DEFINITION. Flags.lean: the floating-point exception flags (R156) and the one rounding rule from which every
instruction computes its result and its flags: rounding modes (R153), flushing (R154), overflow (R155). -/

namespace Sys2Proof.Machine

/-- The flags of R156, in the order of the FPTRAP bits (R27): FP_INV, FP_DIVZ, FP_OVF, FP_UNF, FP_INX. -/
structure FpFlags where
  inv : Bool := false
  divz : Bool := false
  ovf : Bool := false
  unf : Bool := false
  inx : Bool := false
deriving DecidableEq, Repr

/-- No flag. -/
def FpFlags.none : FpFlags := {}

/-- Both sets of flags. -/
def FpFlags.or (f g : FpFlags) : FpFlags :=
  { inv := f.inv || g.inv, divz := f.divz || g.divz, ovf := f.ovf || g.ovf, unf := f.unf || g.unf,
    inx := f.inx || g.inx }

/-- The flags as the five bits of FPTRAP and FLG: bit 0 FP_INV to bit 4 FP_INX. -/
def FpFlags.bits (f : FpFlags) : BitVec 5 :=
  (bit f.inx) ++ (bit f.unf) ++ (bit f.ovf) ++ (bit f.divz) ++ (bit f.inv)
where
  bit (b : Bool) : BitVec 1 := if b then 1 else 0

/-- FP_INV alone, where a condition holds. -/
def FpFlags.invIf (b : Bool) : FpFlags := { inv := b }

/-- A float format: exponent bits, fraction bits, bias (R142). -/
structure FFmt where
  expBits : Nat
  fracBits : Nat
  bias : Nat
deriving DecidableEq, Repr

def FFmt.f32 : FFmt := { expBits := 8, fracBits := 23, bias := 127 }
def FFmt.f16 : FFmt := { expBits := 5, fracBits := 10, bias := 15 }
def FFmt.bf16 : FFmt := { expBits := 8, fracBits := 7, bias := 127 }

/-- The exponent of the smallest normal. -/
def FFmt.emin (F : FFmt) : Int := 1 - (F.bias : Int)

/-- Bits of a value. -/
def FFmt.width (F : FFmt) : Nat := 1 + F.expBits + F.fracBits

/-- Zero of a sign. -/
def FFmt.zero (F : FFmt) (neg : Bool) : Nat := if neg then 2 ^ (F.expBits + F.fracBits) else 0

/-- Infinity of a sign. -/
def FFmt.inf (F : FFmt) (neg : Bool) : Nat := F.zero neg + (2 ^ F.expBits - 1) * 2 ^ F.fracBits

/-- The largest finite value of a sign. -/
def FFmt.huge (F : FFmt) (neg : Bool) : Nat := F.inf neg - 1

/-- The canonical NaN (R143). -/
def FFmt.nan (F : FFmt) : Nat := F.inf false + 2 ^ (F.fracBits - 1)

/-- What the bits of a float stand for. A finite value is a sign, a magnitude and a power of two. -/
inductive FVal
  | nan (signalling : Bool)
  | inf (neg : Bool)
  | fin (neg : Bool) (m : Nat) (e : Int)
deriving DecidableEq, Repr

/-- Reading a float (R142). -/
def FFmt.read (F : FFmt) (x : Nat) : FVal :=
  let frac := x % 2 ^ F.fracBits
  let ex := x / 2 ^ F.fracBits % 2 ^ F.expBits
  let neg := x / 2 ^ (F.expBits + F.fracBits) % 2 == 1
  if ex == 2 ^ F.expBits - 1 then
    if frac == 0 then .inf neg else .nan (frac / 2 ^ (F.fracBits - 1) == 0)
  else if ex == 0 then .fin neg frac (F.emin - F.fracBits)
  else .fin neg (frac + 2 ^ F.fracBits) ((ex : Int) - F.bias - F.fracBits)

/-- Whether the bits are a denormal (R142). -/
def FFmt.denormal (F : FFmt) (x : Nat) : Bool :=
  x / 2 ^ F.fracBits % 2 ^ F.expBits == 0 && x % 2 ^ F.fracBits != 0

/-- The sign of the bits. -/
def FFmt.neg (F : FFmt) (x : Nat) : Bool := x / 2 ^ (F.expBits + F.fracBits) % 2 == 1

/-- Bits read under ftz: a denormal is zero of its sign and raises no flag (R154). -/
def FFmt.flushIn (F : FFmt) (ftz : Bool) (x : Nat) : Nat :=
  if ftz && F.denormal x then F.zero (F.neg x) else x

/-- Reading an operand under ftz (R154). -/
def FFmt.operand (F : FFmt) (ftz : Bool) (x : Nat) : FVal := F.read (F.flushIn ftz x)

/-- A magnitude known exactly: m times 2^e, or strictly between that and (m + 1) times 2^e where sticky holds. -/
structure Exact where
  neg : Bool
  m : Nat
  e : Int
  sticky : Bool := false
deriving DecidableEq, Repr

/-- Whether a magnitude that lies strictly between lo and lo + 1 goes up, in the mode of R153: neg its sign, odd
whether lo is odd, c how it compares with the midpoint. -/
def roundsUp (rnd : Rnd) (neg odd : Bool) (c : Ordering) : Bool :=
  match rnd with
  | .rn => c == .gt || (c == .eq && odd)
  | .rz => false
  | .rd => neg
  | .ru => !neg
  | .ra => c != .lt

/-- Rounding m (with its sticky part) to a multiple of 2^s, in units of 2^s; and whether anything was lost. -/
def roundShift (rnd : Rnd) (neg : Bool) (m s : Nat) (sticky : Bool) : Nat × Bool :=
  let hi := m / 2 ^ s
  let r := m % 2 ^ s
  if r == 0 && !sticky then (hi, false)
  else
    let c : Ordering :=
      if 2 * r > 2 ^ s then .gt
      else if 2 * r == 2 ^ s then (if sticky then .gt else .eq)
      else .lt
    (if roundsUp rnd neg (hi % 2 == 1) c then hi + 1 else hi, true)

/-- Rounding to a multiple of 2^q: the multiple and whether anything was lost. -/
def Exact.toQuantum (x : Exact) (rnd : Rnd) (q : Int) : Nat × Bool :=
  if q <= x.e then (x.m * 2 ^ (x.e - q).toNat, x.sticky)
  else roundShift rnd x.neg x.m (q - x.e).toNat x.sticky

/-- The exponent of the leading one of m times 2^e, m not 0. -/
def topExp (m : Nat) (e : Int) : Int := (Nat.log2 m : Int) + e

/-- The bits of a finite value that the format holds: a multiple r of 2^q, with q at least the quantum of its range. -/
def FFmt.encode (F : FFmt) (neg : Bool) (r : Nat) (q : Int) : Nat :=
  if r == 0 then F.zero neg
  else
    let t := topExp r q
    if t < F.emin then F.zero neg + r * 2 ^ (q - (F.emin - F.fracBits)).toNat
    else
      let sh := (F.fracBits : Int) - (Nat.log2 r : Int)
      let sig := if sh < 0 then r / 2 ^ (-sh).toNat else r * 2 ^ sh.toNat
      F.zero neg + (t + F.bias).toNat * 2 ^ F.fracBits + (sig - 2 ^ F.fracBits)

/-- What rounding to a format gives: bits with their flags, or a result beyond the largest finite value (R155). -/
inductive Rounded
  | done (bits : Nat) (fl : FpFlags)
  | over (neg : Bool)
deriving DecidableEq, Repr

/-- Rounding once to prec significant bits in a format's range (R153, R157), with flushing (R154) and the flags of
R156: FP_UNF where the result is tiny after rounding and inexact, FP_INX where it differs from the exact value. -/
def FFmt.round (F : FFmt) (prec : Nat) (rnd : Rnd) (ftz : Bool) (x : Exact) : Rounded :=
  if x.m == 0 then .done (F.zero x.neg) {}
  else
    let free := topExp x.m x.e - ((prec : Int) - 1)
    let q := max free (F.emin - F.fracBits)
    let r := x.toQuantum rnd q
    let u := x.toQuantum rnd free
    let top := topExp u.1 free
    if top > F.bias then .over x.neg
    else
      let unf := r.2 && top < F.emin
      if ftz && r.1 != 0 && topExp r.1 q < F.emin then .done (F.zero x.neg) { unf := true, inx := true }
      else .done (F.encode x.neg r.1 q) { unf := unf, inx := r.2 }

/-- IEEE 754 overflow in a rounding mode (R155). -/
def FFmt.ieeeOver (F : FFmt) (rnd : Rnd) (neg : Bool) : Nat :=
  match rnd with
  | .rn | .ra => F.inf neg
  | .rz => F.huge neg
  | .rd => if neg then F.inf neg else F.huge neg
  | .ru => if neg then F.huge neg else F.inf neg

/-- A result and the flags it raises. -/
structure FRes where
  bits : Nat
  fl : FpFlags
deriving DecidableEq, Repr

/-- Rounding with the IEEE overflow of R155. -/
def FFmt.roundIeee (F : FFmt) (prec : Nat) (rnd : Rnd) (ftz : Bool) (x : Exact) : FRes :=
  match F.round prec rnd ftz x with
  | .done b fl => { bits := b, fl := fl }
  | .over neg => { bits := F.ieeeOver rnd neg, fl := { ovf := true, inx := true } }

/-- A float destination's overflow under a policy (R155); none is CVT_OVF. -/
def FFmt.polOver (F : FFmt) (o : Ovf) (neg : Bool) : Option Nat :=
  match o with
  | .sat => some (F.huge neg)
  | .inf => some (F.inf neg)
  | .nan => some F.nan
  | .trp => none

/-- Rounding with an overflow policy (R155); none is CVT_OVF. -/
def FFmt.roundPol (F : FFmt) (rnd : Rnd) (o : Ovf) (ftz : Bool) (x : Exact) : Option FRes :=
  match F.round (F.fracBits + 1) rnd ftz x with
  | .done b fl => some { bits := b, fl := fl }
  | .over neg => (F.polOver o neg).map fun b => { bits := b, fl := { ovf := true, inx := true } }

/-- Rounding to an integer in a mode: the integer and whether a fraction was discarded (R155). -/
def Exact.toInt (x : Exact) (rnd : Rnd) : Int × Bool :=
  let r := x.toQuantum rnd 0
  (if x.neg then -(r.1 : Int) else r.1, r.2)

/-- A NaN result: canonical (R143), with FP_INV where the operation is invalid or reads a signalling NaN (R156). -/
def FFmt.nanRes (F : FFmt) (inv : Bool) : FRes := { bits := F.nan, fl := { inv := inv } }

/-- Exact bits with no flag. -/
def FRes.ofBits (b : Nat) : FRes := { bits := b, fl := {} }

end Sys2Proof.Machine
end

