-- ==== Sys2Proof/Config.lean ====
section
/-! DEFINITION. Config.lean: what the spec leaves open. Every constant here is opaque and has no body, so nothing
in Lean can evaluate it and no proof can use a value of it. -/

namespace Sys2Proof.Config

/-- A free yes or no, fresh for each number: whether a team-scope load that finds its line in the L1 read cache is
served from it (R211 says only that it may be), and the like. Log entry 3, DESIGN CHOICE. -/
opaque freeBool : Nat → Bool

/-- A free choice among finitely many, fresh for each number; the user of it takes it modulo the count. Log
entry 3. -/
opaque freeNat : Nat → Nat

/-- The 3,604 signature bytes a receipt signer writes (R361): signer, signature index, signed bytes, byte offset.
The private key never leaves the signer (R386). Log entry 4, DESIGN CHOICE. -/
opaque hssByte : Nat → Nat → List Byte → Nat → Byte

/-- The fused device id's serial bytes 4 to 15 (R386). Log entry 4, DESIGN CHOICE. -/
opaque serialByte : Nat → Byte

/-- The contents of the parts of a signer's certificate that R386 does not fix: hub, part. Log entry 121, PRESUMED. -/
opaque certPart : Nat → Nat → List Byte

/-- Byte of a signer's certificate window behind the certificate (R386): hub, offset. Log entry 4, DESIGN CHOICE. -/
opaque certTail : Nat → Nat → Byte

/-- Bytes of a signer's HSS public key that its parameters do not fix: I and the root of its upper tree (R361, R386). Log
entry 4, DESIGN CHOICE. -/
opaque hssKeyByte : Nat → Nat → Byte

/-- The fields that the ROM finds in a firmware image, whose layout the spec does not give (R384): the vendor's root public key,
the firmware public key, the root's signature over it, SVN, the body and the firmware key's signature. Log entry 107,
DESIGN CHOICE. -/
opaque imageRootKey : List Byte → List Byte
opaque imageKey : List Byte → List Byte
opaque imageKeySig : List Byte → List Byte
opaque imageSvn : List Byte → Nat
opaque imageBody : List Byte → List Byte
opaque imageBodySig : List Byte → List Byte

/-- The hash of the root public key that is fused into H0 (R384). Log entry 107, DESIGN CHOICE. -/
opaque rootHashByte : Nat → Byte

/-- What an island's voltage sensor reads, in mV: island, time (R390). Log entry 52, DESIGN CHOICE. -/
opaque islandMv : Nat → Nat → BitVec 16

/-- The fused minimum security version (R384). Log entry 4, DESIGN CHOICE. -/
opaque minSvn : Nat

end Sys2Proof.Config
end

