-- ==== Sys2Proof/Machine/Float.lean ====
section
/-! DEFINITION. Float.lean: float arithmetic on bits (R177 to R180), the twin-shift format (R144, R185), block scales
(R147), and the order of sums (R159, R160). Every function is total and takes bits to bits. -/

namespace Sys2Proof.Machine

/-- Whether a value is a signalling NaN. -/
def FVal.signalling (v : FVal) : Bool := match v with | .nan s => s | _ => false

/-- Whether a value is a NaN. -/
def FVal.isNan (v : FVal) : Bool := match v with | .nan _ => true | _ => false

/-- The value with its sign turned. -/
def FVal.negate (v : FVal) : FVal :=
  match v with
  | .nan s => .nan s
  | .inf n => .inf (!n)
  | .fin n m e => .fin (!n) m e

/-- A signed magnitude as an integer number of 2^q, q at most e. -/
def signedAt (neg : Bool) (m : Nat) (e q : Int) : Int :=
  let k : Int := (m * 2 ^ (e - q).toNat : Nat)
  if neg then -k else k

/-- The exact sum of two finite values; a zero sum of unlike signs is -0 under rd and +0 otherwise (R177). -/
def exactSum (rnd : Rnd) (n1 : Bool) (m1 : Nat) (e1 : Int) (n2 : Bool) (m2 : Nat) (e2 : Int) : Exact :=
  let q := min e1 e2
  let s := signedAt n1 m1 e1 q + signedAt n2 m2 e2 q
  if s == 0 then
    if m1 == 0 && m2 == 0 && n1 == n2 then { neg := n1, m := 0, e := 0 }
    else { neg := rnd == .rd, m := 0, e := 0 }
  else { neg := s < 0, m := s.natAbs, e := q }

/-- The sum of two values, rounded once (R177). -/
def FFmt.addVal (F : FFmt) (rnd : Rnd) (ftz : Bool) (x y : FVal) : FRes :=
  match x, y with
  | .nan s, v => F.nanRes (s || v.signalling)
  | .inf _, .nan s => F.nanRes s
  | .fin _ _ _, .nan s => F.nanRes s
  | .inf a, .inf b => if a == b then .ofBits (F.inf a) else F.nanRes true
  | .inf a, .fin _ _ _ => .ofBits (F.inf a)
  | .fin _ _ _, .inf b => .ofBits (F.inf b)
  | .fin n1 m1 e1, .fin n2 m2 e2 => F.roundIeee (F.fracBits + 1) rnd ftz (exactSum rnd n1 m1 e1 n2 m2 e2)

/-- fadd (R177). -/
def FFmt.add (F : FFmt) (rnd : Rnd) (ftz : Bool) (a b : Nat) : FRes :=
  F.addVal rnd ftz (F.operand ftz a) (F.operand ftz b)

/-- fsub (R177). -/
def FFmt.sub (F : FFmt) (rnd : Rnd) (ftz : Bool) (a b : Nat) : FRes :=
  F.addVal rnd ftz (F.operand ftz a) (F.operand ftz b).negate

/-- An exact product: a NaN with whether it is invalid, an infinity, or a finite value. -/
def mulVal (x y : FVal) : FVal × Bool :=
  match x, y with
  | .nan s, v => (.nan false, s || v.signalling)
  | .inf _, .nan s => (.nan false, s)
  | .fin _ _ _, .nan s => (.nan false, s)
  | .inf a, .inf b => (.inf (a != b), false)
  | .inf a, .fin n m _ => if m == 0 then (.nan false, true) else (.inf (a != n), false)
  | .fin n m _, .inf b => if m == 0 then (.nan false, true) else (.inf (n != b), false)
  | .fin n1 m1 e1, .fin n2 m2 e2 => (.fin (n1 != n2) (m1 * m2) (e1 + e2), false)

/-- Rounding a value to a format. -/
def FFmt.ofVal (F : FFmt) (rnd : Rnd) (ftz : Bool) (x : FVal) (inv : Bool) : FRes :=
  match x with
  | .nan s => F.nanRes (inv || s)
  | .inf n => .ofBits (F.inf n)
  | .fin n m e => F.roundIeee (F.fracBits + 1) rnd ftz { neg := n, m := m, e := e }

/-- fmul (R177). -/
def FFmt.mul (F : FFmt) (rnd : Rnd) (ftz : Bool) (a b : Nat) : FRes :=
  let p := mulVal (F.operand ftz a) (F.operand ftz b)
  F.ofVal rnd ftz p.1 p.2

/-- fma: a times b plus c, rounded once (R177). -/
def FFmt.fma (F : FFmt) (rnd : Rnd) (ftz : Bool) (a b c : Nat) : FRes :=
  let p := mulVal (F.operand ftz a) (F.operand ftz b)
  let r := F.addVal rnd ftz p.1 (F.operand ftz c)
  { r with fl := r.fl.or (.invIf p.2) }

/-- The integer square root, bit by bit from bit k downwards: the largest r + x with (r + x)^2 at most n. -/
def isqrtFrom (n : Nat) : Nat → Nat → Nat
  | 0, r => if (r + 1) * (r + 1) <= n then r + 1 else r
  | k + 1, r =>
    let r' := r + 2 ^ (k + 1)
    isqrtFrom n k (if r' * r' <= n then r' else r)

/-- The integer square root. -/
def isqrt (n : Nat) : Nat := isqrtFrom n (Nat.log2 n / 2 + 1) 0

/-- fsqrt (R177): the root of -0 is -0, of any value below zero the canonical NaN with FP_INV. -/
def FFmt.sqrt (F : FFmt) (rnd : Rnd) (ftz : Bool) (a : Nat) : FRes :=
  match F.operand ftz a with
  | .nan s => F.nanRes s
  | .inf n => if n then F.nanRes true else .ofBits (F.inf false)
  | .fin n m e =>
    if m == 0 then .ofBits (F.zero n)
    else if n then F.nanRes true
    else
      let k : Nat := if e % 2 == 0 then 64 else 65
      let big := m * 2 ^ k
      let r := isqrt big
      F.roundIeee (F.fracBits + 1) rnd ftz
        { neg := false, m := r, e := (e - k) / 2, sticky := r * r != big }

/-- Order of two values that are no NaN, with -0 below +0 (R178) as an integer key: twice the magnitude bits plus one,
negated for a negative value. -/
def FFmt.key (F : FFmt) (x : Nat) : Int :=
  let k : Int := (2 * (x % 2 ^ (F.expBits + F.fracBits)) + 1 : Nat)
  if F.neg x then -k else k

/-- fmin and fmax (R178): a NaN operand is passed over, both NaN give the canonical NaN. -/
def FFmt.minMax (F : FFmt) (wantMax ftz : Bool) (a b : Nat) : FRes :=
  let a := F.flushIn ftz a
  let b := F.flushIn ftz b
  let va := F.read a
  let vb := F.read b
  let inv := va.signalling || vb.signalling
  let r :=
    if va.isNan then (if vb.isNan then F.nan else b)
    else if vb.isNan then a
    else if wantMax then (if F.key a >= F.key b then a else b)
    else (if F.key a <= F.key b then a else b)
  { bits := r, fl := .invIf inv }

/-- Order of two values that are no NaN, -0 equal to +0 (R179). -/
def FFmt.ord (F : FFmt) (x : Nat) : Int :=
  let k : Int := (x % 2 ^ (F.expBits + F.fracBits) : Nat)
  if F.neg x then -k else k

/-- fcmp (R179): the relation, and FP_INV for a signalling NaN, and for any NaN under lt, le, gt and ge. -/
def FFmt.cmp (F : FFmt) (rel : FRel) (ftz : Bool) (a b : Nat) : Bool × FpFlags :=
  let a := F.flushIn ftz a
  let b := F.flushIn ftz b
  let un := (F.read a).isNan || (F.read b).isNan
  let sig := (F.read a).signalling || (F.read b).signalling
  let x := F.ord a
  let y := F.ord b
  match rel with
  | .eq => (!un && x == y, .invIf sig)
  | .ne => (un || x != y, .invIf sig)
  | .lt => (!un && x < y, .invIf un)
  | .le => (!un && x <= y, .invIf un)
  | .gt => (!un && x > y, .invIf un)
  | .ge => (!un && x >= y, .invIf un)
  | .un => (un, .invIf sig)
  | .ord => (!un, .invIf sig)

/-- fclass: the number of the one bit set (R179). -/
def FFmt.classBit (F : FFmt) (x : Nat) : Nat :=
  match F.read x with
  | .nan s => if s then 8 else 9
  | .inf n => if n then 0 else 7
  | .fin n m _ =>
    if m == 0 then (if n then 3 else 4)
    else if F.denormal x then (if n then 2 else 5)
    else (if n then 1 else 6)

/-- frnd (R180): rounds to an integral value, raises FP_INV only for a signalling NaN and never FP_INX. -/
def FFmt.rnd (F : FFmt) (rnd : Rnd) (a : Nat) : FRes :=
  match F.read a with
  | .nan s => F.nanRes s
  | .inf _ => .ofBits a
  | .fin n m e =>
    if m == 0 || 0 <= e then .ofBits a
    else .ofBits (F.encode n ({ neg := n, m := m, e := e : Exact }.toQuantum rnd 0).1 0)

/-- The float format of a type (R142). -/
def fmtOfFTy (t : FTy) : FFmt := match t with | .f32 => .f32 | .f16 => .f16 | .bf16 => .bf16

/-- The element format of a packed type (R141). -/
def fmtOfPTy (t : PTy) : FFmt := match t with | .f16x2 => .f16 | .bf16x2 => .bf16

/-! ## The twin-shift format -/

/-- One term of a TS8 byte in 64ths: sign bit and shift; shift 7 is an absent term (R144). -/
def ts8Term (s e : Nat) : Int := if e == 7 then 0 else if s == 1 then -(64 / 2 ^ e : Nat) else (64 / 2 ^ e : Nat)

/-- A TS8 value in 64ths (R144). -/
def ts8Value (b : Nat) : Int := ts8Term (b / 128 % 2) (b / 16 % 8) + ts8Term (b / 8 % 2) (b % 8)

/-- The exact value of a TS8 byte. -/
def ts8Read (b : Nat) : FVal := .fin (ts8Value b < 0) (ts8Value b).natAbs (-6)

/-- The shifts of R185. -/
def ts8Shifts : List Nat := [0, 1, 2, 3, 4, 5, 6]

/-- Pairs of shifts with a below b. -/
def ts8Pairs : List (Nat × Nat) :=
  ts8Shifts.flatMap fun a => (ts8Shifts.filter fun b => a < b).map fun b => (a, b)

/-- The magnitudes of the TS8 values in 64ths, each with the two low fields and the form that R185 writes: single
terms first, then 2, then sums, then differences, the first that carries a value being the one written. -/
def ts8Codes : List (Nat × Nat × Nat × Bool) :=
  [(0, 7, 7, false)] ++ ts8Shifts.map (fun e => (64 / 2 ^ e, e, 7, false)) ++ [(128, 0, 0, false)]
    ++ ts8Pairs.map (fun p => (64 / 2 ^ p.1 + 64 / 2 ^ p.2, p.1, p.2, false))
    ++ ts8Pairs.map (fun p => (64 / 2 ^ p.1 - 64 / 2 ^ p.2, p.1, p.2, true))

/-- The code that R185 writes for a magnitude in 64ths. -/
def ts8Code (neg : Bool) (mag : Nat) : Nat :=
  match ts8Codes.find? fun x => x.1 == mag with
  | none => 0x77
  | some (_, ea, eb, diff) =>
    let s := if neg && mag != 0 then 1 else 0
    let sb := if eb == 7 then 0 else if diff then 1 - s else s
    s * 128 + ea * 16 + sb * 8 + eb

/-- The distance of two naturals. -/
def natDist (a b : Nat) : Nat := if a <= b then b - a else a - b

/-- The magnitude in 64ths nearest to x over d; a tie goes to the smaller (R185). -/
def ts8Nearest (x d : Nat) : Nat :=
  ts8Codes.foldl (init := 0) fun best c =>
    let db := natDist (best * d) x
    let dc := natDist (c.1 * d) x
    if dc < db || (dc == db && c.1 < best) then c.1 else best

/-- cvtts (R185). -/
def toTs8 (F : FFmt) (ftz : Bool) (a : Nat) : FRes :=
  match F.operand ftz a with
  | .nan _ => { bits := 0x77, fl := { inv := true } }
  | .inf n => { bits := ts8Code n 128, fl := { ovf := true, inx := true } }
  | .fin n m e =>
    let x := if 0 <= e + 6 then m * 2 ^ (e + 6).toNat else m
    let d := if 0 <= e + 6 then 1 else 2 ^ (-(e + 6)).toNat
    if x > 128 * d then { bits := ts8Code n 128, fl := { ovf := true, inx := true } }
    else
      let mag := ts8Nearest x d
      { bits := ts8Code n mag, fl := { inx := mag * d != x } }

/-! ## Block scales -/

/-- The scale of a scale byte as quarter steps and a power of two: (4 + f) times 2^(e - 34); none for 0xFF, an invalid
block (R147). -/
def scaleOf (b : Nat) : Option (Nat × Int) :=
  if b == 0xFF then none else some (4 + b % 4, (b / 4 : Int) - 34)

/-- A value times a scale, exact. -/
def FVal.scaled (v : FVal) (s : Nat × Int) : FVal :=
  match v with
  | .fin n m e => .fin n (m * s.1) (e + s.2)
  | .nan x => .nan x
  | .inf n => .inf n

/-! ## The order of sums -/

/-- One chain: the elements at even positions of the list are added to the accumulator in order. -/
def chainF32 (ftz : Bool) (acc : FRes) : List Nat → FRes
  | [] => acc
  | [p] =>
    let r := FFmt.f32.add .rn ftz acc.bits p
    { r with fl := acc.fl.or r.fl }
  | p :: _ :: ps =>
    let r := FFmt.f32.add .rn ftz acc.bits p
    chainF32 ftz { r with fl := acc.fl.or r.fl } ps

/-- R159: the even and the odd chain and their sum, in f32, with the flags of every addition. -/
def sumF32 (ftz : Bool) (c : Nat) (ps : List Nat) : FRes :=
  let e := chainF32 ftz { bits := c, fl := {} } ps
  match ps with
  | [] => e
  | [_] => e
  | _ :: p1 :: rest =>
    let o := chainF32 ftz { bits := p1, fl := {} } (rest.drop 1)
    let r := FFmt.f32.add .rn ftz e.bits o.bits
    { r with fl := (e.fl.or o.fl).or r.fl }

/-- One addition of s32 accumulation: wraps, or clamps under .sat (R160). -/
def addS32 (sat : Bool) (a b : Int) : Int :=
  if sat then max (-2147483648) (min 2147483647 (a + b)) else (BitVec.ofInt 32 (a + b)).toInt

/-- One chain of R160. -/
def chainS32 (sat : Bool) (acc : Int) : List Int → Int
  | [] => acc
  | [p] => addS32 sat acc p
  | p :: _ :: ps => chainS32 sat (addS32 sat acc p) ps

/-- R160: the two chains over exact integer products and their sum. -/
def sumS32 (sat : Bool) (c : Int) (ps : List Int) : Int :=
  let e := chainS32 sat c ps
  match ps with
  | [] => e
  | [_] => e
  | _ :: p1 :: rest => addS32 sat e (chainS32 sat (addS32 sat p1 0) (rest.drop 1))

end Sys2Proof.Machine
end

