-- ==== Sys2Proof/WellFormed.lean ====
section
/-! DEFINITION. WellFormed.lean: what R90, R91, R97, R166 and each instruction's description ask of the fields of an
instruction before the word is an instruction at all; and for an event, that the places it names exist (R1 to R6).
What depends on where a word runs (wregs, the class of its clause, the walker slot, the team leader) is checked by the
instruction's meaning. -/

namespace Sys2Proof

/-- 24 to 30 are reserved, and so is 31 with pn = 1 (R90). -/
def Ctl.valid (c : Ctl) : Bool := c.pr.toNat < 24 || (c.pr == 31 && !c.pn)

/-- The first register of a pair is even (R91). -/
def Reg.even (r : Reg) : Bool := r.toNat % 2 == 0

/-- The first register of a group of four (R91). -/
def Reg.quad (r : Reg) : Bool := r.toNat % 4 == 0

/-- A predicate field holds 0 to 23 (R91). -/
def Reg.isPred (r : Reg) : Bool := r.toNat < 24

/-- A team-scalar field holds 0 to 31 (R91). -/
def Reg.isScalar (r : Reg) : Bool := r.toNat < 32

/-- Bytes of an access (R94). -/
def MSize.bytes (z : MSize) : Nat :=
  match z with | .b8 => 1 | .b16 => 2 | .b32 => 4 | .b64 => 8 | .b128 => 16

/-- Registers that an access of a size moves. -/
def MSize.regs (z : MSize) : Nat :=
  match z with | .b8 => 1 | .b16 => 1 | .b32 => 1 | .b64 => 2 | .b128 => 4

/-- The data group of an access starts at a multiple of its size (R91, R211). -/
def MSize.group (z : MSize) (r : Reg) : Bool := r.toNat % z.regs == 0

/-- SX stands only with a size of one register's part: b8 or b16 (R211, R220). -/
def MSize.sxOk (z : MSize) (sx : Bool) : Bool := !sx || z == .b8 || z == .b16

/-- Two-register types of R166. -/
def WTy.is64 (t : WTy) : Bool := match t with | .s64 | .n64 => true | .s32 | .n32 => false

/-- An operand of a type of R166: a 64-bit type names a pair. -/
def WTy.opOk (t : WTy) (r : Reg) : Bool := !t.is64 || r.even

/-- Two-register types of a conversion (R184). -/
def CTy.is64 (t : CTy) : Bool := t == .s64 || t == .n64

/-- An operand of a conversion. -/
def CTy.opOk (t : CTy) (r : Reg) : Bool := !t.is64 || r.even

/-- Two-register types of the atomics (R274). -/
def ATy.is64 (t : ATy) : Bool := t == .s64 || t == .n64

/-- An operand of an atomic (R275). -/
def ATy.opOk (t : ATy) (r : Reg) : Bool := !t.is64 || r.even

/-- How many registers pack reads (R186). -/
def KTy.count (t : KTy) : Nat :=
  match t with | .f16 | .bf16 => 2 | .s8 | .n8 | .ts8 => 4 | .s4 | .n4 => 8

/-- Bits of one element of pack and unpack (R186). -/
def KTy.width (t : KTy) : Nat :=
  match t with | .f16 | .bf16 => 16 | .s8 | .n8 | .ts8 => 8 | .s4 | .n4 => 4

/-- For an integer D the rounding and ftz fields of pack are 0, and for ts8 the overflow field too (R186). -/
def KTy.modsOk (t : KTy) (rnd : Rnd) (ovf : Ovf) (ftz : Bool) : Bool :=
  match t with
  | .f16 | .bf16 => true
  | .s8 | .n8 | .s4 | .n4 => rnd == .rn && !ftz
  | .ts8 => rnd == .rn && !ftz && ovf == .sat

/-- The registers that read as 64 bits (R173). -/
def SReg.is64 (r : SReg) : Bool := r == .time || r == .clock

/-- pos and len of bfe and bfi (R166). -/
def fieldOk (pos len : BitVec 8) : Bool :=
  pos.toNat < 32 && 1 <= len.toNat && len.toNat <= 32 && pos.toNat + len.toNat <= 32

/-- redux reads rounding and ftz only for add.f32 (R128). -/
def reduxOk (op : ReduxOp) (t : RTy) (rnd : Rnd) (ftz : Bool) : Bool :=
  (op == .add && t == .f32) || (rnd == .rn && !ftz)

/-- The bits of m that each KIND admits (R240). -/
def MMods.ok (m : MMods) : Bool :=
  match m.kind with
  | .i8 | .i4 => !m.af16 && !m.bf16
  | .ts => !m.asg && !m.bsg && !m.bf16 && !m.sat
  | .h16 => !m.asg && !m.bsg && !m.sat

/-- The base of a blkd operand: a pair for g, one register for sp (R94, R187). -/
def Space.baseOk (sp : Space) (a : Reg) : Bool := match sp with | .global => a.even | .scratch => true

/-- A team key names a place that exists. -/
def TeamKey.ok (k : TeamKey) : Bool :=
  match k with
  | .user ctx _ _ => ctx < 64
  | .walker core slot => core < 320 && slot < 4

/-- A packet name names a queue that exists. -/
def PktName.ok (p : PktName) : Bool := p.q < 256

/-- Fields within their ranges. -/
def Instr.wf (i : Instr) : Bool :=
  match i with
  | .nop c => c.valid
  | .bra c _ => c.valid
  | .brx c a => c.valid && a.even
  | .call c d _ => c.valid && d.even
  | .ret c a => c.valid && a.even
  | .exit c => c.valid
  | .reform c => c.valid
  | .rejoin c => c.valid
  | .yield c => c.valid
  | .add c _ _ _ _ _ => c.valid
  | .addI c _ _ _ => c.valid
  | .sub c _ _ _ _ _ => c.valid
  | .mul c _ _ _ _ _ => c.valid
  | .mulI c _ _ _ => c.valid
  | .mulhi c _ _ _ _ => c.valid
  | .mad c _ _ _ _ _ _ => c.valid
  | .div c _ _ _ _ => c.valid
  | .rem c _ _ _ _ => c.valid
  | .min c _ _ _ _ => c.valid
  | .max c _ _ _ _ => c.valid
  | .abs c _ _ _ => c.valid
  | .neg c _ _ _ _ => c.valid
  | .and c _ _ _ => c.valid
  | .andI c _ _ _ => c.valid
  | .or c _ _ _ => c.valid
  | .orI c _ _ _ => c.valid
  | .xor c _ _ _ => c.valid
  | .xorI c _ _ _ => c.valid
  | .not c _ _ => c.valid
  | .shl c _ _ _ => c.valid
  | .shlI c _ _ imm => c.valid && imm.toNat < 32
  | .shr c _ _ _ => c.valid
  | .shrI c _ _ imm => c.valid && imm.toNat < 32
  | .sar c _ _ _ => c.valid
  | .sarI c _ _ imm => c.valid && imm.toNat < 32
  | .rot c _ _ _ => c.valid
  | .rotI c _ _ imm => c.valid && imm.toNat < 32
  | .clz c _ _ => c.valid
  | .popc c _ _ => c.valid
  | .brev c _ _ => c.valid
  | .bfe c _ _ pos len _ => c.valid && fieldOk pos len
  | .bfi c _ _ pos len => c.valid && fieldOk pos len
  | .sel c _ _ _ kc => c.valid && kc.isPred
  | .icmp c _ d a b t => c.valid && d.isPred && t.opOk a && t.opOk b
  | .lea c d a _ sh _ => c.valid && d.even && a.even && sh.toNat < 8
  | .add64 c d a b => c.valid && d.even && a.even && b.even
  | .add64I c d a _ => c.valid && d.even && a.even
  | .mov c d a t => c.valid && t.opOk d && t.opOk a
  | .movS c d sa t => c.valid && sa.isScalar && t.opOk d && t.opOk sa
  | .movi c _ _ => c.valid
  | .sread c d r => c.valid && (!r.is64 || d.even)
  | .swrite c sd a t => c.valid && sd.isScalar && t.opOk sd && t.opOk a
  | .fadd c _ _ _ _ _ _ => c.valid
  | .fsub c _ _ _ _ _ _ => c.valid
  | .fmul c _ _ _ _ _ _ => c.valid
  | .fma c _ _ _ _ _ _ _ => c.valid
  | .fmin c _ _ _ _ _ => c.valid
  | .fmax c _ _ _ _ _ => c.valid
  | .fcmp c _ d _ _ _ _ => c.valid && d.isPred
  | .fclass c _ _ _ => c.valid
  | .frnd c _ _ _ _ => c.valid
  | .fsqrt c _ _ _ _ _ => c.valid
  | .frcp c _ _ _ => c.valid
  | .frsq c _ _ _ => c.valid
  | .fexp2 c _ _ _ => c.valid
  | .flog2 c _ _ _ => c.valid
  | .fsinp c _ _ _ => c.valid
  | .fcosp c _ _ _ => c.valid
  | .hadd2 c _ _ _ _ _ _ => c.valid
  | .hmul2 c _ _ _ _ _ _ => c.valid
  | .hfma2 c _ _ _ _ _ _ _ => c.valid
  | .dot4 c _ _ _ _ _ _ _ => c.valid
  | .dotts c _ _ b _ _ => c.valid && b.even
  | .cvt c d a dt srcT _ _ _ _ => c.valid && dt != .ts8 && dt.opOk d && srcT.opOk a
  | .cvtts c _ _ _ _ => c.valid
  | .pack c _ a t rnd ovf ftz => c.valid && a.toNat % t.count == 0 && t.modsOk rnd ovf ftz
  | .unpack c _ _ j t => c.valid && j.toNat * t.width < 32
  | .blkdRd c _ a _ sp _ => c.valid && sp.baseOk a
  | .blkdSet c _ a _ sp _ => c.valid && sp.baseOk a
  | .plog c _ d a b _ => c.valid && d.isPred && a.isPred && b.isPred
  | .pmov c d a _ => c.valid && d.isPred && a.isPred
  | .pmovTow c _ => c.valid
  | .pmovFromw c _ => c.valid
  | .vote c _ d a _ => c.valid && d.isPred && a.isPred
  | .ballot c _ a _ => c.valid && a.isPred
  | .shfl c _ _ _ _ => c.valid
  | .redux c op t _ _ rnd ftz => c.valid && reduxOk op t rnd ftz
  | .ld c d a _ sz _ _ sx => c.valid && a.even && sz.group d && sz.sxOk sx
  | .st c d a _ sz _ => c.valid && a.even && sz.group d
  | .ldc c d sa _ sz sx => c.valid && sa.isScalar && sa.even && sz.group d && sz.sxOk sx
  | .pref c a _ _ => c.valid && a.even
  | .prefTr c a _ _ => c.valid && a.even
  | .pmigComb c a _ _ => c.valid && a.even
  | .pmigPool c a _ _ => c.valid && a.even
  | .fence c _ => c.valid
  | .tlbfill c a b => c.valid && a.even && b.even
  | .tlbinvPg c a => c.valid && a.even
  | .tlbinvAsid c => c.valid
  | .tlbinvAll c => c.valid
  | .wret c _ => c.valid
  | .atom c op t _ _ d a b => c.valid && a.even && t.opOk d && t.opOk b && (t != .f32 || op == .add)
  | .cas c t _ _ d a b e => c.valid && a.even && t.opOk d && t.opOk b && t.opOk e && t != .f32
  | .red c op t _ _ a b => c.valid && a.even && t.opOk b && (t != .f32 || op == .add)
  | .lds c d _ _ sz sx => c.valid && sz.group d && sz.sxOk sx
  | .sts c d _ _ sz => c.valid && sz.group d
  | .sptagLook c _ a => c.valid && a.even
  | .sptagSet c _ a _ => c.valid && a.even
  | .sptagClr c _ a => c.valid && a.even
  | .tcopy c _ a _ _ _ => c.valid && a.even
  | .tstore c _ a _ _ _ => c.valid && a.even
  | .cseal c _ => c.valid
  | .cwait c _ => c.valid
  | .barInit c _ _ _ => c.valid
  | .barArrive c _ _ => c.valid
  | .barWait c _ => c.valid
  | .mma c _ _ _ m => c.valid && m.ok
  | .mmag c _ a _ m => c.valid && m.ok && a.even
  | .mms c _ _ b m => c.valid && m.ok && b.even
  | .accz c _ => c.valid
  | .accld c _ _ => c.valid
  | .accst c _ _ _ _ => c.valid
  | .drain c _ _ _ _ _ ovf _ => c.valid && ovf != .trp
  | .waita c d a b _ w64 _ => c.valid && a.even && (!w64 || (d.even && b.even))
  | .spawn c a => c.valid && a.even
  | .join c a b _ => c.valid && a.even && b.even
  | .atflush c => c.valid
  | .tbar c _ => c.valid
  | .txfer c _ a _ _ _ _ => c.valid && a.even
  | .flowReset c key => c.valid && key != 0
  | .syscall c d a _ => c.valid && d.even && a.even
  | .trap c _ _ _ => c.valid
  | .brk c _ => c.valid
  | .mark c a _ w64 => c.valid && (!w64 || a.even)
  | .crd c d _ => c.valid && d.even
  | .cwr c a _ => c.valid && a.even
  | .clauseFetch _ => true
  | .resultLands t _ => t.key.ok
  | .storePerform core => core < 320
  | .waitWake t => t.key.ok
  | .waitPoll t => t.key.ok
  | .walkLimitExpiry core slot => core < 320 && slot < 4
  | .regroupAgeExpiry core bin => core < 320 && bin < 64
  | .islandIdle island => island < 160
  | .rampStep island => island < 160
  | .breakpointHit t _ => t.key.ok
  | .copyBlockLand _ _ => true
  | .copyRetire _ => true
  | .copyPageFault _ _ => true
  | .transferRetire _ => true
  | .matrixOpBegin pair => pair < 160
  | .matrixOpRetire pair _ => pair < 160
  | .mmsStreamComplete pair _ => pair < 160
  | .mxFetch pair _ _ => pair < 160
  | .starvationFlush key => key.ok
  | .qwptrDoorbell q _ => q < 256
  | .queueEnable q _ => q < 256
  | .queueDisable q _ => q < 256
  | .queueHaltClear q _ => q < 256
  | .packetFetch => true
  | .launchPacket p => p.ok
  | .launchBegin p => p.ok
  | .reuseCopyComplete p => p.ok
  | .collPacket p => p.ok
  | .writePacket p => p.ok
  | .waitvPacket p => p.ok
  | .waitvTimeout p => p.ok
  | .fencePacket p => p.ok
  | .sealPacket p => p.ok
  | .cancelPacket p => p.ok
  | .spawnAccept key => key.ok
  | .dispatchBatch die ctx _ _ => die < 8 && ctx < 64
  | .dispatchStart die => die < 8
  | .migrationAttempt die => die < 8
  | .migrationTimeout die => die < 8
  | .spatialPreempt die => die < 8
  | .windowReserve die => die < 8
  | .swapOut key => key.ok
  | .swapReadmit key => key.ok
  | .readmitOtherDie key die => key.ok && die < 8
  | .teamRetire key => key.ok
  | .launchComplete ctx _ => ctx < 64
  | .ctxEnable ctx _ => ctx < 64
  | .ctxTeardown ctx _ => ctx < 64
  | .ctxQuotaChange ctx _ => ctx < 64
  | .ctxcoreWrite ctx word _ => ctx < 64 && word < 5
  | .tlbshootPage _ => true
  | .tlbshootAsid _ => true
  | .tlbshootAll _ => true
  | .tlbshootDone => true
  | .derivedRegionValidate i _ => i < 256
  | .derivedRegionInvalidate i _ => i < 256
  | .pageMigrate ctx _ _ => ctx < 64
  | .hintDrain => true
  | .hiveTakeEvent _ _ => true
  | .eventPostDeferred => true
  | .faultRecordDeferred => true
  | .faultackReplay _ => true
  | .faultackFail _ => true
  | .faultackCancel _ => true
  | .fpWindowClose core ctx _ => core < 320 && ctx < 64
  | .preemptVacate _ => true
  | .preemptDone => true
  | .ctxresume _ => true
  | .corecall _ => true
  | .debugAttach ctx => ctx < 64
  | .debugDetach ctx => ctx < 64
  | .debugStop ctx _ => ctx < 64
  | .debugResume ctx _ => ctx < 64
  | .debugStepFocused ctx _ => ctx < 64
  | .debugStepAll ctx _ => ctx < 64
  | .issueshapeWrite island _ => island < 160
  | .islctlWrite island _ => island < 256
  | .islandClockChange island => island < 256
  | .tracecfgWrite ctx _ => ctx < 64
  | .traceSample core ctx => core < 320 && ctx < 64
  | .registerWrite _ _ _ => true
  | .segmentDataReceive _ _ => true
  | .segmentNakReceive _ => true
  | .segmentRefreshReceive _ _ => true
  | .flitReplay _ => true
  | .collMatchReceive p _ _ => p.ok
  | .collStepComplete p _ => p.ok
  | .collTimeout p => p.ok
  | .podArrivalReceive p _ _ => p.ok
  | .podBarrierRelease p => p.ok
  | .podGroupFile p _ => p.ok
  | .hostMemoryAccess ctx _ _ => ctx < 64
  | .uncorrectableError _ => true
  | .correctableError => true
  | .boot _ => true
  | .recovgo _ => true
  | .freeze => true
  | .peerSilenceTimeout _ _ _ => true
  | .thermalHot island _ => island < 256
  | .thermalTrip island _ => island < 256
  | .timerEvent _ => true

end Sys2Proof
end

