-- ==== Sys2Proof/Machine/Names.lean ====
section
/-! DEFINITION. Names.lean: what the machine asks of the names and modifiers of the syntax: teams, scopes, types and
orders. -/

namespace Sys2Proof

/-- The context of a team; a walker thread has none. -/
def TeamKey.ctx? (k : TeamKey) : Option Nat := match k with | .user c _ _ => some c | .walker _ _ => none
/-- The launch of a team, as context and launch id. -/
def TeamKey.launch? (k : TeamKey) : Option (Nat × Nat) :=
  match k with | .user c l _ => some (c, l) | .walker _ _ => none
/-- The team id, 0 for a walker thread. -/
def TeamKey.teamId (k : TeamKey) : Nat := match k with | .user _ _ t => t | .walker _ _ => 0
/-- The launch id, 0 for a walker thread. -/
def TeamKey.launchId (k : TeamKey) : Nat := match k with | .user _ l _ => l | .walker _ _ => 0
/-- The context number, 0 for a walker thread. -/
def TeamKey.ctxId (k : TeamKey) : Nat := match k with | .user c _ _ => c | .walker _ _ => 0
/-- Whether the team is a thread of a walker slot (R195). -/
def TeamKey.isWalker (k : TeamKey) : Bool := match k with | .user _ _ _ => false | .walker _ _ => true
/-- The order of logical teams: launch, then team (R8); contexts before launches, which the spec leaves open. -/
def TeamKey.order (k : TeamKey) : List Nat :=
  match k with | .user c l t => [0, c, l, t] | .walker c i => [1, c, i, 0]

/-- Scopes by width (R259). -/
def Scope.rank (s : Scope) : Nat := match s with | .team => 0 | .die => 1 | .pkg => 2 | .sys => 3
/-- Whether one scope is narrower than another. -/
def Scope.narrower (a b : Scope) : Bool := a.rank < b.rank
/-- An access to a page of a peer package has system scope whatever its field says (R260). -/
def Scope.reach (s : Scope) (peer : Bool) : Scope := if peer then .sys else s

/-- Two words as a pair's value, low word first (R9). -/
def pairOfWords (lo hi : W32) : W64 := hi ++ lo
/-- The two words of a pair's value, low word first. -/
def wordsOfPair (v : W64) : List W32 := [v.extractLsb' 0 32, v.extractLsb' 32 32]
/-- A value of a type's width as an integer: signed for s types. -/
def ATy.val (t : ATy) (x : W64) : Int :=
  match t with
  | .s32 => (x.extractLsb' 0 32).toInt
  | .n32 => (x.extractLsb' 0 32).toNat
  | .s64 => x.toInt
  | .n64 => x.toNat
  | .f32 => (x.extractLsb' 0 32).toNat
/-- Bytes of an atomic's word. -/
def ATy.bytes (t : ATy) : Nat := if t.is64 then 8 else 4

/-- Orders that acquire (R264). -/
def Order.acquires (o : Order) : Bool := match o with | .acq => true | .ar => true | .sc => true | .rlx => false | .rel => false
/-- Orders that release (R264, R279). -/
def Order.releases (o : Order) : Bool := match o with | .rel => true | .ar => true | .sc => true | .rlx => false | .acq => false

/-- The old value as the words of its destination. -/
def ATy.words (t : ATy) (v : W64) : List W32 := if t.is64 then wordsOfPair v else [v.extractLsb' 0 32]

end Sys2Proof
end

