-- ==== Sys2Proof/Machine/Sparse.lean ====
section
/-! DEFINITION. Sparse.lean: a store as a list of key and value pairs in one canonical form: keys strictly rising, and
no entry equal to what an unlisted key reads as. Equal stores are equal lists. -/

namespace Sys2Proof.Machine

/-- The value at a key; d is what an unlisted key reads as. -/
def sget {α : Type} (d : α) (l : List (Nat × α)) (k : Nat) : α :=
  match l with
  | [] => d
  | (k', v) :: t => if k' = k then v else if k < k' then d else sget d t k

/-- Writing a value at a key; writing what an unlisted key reads as removes the entry. -/
def sset {α : Type} [DecidableEq α] (d : α) (l : List (Nat × α)) (k : Nat) (v : α) : List (Nat × α) :=
  match l with
  | [] => if v = d then [] else [(k, v)]
  | (k', v') :: t =>
    if k < k' then (if v = d then (k', v') :: t else (k, v) :: (k', v') :: t)
    else if k = k' then (if v = d then t else (k, v) :: t)
    else (k', v') :: sset d t k v

/-- The canonical form, from a key on. -/
def swfFrom {α : Type} [DecidableEq α] (d : α) (lo : Nat) (l : List (Nat × α)) : Bool :=
  match l with
  | [] => true
  | (k, v) :: t => decide (lo ≤ k) && decide (v ≠ d) && swfFrom d (k + 1) t

/-- The canonical form. -/
def swf {α : Type} [DecidableEq α] (d : α) (l : List (Nat × α)) : Bool := swfFrom d 0 l

/-- Writing values at consecutive keys. -/
def ssetMany {α : Type} [DecidableEq α] (d : α) (l : List (Nat × α)) (k : Nat) : List α → List (Nat × α)
  | [] => l
  | v :: vs => ssetMany d (sset d l k v) (k + 1) vs

/-- Reading a number of consecutive keys. -/
def sgetMany {α : Type} (d : α) (l : List (Nat × α)) (k n : Nat) : List α :=
  (List.range n).map fun i => sget d l (k + i)

end Sys2Proof.Machine
end

