-- ==== Sys2Proof/Machine/State.lean ====
section
/-! DEFINITION. State.lean: everything the spec gives the machine, as plain data, and the machine right after reset.
Large stores (memory, registers, scratchpad, tiles) are lists of key and value pairs with rising keys and no entry
equal to what an unlisted key reads as (Machine/Sparse.lean). -/

namespace Sys2Proof.Machine

/-! ## How a step can stop -/

/-- Why a step stops with a fault. -/
inductive Fault
  /-- Raised by exec of an instruction when no bundle of the machine is issuing; step never does this. Safe. -/
  | noIssuer
deriving DecidableEq, Repr

/-- Why an instruction is refused. -/
inductive Refusal
  /-- Raised by an arm of exec whose instruction has no meaning yet. Safe. -/
  | notModelled (mnemonic : String)
deriving DecidableEq, Repr

/-! ## Causes and places -/

/-- The cause codes of R352. -/
inductive Cause
  | ill | stallShort | align | format | pageNp | pageProt | pageCancel | spViol | fpInv | fpDivz | fpOvf | fpUnf
  | fpInx | cvtOvf | mxFetch | dsBad | deltaOver | deltaShort | race | purity | collMismatch | flowDesync | syscall
  | trap | brk | depth | spawnBad | machine
deriving DecidableEq, Repr

/-- What an access does (R195, R331). -/
inductive Acc | read | write | exec
deriving DecidableEq, Repr

/-- Where a physical address lies: in this package, or in a peer package named by its coordinates (R191). -/
inductive Place
  | here (pa : Nat)
  | peer (coord pa : Nat)
deriving DecidableEq, Repr

/-- One block as it moves: 64 bytes with the descriptor and the poison mark (R187, R208). -/
structure Block where
  bytes : List Byte
  descr : Descr
  poison : Option Cause
deriving DecidableEq, Repr

/-! ## Threads -/

/-- The destination of a window entry (R103). -/
inductive Dest
  | reg (r : Nat)
  | pair (r : Nat)
  | pred (k : Nat)
  | preds
deriving DecidableEq, Repr

/-- One entry of the delayed-write window (R103). -/
structure WinEntry where
  dest : Dest
  value : W64
  left : Nat
deriving DecidableEq, Repr

/-- Which unit a pending result comes from: an arithmetic unit, the float unit that a thread may not issue past while a
flag traps (R163, R164), memory or scratchpad, or an atomic (R277). -/
inductive PendKind | arith | fp | memory | atomic
deriving DecidableEq, Repr

/-- A variable-latency result that has not landed (R104): its registers and the words it brings, absent while a
buffered atomic has not been applied (R293). -/
structure Pend where
  id : Nat
  reg : Nat
  count : Nat
  value : Option (List W32)
  kind : PendKind
deriving DecidableEq, Repr

/-- The last-page register (R193). size is the page's bytes; va and place are the page's start. -/
structure LastPage where
  asid : Nat
  va : Nat
  size : Nat
  place : Place
  r : Bool
  w : Bool
  x : Bool
  derived : Bool
  rdok : Bool
  wrok : Bool
  edge : Bool
deriving DecidableEq, Repr

/-- A clause that a bundle holds (R84, R88): its header's address and word, all its words, the index of the next one,
whether the header's waits are over, and what the clause's regroup instruction asked for (R86). -/
structure Clause where
  hdr : Nat
  head : W64
  words : List W64
  idx : Nat
  begun : Bool
  reform : List Nat
  rejoin : Bool
  grouped : Bool
deriving DecidableEq, Repr

/-- A wait on memory (R285). polled: the monitor was full, and nextPoll is the core cycle of its next reread (R286). -/
structure MemWait where
  va : Nat
  place : Place
  val : W64
  wide : Bool
  eq : Bool
  join : Bool
  scope : Scope
  dest : Nat
  polled : Bool
  nextPoll : Nat
deriving DecidableEq, Repr

/-- Why a thread is parked (R115). spawn: the leader's spawn has read its record, whose bytes it holds, and waits for a free
pending-launch entry (R289). -/
inductive Park
  | meeting (addr : Nat) (lane : Bool)
  | barWait (n : Nat)
  | barArrive (n : Nat)
  | tbar (scope : Scope)
  | memory (w : MemWait)
  | cwait (batch : Nat)
  | group (id : Nat)
  | fpTrap
  | spawn (bytes : List Byte)
  | quota
  | copy
deriving DecidableEq, Repr

/-- What a thread is doing (R115, R377). -/
inductive TStat
  | running
  | binned (bin : Nat)
  | parked (why : Park)
  | stopped
  | exited
  | off
deriving DecidableEq, Repr

/-- One thread (R7). nextAt: the core cycle before which its next word does not issue (R100), of a saved team how many cycles
are still to pass; bpDone: its breakpoint has been taken for the word it stands at, and brkDone: the brk that it stands at has
stopped it (R370, R373); reissue: the fault group whose word it issues again after a restore (R342). -/
structure Thread where
  tid : Nat
  pc : Nat
  regs : List (Nat × W32)
  preds : BitVec 24
  win : List WinEntry
  pend : List Pend
  nextPend : Nat
  lpr : Option LastPage
  arr : BitVec 16
  wp : List (Nat × BitVec 16)
  batches : List (Nat × List Nat)
  unsealed : List Nat
  atomSeq : Nat
  interval : W32
  stat : TStat
  clause : Option Clause
  nextAt : Nat
  stopNext : Bool
  bpDone : Bool
  brkDone : Bool := false
  reissue : Option Nat
deriving DecidableEq, Repr

/-- What a walk told a waiting access (R194, R216). -/
inductive WalkEnd | done | notPresent | protection | machine
deriving DecidableEq, Repr

/-- A note on a bundle: the walk for one 64 KiB page has ended so. -/
structure WalkNote where
  page : Nat
  result : WalkEnd
deriving DecidableEq, Repr

/-- A bundle (R112, R116). held: its word waits; waits: the 64 KiB pages whose walks its word waits for, and notes: how
those that have ended did (R194); met: its row meeting at a lane instruction is over (R130); single: it issues one word
and stops (R376); waited: inside its clause it has waited under R104, so that it goes ahead of bundles that have not begun
theirs (R117). -/
structure Bundle where
  id : Nat
  key : TeamKey
  tids : List Nat
  pc : Nat
  stamp : Nat
  clause : Option Clause
  held : Bool
  waits : List Nat
  notes : List WalkNote
  met : Bool
  single : Bool
  waited : Bool := false
deriving DecidableEq, Repr

/-! ## Matrix engines -/

/-- Which matrix operation (R239). -/
inductive MatKind
  | mma (m : MMods)
  | mmag (m : MMods)
  | mms (m : MMods)
  | accz
  | accld
  | accst (accf fl : Bool)
  | drain (t : DTy) (rnd : Rnd) (ovf : Ovf) (accf : Bool)
deriving DecidableEq, Repr

/-- An operation of a pair's queue with its latched operands (R242): A and B blocks, the index vector, the drain
records or the accld source in order of their use. order is its place among the issues on its core (R233, R246). A stopped
stream names its group and the address it stopped at, which MX_FETCH reports if that page is cancelled (R253). -/
structure MatOp where
  id : Nat
  order : Nat
  key : TeamKey
  tid : Nat
  pc : Nat
  kind : MatKind
  acc : Nat
  a : List Block
  index : List Nat
  b : List Block
  dest : Nat
  bAddr : Nat
  bStride : Nat
  streamed : List (Nat × Block)
  set : Option Nat
  waits : List Nat
  begun : Bool
  stopped : Option Nat
  stopVa : Option Nat := none
deriving DecidableEq, Repr

/-- A core pair's matrix engine (R237, R247). Tile element (i, n) of tile t has key 8192 t + 64 i + n. -/
structure Pair where
  tiles : List (Nat × W32)
  flg : List (Nat × BitVec 5)
  slots : List (Nat × List Nat)
  queue : List MatOp
  mxpstall : W64
deriving DecidableEq, Repr

/-! ## Teams -/

/-- A barrier register (R225). -/
structure BarReg where
  phase : BitVec 16
  xexp : BitVec 15
  tm : Bool
  xadd : BitVec 16
  xgot : BitVec 16
deriving DecidableEq, Repr

/-- A pending-launch entry: which of the four, the record, and the spawn that wrote it (R289). -/
structure PendingLaunch where
  slot : Nat
  bytes : List Byte
  order : Nat
  pc : Nat
deriving DecidableEq, Repr

/-- A kernel descriptor as read (R23). -/
structure KDesc where
  entry : Nat
  codeBytes : Nat
  tx : Nat
  ty : Nat
  tz : Nat
  wregs : Nat
  scratch : Nat
  swarm : Nat
  scalars : Nat
  flags : Nat
  raw : List Byte
deriving DecidableEq, Repr

/-- Where a team's state is: on its core; or saved on a die, held for CTXRESUME or not, and swapped out because it was parked
or not (R81, R339). -/
inductive Place2
  | resident
  | saved (die : Nat) (held swapped : Bool)
deriving DecidableEq, Repr

/-- A team (R7) and everything it owns on its core; tiles holds what a saved matrix swarm had in its pair (R256),
readySince says when a saved team could go on (R82), and killed that its swarm is being ended, and why (R254). -/
structure Team where
  key : TeamKey
  core : Nat
  grid : Nat
  index : Nat
  swarmIdx : Nat
  depth : Nat
  desc : KDesc
  place : Place2
  visible : List (Nat × W32)
  pending : List (Nat × W32)
  written : List Nat
  threads : List Thread
  bytes : List Host.Cell
  descs : List (Nat × Descr)
  poison : List (Nat × Cause)
  sectors : List (Nat × Bool)
  faultMask : BitVec 1024
  tags : List (Nat × (W64 × W32))
  bars : List (Nat × BarReg)
  tbarPhase : Nat
  tbarIn : List (Nat × Scope)
  spawns : List PendingLaunch
  spawnCount : Nat
  grids : List Nat
  relaunches : Nat
  parkedSince : Option Nat
  readySince : Option Nat
  tiles : Option Pair
  killed : Option Cause
deriving DecidableEq, Repr

/-! ## Per-core and per-pair units -/

/-- A store in the FIFO (R263): who issued it, where its bytes go, its scope; or a descriptor write. -/
structure StoreEntry where
  key : TeamKey
  tid : Nat
  place : Place
  bytes : List Byte
  descr : Option Descr
  scope : Scope
deriving DecidableEq, Repr

/-- A TLB entry (R194, R216), most recently used first in its list. -/
structure TlbEntry where
  asid : Nat
  va : Nat
  size : Nat
  place : Place
  r : Bool
  w : Bool
  x : Bool
  derived : Bool
deriving DecidableEq, Repr

/-- A regroup bin (R114). -/
structure Bin where
  idx : Nat
  key : TeamKey
  pc : Nat
  tids : List Nat
  filed : Nat
  age : Nat
deriving DecidableEq, Repr

/-- An operation of the deterministic atomic buffer (R293), or the operands of an atomic in general. -/
structure AtomOp where
  op : AOp
  cas : Bool
  ty : ATy
  order : Order
  scope : Scope
  va : Nat
  place : Place
  b : W64
  c : W64
  returns : Bool
deriving DecidableEq, Repr

/-- An entry of the deterministic atomic buffer (R293). -/
structure AtomEntry where
  key : TeamKey
  tid : Nat
  seq : Nat
  op : AtomOp
  pend : Option Nat
deriving DecidableEq, Repr

/-- What occupies a place of the walker slot: a walk for a page of a context (R195), or a call of the hive (R372). -/
inductive WalkFor
  | page (ctx asid page : Nat) (marked : Bool)
  | call
deriving DecidableEq, Repr

/-- What an invalidation removes: one 64 KiB page of an ASID, every entry of the ASID, or everything (R198). -/
inductive Inval
  | page (asid vpn : Nat)
  | asid (asid : Nat)
  | all
deriving DecidableEq, Repr

/-- A place of the walker slot in use (R195). invals: the invalidations that came during the walk (R199). -/
structure Walk where
  slot : Nat
  what : WalkFor
  invals : List Inval
  started : Nat
  failed : Bool
  region : Nat
  pages : Nat
deriving DecidableEq, Repr

/-- A floating-point trap in a collection window, with its core cycle and its stamp (R337). -/
structure FpTrap where
  key : TeamKey
  tid : Nat
  pc : Nat
  cycle : Nat
  stamp : Nat
  flags : BitVec 5
deriving DecidableEq, Repr

/-- A collection window (R337). group is the group of its report, 0 while it is open. -/
structure FpWindow where
  ctx : Nat
  launch : Nat
  opened : Nat
  closed : Bool
  traps : List FpTrap
  group : Nat := 0
deriving DecidableEq, Repr

/-- A core's trace stream of a context (R365 to R368). sampled is the sample period in which it wrote its last sample. -/
structure Stream where
  ctx : Nat
  started : Bool
  suspended : Bool
  tail : Nat
  headSeen : Nat
  lost : Nat
  lostSince : Nat
  last : Nat
  resync : Option Nat
  sampled : Nat
deriving DecidableEq, Repr

/-- An issue slot (R116, R117): the bundle that holds it from the first word of a clause to the last, the core cycle from
which it may issue again, and the last word it issued: team, lowest thread, address, core cycle (R367). -/
structure Slot where
  bundle : Option Nat
  freeAt : Nat
  last : Option (TeamKey × Nat × Nat × Nat)
deriving DecidableEq, Repr

/-- One core (R2). slots: the issue slots 0 to 3, and 4 for the reserved walker slot. -/
structure Core where
  fifo : List StoreEntry
  l1 : List (Nat × Block)
  tlb : List TlbEntry
  bins : List Bin
  atoms : List AtomEntry
  monitor : List (Place × Scope)
  walks : List Walk
  windows : List FpWindow
  streams : List Stream
  regroupAge : Nat
  slots : List (Nat × Slot)
deriving DecidableEq, Repr

/-- A line of a core's instruction cache: the 64-byte block it was filled from, with the bytes and the descriptor it holds
(R107, R148). -/
structure CodeLine where
  core : Nat
  place : Place
  bytes : List Byte
  descr : Descr
deriving DecidableEq, Repr

/-- An entry of a core's range scoreboard (R232). -/
structure SbEntry where
  op : Nat
  core : Nat
  key : TeamKey
  lo : Nat
  hi : Nat
  inbound : Bool
deriving DecidableEq, Repr

/-- A tensor layout record as read (R28). -/
structure Layout where
  base : Nat
  sizes : List Nat
  strides : List Nat
  format : Nat
  ndims : Nat
  box : List Nat
  coord : Nat
  rep : Nat
  reduce : Nat
  key : Nat
deriving DecidableEq, Repr

/-- Which asynchronous mover (R230, R315). -/
inductive MoveKind | tcopy | tstore | push | pull
deriving DecidableEq, Repr

/-- A tile copy, tile store or transfer in flight (R232, R318). left lists the tile's blocks, or its segments, that
have not been performed; sent says that a transfer has put its segments on the wire; order is its place among the issues on
its core (R233). -/
structure Move where
  id : Nat
  order : Nat
  key : TeamKey
  tid : Nat
  pc : Nat
  kind : MoveKind
  lay : Layout
  coords : List Int
  off : Nat
  len : Nat
  bar : Option Nat
  scope : Scope
  left : List Nat
  sent : Bool
  stopped : Option Nat
  interval : W32
  core : Nat
deriving DecidableEq, Repr

/-! ## Links -/

/-- A coord code (R28): [3:0] px, [7:4] py, [11:8] pz, [14:12] die. -/
abbrev Coord := Nat

/-- Kind of a segment (R308). -/
inductive SegKind | data | nak | refresh
deriving DecidableEq, Repr

/-- One block of a segment: which block of its operation it is, the parts of memory it goes to or comes from, and the
present data bytes with the descriptor and mark. -/
structure SegBlock where
  code : Nat
  parts : List (Place × Nat)
  data : Block
deriving DecidableEq, Repr

/-- The step of a collective that a segment belongs to: the sender's packet, the step and the destination member. -/
structure CollRef where
  pkt : PktName
  step : Nat
  dest : Nat
deriving DecidableEq, Repr

/-- A segment on the wire (R308), with the operation it belongs to. last counts the elements present in its last
block, 0 for a whole one; single says that its transfer names one rank (R310); fails counts its failed checks. -/
structure Segment where
  id : Nat
  kind : SegKind
  ctx : Nat
  asid : Nat
  key : Nat
  gen : Nat
  first : Bool
  src : Coord
  dst : Coord
  index : Nat
  last : Nat
  payload : Nat
  bits : Nat
  crc : W32
  seq : Nat
  reduce : Nat
  crcErr : Bool
  move : Option Nat
  coll : Option CollRef
  single : Bool
  blocks : List SegBlock
  fails : Nat
deriving DecidableEq, Repr

/-- The next sequence number of a key, source and destination, and the next one a receiver applies (R308, R312). -/
structure SeqNum where
  ctx : Nat
  key : Nat
  src : Coord
  dst : Coord
  send : Nat
  recv : Nat
deriving DecidableEq, Repr

/-- A predictor region the loader reserved (R306). -/
structure Region where
  ctx : Nat
  die : Coord
  place : Place
  flows : Nat
  size : Nat
deriving DecidableEq, Repr

/-- A reducing contribution held for the end of its grid, with the core and the number of the transfer that issued it (R320). -/
structure HeldRed where
  ctx : Nat
  launch : Nat
  grid : Nat
  src : Coord
  team : Nat
  tid : Nat
  order : Nat
  core : Nat
  reduce : Nat
  fmt : Nat
  parts : List (Place × Nat)
  bytes : List Byte
  poison : Option Cause
deriving DecidableEq, Repr

/-! ## Faults -/

/-- A record of a group: a fault record (R331), a syscall record (R345) or a trap record (R348), by its fields. -/
structure FaultRec where
  cause : Cause
  kind : Nat
  reissue : Bool
  addr : Nat
  pc : Nat
  team : Nat
  tid : Nat
  count : Nat
  flags : BitVec 5
  code : Nat
  fpCount : Nat
  stamp : Nat
  value : W64
  args : List W64
  result : W64
deriving DecidableEq, Repr

/-- What a group stands for. -/
inductive GroupKind | fault | syscall | trap (resume : Bool) | stop | fp | move (op : Nat) | stream (pair op : Nat)
deriving DecidableEq, Repr

/-- A fault group (R330): its records, its first ring slot and how many it has, the threads parked in it, the word they reissue, and an
acknowledgement that came while its team was saved (R342). -/
structure Group where
  id : Nat
  ctx : Nat
  launch : Nat
  key : TeamKey
  kind : GroupKind
  pc : Nat
  dest : Nat
  records : List FaultRec
  members : List Nat
  slot : Option Nat
  slots : Nat
  ack : Option Nat
deriving DecidableEq, Repr

/-! ## Front end -/

/-- A hardware queue's registers (R37, R362); haltFrom is the lowest index that has halted it since HALT was last clear
(R45). -/
structure Queue where
  base : Nat
  ctx : Nat
  msix : Nat
  prio : Nat
  log2slots : Nat
  en : Bool
  widx : W32
  fidx : W32
  cidx : W32
  hidx : W32
  cfgErr : Bool
  overrun : Bool
  halt : Bool
  haltFrom : Option Nat
  stamp : W64
  stamps : List (Nat × Nat)
deriving DecidableEq, Repr

/-- How far a packet has come. -/
inductive PktStage
  /-- fetched, its kind's checks still to run -/
  | fetched
  /-- a LAUNCH that passed its checks and waits for interval entries (R55) -/
  | queued
  /-- a LAUNCH that holds its entries and waits for its hazards (R56) -/
  | waiting
  /-- begun -/
  | begun
  /-- a reuse hit that is copying (R65) -/
  | reusing
  /-- with the hive (SEAL, CANCEL) -/
  | hive
  /-- complete -/
  | done
deriving DecidableEq, Repr

/-- A collective in progress (R322 to R326): its number on its rank list, the layout record, the step it is in once every
match message has come, the messages and stamps that have come, the blocks received (step, member, block), and the
contributions held at step 0 (member, block, data). -/
structure Coll where
  number : Nat
  record : List Byte
  step : Nat
  steps : Nat
  running : Bool
  matched : List Nat
  got : List (Nat × Nat × Nat)
  held : List (Nat × Nat × Block)
  stamps : List (Nat × Nat)
  release : Option Nat
  late : Bool
deriving DecidableEq, Repr

/-- A completion not yet sealed (R357, R359). -/
structure Completion where
  launch : Nat
  state : Nat
  cause : Nat
  flags : Nat
  stamp : Nat
  digests : List (List Byte)
deriving DecidableEq, Repr

/-- What a SEAL takes in when it begins (R359). -/
structure Seal where
  chain : List Byte
  launches : Nat
  completions : Nat
  entries : List Completion
  stamp : Nat
deriving DecidableEq, Repr

/-- How a packet ends: its STATE, CAUSE and CHECK (R44). -/
structure PktEnd where
  state : Nat
  cause : Nat := 0
  check : Nat := 0
deriving DecidableEq, Repr

/-- A fetched packet (R43, R44). idDue: its launch id is still to be written (R394); ending: how it ends, kept while the page
of its status or of its signal is absent (R41, R394); early: members of its pod barrier, with their arrival stamps, that came
before it began (R326). -/
structure Packet where
  name : PktName
  ctx : Nat
  prio : Nat
  seq : Nat
  slot : Nat
  bytes : List Byte
  submit : Nat
  stage : PktStage
  launch : Nat
  began : Nat
  coll : Option Coll
  sealed : Option Seal
  idDue : Bool
  ending : Option PktEnd
  early : List (Nat × Nat) := []
deriving DecidableEq, Repr

/-- A pod barrier that has been released: its flag, its release instant, and the core groups filed so far (R326). -/
structure Pod where
  pkt : PktName
  ctx : Nat
  flag : Nat
  release : Nat
  stagger : Nat
  filed : List Nat
deriving DecidableEq, Repr

/-- A declared interval (R26). -/
structure Interval where
  base : Nat
  len : Nat
deriving DecidableEq, Repr

/-- A batch of a grid's teams that a die owns and has not started (R71). -/
structure Owned where
  die : Nat
  next : Nat
  last : Nat
deriving DecidableEq, Repr

/-- A grid (R50 to R54). -/
structure Grid where
  id : Nat
  depth : Nat
  gx : Nat
  gy : Nat
  gz : Nat
  desc : KDesc
  args : List Byte
  done : Nat
  firstTeam : Nat
  counter : Nat
  owned : List Owned
  started : List Nat
  retired : Nat
  complete : Bool
  accepted : Nat
deriving DecidableEq, Repr

/-- The counts of a launch's time account (R363); what is left up to its status write is the count of queued. -/
structure Account where
  placing : Nat
  exec : Nat
  fault : Nat
  io : Nat
  other : Nat
deriving DecidableEq, Repr

/-- A shadow entry of the race detector (R278). -/
structure Shadow where
  team : Nat
  tid : Nat
  ival : BitVec 12
  scope : Scope
  atomic : Bool
deriving DecidableEq, Repr

/-- A killed swarm's teams that start again: the grid, the first index, how many teams, and the die they ran on (R255,
R349). -/
structure Restart where
  grid : Nat
  index : Nat
  count : Nat
  die : Nat
deriving DecidableEq, Repr

/-- What the front end records of a failed operand fetch: the issuing thread, the instruction's address, and the failing
virtual address where there is one (R253). -/
structure MxRecord where
  key : TeamKey
  tid : Nat
  pc : Nat
  addr : Option Nat
deriving DecidableEq, Repr

/-- How a launch stands. -/
inductive LaunchStat
  | waiting
  | begun
  | reusing
  | failed (cause : Cause)
  | done
deriving DecidableEq, Repr

/-- A launch (R49 to R61). -/
structure Launch where
  ctx : Nat
  id : Nat
  pkt : PktName
  prio : Nat
  seq : Nat
  record : List Byte
  flags : Nat
  lcores : Nat
  batch : Nat
  inputs : List Interval
  outputs : List Interval
  desc : KDesc
  args : List Byte
  done : Nat
  stat : LaunchStat
  inDigests : List (List Byte)
  codeDigest : List Byte
  measured : Option Nat
  completed : Option Nat
  seedGrid : List Byte
  homeDie : Nat
  mask : BitVec 320
  lost : List (List Nat)
  tree : Nat
  nextTeam : Nat
  nextGrid : Nat
  grids : List Grid
  ranges : List Interval
  spViol : Bool
  dirtyIn : Bool
  inPages : List Nat
  codePages : List Nat
  relaunches : List (Nat × Nat)
  restarts : List Restart
  owed : List (Nat × List Byte)
  shadow : List (Nat × Shadow)
  ivals : List (Nat × W32)
  places : List (Nat × Nat)
  reuseKey : List Byte
  account : Account
  submit : Nat
  failGroup : Nat
  stopped : Bool
deriving DecidableEq, Repr

/-- An entry of the reuse table (R63). -/
structure Reuse where
  ctx : Nat
  key : List Byte
  outs : List Interval
  digests : List (List Byte)
  pages : List Nat
  hit : Nat
deriving DecidableEq, Repr

/-- A ring with its two registers (R282, R348, R364). -/
structure Ring where
  base : Nat
  log2n : Nat
  lost : Nat
  head : Nat
  tail : Nat
deriving DecidableEq, Repr

/-- A breakpoint entry (R373). -/
structure Breakpoint where
  ctl : W64
  launch : Nat
  team : Nat
  tid : Nat
deriving DecidableEq, Repr

/-- A context's registers and the front end's state of it. -/
structure Ctx where
  en : Bool
  ivQuota : Nat
  reuseQuota : Nat
  asid : Nat
  root : Nat
  cores : BitVec 320
  race : Ring
  trap : Ring
  acct : Ring
  trace : W64
  coreDst : W64
  bps : List (Nat × Breakpoint)
  debug : Bool
  nextLaunch : Nat
  nextSeq : Nat
  chain : List Byte
  launches : Nat
  completions : Nat
  unsealed : List Completion
  frozen : Bool
  enabledAt : Nat
  colls : List (List Byte × Nat)
deriving DecidableEq, Repr

/-- The type of an event (R66). -/
inductive EventType | fault | syscall | packet | timer
deriving DecidableEq, Repr

/-- An entry of the hive's event queue by its fields: type, queue, context, sequence number, and the type-specific words at 0x10
and 0x18 (R66, R330). -/
structure HiveEvent where
  type : EventType
  queue : Nat
  ctx : Nat
  seq : Nat
  word : Nat
  word' : Nat
deriving DecidableEq, Repr

/-- What a handle of a context stands for (R346). -/
inductive HandleKind | file | stream | datagram
deriving DecidableEq, Repr

/-- A derived region descriptor: its 64 bytes as eight words, V and ERR in flags (R202). -/
structure Derived where
  window : W64
  length : W64
  base : W64
  index : W64
  stream : W64
  bytes : W64
  asid : BitVec 16
  port : BitVec 8
  v : Bool
  err : Bool
deriving DecidableEq, Repr

/-- A swarm that waits on a die and what the distributor has done for it (R74 to R76): how many teams, its attempts at migration and the
tick of the first, whether migration has ended, whether pre-emption has been made, the window reserved for it; the teams
being moved away, and from which window. -/
structure Waiting where
  ctx : Nat
  launch : Nat
  grid : Nat
  index : Nat
  count : Nat
  attempts : Nat
  firstTry : Option Nat
  givenUp : Bool
  preempted : Bool
  window : Option Nat
  victims : List TeamKey
  clearing : Nat
deriving DecidableEq, Repr

/-- One dispatcher and distributor (R71 to R76): the local core it used last, and its swarms that found no window. -/
structure Die where
  lastCore : Nat
  waiting : List Waiting
deriving DecidableEq, Repr

/-- An island's clock and sensors (R390), its issue shaping and limiter (R134, R392). hot is the lowered ceiling of R391; nextMaxq and nextTau apply from
core cycle shapeAt on. -/
structure Island where
  freq : Nat
  gate : Bool
  nextFreq : Nat
  nextGate : Bool
  base : Nat
  since : Nat
  temp : BitVec 16
  hot : Bool
  maxq : Nat
  tau : Nat
  nextMaxq : Nat
  nextTau : Nat
  shapeAt : Nat
  c0 : Nat
  idle : Bool
  ramp : Bool
  q : Nat
  lastIssue : Nat
deriving DecidableEq, Repr

/-- The step of R383 that comes next; waiting: none does until a recovery or a reset. -/
inductive BootStage | test | flash | check | load | train | last | waiting
deriving DecidableEq, Repr

/-- The registers of boot and recovery, the step that comes next, and the image that the ROM has read (R383 to R387). -/
structure Boot where
  rom : Bool
  done : Bool
  waitRec : Bool
  recov : Bool
  err : BitVec 8
  svn : W32
  recovLen : W32
  stage : BootStage
  image : List Byte
deriving DecidableEq, Repr

/-- An entry of the MSI-X table: address, data and vector control (R388; its layout is PCI Express's, log entry 108, PRESUMED). -/
structure MsixEntry where
  addr : W64
  data : W32
  ctrl : W32
deriving DecidableEq, Repr

/-- A match message that a member of a collective has sent: its context, rank list, number and sender (R323). -/
structure CollMsg where
  ctx : Nat
  ranks : List Byte
  number : Nat
  sender : Nat
  bytes : List Byte
deriving DecidableEq, Repr

/-- The vacate in progress (R339). -/
structure Vacate where
  ctx : Nat
  first : Nat
  count : Nat
  hold : Bool
deriving DecidableEq, Repr

/-- What the next step does: an event of the package or the outside, one word of a bundle, or time. -/
inductive Turn
  | event (i : Instr)
  | issue (bundle : Nat)
  | tick (n : Nat)
deriving DecidableEq, Repr

/-! ## The machine -/

/-- The whole package. -/
structure State where
  /-- physical memory: comb and pool, one byte a cell (R189) -/
  mem : List Host.Cell
  /-- block descriptors by block number (R145, R148) -/
  descs : List (Nat × Descr)
  /-- poison marks by block number (R208) -/
  poison : List (Nat × Cause)
  /-- memory of peer packages, by package and address (R191) -/
  peerMem : List Host.Cell
  /-- descriptors of peer packages' blocks -/
  peerDescs : List (Nat × Descr)
  /-- poison marks of peer packages' blocks (R208) -/
  peerPoison : List (Nat × Cause)
  /-- memory capacity of each CXL port in bytes (R148) -/
  portCap : List (Nat × Nat)
  /-- teams: those started and not yet retired, and walker threads -/
  teams : List Team
  /-- bundles (R112) -/
  bundles : List Bundle
  nextBundle : Nat
  /-- the bundle whose word is being issued -/
  focus : Option Nat
  /-- cores that differ from a core at reset (R2) -/
  cores : List (Nat × Core)
  /-- lines of the cores' instruction caches, most recently used first (R107) -/
  icache : List CodeLine
  /-- matrix engines that differ from one at reset (R237) -/
  pairs : List (Nat × Pair)
  /-- range scoreboards (R232) -/
  board : List SbEntry
  /-- copies, tile stores and transfers in flight, in order of issue (R232) -/
  moves : List Move
  nextOp : Nat
  /-- derived region table (R202) -/
  derived : List (Nat × Derived)
  /-- queues (R37) -/
  queues : List (Nat × Queue)
  /-- contexts (R40) -/
  ctxs : List (Nat × Ctx)
  /-- packets fetched and not complete -/
  packets : List Packet
  /-- pod barriers whose core groups are being filed (R326) -/
  pods : List Pod
  /-- launches not complete -/
  launches : List Launch
  /-- reuse table (R63) -/
  reuse : List Reuse
  /-- page digest table by 64 KiB page (R358) -/
  digests : List (Nat × List Byte)
  /-- last queue served at each level (R42) -/
  served : List (Nat × Nat)
  /-- failed operand fetches of matrix operations, oldest first (R253) -/
  mxFetches : List MxRecord
  /-- team whose pending launch the front end accepted last (R52) -/
  spawnServed : Option TeamKey
  /-- event queue, oldest first (R66) -/
  events : List HiveEvent
  /-- events held back by a full queue (R66) -/
  deferred : List HiveEvent
  /-- fault groups not acknowledged (R330) -/
  groups : List Group
  nextGroup : Nat
  /-- FAULTRING.BASE, FAULTRING.FREE and the next ring slot (R332) -/
  faultBase : Nat
  faultFree : Nat
  faultSlot : Nat
  /-- handles that the services have opened, by context and number (R346) -/
  handles : List (Nat × Nat × HandleKind)
  /-- core images written to files, by context and handle, oldest first (R377) -/
  imageFiles : List (Nat × Nat × List Byte)
  /-- messages raised on host vectors, oldest first (R45) -/
  msix : List Nat
  /-- MSI-X table by vector (R388) -/
  msixTable : List (Nat × MsixEntry)
  /-- recovery window (R385, R388) -/
  window : List Host.Cell
  /-- match messages of collectives that have been sent (R323) -/
  collMsgs : List CollMsg
  /-- WALKCFG (R195), WALKCODE (R196) -/
  walkCfg : W64
  walkCode : W64
  /-- TLBSHOOT: what runs and the last value written (R198) -/
  shootBusy : Bool
  shoot : W64
  /-- HINTRING, HINTPTR (R201) -/
  hintBase : Nat
  hintDrop : W32
  hintHead : Nat
  hintTail : Nat
  /-- PLACECFG (R68) -/
  swapThr : Nat
  /-- dispatchers and distributors (R71) -/
  dies : List (Nat × Die)
  /-- segments on the wire (R308) -/
  segments : List Segment
  nextSegment : Nat
  seqNums : List SeqNum
  regions : List Region
  /-- FLOWSTAT by die: LATEBAR, REFRESH, DESYNC (R314) -/
  flowStat : List (Nat × (Nat × Nat × Nat))
  heldReds : List HeldRed
  /-- PREEMPT and what it vacates (R339) -/
  vacate : Option Vacate
  preempt : W64
  /-- CORECALL: call in progress, ERR and the last value written (R372) -/
  callBusy : Bool
  callErr : Bool
  call : W64
  /-- DBGFOCUS: team and thread (R374) -/
  focusTeam : W32
  focusTid : BitVec 16
  /-- next signature index of each signer (R361) -/
  signer : List (Nat × Nat)
  /-- islands that differ from an island at reset (R390) -/
  islands : List (Nat × Island)
  /-- SLEWLIM (R392) -/
  slewLim : Nat
  boot : Boot
  /-- PKGCOORD (R387) -/
  coord : BitVec 12
  /-- FREEZE has stopped the clocks (R378); power was removed on TRIP (R391) -/
  frozen : Bool
  powered : Bool
  /-- peers that have been silent for 100 us (R378) -/
  silent : List Nat
  /-- global time base in ticks of 1 ns (R1, R10), and the model's own eighths of a tick past it, so that a core cycle of
  5/8 ns is a whole number of them -/
  ticks : Nat
  eighth : Nat
  /-- the model's own: turns still to take, in order -/
  agenda : List Turn
  /-- the model's own: counter of free choices (Config.freeBool, Config.freeNat) -/
  free : Nat
deriving DecidableEq, Repr

/-! ## Reset -/

/-- BOOTSTAT after reset (R383): the ROM runs. -/
def Boot.reset : Boot :=
  { rom := true, done := false, waitRec := false, recov := false, err := 0, svn := 0, recovLen := 0, stage := .test, image := [] }

/-- The package right after reset. -/
def State.reset : State :=
  { mem := [], descs := [], poison := [], peerMem := [], peerDescs := [], peerPoison := [], portCap := [], teams := [], bundles := [],
    nextBundle := 0, focus := none, cores := [], icache := [], pairs := [], board := [], moves := [], nextOp := 0, derived := [],
    queues := [], ctxs := [], packets := [], pods := [], launches := [], reuse := [], digests := [], served := [], mxFetches := [], spawnServed := none, events := [],
    deferred := [], groups := [], nextGroup := 1, faultBase := 0, faultFree := 4096, faultSlot := 0,
    handles := [], imageFiles := [], msix := [], msixTable := [], window := [], collMsgs := [], walkCfg := 0x1000000000000000, walkCode := 0, shootBusy := false, shoot := 0, hintBase := 0,
    hintDrop := 0, hintHead := 0, hintTail := 0, swapThr := 0x64, dies := [], segments := [], nextSegment := 0,
    seqNums := [], regions := [], flowStat := [], heldReds := [], vacate := none, preempt := 0,
    callBusy := false, callErr := false, call := 0, focusTeam := 0, focusTid := 0, signer := [],
    islands := [], slewLim := 100, boot := Boot.reset, coord := 0, frozen := false, powered := true, silent := [],
    ticks := 0, eighth := 0, agenda := [], free := 0 }

end Sys2Proof.Machine
end

