-- ==== Sys2Proof/Machine/Access.lean ====
section
/-! DEFINITION. Access.lean: the units of the package at reset, how each is found in the state and replaced in it, the
numbering of cores, pairs, dies and islands, and time. -/

namespace Sys2Proof.Machine

/-! ## Units at reset -/

/-- A core at reset; REGROUPAGE is 64 (R138). -/
def Core.fresh : Core :=
  { fifo := [], l1 := [], tlb := [], bins := [], atoms := [], monitor := [], walks := [], windows := [],
    streams := [], regroupAge := 64, slots := [] }
/-- An issue slot that has issued nothing. -/
def Slot.fresh : Slot := { bundle := none, freeAt := 0, last := none }

/-- A pair at reset (R237); the spec gives MXPSTALL no reset value, so 0 (log entry 1, DESIGN CHOICE). -/
def Pair.fresh : Pair := { tiles := [], flg := [], slots := [], queue := [], mxpstall := 0 }

/-- A ring at reset (R282, R348, R364). -/
def Ring.fresh : Ring := { base := 0, log2n := 0, lost := 0, head := 0, tail := 0 }

/-- An entry of the MSI-X table at reset: masked (log entry 108, PRESUMED). -/
def MsixEntry.fresh : MsixEntry := { addr := 0, data := 0, ctrl := 1 }

/-- A context at reset (R40, R67, R190). Its sequence numbers begin with 0 (R43 names no first one; log entry 102, DESIGN
CHOICE). -/
def Ctx.fresh : Ctx :=
  { en := false, ivQuota := 0, reuseQuota := 0, asid := 0, root := 0, cores := 0, race := .fresh, trap := .fresh,
    acct := .fresh, trace := 0, coreDst := 0, bps := [], debug := false, nextLaunch := 1, nextSeq := 0,
    chain := List.replicate 32 0, launches := 0, completions := 0, unsealed := [], frozen := false, enabledAt := 0,
    colls := [] }

/-- A queue at reset (R37). -/
def Queue.fresh : Queue :=
  { base := 0, ctx := 0, msix := 0, prio := 0, log2slots := 0, en := false, widx := 0, fidx := 0, cidx := 0,
    hidx := 0, cfgErr := false, overrun := false, halt := false, haltFrom := none, stamp := 0, stamps := [] }

/-- An island at reset (R390, R392). -/
def Island.fresh : Island :=
  { freq := 1600, gate := false, nextFreq := 1600, nextGate := false, base := 0, since := 0, temp := 0,
    hot := false, maxq := 16, tau := 14, nextMaxq := 16, nextTau := 14, shapeAt := 0, c0 := 0, idle := true,
    ramp := false, q := 16, lastIssue := 0 }

/-- A die's dispatcher and distributor at reset (R72). -/
def Die.fresh : Die := { lastCore := 39, waiting := [] }

/-- A derived region descriptor at reset (R202). -/
def Derived.fresh : Derived :=
  { window := 0, length := 0, base := 0, index := 0, stream := 0, bytes := 0, asid := 0, port := 0, v := false,
    err := false }

/-- A breakpoint entry at reset (R373). -/
def Breakpoint.fresh : Breakpoint := { ctl := 0, launch := 0, team := 0, tid := 0 }

/-- A barrier register at team start (R225). -/
def BarReg.fresh : BarReg := { phase := 0, xexp := 0, tm := true, xadd := 0, xgot := 0 }

/-- A clause whose header has been read and whose words are to issue (R84). -/
def Clause.start (hdr : Nat) (head : W64) (words : List W64) : Clause :=
  { hdr := hdr, head := head, words := words, idx := 0, begun := false, reform := [], rejoin := false,
    grouped := false }

/-- A thread at team start (R111). -/
def Thread.start (tid pc : Nat) : Thread :=
  { tid := tid, pc := pc, regs := [], preds := 0, win := [], pend := [], nextPend := 0, lpr := none, arr := 0,
    wp := [], batches := [], unsealed := [], atomSeq := 0, interval := 0, stat := .running, clause := none,
    nextAt := 0, stopNext := false, bpDone := false, brkDone := false, reissue := none }

/-! ## Numbering (R1, R4, R5) -/

/-- The die of a core. -/
def dieOf (core : Nat) : Nat := core / 40
/-- The pair of a core, which is also the number of its island. -/
def pairOf (core : Nat) : Nat := core / 2
/-- The pair's cores. -/
def coresOfPair (p : Nat) : List Nat := [2 * p, 2 * p + 1]
/-- The cores of a die, ascending. -/
def coresOfDie (d : Nat) : List Nat := (List.range 40).map (40 * d + ·)
/-- How many cores there are. -/
def coreCount : Nat := 320

/-! ## Finding and replacing -/

/-- Replaces the entries of a list that satisfy p. -/
def modWhere {α : Type} (p : α → Bool) (f : α → α) (l : List α) : List α := l.map fun x => if p x then f x else x

def State.core (s : State) (n : Nat) : Core := sget .fresh s.cores n
def State.setCore (s : State) (n : Nat) (c : Core) : State := { s with cores := sset .fresh s.cores n c }
def State.modCore (s : State) (n : Nat) (f : Core → Core) : State := s.setCore n (f (s.core n))
def State.pair (s : State) (n : Nat) : Pair := sget .fresh s.pairs n
def State.modPair (s : State) (n : Nat) (f : Pair → Pair) : State :=
  { s with pairs := sset .fresh s.pairs n (f (s.pair n)) }
def State.ctx (s : State) (n : Nat) : Ctx := sget .fresh s.ctxs n
def State.modCtx (s : State) (n : Nat) (f : Ctx → Ctx) : State :=
  { s with ctxs := sset .fresh s.ctxs n (f (s.ctx n)) }
def State.queue (s : State) (n : Nat) : Queue := sget .fresh s.queues n
def State.modQueue (s : State) (n : Nat) (f : Queue → Queue) : State :=
  { s with queues := sset .fresh s.queues n (f (s.queue n)) }
def State.island (s : State) (n : Nat) : Island := sget .fresh s.islands n
def State.modIsland (s : State) (n : Nat) (f : Island → Island) : State :=
  { s with islands := sset .fresh s.islands n (f (s.island n)) }
def State.die (s : State) (n : Nat) : Die := sget .fresh s.dies n
def State.modDie (s : State) (n : Nat) (f : Die → Die) : State :=
  { s with dies := sset .fresh s.dies n (f (s.die n)) }
def State.derivedAt (s : State) (n : Nat) : Derived := sget .fresh s.derived n
def State.modDerived (s : State) (n : Nat) (f : Derived → Derived) : State :=
  { s with derived := sset .fresh s.derived n (f (s.derivedAt n)) }

def State.team? (s : State) (k : TeamKey) : Option Team := s.teams.find? fun t => t.key == k
def State.modTeam (s : State) (k : TeamKey) (f : Team → Team) : State :=
  { s with teams := modWhere (fun t => t.key == k) f s.teams }
def Team.thread? (t : Team) (tid : Nat) : Option Thread := t.threads.find? fun x => x.tid == tid
def Team.modThread (t : Team) (tid : Nat) (f : Thread → Thread) : Team :=
  { t with threads := modWhere (fun x => x.tid == tid) f t.threads }
def State.thread? (s : State) (k : TeamKey) (tid : Nat) : Option Thread := (s.team? k).bind (·.thread? tid)
def State.modThread (s : State) (k : TeamKey) (tid : Nat) (f : Thread → Thread) : State :=
  s.modTeam k (·.modThread tid f)
def State.bundle? (s : State) (id : Nat) : Option Bundle := s.bundles.find? fun b => b.id == id
def State.modBundle (s : State) (id : Nat) (f : Bundle → Bundle) : State :=
  { s with bundles := modWhere (fun b => b.id == id) f s.bundles }
def State.launch? (s : State) (ctx id : Nat) : Option Launch :=
  s.launches.find? fun l => l.ctx == ctx && l.id == id
def State.modLaunch (s : State) (ctx id : Nat) (f : Launch → Launch) : State :=
  { s with launches := modWhere (fun l => l.ctx == ctx && l.id == id) f s.launches }
/-- A launch keeps a team's account entry; and drops those of some teams (R364). -/
def Launch.owe (l : Launch) (team : Nat) (e : List Byte) : Launch := { l with owed := l.owed ++ [(team, e)] }
def Launch.dropOwed (l : Launch) (who : Nat → Bool) : Launch := { l with owed := l.owed.filter fun e => !who e.1 }
def State.packet? (s : State) (p : PktName) : Option Packet := s.packets.find? fun x => x.name == p
def State.modPacket (s : State) (p : PktName) (f : Packet → Packet) : State :=
  { s with packets := modWhere (fun x => x.name == p) f s.packets }
def State.group? (s : State) (id : Nat) : Option Group := s.groups.find? fun g => g.id == id
def State.modGroup (s : State) (id : Nat) (f : Group → Group) : State :=
  { s with groups := modWhere (fun g => g.id == id) f s.groups }
def State.move? (s : State) (id : Nat) : Option Move := s.moves.find? fun m => m.id == id
def State.modMove (s : State) (id : Nat) (f : Move → Move) : State :=
  { s with moves := modWhere (fun m => m.id == id) f s.moves }
def Launch.grid? (l : Launch) (id : Nat) : Option Grid := l.grids.find? fun g => g.id == id
def Launch.modGrid (l : Launch) (id : Nat) (f : Grid → Grid) : Launch :=
  { l with grids := modWhere (fun g => g.id == id) f l.grids }

/-! ## Teams and their launches -/

/-- The launch a team belongs to. -/
def State.launchOf? (s : State) (k : TeamKey) : Option Launch :=
  match k with | .user c l _ => s.launch? c l | .walker _ _ => none
/-- A property of the team's launch; false for a walker thread. -/
def State.launchHas (s : State) (k : TeamKey) (p : Launch → Bool) : Bool :=
  match s.launchOf? k with | some l => p l | none => false

/-- A bit of the launch record's flags (R27). -/
def Launch.flag (l : Launch) (i : Nat) : Bool := l.flags / 2 ^ i % 2 == 1
def Launch.pure (l : Launch) : Bool := l.flag 0
def Launch.det (l : Launch) : Bool := l.flag 1
def Launch.check (l : Launch) : Bool := l.flag 2
def Launch.race (l : Launch) : Bool := l.flag 3
def Launch.raceLog (l : Launch) : Bool := l.flag 4
/-- FPTRAP, in the order of the flags (R27). -/
def Launch.fptrap (l : Launch) : BitVec 5 := BitVec.ofNat 5 (l.flags / 32)
def Launch.failedCause? (l : Launch) : Option Cause := match l.stat with | .failed c => some c | _ => none
def Launch.isFailed (l : Launch) : Bool := l.failedCause?.isSome
/-- A bit of the kernel descriptor's flags (R24). -/
def KDesc.flag (d : KDesc) (i : Nat) : Bool := d.flags / 2 ^ i % 2 == 1
def KDesc.matrix (d : KDesc) : Bool := d.flag 0
def KDesc.atomic (d : KDesc) : Bool := d.flag 1
def KDesc.sysc (d : KDesc) : Bool := d.flag 2
def KDesc.timerd (d : KDesc) : Bool := d.flag 3
def KDesc.spawns (d : KDesc) : Bool := d.flag 4
def KDesc.isSeed (d : KDesc) : Bool := d.flag 5
def KDesc.threads (d : KDesc) : Nat := d.tx * d.ty * d.tz

/-- Live: neither exited nor switched off (R114). -/
def Thread.live (t : Thread) : Bool := match t.stat with | .exited | .off => false | _ => true
/-- The thread's row (R110). -/
def Thread.row (t : Thread) : Nat := t.tid / 32
def Thread.isRunning (t : Thread) : Bool := match t.stat with | .running => true | _ => false
def Thread.parkedAs (t : Thread) : Option Park := match t.stat with | .parked p => some p | _ => none
def Team.isResident (t : Team) : Bool := match t.place with | .resident => true | _ => false
def Team.liveTids (t : Team) : List Nat := (t.threads.filter (·.live)).map (·.tid)

/-! ## What the hub islands serve (R389) -/

/-- Whether the island of function k of a hub runs: what a stopped one serves does nothing of its own (log entry 71, DEDUCED). -/
def State.hubServes (s : State) (hub k : Nat) : Bool := !(s.island (224 + 16 * hub + k)).gate
/-- Whether the island of a function runs on one hub or the other. -/
def State.fnRuns (s : State) (k : Nat) : Bool := s.hubServes 0 k || s.hubServes 1 k

/-- The functions of R389 that events wait for. -/
def frontEndFn : Nat := 0
def syscoreFn : Nat := 1
def hashFn : Nat := 2
def linkFns : List Nat := [9, 10, 11, 12]
def ringFn : Nat := 13
def hubLinkFn : Nat := 14

/-! ## Time (R1, R10) -/

/-- Time in eighths of a tick. -/
def State.now8 (s : State) : Nat := 8 * s.ticks + s.eighth
/-- Cycles of an island's clock since reset, at MHz its frequency; a stopped clock counts none. -/
def State.islandCycle (s : State) (i : Nat) : Nat :=
  let x := s.island i
  x.base + (if x.gate then 0 else (s.now8 - x.since) * x.freq / 8000)
/-- Cycles of a core's clock. -/
def State.cycle (s : State) (core : Nat) : Nat := s.islandCycle (pairOf core)

/-- Adds to a count that saturates. -/
def satAdd (top a b : Nat) : Nat := Nat.min top (a + b)

/-- Inserts after the entries not above it in the order, so that equal keys keep their order. -/
def insertBy {α : Type} (le : α → α → Bool) (x : α) : List α → List α
  | [] => [x]
  | y :: t => if le y x then y :: insertBy le x t else x :: y :: t
/-- Stable sort. -/
def sortBy {α : Type} (le : α → α → Bool) (l : List α) : List α := l.foldl (fun acc x => insertBy le x acc) []
/-- The first of the entries that no other is below. -/
def leastBy {α : Type} (lt : α → α → Bool) : List α → Option α
  | [] => none
  | x :: t => match leastBy lt t with
    | none => some x
    | some y => if lt y x then some y else some x
/-- Whether one list of numbers comes before another, entry by entry. -/
def lexLt : List Nat → List Nat → Bool
  | [], [] => false
  | [], _ :: _ => true
  | _ :: _, [] => false
  | a :: as, b :: bs => a < b || (a == b && lexLt as bs)
end Sys2Proof.Machine
end

