-- ==== Sys2Proof/Machine/Furrow.lean ====
section
/-! DEFINITION. Furrow.lean: the furrow code (R302 to R304) and CRC-32C (R309). A bit string is a number and a
length, its first bit the lowest. -/

namespace Sys2Proof.Machine

/-- A bit string: bit 0 of bits is the first of len bits. -/
structure BitStr where
  bits : Nat
  len : Nat
deriving DecidableEq, Repr

/-- The empty string. -/
def BitStr.empty : BitStr := { bits := 0, len := 0 }

/-- A field of w bits appended, least significant bit first (R302). -/
def BitStr.push (b : BitStr) (v w : Nat) : BitStr :=
  { bits := b.bits + (v % 2 ^ w) * 2 ^ b.len, len := b.len + w }

/-- One string after another. -/
def BitStr.append (a b : BitStr) : BitStr := { bits := a.bits + b.bits * 2 ^ a.len, len := a.len + b.len }

/-- w bits from a position. -/
def bitField (bits pos w : Nat) : Nat := bits / 2 ^ pos % 2 ^ w

/-- Whether a format code is reserved (R146). -/
def fmtReserved (fmt : Nat) : Bool := fmt > 9

/-- The format code of a descriptor (R145). -/
def fmtOf (d : Descr) : Nat := (d.extractLsb' 0 8).toNat

/-- The scale byte of a descriptor (R145). -/
def scaleByte (d : Descr) : Nat := (d.extractLsb' 8 8).toNat

/-- The furrow element width of a format code (R146). -/
def furrowWidth (fmt : Nat) : Nat :=
  if 1 ≤ fmt && fmt ≤ 5 then 8 else if fmt = 6 || fmt = 7 then 16 else 32

/-- log2 of the furrow width: the bits of a P field (R302). -/
def furrowLog (w : Nat) : Nat := if w = 8 then 3 else if w = 16 then 4 else 5

/-- Bytes as one little-endian number. -/
def natOfBytes (bs : List Byte) : Nat := bs.foldr (fun b acc => b.toNat + 256 * acc) 0

/-- A number as little-endian bytes. -/
def bytesOfNat (n v : Nat) : List Byte := (List.range n).map fun i => BitVec.ofNat 8 (v / 256 ^ i)

/-- The elements of a block's bytes at a width. -/
def elemsOf (w n : Nat) (bs : List Byte) : List Nat :=
  let v := natOfBytes bs
  (List.range n).map fun i => bitField v (i * w) w

/-- Bytes of elements. -/
def bytesOfElems (w : Nat) (es : List Nat) : List Byte :=
  bytesOfNat (es.length * w / 8) (es.foldr (fun e acc => e + 2 ^ w * acc) 0)

/-- The masked form's MASK, P and LOW fields (R302). -/
def maskedForm (w : Nat) (res : List Nat) : BitStr :=
  let mask := res.foldr (fun r acc => (if r = 0 then 0 else 1) + 2 * acc) 0
  res.foldl (init := BitStr.empty.push mask res.length) fun b r =>
    if r = 0 then b else (b.push (Nat.log2 r) (furrowLog w)).push r (Nat.log2 r)

/-- The raw form (R302). -/
def rawForm (w : Nat) (res : List Nat) : BitStr := res.foldl (init := BitStr.empty) fun b r => b.push r w

/-- Coding one block against a prediction (R302, R303). n is the elements present; sendD forces the descriptor and
raw forces MODE 2, as a REFRESH does (R310). -/
def encodeBlock (data pred : List Byte) (descr predDescr : Descr) (n : Nat) (refresh : Bool) : BitStr :=
  let w := furrowWidth (fmtOf descr)
  let res := ((elemsOf w n data).zip (elemsOf w n pred)).map fun x => x.1 ^^^ x.2
  let d := refresh || descr != predDescr
  let hd := BitStr.empty.push (if d then 1 else 0) 1
  let hd := if d then hd.push descr.toNat 16 else hd
  if refresh then (hd.push 2 2).append (rawForm w res)
  else if res.all (· == 0) then hd.push 0 2
  else
    let m := maskedForm w res
    if m.len ≥ n * w then (hd.push 2 2).append (rawForm w res) else (hd.push 1 2).append m

/-- What decoding meets (R204, R304). -/
inductive Decoded
  | block (data : List Byte) (descr : Descr) (used : Nat)
  | past
  | reserved
  | mode3
deriving DecidableEq, Repr

/-- The residuals of the masked form from element i on: the set bits of the mask, each a P and a LOW field. -/
def decodeMasked (bits lim w mask : Nat) : Nat → Nat → Nat → List Nat → Option (List Nat × Nat)
  | 0, _, pos, acc => some (acc.reverse, pos)
  | n + 1, i, pos, acc =>
    if bitField mask i 1 = 0 then decodeMasked bits lim w mask n (i + 1) pos (0 :: acc)
    else
      let lg := furrowLog w
      if pos + lg > lim then none
      else
        let p := bitField bits pos lg
        if pos + lg + p > lim then none
        else decodeMasked bits lim w mask n (i + 1) (pos + lg + p) ((2 ^ p + bitField bits (pos + lg) p) :: acc)

/-- Decoding one block from a position, with lim the first bit it may not take. whole counts the elements present
for a width, 512 over w for a whole block. -/
def decodeBlock (bits pos lim : Nat) (pred : List Byte) (predDescr : Descr) (bytes : Nat) (checkFmt : Bool) :
    Decoded :=
  if pos + 1 > lim then .past
  else
    let d := bitField bits pos 1
    if d = 1 && pos + 17 > lim then .past
    else
      let descr : Descr := if d = 1 then BitVec.ofNat 16 (bitField bits (pos + 1) 16) else predDescr
      let pos := if d = 1 then pos + 17 else pos + 1
      if checkFmt && fmtReserved (fmtOf descr) then .reserved
      else if pos + 2 > lim then .past
      else
        let mode := bitField bits pos 2
        let pos := pos + 2
        let w := furrowWidth (fmtOf descr)
        let n := bytes * 8 / w
        let old := elemsOf w n pred
        let out (res : List Nat) : List Byte := bytesOfElems w ((old.zip res).map fun x => x.1 ^^^ x.2)
        if mode = 0 then .block (pred.take bytes) descr pos
        else if mode = 1 then
          if pos + n > lim then .past
          else
            match decodeMasked bits lim w (bitField bits pos n) n 0 (pos + n) [] with
            | none => .past
            | some (res, p) => .block (out res) descr p
        else if mode = 2 then
          if pos + n * w > lim then .past
          else .block (out ((List.range n).map fun i => bitField bits (pos + i * w) w)) descr (pos + n * w)
        else .mode3

/-- One bit of CRC-32C, reflected (R309). -/
def crcBit (c : W32) : W32 := if c.getLsbD 0 then (c >>> 1) ^^^ 0x82F63B78 else c >>> 1

/-- One byte of CRC-32C. -/
def crcByte (c : W32) (b : Byte) : W32 :=
  crcBit (crcBit (crcBit (crcBit (crcBit (crcBit (crcBit (crcBit (c ^^^ b.setWidth 32))))))))

/-- CRC-32C of bytes (R309). -/
def crc32c (bs : List Byte) : W32 := (bs.foldl crcByte 0xFFFFFFFF) ^^^ 0xFFFFFFFF

end Sys2Proof.Machine
end

