-- ==== Sys2Proof/Machine/Memory.lean ====
section
/-! DEFINITION. Memory.lean: physical memory with its descriptors and poison marks (R148, R189, R208), the delta
expander (R202 to R205), write tracking (R64, R109, R207), page tables (R190 to R192), and the accesses that the front
end and the hive make to a context's memory (R394). -/

namespace Sys2Proof.Machine

/-! ## The physical address map (R189) -/

/-- First pool address. -/
def poolBase : Nat := 0x0004000000000000
/-- First derived-window address. -/
def windowBase : Nat := 0x0005000000000000
/-- Bytes of address space that one CXL port has, and the derived windows together. -/
def portSpan : Nat := 2 ^ 43
/-- The data area of a port of memory capacity C: the largest multiple of 2 MiB that leaves room for its descriptor
plane (R148). -/
def dataArea (c : Nat) : Nat := 2 ^ 21 * (c / (2 ^ 21 + 2 ^ 16))
/-- D of a port. A port the state does not list holds 8 TiB (log entry 8, DESIGN CHOICE). -/
def State.portData (s : State) (port : Nat) : Nat := Nat.min portSpan (dataArea (sget portSpan s.portCap port))
/-- Whether an address lies in a derived window. -/
def inWindows (pa : Nat) : Bool := windowBase ≤ pa && pa < windowBase + 8 * portSpan
/-- Whether a physical address is populated (R189). -/
def State.populated (s : State) (pa : Nat) : Bool :=
  pa < 2 ^ 32
    || (poolBase ≤ pa && pa < poolBase + 8 * portSpan && (pa - poolBase) % portSpan < s.portData ((pa - poolBase) / portSpan))
    || inWindows pa
/-- Whether a range lies wholly in a port's data area (R202). -/
def State.inPort (s : State) (port lo len : Nat) : Bool :=
  poolBase + portSpan * port ≤ lo && lo + len ≤ poolBase + portSpan * port + s.portData port

/-- A memory is in its canonical form: addresses strictly rise, and no entry equals the 0 that an unlisted address reads
as (log entry 31, DESIGN CHOICE). -/
abbrev Memory.wf (m : List Host.Cell) : Bool := swf 0 m

/-- The descriptor of a block first allocated (R145). -/
def plainDescr : Descr := 0x8000

/-- Where a byte of a peer package is kept: its package's coordinates, then its address (R191). -/
def peerKey (coord pa : Nat) : Nat := coord * 2 ^ 52 + pa

/-- A mark of a list, if there is one. -/
def markAt (l : List (Nat × Cause)) (k : Nat) : Option Cause := (l.find? fun x => x.1 == k).map (·.2)
/-- Sets or clears a mark; the list rises by key. -/
def setMark (l : List (Nat × Cause)) (k : Nat) (m : Option Cause) : List (Nat × Cause) :=
  match l with
  | [] => match m with | none => [] | some c => [(k, c)]
  | (k', c') :: t =>
    if k < k' then (match m with | none => (k', c') :: t | some c => (k, c) :: (k', c') :: t)
    else if k = k' then (match m with | none => t | some c => (k, c) :: t)
    else (k', c') :: setMark t k m

/-! ## Reading -/

/-- The block of comb or pool memory that holds an address. -/
def State.storedBlock (s : State) (pa : Nat) : Block :=
  { bytes := sgetMany 0 s.mem (pa / 64 * 64) 64, descr := sget plainDescr s.descs (pa / 64),
    poison := markAt s.poison (pa / 64) }

/-- Bytes of stored memory as a number. -/
def State.storedNat (s : State) (pa n : Nat) : Nat := natOfBytes (sgetMany 0 s.mem pa n)

/-- The valid derived region whose window holds an address (R202). -/
def State.regionAt (s : State) (pa : Nat) : Option Derived :=
  (s.derived.map (·.2)).find? fun d => d.v && d.window.toNat ≤ pa && pa < d.window.toNat + d.length.toNat

/-- The cause that poisons a window block. -/
def poisoned (c : Cause) (descr : Descr) (bytes : List Byte) : Block := { bytes := bytes, descr := descr, poison := some c }

/-- The expander's block for an address of a region's window (R203, R204). A block that it poisons shows the base's descriptor,
or the decoded one where decoding has come to its end (log entry 114, DESIGN CHOICE). -/
def State.expand (s : State) (d : Derived) (pa : Nat) : Block :=
  let b := (pa - d.window.toNat) / 64
  let base := s.storedBlock (d.base.toNat + 64 * b)
  match base.poison with
  | some c => poisoned c base.descr base.bytes
  | none =>
    let group := d.index.toNat + 144 * (b / 64)
    let declared (j : Nat) : Nat := s.storedNat (group + 16 + 2 * j) 2
    let start := s.storedNat group 8 + ((List.range (b % 64)).map declared).sum
    let n := declared (b % 64)
    if n > 531 then poisoned .deltaOver base.descr base.bytes
    else
      let first := start / 8
      let bits := s.storedNat (d.stream.toNat + first) 68
      let pos := start % 8
      let lim := Nat.min (pos + n) (8 * (d.bytes.toNat - first))
      match decodeBlock bits pos lim base.bytes base.descr 64 true with
      | .past => poisoned .deltaOver base.descr base.bytes
      | .reserved => poisoned .format base.descr base.bytes
      | .mode3 => poisoned .deltaOver base.descr base.bytes
      | .block data descr used =>
        if used < pos + n then poisoned .deltaShort descr data else { bytes := data, descr := descr, poison := none }

/-- A block of memory as it stands; none where nothing answers: an address that is not populated, or a window address
that no valid region covers (R189, R202). -/
def State.readBlock (s : State) (p : Place) : Option Block :=
  match p with
  | .here pa =>
    if inWindows pa then (s.regionAt pa).map fun d => s.expand d pa
    else if s.populated pa then some (s.storedBlock pa) else none
  | .peer c pa =>
    some { bytes := sgetMany 0 s.peerMem (peerKey c pa / 64 * 64) 64,
           descr := sget plainDescr s.peerDescs (peerKey c pa / 64), poison := markAt s.peerPoison (peerKey c pa / 64) }

/-- Whether anything answers at a place: it is populated, and, in a window, a valid region covers it (R189, R202). -/
def State.answers (s : State) (p : Place) : Bool :=
  match p with
  | .here pa => if inWindows pa then (s.regionAt pa).isSome else s.populated pa
  | .peer _ _ => true

/-- An address moved on within its place. -/
def Place.add (p : Place) (n : Nat) : Place :=
  match p with | .here pa => .here (pa + n) | .peer c pa => .peer c (pa + n)
def Place.pa (p : Place) : Nat := match p with | .here pa => pa | .peer _ pa => pa
/-- The address of the place's block. -/
def Place.block (p : Place) : Place :=
  match p with | .here pa => .here (pa / 64 * 64) | .peer c pa => .peer c (pa / 64 * 64)
def Place.isPeer (p : Place) : Bool := match p with | .here _ => false | .peer _ _ => true
/-- A number that tells blocks apart across packages: this package's own below 2^46. -/
def Place.blockKey (p : Place) : Nat :=
  match p with | .here pa => pa / 64 | .peer c pa => 2 ^ 60 + peerKey c pa / 64

/-! ## Failing a launch -/

/-- Marks a launch as failed: from now on no clause of it begins (step 1 of R336). The first failure gives the cause
(R352). LAUNCH_COMPLETE carries out the rest of R336. -/
def Launch.fail (c : Cause) (group : Nat) (l : Launch) : Launch :=
  match l.stat with
  | .begun => { l with stat := .failed c, failGroup := group }
  | .reusing => { l with stat := .failed c, failGroup := group }
  | .waiting => { l with stat := .failed c, failGroup := group }
  | .failed _ => l
  | .done => l
def State.failLaunch (s : State) (ctx id : Nat) (c : Cause) (group : Nat) : State :=
  s.modLaunch ctx id (·.fail c group)
def State.failLaunchOf (s : State) (k : TeamKey) (c : Cause) (group : Nat) : State :=
  match k with | .user ctx l _ => s.failLaunch ctx l c group | .walker _ _ => s

/-! ## Writing -/

/-- The 64 KiB page of an address. -/
def pageOf (a : Nat) : Nat := a / 65536
/-- A page of a place as one number, across packages: this package's own below 2^36. -/
def Place.pageKey (p : Place) : Nat :=
  match p with | .here pa => pageOf pa | .peer c pa => 2 ^ 48 + pageOf (peerKey c pa)
/-- Whether two ranges have a byte in common. -/
def overlaps (lo len lo' len' : Nat) : Bool := lo < lo' + len' && lo' < lo + len
/-- Whether a byte belongs to a range. -/
def within (lo len a : Nat) : Bool := lo ≤ a && a < lo + len
/-- Bytes of a region's index (R203). -/
def Derived.indexBytes (d : Derived) : Nat := 144 * (d.length.toNat / 4096)
/-- Whether a write of n bytes counts as a write to a page of a window: it meets the base, the index or the stream of the
window's region (R207). -/
def State.feeds (s : State) (p : Place) (n page : Nat) : Bool :=
  !p.isPeer && s.derived.any fun x => x.2.v && within x.2.window.toNat x.2.length.toNat (page * 65536)
    && (overlaps x.2.base.toNat x.2.length.toNat p.pa n || overlaps x.2.index.toNat x.2.indexBytes p.pa n
        || overlaps x.2.stream.toNat x.2.bytes.toNat p.pa n)
/-- Whether a write of n bytes of one block counts as a write to a page: the page itself, or a page of a window that it
feeds (R64, R207). -/
def State.touches (s : State) (p : Place) (n page : Nat) : Bool := p.pageKey == page || s.feeds p n page
/-- What the memory controllers do on a write of n bytes of one block (R64, R109, R358): page digests and reuse entries of
the page go, lines of the instruction caches that hold the block go, a launch that measured the page is marked, and a
launch whose code it holds fails. -/
def State.trackWrite (s : State) (p : Place) (n : Nat) : State :=
  let hit (pages : List Nat) : Bool := pages.any (s.touches p n)
  { s with
    digests := s.digests.filter fun x => !s.touches p n x.1
    reuse := s.reuse.filter fun r => !hit r.pages
    icache := s.icache.filter fun l => !(l.place == p.block || s.feeds p n l.place.pageKey)
    launches := s.launches.map fun l =>
      let l := if hit l.inPages then { l with dirtyIn := true } else l
      if hit l.codePages then l.fail .machine 0 else l }

/-- The marks after a write of n bytes: a block's mark goes when the whole block is overwritten (R208). -/
def clearMark (l : List (Nat × Cause)) (block n : Nat) : List (Nat × Cause) := if n == 64 then setMark l block none else l
/-- Stores bytes; they lie in one block. The store has no effect where nothing answers, or in a window. -/
def State.writeBytes (s : State) (p : Place) (bytes : List Byte) : State :=
  match p with
  | .here pa =>
    if s.populated pa && !inWindows pa then
      let s := s.trackWrite p bytes.length
      { s with mem := ssetMany 0 s.mem pa bytes, poison := clearMark s.poison (pa / 64) bytes.length }
    else s
  | .peer c pa =>
    let s := s.trackWrite p bytes.length
    { s with peerMem := ssetMany 0 s.peerMem (peerKey c pa) bytes
             peerPoison := clearMark s.peerPoison (peerKey c pa / 64) bytes.length }
/-- Sets a block's descriptor, a write to its page (R64, R187). -/
def State.writeDescr (s : State) (p : Place) (d : Descr) : State :=
  match p with
  | .here pa =>
    if s.populated pa && !inWindows pa then
      let s := s.trackWrite p.block 64
      { s with descs := sset plainDescr s.descs (pa / 64) d }
    else s
  | .peer c pa =>
    let s := s.trackWrite p.block 64
    { s with peerDescs := sset plainDescr s.peerDescs (peerKey c pa / 64) d }
/-- Sets a block's poison mark. -/
def State.writePoison (s : State) (p : Place) (m : Option Cause) : State :=
  match p with
  | .here pa => { s with poison := setMark s.poison (pa / 64) m }
  | .peer c pa => { s with peerPoison := setMark s.peerPoison (peerKey c pa / 64) m }
/-- Writes a whole block with its descriptor and mark (R187, R208). -/
def State.writeBlock (s : State) (p : Place) (b : Block) : State :=
  ((s.writeBytes p.block b.bytes).writeDescr p b.descr).writePoison p b.poison
/-- Writes part of a block, whose descriptor follows. A source mark spreads to the block; the block's own mark goes only
when the whole block is overwritten (R208). -/
def State.writePart (s : State) (p : Place) (off : Nat) (bytes : List Byte) (descr : Descr) (mark : Option Cause) :
    State :=
  let s := (s.writeBytes (p.block.add off) bytes).writeDescr p descr
  if mark.isSome || bytes.length == 64 then s.writePoison p mark else s

/-! ## Page tables (R190 to R192) -/

/-- A translation: a page, where it lies, and what its leaf permits. -/
structure Leaf where
  va : Nat
  size : Nat
  place : Place
  r : Bool
  w : Bool
  x : Bool
  derived : Bool
deriving DecidableEq, Repr

/-- How a walk of the tables ends. -/
inductive WalkRes
  | leaf (l : Leaf)
  | notPresent
  | protection
  | machine
deriving DecidableEq, Repr

/-- Bytes of a page: 0 64 KiB, 1 64 MiB, 2 64 GiB (R215). -/
def pageBytes (size : Nat) : Nat := 65536 * 1024 ^ size
/-- A bit of an entry. -/
def bitAt (e i : Nat) : Bool := e / 2 ^ i % 2 == 1
/-- The coordinates a leaf entry names: PX, PY, PZ as a coord code. -/
def entryCoord (e : Nat) : Nat := e / 2 ^ 52 % 4096
/-- The leaf that an entry describes for a page. -/
def leafOf (e va size : Nat) : Leaf :=
  let pa := e / 65536 % 2 ^ 36 * 65536
  { va := va / pageBytes size * pageBytes size, size := pageBytes size,
    place := if bitAt e 7 then .peer (entryCoord e) pa else .here pa,
    r := bitAt e 1, w := bitAt e 2, x := bitAt e 3, derived := bitAt e 6 }

/-- The walk from a table of one level down: level counts 4 to 1 from the root, so that a leaf here maps
64 KiB times 1024 to the power level − 1. -/
def State.walkFrom (s : State) (va table : Nat) : Nat → WalkRes
  | 0 => .protection
  | lv + 1 =>
    let pa := table + 8 * (va / (65536 * 1024 ^ lv) % 1024)
    if !s.populated pa || inWindows pa || (markAt s.poison (pa / 64)).isSome then .machine
    else
      let e := s.storedNat pa 8
      if !bitAt e 0 then .notPresent
      else if bitAt e 4 || e / 256 % 32 != 0 then .protection
      else if bitAt e 5 then
        if lv == 3 || e / 8192 % 8 != 0 || e / 65536 % 1024 ^ lv != 0 then .protection
        else if bitAt e 7 && entryCoord e == s.coord.toNat then .protection
        else
          let l := leafOf e va lv
          if !bitAt e 7 && !s.populated (e / 65536 % 2 ^ 36 * 65536) then .protection else .leaf l
      else s.walkFrom va (e / 8192 % 2 ^ 39 * 8192) lv
/-- The walk of a context's tables, as the supplied walker does it (R192). -/
def State.walkTables (s : State) (ctx va : Nat) : WalkRes := s.walkFrom va (s.ctx ctx).root 4

/-! ## Accesses of the front end and the hive (R394) -/

/-- Steps 2 to 4 of R197 for an access that the front end or the hive makes to a context's memory, and MACHINE where nothing
answers at the place (R202; log entry 36, DEDUCED). -/
def State.sysPlace (s : State) (ctx va : Nat) (acc : Acc) : Except Cause Place :=
  if va ≥ 2 ^ 56 then .error .pageProt
  else match s.walkTables ctx va with
    | .notPresent => .error .pageNp
    | .protection => .error .pageProt
    | .machine => .error .machine
    | .leaf l =>
      let ok := match acc with | .read => l.r | .write => l.w && !l.derived | .exec => l.x
      let p := l.place.add (va - l.va)
      if !ok then .error .pageProt else if s.answers p then .ok p else .error .machine

/-- The parts of a byte range that lie in one block each: address and length. -/
def blockParts (va n : Nat) : List (Nat × Nat) :=
  if n = 0 then []
  else (List.range ((va + n - 1) / 64 - va / 64 + 1)).map fun i =>
    let lo := Nat.max va ((va / 64 + i) * 64)
    (lo, Nat.min (va + n) ((va / 64 + i + 1) * 64) - lo)

/-- The block that holds a byte of a context's memory. -/
def State.sysBlock (s : State) (ctx va : Nat) : Except Cause Block :=
  match s.sysPlace ctx va .read with
  | .error c => .error c
  | .ok p => match s.readBlock p with
    | none => .error .machine
    | some b => .ok b

/-- Reads bytes of a context's memory at system scope; a poisoned block gives its cause (R209). -/
def State.sysRead (s : State) (ctx va n : Nat) : Except Cause (List Byte) :=
  (blockParts va n).foldl (init := .ok []) fun acc x =>
    match acc with
    | .error c => .error c
    | .ok bs => match s.sysBlock ctx x.1 with
      | .error c => .error c
      | .ok b => match b.poison with
        | some c => .error c
        | none => .ok (bs ++ (b.bytes.drop (x.1 % 64)).take x.2)

/-- Whether a write of a range to a context's memory would be made, part by part. -/
def State.sysCanWrite (s : State) (ctx va n : Nat) : Except Cause Unit :=
  (blockParts va n).foldl (init := .ok ()) fun acc x =>
    match acc with
    | .error c => .error c
    | .ok () => match s.sysPlace ctx x.1 .write with | .error c => .error c | .ok _ => .ok ()

/-- Writes bytes to a context's memory at system scope, all of them or none. -/
def State.sysWrite (s : State) (ctx va : Nat) (bytes : List Byte) : Except Cause State :=
  match s.sysCanWrite ctx va bytes.length with
  | .error c => .error c
  | .ok () => .ok ((blockParts va bytes.length).foldl (init := s) fun s x =>
      match s.sysPlace ctx x.1 .write with
      | .error _ => s
      | .ok p => s.writeBytes p ((bytes.drop (x.1 - va)).take x.2))

/-- The physical pages that a range of a context's memory lies in, of those that are present, those of peers among
them. -/
def State.sysPages (s : State) (ctx va len : Nat) : List Nat :=
  if len = 0 then []
  else (List.range (pageOf (va + len - 1) - pageOf va + 1)).filterMap fun i =>
    match s.walkTables ctx (Nat.max va ((pageOf va + i) * 65536)) with
    | .leaf l => some (l.place.add (Nat.max va ((pageOf va + i) * 65536) - l.va)).pageKey
    | .notPresent => none
    | .protection => none
    | .machine => none

end Sys2Proof.Machine
end

