-- ==== Sys2Proof/Machine/Ops.lean ====
section
/-! DEFINITION. Ops.lean: the named operations over threads, bundles, memory and teams: registers and the delayed-write
window (R102, R103), taking a fault or trap and returning from it (R329 to R334), translation (R193 to R197), the store
FIFO and the L1 read cache (R211, R263), atomics and their buffer (R276, R293), barriers (R226, R288), regroup bins and
row meetings (R114, R115). -/

namespace Sys2Proof.Machine

/-! ## Registers of a thread -/

/-- A general register. -/
def Thread.reg (t : Thread) (r : Nat) : W32 := sget 0 t.regs r
/-- A register pair (R9). -/
def Thread.pair (t : Thread) (r : Nat) : W64 := t.reg (r + 1) ++ t.reg r
/-- A group of registers, lowest first. -/
def Thread.group (t : Thread) (r n : Nat) : List W32 := (List.range n).map fun i => t.reg (r + i)
/-- A predicate. -/
def Thread.pred (t : Thread) (k : Nat) : Bool := t.preds.getLsbD k
def Thread.setReg (t : Thread) (r : Nat) (v : W32) : Thread := { t with regs := sset 0 t.regs r v }
def Thread.setPred (t : Thread) (k : Nat) (v : Bool) : Thread :=
  { t with preds := if v then t.preds ||| (1 <<< k) else t.preds &&& ~~~(1 <<< k : BitVec 24) }
/-- Writes a result to its destination (R103). -/
def Thread.setDest (t : Thread) (d : Dest) (v : W64) : Thread :=
  match d with
  | .reg r => t.setReg r (v.extractLsb' 0 32)
  | .pair r => (t.setReg r (v.extractLsb' 0 32)).setReg (r + 1) (v.extractLsb' 32 32)
  | .pred k => t.setPred k (v.getLsbD 0)
  | .preds => { t with preds := v.extractLsb' 0 24 }

/-- The number of a predicate among the slots that instructions read and write; a register is its own number. -/
def predSlot (k : Nat) : Nat := 256 + k
/-- The slots of a destination. -/
def Dest.slots (d : Dest) : List Nat :=
  match d with
  | .reg r => [r]
  | .pair r => [r, r + 1]
  | .pred k => [predSlot k]
  | .preds => (List.range 24).map predSlot
/-- Whether two sets of slots meet. -/
def meets (a b : List Nat) : Bool := a.any fun x => b.contains x

/-- The encoded distance advances by k: what reaches its latency lands, nearest first, and at equal distance the later
issue last (R102). -/
def Thread.advance (t : Thread) (k : Nat) : Thread :=
  let due := (List.range (k + 1)).flatMap fun n => t.win.filter fun e => e.left == n
  due.foldl (fun t e => t.setDest e.dest e.value)
    { t with win := (t.win.filter fun e => k < e.left).map fun e => { e with left := e.left - k } }

/-- What a window entry keeps when the named slots are written by a result that lands after it (R102). An entry that has landed in
this way is no longer short for the checking scoreboard (R105; log entry 128, DEDUCED). -/
def WinEntry.without (e : WinEntry) (slots : List Nat) : Option WinEntry :=
  match e.dest with
  | .reg r => if slots.contains r then none else some e
  | .pair r =>
    if slots.contains r then
      if slots.contains (r + 1) then none
      else some { e with dest := .reg (r + 1), value := (e.value.extractLsb' 32 32).setWidth 64 }
    else if slots.contains (r + 1) then some { e with dest := .reg r } else some e
  | .pred _ => some e
  | .preds => some e

/-- Slots that a pending result will write. -/
def Pend.slots (p : Pend) : List Nat := (List.range p.count).map (p.reg + ·)

/-- A variable-latency result lands: after every window entry that it overlaps (R102, R104). -/
def Thread.landWords (t : Thread) (p : Pend) (ws : List W32) : Thread :=
  let t := { t with win := t.win.filterMap (·.without p.slots), pend := t.pend.filter fun q => q.id != p.id }
  ws.zipIdx.foldl (fun t x => t.setReg (p.reg + x.2) x.1) t

/-- Marks a destination pending (R104). -/
def Thread.addPend (t : Thread) (reg count : Nat) (v : Option (List W32)) (kind : PendKind) : Thread :=
  { t with pend := t.pend ++ [{ id := t.nextPend, reg := reg, count := count, value := v, kind := kind }],
           nextPend := t.nextPend + 1 }

/-- Whether a slot set meets a pending result. -/
def Thread.waitsFor (t : Thread) (slots : List Nat) : Bool := t.pend.any fun p => meets p.slots slots
/-- Whether a slot set meets an entry still short of its latency (R105). -/
def Thread.short (t : Thread) (slots : List Nat) : Bool := t.win.any fun e => meets e.dest.slots slots

/-- A thread ends or is switched off: pending results are discarded (R122, R218). -/
def Thread.cease (t : Thread) (st : TStat) : Thread := { t with stat := st, pend := [], win := [], clause := none }

/-! ## Words -/

/-- The address of a clause's next word. -/
def Clause.wordPc (c : Clause) : Nat := c.hdr + 8 + 8 * c.idx
def Clause.atEnd (c : Clause) : Bool := c.idx ≥ c.words.length
/-- Whether the clause's end does something to a thread besides going on (R123, R124). -/
def Clause.holds (c : Clause) (tid : Nat) : Bool := c.rejoin || c.reform.contains tid

/-- The low n bytes of a group of registers (R212). -/
def bytesOfWords (ws : List W32) (n : Nat) : List Byte := ((ws.flatMap fun w => bytesOfNat 4 w.toNat).take n)
/-- Bytes as words, the last one filled with zeros. -/
def wordsOfBytes (bs : List Byte) : List W32 :=
  (List.range ((bs.length + 3) / 4)).map fun i => BitVec.ofNat 32 (natOfBytes ((bs.drop (4 * i)).take 4))

/-! ## Bundles -/

/-- Removes threads from a bundle; an empty bundle goes. -/
def State.leaveBundle (s : State) (id : Nat) (tids : List Nat) : State :=
  { s with bundles := (modWhere (fun b => b.id == id) (fun b => { b with tids := b.tids.filter fun t => !tids.contains t })
      s.bundles).filter fun b => !b.tids.isEmpty }

/-- The core of a team. -/
def State.coreOf (s : State) (k : TeamKey) : Nat :=
  match s.team? k with | some t => t.core | none => 0

/-- The other members of a team's swarm with the team itself, in order (R340). -/
def State.swarmOf (s : State) (t : Team) : List Team :=
  if t.desc.swarm ≤ 1 then [t]
  else s.teams.filter fun u =>
    u.key.launch? == t.key.launch? && u.grid == t.grid && u.index / t.desc.swarm == t.index / t.desc.swarm

/-- Forms one bundle, stamped with the current cycle; it names each of its threads once (R112, R116). -/
def State.mkBundle (s : State) (k : TeamKey) (tids : List Nat) (pc : Nat) (cl : Option Clause) (met single : Bool) :
    State :=
  if tids.isEmpty then s
  else
    let now := s.cycle (s.coreOf k)
    let tids := tids.eraseDups
    let s := tids.foldl (fun s t => s.modThread k t fun x => { x with stat := .running, clause := none }) s
    let b : Bundle :=
      { id := s.nextBundle, key := k, tids := tids, pc := pc, stamp := now, clause := cl, held := false, waits := [],
        notes := [], met := met, single := single }
    let s := s.modTeam k fun t => { t with parkedSince := none }
    { s with bundles := s.bundles ++ [b], nextBundle := s.nextBundle + 1 }

/-- Splits threads by a key, in order of the lowest thread of each part. -/
def partsBy {κ : Type} [DecidableEq κ] (f : Nat → κ) (tids : List Nat) : List (List Nat) :=
  ((tids.map f).eraseDups).map fun k => tids.filter fun t => f t == k

/-- What tells the place of a thread between and inside clauses apart: its PC and the clause it goes back to. -/
def State.placeOf (s : State) (k : TeamKey) (tid : Nat) : Nat × Option Clause :=
  match s.thread? k tid with | some t => (t.pc, t.clause) | none => (0, none)

/-- A clause without the threads that its regroup word has taken, which differ from bundle to bundle. -/
def Clause.place (c : Clause) : Clause := { c with reform := [] }
/-- The clause of threads that stand at one place of it: it files each thread that the clause of that thread files (R112,
R123). -/
def State.joined (s : State) (k : TeamKey) (tids : List Nat) (c : Clause) : Clause :=
  { c with reform := tids.filter fun t => match (s.placeOf k t).2 with | some d => d.reform.contains t | none => false }

/-- Every held bundle looks again at what it waits for. -/
def State.wake (s : State) : State := { s with bundles := s.bundles.map fun b => { b with held := false } }

/-! ## Regroup bins (R114) -/

/-- Draws a bin as one bundle; a thread that is to stop does so instead of going on (R375). -/
def State.drawBin (s : State) (core : Nat) (b : Bin) : State :=
  let s := s.modCore core fun c => { c with bins := c.bins.filter fun x => x.idx != b.idx }
  let stops (t : Nat) : Bool := match s.thread? b.key t with | some x => x.stopNext | none => false
  let s := (b.tids.filter stops).foldl (fun s t => s.modThread b.key t fun x => { x with stat := .stopped, stopNext := false }) s
  s.mkBundle b.key (sortBy (· ≤ ·) (b.tids.filter fun t => !stops t)) b.pc none false false

/-- The lowest bin number not in use. -/
def freeBin (bins : List Bin) : Option Nat := (List.range 64).find? fun i => !bins.any fun b => b.idx == i

/-- Files a thread into the bin of its team and next PC, which it holds (R114). -/
def State.fileThread (s : State) (k : TeamKey) (tid pc : Nat) : State :=
  let core := s.coreOf k
  let put (s : State) (i : Nat) : State :=
    s.modThread k tid fun x => { x with stat := .binned i, clause := none }
  match (s.core core).bins.find? fun b => b.key == k && b.pc == pc with
  | some b =>
    let b' := { b with tids := b.tids ++ [tid] }
    let s := put (s.modCore core fun c => { c with bins := modWhere (fun x => x.idx == b.idx) (fun _ => b') c.bins }) b.idx
    if b'.tids.length ≥ 32 then s.drawBin core b' else s
  | none =>
    let s := match freeBin (s.core core).bins with
      | some _ => s
      | none => match leastBy (fun a b => a.filed < b.filed) (s.core core).bins with
        | some b => s.drawBin core b
        | none => s
    match freeBin (s.core core).bins with
    | none => s
    | some i =>
      let b : Bin :=
        { idx := i, key := k, pc := pc, tids := [tid], filed := s.cycle core, age := (s.core core).regroupAge }
      put (s.modCore core fun c => { c with bins := c.bins ++ [b] }) i

/-- Draws every bin that holds all the live threads of its team. -/
def State.drawFull (s : State) (k : TeamKey) : State :=
  match s.team? k with
  | none => s
  | some t =>
    ((s.core t.core).bins.filter fun b => b.key == k && !t.liveTids.isEmpty && t.liveTids.all b.tids.contains).foldl
      (fun s b => s.drawBin t.core b) s

/-! ## Ends of clauses and of parks -/

/-- What a clause's end does to one thread whose next PC is set: it meets its row, is filed, stops, or goes on. The
result says whether it goes on (R123, R124, R375, R376). -/
def State.endThread (s : State) (k : TeamKey) (c : Clause) (tid : Nat) : State × Bool :=
  match s.thread? k tid with
  | none => (s, false)
  | some t =>
    if c.rejoin then
      (s.modThread k tid fun x => { x with stat := .parked (.meeting t.pc false), clause := none }, false)
    else if c.reform.contains tid then (s.fileThread k tid t.pc, false)
    else if t.stopNext then
      (s.modThread k tid fun x => { x with stat := .stopped, stopNext := false, clause := none }, false)
    else (s, true)

/-- Applies the end of a clause to threads and gives those that go on. -/
def State.endThreads (s : State) (k : TeamKey) (c : Clause) (tids : List Nat) : State × List Nat :=
  tids.foldl (init := (s, [])) fun acc t =>
    let r := acc.1.endThread k c t
    (r.1, if r.2 then acc.2 ++ [t] else acc.2)

/-- Forms bundles from released threads: one per row and PC (R112). A thread whose clause was over but still had its
end to come has it now. single is set for threads that are to stop after the word they go back to (R375, R376). -/
def State.regroup (s : State) (k : TeamKey) (tids : List Nat) (met single : Bool) : State :=
  (partsBy (fun t => (t / 32, (s.placeOf k t).1, (s.placeOf k t).2.map Clause.place)) tids).foldl (init := s) fun s part =>
    match part with
    | [] => s
    | t0 :: _ =>
      let (pc, cl) := s.placeOf k t0
      match cl with
      | none => s.mkBundle k part pc none met single
      | some c =>
        let c := s.joined k part c
        if c.atEnd then
          let (s, rest) := s.endThreads k c part
          s.mkBundle k rest pc none met single
        else s.mkBundle k part pc (some c) met single

/-- Releases parked threads. back says that they issue their word again (a meeting at a lane instruction, a wait);
otherwise they go on after it, and those that are to stop do so (R375). -/
def State.release (s : State) (k : TeamKey) (tids : List Nat) (back met : Bool) : State :=
  let stops (t : Nat) : Bool := match s.thread? k t with | some x => x.stopNext | none => false
  let (st, go) := tids.partition stops
  let s := s.regroup k go met false
  if back then s.regroup k st met true
  else st.foldl (fun s t => s.modThread k t fun x => { x with stat := .stopped, stopNext := false }) s

/-- Whether a thread keeps its row's meetings waiting (R115). A thread that waits at the issue of a copy or transfer (R232,
step 8) stands in neither list of R115 and counts as running (log entry 86, DEDUCED). -/
def Thread.runsForRow (t : Thread) : Bool :=
  match t.stat with
  | .running => true
  | .binned _ => true
  | .stopped => true
  | .exited => false
  | .off => false
  | .parked p =>
    match p with
    | .meeting _ _ => false
    | .barWait _ => false
    | .barArrive _ => false
    | .tbar _ => false
    | .memory _ => false
    | .cwait _ => true
    | .group _ => true
    | .fpTrap => true
    | .spawn _ => true
    | .quota => true
    | .copy => true

/-- Where a thread waits for its row, if it does. -/
def Thread.meetingAt (t : Thread) : Option (Nat × Bool) :=
  match t.stat with
  | .parked (.meeting a lane) => some (a, lane)
  | _ => none

/-- Releases the row meetings of a team whose rows can no longer change who arrives (R115). -/
def State.releaseRows (s : State) (k : TeamKey) : State :=
  match s.team? k with
  | none => s
  | some t =>
    ((t.threads.map (·.row)).eraseDups).foldl (init := s) fun s row =>
      let ts := t.threads.filter fun x => x.row == row
      if ts.any (·.runsForRow) then s
      else
        let waiting := ts.filter fun x => x.meetingAt.isSome
        let s := s.release k ((waiting.filter fun x => x.meetingAt.map (·.2) == some true).map (·.tid)) true true
        s.release k ((waiting.filter fun x => x.meetingAt.map (·.2) == some false).map (·.tid)) false false

/-! ## Taking a fault or trap, and returning from it (R329 to R342) -/

/-- The code of a cause (R352). -/
def Cause.code (c : Cause) : Nat :=
  match c with
  | .ill => 0x01 | .stallShort => 0x02 | .align => 0x03 | .format => 0x04 | .pageNp => 0x10 | .pageProt => 0x11
  | .pageCancel => 0x12 | .spViol => 0x18 | .fpInv => 0x20 | .fpDivz => 0x21 | .fpOvf => 0x22 | .fpUnf => 0x23
  | .fpInx => 0x24 | .cvtOvf => 0x28 | .mxFetch => 0x30 | .dsBad => 0x31 | .deltaOver => 0x38 | .deltaShort => 0x39
  | .race => 0x40 | .purity => 0x41 | .collMismatch => 0x48 | .flowDesync => 0x49 | .syscall => 0x50 | .trap => 0x51
  | .brk => 0x52 | .depth => 0x60 | .spawnBad => 0x61 | .machine => 0xF0

/-- Kinds of a record (R331). -/
def Acc.kind (a : Acc) : Nat := match a with | .read => 0 | .write => 1 | .exec => 2
def kindCopy : Nat := 3
def kindTransfer : Nat := 4
def kindStream : Nat := 5
def kindNone : Nat := 6

/-- What one thread's precise fault or trap is: its cause, the kind of access, and the address where it names one. -/
structure Trap where
  tid : Nat
  cause : Cause
  kind : Nat
  addr : Option Nat
  code : Nat
  value : W64
  args : List W64
deriving DecidableEq, Repr

/-- A fault that names no address. -/
def Trap.plain (tid : Nat) (c : Cause) : Trap :=
  { tid := tid, cause := c, kind := kindNone, addr := none, code := 0, value := 0, args := [] }
/-- A fault at an address. -/
def Trap.at (tid : Nat) (c : Cause) (kind addr : Nat) : Trap :=
  { tid := tid, cause := c, kind := kind, addr := some addr, code := 0, value := 0, args := [] }

/-- A record with its count of threads. -/
def Trap.record (t : Trap) (pc team stamp count : Nat) : FaultRec :=
  { cause := t.cause, kind := t.kind, reissue := false, addr := t.addr.getD 0, pc := pc, team := team, tid := t.tid,
    count := count, flags := 0, code := t.code, fpCount := 0, stamp := stamp, value := t.value, args := t.args,
    result := 0 }

/-- The records of an instruction's traps: one for each distinct pair of cause and page, in order of their lowest
thread; one for each thread where the group's kind says so (R330, R344, R348). -/
def recordsOf (traps : List Trap) (each : Bool) (pc team stamp : Nat) : List FaultRec :=
  if each then traps.map fun t => t.record pc team stamp 1
  else
    let key (t : Trap) : Cause × Option Nat := (t.cause, t.addr.map pageOf)
    ((traps.map key).eraseDups).filterMap fun k =>
      let same := traps.filter fun t => key t == k
      same.head?.map fun t => t.record pc team stamp same.length

/-- The bytes of a fault record (R331), a syscall record (R345) or a trap record (R348). -/
def recordBytes (g : Group) (i : Nat) (r : FaultRec) : List Byte :=
  let head := bytesOfNat 1 r.cause.code ++ bytesOfNat 1 (r.kind + (if r.reissue then 8 else 0)) ++ bytesOfNat 1 i ++
    bytesOfNat 1 g.records.length ++ bytesOfNat 4 g.launch ++ bytesOfNat 8 g.id
  match g.kind with
  | .syscall =>
    head ++ (r.args.flatMap fun a => bytesOfNat 8 a.toNat) ++ bytesOfNat 4 r.team ++ bytesOfNat 2 r.tid ++
      bytesOfNat 2 r.code ++ bytesOfNat 8 r.result.toNat
  | _ =>
    head ++ bytesOfNat 8 r.addr ++ bytesOfNat 8 r.pc ++ bytesOfNat 4 r.team ++ bytesOfNat 2 r.tid ++
      bytesOfNat 2 r.count ++ bytesOfNat 1 g.ctx ++ bytesOfNat 1 r.flags.toNat ++ bytesOfNat 2 r.code ++
      bytesOfNat 4 r.fpCount ++ bytesOfNat 8 r.stamp ++ bytesOfNat 8 r.value.toNat

/-- Slots of the fault ring (R332), entries of the event queue (R66). -/
def ringSlots : Nat := 4096
def eventSlots : Nat := 4096

/-- Posts an event, or has its producer hold it while the queue is full (R66). -/
def State.postEvent (s : State) (e : HiveEvent) : State :=
  if s.events.length < eventSlots && s.deferred.isEmpty then { s with events := s.events ++ [e] }
  else { s with deferred := s.deferred ++ [e] }

/-- Writes a group's records at a ring slot. -/
def State.putRecords (s : State) (g : Group) (slot : Nat) : State :=
  g.records.zipIdx.foldl (init := s) fun s x =>
    s.writeBytes (.here (s.faultBase + 64 * ((slot + x.2) % ringSlots))) (recordBytes g x.2 x.1)

/-- The code of an event's type (R66). -/
def EventType.code (t : EventType) : Nat := match t with | .fault => 1 | .syscall => 2 | .packet => 3 | .timer => 4
/-- The 32 bytes of an event's entry (R66). -/
def HiveEvent.bytes (e : HiveEvent) : List Byte :=
  bytesOfNat 1 e.type.code ++ bytesOfNat 1 e.queue ++ bytesOfNat 1 e.ctx ++ List.replicate 5 0 ++ bytesOfNat 8 e.seq ++
    bytesOfNat 8 e.word ++ bytesOfNat 8 e.word'
/-- The event of a packet that goes to the hive: its slot's address (R66). -/
def HiveEvent.packet (p : Packet) : HiveEvent :=
  { type := .packet, queue := p.name.q, ctx := p.ctx, seq := p.seq, word := p.slot, word' := 0 }
/-- The event of a timer. -/
def HiveEvent.timer (id : W64) : HiveEvent := { type := .timer, queue := 0, ctx := 0, seq := 0, word := id.toNat, word' := 0 }

/-- The event that reports a group: its id and, for a fault, the ring slot of its first record (R330; what a SYSCALL event
holds at 0x18 is log entry 95, DEDUCED). -/
def Group.event (g : Group) : HiveEvent :=
  match g.kind with
  | .syscall => { type := .syscall, queue := 0, ctx := g.ctx, seq := 0, word := g.id, word' := 0 }
  | _ => { type := .fault, queue := 0, ctx := g.ctx, seq := 0, word := g.id, word' := g.slot.getD 0 }
/-- Whether an event reports a group. -/
def HiveEvent.reports (e : HiveEvent) (g : Group) : Bool := (e.type == .fault || e.type == .syscall) && e.word == g.id

/-- Whether a group holds a slot of the ring. -/
def Group.holdsSlot (g : Group) (i : Nat) : Bool :=
  match g.slot with | some b => (i + ringSlots - b) % ringSlots < g.slots | none => false
/-- The first of n consecutive free slots of the ring, from the next one on (R332; log entry 96, DEDUCED). -/
def State.ringRoom (s : State) (n : Nat) : Option Nat :=
  let free (i : Nat) : Bool := !s.groups.any fun g => g.holdsSlot i
  if s.faultFree < n then none
  else ((List.range ringSlots).find? fun k => (List.range n).all fun j => free ((s.faultSlot + k + j) % ringSlots)).map fun k =>
    (s.faultSlot + k) % ringSlots

/-- Writes a group's records and posts its event if the ring has room for the whole group; otherwise the group waits
for room (R330, R332). -/
def State.fileGroup (s : State) (id : Nat) : State :=
  match s.group? id with
  | none => s
  | some g =>
    if g.slot.isSome then s
    else match s.ringRoom g.records.length with
      | none => s
      | some slot =>
        let g := { g with slot := some slot, slots := g.records.length }
        let s := (s.putRecords g slot).modGroup id fun _ => g
        ({ s with faultFree := s.faultFree - g.slots, faultSlot := (slot + g.slots) % ringSlots }).postEvent g.event

/-- The records of a group and more of them: one for each distinct pair of cause and page, in order of their lowest thread
(R330). -/
def mergeRecords (old new : List FaultRec) : List FaultRec :=
  let same (a b : FaultRec) : Bool := a.cause == b.cause && pageOf a.addr == pageOf b.addr
  let join (a b : FaultRec) : FaultRec := { (if b.tid < a.tid then b else a) with count := a.count + b.count }
  sortBy (fun a b => a.tid ≤ b.tid) (new.foldl (init := old) fun rs r =>
    if rs.any (same r) then rs.map fun x => if same r x then join x r else x else rs ++ [r])

/-- A restored sub-group faults again: it stays in its group, whose records are replaced, with REISSUE set (R342). -/
def State.rejoinGroup (s : State) (g : Group) (pc : Nat) (recs : List FaultRec) (tids : List Nat) : State :=
  let recs := recs.map fun r => { r with reissue := true }
  let g' := { g with records := if g.members.isEmpty then recs else mergeRecords g.records recs, members := g.members ++ tids, pc := pc }
  match g.slot with
  | none => s.modGroup g.id fun _ => g'
  | some slot =>
    if g'.records.length ≤ g.slots then (s.modGroup g.id fun _ => g').putRecords g' slot
    else
      let s := s.modGroup g.id fun _ => { g' with slot := none, slots := 0 }
      ({ s with faultFree := Nat.min ringSlots (s.faultFree + g.slots) }).fileGroup g.id

/-- TAKING A FAULT OR TRAP. The trapping threads of one instruction, already out of their bundle, become the parked
sub-group of a new fault group, or of the pending one whose word they issued again: each parks at the word with its
registers unchanged, the records go to the ring and one event to the hive (R329, R330, R342). inner is the clause the
threads go on in; none for a fetch fault (R108). -/
def State.takeGroup (s : State) (k : TeamKey) (kind : GroupKind) (pc dest : Nat) (inner : Option Clause)
    (traps : List Trap) (each : Bool) : State :=
  let old : Option Group := ((traps.head?.bind fun t => s.thread? k t.tid).bind (·.reissue)).bind s.group?
  let id := match old with | some g => g.id | none => s.nextGroup
  let recs := recordsOf traps each pc k.teamId s.ticks
  let tids := traps.map (·.tid)
  let s := tids.foldl (fun s t => s.modThread k t fun x =>
    { x with stat := .parked (.group id), pc := pc, clause := inner, reissue := none }) s
  match old with
  | some g => s.rejoinGroup g pc recs tids
  | none =>
    let g : Group :=
      { id := id, ctx := k.ctxId, launch := k.launchId, key := k, kind := kind, pc := pc, dest := dest,
        records := recs, members := tids, slot := none, slots := 0, ack := none }
    ({ s with groups := s.groups ++ [g], nextGroup := id + 1 }).fileGroup id

/-- A group with one record that parks no thread: a copy, transfer or stream that stopped on a page (R330), the report of a
collection window (R337), or a stop (R373). members are the threads of the team that it reports. -/
def State.takeReport (s : State) (k : TeamKey) (kind : GroupKind) (r : FaultRec) (members : List Nat) : State :=
  let id := s.nextGroup
  let g : Group :=
    { id := id, ctx := k.ctxId, launch := k.launchId, key := k, kind := kind, pc := r.pc, dest := 0,
      records := [r], members := members, slot := none, slots := 0, ack := none }
  ({ s with groups := s.groups ++ [g], nextGroup := id + 1 }).fileGroup id

/-- A group is acknowledged: it and its slots go (R332). -/
def State.dropGroup (s : State) (g : Group) : State :=
  { s with groups := s.groups.filter fun x => x.id != g.id
           faultFree := Nat.min ringSlots (s.faultFree + g.slots) }

/-- The members of a group that still wait in it, ascending. -/
def State.groupMembers (s : State) (g : Group) : List Nat :=
  g.members.filter fun t => match s.thread? g.key t with | some x => x.parkedAs == some (.group g.id) | none => false

/-- RETURNING FROM A FAULT. Replay: the sub-group reissues the word it parked at and goes on in its clause; after a
fetch fault it fetches the clause again (R334). -/
def State.replayGroup (s : State) (g : Group) : State :=
  ((s.release g.key (s.groupMembers g) true false).dropGroup g).wake

/-- A parked thread has done the word it stands at: the word counts in its encoded distance, with its own stall count, and
the thread stands before the next word, or, where the clause is over with nothing left to do, before the next clause
(R102, R285, R289, R344, R348). pend is the result that the word brings. -/
def Thread.pastWord (x : Thread) (now : Nat) (pend : Option (Nat × List W32 × PendKind)) : Thread :=
  let x := match pend with | some (r, ws, k) => x.addPend r ws.length (some ws) k | none => x
  match x.clause with
  | none => { x with pc := x.pc + 8 }
  | some c =>
    let st := ((c.words.getD c.idx 0).extractLsb' 42 4).toNat
    let c' : Clause := { c with idx := c.idx + 1 }
    { x.advance (st + 1) with pc := c'.wordPc, clause := if c'.atEnd && !c'.holds x.tid then none else some c',
                              nextAt := now + st + 1, bpDone := false, brkDone := false, reissue := none }
def State.pastWord (s : State) (k : TeamKey) (tid : Nat) (pend : Option (Nat × List W32 × PendKind)) : State :=
  s.modThread k tid fun x => x.pastWord (s.cycle (s.coreOf k)) pend

/-- RETURNING FROM A TRAP. Release: the threads go on after the word (R344, R348). -/
def State.releaseGroup (s : State) (g : Group) : State :=
  let ts := s.groupMembers g
  let s := ts.foldl (fun s t => s.pastWord g.key t none) s
  ((s.release g.key ts false false).dropGroup g).wake

/-! ## Walker threads (R195, R196, R372) -/

/-- ENTRY and LIMIT of WALKCFG (R195). -/
def walkEntry (v : W64) : Nat := v.toNat % 2 ^ 52 / 8 * 8
def walkLimit (v : W64) : Nat := v.toNat / 2 ^ 52 * 16
/-- BASE and PAGES of WALKCODE (R196). -/
def codeBase (v : W64) : Nat := v.toNat % 2 ^ 52 / 65536 * 65536
def codePages (v : W64) : Nat := v.toNat % 256

/-- The kernel descriptor that stands for a walker thread: 32 registers, no scratchpad (R195). -/
def KDesc.walker (entry : Nat) : KDesc :=
  { entry := entry, codeBytes := 0, tx := 1, ty := 1, tz := 1, wregs := 32, scratch := 0, swarm := 1, scalars := 0,
    flags := 0, raw := [] }

/-- A team as it starts on a core, with its threads at the kernel's entry (R111, R217, R222, R225). -/
def Team.start (k : TeamKey) (core grid index swarmIdx depth : Nat) (d : KDesc) (scalars : List (Nat × W32)) : Team :=
  { key := k, core := core, grid := grid, index := index, swarmIdx := swarmIdx, depth := depth, desc := d,
    place := .resident, visible := scalars, pending := scalars, written := [],
    threads := (List.range d.threads).map fun i => Thread.start i d.entry, bytes := [], descs := [], poison := [],
    sectors := [], faultMask := 0, tags := [], bars := [], tbarPhase := 0, tbarIn := [], spawns := [],
    spawnCount := 0, grids := [], relaunches := 0, parkedSince := none, readySince := none,
    tiles := none, killed := none }

/-- Starts a walker thread in a free place of a core's walker slot, with the registers given (R195, R372). -/
def State.startWalker (s : State) (core slot entry : Nat) (what : WalkFor) (regs : List (Nat × W32)) : State :=
  let k := TeamKey.walker core slot
  let t := Team.start k core 0 0 0 0 (.walker entry) []
  let t := t.modThread 0 fun x => { x with regs := regs.foldl (fun r e => sset 0 r e.1 e.2) [] }
  let w : Walk :=
    { slot := slot, what := what, invals := [], started := s.cycle core, failed := false, region := codeBase s.walkCode,
      pages := codePages s.walkCode }
  let s := s.modCore core fun c => { c with walks := c.walks ++ [w] }
  ({ s with teams := s.teams ++ [t] }).mkBundle k [0] entry none false false

/-- The lowest free place of a core's walker slot. -/
def State.freeWalker (s : State) (core : Nat) : Option Nat :=
  (List.range 4).find? fun i => !(s.core core).walks.any fun w => w.slot == i

/-- What w2 tells the walker (R195). -/
def Acc.bits (a : Acc) : Nat := match a with | .read => 1 | .write => 2 | .exec => 4

/-- The bits of w2 for an access: an atomic reads and writes (R195, R276). -/
def accBits (l : List Acc) : Nat := (l.map Acc.bits).foldl (· ||| ·) 0

/-- Starts a walk for a page, joins one in flight, or leaves it to wait for a place (R195). -/
def State.startWalk (s : State) (core ctx va : Nat) (accs : List Acc) : State :=
  let asid := (s.ctx ctx).asid
  let page := pageOf va
  let same (w : Walk) : Bool := match w.what with
    | .page _ a p _ => a == asid && p == page
    | .call => false
  if (s.core core).walks.any same then s
  else match s.freeWalker core with
    | none => s
    | some slot =>
      let v := BitVec.ofNat 64 va
      let root := BitVec.ofNat 64 (s.ctx ctx).root
      s.startWalker core slot (walkEntry s.walkCfg) (.page ctx asid page false)
        [(0, v.extractLsb' 0 32), (1, v.extractLsb' 32 32), (2, BitVec.ofNat 32 (accBits accs)), (3, BitVec.ofNat 32 asid),
         (4, root.extractLsb' 0 32), (5, root.extractLsb' 32 32)]

/-- CORE and ENTRY of CORECALL (R372). -/
def callCore (v : W64) : Nat := (v.extractLsb' 52 9).toNat
def callEntry (v : W64) : Nat := (v.extractLsb' 3 49).toNat * 8
/-- The call in progress takes a free place of its core's walker slot, or goes on waiting for one as a walk does (R195,
R372). -/
def State.startCall (s : State) : State :=
  let core := callCore s.call
  if !s.callBusy || (s.core core).walks.any fun w => w.what == WalkFor.call then s
  else match s.freeWalker core with
    | none => s
    | some slot => s.startWalker core slot (callEntry s.call) .call []

/-- Ends a walker thread: a walk tells the bundles that wait for it, a call leaves ERR (R194, R216, R372). Its place is free:
endWalk gives it to a call that waits for one. -/
def State.endWalker (s : State) (core slot : Nat) (r : WalkEnd) : State :=
  let k := TeamKey.walker core slot
  match (s.core core).walks.find? fun w => w.slot == slot with
  | none => s
  | some w =>
    let s := s.modCore core fun c =>
      { c with walks := c.walks.filter fun x => x.slot != slot, bins := c.bins.filter fun b => b.key != k }
    let s := { s with teams := s.teams.filter fun t => t.key != k, bundles := s.bundles.filter fun b => b.key != k }
    let waits (ctx page : Nat) (b : Bundle) : Bool :=
      b.waits.contains page && b.key.ctx? == some ctx && s.coreOf b.key == core
    let tell (ctx page : Nat) (b : Bundle) : Bundle :=
      if waits ctx page b then
        { b with waits := b.waits.filter (· != page), notes := b.notes ++ [{ page := page, result := r }] }
      else b
    let s := match w.what with
      | .call => { s with callBusy := false, callErr := r == WalkEnd.machine }
      | .page ctx _ page marked =>
        -- a marked walk that ended well is discarded, and the access walks again (R199)
        if marked && r == WalkEnd.done then s else { s with bundles := s.bundles.map (tell ctx page) }
    s.wake

/-- A walker thread ends, and a call that waits takes its place (R195, R372). -/
def State.endWalk (s : State) (core slot : Nat) (r : WalkEnd) : State := (s.endWalker core slot r).startCall

/-! ## Translation (R193, R194, R197) -/

/-- Whether a range lies within one of the intervals. -/
def inOne (ivs : List Interval) (lo n : Nat) : Bool := ivs.any fun v => v.base ≤ lo && lo + n ≤ v.base + v.len
/-- Whether an interval meets a range without covering it. -/
def straddles (v : Interval) (lo n : Nat) : Bool :=
  v.base < lo + n && lo < v.base + v.len && !(v.base ≤ lo && lo + n ≤ v.base + v.len)

/-- Loads a thread's last-page register from a TLB entry, with its tags (R193). -/
def State.loadPage (s : State) (k : TeamKey) (e : TlbEntry) : LastPage :=
  let base : LastPage :=
    { asid := e.asid, va := e.va, size := e.size, place := e.place, r := e.r, w := e.w, x := e.x,
      derived := e.derived, rdok := true, wrok := true, edge := false }
  match s.launchOf? k with
  | none => base
  | some l =>
    if l.pure then
      let all := l.inputs ++ l.outputs
      { base with
        rdok := inOne all e.va e.size
        wrok := inOne l.outputs e.va e.size
        edge := all.any fun v => straddles v e.va e.size }
    else base

/-- How a translation answers. -/
inductive Xlat
  | page (p : LastPage)
  | fault (c : Cause)
  | miss
deriving DecidableEq, Repr

/-- Steps 1 to 3 of R194 for one thread's address: last-page register, core TLB, and what a walk of its bundle told. -/
def State.translate (s : State) (k : TeamKey) (core : Nat) (tid va : Nat) (notes : List WalkNote) : State × Xlat :=
  let asid := (s.ctx k.ctxId).asid
  let hit (x : Nat) (v size : Nat) : Bool := x == asid && v ≤ va && va < v + size
  match (s.thread? k tid).bind (·.lpr) with
  | some p =>
    if hit p.asid p.va p.size then (s, .page p) else go s hit
  | none => go s hit
where
  go (s : State) (hit : Nat → Nat → Nat → Bool) : State × Xlat :=
    match (s.core core).tlb.find? fun e => hit e.asid e.va e.size with
    | some e =>
      let p := s.loadPage k e
      let s := s.modCore core fun c => { c with tlb := e :: c.tlb.filter fun x => x != e }
      (s.modThread k tid fun x => { x with lpr := some p }, .page p)
    | none =>
      match notes.find? fun n => n.page == pageOf va with
      | none => (s, .miss)
      | some n => (s, match n.result with
        | .done => .fault .machine
        | .notPresent => .fault .pageNp
        | .protection => .fault .pageProt
        | .machine => .fault .machine)

/-- Which accesses of a pure launch pass (R61). -/
inductive Purity | read | write | never | exempt
deriving DecidableEq, Repr

/-- How steps 1 to 5 of R197 end: at a place, with a cause, or with a walk to wait for. -/
inductive Access
  | ok (p : Place) (peer : Bool)
  | fault (c : Cause)
  | miss
deriving DecidableEq, Repr

/-- Whether a leaf permits an access (step 4). -/
def LastPage.permits (p : LastPage) (a : Acc) : Bool :=
  match a with | .read => p.r | .write => p.w && !p.derived | .exec => p.x

/-- Step 5: the purity check of a pure launch through the register's tags (R61, R193). -/
def Launch.purityOk (l : Launch) (p : LastPage) (pu : Purity) (va n : Nat) : Bool :=
  !l.pure || (match pu with
    | .never => false
    | .exempt => true
    | .read => p.rdok || (p.edge && inOne (l.inputs ++ l.outputs) va n)
    | .write => p.wrok || (p.edge && inOne l.outputs va n))

/-- Steps 1 to 5 of R197 for one thread's access of n bytes; a walker thread's addresses are physical (R195). -/
def State.access (s : State) (k : TeamKey) (core tid va n : Nat) (accs : List Acc) (pu : Purity)
    (notes : List WalkNote) : State × Access :=
  if va % n != 0 then (s, .fault .align)
  else if va ≥ 2 ^ 56 then (s, .fault .pageProt)
  else if k.isWalker then
    (s, if s.answers (.here va) then .ok (.here va) false else .fault .machine)
  else
    let (s, x) := s.translate k core tid va notes
    match x with
    | .miss => (s, .miss)
    | .fault c => (s, .fault c)
    | .page p =>
      if !accs.all p.permits then (s, .fault .pageProt)
      else if !(match s.launchOf? k with | some l => l.purityOk p pu va n | none => true) then (s, .fault .purity)
      else (s, .ok (p.place.add (va - p.va)) p.place.isPeer)

/-! ## The L1 read cache and the store FIFO (R211, R263) -/

/-- Lines that the L1 read cache holds: 128 KiB of 64 bytes (R2). -/
def l1Lines : Nat := 2048

/-- Replaces or inserts a line. -/
def putLine (l1 : List (Nat × Block)) (key : Nat) (b : Block) : List (Nat × Block) :=
  (key, b) :: (l1.filter fun x => x.1 != key).take (l1Lines - 1)

/-- Bytes written into a list of bytes at an offset. -/
def patch (bs : List Byte) (off : Nat) (new : List Byte) : List Byte :=
  bs.take off ++ new ++ bs.drop (off + new.length)

/-- Performs one store: memory takes it, and so does a line of the core's L1 read cache (R263). Where nothing answers, the
store's launch fails with MACHINE (R202; log entry 36, DEDUCED). -/
def State.performEntry (s : State) (core : Nat) (e : StoreEntry) : State :=
  let key := e.place.blockKey
  let off := e.place.pa % 64
  let s := if s.answers e.place then s else s.failLaunchOf e.key .machine 0
  let s := match e.descr with
    | some d => s.writeDescr e.place d
    | none => s.writeBytes e.place e.bytes
  s.modCore core fun c => { c with l1 := c.l1.map fun x =>
    if x.1 == key then (x.1, { x.2 with bytes := patch x.2.bytes off e.bytes, descr := e.descr.getD x.2.descr }) else x }

/-- Performs the first n stores of a core's FIFO, in order. -/
def State.performFifo (s : State) (core : Nat) : Nat → State
  | 0 => s
  | n + 1 =>
    match (s.core core).fifo with
    | [] => s
    | e :: rest => State.performFifo ((s.modCore core fun c => { c with fifo := rest }).performEntry core e) core n

/-- How many entries there are up to the last one of a team. -/
def lastOf (k : TeamKey) (l : List StoreEntry) : Nat :=
  (l.zipIdx.filter fun x => x.1.key == k).foldl (fun _ x => x.2 + 1) 0

/-- The drain that atomics and fences make: every entry up to the team's last one (R263). -/
def State.drain (s : State) (k : TeamKey) : State :=
  let core := s.coreOf k
  s.performFifo core (lastOf k (s.core core).fifo)

/-- An acquire wider than team discards the core's L1 lines (R214, R263). -/
def State.acquire (s : State) (core : Nat) (sc : Scope) : State :=
  if sc == .team then s else s.modCore core fun c => { c with l1 := [] }

/-- A free choice of yes or no. -/
def State.freeBit (s : State) : State × Bool := ({ s with free := s.free + 1 }, Config.freeBool s.free)

/-- A block as a load of a core sees it, before the thread's own stores: from the L1 read cache, which may serve a
team-scope load, or from memory (R211). -/
def State.loadBlock (s : State) (core : Nat) (sc : Scope) (na : Bool) (p : Place) : State × Option Block :=
  let key := p.blockKey
  let line := (s.core core).l1.find? fun x => x.1 == key
  let fromMem (s : State) : State × Option Block :=
    match s.readBlock p with
    | none => (s, none)
    | some b =>
      if line.isSome || (sc == .team && !na) then (s.modCore core fun c => { c with l1 := putLine c.l1 key b }, some b)
      else (s, some b)
  match line with
  | some l =>
    if sc == .team then
      let (s, yes) := s.freeBit
      if yes then (s, some l.2) else fromMem s
    else fromMem s
  | none => fromMem s

/-- A block with a thread's own stores that are still in the FIFO (R263). -/
def State.ownStores (s : State) (core : Nat) (k : TeamKey) (tid : Nat) (p : Place) (b : Block) : Block :=
  ((s.core core).fifo.filter fun e => e.key == k && e.tid == tid && e.place.block == p.block).foldl (init := b) fun b e =>
    match e.descr with
    | some d => { b with descr := d }
    | none => { b with bytes := patch b.bytes (e.place.pa % 64) e.bytes }

/-- A load's block for one thread (R211, R263). -/
def State.loadFor (s : State) (core : Nat) (k : TeamKey) (tid : Nat) (sc : Scope) (na : Bool) (p : Place) :
    State × Option Block :=
  let (s, b) := s.loadBlock core sc na p
  (s, b.map fun b => s.ownStores core k tid p b)

/-- Puts a store into the core's FIFO (R263). -/
def State.pushStore (s : State) (core : Nat) (e : StoreEntry) : State :=
  s.modCore core fun c => { c with fifo := c.fifo ++ [e] }

/-! ## The race detector (R278 to R283) -/

/-- A thread of a launch as one number, for the launch's race table. -/
def threadKey (team tid : Nat) : Nat := team * 65536 + tid

/-- The interval number of a thread, of a live team or as the race table keeps it (R279). -/
def State.intervalOf (s : State) (l : Launch) (team tid : Nat) : W32 :=
  match s.thread? (.user l.ctx l.id team) tid with
  | some t => t.interval
  | none => sget 0 l.ivals (threadKey team tid)
/-- The die of a team as the race table keeps it (R279). -/
def State.raceDie (s : State) (l : Launch) (team : Nat) : Nat :=
  match s.team? (.user l.ctx l.id team) with
  | some t => dieOf t.core
  | none => sget 0 l.places team

/-- The narrowest scope whose instance holds two teams of a launch (R259, R280). -/
def State.common (s : State) (l : Launch) (a b : Nat) : Scope :=
  if a == b then .team else if s.raceDie l a == s.raceDie l b then .die else .pkg

/-- Whether an access races with the last writer of a sector (R280). -/
def State.races (s : State) (l : Launch) (team tid : Nat) (sc : Scope) (atomic : Bool) (e : Shadow) : Bool :=
  let c := s.common l team e.team
  if e.team == team && e.tid == tid then false
  else if atomic && e.atomic then false
  else if e.scope.narrower c || sc.narrower c then true
  else (s.intervalOf l e.team e.tid).setWidth 12 == e.ival

/-- The shadow entry of a sector. -/
def shadowAt (l : Launch) (sector : Nat) : Option Shadow := (l.shadow.find? fun x => x.1 == sector).map (·.2)

/-- Sets a shadow entry; the table rises by sector. -/
def setShadow (l : List (Nat × Shadow)) (k : Nat) (e : Shadow) : List (Nat × Shadow) :=
  insertBy (fun a b => a.1 ≤ b.1) (k, e) (l.filter fun x => x.1 != k)

/-- Appends an entry to a ring in a context's memory, or counts it in LOST: the ring is full, its size is out of range
or the write faults (R282, R348, R364). unit is the entry's bytes. -/
def State.ringPut (s : State) (ctx : Nat) (get : Ctx → Ring) (set : Ctx → Ring → Ctx) (unit : Nat) (bytes : List Byte) :
    State × Bool :=
  let r := get (s.ctx ctx)
  let lose := (s.modCtx ctx fun c => set c { r with lost := satAdd 0xFFFFFF r.lost 1 }, false)
  if r.log2n < 4 || r.log2n > 20 || (r.tail + 1) % 2 ^ r.log2n == r.head % 2 ^ r.log2n then lose
  else match s.sysWrite ctx (r.base + unit * (r.tail % 2 ^ r.log2n)) bytes with
    | .error _ => lose
    | .ok s => (s.modCtx ctx fun c => set c { r with tail := (r.tail + 1) % 2 ^ r.log2n }, true)

/-- The bytes of a race log record (R283). kind: 0 read, 1 write, 2 atomic, 3 copy. -/
def raceRecord (va pc ticks launch team tid kind : Nat) (sc : Scope) (e : Shadow) : List Byte :=
  bytesOfNat 8 va ++ bytesOfNat 8 pc ++ bytesOfNat 8 ticks ++ bytesOfNat 4 launch ++ bytesOfNat 4 team ++
    bytesOfNat 2 tid ++ bytesOfNat 1 kind ++ bytesOfNat 1 sc.rank ++ bytesOfNat 4 e.team ++ bytesOfNat 2 e.tid ++
    bytesOfNat 2 e.ival.toNat ++ bytesOfNat 1 (e.scope.rank + (if e.atomic then 4 else 0)) ++ List.replicate 19 0

/-- The sectors that an access of n bytes meets (R278). -/
def sectorsOf (va n : Nat) : List Nat := (List.range ((va + n - 1) / 32 - va / 32 + 1)).map (va / 32 + ·)

/-- A write that takes effect becomes the last write of its sectors (R280). ival is the interval number it counts
with. -/
def State.raceMark (s : State) (k : TeamKey) (tid va n : Nat) (sc : Scope) (atomic : Bool) (ival : W32) : State :=
  match k with
  | .walker _ _ => s
  | .user ctx lid team =>
    if s.launchHas k (·.race) then
      let e : Shadow := { team := team, tid := tid, ival := ival.setWidth 12, scope := sc, atomic := atomic }
      s.modLaunch ctx lid fun l => { l with shadow := (sectorsOf va n).foldl (fun m x => setShadow m x e) l.shadow }
    else s

/-- Step 6 of R197 for the sectors of an access. The result says whether it traps RACE. ival is the interval number
that the access counts with; writes says that it writes and will take effect. -/
def State.raceCheck (s : State) (k : TeamKey) (tid va n pc kind : Nat) (sc : Scope) (writes : Bool) (ival : W32) :
    State × Bool :=
  match k with
  | .walker _ _ => (s, false)
  | .user ctx lid team =>
    match s.launch? ctx lid with
    | none => (s, false)
    | some l =>
      if !l.race then (s, false)
      else
        let atomic := kind == 2
        let racing := (sectorsOf va n).filterMap fun x => match shadowAt l x with
          | some e => if s.races l team tid sc atomic e then some (x, e) else none
          | none => none
        if !l.raceLog && !racing.isEmpty then (s, true)
        else
          let s := racing.foldl (fun s x => (s.ringPut ctx (·.race) (fun c r => { c with race := r }) 64
            (raceRecord (Nat.max va (x.1 * 32)) pc s.ticks lid team tid kind sc x.2)).1) s
          (if writes then s.raceMark k tid va n sc atomic ival else s, false)

/-- A thread's interval number advances (R279). -/
def State.bumpInterval (s : State) (k : TeamKey) (tid : Nat) : State :=
  if s.launchHas k (·.race) then s.modThread k tid fun t => { t with interval := t.interval + 1 } else s

/-! ## Atomics (R276, R277, R293) -/

/-- The new value of an atomic's word; none where no write is made (R276). -/
def AtomOp.newValue (o : AtomOp) (old : W64) : Option W64 :=
  let wrap (x : W64) : W64 := if o.ty.is64 then x else (x.extractLsb' 0 32).setWidth 64
  if o.cas then (if wrap old == wrap o.b then some (wrap o.c) else none)
  else some (match o.op with
    | .add =>
      if o.ty == .f32 then
        BitVec.ofNat 64 (FFmt.f32.add .rn false (old.extractLsb' 0 32).toNat (o.b.extractLsb' 0 32).toNat).bits
      else wrap (old + o.b)
    | .min => wrap (if o.ty.val o.b < o.ty.val old then o.b else old)
    | .max => wrap (if o.ty.val old < o.ty.val o.b then o.b else old)
    | .and => wrap (old &&& o.b)
    | .or => wrap (old ||| o.b)
    | .xor => wrap (old ^^^ o.b)
    | .xchg => wrap o.b)

/-- The word of an atomic in a block. -/
def AtomOp.word (o : AtomOp) (b : Block) : W64 := BitVec.ofNat 64 (natOfBytes ((b.bytes.drop (o.place.pa % 64)).take o.ty.bytes))

/-- The stores performed before an atomic: those up to its team's last one, and, where it writes, every one in the FIFO,
since its write follows them there (R263). -/
def State.atomDrain (s : State) (k : TeamKey) (o : AtomOp) : State :=
  let s := s.drain k
  let core := s.coreOf k
  let writes := match s.readBlock o.place with | some b => (o.newValue (o.word b)).isSome | none => false
  if writes then s.performFifo core (s.core core).fifo.length else s

/-- A line of a core's L1 read cache takes the block that an access of the core has read in memory, so that no later load
returns an earlier write (R261). -/
def State.freshLine (s : State) (core : Nat) (p : Place) (b : Block) : State :=
  s.modCore core fun c => { c with l1 := c.l1.map fun x => if x.1 == p.blockKey then (x.1, b) else x }

/-- One atomic as an indivisible step: the FIFO drains first, the word is read and written, and an acquire discards
the L1 lines (R261, R263, R276). The old value, or the cause that stops it. -/
def State.performAtom (s : State) (k : TeamKey) (o : AtomOp) : State × Except Cause W64 :=
  let core := s.coreOf k
  let s := s.atomDrain k o
  match s.readBlock o.place with
  | none => (s, .error .machine)
  | some b =>
    match b.poison with
    | some c => (s, .error c)
    | none =>
      let old := o.word b
      let s := s.freshLine core o.place b
      let s := match o.newValue old with
        | none => s
        | some v => s.performEntry core
          { key := k, tid := 0, place := o.place, bytes := bytesOfNat o.ty.bytes v.toNat, descr := none, scope := o.scope }
      ((if o.order.acquires then s.acquire core o.scope else s), .ok old)

/-- What the race detector keeps of an atomic that has been performed: its write, and the advance of the thread's
interval number where it releases (R279, R280). -/
def State.atomDone (s : State) (k : TeamKey) (tid : Nat) (o : AtomOp) (old : W64) : State :=
  let ival := match s.thread? k tid with | some t => t.interval | none => 0
  let s := if (o.newValue old).isSome then s.raceMark k tid o.va o.ty.bytes o.scope true ival else s
  if o.order.releases then s.bumpInterval k tid else s

/-- Whether a buffered entry comes before another in a flush: thread, then sequence number; the teams of one flush are
one team (R293). -/
def atomBefore (a b : AtomEntry) : Bool := lexLt (a.key.order ++ [a.tid, a.seq]) (b.key.order ++ [b.tid, b.seq])

/-- Applies one buffered entry and lands its result (R293, R294). A word that has become poisoned since issue fails the
launch. -/
def State.applyEntry (s : State) (e : AtomEntry) : State :=
  let (s, r) := s.performAtom e.key e.op
  match r with
  | .error c => s.failLaunchOf e.key c 0
  | .ok old =>
    let s := s.atomDone e.key e.tid e.op old
    match e.pend with
    | none => s
    | some id => s.modThread e.key e.tid fun t =>
      match t.pend.find? fun p => p.id == id with
      | some p => t.landWords p (e.op.ty.words old)
      | none => t

/-- A flush of the entries of a core's buffer that satisfy p, in sorted order (R293). -/
def State.flushAtoms (s : State) (core : Nat) (p : AtomEntry → Bool) : State :=
  let due := sortBy (fun a b => !atomBefore b a) ((s.core core).atoms.filter p)
  let s := s.modCore core fun c => { c with atoms := c.atoms.filter fun e => !p e }
  due.foldl State.applyEntry s

/-- A team flush. -/
def State.flushTeam (s : State) (k : TeamKey) : State := s.flushAtoms (s.coreOf k) fun e => e.key == k
/-- A thread flush up to and including a sequence number. -/
def State.flushThread (s : State) (k : TeamKey) (tid upTo : Nat) : State :=
  s.flushAtoms (s.coreOf k) fun e => e.key == k && e.tid == tid && e.seq ≤ upTo

/-- The flush that a thread's memory access makes after its own buffered acquire (R293). -/
def State.flushAcquires (s : State) (k : TeamKey) (tid : Nat) : State :=
  let mine := (s.core (s.coreOf k)).atoms.filter fun e => e.key == k && e.tid == tid && e.op.order.acquires
  match mine.getLast? with
  | none => s
  | some e => s.flushThread k tid (mine.foldl (fun m x => Nat.max m x.seq) e.seq)

/-- The flush that a thread makes to read destinations of its own buffered atomics (R293). -/
def State.flushFor (s : State) (k : TeamKey) (tid : Nat) (slots : List Nat) : State :=
  match s.thread? k tid with
  | none => s
  | some t =>
    let ids := (t.pend.filter fun p => p.value.isNone && meets p.slots slots).map (·.id)
    let mine := (s.core (s.coreOf k)).atoms.filter fun e =>
      e.key == k && e.tid == tid && (match e.pend with | some i => ids.contains i | none => false)
    if mine.isEmpty then s else s.flushThread k tid (mine.foldl (fun m x => Nat.max m x.seq) 0)

/-- Entries that each team may hold (R293). -/
def atomQuota : Nat := 128
def State.quotaUsed (s : State) (k : TeamKey) : Nat := ((s.core (s.coreOf k)).atoms.filter fun e => e.key == k).length

/-! ## Barrier registers and team barriers (R226, R288) -/

def Team.bar (t : Team) (n : Nat) : BarReg := sget .fresh t.bars n
def Team.setBar (t : Team) (n : Nat) (b : BarReg) : Team := { t with bars := sset .fresh t.bars n b }

/-- Whether a thread's wait for its next phase is over (R228). -/
def Team.phaseSeen (t : Team) (x : Thread) (n : Nat) : Bool :=
  let d := ((t.bar n).phase - sget 0 x.wp n).toNat
  1 ≤ d && d ≤ 32767

/-- Whether a phase of bN completes at this event (R226). -/
def Team.phaseReady (t : Team) (n : Nat) : Bool :=
  let b := t.bar n
  (!b.tm || (t.threads.filter (·.live)).all fun x => x.arr.getLsbD n) && b.xexp.toNat + b.xadd.toNat ≤ b.xgot.toNat

/-- Marks a thread as arrived on bN, or takes the mark away. -/
def Thread.setArr (t : Thread) (n : Nat) (v : Bool) : Thread :=
  { t with arr := if v then t.arr ||| (1 <<< n) else t.arr &&& ~~~(1 <<< n : BitVec 16) }

/-- A completed phase (R226). -/
def Team.completePhase (t : Team) (n : Nat) : Team :=
  let b := t.bar n
  let t := t.setBar n { b with xgot := b.xgot - (b.xexp.setWidth 16 + b.xadd), xadd := 0, phase := b.phase + 1 }
  { t with threads := t.threads.map (·.setArr n false) }

/-- The threads parked in a way. -/
def State.parkedFor (s : State) (k : TeamKey) (p : Park → Bool) : List Nat :=
  match s.team? k with
  | none => []
  | some t => (t.threads.filter fun x => match x.parkedAs with | some w => p w | none => false).map (·.tid)

/-- Lets the threads go back to their word whose wait on bN is over, whose second arrival waited for the phase to
complete, or that wait to issue a copy, since a completed phase clears XADD (R228, R232). -/
def State.wakeBar (s : State) (k : TeamKey) (n : Nat) : State :=
  match s.team? k with
  | none => s
  | some t =>
    let ended (x : Thread) : Bool := match x.parkedAs with
      | some .copy => true
      | some (.barArrive m) => m == n && !x.arr.getLsbD n
      | some (.barWait m) => m == n && t.phaseSeen x n
      | _ => false
    (s.release k ((t.threads.filter ended).map (·.tid)) true false).wake

/-- An event that can complete a phase of bN: one phase completes, if it can, and waits end (R226, R228). -/
def State.barEvent (s : State) (k : TeamKey) (n : Nat) : State :=
  match s.team? k with
  | none => s
  | some t => if t.phaseReady n then (s.modTeam k (·.completePhase n)).wakeBar k n else s

/-- Every pending scalar copy written since the last barrier becomes visible (R174). -/
def Team.publish (t : Team) : Team :=
  { t with visible := t.written.foldl (fun v n => sset 0 v n (sget 0 t.pending n)) t.visible, written := [] }

/-- An event that can complete the team barrier's phase: every live thread has arrived (R288). A team with no live thread
completes none (log entry 9, DEDUCED). -/
def State.tbarEvent (s : State) (k : TeamKey) : State :=
  match s.team? k with
  | none => s
  | some t =>
    let live := t.liveTids
    if live.isEmpty || !live.all fun x => t.tbarIn.any fun a => a.1 == x then s
    else
      let s := if s.launchHas k (·.det) then s.flushTeam k else s
      let s := s.modTeam k fun t => { t.publish with tbarPhase := t.tbarPhase + 1, tbarIn := [] }
      let s := t.tbarIn.foldl (fun s a => s.acquire t.core a.2) s
      s.release k (live.filter fun x => t.tbarIn.any fun a => a.1 == x) false false

/-- Pending-launch entries of a team (R289). -/
def spawnEntries : Nat := 4

/-- The lowest free pending-launch entry takes a record, with the leader's program-order number, after the stores that the
leader made before the spawn, a release at system scope (R289). -/
def State.enterSpawn (s : State) (k : TeamKey) (bytes : List Byte) (pc : Nat) : State :=
  (s.drain k).modTeam k fun t =>
    let slot := ((List.range spawnEntries).find? fun i => !t.spawns.any fun e => e.slot == i).getD 0
    { t with spawns := t.spawns ++ [{ slot := slot, bytes := bytes, order := t.spawnCount, pc := pc }]
             spawnCount := t.spawnCount + 1 }

/-- A leader held at a spawn enters the record it has read once an entry is free and its team is on its core, and goes on
(R289). -/
def State.enterHeld (s : State) (k : TeamKey) : State :=
  match s.team? k, s.thread? k 0 with
  | some t, some x => match x.parkedAs with
    | some (.spawn bytes) =>
      if t.isResident && t.spawns.length < spawnEntries then ((s.enterSpawn k bytes x.pc).pastWord k 0 none).release k [0] false false
      else s
    | _ => s
  | _, _ => s

/-- Lets threads of a team on its core go on that were held for want of buffer entries and now need not be (R293). -/
def State.retryHeld (s : State) (k : TeamKey) : State :=
  match s.team? k with
  | none => s
  | some t =>
    if t.isResident && s.quotaUsed k < atomQuota then s.release k (s.parkedFor k fun p => p == .quota) true false else s

/-- Second arrivals whose phase completed at a later thread of the same word go back to it (R228). -/
def State.retryArrive (s : State) (k : TeamKey) : State :=
  s.release k (match s.team? k with
    | none => []
    | some t => (t.threads.filter fun x => match x.parkedAs with
      | some (.barArrive n) => !x.arr.getLsbD n
      | _ => false).map (·.tid)) true false

/-- What a team does on its own account after any event: a team barrier whose threads have all arrived, threads held at
issue, meetings whose rows are settled, and bins that are complete. -/
def State.settle (s : State) (k : TeamKey) : State := ((((s.tbarEvent k).retryHeld k).retryArrive k).releaseRows k).drawFull k

/-- A thread has ceased to be live: the event can complete phases (R226, R288). -/
def State.ceased (s : State) (k : TeamKey) : State :=
  ((List.range 16).foldl (fun s n => s.barEvent k n) s).tbarEvent k

/-- Switches a thread off for a scratchpad violation (R218). -/
def State.switchOff (s : State) (k : TeamKey) (tid : Nat) : State :=
  s.modTeam k fun t =>
    { t.modThread tid fun x => x.cease .off with faultMask := t.faultMask ||| (1 <<< tid) }

end Sys2Proof.Machine
end

