-- ==== Sys2Proof/Machine/Operands.lean ====
section
/-! DEFINITION. Operands.lean: operand forms, and the issue of one word to one bundle: the clause header's waits, the
predicate, the checks of R86, R90, R91 and R98, the register scoreboard, the checking scoreboard, the effect thread by
thread, the delayed-write window, and the end of the clause (R85 to R106, R112 to R117, R329). -/

namespace Sys2Proof.Machine

/-- What a meaning answers. -/
abbrev Result := Host.Outcome State Fault Refusal

/-! ## Operand forms (R91, R94, R162) -/

def regSlots (r : Reg) : List Nat := [r.toNat]
def pairSlots (r : Reg) : List Nat := [r.toNat, r.toNat + 1]
def predSlots (k : Reg) : List Nat := [predSlot k.toNat]
/-- A slot number that names nothing: a group that runs past the last register. -/
def noSlot : Nat := 512
/-- A group of registers. -/
def groupSlots (r : Reg) (n : Nat) : List Nat := (List.range n).map fun i => if r.toNat + i < 256 then r.toNat + i else noSlot
/-- The five coordinate registers of a copy or transfer (R230, R315). -/
def coordSlots (r : Reg) : List Nat := groupSlots r 5
/-- A register or a pair, by the width of the type. -/
def wideSlots (wide : Bool) (r : Reg) : List Nat := if wide then pairSlots r else regSlots r
/-- The value of a register or a pair, by the width of the type. -/
def Thread.wide (t : Thread) (w : Bool) (r : Reg) : W64 := if w then t.pair r.toNat else (t.reg r.toNat).setWidth 64
/-- The destination of a register or a pair. -/
def wideDest (w : Bool) (r : Reg) : Dest := if w then .pair r.toNat else .reg r.toNat
/-- A global address: the pair and the signed byte offset (R212). -/
def Thread.address (t : Thread) (a : Reg) (off : BitVec 16) : Nat := (t.pair a.toNat + off.signExtend 64).toNat
/-- A scratchpad offset (R221). -/
def Thread.offset (t : Thread) (a : Reg) (off : BitVec 16) : Nat := (t.reg a.toNat + off.signExtend 32).toNat

/-! ## What a word is to the issuing unit, and what it does to a thread -/

/-- A word as the issuing unit sees it: class none fits every clause (R127). -/
structure OpWord where
  c : Ctl
  cls : Option Nat
  reads : List Nat
  writes : List Nat
  branch : Bool := false
  regroup : Bool := false
deriving DecidableEq, Repr

/-- The slots that a word names. -/
def OpWord.slots (w : OpWord) : List Nat := w.reads ++ w.writes
/-- The slots that the word's issue reads: its sources and its guard. -/
def OpWord.guard (w : OpWord) : List Nat := if w.c.pr.toNat < 24 then [predSlot w.c.pr.toNat] else []

/-- The full effect of a word on one thread: a fixed-latency write, a pending result, a next PC, an end, a park after
the word. -/
structure Done where
  write : Option (Dest × W64 × Nat) := none
  pend : Option (Nat × Nat × Option (List W32) × PendKind) := none
  jump : Option Nat := none
  exits : Bool := false
  park : Option Park := none
deriving DecidableEq, Repr

/-- What a word does to one thread. -/
inductive Act
  /-- its effect -/
  | done (d : Done)
  /-- a precise fault or trap -/
  | trap (t : Trap)
  /-- an enabled floating-point flag (R163) -/
  | fpTrap (flags : BitVec 5)
  /-- a scratchpad violation (R218) -/
  | off
  /-- the thread parks at the word and issues it again when the park ends -/
  | again (p : Park)
  /-- a debugger's brk: the thread stops before the word, with a code (R370) -/
  | stop (code : Nat)
  /-- a walk must end before the word can issue (R194) -/
  | miss (va : Nat) (accs : List Acc)
  /-- the whole bundle waits, holding no slot (R104) -/
  | wait
deriving DecidableEq, Repr

/-- A fixed-latency result. -/
def Act.write (d : Dest) (v : W64) (lat : Nat) : Act := .done { write := some (d, v, lat) }
/-- A variable-latency result. -/
def Act.pend (reg : Nat) (ws : List W32) (kind : PendKind) : Act :=
  .done { pend := some (reg, ws.length, some ws, kind) }
/-- No effect beyond the issue cycle. -/
def Act.nothing : Act := .done {}

/-- Where a word issues: its bundle, clause, core and address, and the threads it acts on. -/
structure Site where
  b : Bundle
  cl : Clause
  key : TeamKey
  core : Nat
  pc : Nat
  on : List Thread
deriving DecidableEq, Repr

/-! ## Before the first word of a clause (R85) -/

def Clause.cls (c : Clause) : Nat := (c.head.extractLsb' 60 4).toNat
def Clause.swait (c : Clause) : BitVec 8 := c.head.extractLsb' 48 8
def Clause.bwait (c : Clause) : BitVec 16 := c.head.extractLsb' 32 16
def Clause.drains (c : Clause) : Bool := c.head.getLsbD 31
def Clause.checks (c : Clause) : Bool := c.head.getLsbD 28

/-- Whether a dependency slot is clear for a team: no operation of its swarm in it is still queued, whatever the descriptor's
MATRIX flag says (R25, R85, R248; log entry 93, DEDUCED). -/
def State.slotClear (s : State) (t : Team) (i : Nat) : Bool :=
  let p := s.pair (pairOf t.core)
  (sget [] p.slots i).all fun op => !p.queue.any fun o => o.id == op && (s.swarmOf t).any fun u => u.key == o.key

/-- The indices of the set bits of a mask. -/
def bitsOf {w : Nat} (m : BitVec w) : List Nat := (List.range w).filter fun i => m.getLsbD i

/-- Whether the header's waits are over for the threads of a bundle. -/
def State.headerReady (s : State) (t : Team) (ts : List Thread) (c : Clause) : Bool :=
  (bitsOf c.swait).all (s.slotClear t) && (ts.all fun x => (bitsOf c.bwait).all fun n => t.phaseSeen x n)
    && (!c.drains || ts.all fun x => x.pend.isEmpty)

/-- Advances a thread's wait count of bN (R228). -/
def Thread.bumpWp (x : Thread) (n : Nat) : Thread := { x with wp := sset 0 x.wp n (sget 0 x.wp n + 1) }

/-! ## Which threads, and whether the word is legal -/

/-- Whether the word acts on a thread (R90). -/
def selects (c : Ctl) (t : Thread) : Bool := c.pr.toNat ≥ 24 || (t.pred c.pr.toNat != c.pn)

/-- A breach that every thread shares: class, place in the clause, registers (R86, R91). -/
def OpWord.illegal (w : OpWord) (cl : Clause) (wregs : Nat) : Bool :=
  (match w.cls with | some n => n != cl.cls | none => false)
    || (w.branch && cl.idx + 1 != cl.words.length) || (w.regroup && cl.grouped)
    || (w.slots.any fun r => (r < 256 && wregs ≤ r) || noSlot ≤ r)

/-- Whether the checking scoreboard watches the clause (R105). -/
def State.checking (s : State) (k : TeamKey) (c : Clause) : Bool := c.checks || s.launchHas k (·.check)

/-- Whether any flag of the launch traps. -/
def State.fptrap (s : State) (k : TeamKey) : BitVec 5 :=
  match s.launchOf? k with | some l => l.fptrap | none => 0

/-- Whether a thread has a float result still to land in a launch in which a flag traps: it does not issue past it, whatever
its predicate for the next word (R163). -/
def State.fpHolds (s : State) (k : TeamKey) (t : Thread) : Bool := s.fptrap k != 0 && t.pend.any fun p => p.kind == .fp
/-- Whether a thread that a word acts on must wait for a pending result (R104, R163). -/
def State.mustWait (s : State) (k : TeamKey) (slots : List Nat) (t : Thread) : Bool := t.waitsFor slots || s.fpHolds k t

/-! ## Stopping a launch (R375) -/

/-- Stops every team of a launch: threads between clauses at once, those of a saved team among them, the others before their
next word. -/
def State.stopLaunch (s : State) (ctx id : Nat) : State :=
  let mine (k : TeamKey) : Bool := k.launch? == some (ctx, id)
  let between (b : Bundle) : Bool := mine b.key && (match b.clause with | none => true | some c => !c.begun)
  let s := s.modLaunch ctx id fun l => { l with stopped := true }
  let mark (t : Team) (x : Thread) : Thread :=
    match x.stat with
    | .running => if t.isResident then { x with stopNext := true } else { x with stat := .stopped, stopNext := false }
    | .binned _ => { x with stopNext := true }
    | .parked _ => { x with stopNext := true }
    | .stopped => x
    | .exited => x
    | .off => x
  let s := { s with teams := modWhere (fun t => mine t.key) (fun t => { t with threads := t.threads.map (mark t) }) s.teams }
  let s := (s.bundles.filter between).foldl (init := s) fun s b =>
    b.tids.foldl (fun s t => s.modThread b.key t fun x =>
      { x with stat := .stopped, stopNext := false, pc := b.pc, clause := none }) s
  { s with bundles := s.bundles.filter fun b => !between b }

/-! ## Collection of floating-point traps (R337) -/

/-- Core cycles of a collection window (R337). -/
def windowCycles : Nat := 256

/-- A floating-point trap joins its core's window; the first opens one, and after its cycles it takes no more (R337). -/
def State.collectFp (s : State) (core : Nat) (k : TeamKey) (tid pc : Nat) (flags : BitVec 5) : State :=
  let now := s.cycle core
  let mine (w : FpWindow) : Bool := w.ctx == k.ctxId && w.launch == k.launchId
  let t : FpTrap := { key := k, tid := tid, pc := pc, cycle := now, stamp := s.ticks, flags := flags }
  s.modCore core fun c =>
    match c.windows.find? mine with
    | none =>
      let w : FpWindow := { ctx := k.ctxId, launch := k.launchId, opened := now, closed := false, traps := [t] }
      { c with windows := c.windows ++ [w] }
    | some w => if w.closed || w.opened + windowCycles ≤ now then c else
        { c with windows := modWhere mine (fun w => { w with traps := w.traps ++ [t] }) c.windows }

/-! ## The effect on each thread -/

/-- A thread whose word has issued at core cycle now: its pending result and its window entry are made, the distance
advances, and its next word is set, with the cycle before which it does not issue (R100 to R104). -/
def Thread.issued (t : Thread) (d : Done) (st next now : Nat) : Thread :=
  let t := match d.pend with | some (r, n, v, k) => t.addPend r n v k | none => t
  let t := match d.write with
    | some (dst, v, lat) => { t with win := t.win ++ [WinEntry.mk dst v lat] }
    | none => t
  { (t.advance (st + 1)) with pc := d.jump.getD next, nextAt := now + st + 1, bpDone := false, brkDone := false, reissue := none }

/-- The clause that a thread parked after a word keeps: none where the clause is over and its end does nothing to the
thread. -/
def Clause.kept (c : Clause) (tid : Nat) : Option Clause := if c.atEnd && !c.holds tid then none else some c

/-- Applies what a word does to one of the threads it acts on. -/
def State.applyAct (s : State) (site : Site) (next : Clause) (st now : Nat) (tid : Nat) (a : Act) : State :=
  let k := site.key
  match a with
  | .done d =>
    let s := s.modThread k tid fun t =>
      let t := t.issued d st next.wordPc now
      if d.exits then t.cease .exited
      else match d.park with
        | some p => { t with stat := .parked p, clause := next.kept tid }
        | none => t
    if d.exits then (s.bumpInterval k tid).ceased k else s
  | .trap _ => s
  | .fpTrap f =>
    (s.collectFp site.core k tid site.pc f).modThread k tid fun t =>
      { t with stat := .parked .fpTrap, pc := site.pc, clause := some site.cl }
  | .off => (s.switchOff k tid).ceased k
  | .again p => s.modThread k tid fun t => { t with stat := .parked p, pc := site.pc, clause := some site.cl }
  | .stop _ => s.modThread k tid fun t => { t with stat := .stopped, pc := site.pc, clause := some site.cl, brkDone := true }
  | .miss _ _ => s
  | .wait => s

/-- Whether a thread stays in its bundle after the word. -/
def Act.stays (a : Act) : Bool :=
  match a with
  | .done d => !d.exits && d.park.isNone
  | .trap _ => false
  | .fpTrap _ => false
  | .off => false
  | .again _ => false
  | .stop _ => false
  | .miss _ _ => true
  | .wait => true
/-! ## The end of a clause (R84, R112, R113, R116) -/

/-- Ends the clause of a bundle: the regroup instruction takes effect, and the threads that go on continue as one
bundle for each next PC. -/
def State.endClause (s : State) (id : Nat) (c : Clause) : State :=
  match s.bundle? id with
  | none => s
  | some b =>
    let (s, rest) := s.endThreads b.key c b.tids
    let now := s.cycle (s.coreOf b.key)
    let pcOf (t : Nat) : Nat := (s.placeOf b.key t).1
    match partsBy pcOf rest with
    | [] => { s with bundles := s.bundles.filter fun x => x.id != id }
    | part :: more =>
      let s := s.modBundle id fun b =>
        { b with tids := part, pc := pcOf (part.headD 0), clause := none, stamp := now, held := false, waits := [], notes := [],
                 met := false, waited := false }
      more.foldl (fun s p => s.mkBundle b.key p (pcOf (p.headD 0)) none false false) s

/-- After its one word, a stepped sub-group stops where it is (R376). -/
def State.endSingle (s : State) (id : Nat) (c : Clause) : State :=
  match s.bundle? id with
  | none => s
  | some b =>
    let s := b.tids.foldl (fun s t => s.modThread b.key t fun x => { x with stopNext := true }) s
    if c.atEnd then s.endClause id c
    else
      let s := b.tids.foldl (fun s t => s.modThread b.key t fun x =>
        { x with stat := .stopped, stopNext := false, clause := some c }) s
      { s with bundles := s.bundles.filter fun x => x.id != id }

/-- The bundle goes on to its next word, or its clause ends. -/
def State.nextWord (s : State) (site : Site) (next : Clause) : State :=
  let s := s.modBundle site.b.id fun b =>
    { b with clause := some next, held := false, waits := [], notes := [], met := false }
  if site.b.single then s.endSingle site.b.id next
  else if next.atEnd then s.endClause site.b.id next else s

/-! ## Issue slots (R116, R117) -/

/-- The slots that a bundle may take: the four issue slots of its core, or the reserved slot of the walker threads (R2,
R195; log entry 73, DEDUCED). -/
def slotsOf (k : TeamKey) : List Nat := match k with | .user _ _ _ => [0, 1, 2, 3] | .walker _ _ => [4]
/-- A slot of a core. -/
def Core.slot (c : Core) (i : Nat) : Slot := sget .fresh c.slots i
/-- Whether a bundle is inside a clause (R117). -/
def Bundle.inside (b : Bundle) : Bool := match b.clause with | some c => c.begun && !c.atEnd | none => false
/-- Whether a slot is held by a bundle other than the one named: one inside its clause that does not wait under R104. -/
def State.slotHeld (s : State) (core me i : Nat) : Bool :=
  match ((s.core core).slot i).bundle with
  | some id => id != me && s.bundles.any fun b => b.id == id && b.inside
  | none => false
/-- The slot on which a bundle's next word may issue in this cycle: the one it holds, or the first free one. -/
def State.slotFor (s : State) (b : Bundle) (core : Nat) : Option Nat :=
  let now := s.cycle core
  let idle (i : Nat) : Bool := ((s.core core).slot i).freeAt ≤ now
  match (slotsOf b.key).find? fun i => b.inside && ((s.core core).slot i).bundle == some b.id with
  | some i => if idle i then some i else none
  | none => (slotsOf b.key).find? fun i => !s.slotHeld core b.id i && idle i
/-- A bundle that waits under R104 leaves its slot free (R117). -/
def State.leaveSlot (s : State) (id core : Nat) : State :=
  s.modCore core fun c =>
    { c with slots := [0, 1, 2, 3, 4].foldl (fun l i =>
        let x := sget .fresh l i
        if x.bundle == some id then sset .fresh l i { x with bundle := none } else l) c.slots }

/-! ## Issue -/

/-- Holds the issuing bundle until something it may wait for changes. -/
def State.hold (s : State) (id : Nat) : State := s.modBundle id fun b => { b with held := true }
/-- A bundle that waits under R104 gives up its slot; one inside its clause goes ahead of others when it is ready again
(R117). -/
def State.waitFree (s : State) (id core : Nat) : State :=
  (s.modBundle id fun b => { b with waited := b.waited || (match b.clause with | some c => c.idx != 0 | none => false) }).leaveSlot id core
/-- Holds the issuing bundle under R104. -/
def State.holdFree (s : State) (id core : Nat) : State := (s.hold id).waitFree id core

/-- Cycles without an issue after which an island is idle (R134). -/
def idleCycles : Nat := 1600
/-- Whether an island has issued nothing for so many whole cycles. -/
def Island.rested (i : Island) (now : Nat) : Bool := i.lastIssue + idleCycles < now
/-- The issue ceiling in force: a hot island's is at most 8 (R391). -/
def Island.ceiling (i : Island) : Nat := if i.hot then Nat.min i.maxq 8 else i.maxq
/-- The fraction in force, under the ceiling in force (R134, R391, R392). -/
def Island.share (i : Island) : Nat := Nat.min i.q i.ceiling
/-- The first cycle after an idle spell in which a bundle of the island is otherwise ready starts its ramp (R134). -/
def Island.wake (i : Island) (now : Nat) : Island :=
  if i.idle && i.rested now then { i with idle := false, ramp := true, c0 := now, q := Nat.min i.maxq 1 }
  else { i with idle := false }
def State.wakeIsland (s : State) (core : Nat) : State := s.modIsland (pairOf core) fun i => i.wake (s.cycle core)

/-- What one thread's issue comes to: legality, the checking scoreboard, then the effect (R99, R105). -/
def State.threadAct (s : State) (w : OpWord) (site : Site) (bad : Bool) (ill : Thread → Bool)
    (eff : State → Site → Thread → State × Act) (t : Thread) : State × Act :=
  if bad || ill t then (s, .trap (Trap.plain t.tid .ill))
  else if s.checking site.key site.cl && t.short (w.guard ++ w.slots) then (s, .trap (Trap.plain t.tid .stallShort))
  else eff s site t

/-- The effect of a word on the threads it acts on, in ascending order; each sees what the ones before it did. -/
def State.runThreads (s : State) (site : Site) (f : State → Thread → State × Act) : State × List (Nat × Act) :=
  site.on.foldl (init := (s, [])) fun acc t =>
    let t' := (acc.1.thread? site.key t.tid).getD t
    let r := f acc.1 t'
    (r.1, acc.2 ++ [(t.tid, r.2)])

/-- The walks that a word waits for. -/
def missesOf (acts : List (Nat × Act)) : List (Nat × List Acc) :=
  acts.filterMap fun x => match x.2 with | .miss va l => some (va, l) | _ => none
def trapsOf (acts : List (Nat × Act)) : List Trap :=
  acts.filterMap fun x => match x.2 with | .trap t => some t | _ => none
def stopsOf (acts : List (Nat × Act)) : List (Nat × Nat) :=
  acts.filterMap fun x => match x.2 with | .stop n => some (x.1, n) | _ => none

/-- A word issues on a slot, which its bundle holds from now on and which issues nothing more in this cycle; what is
recorded of it serves samples and shaping (R116, R117, R134, R367). -/
def State.noteIssue (s : State) (site : Site) : State :=
  let tid := (site.b.tids.foldl Nat.min (site.b.tids.headD 0))
  let now := s.cycle site.core
  let s := match s.slotFor site.b site.core with
    | none => s
    | some i => (s.leaveSlot site.b.id site.core).modCore site.core fun c =>
      { c with slots := sset .fresh c.slots i { bundle := some site.b.id, freeAt := now + 1, last := some (site.key, tid, site.pc, now) } }
  s.modIsland (pairOf site.core) fun i => { i.wake now with lastIssue := now }

/-- How a word's calls and user traps are reported, by thread; other faults make a fault group by cause and page. The
records of a walker thread do not exist: its walk ends as a machine error (R195). -/
structure Report where
  kind : GroupKind := .fault
  dest : Nat := 0
deriving DecidableEq, Repr

/-- The word has issued: every thread's effect is applied, trapping threads leave as one parked sub-group, and the
bundle goes on. -/
def State.commit (s : State) (w : OpWord) (site : Site) (regroup : Clause → Clause) (rep : Report)
    (acts : List (Nat × Act)) : State :=
  let k := site.key
  let st := w.c.st.toNat
  let now := s.cycle site.core
  let next : Clause := regroup { site.cl with idx := site.cl.idx + 1, grouped := site.cl.grouped || w.regroup }
  let s := s.noteIssue site
  let s := acts.foldl (fun s x => s.applyAct site next st now x.1 x.2) s
  let idle := site.b.tids.filter fun t => !acts.any fun x => x.1 == t
  let s := idle.foldl (fun s t => s.modThread k t fun x => x.issued {} st next.wordPc now) s
  let gone := (acts.filter fun x => !x.2.stays).map (·.1)
  let s := s.leaveBundle site.b.id gone
  let s := if site.b.single then gone.foldl (fun s t => s.modThread k t fun x =>
    if x.live && x.stat != .stopped then { x with stopNext := true } else x) s else s
  let traps := trapsOf acts
  let (calls, faults) := traps.partition fun t => t.cause == .syscall || t.cause == .trap
  let s := if faults.isEmpty || k.isWalker then s else s.takeGroup k .fault site.pc 0 (some site.cl) faults false
  let s := if calls.isEmpty || k.isWalker then s else s.takeGroup k rep.kind site.pc rep.dest (some site.cl) calls true
  let stops := stopsOf acts
  let s := if stops.isEmpty then s
    else
      let s := s.takeReport k .stop ((stops.foldl (fun (t : Trap) x => { t with tid := Nat.min t.tid x.1 })
        { Trap.plain (stops.headD (0, 0)).1 .brk with code := (stops.headD (0, 0)).2 }).record site.pc k.teamId s.ticks stops.length) (stops.map (·.1))
      s.stopLaunch k.ctxId k.launchId
  let s := s.nextWord site next
  match k with
  | .walker core slot => if traps.isEmpty then s.settle k else s.endWalk core slot .machine
  | .user _ _ _ => s.settle k

/-- What a word that waits for walks leaves of its translation: the last-page registers that its threads have loaded, and
the order of the core's TLB (R193, R194). -/
def State.keepPages (s u : State) (site : Site) : State :=
  let s := site.on.foldl (fun s t => s.modThread site.key t.tid fun x =>
    { x with lpr := match u.thread? site.key t.tid with | some y => y.lpr | none => x.lpr }) s
  s.modCore site.core fun c => { c with tlb := (u.core site.core).tlb }

/-- Starts the walks that a bundle's word or clause waits for, and holds the bundle, which notes the pages and, as under R104,
holds no slot (R118, R194, R195; log entry 115, DEDUCED). -/
def State.holdForWalks (s : State) (b : Bundle) (core : Nat) (ms : List (Nat × List Acc)) : State :=
  ((ms.foldl (fun s m => s.startWalk core b.key.ctxId m.1 m.2) s).modBundle b.id fun b =>
    { b with held := true, waits := ((b.waits ++ ms.map fun m => pageOf m.1).filter fun p => !b.notes.any fun n => n.page == p).eraseDups }).waitFree
    b.id core

/-- The issuing bundle, its clause, its team and its threads. -/
structure Issuer where
  b : Bundle
  cl : Clause
  t : Team
  ts : List Thread
deriving DecidableEq, Repr

/-- The bundle in focus, if it holds a clause with a word to issue. -/
def State.issuer? (s : State) : Option Issuer := do
  let id ← s.focus
  let b ← s.bundle? id
  let cl ← b.clause
  let t ← s.team? b.key
  if cl.atEnd then none else some { b := b, cl := cl, t := t, ts := b.tids.filterMap t.thread? }

/-- DRAIN waits for the results of buffered atomics too, so it flushes them (R85, R293, log entry 22, DEDUCED). -/
def State.drainAtoms (s : State) (i : Issuer) : State :=
  if i.cl.begun || !i.cl.drains then s
  else (i.ts.filter fun x => x.pend.any fun p => p.value.isNone).foldl (init := s) fun s x =>
    s.flushThread i.b.key x.tid x.atomSeq

/-- The first word of a clause begins it: each wait of BWAIT is counted (R85, R228). -/
def State.beginClause (s : State) (i : Issuer) : State :=
  if i.cl.begun then s
  else
    let s := i.ts.foldl (fun s x => s.modThread i.b.key x.tid fun x => (bitsOf i.cl.bwait).foldl Thread.bumpWp x) s
    s.modBundle i.b.id fun b => { b with clause := some { i.cl with begun := true } }

/-- The site of a word: the issuer's threads, as they stand, that the predicate selects. -/
def State.siteOf (s : State) (w : OpWord) (i : Issuer) : Site :=
  { b := i.b, cl := { i.cl with begun := true }, key := i.b.key, core := i.t.core, pc := i.cl.wordPc,
    on := (i.ts.map fun x => (s.thread? i.b.key x.tid).getD x).filter (selects w.c) }

/-- A word for the issuing bundle. before runs once the word is known to be legal for some thread and may answer for
it (row meetings); ill is a breach by who runs it (R98); regroup is what the word asks of the clause's end. -/
def issueWith (w : OpWord) (ill : State → Site → Thread → Bool) (regroup : Site → Clause → Clause) (rep : Report)
    (before : State → Site → Option State) (eff : State → Site → Thread → State × Act) (s : State) : Result :=
  match s.issuer? with
  | none => .fault .noIssuer
  | some i0 =>
    let s := s.drainAtoms i0
    let i := s.issuer?.getD i0
    if !i.cl.begun && !s.headerReady i.t i.ts i.cl then .next (s.hold i.b.id)
    else
      let s1 := s.beginClause i
      let site := s1.siteOf w i
      let bad := w.illegal i.cl i.t.desc.wregs
      let go : Result :=
        let sf := site.on.foldl (fun s t => s.flushFor site.key t.tid w.slots) s1
        let site := sf.siteOf w i
        if i.ts.any (sf.fpHolds site.key) || !bad && site.on.any (sf.mustWait site.key w.slots) then .next (sf.holdFree i.b.id i.t.core)
        else
          let (s2, acts) := sf.runThreads site fun s t => s.threadAct w site bad (ill s site) eff t
          if !(missesOf acts).isEmpty then .next (((sf.keepPages s2 site).wakeIsland i.t.core).holdForWalks i.b i.t.core (missesOf acts))
          else if acts.any fun x => x.2 == .wait then .next (sf.holdFree i.b.id i.t.core)
          else .next (s2.commit w site (if bad then fun c => c else regroup site) rep acts)
      if bad then go
      else match before s1 site with
        | some s' => .next s'
        | none => go

/-- A word with no special rule. -/
def issue (w : OpWord) (eff : State → Site → Thread → State × Act) (s : State) : Result :=
  issueWith w (fun _ _ _ => false) (fun _ c => c) {} (fun _ _ => none) eff s

/-- A word whose effect on a thread depends on that thread alone and writes one register or predicate with a fixed
latency (R101). -/
def issueFixed (w : OpWord) (d : Dest) (lat : Nat) (f : Thread → W64) (s : State) : Result :=
  issue w (fun s _ t => (s, .write d (f t) lat)) s

/-- A class-0 word (R96). -/
def vecWord (c : Ctl) (reads writes : List Nat) : OpWord := { c := c, cls := some 0, reads := reads, writes := writes }
/-- A class-1 word. -/
def memWord (c : Ctl) (reads writes : List Nat) : OpWord := { c := c, cls := some 1, reads := reads, writes := writes }
/-- A class-2 word. -/
def mxWord (c : Ctl) (reads : List Nat) : OpWord := { c := c, cls := some 2, reads := reads, writes := [] }
/-- A class-3 word. -/
def syncWord (c : Ctl) (reads writes : List Nat) : OpWord := { c := c, cls := some 3, reads := reads, writes := writes }
/-- A class-4 word. -/
def ctlWord (c : Ctl) (reads writes : List Nat) : OpWord := { c := c, cls := some 4, reads := reads, writes := writes }

/-- A word that no constructor stands for raises ILL in the threads that its raw predicate selects, or in every thread
where the predicate itself is the breach (R97, R99). -/
def issueIllegal (pr : BitVec 5) (pn : Bool) (st : BitVec 4) (s : State) : Result :=
  let c : Ctl := { pr := pr, pn := pn, st := st }
  let c : Ctl := if c.valid then c else { pr := 31, pn := false, st := st }
  issueWith { c := c, cls := none, reads := [], writes := [] } (fun _ _ _ => true) (fun _ c => c) {} (fun _ _ => none)
    (fun s _ _ => (s, .nothing)) s

/-- The row meeting that a lane instruction holds before it acts, whatever each thread's predicate (R130). -/
def meetRow (s : State) (site : Site) : Option State :=
  if site.b.met then none
  else
    let s := s.leaveBundle site.b.id site.b.tids
    let s := site.b.tids.foldl (fun s t => s.modThread site.key t fun x =>
      { x with stat := .parked (.meeting site.pc true), pc := site.pc, clause := some site.cl,
               stopNext := x.stopNext || site.b.single }) s
    some (s.settle site.key)

/-- A lane instruction: after its row meeting it acts once over the bundle formed there (R130). -/
def issueLane (w : OpWord) (eff : State → Site → Thread → State × Act) (s : State) : Result :=
  issueWith w (fun _ _ _ => false) (fun _ c => c) {} meetRow eff s

end Sys2Proof.Machine
end

