-- ==== Sys2Proof/Machine/Integer.lean ====
section
/-! DEFINITION. Integer.lean: the integer, shift, bit, address and move instructions, special registers and team scalars
(R165 to R175). -/

namespace Sys2Proof.Machine

/-! ## Arithmetic (R167, R168) -/

/-- A word read as its type says. -/
def ival (t : ITy) (x : W32) : Int := match t with | .s32 => x.toInt | .n32 => x.toNat
/-- Clamps to a range. -/
def clampInt (lo hi x : Int) : Int := if x < lo then lo else if hi < x then hi else x
/-- fin of R167: saturation, or the residue modulo 2^32. -/
def ifin (t : ITy) (sat : Bool) (x : Int) : W32 :=
  BitVec.ofInt 32 (if sat then (match t with
    | .s32 => clampInt (-2 ^ 31) (2 ^ 31 - 1) x
    | .n32 => clampInt 0 (2 ^ 32 - 1) x) else x)
/-- div and rem (R168): the quotient and the rest. -/
def idiv (t : ITy) (a b : W32) : W32 × W32 :=
  if b == 0 then (0xFFFFFFFF, a)
  else if t == .s32 && a == 0x80000000 && b == 0xFFFFFFFF then (0x80000000, 0)
  else
    let q := (ival t a).tdiv (ival t b)
    (BitVec.ofInt 32 q, BitVec.ofInt 32 (ival t a - q * ival t b))

/-- An instruction of two 32-bit sources. -/
def vec2 (c : Ctl) (d a b : Reg) (lat : Nat) (f : W32 → W32 → W32) (s : State) : Result :=
  issueFixed (vecWord c (regSlots a ++ regSlots b) (regSlots d)) (.reg d.toNat) lat
    (fun t => (f (t.reg a.toNat) (t.reg b.toNat)).setWidth 64) s
/-- An instruction of one 32-bit source. -/
def vec1 (c : Ctl) (d a : Reg) (lat : Nat) (f : W32 → W32) (s : State) : Result :=
  issueFixed (vecWord c (regSlots a) (regSlots d)) (.reg d.toNat) lat (fun t => (f (t.reg a.toNat)).setWidth 64) s
/-- An instruction of two 32-bit sources with a variable-latency result that one arithmetic unit brings (R164). -/
def vecVar2 (c : Ctl) (d a b : Reg) (f : W32 → W32 → W32) (s : State) : Result :=
  issue (vecWord c (regSlots a ++ regSlots b) (regSlots d)) (fun s _ t =>
    (s, .pend d.toNat [f (t.reg a.toNat) (t.reg b.toNat)] .arith)) s

/-- ADD (R167). -/
def execAdd (c : Ctl) (d a b : Reg) (t : ITy) (sat : Bool) (s : State) : Result :=
  vec2 c d a b 4 (fun x y => ifin t sat (ival t x + ival t y)) s
/-- ADD_I (R167). -/
def execAddI (c : Ctl) (d a : Reg) (imm : BitVec 26) (s : State) : Result := vec1 c d a 4 (· + imm.signExtend 32) s
/-- SUB (R167). -/
def execSub (c : Ctl) (d a b : Reg) (t : ITy) (sat : Bool) (s : State) : Result :=
  vec2 c d a b 4 (fun x y => ifin t sat (ival t x - ival t y)) s
/-- MUL (R167). -/
def execMul (c : Ctl) (d a b : Reg) (t : ITy) (sat : Bool) (s : State) : Result :=
  vec2 c d a b 6 (fun x y => ifin t sat (ival t x * ival t y)) s
/-- MUL_I (R167). -/
def execMulI (c : Ctl) (d a : Reg) (imm : BitVec 26) (s : State) : Result := vec1 c d a 6 (· * imm.signExtend 32) s
/-- MULHI: bits 63 to 32 of the exact product (R167). -/
def execMulhi (c : Ctl) (d a b : Reg) (t : ITy) (s : State) : Result :=
  vec2 c d a b 6 (fun x y => (BitVec.ofInt 64 (ival t x * ival t y)).extractLsb' 32 32) s
/-- MAD (R167). -/
def execMad (c : Ctl) (d a b e : Reg) (t : ITy) (sat : Bool) (s : State) : Result :=
  issueFixed (vecWord c (regSlots a ++ regSlots b ++ regSlots e) (regSlots d)) (.reg d.toNat) 6 (fun th =>
    (ifin t sat (ival t (th.reg a.toNat) * ival t (th.reg b.toNat) + ival t (th.reg e.toNat))).setWidth 64) s
/-- DIV (R168). -/
def execDiv (c : Ctl) (d a b : Reg) (t : ITy) (s : State) : Result := vecVar2 c d a b (fun x y => (idiv t x y).1) s
/-- REM (R168). -/
def execRem (c : Ctl) (d a b : Reg) (t : ITy) (s : State) : Result := vecVar2 c d a b (fun x y => (idiv t x y).2) s
/-- MIN (R167). -/
def execMin (c : Ctl) (d a b : Reg) (t : ITy) (s : State) : Result :=
  vec2 c d a b 4 (fun x y => if ival t y < ival t x then y else x) s
/-- MAX (R167). -/
def execMax (c : Ctl) (d a b : Reg) (t : ITy) (s : State) : Result :=
  vec2 c d a b 4 (fun x y => if ival t x < ival t y then y else x) s
/-- ABS (R167). -/
def execAbs (c : Ctl) (d a : Reg) (sat : Bool) (s : State) : Result :=
  vec1 c d a 4 (fun x => ifin .s32 sat (ival .s32 x).natAbs) s
/-- NEG (R167). -/
def execNeg (c : Ctl) (d a : Reg) (t : ITy) (sat : Bool) (s : State) : Result :=
  vec1 c d a 4 (fun x => ifin t sat (-ival t x)) s

/-! ## Logic, shifts and bits (R169) -/

/-- AND (R169). -/
def execAnd (c : Ctl) (d a b : Reg) (s : State) : Result := vec2 c d a b 4 (· &&& ·) s
/-- AND_I (R169). -/
def execAndI (c : Ctl) (d a : Reg) (imm : BitVec 26) (s : State) : Result := vec1 c d a 4 (· &&& imm.setWidth 32) s
/-- OR (R169). -/
def execOr (c : Ctl) (d a b : Reg) (s : State) : Result := vec2 c d a b 4 (· ||| ·) s
/-- OR_I (R169). -/
def execOrI (c : Ctl) (d a : Reg) (imm : BitVec 26) (s : State) : Result := vec1 c d a 4 (· ||| imm.setWidth 32) s
/-- XOR (R169). -/
def execXor (c : Ctl) (d a b : Reg) (s : State) : Result := vec2 c d a b 4 (· ^^^ ·) s
/-- XOR_I (R169). -/
def execXorI (c : Ctl) (d a : Reg) (imm : BitVec 26) (s : State) : Result := vec1 c d a 4 (· ^^^ imm.setWidth 32) s
/-- NOT (R169). -/
def execNot (c : Ctl) (d a : Reg) (s : State) : Result := vec1 c d a 4 (~~~ ·) s

/-- shl by n; 32 or more give 0 (R169). -/
def shiftL (x : W32) (n : Nat) : W32 := if n < 32 then x <<< n else 0
/-- shr by n; 32 or more give 0. -/
def shiftR (x : W32) (n : Nat) : W32 := if n < 32 then x >>> n else 0
/-- sar by n; 32 or more give copies of the sign. -/
def shiftS (x : W32) (n : Nat) : W32 := x.sshiftRight (Nat.min n 31)
/-- rot left by n modulo 32. -/
def rotL (x : W32) (n : Nat) : W32 := x.rotateLeft (n % 32)

/-- SHL (R169). -/
def execShl (c : Ctl) (d a b : Reg) (s : State) : Result := vec2 c d a b 4 (fun x n => shiftL x n.toNat) s
/-- SHL_I (R169). -/
def execShlI (c : Ctl) (d a : Reg) (imm : BitVec 26) (s : State) : Result := vec1 c d a 4 (shiftL · imm.toNat) s
/-- SHR (R169). -/
def execShr (c : Ctl) (d a b : Reg) (s : State) : Result := vec2 c d a b 4 (fun x n => shiftR x n.toNat) s
/-- SHR_I (R169). -/
def execShrI (c : Ctl) (d a : Reg) (imm : BitVec 26) (s : State) : Result := vec1 c d a 4 (shiftR · imm.toNat) s
/-- SAR (R169). -/
def execSar (c : Ctl) (d a b : Reg) (s : State) : Result := vec2 c d a b 4 (fun x n => shiftS x n.toNat) s
/-- SAR_I (R169). -/
def execSarI (c : Ctl) (d a : Reg) (imm : BitVec 26) (s : State) : Result := vec1 c d a 4 (shiftS · imm.toNat) s
/-- ROT (R169). -/
def execRot (c : Ctl) (d a b : Reg) (s : State) : Result := vec2 c d a b 4 (fun x n => rotL x n.toNat) s
/-- ROT_I (R169). -/
def execRotI (c : Ctl) (d a : Reg) (imm : BitVec 26) (s : State) : Result := vec1 c d a 4 (rotL · imm.toNat) s

/-- Zero bits above the highest one bit; 32 for 0 (R169). -/
def clz32 (x : W32) : Nat := if x == 0 then 32 else 31 - Nat.log2 x.toNat
/-- One bits. -/
def popc32 (x : W32) : Nat := ((List.range 32).filter fun i => x.getLsbD i).length
/-- The bits in reverse. -/
def brev32 (x : W32) : W32 := x.reverse

/-- CLZ (R169). -/
def execClz (c : Ctl) (d a : Reg) (s : State) : Result := vec1 c d a 4 (fun x => BitVec.ofNat 32 (clz32 x)) s
/-- POPC (R169). -/
def execPopc (c : Ctl) (d a : Reg) (s : State) : Result := vec1 c d a 4 (fun x => BitVec.ofNat 32 (popc32 x)) s
/-- BREV (R169). -/
def execBrev (c : Ctl) (d a : Reg) (s : State) : Result := vec1 c d a 4 brev32 s

/-- bfe (R169): len bits from pos, extended. -/
def bitExtract (t : ITy) (x : W32) (pos len : Nat) : W32 :=
  let y := (x <<< (32 - (pos + len)))
  match t with
  | .s32 => y.sshiftRight (32 - len)
  | .n32 => y >>> (32 - len)
/-- bfi (R169): the low len bits of x at pos of old. -/
def bitInsert (old x : W32) (pos len : Nat) : W32 :=
  let m : W32 := BitVec.ofNat 32 ((2 ^ len - 1) * 2 ^ pos)
  (old &&& ~~~m) ||| ((x <<< pos) &&& m)

/-- BFE (R169). -/
def execBfe (c : Ctl) (d a : Reg) (pos len : BitVec 8) (t : ITy) (s : State) : Result :=
  vec1 c d a 4 (bitExtract t · pos.toNat len.toNat) s
/-- BFI reads its destination as well (R169). -/
def execBfi (c : Ctl) (d a : Reg) (pos len : BitVec 8) (s : State) : Result :=
  vec2 c d d a 4 (bitInsert · · pos.toNat len.toNat) s

/-! ## Selection and comparison (R170) -/

/-- SEL (R170). -/
def execSel (c : Ctl) (d a b kc : Reg) (s : State) : Result :=
  issueFixed (vecWord c (regSlots a ++ regSlots b ++ predSlots kc) (regSlots d)) (.reg d.toNat) 4 (fun t =>
    (if t.pred kc.toNat then t.reg a.toNat else t.reg b.toNat).setWidth 64) s

/-- A register or pair read as its type says. -/
def wval (t : WTy) (x : W64) : Int :=
  match t with
  | .s32 => (x.extractLsb' 0 32).toInt
  | .n32 => (x.extractLsb' 0 32).toNat
  | .s64 => x.toInt
  | .n64 => x.toNat
/-- A relation of icmp (R165). -/
def irel (r : IRel) (a b : Int) : Bool :=
  match r with | .eq => a == b | .ne => a != b | .lt => a < b | .le => a ≤ b | .gt => b < a | .ge => b ≤ a
/-- A truth value as a predicate's result. -/
def boolBits (b : Bool) : W64 := if b then 1 else 0

/-- ICMP (R170). -/
def execIcmp (c : Ctl) (rel : IRel) (d a b : Reg) (t : WTy) (s : State) : Result :=
  issueFixed (vecWord c (wideSlots t.is64 a ++ wideSlots t.is64 b) (predSlots d)) (.pred d.toNat) 4 (fun th =>
    boolBits (irel rel (wval t (th.wide t.is64 a)) (wval t (th.wide t.is64 b)))) s

/-! ## Addresses (R171) -/

/-- LEA (R171). -/
def execLea (c : Ctl) (d a b : Reg) (sh : BitVec 8) (t : ITy) (s : State) : Result :=
  issueFixed (vecWord c (pairSlots a ++ regSlots b) (pairSlots d)) (.pair d.toNat) 6 (fun th =>
    th.pair a.toNat + (BitVec.ofInt 64 (ival t (th.reg b.toNat)) <<< sh.toNat)) s
/-- ADD64 (R171). -/
def execAdd64 (c : Ctl) (d a b : Reg) (s : State) : Result :=
  issueFixed (vecWord c (pairSlots a ++ pairSlots b) (pairSlots d)) (.pair d.toNat) 6 (fun th =>
    th.pair a.toNat + th.pair b.toNat) s
/-- ADD64_I (R171). -/
def execAdd64I (c : Ctl) (d a : Reg) (imm : BitVec 26) (s : State) : Result :=
  issueFixed (vecWord c (pairSlots a) (pairSlots d)) (.pair d.toNat) 6 (fun th => th.pair a.toNat + imm.signExtend 64) s

/-! ## Moves (R172) -/

/-- MOV (R172). -/
def execMov (c : Ctl) (d a : Reg) (t : WTy) (s : State) : Result :=
  issueFixed (vecWord c (wideSlots t.is64 a) (wideSlots t.is64 d)) (wideDest t.is64 d) 4 (fun th => th.wide t.is64 a) s

/-- The visible copy of a team scalar, or of a scalar pair (R174). -/
def Team.scalar (t : Team) (n : Nat) : W32 := sget 0 t.visible n
def Team.scalarPair (t : Team) (n : Nat) : W64 := pairOfWords (t.scalar n) (t.scalar (n + 1))
/-- A scalar of the team in the state. -/
def State.scalarOf (s : State) (k : TeamKey) (w : Bool) (n : Nat) : W64 :=
  match s.team? k with
  | some t => if w then t.scalarPair n else (t.scalar n).setWidth 64
  | none => 0

/-- MOV_S (R172). -/
def execMovS (c : Ctl) (d sa : Reg) (t : WTy) (s : State) : Result :=
  issue (vecWord c [] (wideSlots t.is64 d)) (fun s site _ =>
    (s, .write (wideDest t.is64 d) (s.scalarOf site.key t.is64 sa.toNat) 4)) s
/-- MOVI (R172). -/
def execMovi (c : Ctl) (d : Reg) (imm : BitVec 32) (s : State) : Result :=
  issueFixed (vecWord c [] (regSlots d)) (.reg d.toNat) 4 (fun _ => imm.setWidth 64) s

/-! ## Special registers and team scalars (R173, R174) -/

/-- The grid of a team. -/
def State.gridOf (s : State) (t : Team) : Option Grid := (s.launchOf? t.key).bind (·.grid? t.grid)

/-- The value of a special register for a thread (R173). In a walker-slot thread, which belongs to no launch, the extents are 1,
%lcore is as with DET = 0, and the launch's other registers read 0 (log entry 130, DESIGN CHOICE). -/
def State.special (s : State) (t : Team) (tid : Nat) (r : SReg) : Nat :=
  let g := s.gridOf t
  let ext (f : Grid → Nat) : Nat := match g with | some g => f g | none => 1
  match r with
  | .tidX => tid % t.desc.tx
  | .tidY => tid / t.desc.tx % t.desc.ty
  | .tidZ => tid / (t.desc.tx * t.desc.ty)
  | .teamX => t.index % ext (·.gx)
  | .teamY => t.index / ext (·.gx) % ext (·.gy)
  | .teamZ => t.index / (ext (·.gx) * ext (·.gy))
  | .gridX => ext (·.gx)
  | .gridY => ext (·.gy)
  | .gridZ => ext (·.gz)
  | .lane => tid % 32
  | .core => t.core
  | .lcore => match s.launchOf? t.key with
    | some l => if l.det then t.index % l.lcores else 0xFFFFFFFF
    | none => 0xFFFFFFFF
  | .die => dieOf t.core
  | .launch => t.key.launchId
  | .depth => t.depth
  | .swarm => t.swarmIdx
  | .time => s.ticks
  | .clock => s.cycle t.core

/-- Special registers that a pure launch may not read (R61). -/
def SReg.impure (r : SReg) : Bool :=
  match r with
  | .time | .clock | .launch | .core | .die => true
  | .tidX | .tidY | .tidZ | .teamX | .teamY | .teamZ | .gridX | .gridY | .gridZ | .lane | .lcore | .depth | .swarm =>
    false

/-- SREAD (R173). -/
def execSread (c : Ctl) (d : Reg) (r : SReg) (s : State) : Result :=
  issue (vecWord c [] (wideSlots r.is64 d)) (fun s site th =>
    (s, if SReg.impure r && s.launchHas site.key (·.pure) then .trap (Trap.plain th.tid .purity)
        else match s.team? site.key with
          | some t => .write (wideDest r.is64 d) (BitVec.ofNat 64 (s.special t th.tid r)) 4
          | none => .nothing)) s

/-- The pending copy of a scalar, or of a pair, is written (R174). -/
def Team.writeScalar (t : Team) (w : Bool) (n : Nat) (v : W64) : Team :=
  let ws := if w then wordsOfPair v else [v.extractLsb' 0 32]
  ws.zipIdx.foldl (init := t) fun t x =>
    { t with pending := sset 0 t.pending (n + x.2) x.1, written := (t.written.filter (· != n + x.2)) ++ [n + x.2] }

/-- SWRITE: only the team leader may issue it (R98, R174). -/
def execSwrite (c : Ctl) (sd a : Reg) (t : WTy) (s : State) : Result :=
  issueWith (vecWord c (wideSlots t.is64 a) []) (fun _ _ th => th.tid != 0) (fun _ c => c) {} (fun _ _ => none)
    (fun s site th => (s.modTeam site.key (·.writeScalar t.is64 sd.toNat (th.wide t.is64 a)), .nothing)) s

end Sys2Proof.Machine
end

