-- ==== Sys2Proof/Machine/MemInstr.lean ====
section
/-! DEFINITION. MemInstr.lean: loads, stores, prefetches, migration hints and fences on global memory (R211 to R214),
and the block descriptor of a global block (R187). -/

namespace Sys2Proof.Machine

/-! ## The checks of R197 for one thread -/

/-- Which global access a thread makes: its address and size, what it needs of the page and of the purity check, and
what it is to the race detector (R197, R280). -/
structure GAcc where
  va : Nat
  n : Nat
  accs : List Acc
  pu : Purity
  kind : Nat
  sc : Scope
deriving DecidableEq, Repr

/-- A load of n bytes. -/
def GAcc.load (va n : Nat) (sc : Scope) : GAcc := { va := va, n := n, accs := [.read], pu := .read, kind := 0, sc := sc }
/-- A store of n bytes. -/
def GAcc.store (va n : Nat) (sc : Scope) : GAcc := { va := va, n := n, accs := [.write], pu := .write, kind := 1, sc := sc }

/-- The kind of access that a fault record names (R331). -/
def GAcc.recKind (g : GAcc) : Nat := if g.kind == 0 then Acc.read.kind else Acc.write.kind

/-- How the checks before the access itself end: at a place and scope, or with what the thread does instead. -/
inductive Gate
  | go (p : Place) (sc : Scope)
  | stop (a : Act)
deriving DecidableEq, Repr

/-- Steps 1 to 5 of R197 for a thread, after the flush that its own buffered acquires ask for (R293). A page of a peer
package makes the scope system (R260). -/
def State.gate (s : State) (site : Site) (tid : Nat) (g : GAcc) : State × Gate :=
  let s := s.flushAcquires site.key tid
  let (s, r) := s.access site.key site.core tid g.va g.n g.accs g.pu site.b.notes
  match r with
  | .ok p peer => (s, .go p (g.sc.reach peer))
  | .fault c => (s, .stop (.trap (Trap.at tid c g.recKind g.va)))
  | .miss => (s, .stop (.miss g.va g.accs))

/-- The interval number of a thread. -/
def State.ivalOf (s : State) (k : TeamKey) (tid : Nat) : W32 :=
  match s.thread? k tid with | some t => t.interval | none => 0

/-- Steps 1 to 6 of R197 for a thread whose access, if it writes, takes effect. -/
def State.gateRace (s : State) (site : Site) (tid : Nat) (g : GAcc) (writes : Bool) : State × Gate :=
  let (s, r) := s.gate site tid g
  match r with
  | .stop a => (s, .stop a)
  | .go p sc =>
    let (s, bad) := s.raceCheck site.key tid g.va g.n site.pc g.kind sc writes (s.ivalOf site.key tid)
    if bad then (s, .stop (.trap (Trap.at tid .race g.recKind g.va))) else (s, .go p sc)

/-! ## Loads and stores (R212) -/

/-- The words that a load brings: little-endian, and widened below 32 bits (R212). -/
def loadWords (z : MSize) (sx : Bool) (bytes : List Byte) : List W32 :=
  match z with
  | .b8 =>
    let x := BitVec.ofNat 8 (natOfBytes bytes)
    [if sx then x.signExtend 32 else x.setWidth 32]
  | .b16 =>
    let x := BitVec.ofNat 16 (natOfBytes bytes)
    [if sx then x.signExtend 32 else x.setWidth 32]
  | .b32 => wordsOfBytes bytes
  | .b64 => wordsOfBytes bytes
  | .b128 => wordsOfBytes bytes

/-- Whether a load's answer crosses a link: it comes from another die's comb memory or from a peer package (R305; log entry
106, DEDUCED). -/
def crosses (core : Nat) (p : Place) : Bool :=
  match p with | .here pa => pa < 2 ^ 32 && pa / 2 ^ 29 != dieOf core | .peer _ _ => true

/-- Step 7 for a read: the block that answers, or the cause that stops the read. A read that delivers no data byte
passes a poison mark (R187, R209). An answer that crosses a link carries the whole block, coded, so a reserved format stops the
read (R146, R305; log entry 106, DEDUCED). -/
def State.readAt (s : State) (site : Site) (tid : Nat) (p : Place) (sc : Scope) (na data : Bool) : State × Except Cause Block :=
  let (s, b) := s.loadFor site.core site.key tid sc na p
  match b with
  | none => (s, .error .machine)
  | some b => match b.poison.filter fun _ => data with
    | some c => (s, .error c)
    | none => if crosses site.core p && fmtReserved (fmtOf b.descr) then (s, .error .format) else (s, .ok b)

/-- A load of one thread, all of R197, and the words that it brings; race says whether it is one of the accesses that the race
detector checks (R280). -/
def State.loadAct (s : State) (site : Site) (tid va : Nat) (z : MSize) (sc : Scope) (race na sx : Bool) (d : Reg) :
    State × Act :=
  let g := GAcc.load va z.bytes sc
  let (s, r) := if race then s.gateRace site tid g false else s.gate site tid g
  match r with
  | .stop a => (s, a)
  | .go p sc =>
    let (s, b) := s.readAt site tid p sc na true
    match b with
    | .error c => (s, .trap (Trap.at tid c Acc.read.kind va))
    | .ok b => (s, .pend d.toNat (loadWords z sx ((b.bytes.drop (va % 64)).take z.bytes)) .memory)

/-- LD (R212). -/
def execLd (c : Ctl) (d a : Reg) (off : BitVec 16) (sz : MSize) (sc : Scope) (na sx : Bool) (s : State) : Result :=
  issue (memWord c (pairSlots a) (groupSlots d sz.regs)) (fun s site t =>
    s.loadAct site t.tid (t.address a off) sz sc true na sx d) s

/-- ST: the store goes into the FIFO (R212, R263). -/
def execSt (c : Ctl) (d a : Reg) (off : BitVec 16) (sz : MSize) (sc : Scope) (s : State) : Result :=
  issue (memWord c (pairSlots a ++ groupSlots d sz.regs) []) (fun s site t =>
    let va := t.address a off
    let (s, r) := s.gateRace site t.tid (GAcc.store va sz.bytes sc) true
    match r with
    | .stop a => (s, a)
    | .go p sc =>
      let e : StoreEntry :=
        { key := site.key, tid := t.tid, place := p, bytes := bytesOfWords (t.group d.toNat sz.regs) sz.bytes,
          descr := none, scope := sc }
      (s.pushStore site.core e, .nothing)) s

/-- LDC: the address is a pair of visible scalars; the race detector checks no ldc (R212, R280). -/
def execLdc (c : Ctl) (d sa : Reg) (off : BitVec 16) (sz : MSize) (sx : Bool) (s : State) : Result :=
  issue (memWord c [] (groupSlots d sz.regs)) (fun s site t =>
    let base := s.scalarOf site.key true sa.toNat
    s.loadAct site t.tid (base + off.signExtend 64).toNat sz .team false false sx d) s

/-! ## Block descriptors (R187) -/

/-- blkd.rd of a global block, a load that delivers no data byte: no poison stops it (R187, R197). It and blkd.set are accesses of one byte at their address (log entry 118, DEDUCED). -/
def State.descrLoad (s : State) (site : Site) (tid va : Nat) (sc : Scope) (d : Reg) : State × Act :=
  let (s, r) := s.gateRace site tid (GAcc.load va 1 sc) false
  match r with
  | .stop a => (s, a)
  | .go p sc =>
    let (s, b) := s.readAt site tid p sc false false
    match b with
    | .error c => (s, .trap (Trap.at tid c Acc.read.kind va))
    | .ok b => (s, .pend d.toNat [b.descr.setWidth 32] .memory)

/-- blkd.set of a global block: the access is checked, then the format code, then the descriptor goes into the FIFO. -/
def State.descrStore (s : State) (site : Site) (tid va : Nat) (sc : Scope) (v : Descr) : State × Act :=
  let bad := fmtReserved (fmtOf v)
  let (s, r) := s.gateRace site tid (GAcc.store va 1 sc) (!bad)
  match r with
  | .stop a => (s, a)
  | .go p sc =>
    if bad then (s, .trap (Trap.at tid .format Acc.write.kind va))
    else
      let e : StoreEntry := { key := site.key, tid := tid, place := p, bytes := [], descr := some v, scope := sc }
      (s.pushStore site.core e, .nothing)

/-! ## Prefetches and hints (R213) -/

/-- A prefetch: a fault ends it without effect, and a walk that it starts ends before it goes on. -/
def State.prefetch (s : State) (site : Site) (tid va : Nat) (line : Bool) : State × Act :=
  let (s, r) := s.access site.key site.core tid va 1 [.read] .read site.b.notes
  match r with
  | .miss => (s, .miss va [.read])
  | .fault _ => (s, .nothing)
  | .ok p _ =>
    if !line then (s, .nothing)
    else match s.readBlock p with
      | none => (s, .nothing)
      | some b => (s.modCore site.core fun c => { c with l1 := putLine c.l1 p.blockKey b }, .nothing)

/-- PREF: the line comes into the L1 read cache (R213). -/
def execPref (c : Ctl) (a : Reg) (off : BitVec 16) (_sc : Scope) (s : State) : Result :=
  issue (memWord c (pairSlots a) []) (fun s site t => s.prefetch site t.tid (t.address a off) true) s

/-- PREF_TR: translation only (R213). -/
def execPrefTr (c : Ctl) (a : Reg) (off : BitVec 16) (_sc : Scope) (s : State) : Result :=
  issue (memWord c (pairSlots a) []) (fun s site t => s.prefetch site t.tid (t.address a off) false) s

/-- Entries of the hint ring (R201). -/
def hintSlots : Nat := 1024

/-- The ASID that a thread's accesses carry: a walk's own ASID in a walker thread (R195, R216); in a call of the hive, which has
none, tlbinv and the migration hints take ASID 0 (R213, R216; log entry 12, DEDUCED). -/
def State.asidOf (s : State) (k : TeamKey) : Nat :=
  match k with
  | .user c _ _ => (s.ctx c).asid
  | .walker core slot => match (s.core core).walks.find? fun w => w.slot == slot with
    | some w => match w.what with
      | .page _ a _ _ => a
      | .call => 0
    | none => 0

/-- Writes one migration hint, or drops and counts it where the ring is full (R201). -/
def State.putHint (s : State) (page asid die dir : Nat) : State :=
  if (s.hintTail + 1) % hintSlots == s.hintHead % hintSlots then
    { s with hintDrop := BitVec.ofNat 32 (satAdd 0xFFFFFFFF s.hintDrop.toNat 1) }
  else
    let bytes := bytesOfNat 8 (page * 65536) ++ bytesOfNat 2 asid ++ bytesOfNat 1 die ++ bytesOfNat 1 dir ++ bytesOfNat 4 0
    let s := s.writeBytes (.here (s.hintBase + 16 * s.hintTail)) bytes
    { s with hintTail := (s.hintTail + 1) % hintSlots }

/-- A migration hint word: one hint for each distinct page, at the lowest thread that names it (R213). -/
def pmig (c : Ctl) (a : Reg) (off : BitVec 16) (dir : Nat) (s : State) : Result :=
  issue (memWord c (pairSlots a) []) (fun s site t =>
    let page := pageOf (t.address a off)
    let seen := site.on.any fun u => u.tid < t.tid && pageOf (u.address a off) == page
    (if seen then s else s.putHint page (s.asidOf site.key) (dieOf site.core) dir, .nothing)) s

/-- PMIG_COMB (R213). -/
def execPmigComb (c : Ctl) (a : Reg) (off : BitVec 16) (_sc : Scope) (s : State) : Result := pmig c a off 0 s
/-- PMIG_POOL (R213). -/
def execPmigPool (c : Ctl) (a : Reg) (off : BitVec 16) (_sc : Scope) (s : State) : Result := pmig c a off 1 s

/-! ## Fences (R214) -/

/-- FENCE: the FIFO drains up to the team's last entry, and the acquire side discards the L1 lines (R214, R263). -/
def execFence (c : Ctl) (sc : Scope) (s : State) : Result :=
  issue (memWord c [] []) (fun s site t =>
    (((s.drain site.key).acquire site.core sc).bumpInterval site.key t.tid, .nothing)) s

end Sys2Proof.Machine
end

