-- ==== Sys2Proof/Machine/Atomic.lean ====
section
/-! DEFINITION. Atomic.lean: atom, cas and red (R274 to R277), and their buffer in a deterministic launch (R293, R294). -/

namespace Sys2Proof.Machine

/-- The access that an atomic makes: a read and a write, checked as a write by the purity check where it returns
nothing, and refused in a pure launch where it returns a value (R276, R277). -/
def AtomOp.acc (o : AtomOp) : GAcc :=
  { va := o.va, n := o.ty.bytes, accs := [.read, .write], pu := if o.returns then .never else .write, kind := 2, sc := o.scope }

/-- A poisoned block, or no block, stops an atomic (R209, R276). -/
def State.atomBlocked (s : State) (p : Place) : Option Cause :=
  match s.readBlock p with
  | none => some .machine
  | some b => b.poison

/-- An atomic enters its core's buffer; its result is pending until a flush applies it (R277, R293). -/
def State.bufferAtom (s : State) (site : Site) (x : Thread) (o : AtomOp) (d : Option Reg) : State × Act :=
  let s := s.modCore site.core fun c =>
    { c with atoms := c.atoms ++ [{ key := site.key, tid := x.tid, seq := x.atomSeq, op := o, pend := d.map fun _ => x.nextPend }] }
  let s := s.modThread site.key x.tid fun x => { x with atomSeq := x.atomSeq + 1 }
  (s, match d with
      | none => .nothing
      | some r => .done { pend := some (r.toNat, (o.ty.words 0).length, none, .atomic) })

/-- One thread's atomic. -/
def State.atomAct (s : State) (site : Site) (x : Thread) (o : AtomOp) (d : Option Reg) : State × Act :=
  let (s, r) := s.gate site x.tid o.acc
  match r with
  | .stop a => (s, a)
  | .go p sc =>
    let o := { o with place := p, scope := sc }
    let det := s.launchHas site.key (·.det)
    if det && s.quotaUsed site.key ≥ atomQuota then (s, .again .quota)
    else
      let (s, bad) := s.raceCheck site.key x.tid o.va o.ty.bytes site.pc 2 sc false (s.ivalOf site.key x.tid)
      if bad then (s, .trap (Trap.at x.tid .race Acc.write.kind o.va))
      else
        let s := if det then s else s.drain site.key
        match s.atomBlocked p with
        | some c => (s, .trap (Trap.at x.tid c Acc.write.kind o.va))
        | none =>
          if det then s.bufferAtom site x o d
          else
            let (s, v) := s.performAtom site.key o
            match v with
            | .error c => (s, .trap (Trap.at x.tid c Acc.write.kind o.va))
            | .ok old =>
              (s.atomDone site.key x.tid o old, match d with
                | none => .nothing
                | some r => .pend r.toNat (o.ty.words old) .atomic)

/-- The words of an atomic's operand (R274). -/
def atomWord (c : Ctl) (t : ATy) (reads : List Nat) (d : Option Reg) : OpWord :=
  memWord c reads (match d with | some d => wideSlots t.is64 d | none => [])

/-- ATOM (R276). -/
def execAtom (c : Ctl) (op : AOp) (t : ATy) (o : Order) (sc : Scope) (d a b : Reg) (s : State) : Result :=
  issue (atomWord c t (pairSlots a ++ wideSlots t.is64 b) (some d)) (fun s site x =>
    let o : AtomOp :=
      { op := op, cas := false, ty := t, order := o, scope := sc, va := (x.pair a.toNat).toNat, place := .here 0,
        b := x.wide t.is64 b, c := 0, returns := true }
    s.atomAct site x o (some d)) s

/-- CAS (R276). -/
def execCas (c : Ctl) (t : ATy) (o : Order) (sc : Scope) (d a b e : Reg) (s : State) : Result :=
  issue (atomWord c t (pairSlots a ++ wideSlots t.is64 b ++ wideSlots t.is64 e) (some d)) (fun s site x =>
    let o : AtomOp :=
      { op := .xchg, cas := true, ty := t, order := o, scope := sc, va := (x.pair a.toNat).toNat, place := .here 0,
        b := x.wide t.is64 b, c := x.wide t.is64 e, returns := true }
    s.atomAct site x o (some d)) s

/-- The operation of a red as an atomic's. -/
def RedOp.asAtom (op : RedOp) : AOp :=
  match op with | .add => .add | .min => .min | .max => .max | .and => .and | .or => .or | .xor => .xor
/-- The order of a red as an atomic's. -/
def RedOrder.asOrder (o : RedOrder) : Order := match o with | .rlx => .rlx | .rel => .rel

/-- RED (R276). -/
def execRed (c : Ctl) (op : RedOp) (t : ATy) (o : RedOrder) (sc : Scope) (a b : Reg) (s : State) : Result :=
  issue (atomWord c t (pairSlots a ++ wideSlots t.is64 b) none) (fun s site x =>
    let o : AtomOp :=
      { op := RedOp.asAtom op, cas := false, ty := t, order := RedOrder.asOrder o, scope := sc, va := (x.pair a.toNat).toNat,
        place := .here 0, b := x.wide t.is64 b, c := 0, returns := false }
    s.atomAct site x o none) s

end Sys2Proof.Machine
end

