-- ==== Sys2Proof/Machine/Barrier.lean ====
section
/-! DEFINITION. Barrier.lean: barrier registers (R225 to R229). -/

namespace Sys2Proof.Machine

/-- bN and its marks after bar.init. -/
def Team.initBar (t : Team) (n : Nat) (ext : Bool) (v : W32) : Team :=
  let t := t.setBar n { phase := 0, xexp := v.extractLsb' 0 15, tm := !ext, xadd := 0, xgot := 0 }
  { t with threads := t.threads.map fun x => { x.setArr n false with wp := sset 0 x.wp n 0 } }

/-- BAR_INIT: it completes nothing; threads parked on bN wait against the reset state, and a thread held at the issue of a
copy looks again, since XADD is 0 (R228, R232). -/
def execBarInit (c : Ctl) (n : BitVec 4) (a : Reg) (ext : Bool) (s : State) : Result :=
  issue (syncWord c (regSlots a) []) (fun s site x =>
    ((s.modTeam site.key (·.initBar n.toNat ext (x.reg a.toNat))).wakeBar site.key n.toNat, .nothing)) s

/-- BAR_ARRIVE: an extra arrival where X is set or TM is 0, else the thread's own, which a second one of a phase holds
at the word until the phase completes (R228). The 16 bits of XGOT wrap (log entry 124, DESIGN CHOICE). The arrival is a
release, so the team's stores are performed first (R229, R265). -/
def execBarArrive (c : Ctl) (n : BitVec 4) (x : Bool) (s : State) : Result :=
  issue (syncWord c [] []) (fun s site th =>
    match s.team? site.key with
    | none => (s, .nothing)
    | some t =>
      let b := t.bar n.toNat
      let s := s.drain site.key
      if x || !b.tm then
        (((s.modTeam site.key (·.setBar n.toNat { b with xgot := b.xgot + 1 })).bumpInterval site.key th.tid).barEvent
          site.key n.toNat, .nothing)
      else if th.arr.getLsbD n.toNat then (s, .again (.barArrive n.toNat))
      else
        (((s.modThread site.key th.tid (·.setArr n.toNat true)).bumpInterval site.key th.tid).barEvent site.key n.toNat,
          .nothing)) s

/-- BAR_WAIT: the thread goes on, and its count advances, once PHASE is past its count (R228). -/
def execBarWait (c : Ctl) (n : BitVec 4) (s : State) : Result :=
  issue (syncWord c [] []) (fun s site th =>
    match s.team? site.key with
    | none => (s, .nothing)
    | some t =>
      if t.phaseSeen th n.toNat then (s.modThread site.key th.tid (·.bumpWp n.toNat), .nothing)
      else (s, .again (.barWait n.toNat))) s

end Sys2Proof.Machine
end

