-- ==== Sys2Proof/Machine/Approx.lean ====
section
/-! DEFINITION. Approx.lean: the six approximate functions (R157, R158). Each is the exact function of its input,
rounded once under rn to p bits: an algebraic function from an exact quotient or root with its sticky part, a
transcendental one from a series in fixed point with 320 fraction bits, whose value is never exact outside the cases
the spec names (log entry 5, DEDUCED, says why 320 bits decide every rounding). -/

namespace Sys2Proof.Machine

/-- Fraction bits of the fixed-point series. -/
def fixBits : Nat := 320

/-- One in fixed point. -/
def fixOne : Nat := 2 ^ fixBits

/-- Pi in fixed point, rounded down. -/
def fixPi : Nat :=
  6710401180212168915155840974220003240804194089427148950727106424351713218671805380099500388914039

/-- The natural logarithm of 2 in fixed point, rounded down. -/
def fixLn2 : Nat :=
  1480553391661173448385607439722553250922680800745876974795605978609098082859138712941075737848984

/-- A product in fixed point. -/
def fixMul (a b : Nat) : Nat := a * b / fixOne

/-- The terms y^k / k! from term k on. -/
def expTerms (y : Nat) : Nat → Nat → Nat → Nat
  | 0, _, _ => 0
  | fuel + 1, k, term => term + expTerms y fuel (k + 1) (fixMul term y / (k + 1))

/-- e^y for y in fixed point, 0 at least and below 1. -/
def fixExp (y : Nat) : Nat := expTerms y 90 0 fixOne

/-- The terms of the sine from the term of y^k / k! on, every other one taken away. -/
def sinTerms (y2 : Nat) : Nat → Nat → Nat → Int
  | 0, _, _ => 0
  | fuel + 1, k, term => (term : Int) - sinTerms y2 fuel (k + 2) (fixMul term y2 / ((k + 1) * (k + 2)))

/-- sin(pi r) for r in fixed point from 0 to one half. -/
def fixSinPi (r : Nat) : Nat :=
  let y := fixMul fixPi r
  (sinTerms (fixMul y y) 60 1 y).toNat

/-- The terms z^k / k of the inverse hyperbolic tangent from k on. -/
def atanhTerms (z2 : Nat) : Nat → Nat → Nat → Nat
  | 0, _, _ => 0
  | fuel + 1, k, zk => zk / k + atanhTerms z2 fuel (k + 2) (fixMul zk z2)

/-- The logarithm to base 2 of f in fixed point, f from 1 to 2. -/
def fixLog2 (f : Nat) : Nat :=
  let z := (f - fixOne) * fixOne / (f + fixOne)
  let ln := 2 * atanhTerms (fixMul z z) 120 1 z
  ln * fixOne / fixLn2

/-- A fixed-point magnitude that stands for an irrational one. -/
def fixExact (neg : Bool) (v : Nat) : Exact := { neg := neg, m := v, e := -(fixBits : Int), sticky := true }

/-- Rounding to set V_p (R157), with the IEEE overflow of rn. -/
def roundVp (p : Nat) (ftz : Bool) (x : Exact) : FRes := FFmt.f32.roundIeee p .rn ftz x

/-- A result with FP_DIVZ. -/
def divzRes (b : Nat) : FRes := { bits := b, fl := { divz := true } }

/-- frcp, p = 12. -/
def approxRcp (ftz : Bool) (a : Nat) : FRes :=
  match FFmt.f32.operand ftz a with
  | .nan s => FFmt.f32.nanRes s
  | .inf n => .ofBits (FFmt.f32.zero n)
  | .fin n m e =>
    if m == 0 then divzRes (FFmt.f32.inf n)
    else roundVp 12 ftz { neg := n, m := 2 ^ 96 / m, e := -96 - e, sticky := 2 ^ 96 % m != 0 }

/-- frsq, p = 12. -/
def approxRsq (ftz : Bool) (a : Nat) : FRes :=
  match FFmt.f32.operand ftz a with
  | .nan s => FFmt.f32.nanRes s
  | .inf n => if n then FFmt.f32.nanRes true else .ofBits (FFmt.f32.zero false)
  | .fin n m e =>
    if m == 0 then divzRes (FFmt.f32.inf n)
    else if n then FFmt.f32.nanRes true
    else
      let m := if e % 2 == 0 then m else 2 * m
      let e := if e % 2 == 0 then e else e - 1
      let r := isqrt (2 ^ 192 / m)
      roundVp 12 ftz { neg := false, m := r, e := -96 - e / 2, sticky := r * r * m != 2 ^ 192 }

/-- Whether m times 2^e is an integer. -/
def isIntegral (m : Nat) (e : Int) : Bool := 0 <= e || m % 2 ^ (-e).toNat == 0

/-- The integer part of m times 2^e. -/
def intPart (m : Nat) (e : Int) : Nat := if 0 <= e then m * 2 ^ e.toNat else m / 2 ^ (-e).toNat

/-- fexp2, p = 16. From 128 on the result is infinite, and below -200 it lies far below the denormals. -/
def approxExp2 (ftz : Bool) (a : Nat) : FRes :=
  match FFmt.f32.operand ftz a with
  | .nan s => FFmt.f32.nanRes s
  | .inf n => .ofBits (if n then FFmt.f32.zero false else FFmt.f32.inf false)
  | .fin n m e =>
    if m == 0 then roundVp 16 ftz { neg := false, m := 1, e := 0 }
    else if topExp m e >= 8 then
      if n then roundVp 16 ftz { neg := false, m := 1, e := -256, sticky := true }
      else { bits := FFmt.f32.inf false, fl := { ovf := true, inx := true } }
    else
      let k := intPart m e
      if isIntegral m e then roundVp 16 ftz { neg := false, m := 1, e := if n then -(k : Int) else k }
      else
        let frac := m * 2 ^ (e + fixBits).toNat % fixOne
        let f := if n then fixOne - frac else frac
        let b : Int := if n then -(k : Int) - 1 else k
        roundVp 16 ftz
          { neg := false, m := fixExp (fixMul fixLn2 f), e := b - fixBits, sticky := true }

/-- flog2, p = 16. The logarithm of a power of two is exact. -/
def approxLog2 (ftz : Bool) (a : Nat) : FRes :=
  match FFmt.f32.operand ftz a with
  | .nan s => FFmt.f32.nanRes s
  | .inf n => if n then FFmt.f32.nanRes true else .ofBits (FFmt.f32.inf false)
  | .fin n m e =>
    if m == 0 then divzRes (FFmt.f32.inf true)
    else if n then FFmt.f32.nanRes true
    else
      let t := topExp m e
      if m == 2 ^ Nat.log2 m then roundVp 16 ftz { neg := t < 0, m := t.natAbs, e := 0 }
      else
        let f := m * 2 ^ (fixBits - Nat.log2 m)
        let v : Int := t * fixOne + fixLog2 f
        roundVp 16 ftz (fixExact (v < 0) v.natAbs)

/-- The remainder of a magnitude modulo 2, in fixed point. -/
def modTwo (m : Nat) (e : Int) : Nat := m * 2 ^ (e + fixBits).toNat % (2 * fixOne)

/-- fsinp, p = 16: an integer gives zero of its sign, one half off an integer is exact. -/
def approxSinPi (ftz : Bool) (a : Nat) : FRes :=
  match FFmt.f32.operand ftz a with
  | .nan s => FFmt.f32.nanRes s
  | .inf _ => FFmt.f32.nanRes true
  | .fin n m e =>
    if isIntegral m e then .ofBits (FFmt.f32.zero n)
    else
      let r := modTwo m e
      let neg := if r < fixOne then n else !n
      let r := if r < fixOne then r else r - fixOne
      if 2 * r == fixOne then roundVp 16 ftz { neg := neg, m := 1, e := 0 }
      else roundVp 16 ftz (fixExact neg (fixSinPi (if 2 * r < fixOne then r else fixOne - r)))

/-- fcosp, p = 16: an integer plus one half gives +0, an integer is exact. -/
def approxCosPi (ftz : Bool) (a : Nat) : FRes :=
  match FFmt.f32.operand ftz a with
  | .nan s => FFmt.f32.nanRes s
  | .inf _ => FFmt.f32.nanRes true
  | .fin _ m e =>
    if isIntegral m e then
      roundVp 16 ftz { neg := intPart m e % 2 == 1, m := 1, e := 0 }
    else if isIntegral m (e + 1) then .ofBits (FFmt.f32.zero false)
    else
      let r := modTwo m e
      let r := if r <= fixOne then r else 2 * fixOne - r
      let neg := 2 * r > fixOne
      let r := if 2 * r <= fixOne then r else fixOne - r
      roundVp 16 ftz (fixExact neg (fixSinPi (fixOne / 2 - r)))

end Sys2Proof.Machine
end

