-- ==== Sys2Proof/Machine/FloatInstr.lean ====
section
/-! DEFINITION. FloatInstr.lean: the float instructions, the packed forms, the approximations, dot4 and dotts (R176 to
R182). -/

namespace Sys2Proof.Machine

/-! ## Results with flags (R156, R163) -/

/-- A result of a fixed-latency instruction with its flags: an enabled flag traps and nothing is written (R163). -/
def State.fpAct (s : State) (k : TeamKey) (fl : FpFlags) (a : Act) : Act :=
  let hit := fl.bits &&& s.fptrap k
  if hit != 0 then .fpTrap hit else a

/-- A float instruction of fixed latency: what it computes from the thread's registers, with its flags. -/
def floatFixed (c : Ctl) (reads : List Nat) (d : Reg) (lat : Nat) (f : Thread → Nat × FpFlags) (s : State) : Result :=
  issue (vecWord c reads (regSlots d)) (fun s site t =>
    let r := f t
    (s, s.fpAct site.key r.2 (.write (.reg d.toNat) (BitVec.ofNat 64 r.1) lat))) s

/-- A float instruction whose result lands when its unit returns it (R164). -/
def floatVar (c : Ctl) (d a : Reg) (f : Nat → FRes) (s : State) : Result :=
  issue (vecWord c (regSlots a) (regSlots d)) (fun s site t =>
    let r := f (t.reg a.toNat).toNat
    (s, s.fpAct site.key r.fl (.pend d.toNat [BitVec.ofNat 32 r.bits] .fp))) s

/-- The bits of a register that a float type reads (R162). -/
def Thread.flt (t : Thread) (F : FFmt) (r : Reg) : Nat := (t.reg r.toNat).toNat % 2 ^ F.width

/-- Two sources of a float type. -/
def float2 (c : Ctl) (d a b : Reg) (t : FTy) (f : FFmt → Nat → Nat → FRes) (s : State) : Result :=
  let F := fmtOfFTy t
  floatFixed c (regSlots a ++ regSlots b) d 6 (fun th => let r := f F (th.flt F a) (th.flt F b); (r.bits, r.fl)) s

/-- FADD (R177). -/
def execFadd (c : Ctl) (d a b : Reg) (t : FTy) (rnd : Rnd) (ftz : Bool) (s : State) : Result :=
  float2 c d a b t (fun F x y => F.add rnd ftz x y) s
/-- FSUB (R177). -/
def execFsub (c : Ctl) (d a b : Reg) (t : FTy) (rnd : Rnd) (ftz : Bool) (s : State) : Result :=
  float2 c d a b t (fun F x y => F.sub rnd ftz x y) s
/-- FMUL (R177). -/
def execFmul (c : Ctl) (d a b : Reg) (t : FTy) (rnd : Rnd) (ftz : Bool) (s : State) : Result :=
  float2 c d a b t (fun F x y => F.mul rnd ftz x y) s
/-- FMA: rounded once (R177). -/
def execFma (c : Ctl) (d a b e : Reg) (t : FTy) (rnd : Rnd) (ftz : Bool) (s : State) : Result :=
  let F := fmtOfFTy t
  floatFixed c (regSlots a ++ regSlots b ++ regSlots e) d 6 (fun th =>
    let r := F.fma rnd ftz (th.flt F a) (th.flt F b) (th.flt F e)
    (r.bits, r.fl)) s
/-- FMIN (R178). -/
def execFmin (c : Ctl) (d a b : Reg) (t : FTy) (ftz : Bool) (s : State) : Result :=
  float2 c d a b t (fun F x y => F.minMax false ftz x y) s
/-- FMAX (R178). -/
def execFmax (c : Ctl) (d a b : Reg) (t : FTy) (ftz : Bool) (s : State) : Result :=
  float2 c d a b t (fun F x y => F.minMax true ftz x y) s
/-- FCMP (R179). -/
def execFcmp (c : Ctl) (rel : FRel) (d a b : Reg) (t : FTy) (ftz : Bool) (s : State) : Result :=
  let F := fmtOfFTy t
  issue (vecWord c (regSlots a ++ regSlots b) (predSlots d)) (fun s site th =>
    let r := F.cmp rel ftz (th.flt F a) (th.flt F b)
    (s, s.fpAct site.key r.2 (.write (.pred d.toNat) (if r.1 then 1 else 0) 6))) s
/-- FCLASS (R179). -/
def execFclass (c : Ctl) (d a : Reg) (t : FTy) (s : State) : Result :=
  let F := fmtOfFTy t
  floatFixed c (regSlots a) d 6 (fun th => (2 ^ F.classBit (th.flt F a), {})) s
/-- FRND (R180). -/
def execFrnd (c : Ctl) (d a : Reg) (t : FTy) (rnd : Rnd) (s : State) : Result :=
  let F := fmtOfFTy t
  floatFixed c (regSlots a) d 6 (fun th => let r := F.rnd rnd (th.flt F a); (r.bits, r.fl)) s
/-- FSQRT (R177). -/
def execFsqrt (c : Ctl) (d a : Reg) (t : FTy) (rnd : Rnd) (ftz : Bool) (s : State) : Result :=
  let F := fmtOfFTy t
  floatVar c d a (fun x => F.sqrt rnd ftz (x % 2 ^ F.width)) s
/-- FRCP (R157, R180). -/
def execFrcp (c : Ctl) (d a : Reg) (ftz : Bool) (s : State) : Result := floatVar c d a (approxRcp ftz) s
/-- FRSQ (R157, R180). -/
def execFrsq (c : Ctl) (d a : Reg) (ftz : Bool) (s : State) : Result := floatVar c d a (approxRsq ftz) s
/-- FEXP2 (R157, R180). -/
def execFexp2 (c : Ctl) (d a : Reg) (ftz : Bool) (s : State) : Result := floatVar c d a (approxExp2 ftz) s
/-- FLOG2 (R157, R180). -/
def execFlog2 (c : Ctl) (d a : Reg) (ftz : Bool) (s : State) : Result := floatVar c d a (approxLog2 ftz) s
/-- FSINP (R157, R180). -/
def execFsinp (c : Ctl) (d a : Reg) (ftz : Bool) (s : State) : Result := floatVar c d a (approxSinPi ftz) s
/-- FCOSP (R157, R180). -/
def execFcosp (c : Ctl) (d a : Reg) (ftz : Bool) (s : State) : Result := floatVar c d a (approxCosPi ftz) s

/-! ## Packed halves (R177) -/

/-- Element 0 or 1 of a packed register. -/
def halfOf (x : W32) (i : Nat) : Nat := x.toNat / 65536 ^ i % 65536
/-- Two results as one register, with the union of their flags. -/
def pairHalves (lo hi : FRes) : Nat × FpFlags := (lo.bits + 65536 * hi.bits, lo.fl.or hi.fl)

/-- HADD2 (R177). -/
def execHadd2 (c : Ctl) (d a b : Reg) (t : PTy) (rnd : Rnd) (ftz : Bool) (s : State) : Result :=
  let F := fmtOfPTy t
  floatFixed c (regSlots a ++ regSlots b) d 6 (fun th =>
    let f (i : Nat) := F.add rnd ftz (halfOf (th.reg a.toNat) i) (halfOf (th.reg b.toNat) i)
    pairHalves (f 0) (f 1)) s
/-- HMUL2 (R177). -/
def execHmul2 (c : Ctl) (d a b : Reg) (t : PTy) (rnd : Rnd) (ftz : Bool) (s : State) : Result :=
  let F := fmtOfPTy t
  floatFixed c (regSlots a ++ regSlots b) d 6 (fun th =>
    let f (i : Nat) := F.mul rnd ftz (halfOf (th.reg a.toNat) i) (halfOf (th.reg b.toNat) i)
    pairHalves (f 0) (f 1)) s
/-- HFMA2 (R177). -/
def execHfma2 (c : Ctl) (d a b e : Reg) (t : PTy) (rnd : Rnd) (ftz : Bool) (s : State) : Result :=
  let F := fmtOfPTy t
  floatFixed c (regSlots a ++ regSlots b ++ regSlots e) d 6 (fun th =>
    let f (i : Nat) := F.fma rnd ftz (halfOf (th.reg a.toNat) i) (halfOf (th.reg b.toNat) i) (halfOf (th.reg e.toNat) i)
    pairHalves (f 0) (f 1)) s

/-! ## Dot products (R181, R182) -/

/-- Byte k of a register. -/
def byteAt (x : W32) (k : Nat) : Nat := x.toNat / 256 ^ k % 256
/-- A byte read as s8 or n8. -/
def byteVal (signed : Bool) (b : Nat) : Int := if signed && 128 ≤ b then (b : Int) - 256 else b

/-- DOT4 (R181). -/
def execDot4 (c : Ctl) (d a b e : Reg) (asg bsg sat : Bool) (s : State) : Result :=
  issueFixed (vecWord c (regSlots a ++ regSlots b ++ regSlots e) (regSlots d)) (.reg d.toNat) 8 (fun th =>
    let p (k : Nat) := byteVal asg (byteAt (th.reg a.toNat) k) * byteVal bsg (byteAt (th.reg b.toNat) k)
    (BitVec.ofInt 32 (sumS32 sat (th.reg e.toNat).toInt [p 0, p 1, p 2, p 3])).setWidth 64) s

/-- The product of two exact values rounded to f32 (R151). -/
def productF32 (ftz : Bool) (x y : FVal) : FRes :=
  let p := mulVal x y
  FFmt.f32.ofVal .rn ftz p.1 (p.2 || x.signalling || y.signalling)

/-- DOTTS (R182). -/
def execDotts (c : Ctl) (d a b e : Reg) (ftz : Bool) (s : State) : Result :=
  floatFixed c (regSlots a ++ pairSlots b ++ regSlots e) d 8 (fun th =>
    let y (k : Nat) := FFmt.bf16.operand ftz (halfOf (th.reg (b.toNat + k / 2)) (k % 2))
    let ps := (List.range 4).map fun k => productF32 ftz (ts8Read (byteAt (th.reg a.toNat) k)) (y k)
    let r := sumF32 ftz (th.reg e.toNat).toNat (ps.map (·.bits))
    (r.bits, ps.foldl (fun f p => f.or p.fl) r.fl)) s

end Sys2Proof.Machine
end

