-- ==== Sys2Proof/Machine/Walker.lean ====
section
/-! DEFINITION. Walker.lean: the walker's instructions and the invalidation of translations (R198, R199, R215, R216). -/

namespace Sys2Proof.Machine

/-! ## Invalidation (R199) -/

/-- Whether an invalidation matches a translation of size bytes at va; a larger page goes with any 64 KiB page it
contains (R198). -/
def Inval.hits (i : Inval) (asid va size : Nat) : Bool :=
  match i with
  | .page a vpn => a == asid && va ≤ vpn * 65536 && vpn * 65536 < va + size
  | .asid a => a == asid
  | .all => true

/-- Whether an invalidation matches a walk in flight. -/
def Inval.marks (i : Inval) (w : WalkFor) : Bool :=
  match w with
  | .page _ x vpn _ => i.hits x (vpn * 65536) 65536
  | .call => false

/-- A walk with its mark. -/
def Walk.mark (w : Walk) : Walk :=
  match w.what with
  | .page c a p _ => { w with what := .page c a p true }
  | .call => w
/-- Whether a TLB entry holds the page that a walk is for. -/
def TlbEntry.serves (e : TlbEntry) (w : WalkFor) : Bool :=
  match w with
  | .page _ x vpn _ => e.asid == x && e.va ≤ vpn * 65536 && vpn * 65536 < e.va + e.size
  | .call => false
/-- A walk that an invalidation meets: it is marked if it is for a matching page, which it is too where the invalidation
removes an entry of a larger page that holds the walk's, as the walk may have filled it; and it remembers the invalidation,
since it may still fill such an entry (R198, R199). -/
def Walk.meet (w : Walk) (i : Inval) (removed : List TlbEntry) : Walk :=
  let w := { w with invals := w.invals ++ [i] }
  if i.marks w.what || removed.any (·.serves w.what) then w.mark else w

/-- Whether a finished walk's note may speak of a translation that an invalidation removes, in a page of any size. -/
def Inval.forgets (i : Inval) (asid page : Nat) : Bool := i.hits asid (page / 2 ^ 20 * 2 ^ 36) (2 ^ 36)

/-- The three things that an invalidation does on one core; and what walks have told bundles of the core about matching pages
is told anew (R199). -/
def State.invalidate (s : State) (core : Nat) (i : Inval) : State :=
  let s := s.modCore core fun c =>
    { c with tlb := c.tlb.filter fun e => !i.hits e.asid e.va e.size
             walks := c.walks.map fun w => w.meet i (c.tlb.filter fun e => i.hits e.asid e.va e.size) }
  let empty (x : Thread) : Thread :=
    match x.lpr with
    | some p => if i.hits p.asid p.va p.size then { x with lpr := none } else x
    | none => x
  let forget (b : Bundle) : Bundle :=
    if s.coreOf b.key == core then { b with notes := b.notes.filter fun n => !i.forgets (s.ctx b.key.ctxId).asid n.page } else b
  { s with teams := modWhere (fun t => t.isResident && t.core == core) (fun t => { t with threads := t.threads.map empty }) s.teams
           bundles := s.bundles.map forget }

/-! ## TLBINV (R215, R216) -/

/-- A tlbinv word. -/
def tlbinv (c : Ctl) (reads : List Nat) (ill : Site → Bool) (f : Nat → Thread → Inval) (s : State) : Result :=
  issueWith (memWord c reads []) (fun _ site _ => ill site) (fun _ c => c) {} (fun _ _ => none)
    (fun s site t => (s.invalidate site.core (f (s.asidOf site.key) t), .nothing)) s

/-- TLBINV_PG: VA[55:16] of the pair names the page, as it does in TLBSHOOT. -/
def execTlbinvPg (c : Ctl) (a : Reg) (s : State) : Result :=
  tlbinv c (pairSlots a) (fun _ => false) (fun asid t => .page asid ((t.pair a.toNat).toNat / 65536 % 2 ^ 40)) s
/-- TLBINV_ASID. -/
def execTlbinvAsid (c : Ctl) (s : State) : Result := tlbinv c [] (fun _ => false) (fun asid _ => .asid asid) s
/-- TLBINV_ALL: ILL outside the walker slot. -/
def execTlbinvAll (c : Ctl) (s : State) : Result := tlbinv c [] (fun site => !site.key.isWalker) (fun _ _ => .all) s

/-! ## TLBFILL and WRET (R216) -/

/-- Entries of a core's TLB (R194). -/
def tlbEntries : Nat := 256

/-- Puts an entry into a TLB: in place of one with the same ASID and page, or of the least recently used. -/
def tlbPut (l : List TlbEntry) (e : TlbEntry) : List TlbEntry :=
  e :: (l.filter fun x => !(x.asid == e.asid && x.va == e.va && x.size == e.size)).take (tlbEntries - 1)

/-- What a tlbfill comes to. -/
inductive Fill
  | nothing
  | protection
  | entry (e : TlbEntry)
deriving DecidableEq, Repr

/-- The decision of R216 from the two pairs. -/
def State.fillOf (s : State) (asid : Nat) (a b : W64) : Fill :=
  let size := a.toNat % 4
  let e := b.toNat
  if size == 3 || !bitAt e 0 then .nothing
  else
    let pa := e / 65536 % 2 ^ 36 * 65536
    if !bitAt e 7 && (pa % pageBytes size != 0 || !s.populated pa) then .protection
    else
      let l := leafOf e (a.toNat % 2 ^ 56) size
      .entry { asid := asid, va := l.va, size := l.size, place := l.place, r := l.r, w := l.w, x := l.x, derived := l.derived }

/-- Whether a walk is one that an invalidation has marked. -/
def WalkFor.isMarked (w : WalkFor) : Bool := match w with | .page _ _ _ m => m | .call => false

/-- A walk whose fill an invalidation has met is marked: what it fills is discarded (R199). -/
def State.markWalk (s : State) (core slot : Nat) : State :=
  s.modCore core fun c => { c with walks := modWhere (fun w => w.slot == slot) Walk.mark c.walks }

/-- A word that has ended its walker thread leaves the place to a call that waits for one (R195, R372). -/
def State.thenCall (s : State) (r : Result) : Result :=
  match s.issuer?, r with
  | some i, .next t => .next (if (t.team? i.b.key).isNone then t.startCall else t)
  | _, r => r

/-- TLBFILL: the fill of a walk that an invalidation has marked is discarded, and so is one of a larger page that holds a page
invalidated during the walk (R198, R199); a call has no ASID to fill for
(log entry 12, DEDUCED). -/
def execTlbfill (c : Ctl) (a b : Reg) (s : State) : Result :=
  s.thenCall <| issueWith (memWord c (pairSlots a ++ pairSlots b) []) (fun _ site _ => !site.key.isWalker) (fun _ c => c) {}
    (fun _ _ => none) (fun s site t =>
      match site.key with
      | .user _ _ _ => (s, .nothing)
      | .walker core slot =>
        match (s.core core).walks.find? fun w => w.slot == slot with
        | none => (s, .nothing)
        | some w => match w.what with
          | .call => (s, .nothing)
          | .page _ asid _ marked =>
            match s.fillOf asid (t.pair a.toNat) (t.pair b.toNat) with
            | .nothing => (s, .nothing)
            | .protection => (s.endWalker core slot .protection, .nothing)
            | .entry e =>
              (if marked || w.invals.any fun i => i.hits e.asid e.va e.size then s.markWalk core slot
               else s.modCore core fun c => { c with tlb := tlbPut c.tlb e }, .nothing)) s

/-- The outcome of a walk that a status names (R216). -/
def walkOutcome (v : W32) : WalkEnd :=
  if v == 0 then .done else if v == 1 then .notPresent else if v == 2 then .protection else .machine

/-- WRET: the walker thread ends; the value is ignored in a call (R216, R372). -/
def execWret (c : Ctl) (a : Reg) (s : State) : Result :=
  s.thenCall <| issueWith (memWord c (regSlots a) []) (fun _ site _ => !site.key.isWalker) (fun _ c => c) {} (fun _ _ => none)
    (fun s site t =>
      match site.key with
      | .user _ _ _ => (s, .nothing)
      | .walker core slot =>
        let call := (s.core core).walks.any fun w => w.slot == slot && w.what == WalkFor.call
        (s.endWalker core slot (if call then .done else walkOutcome (t.reg a.toNat)), .nothing)) s

end Sys2Proof.Machine
end

