-- ==== Sys2Proof/Machine/Scratch.lean ====
section
/-! DEFINITION. Scratch.lean: the team's scratchpad, its loads and stores, and its tag table (R217 to R224); blkd on
either kind of block (R187). -/

namespace Sys2Proof.Machine

/-! ## Scratchpad contents (R217, R218) -/

/-- Bytes of a team's allocation. -/
def Team.spRead (t : Team) (off n : Nat) : List Byte := sgetMany 0 t.bytes off n
/-- The block of a team's allocation at a byte offset. -/
def Team.spBlock (t : Team) (off : Nat) : Block :=
  { bytes := t.spRead (off / 64 * 64) 64, descr := sget plainDescr t.descs (off / 64), poison := markAt t.poison (off / 64) }
/-- Whether every sector of a range has been written. -/
def Team.written? (t : Team) (off n : Nat) : Bool :=
  (sectorsOf off n).all fun x => sget false t.sectors x
/-- Stores data bytes and sets the written bits of their sectors. -/
def Team.spWrite (t : Team) (off : Nat) (bytes : List Byte) : Team :=
  if bytes.isEmpty then t
  else { t with bytes := ssetMany 0 t.bytes off bytes
                sectors := (sectorsOf off bytes.length).foldl (fun m x => sset false m x true) t.sectors }
/-- Sets a block's descriptor. -/
def Team.spDescr (t : Team) (off : Nat) (d : Descr) : Team := { t with descs := sset plainDescr t.descs (off / 64) d }
/-- Lands a whole block with its descriptor and mark. -/
def Team.spLand (t : Team) (off : Nat) (b : Block) : Team :=
  { (t.spWrite (off / 64 * 64) b.bytes).spDescr off b.descr with poison := setMark t.poison (off / 64) b.poison }

/-! ## The range scoreboard (R232) -/

/-- Whether a range meets a range in flight of the team. -/
def State.inFlight (s : State) (k : TeamKey) (off n : Nat) (p : SbEntry → Bool) : Bool :=
  s.board.any fun e => e.key == k && e.lo < off + n && off < e.hi && p e

/-- The checks that every scratchpad access makes, in order: alignment, the allocation, ranges in flight, and for a
read the written sectors; what the thread does if one of them stops it (R218, R221). -/
def State.spGate (s : State) (k : TeamKey) (t : Team) (tid off n align : Nat) (write : Bool) : Option Act :=
  if off % align != 0 then some (.trap (Trap.at tid .align (if write then Acc.write.kind else Acc.read.kind) off))
  else if off + n > t.desc.scratch then some .off
  else if s.inFlight k off n (·.inbound) then some (if write then .off else .wait)
  else if write && s.inFlight k off n (fun e => !e.inbound) then some .wait
  else if !write && !t.written? off n then some .off
  else none

/-! ## LDS and STS (R221) -/

/-- LDS. -/
def execLds (c : Ctl) (d a : Reg) (off : BitVec 16) (sz : MSize) (sx : Bool) (s : State) : Result :=
  issue (memWord c (regSlots a) (groupSlots d sz.regs)) (fun s site x =>
    match s.team? site.key with
    | none => (s, .nothing)
    | some t =>
      let o := x.offset a off
      match s.spGate site.key t x.tid o sz.bytes sz.bytes false with
      | some act => (s, act)
      | none => match markAt t.poison (o / 64) with
        | some c => (s, .trap (Trap.at x.tid c Acc.read.kind o))
        | none => (s, .pend d.toNat (loadWords sz sx (t.spRead o sz.bytes)) .memory)) s

/-- STS. -/
def execSts (c : Ctl) (d a : Reg) (off : BitVec 16) (sz : MSize) (s : State) : Result :=
  issue (memWord c (regSlots a ++ groupSlots d sz.regs) []) (fun s site x =>
    match s.team? site.key with
    | none => (s, .nothing)
    | some t =>
      let o := x.offset a off
      match s.spGate site.key t x.tid o sz.bytes sz.bytes true with
      | some act => (s, act)
      | none => (s.modTeam site.key (·.spWrite o (bytesOfWords (x.group d.toNat sz.regs) sz.bytes)), .nothing)) s

/-! ## Block descriptors (R187) -/

/-- The slots of a blkd address. -/
def blkdSlots (sp : Space) (a : Reg) : List Nat := match sp with | .global => pairSlots a | .scratch => regSlots a

/-- BLKD_RD. -/
def execBlkdRd (c : Ctl) (d a : Reg) (off : BitVec 16) (sp : Space) (sc : Scope) (s : State) : Result :=
  issue (memWord c (blkdSlots sp a) (regSlots d)) (fun s site x =>
    match sp with
    | .global => s.descrLoad site x.tid (x.address a off) sc d
    | .scratch => match s.team? site.key with
      | none => (s, .nothing)
      | some t =>
        let o := x.offset a off
        match s.spGate site.key t x.tid o 1 1 false with
        | some act => (s, act)
        | none => (s, .pend d.toNat [(t.spBlock o).descr.setWidth 32] .memory)) s

/-- BLKD_SET: the access checks come before the test of the format code (log entry 13, DEDUCED). -/
def execBlkdSet (c : Ctl) (d a : Reg) (off : BitVec 16) (sp : Space) (sc : Scope) (s : State) : Result :=
  issue (memWord c (blkdSlots sp a ++ regSlots d) []) (fun s site x =>
    let v : Descr := (x.reg d.toNat).extractLsb' 0 16
    match sp with
    | .global => s.descrStore site x.tid (x.address a off) sc v
    | .scratch => match s.team? site.key with
      | none => (s, .nothing)
      | some t =>
        let o := x.offset a off
        match s.spGate site.key t x.tid o 1 1 true with
        | some act => (s, act)
        | none =>
          if fmtReserved (fmtOf v) then (s, .trap (Trap.at x.tid .format Acc.write.kind o))
          else (s.modTeam site.key (·.spDescr o v), .nothing)) s

/-! ## The tag table (R222 to R224) -/

/-- Entries of the tag table that a team owns. -/
def Team.tagQuota (t : Team) : Nat := t.desc.scratch / 2048
/-- The team's valid entry with a tag: its index and value. -/
def Team.tagFind (t : Team) (tag : W64) : Option (Nat × W32) :=
  (t.tags.find? fun e => e.2.1 == tag).map fun e => (e.1, e.2.2)
/-- The lowest invalid entry of the team. -/
def Team.tagFree (t : Team) : Option Nat :=
  (List.range t.tagQuota).find? fun i => !t.tags.any fun e => e.1 == i
/-- The value that stands for no entry. -/
def noTag : W32 := 0xFFFFFFFF

/-- One sptag operation on a team: the team after it, and the result. -/
inductive TagOp | look | set (v : W32) | clr
deriving DecidableEq, Repr

def Team.tagOp (t : Team) (o : TagOp) (tag : W64) : Team × W32 :=
  match o with
  | .look => (t, match t.tagFind tag with | some e => e.2 | none => noTag)
  | .set v => match t.tagFind tag with
    | some e => ({ t with tags := t.tags.map fun x => if x.1 == e.1 then (x.1, (tag, v)) else x }, 0)
    | none => match t.tagFree with
      | some i => ({ t with tags := insertBy (fun a b => a.1 ≤ b.1) (i, (tag, v)) t.tags }, 0)
      | none => (t, noTag)
  | .clr => match t.tagFind tag with
    | some e => ({ t with tags := t.tags.filter fun x => x.1 != e.1 }, e.2)
    | none => (t, noTag)

/-- An sptag word: each thread sees the effect of every lower thread (R224). -/
def sptag (c : Ctl) (d a : Reg) (reads : List Nat) (op : Thread → TagOp) (s : State) : Result :=
  issue (memWord c (pairSlots a ++ reads) (regSlots d)) (fun s site x =>
    match s.team? site.key with
    | none => (s, .nothing)
    | some t =>
      let r := t.tagOp (op x) (x.pair a.toNat)
      (s.modTeam site.key (fun _ => r.1), .pend d.toNat [r.2] .memory)) s

/-- SPTAG_LOOK (R224). -/
def execSptagLook (c : Ctl) (d a : Reg) (s : State) : Result := sptag c d a [] (fun _ => .look) s
/-- SPTAG_SET (R224). -/
def execSptagSet (c : Ctl) (d a b : Reg) (s : State) : Result := sptag c d a (regSlots b) (fun x => .set (x.reg b.toNat)) s
/-- SPTAG_CLR (R224). -/
def execSptagClr (c : Ctl) (d a : Reg) (s : State) : Result := sptag c d a [] (fun _ => .clr) s

end Sys2Proof.Machine
end

