-- ==== Sys2Proof/Machine/Tile.lean ====
section
/-! DEFINITION. Tile.lean: tensor layout records and tile geometry (R28, R231), the checks of a tile copy, tile store or
transfer at issue (R232, R317), how one block of a tile moves (R231, R233), and retirement (R233 to R235). -/

namespace Sys2Proof.Machine

/-! ## Layout records (R28) -/

/-- A number of a record's bytes. -/
def fieldAt (bs : List Byte) (off n : Nat) : Nat := natOfBytes ((bs.drop off).take n)

/-- A layout record as read. -/
def Layout.ofBytes (bs : List Byte) : Layout :=
  { base := fieldAt bs 0 8, sizes := (List.range 5).map fun i => fieldAt bs (8 + 4 * i) 4,
    strides := (List.range 4).map fun i => 16 * fieldAt bs (0x1C + 4 * i) 4, format := fieldAt bs 0x2C 1,
    ndims := fieldAt bs 0x2D 1, box := (List.range 5).map fun i => fieldAt bs (0x2E + 2 * i) 2, coord := fieldAt bs 0x38 2,
    rep := fieldAt bs 0x3A 2, reduce := fieldAt bs 0x3C 1, key := fieldAt bs 0x3E 2 }

/-- 4-bit units of an element (R231). -/
def fmtNibs (fmt : Nat) : Nat :=
  match fmt with | 3 => 1 | 4 => 1 | 6 => 4 | 7 => 4 | 8 => 8 | 9 => 8 | _ => 2
def Layout.nibs (l : Layout) : Nat := fmtNibs l.format
/-- 4-bit units of an element in memory: an add.bf16 reduction addresses f32 elements (R319). -/
def Layout.memNibs (l : Layout) : Nat := if l.reduce == 2 then 8 else l.nibs
/-- Dimensions at and beyond ndims have size 1, box 1 and coordinate 0 (R231). -/
def Layout.sizeOf (l : Layout) (k : Nat) : Nat := if k < l.ndims then l.sizes.getD k 1 else 1
def Layout.boxOf (l : Layout) (k : Nat) : Nat := if k < l.ndims then l.box.getD k 1 else 1
def Layout.coordOf (l : Layout) (cs : List Int) (k : Nat) : Int := if k < l.ndims then cs.getD k 0 else 0
/-- 4-bit units of one row of the box. -/
def Layout.rowNibs (l : Layout) : Nat := l.nibs * l.boxOf 0
/-- Rows of the box. -/
def Layout.rows (l : Layout) : Nat := l.boxOf 1 * l.boxOf 2 * l.boxOf 3 * l.boxOf 4
/-- Bytes of the tile. -/
def Layout.tileBytes (l : Layout) : Nat := (l.rowNibs * l.rows + 1) / 2
/-- Blocks of one row, and of the tile. -/
def Layout.perRow (l : Layout) : Nat := (l.rowNibs + 127) / 128
def Layout.blocks (l : Layout) : Nat := l.rows * l.perRow

/-- A block of a tile: where it lies in the tile, how long it is, the address of its first element, and how many 4-bit
units of it, from the first, are in range. -/
structure TileBlock where
  off : Nat
  len : Nat
  va : Nat
  nibs : Nat
deriving DecidableEq, Repr

/-- Bytes of memory that a block's in-range elements touch. -/
def TileBlock.bytes (b : TileBlock) : Nat := (b.nibs + 1) / 2

/-- The coordinate of row r in dimension k (1 to 4). -/
def Layout.rowCoord (l : Layout) (cs : List Int) (r k : Nat) : Int :=
  let below := ((List.range k).map fun j => if j == 0 then 1 else l.boxOf j).prod
  l.coordOf cs k + ((r / below % l.boxOf k : Nat) : Int)

/-- Block i of a tile whose first element stands at the coordinates (R231). -/
def Layout.block (l : Layout) (cs : List Int) (i : Nat) : TileBlock :=
  let r := i / l.perRow
  let j := i % l.perRow
  let present := Nat.min 128 (l.rowNibs - 128 * j) / l.nibs
  let x0 : Int := l.coordOf cs 0 + ((128 * j / l.nibs : Nat) : Int)
  let rowIn := [1, 2, 3, 4].all fun k => 0 ≤ l.rowCoord cs r k && l.rowCoord cs r k < (l.sizeOf k : Int)
  let count := if rowIn && 0 ≤ x0 then Nat.min present (l.sizeOf 0 - x0.toNat) else 0
  let va : Int := (l.base : Int) + (l.memNibs : Int) * x0 / 2 +
    ([1, 2, 3, 4].map fun k => (l.strides.getD (k - 1) 0 : Int) * l.rowCoord cs r k).sum
  { off := r * (l.rowNibs / 2) + 64 * j, len := (present * l.nibs + 1) / 2, va := (va % 2 ^ 64).toNat, nibs := count * l.nibs }

/-- Blocks of a tile with an element in range. -/
def Layout.inRange (l : Layout) (cs : List Int) : List TileBlock :=
  ((List.range l.blocks).map (l.block cs)).filter fun b => b.nibs != 0

/-- Bytes of memory that the block's in-range elements are in. -/
def Layout.memBytes (l : Layout) (b : TileBlock) : Nat := (b.nibs * l.memNibs / l.nibs + 1) / 2

/-- The bounding byte range of the in-range elements: its first byte and the byte after its last. -/
def Layout.bounds (l : Layout) (cs : List Int) : Option (Nat × Nat) :=
  match l.inRange cs with
  | [] => none
  | b :: bs => some (bs.foldl (fun m x => Nat.min m x.va) b.va,
      bs.foldl (fun m x => Nat.max m (x.va + l.memBytes x)) (b.va + l.memBytes b))

/-- The layout's byte extent X (R316). -/
def Layout.extent (l : Layout) : Nat :=
  if l.ndims ≤ 1 then l.memNibs * l.sizeOf 0 / 2 else l.strides.getD (l.ndims - 2) 0 * l.sizeOf (l.ndims - 1)

/-- The ranks of a transfer, each with its position among the set bits of the mask (R316). -/
def Layout.ranks (l : Layout) : List (Nat × Coord) :=
  if l.rep == 0 then [(0, l.coord)]
  else
    let bits := (List.range 16).filter fun i => l.rep / 2 ^ i % 2 == 1
    bits.zipIdx.map fun x => (x.2, ((l.coord % 16) ^^^ (x.1 / 8)) + l.coord / 16 % 256 * 16 + x.1 % 8 * 4096)

/-! ## Checks at issue (R232, R317) -/

/-- Whether a record's contents pass step 3. -/
def Layout.contentOk (l : Layout) (bs : List Byte) : Bool :=
  1 ≤ l.ndims && l.ndims ≤ 5 && ((List.range l.ndims).all fun k => 1 ≤ l.boxOf k && l.boxOf k ≤ l.sizeOf k)
    && (l.format ≤ 9 || l.format == 0xFF) && fieldAt bs 0x3D 1 == 0 && l.coord < 32768

/-- Whether a record's alignment passes step 4; a transfer of one row may end in a partial block (R317). -/
def Layout.aligned (l : Layout) (cs : List Int) (xfer : Bool) : Bool :=
  l.base % 64 == 0 && (l.nibs : Int) * l.coordOf cs 0 % 128 == 0 && ((xfer && l.rows == 1) || l.rowNibs % 128 == 0)
    && ((List.range (l.ndims - 1)).all fun i => l.strides.getD i 0 % 64 == 0)

def MoveKind.isXfer (k : MoveKind) : Bool := match k with | .push => true | .pull => true | .tcopy => false | .tstore => false
/-- Whether the move lands in scratchpad. -/
def MoveKind.inbound (k : MoveKind) : Bool := match k with | .tcopy => true | .pull => true | .tstore => false | .push => false
/-- What a record of kind copy or transfer says (R331). -/
def MoveKind.recKind (k : MoveKind) : Nat := if k.isXfer then kindTransfer else kindCopy

/-- Whether the move's memory bytes pass step 6 in a pure launch, at every rank. -/
def Launch.movePure (l : Launch) (lay : Layout) (cs : List Int) (kind : MoveKind) : Bool :=
  !l.pure || (match lay.bounds cs with
    | none => true
    | some (lo, hi) =>
      let ivs := if kind.inbound then l.inputs ++ l.outputs else l.outputs
      let ks := if kind.isXfer then lay.ranks.map (·.1) else [0]
      ks.all fun k => inOne ivs (lo + k * lay.extent) (hi - lo))

/-- Entries of a core's range scoreboard (R232). -/
def boardSize : Nat := 64

/-- Whether step 8 makes the thread wait. -/
def State.moveWaits (s : State) (site : Site) (t : Team) (off len : Nat) (bar : Option Nat) : Bool :=
  boardSize ≤ (s.board.filter fun e => e.core == site.core).length
    || s.inFlight site.key off len (fun _ => true)
    || (match bar with | some n => (t.bar n).xadd == 0xFFFF | none => false)

/-- The scope of a copy's access to a block: system where its page has REMOTE = 1; S where the page is not there yet (R260; log
entry 94, DEDUCED). -/
def State.blockScope (s : State) (k : TeamKey) (va : Nat) (writes : Bool) (sc : Scope) : Scope :=
  match s.sysPlace k.ctxId va (if writes then .write else .read) with
  | .ok p => sc.reach p.isPeer
  | .error _ => sc

/-- The race detector's check of a copy's memory side against its issuing thread (R260, R280). -/
def State.moveRace (s : State) (site : Site) (tid : Nat) (lay : Layout) (cs : List Int) (writes : Bool) (sc : Scope) :
    State × Bool :=
  let ival := s.ivalOf site.key tid
  let r := (lay.inRange cs).foldl (init := (s, false)) fun acc b =>
    if acc.2 then acc else acc.1.raceCheck site.key tid b.va b.bytes site.pc 3 (s.blockScope site.key b.va writes sc) false ival
  if r.2 || !writes then r
  else ((lay.inRange cs).foldl (fun s b => s.raceMark site.key tid b.va b.bytes (s.blockScope site.key b.va writes sc) false ival) r.1, false)

/-- Takes the scoreboard entry and the count on bN, and enters the move as outstanding and unsealed (R232, R318). -/
def State.startMove (s : State) (m : Move) : State :=
  let e : SbEntry :=
    { op := m.id, core := m.core, key := m.key, lo := m.off, hi := m.off + m.len, inbound := m.kind.inbound }
  let s := match m.bar with
    | some n => s.modTeam m.key fun t => t.setBar n { t.bar n with xadd := (t.bar n).xadd + 1 }
    | none => s
  let s := s.modThread m.key m.tid fun x => { x with unsealed := x.unsealed ++ [m.id] }
  { s with board := s.board ++ [e], moves := s.moves ++ [m], nextOp := m.id + 1 }

/-- The checks of R232 in order for one thread, and the start of its move. A thread that waits does not hold up the later ones of
its word (R88, R230; log entry 131, DEDUCED). extra says what else fails a record with
FORMAT (R317); go is what a transfer does once it has started. -/
def State.moveAct (s : State) (site : Site) (x : Thread) (kind : MoveKind) (d a b : Reg) (bn : Option (BitVec 4))
    (sc : Scope) (extra : State → Layout → List Int → Bool) (scopeOf : Layout → Scope) (go : State → Move → State) :
    State × Act :=
  let bad (c : Cause) (kd addr : Nat) : Act := .trap (Trap.at x.tid c kd addr)
  match s.team? site.key with
  | none => (s, .nothing)
  | some t =>
    let off := (x.reg d.toNat).toNat
    let rva := (x.pair a.toNat).toNat
    if off % 64 != 0 then (s, bad .align Acc.read.kind off)
    else
      let (s, g) := s.gateRace site x.tid (GAcc.load rva 64 sc) false
      match g with
      | .stop act => (s, act)
      | .go p sc' =>
        let (s, blk) := s.readAt site x.tid p sc' false true
        match blk with
        | .error c => (s, bad c Acc.read.kind rva)
        | .ok blk =>
          let lay := Layout.ofBytes blk.bytes
          let lay := if kind.isXfer then lay else { lay with rep := 0, reduce := 0, key := 0 }
          let cs := (List.range 5).map fun i => (x.reg (b.toNat + i)).toInt
          let bar := bn.map (·.toNat)
          let len := lay.tileBytes
          let lo := ((lay.bounds cs).getD (0, 0)).1
          if !lay.contentOk blk.bytes || extra s lay cs then (s, bad .format Acc.read.kind rva)
          else if !lay.aligned cs kind.isXfer then (s, bad .align Acc.read.kind rva)
          else if off + len > t.desc.scratch then (s, .off)
          else if !(match s.launchOf? site.key with | some l => l.movePure lay cs kind | none => true) then
            (s, bad .purity (if kind.inbound then Acc.read.kind else Acc.write.kind) lo)
          else if !kind.inbound && !t.written? off len then (s, .off)
          else if s.moveWaits site t off len bar then (s, .again .copy)
          else
            let (s, race) := if kind.isXfer then (s, false) else s.moveRace site x.tid lay cs (!kind.inbound) sc
            if race then (s, bad .race kindCopy lo)
            else
              let n := lay.blocks * (if kind.isXfer then lay.ranks.length else 1)
              let m : Move :=
                { id := s.nextOp, order := s.nextOp, key := site.key, tid := x.tid, pc := site.pc, kind := kind, lay := lay, coords := cs,
                  off := off, len := len, bar := bar, scope := scopeOf lay, left := List.range n, sent := !kind.isXfer, stopped := none,
                  interval := s.ivalOf site.key x.tid, core := site.core }
              (go (s.startMove m) m, .nothing)

/-! ## One block of a tile (R231, R233) -/

/-- The block that code c of a move's left list names, and the position of its rank. -/
def Move.block (m : Move) (c : Nat) : TileBlock :=
  let n := m.lay.blocks
  let b := m.lay.block m.coords (c % n)
  { b with va := (b.va + c / n * m.lay.extent) % 2 ^ 64 }

/-- Landing permits of a core (R233). -/
def landingSlots : Nat := 32

def MatOp.isStream (o : MatOp) : Bool := match o.kind with | .mms _ => true | _ => false

/-- The operations that hold a landing permit on a core: permits go in the order of issue, to copies and to the streams
of the pair whose leader the core is, and each is held until its operation retires (R233, R246). -/
def State.landing (s : State) (core : Nat) : List Nat :=
  let streams := if core % 2 == 0 then ((s.pair (pairOf core)).queue.filter (·.isStream)).map fun o => (o.order, o.id) else []
  let copies := (s.moves.filter fun m => m.core == core && m.kind.inbound).map fun m => (m.order, m.id)
  ((sortBy (fun a b => a.1 ≤ b.1) (copies ++ streams)).take landingSlots).map (·.2)

/-- Whether a move may land: a tile store and a push need no permit. -/
def State.permitted (s : State) (m : Move) : Bool := !m.kind.inbound || (s.landing m.core).contains m.id

/-- The descriptor of a scratchpad block that receives no element (R231). -/
def Layout.emptyDescr (l : Layout) : Descr :=
  if l.format == 0xFF then plainDescr else plainDescr + BitVec.ofNat 16 l.format

/-- Data bytes of a tile block: in-range bytes, zero where no element is in range, and zero in the other half of a byte
whose upper element is out of range. -/
def TileBlock.landed (b : TileBlock) (src : List Byte) : List Byte :=
  (List.range b.len).map fun i =>
    if 2 * i + 2 ≤ b.nibs then src.getD i 0 else if 2 * i < b.nibs then src.getD i 0 &&& 0x0F else 0

/-- A block lands in scratchpad with its descriptor, mark and written bits. -/
def Team.landBlock (t : Team) (lay : Layout) (off : Nat) (b : TileBlock) (src : Block) : Team :=
  let mark := if b.nibs == 0 then none else src.poison
  let t := (t.spWrite off (b.landed src.bytes)).spDescr off (if b.nibs == 0 then lay.emptyDescr else src.descr)
  if mark.isSome || b.len == 64 then { t with poison := setMark t.poison (off / 64) mark } else t

/-- The bytes that a tile store writes into a memory block: the in-range bytes, with the old upper half of a byte whose
upper element is out of range. -/
def TileBlock.stored (b : TileBlock) (old src : List Byte) : List Byte :=
  (List.range b.bytes).map fun i =>
    if 2 * i + 2 ≤ b.nibs then src.getD i 0 else (old.getD i 0 &&& 0xF0) ||| (src.getD i 0 &&& 0x0F)

/-! ## Retirement (R233, R318) -/

/-- Lets threads go back to their word that wait for a copy to retire: a full scoreboard or an overlap, a batch. -/
def State.wakeCopies (s : State) (core : Nat) : State :=
  let on := s.teams.filter fun t => t.isResident && t.core == core
  (on.foldl (init := s) fun s t =>
    let ready (x : Thread) : Bool := match x.parkedAs with
      | some .copy => true
      | some (.cwait n) => (sget [] x.batches n).isEmpty
      | _ => false
    s.release t.key ((t.threads.filter ready).map (·.tid)) true false).wake

/-- A thread's record of an operation that has retired. -/
def Thread.retired (x : Thread) (op : Nat) : Thread :=
  { x with unsealed := x.unsealed.filter (· != op),
           batches := x.batches.filterMap fun e =>
             let ops := e.2.filter (· != op)
             if ops.isEmpty then none else some (e.1, ops) }

/-- One extra arrival on bN (R226). -/
def State.extraArrival (s : State) (k : TeamKey) (n : Nat) : State :=
  (s.modTeam k fun t => t.setBar n { t.bar n with xgot := (t.bar n).xgot + 1 }).barEvent k n

/-- A copy or transfer retires, in one step (R233). -/
def State.retireMove (s : State) (m : Move) : State :=
  let s := { s with board := s.board.filter fun e => e.op != m.id, moves := s.moves.filter fun x => x.id != m.id }
  let s := s.modThread m.key m.tid (·.retired m.id)
  let s := match m.bar with | some n => s.extraArrival m.key n | none => s
  (s.wakeCopies m.core).settle m.key

end Sys2Proof.Machine
end

