-- ==== Sys2Proof/Machine/Rank.lean ====
section
/-! DEFINITION. Rank.lean: what a tile store or a transfer does to memory at its destination: plain writes, reductions,
and contributions held for the end of a deterministic grid (R231, R318 to R320). -/

namespace Sys2Proof.Machine

/-! ## A range of memory as the parts of blocks it lies in -/

/-- Bytes of a place. -/
def State.bytesAt (s : State) (p : Place) (n : Nat) : List Byte :=
  match p with
  | .here pa => sgetMany 0 s.mem pa n
  | .peer c pa => sgetMany 0 s.peerMem (peerKey c pa) n

/-- Bytes of some parts, one after another. -/
def State.gather (s : State) (parts : List (Place × Nat)) : List Byte := parts.flatMap fun p => s.bytesAt p.1 p.2

/-- Writes bytes over some parts, each with what f makes of its place. -/
def scatter (parts : List (Place × Nat)) (bytes : List Byte) (f : State → Place → List Byte → State) (s : State) : State :=
  (parts.foldl (init := (s, bytes)) fun acc p => (f acc.1 p.1 (acc.2.take p.2), acc.2.drop p.2)).1

/-- The parts that a range of a context's memory lies in, translated by the unit that moves the tile (R234). -/
def State.placesOf (s : State) (ctx va n : Nat) (acc : Acc) : Except Cause (List (Place × Nat)) :=
  (blockParts va n).foldl (init := .ok []) fun done x =>
    match done with
    | .error c => .error c
    | .ok ps => match s.sysPlace ctx x.1 acc with
      | .error c => .error c
      | .ok p => if (s.readBlock p).isNone then .error .machine else .ok (ps ++ [(p, x.2)])

/-! ## Ranks -/

/-- The coord code of a die of this package (R28, R387). -/
def State.dieCoord (s : State) (die : Nat) : Coord := s.coord.toNat + 4096 * die
/-- The die number in a coord code. -/
def coordDie (c : Coord) : Nat := c / 4096 % 8
/-- Whether a coord code names a die of this package. -/
def State.isOurs (s : State) (c : Coord) : Bool := c % 4096 == s.coord.toNat
/-- The rank that code c of a move's left list names. -/
def Move.rankOf (m : Move) (c : Nat) : Coord :=
  match m.lay.ranks.find? fun r => r.1 == c / m.lay.blocks with | some r => r.2 | none => m.lay.coord
/-- Whether a block crosses no link: any block of a copy, a transfer's block at its own die, and a block that only
lands zeros (R305). -/
def State.isDirect (s : State) (m : Move) (c : Nat) : Bool :=
  !m.kind.isXfer || m.rankOf c == s.dieCoord (dieOf m.core) || (m.kind.inbound && (m.block c).nibs == 0)

/-! ## Plain writes -/

/-- A core drops its L1 line of a place. -/
def State.dropLine (s : State) (core : Nat) (p : Place) : State :=
  s.modCore core fun c => { c with l1 := c.l1.filter fun x => x.1 != p.blockKey }

/-- Writes a block's in-range bytes with its descriptor and mark; the issuing core keeps no stale line of it. -/
def State.putTile (s : State) (core : Nat) (parts : List (Place × Nat)) (b : TileBlock) (src : Block) : State :=
  scatter parts (b.stored (s.gather parts) src.bytes) (fun s p bs =>
    (s.writePart p (p.pa % 64) bs src.descr src.poison).dropLine core p) s

/-! ## Reductions (R319) -/

/-- Bytes of a contribution's element. -/
def redSrcBytes (fmt : Nat) : Nat := if fmt == 6 then 2 else 4
/-- Bytes of a destination's element. -/
def redDstBytes (reduce fmt : Nat) : Nat := if reduce == 2 then 4 else redSrcBytes fmt
/-- Whether an operator admits a layout's format. -/
def redAdmits (reduce fmt : Nat) : Bool :=
  match reduce with
  | 0 => true
  | 1 => fmt == 8
  | 2 => fmt == 6
  | 3 => fmt == 9
  | 4 => fmt == 6 || fmt == 8 || fmt == 9
  | 5 => fmt == 6 || fmt == 8 || fmt == 9
  | _ => false

/-- The new value of an element d from a contribution x. -/
def redElem (reduce fmt d x : Nat) : Nat :=
  if reduce == 1 then (FFmt.f32.add .rn false d x).bits
  else if reduce == 2 then (FFmt.f32.add .rn false d (x * 65536)).bits
  else if reduce == 3 then (d + x) % 2 ^ 32
  else if fmt == 6 then (FFmt.bf16.minMax (reduce == 4) false d x).bits
  else if fmt == 8 then (FFmt.f32.minMax (reduce == 4) false d x).bits
  else
    let i (v : Nat) : Int := (BitVec.ofNat 32 v).toInt
    if reduce == 4 then (if i d < i x then x else d) else (if i x < i d then x else d)

/-- The new bytes of some elements. -/
def redBytes (reduce fmt : Nat) (old src : List Byte) : List Byte :=
  let e := redSrcBytes fmt
  let f := redDstBytes reduce fmt
  (List.range (old.length / f)).flatMap fun i =>
    bytesOfNat f (redElem reduce fmt (fieldAt old (f * i) f) (fieldAt src (e * i) e))

/-- Reduces a contribution into memory; descriptors stay, a contribution's mark spreads (R208, R319), and the issuing core keeps
no stale line of it (R272). -/
def State.putReduced (s : State) (core reduce fmt : Nat) (parts : List (Place × Nat)) (bytes : List Byte) (mark : Option Cause) :
    State :=
  scatter parts (redBytes reduce fmt (s.gather parts) bytes) (fun s p bs =>
    let s := s.writeBytes p bs
    let s := if mark.isSome then s.writePoison p mark else s
    s.dropLine core p) s

/-- Holds a contribution of a deterministic launch for the end of its grid (R320). -/
def State.holdReduced (s : State) (m : Move) (src : Coord) (parts : List (Place × Nat)) (data : Block) : State :=
  let grid := match s.team? m.key with | some t => t.grid | none => 0
  let h : HeldRed :=
    { ctx := m.key.ctxId, launch := m.key.launchId, grid := grid, src := src, team := m.key.teamId, tid := m.tid,
      order := m.id, core := m.core, reduce := m.lay.reduce, fmt := m.lay.format, parts := parts, bytes := data.bytes,
      poison := data.poison }
  { s with heldReds := s.heldReds ++ [h] }

/-- What a block of a tile store or a push does at a rank (R318, R320). -/
def State.putRank (s : State) (m : Move) (src : Coord) (parts : List (Place × Nat)) (b : TileBlock) (data : Block) : State :=
  if m.lay.reduce == 0 then s.putTile m.core parts b data
  else if s.launchHas m.key (·.det) then s.holdReduced m src parts data
  else s.putReduced m.core m.lay.reduce m.lay.format parts data.bytes data.poison

/-- Whether a held contribution comes before another: source rank, logical thread, issue order (R320). -/
def heldBefore (a b : HeldRed) : Bool :=
  lexLt [a.src, a.launch, a.team, a.tid, a.order] [b.src, b.launch, b.team, b.tid, b.order]

/-- Applies the contributions held for a grid, in order (R54, R320). -/
def State.applyHeld (s : State) (ctx launch grid : Nat) : State :=
  let mine (h : HeldRed) : Bool := h.ctx == ctx && h.launch == launch && h.grid == grid
  let due := sortBy (fun a b => !heldBefore b a) (s.heldReds.filter mine)
  due.foldl (fun s h => s.putReduced h.core h.reduce h.fmt h.parts h.bytes h.poison)
    { s with heldReds := s.heldReds.filter fun h => !mine h }

end Sys2Proof.Machine
end

