-- ==== Sys2Proof/Machine/Copy.lean ====
section
/-! DEFINITION. Copy.lean: tile copies and tile stores, copy batches, and the events of a copy in flight (R230 to
R236). -/

namespace Sys2Proof.Machine

/-! ## Instructions -/

/-- The slots that a tile copy, tile store or transfer reads. -/
def moveSlots (d a b : Reg) : List Nat := regSlots d ++ pairSlots a ++ coordSlots b

/-- TCOPY (R232). -/
def execTcopy (c : Ctl) (d a b : Reg) (bn : Option (BitVec 4)) (sc : Scope) (s : State) : Result :=
  issue (syncWord c (moveSlots d a b) []) (fun s site x =>
    s.moveAct site x .tcopy d a b bn sc (fun _ _ _ => false) (fun _ => sc) (fun s _ => s)) s

/-- TSTORE (R232). -/
def execTstore (c : Ctl) (d a b : Reg) (bn : Option (BitVec 4)) (sc : Scope) (s : State) : Result :=
  issue (syncWord c (moveSlots d a b) []) (fun s site x =>
    s.moveAct site x .tstore d a b bn sc (fun _ _ _ => false) (fun _ => sc) (fun s _ => s)) s

/-- CSEAL: outstanding, unsealed copies and transfers join the batch (R236). -/
def execCseal (c : Ctl) (batch : BitVec 4) (s : State) : Result :=
  issue (syncWord c [] []) (fun s site x =>
    (s.modThread site.key x.tid fun x =>
      { x with batches := sset [] x.batches batch.toNat (sget [] x.batches batch.toNat ++ x.unsealed), unsealed := [] },
     .nothing)) s

/-- CWAIT: a thread whose batch has an operation in flight parks at the word; an empty batch lets it go on (R236). -/
def execCwait (c : Ctl) (batch : BitVec 4) (s : State) : Result :=
  issue (syncWord c [] []) (fun s _ x =>
    (s, if (sget [] x.batches batch.toNat).isEmpty then .nothing else .again (.cwait batch.toNat))) s

/-! ## Events -/

/-- Whether a block of a move can be performed now: it is still to do, the move is not stopped, and it holds its
permit. -/
def State.blockReady (s : State) (m : Move) (c : Nat) : Bool :=
  m.left.contains c && m.stopped.isNone && s.permitted m

/-- The parts of memory that a block of a move reads or writes. -/
def State.moveParts (s : State) (m : Move) (c : Nat) : Except Cause (List (Place × Nat)) :=
  let b := m.block c
  s.placesOf m.key.ctxId b.va (m.lay.memBytes b) (if m.kind.inbound then .read else .write)

/-- The poison that a keyed push at its own die consumes: it crosses no link, but its launch fails all the same (R318). -/
def State.pushPoison (s : State) (m : Move) (c : Nat) : Option Cause :=
  let b := m.block c
  if m.kind == .push && m.lay.key != 0 && b.nibs != 0 then (s.team? m.key).bind fun t => (t.spBlock (m.off + b.off)).poison else none

/-- One block of a tile copy lands, or of a tile store is written, with its descriptor and mark in one access (R231,
R233); a transfer's block at its own die is performed the same way (R305, R318). -/
def State.moveBlock (s : State) (m : Move) (c : Nat) : State :=
  let b := m.block c
  let off := m.off + b.off
  let s' : Option State :=
    if b.nibs == 0 then
      some (if m.kind.inbound then
        s.modTeam m.key fun t => t.landBlock m.lay off b { bytes := [], descr := plainDescr, poison := none } else s)
    else match s.moveParts m c with
      | .error _ => none
      | .ok parts =>
        if m.kind.inbound then
          (parts.head?.bind fun p => s.readBlock p.1).map fun src => s.modTeam m.key fun t => t.landBlock m.lay off b src
        else (s.team? m.key).map fun t => s.putRank m (m.rankOf c) parts b (t.spBlock off)
  match s' with
  | none => s
  | some s => s.modMove m.id fun m => { m with left := m.left.filter (· != c) }

/-- COPY_BLOCK_LAND (R233). -/
def execCopyBlockLand (op blk : Nat) (s : State) : Result :=
  .next (match s.move? op with
    | none => s
    | some m =>
      if s.blockReady m blk && s.isDirect m blk then
        (match s.pushPoison m blk with | some c => s.failLaunchOf m.key c 0 | none => s.moveBlock m blk)
      else s)

/-- COPY_RETIRE (R233). -/
def execCopyRetire (op : Nat) (s : State) : Result :=
  .next (match s.move? op with
    | none => s
    | some m => if m.left.isEmpty && !m.kind.isXfer then s.retireMove m else s)

/-- The record of a copy or transfer that stops on a page (R330). -/
def Move.record (m : Move) (c : Cause) (va ticks : Nat) : FaultRec :=
  (Trap.at m.tid c m.kind.recKind va).record m.pc m.key.teamId ticks 1

/-- COPY_PAGE_FAULT: a not-present page stops the move with a group of one record; any other failure ends the launch
(R234). -/
def execCopyPageFault (op blk : Nat) (s : State) : Result :=
  .next (match s.move? op with
    | none => s
    | some m =>
      let b := m.block blk
      if !s.blockReady m blk || !s.isDirect m blk || b.nibs == 0 then s
      else match s.moveParts m blk with
        | .ok _ => s
        | .error .pageNp =>
          let s := s.modMove op fun m => { m with stopped := some s.nextGroup }
          s.takeReport m.key (.move op) (m.record .pageNp b.va s.ticks) []
        | .error c => s.failLaunchOf m.key c 0)

end Sys2Proof.Machine
end

