-- ==== Sys2Proof/Decode.lean ====
section
/-! DEFINITION. Decode.lean: from a 64-bit word to an instruction, total, refusing by none every encoding that R97
says raises ILL on the word's own bits; then the encoder, from the same tables. What depends on where a word runs
(the register bound wregs of R91, the class rule of R86, R98) is checked by the instruction's meaning. -/

namespace Sys2Proof

/-- Keep a result only where a check of the encoding holds. -/
def need {α : Type} (ok : Bool) (x : Option α) : Option α := if ok then x else none

/-! ## The common frame (R89) -/

/-- The fields every instruction word carries, and the 42 bits in which the formats differ. -/
structure Fields where
  op : BitVec 8
  sub : BitVec 4
  pr : BitVec 5
  pn : BitVec 1
  st : BitVec 4
  low : BitVec 42
deriving DecidableEq, Repr

/-- Reading the common frame (R89). -/
def Fields.ofWord (w : W64) : Fields :=
  { op := w.extractLsb' 56 8, sub := w.extractLsb' 52 4, pr := w.extractLsb' 47 5, pn := w.extractLsb' 46 1,
    st := w.extractLsb' 42 4, low := w.extractLsb' 0 42 }

/-- Writing the common frame (R89). -/
def Fields.toWord (f : Fields) : W64 := f.op ++ f.sub ++ f.pr ++ f.pn ++ f.st ++ f.low

/-! ## The formats (R92) -/

/-- Format A. -/
structure FmtA where
  d : Reg
  a : Reg
  b : Reg
  c : Reg
  m : BitVec 10
deriving DecidableEq, Repr

def FmtA.ofLow (w : BitVec 42) : FmtA :=
  { d := w.extractLsb' 34 8, a := w.extractLsb' 26 8, b := w.extractLsb' 18 8, c := w.extractLsb' 10 8,
    m := w.extractLsb' 0 10 }

def FmtA.toLow (f : FmtA) : BitVec 42 := f.d ++ f.a ++ f.b ++ f.c ++ f.m

/-- Formats I and C: two register fields and 26 bits. -/
structure FmtI where
  d : Reg
  a : Reg
  imm : BitVec 26
deriving DecidableEq, Repr

def FmtI.ofLow (w : BitVec 42) : FmtI :=
  { d := w.extractLsb' 34 8, a := w.extractLsb' 26 8, imm := w.extractLsb' 0 26 }

def FmtI.toLow (f : FmtI) : BitVec 42 := f.d ++ f.a ++ f.imm

/-- Format L. -/
structure FmtL where
  d : Reg
  rsv : BitVec 2
  imm : BitVec 32
deriving DecidableEq, Repr

def FmtL.ofLow (w : BitVec 42) : FmtL :=
  { d := w.extractLsb' 34 8, rsv := w.extractLsb' 32 2, imm := w.extractLsb' 0 32 }

def FmtL.toLow (f : FmtL) : BitVec 42 := f.d ++ f.rsv ++ f.imm

/-- Formats M and S: two register fields, 16 bits and m. -/
structure FmtM where
  d : Reg
  a : Reg
  off : BitVec 16
  m : BitVec 10
deriving DecidableEq, Repr

def FmtM.ofLow (w : BitVec 42) : FmtM :=
  { d := w.extractLsb' 34 8, a := w.extractLsb' 26 8, off := w.extractLsb' 10 16, m := w.extractLsb' 0 10 }

def FmtM.toLow (f : FmtM) : BitVec 42 := f.d ++ f.a ++ f.off ++ f.m

/-- Format X. -/
structure FmtX where
  acc : BitVec 4
  setv : BitVec 1
  set : BitVec 3
  a : Reg
  b : Reg
  wait : BitVec 8
  m : BitVec 10
deriving DecidableEq, Repr

def FmtX.ofLow (w : BitVec 42) : FmtX :=
  { acc := w.extractLsb' 38 4, setv := w.extractLsb' 37 1, set := w.extractLsb' 34 3, a := w.extractLsb' 26 8,
    b := w.extractLsb' 18 8, wait := w.extractLsb' 10 8, m := w.extractLsb' 0 10 }

def FmtX.toLow (f : FmtX) : BitVec 42 := f.acc ++ f.setv ++ f.set ++ f.a ++ f.b ++ f.wait ++ f.m

/-- Format T. -/
structure FmtT where
  d : Reg
  a : Reg
  b : Reg
  c : Reg
  bn : BitVec 4
  batch : BitVec 4
  scope : BitVec 2
deriving DecidableEq, Repr

def FmtT.ofLow (w : BitVec 42) : FmtT :=
  { d := w.extractLsb' 34 8, a := w.extractLsb' 26 8, b := w.extractLsb' 18 8, c := w.extractLsb' 10 8,
    bn := w.extractLsb' 6 4, batch := w.extractLsb' 2 4, scope := w.extractLsb' 0 2 }

def FmtT.toLow (f : FmtT) : BitVec 42 := f.d ++ f.a ++ f.b ++ f.c ++ f.bn ++ f.batch ++ f.scope

/-! ## The m fields -/

/-- m in class-0 format A (R93). -/
structure MA where
  ty : BitVec 4
  rnd : BitVec 3
  ovf : BitVec 2
  lo : BitVec 1
deriving DecidableEq, Repr

def MA.of (m : BitVec 10) : MA :=
  { ty := m.extractLsb' 6 4, rnd := m.extractLsb' 3 3, ovf := m.extractLsb' 1 2, lo := m.extractLsb' 0 1 }

def MA.bits (x : MA) : BitVec 10 := x.ty ++ x.rnd ++ x.ovf ++ x.lo

/-- m in format M (R94). -/
structure MM where
  size : BitVec 3
  space : BitVec 2
  sb : BitVec 1
  scope : BitVec 2
  fam1 : BitVec 1
  fam0 : BitVec 1
deriving DecidableEq, Repr

def MM.of (m : BitVec 10) : MM :=
  { size := m.extractLsb' 7 3, space := m.extractLsb' 5 2, sb := m.extractLsb' 4 1, scope := m.extractLsb' 2 2,
    fam1 := m.extractLsb' 1 1, fam0 := m.extractLsb' 0 1 }

def MM.bits (x : MM) : BitVec 10 := x.size ++ x.space ++ x.sb ++ x.scope ++ x.fam1 ++ x.fam0

/-- m of the matrix products (R240). -/
structure MX where
  kind : BitVec 2
  asg : BitVec 1
  bsg : BitVec 1
  af16 : BitVec 1
  bf16 : BitVec 1
  sat : BitVec 1
  rsv : BitVec 3
deriving DecidableEq, Repr

def MX.of (m : BitVec 10) : MX :=
  { kind := m.extractLsb' 8 2, asg := m.extractLsb' 7 1, bsg := m.extractLsb' 6 1, af16 := m.extractLsb' 5 1,
    bf16 := m.extractLsb' 4 1, sat := m.extractLsb' 3 1, rsv := m.extractLsb' 0 3 }

def MX.bits (x : MX) : BitVec 10 := x.kind ++ x.asg ++ x.bsg ++ x.af16 ++ x.bf16 ++ x.sat ++ x.rsv

/-- m of the atomics (R274). -/
structure MT where
  ty : BitVec 4
  order : BitVec 3
  scope : BitVec 2
  rsv : BitVec 1
deriving DecidableEq, Repr

def MT.of (m : BitVec 10) : MT :=
  { ty := m.extractLsb' 6 4, order := m.extractLsb' 3 3, scope := m.extractLsb' 1 2, rsv := m.extractLsb' 0 1 }

def MT.bits (x : MT) : BitVec 10 := x.ty ++ x.order ++ x.scope ++ x.rsv

/-- An m field of which only the two low bits are read (R239, R343, R369). -/
structure MB where
  rsv : BitVec 8
  b1 : BitVec 1
  b0 : BitVec 1
deriving DecidableEq, Repr

def MB.of (m : BitVec 10) : MB :=
  { rsv := m.extractLsb' 2 8, b1 := m.extractLsb' 1 1, b0 := m.extractLsb' 0 1 }

def MB.bits (x : MB) : BitVec 10 := x.rsv ++ x.b1 ++ x.b0

/-- m of dot4 (R176). -/
structure MD where
  asg : BitVec 1
  bsg : BitVec 1
  rsv : BitVec 7
  sat : BitVec 1
deriving DecidableEq, Repr

def MD.of (m : BitVec 10) : MD :=
  { asg := m.extractLsb' 9 1, bsg := m.extractLsb' 8 1, rsv := m.extractLsb' 1 7, sat := m.extractLsb' 0 1 }

def MD.bits (x : MD) : BitVec 10 := x.asg ++ x.bsg ++ x.rsv ++ x.sat

/-- A c field of format T of which only the two low bits are read (R227, R230, R284, R315). -/
structure CB where
  rsv : BitVec 6
  b1 : BitVec 1
  b0 : BitVec 1
deriving DecidableEq, Repr

def CB.of (c : Reg) : CB :=
  { rsv := c.extractLsb' 2 6, b1 := c.extractLsb' 1 1, b0 := c.extractLsb' 0 1 }

def CB.bits (x : CB) : Reg := x.rsv ++ x.b1 ++ x.b0

/-! ## The codes of the modifiers -/

/-- A one-bit field as a flag. -/
def flag (b : BitVec 1) : Bool := b == 1

/-- A flag as a one-bit field. -/
def bit (b : Bool) : BitVec 1 := if b then 1 else 0

/-- The type codes of R166. -/
def ITy.code (x : ITy) : BitVec 4 :=
  match x with
  | .s32 => 0 | .n32 => 1

/-- Reading the type codes of R166. -/
def ITy.ofCode (n : BitVec 4) : Option ITy :=
  match n.toNat with
  | 0 => some .s32 | 1 => some .n32 | _ => none

/-- The type codes of R166. -/
def WTy.code (x : WTy) : BitVec 4 :=
  match x with
  | .s32 => 0 | .n32 => 1 | .s64 => 2 | .n64 => 3

/-- Reading the type codes of R166. -/
def WTy.ofCode (n : BitVec 4) : Option WTy :=
  match n.toNat with
  | 0 => some .s32 | 1 => some .n32 | 2 => some .s64 | 3 => some .n64 | _ => none

/-- The float type codes (R142). -/
def FTy.code (x : FTy) : BitVec 4 :=
  match x with
  | .f32 => 8 | .f16 => 9 | .bf16 => 10

/-- Reading the float type codes (R142). -/
def FTy.ofCode (n : BitVec 4) : Option FTy :=
  match n.toNat with
  | 8 => some .f32 | 9 => some .f16 | 10 => some .bf16 | _ => none

/-- The packed float type codes (R93). -/
def PTy.code (x : PTy) : BitVec 4 :=
  match x with
  | .f16x2 => 11 | .bf16x2 => 12

/-- Reading the packed float type codes (R93). -/
def PTy.ofCode (n : BitVec 4) : Option PTy :=
  match n.toNat with
  | 11 => some .f16x2 | 12 => some .bf16x2 | _ => none

/-- The type codes of R93. -/
def CTy.code (x : CTy) : BitVec 4 :=
  match x with
  | .s32 => 0 | .n32 => 1 | .s64 => 2 | .n64 => 3 | .s16 => 4 | .n16 => 5 | .s8 => 6 | .n8 => 7 | .f32 => 8
  | .f16 => 9 | .bf16 => 10 | .s4 => 13 | .n4 => 14 | .ts8 => 15

/-- Reading the type codes of R93. -/
def CTy.ofCode (n : BitVec 4) : Option CTy :=
  match n.toNat with
  | 0 => some .s32 | 1 => some .n32 | 2 => some .s64 | 3 => some .n64 | 4 => some .s16 | 5 => some .n16
  | 6 => some .s8 | 7 => some .n8 | 8 => some .f32 | 9 => some .f16 | 10 => some .bf16 | 13 => some .s4
  | 14 => some .n4 | 15 => some .ts8 | _ => none

/-- The type codes of R93. -/
def KTy.code (x : KTy) : BitVec 4 :=
  match x with
  | .s8 => 6 | .n8 => 7 | .s4 => 13 | .n4 => 14 | .f16 => 9 | .bf16 => 10 | .ts8 => 15

/-- Reading the type codes of R93. -/
def KTy.ofCode (n : BitVec 4) : Option KTy :=
  match n.toNat with
  | 6 => some .s8 | 7 => some .n8 | 13 => some .s4 | 14 => some .n4 | 9 => some .f16 | 10 => some .bf16
  | 15 => some .ts8 | _ => none

/-- The type codes of R239. -/
def DTy.code (x : DTy) : BitVec 4 :=
  match x with
  | .s32 => 0 | .s8 => 6 | .n8 => 7 | .f32 => 8 | .f16 => 9 | .bf16 => 10 | .s4 => 13 | .n4 => 14

/-- Reading the type codes of R239. -/
def DTy.ofCode (n : BitVec 4) : Option DTy :=
  match n.toNat with
  | 0 => some .s32 | 6 => some .s8 | 7 => some .n8 | 8 => some .f32 | 9 => some .f16 | 10 => some .bf16
  | 13 => some .s4 | 14 => some .n4 | _ => none

/-- The type codes of R128. -/
def RTy.code (x : RTy) : BitVec 4 :=
  match x with
  | .s32 => 0 | .n32 => 1 | .f32 => 8

/-- Reading the type codes of R128. -/
def RTy.ofCode (n : BitVec 4) : Option RTy :=
  match n.toNat with
  | 0 => some .s32 | 1 => some .n32 | 8 => some .f32 | _ => none

/-- The type codes of R274. -/
def ATy.code (x : ATy) : BitVec 4 :=
  match x with
  | .s32 => 0 | .n32 => 1 | .s64 => 2 | .n64 => 3 | .f32 => 8

/-- Reading the type codes of R274. -/
def ATy.ofCode (n : BitVec 4) : Option ATy :=
  match n.toNat with
  | 0 => some .s32 | 1 => some .n32 | 2 => some .s64 | 3 => some .n64 | 8 => some .f32 | _ => none

/-- The rounding codes (R93). -/
def Rnd.code (x : Rnd) : BitVec 3 :=
  match x with
  | .rn => 0 | .rz => 1 | .rd => 2 | .ru => 3 | .ra => 4

/-- Reading the rounding codes (R93). -/
def Rnd.ofCode (n : BitVec 3) : Option Rnd :=
  match n.toNat with
  | 0 => some .rn | 1 => some .rz | 2 => some .rd | 3 => some .ru | 4 => some .ra | _ => none

/-- The overflow codes (R93). -/
def Ovf.code (x : Ovf) : BitVec 2 :=
  match x with
  | .sat => 0 | .inf => 1 | .nan => 2 | .trp => 3

/-- Reading the overflow codes (R93). -/
def Ovf.ofCode (n : BitVec 2) : Option Ovf :=
  match n.toNat with
  | 0 => some .sat | 1 => some .inf | 2 => some .nan | 3 => some .trp | _ => none

/-- The sub codes of icmp (R165). -/
def IRel.code (x : IRel) : BitVec 4 :=
  match x with
  | .eq => 0 | .ne => 1 | .lt => 2 | .le => 3 | .gt => 4 | .ge => 5

/-- Reading the sub codes of icmp (R165). -/
def IRel.ofCode (n : BitVec 4) : Option IRel :=
  match n.toNat with
  | 0 => some .eq | 1 => some .ne | 2 => some .lt | 3 => some .le | 4 => some .gt | 5 => some .ge
  | _ => none

/-- The sub codes of fcmp (R176). -/
def FRel.code (x : FRel) : BitVec 4 :=
  match x with
  | .eq => 0 | .ne => 1 | .lt => 2 | .le => 3 | .gt => 4 | .ge => 5 | .un => 6 | .ord => 7

/-- Reading the sub codes of fcmp (R176). -/
def FRel.ofCode (n : BitVec 4) : Option FRel :=
  match n.toNat with
  | 0 => some .eq | 1 => some .ne | 2 => some .lt | 3 => some .le | 4 => some .gt | 5 => some .ge
  | 6 => some .un | 7 => some .ord | _ => none

/-- The sub codes of plog (R128). -/
def POp.code (x : POp) : BitVec 4 :=
  match x with
  | .and => 0 | .or => 1 | .xor => 2 | .andn => 3

/-- Reading the sub codes of plog (R128). -/
def POp.ofCode (n : BitVec 4) : Option POp :=
  match n.toNat with
  | 0 => some .and | 1 => some .or | 2 => some .xor | 3 => some .andn | _ => none

/-- The sub codes of vote (R128). -/
def VoteOp.code (x : VoteOp) : BitVec 4 :=
  match x with
  | .all => 0 | .any => 1 | .uni => 2

/-- Reading the sub codes of vote (R128). -/
def VoteOp.ofCode (n : BitVec 4) : Option VoteOp :=
  match n.toNat with
  | 0 => some .all | 1 => some .any | 2 => some .uni | _ => none

/-- The sub codes of shfl (R128). -/
def ShflOp.code (x : ShflOp) : BitVec 4 :=
  match x with
  | .idx => 0 | .up => 1 | .down => 2 | .xor => 3

/-- Reading the sub codes of shfl (R128). -/
def ShflOp.ofCode (n : BitVec 4) : Option ShflOp :=
  match n.toNat with
  | 0 => some .idx | 1 => some .up | 2 => some .down | 3 => some .xor | _ => none

/-- The sub codes of redux (R128). -/
def ReduxOp.code (x : ReduxOp) : BitVec 4 :=
  match x with
  | .add => 0 | .min => 1 | .max => 2

/-- Reading the sub codes of redux (R128). -/
def ReduxOp.ofCode (n : BitVec 4) : Option ReduxOp :=
  match n.toNat with
  | 0 => some .add | 1 => some .min | 2 => some .max | _ => none

/-- The sub codes of atom (R274). -/
def AOp.code (x : AOp) : BitVec 4 :=
  match x with
  | .add => 0 | .min => 1 | .max => 2 | .and => 3 | .or => 4 | .xor => 5 | .xchg => 6

/-- Reading the sub codes of atom (R274). -/
def AOp.ofCode (n : BitVec 4) : Option AOp :=
  match n.toNat with
  | 0 => some .add | 1 => some .min | 2 => some .max | 3 => some .and | 4 => some .or | 5 => some .xor
  | 6 => some .xchg | _ => none

/-- The sub codes of red (R274). -/
def RedOp.code (x : RedOp) : BitVec 4 :=
  match x with
  | .add => 0 | .min => 1 | .max => 2 | .and => 3 | .or => 4 | .xor => 5

/-- Reading the sub codes of red (R274). -/
def RedOp.ofCode (n : BitVec 4) : Option RedOp :=
  match n.toNat with
  | 0 => some .add | 1 => some .min | 2 => some .max | 3 => some .and | 4 => some .or | 5 => some .xor
  | _ => none

/-- The order codes (R274). -/
def Order.code (x : Order) : BitVec 3 :=
  match x with
  | .rlx => 0 | .acq => 1 | .rel => 2 | .ar => 3 | .sc => 4

/-- Reading the order codes (R274). -/
def Order.ofCode (n : BitVec 3) : Option Order :=
  match n.toNat with
  | 0 => some .rlx | 1 => some .acq | 2 => some .rel | 3 => some .ar | 4 => some .sc | _ => none

/-- The order codes that red admits (R275). -/
def RedOrder.code (x : RedOrder) : BitVec 3 :=
  match x with
  | .rlx => 0 | .rel => 2

/-- Reading the order codes that red admits (R275). -/
def RedOrder.ofCode (n : BitVec 3) : Option RedOrder :=
  match n.toNat with
  | 0 => some .rlx | 2 => some .rel | _ => none

/-- The scope codes (R92). -/
def Scope.code (x : Scope) : BitVec 2 :=
  match x with
  | .team => 0 | .die => 1 | .pkg => 2 | .sys => 3

/-- Reading the scope codes (R92). -/
def Scope.ofCode (n : BitVec 2) : Option Scope :=
  match n.toNat with
  | 0 => some .team | 1 => some .die | 2 => some .pkg | 3 => some .sys | _ => none

/-- The size codes (R94). -/
def MSize.code (x : MSize) : BitVec 3 :=
  match x with
  | .b8 => 0 | .b16 => 1 | .b32 => 2 | .b64 => 3 | .b128 => 4

/-- Reading the size codes (R94). -/
def MSize.ofCode (n : BitVec 3) : Option MSize :=
  match n.toNat with
  | 0 => some .b8 | 1 => some .b16 | 2 => some .b32 | 3 => some .b64 | 4 => some .b128 | _ => none

/-- The space codes that blkd admits (R187). -/
def Space.code (x : Space) : BitVec 2 :=
  match x with
  | .global => 0 | .scratch => 1

/-- Reading the space codes that blkd admits (R187). -/
def Space.ofCode (n : BitVec 2) : Option Space :=
  match n.toNat with
  | 0 => some .global | 1 => some .scratch | _ => none

/-- The kind codes (R240). -/
def MKind.code (x : MKind) : BitVec 2 :=
  match x with
  | .i8 => 0 | .i4 => 1 | .ts => 2 | .h16 => 3

/-- Reading the kind codes (R240). -/
def MKind.ofCode (n : BitVec 2) : Option MKind :=
  match n.toNat with
  | 0 => some .i8 | 1 => some .i4 | 2 => some .ts | 3 => some .h16 | _ => none

/-- The special register numbers (R173). -/
def SReg.code (x : SReg) : BitVec 8 :=
  match x with
  | .tidX => 0 | .tidY => 1 | .tidZ => 2 | .teamX => 3 | .teamY => 4 | .teamZ => 5 | .gridX => 6
  | .gridY => 7 | .gridZ => 8 | .lane => 9 | .core => 10 | .lcore => 11 | .die => 12 | .launch => 13
  | .depth => 14 | .swarm => 15 | .time => 16 | .clock => 17

/-- Reading the special register numbers (R173). -/
def SReg.ofCode (n : BitVec 8) : Option SReg :=
  match n.toNat with
  | 0 => some .tidX | 1 => some .tidY | 2 => some .tidZ | 3 => some .teamX | 4 => some .teamY
  | 5 => some .teamZ | 6 => some .gridX | 7 => some .gridY | 8 => some .gridZ | 9 => some .lane
  | 10 => some .core | 11 => some .lcore | 12 => some .die | 13 => some .launch | 14 => some .depth
  | 15 => some .swarm | 16 => some .time | 17 => some .clock | _ => none

/-- The control register numbers (R371). -/
def CReg.code (x : CReg) : BitVec 16 :=
  match x with
  | .regroupage => 1 | .mxpstall => 2 | .issueshape => 3

/-- Reading the control register numbers (R371). -/
def CReg.ofCode (n : BitVec 16) : Option CReg :=
  match n.toNat with
  | 1 => some .regroupage | 2 => some .mxpstall | 3 => some .issueshape | _ => none

/-- The control part of a word (R89). -/
def Ctl.of (f : Fields) : Ctl := { pr := f.pr, pn := flag f.pn, st := f.st }

/-- A word of one op and sub under a control part. -/
def frame (op : BitVec 8) (sub : BitVec 4) (c : Ctl) (low : BitVec 42) : W64 :=
  Fields.toWord { op := op, sub := sub, pr := c.pr, pn := bit c.pn, st := c.st, low := low }

/-- The slot that a matrix instruction sets: SETV = 0 with a nonzero set field raises ILL (R239). -/
def XCtl.ofFmt (f : FmtX) : Option XCtl :=
  if flag f.setv then some { acc := f.acc, set := some f.set, wait := f.wait }
  else need (f.set == 0) (some { acc := f.acc, set := none, wait := f.wait })

def XCtl.toFmt (x : XCtl) (a b : Reg) (m : BitVec 10) : FmtX :=
  match x.set with
  | some s => { acc := x.acc, setv := 1, set := s, a := a, b := b, wait := x.wait, m := m }
  | none => { acc := x.acc, setv := 0, set := 0, a := a, b := b, wait := x.wait, m := m }

/-- The m field of a matrix product (R240). -/
def MMods.ofBits (m : BitVec 10) : Option MMods :=
  let x := MX.of m
  match MKind.ofCode x.kind with
  | none => none
  | some k => need (x.rsv == 0)
      (some { kind := k, asg := flag x.asg, bsg := flag x.bsg, af16 := flag x.af16, bf16 := flag x.bf16,
              sat := flag x.sat })

def MMods.bits (x : MMods) : BitVec 10 :=
  MX.bits { kind := x.kind.code, asg := bit x.asg, bsg := bit x.bsg, af16 := bit x.af16, bf16 := bit x.bf16,
            sat := bit x.sat, rsv := 0 }

/-- bN of a copy or transfer: c[0] is NOB, and NOB = 1 with a nonzero bN raises ILL (R230, R315). -/
def bnOf (nob : Bool) (bn : BitVec 4) : Option (Option (BitVec 4)) :=
  if nob then need (bn == 0) (some none) else some (some bn)

def nobBit (bn : Option (BitVec 4)) : Bool := bn.isNone

def bnBits (bn : Option (BitVec 4)) : BitVec 4 := bn.getD 0

/-- The SC and S part of cvt's c field (R183). -/
structure CvtC where
  rsv : BitVec 3
  sc : BitVec 1
  s : BitVec 4
deriving DecidableEq, Repr

def CvtC.of (c : Reg) : CvtC := { rsv := c.extractLsb' 5 3, sc := c.extractLsb' 4 1, s := c.extractLsb' 0 4 }

def CvtC.bits (x : CvtC) : Reg := x.rsv ++ x.sc ++ x.s

/-- The selector of shfl (R128). -/
def ShflSel.of (b : Reg) (m : BitVec 10) : Option ShflSel :=
  if m.extractLsb' 6 4 != 0 then none
  else if m.extractLsb' 5 1 == 1 then need (b == 0) (some (.imm (m.extractLsb' 0 5)))
  else need (m.extractLsb' 0 5 == 0) (some (.reg b))

def ShflSel.b (s : ShflSel) : Reg := match s with | .reg b => b | .imm _ => 0

def ShflSel.m (s : ShflSel) : BitVec 10 :=
  match s with | .reg _ => 0 | .imm n => (0 : BitVec 4) ++ (1 : BitVec 1) ++ n

/-- The scale operand of cvt: b names a register when SC = 1 and is 0 otherwise (R183). -/
def cvtScale (sc : Bool) (b : Reg) : Option (Option Reg) :=
  if sc then some (some b) else need (b == 0) (some none)

/-! ## The opcode map (R96): every other op and sub raises ILL (R97) -/

/-- Ops 0x00 to 0x1F (R119). -/
def decodeControl (f : Fields) (c : Ctl) : Option Instr :=
  match f.op.toNat, f.sub.toNat with
  | 0x00, 0 =>
      let x := FmtI.ofLow f.low
      need (x.d == 0 && x.a == 0 && x.imm == 0)
        (some (.nop c))
  | 0x01, 0 =>
      let x := FmtI.ofLow f.low
      need (x.d == 0 && x.a == 0)
        (some (.bra c x.imm))
  | 0x02, 0 =>
      let x := FmtI.ofLow f.low
      need (x.d == 0 && x.imm == 0)
        (some (.brx c x.a))
  | 0x03, 0 =>
      let x := FmtI.ofLow f.low
      need (x.a == 0)
        (some (.call c x.d x.imm))
  | 0x04, 0 =>
      let x := FmtI.ofLow f.low
      need (x.d == 0 && x.imm == 0)
        (some (.ret c x.a))
  | 0x05, 0 =>
      let x := FmtI.ofLow f.low
      need (x.d == 0 && x.a == 0 && x.imm == 0)
        (some (.exit c))
  | 0x06, 0 =>
      let x := FmtI.ofLow f.low
      need (x.d == 0 && x.a == 0 && x.imm == 0)
        (some (.reform c))
  | 0x07, 0 =>
      let x := FmtI.ofLow f.low
      need (x.d == 0 && x.a == 0 && x.imm == 0)
        (some (.rejoin c))
  | 0x08, 0 =>
      let x := FmtI.ofLow f.low
      need (x.d == 0 && x.a == 0 && x.imm == 0)
        (some (.yield c))
  | _, _ => none

/-- Ops 0x20 to 0x2F (R165). -/
def decodeIntegerLow (f : Fields) (c : Ctl) : Option Instr :=
  match f.op.toNat, f.sub.toNat with
  | 0x20, 0 =>
      let x := FmtA.ofLow f.low
      let m := MA.of x.m
      (ITy.ofCode m.ty).bind fun t =>
      need (x.c == 0 && m.rnd == 0 && m.ovf == 0)
        (some (.add c x.d x.a x.b t (flag m.lo)))
  | 0x20, 1 =>
      let x := FmtI.ofLow f.low
      some (.addI c x.d x.a x.imm)
  | 0x21, 0 =>
      let x := FmtA.ofLow f.low
      let m := MA.of x.m
      (ITy.ofCode m.ty).bind fun t =>
      need (x.c == 0 && m.rnd == 0 && m.ovf == 0)
        (some (.sub c x.d x.a x.b t (flag m.lo)))
  | 0x22, 0 =>
      let x := FmtA.ofLow f.low
      let m := MA.of x.m
      (ITy.ofCode m.ty).bind fun t =>
      need (x.c == 0 && m.rnd == 0 && m.ovf == 0)
        (some (.mul c x.d x.a x.b t (flag m.lo)))
  | 0x22, 1 =>
      let x := FmtI.ofLow f.low
      some (.mulI c x.d x.a x.imm)
  | 0x23, 0 =>
      let x := FmtA.ofLow f.low
      let m := MA.of x.m
      (ITy.ofCode m.ty).bind fun t =>
      need (x.c == 0 && m.rnd == 0 && m.ovf == 0 && m.lo == 0)
        (some (.mulhi c x.d x.a x.b t))
  | 0x24, 0 =>
      let x := FmtA.ofLow f.low
      let m := MA.of x.m
      (ITy.ofCode m.ty).bind fun t =>
      need (m.rnd == 0 && m.ovf == 0)
        (some (.mad c x.d x.a x.b x.c t (flag m.lo)))
  | 0x25, 0 =>
      let x := FmtA.ofLow f.low
      let m := MA.of x.m
      (ITy.ofCode m.ty).bind fun t =>
      need (x.c == 0 && m.rnd == 0 && m.ovf == 0 && m.lo == 0)
        (some (.div c x.d x.a x.b t))
  | 0x26, 0 =>
      let x := FmtA.ofLow f.low
      let m := MA.of x.m
      (ITy.ofCode m.ty).bind fun t =>
      need (x.c == 0 && m.rnd == 0 && m.ovf == 0 && m.lo == 0)
        (some (.rem c x.d x.a x.b t))
  | 0x27, 0 =>
      let x := FmtA.ofLow f.low
      let m := MA.of x.m
      (ITy.ofCode m.ty).bind fun t =>
      need (x.c == 0 && m.rnd == 0 && m.ovf == 0 && m.lo == 0)
        (some (.min c x.d x.a x.b t))
  | 0x28, 0 =>
      let x := FmtA.ofLow f.low
      let m := MA.of x.m
      (ITy.ofCode m.ty).bind fun t =>
      need (x.c == 0 && m.rnd == 0 && m.ovf == 0 && m.lo == 0)
        (some (.max c x.d x.a x.b t))
  | 0x29, 0 =>
      let x := FmtA.ofLow f.low
      let m := MA.of x.m
      need (x.b == 0 && x.c == 0 && m.ty == 0 && m.rnd == 0 && m.ovf == 0)
        (some (.abs c x.d x.a (flag m.lo)))
  | 0x2A, 0 =>
      let x := FmtA.ofLow f.low
      let m := MA.of x.m
      (ITy.ofCode m.ty).bind fun t =>
      need (x.b == 0 && x.c == 0 && m.rnd == 0 && m.ovf == 0)
        (some (.neg c x.d x.a t (flag m.lo)))
  | 0x2B, 0 =>
      let x := FmtA.ofLow f.low
      need (x.c == 0 && x.m == 0)
        (some (.and c x.d x.a x.b))
  | 0x2B, 1 =>
      let x := FmtI.ofLow f.low
      some (.andI c x.d x.a x.imm)
  | 0x2C, 0 =>
      let x := FmtA.ofLow f.low
      need (x.c == 0 && x.m == 0)
        (some (.or c x.d x.a x.b))
  | 0x2C, 1 =>
      let x := FmtI.ofLow f.low
      some (.orI c x.d x.a x.imm)
  | 0x2D, 0 =>
      let x := FmtA.ofLow f.low
      need (x.c == 0 && x.m == 0)
        (some (.xor c x.d x.a x.b))
  | 0x2D, 1 =>
      let x := FmtI.ofLow f.low
      some (.xorI c x.d x.a x.imm)
  | 0x2E, 0 =>
      let x := FmtA.ofLow f.low
      need (x.b == 0 && x.c == 0 && x.m == 0)
        (some (.not c x.d x.a))
  | 0x2F, 0 =>
      let x := FmtA.ofLow f.low
      need (x.c == 0 && x.m == 0)
        (some (.shl c x.d x.a x.b))
  | 0x2F, 1 =>
      let x := FmtI.ofLow f.low
      some (.shlI c x.d x.a x.imm)
  | _, _ => none

/-- Ops 0x30 to 0x3F (R165). -/
def decodeIntegerHigh (f : Fields) (c : Ctl) : Option Instr :=
  match f.op.toNat, f.sub.toNat with
  | 0x30, 0 =>
      let x := FmtA.ofLow f.low
      need (x.c == 0 && x.m == 0)
        (some (.shr c x.d x.a x.b))
  | 0x30, 1 =>
      let x := FmtI.ofLow f.low
      some (.shrI c x.d x.a x.imm)
  | 0x31, 0 =>
      let x := FmtA.ofLow f.low
      need (x.c == 0 && x.m == 0)
        (some (.sar c x.d x.a x.b))
  | 0x31, 1 =>
      let x := FmtI.ofLow f.low
      some (.sarI c x.d x.a x.imm)
  | 0x32, 0 =>
      let x := FmtA.ofLow f.low
      need (x.c == 0 && x.m == 0)
        (some (.rot c x.d x.a x.b))
  | 0x32, 1 =>
      let x := FmtI.ofLow f.low
      some (.rotI c x.d x.a x.imm)
  | 0x33, 0 =>
      let x := FmtA.ofLow f.low
      need (x.b == 0 && x.c == 0 && x.m == 0)
        (some (.clz c x.d x.a))
  | 0x34, 0 =>
      let x := FmtA.ofLow f.low
      need (x.b == 0 && x.c == 0 && x.m == 0)
        (some (.popc c x.d x.a))
  | 0x35, 0 =>
      let x := FmtA.ofLow f.low
      need (x.b == 0 && x.c == 0 && x.m == 0)
        (some (.brev c x.d x.a))
  | 0x36, 0 =>
      let x := FmtA.ofLow f.low
      let m := MA.of x.m
      (ITy.ofCode m.ty).bind fun t =>
      need (m.rnd == 0 && m.ovf == 0 && m.lo == 0)
        (some (.bfe c x.d x.a x.b x.c t))
  | 0x37, 0 =>
      let x := FmtA.ofLow f.low
      need (x.m == 0)
        (some (.bfi c x.d x.a x.b x.c))
  | 0x38, 0 =>
      let x := FmtA.ofLow f.low
      need (x.m == 0)
        (some (.sel c x.d x.a x.b x.c))
  | 0x39, _ =>
      let x := FmtA.ofLow f.low
      let m := MA.of x.m
      (IRel.ofCode f.sub).bind fun rel =>
      (WTy.ofCode m.ty).bind fun t =>
      need (x.c == 0 && m.rnd == 0 && m.ovf == 0 && m.lo == 0)
        (some (.icmp c rel x.d x.a x.b t))
  | 0x3A, 0 =>
      let x := FmtA.ofLow f.low
      let m := MA.of x.m
      (ITy.ofCode m.ty).bind fun t =>
      need (m.rnd == 0 && m.ovf == 0 && m.lo == 0)
        (some (.lea c x.d x.a x.b x.c t))
  | 0x3B, 0 =>
      let x := FmtA.ofLow f.low
      need (x.c == 0 && x.m == 0)
        (some (.add64 c x.d x.a x.b))
  | 0x3B, 1 =>
      let x := FmtI.ofLow f.low
      some (.add64I c x.d x.a x.imm)
  | 0x3C, 0 =>
      let x := FmtA.ofLow f.low
      let m := MA.of x.m
      (WTy.ofCode m.ty).bind fun t =>
      need (x.b == 0 && x.c == 0 && m.rnd == 0 && m.ovf == 0 && m.lo == 0)
        (some (.mov c x.d x.a t))
  | 0x3C, 1 =>
      let x := FmtA.ofLow f.low
      let m := MA.of x.m
      (WTy.ofCode m.ty).bind fun t =>
      need (x.b == 0 && x.c == 0 && m.rnd == 0 && m.ovf == 0 && m.lo == 0)
        (some (.movS c x.d x.a t))
  | 0x3D, 0 =>
      let x := FmtL.ofLow f.low
      need (x.rsv == 0)
        (some (.movi c x.d x.imm))
  | 0x3E, 0 =>
      let x := FmtA.ofLow f.low
      (SReg.ofCode x.b).bind fun r =>
      need (x.a == 0 && x.c == 0 && x.m == 0)
        (some (.sread c x.d r))
  | 0x3F, 0 =>
      let x := FmtA.ofLow f.low
      let m := MA.of x.m
      (WTy.ofCode m.ty).bind fun t =>
      need (x.b == 0 && x.c == 0 && m.rnd == 0 && m.ovf == 0 && m.lo == 0)
        (some (.swrite c x.d x.a t))
  | _, _ => none

/-- Ops 0x40 to 0x5F (R176). -/
def decodeFloat (f : Fields) (c : Ctl) : Option Instr :=
  match f.op.toNat, f.sub.toNat with
  | 0x40, 0 =>
      let x := FmtA.ofLow f.low
      let m := MA.of x.m
      (FTy.ofCode m.ty).bind fun t =>
      (Rnd.ofCode m.rnd).bind fun rnd =>
      need (x.c == 0 && m.ovf == 0)
        (some (.fadd c x.d x.a x.b t rnd (flag m.lo)))
  | 0x41, 0 =>
      let x := FmtA.ofLow f.low
      let m := MA.of x.m
      (FTy.ofCode m.ty).bind fun t =>
      (Rnd.ofCode m.rnd).bind fun rnd =>
      need (x.c == 0 && m.ovf == 0)
        (some (.fsub c x.d x.a x.b t rnd (flag m.lo)))
  | 0x42, 0 =>
      let x := FmtA.ofLow f.low
      let m := MA.of x.m
      (FTy.ofCode m.ty).bind fun t =>
      (Rnd.ofCode m.rnd).bind fun rnd =>
      need (x.c == 0 && m.ovf == 0)
        (some (.fmul c x.d x.a x.b t rnd (flag m.lo)))
  | 0x43, 0 =>
      let x := FmtA.ofLow f.low
      let m := MA.of x.m
      (FTy.ofCode m.ty).bind fun t =>
      (Rnd.ofCode m.rnd).bind fun rnd =>
      need (m.ovf == 0)
        (some (.fma c x.d x.a x.b x.c t rnd (flag m.lo)))
  | 0x44, 0 =>
      let x := FmtA.ofLow f.low
      let m := MA.of x.m
      (FTy.ofCode m.ty).bind fun t =>
      need (x.c == 0 && m.rnd == 0 && m.ovf == 0)
        (some (.fmin c x.d x.a x.b t (flag m.lo)))
  | 0x45, 0 =>
      let x := FmtA.ofLow f.low
      let m := MA.of x.m
      (FTy.ofCode m.ty).bind fun t =>
      need (x.c == 0 && m.rnd == 0 && m.ovf == 0)
        (some (.fmax c x.d x.a x.b t (flag m.lo)))
  | 0x46, _ =>
      let x := FmtA.ofLow f.low
      let m := MA.of x.m
      (FRel.ofCode f.sub).bind fun rel =>
      (FTy.ofCode m.ty).bind fun t =>
      need (x.c == 0 && m.rnd == 0 && m.ovf == 0)
        (some (.fcmp c rel x.d x.a x.b t (flag m.lo)))
  | 0x47, 0 =>
      let x := FmtA.ofLow f.low
      let m := MA.of x.m
      (FTy.ofCode m.ty).bind fun t =>
      need (x.b == 0 && x.c == 0 && m.rnd == 0 && m.ovf == 0 && m.lo == 0)
        (some (.fclass c x.d x.a t))
  | 0x48, 0 =>
      let x := FmtA.ofLow f.low
      let m := MA.of x.m
      (FTy.ofCode m.ty).bind fun t =>
      (Rnd.ofCode m.rnd).bind fun rnd =>
      need (x.b == 0 && x.c == 0 && m.ovf == 0 && m.lo == 0)
        (some (.frnd c x.d x.a t rnd))
  | 0x49, 0 =>
      let x := FmtA.ofLow f.low
      let m := MA.of x.m
      (FTy.ofCode m.ty).bind fun t =>
      (Rnd.ofCode m.rnd).bind fun rnd =>
      need (x.b == 0 && x.c == 0 && m.ovf == 0)
        (some (.fsqrt c x.d x.a t rnd (flag m.lo)))
  | 0x4A, 0 =>
      let x := FmtA.ofLow f.low
      let m := MA.of x.m
      need (x.b == 0 && x.c == 0 && m.ty == 8 && m.rnd == 0 && m.ovf == 0)
        (some (.frcp c x.d x.a (flag m.lo)))
  | 0x4B, 0 =>
      let x := FmtA.ofLow f.low
      let m := MA.of x.m
      need (x.b == 0 && x.c == 0 && m.ty == 8 && m.rnd == 0 && m.ovf == 0)
        (some (.frsq c x.d x.a (flag m.lo)))
  | 0x4C, 0 =>
      let x := FmtA.ofLow f.low
      let m := MA.of x.m
      need (x.b == 0 && x.c == 0 && m.ty == 8 && m.rnd == 0 && m.ovf == 0)
        (some (.fexp2 c x.d x.a (flag m.lo)))
  | 0x4D, 0 =>
      let x := FmtA.ofLow f.low
      let m := MA.of x.m
      need (x.b == 0 && x.c == 0 && m.ty == 8 && m.rnd == 0 && m.ovf == 0)
        (some (.flog2 c x.d x.a (flag m.lo)))
  | 0x4E, 0 =>
      let x := FmtA.ofLow f.low
      let m := MA.of x.m
      need (x.b == 0 && x.c == 0 && m.ty == 8 && m.rnd == 0 && m.ovf == 0)
        (some (.fsinp c x.d x.a (flag m.lo)))
  | 0x4F, 0 =>
      let x := FmtA.ofLow f.low
      let m := MA.of x.m
      need (x.b == 0 && x.c == 0 && m.ty == 8 && m.rnd == 0 && m.ovf == 0)
        (some (.fcosp c x.d x.a (flag m.lo)))
  | 0x50, 0 =>
      let x := FmtA.ofLow f.low
      let m := MA.of x.m
      (PTy.ofCode m.ty).bind fun t =>
      (Rnd.ofCode m.rnd).bind fun rnd =>
      need (x.c == 0 && m.ovf == 0)
        (some (.hadd2 c x.d x.a x.b t rnd (flag m.lo)))
  | 0x51, 0 =>
      let x := FmtA.ofLow f.low
      let m := MA.of x.m
      (PTy.ofCode m.ty).bind fun t =>
      (Rnd.ofCode m.rnd).bind fun rnd =>
      need (x.c == 0 && m.ovf == 0)
        (some (.hmul2 c x.d x.a x.b t rnd (flag m.lo)))
  | 0x52, 0 =>
      let x := FmtA.ofLow f.low
      let m := MA.of x.m
      (PTy.ofCode m.ty).bind fun t =>
      (Rnd.ofCode m.rnd).bind fun rnd =>
      need (m.ovf == 0)
        (some (.hfma2 c x.d x.a x.b x.c t rnd (flag m.lo)))
  | 0x53, 0 =>
      let x := FmtA.ofLow f.low
      let m := MD.of x.m
      need (m.rsv == 0)
        (some (.dot4 c x.d x.a x.b x.c (flag m.asg) (flag m.bsg) (flag m.sat)))
  | 0x54, 0 =>
      let x := FmtA.ofLow f.low
      let m := MA.of x.m
      need (m.ty == 0 && m.rnd == 0 && m.ovf == 0)
        (some (.dotts c x.d x.a x.b x.c (flag m.lo)))
  | _, _ => none

/-- Ops 0x60 to 0x6F (R183, R187). -/
def decodeConvert (f : Fields) (c : Ctl) : Option Instr :=
  match f.op.toNat, f.sub.toNat with
  | 0x60, 0 =>
      let x := FmtA.ofLow f.low
      let m := MA.of x.m
      let q := CvtC.of x.c
      (CTy.ofCode m.ty).bind fun dt =>
      (Rnd.ofCode m.rnd).bind fun rnd =>
      (Ovf.ofCode m.ovf).bind fun ovf =>
      (CTy.ofCode q.s).bind fun srcT =>
      (cvtScale (flag q.sc) x.b).bind fun sc =>
      need (q.rsv == 0)
        (some (.cvt c x.d x.a dt srcT rnd ovf (flag m.lo) sc))
  | 0x61, 0 =>
      let x := FmtA.ofLow f.low
      let m := MA.of x.m
      (FTy.ofCode m.ty).bind fun t =>
      need (x.b == 0 && x.c == 0 && m.rnd == 0 && m.ovf == 0)
        (some (.cvtts c x.d x.a t (flag m.lo)))
  | 0x62, 0 =>
      let x := FmtA.ofLow f.low
      let m := MA.of x.m
      (KTy.ofCode m.ty).bind fun t =>
      (Rnd.ofCode m.rnd).bind fun rnd =>
      (Ovf.ofCode m.ovf).bind fun ovf =>
      need (x.b == 0 && x.c == 0)
        (some (.pack c x.d x.a t rnd ovf (flag m.lo)))
  | 0x63, 0 =>
      let x := FmtA.ofLow f.low
      let m := MA.of x.m
      (KTy.ofCode m.ty).bind fun t =>
      need (x.c == 0 && m.rnd == 0 && m.ovf == 0 && m.lo == 0)
        (some (.unpack c x.d x.a x.b t))
  | 0x64, 0 =>
      let x := FmtM.ofLow f.low
      let m := MM.of x.m
      (Space.ofCode m.space).bind fun sp =>
      (Scope.ofCode m.scope).bind fun sc =>
      need (m.size == 1 && m.sb == 0 && m.fam1 == 0 && m.fam0 == 0)
        (some (.blkdRd c x.d x.a x.off sp sc))
  | 0x64, 1 =>
      let x := FmtM.ofLow f.low
      let m := MM.of x.m
      (Space.ofCode m.space).bind fun sp =>
      (Scope.ofCode m.scope).bind fun sc =>
      need (m.size == 1 && m.sb == 0 && m.fam1 == 0 && m.fam0 == 0)
        (some (.blkdSet c x.d x.a x.off sp sc))
  | _, _ => none

/-- Ops 0x70 to 0x7F (R128). -/
def decodeLane (f : Fields) (c : Ctl) : Option Instr :=
  match f.op.toNat, f.sub.toNat with
  | 0x70, _ =>
      let x := FmtA.ofLow f.low
      let m := MB.of x.m
      (POp.ofCode f.sub).bind fun op =>
      need (x.c == 0 && m.rsv == 0 && m.b1 == 0)
        (some (.plog c op x.d x.a x.b (flag m.b0)))
  | 0x71, 0 =>
      let x := FmtA.ofLow f.low
      let m := MB.of x.m
      need (x.b == 0 && x.c == 0 && m.rsv == 0 && m.b1 == 0)
        (some (.pmov c x.d x.a (flag m.b0)))
  | 0x71, 1 =>
      let x := FmtA.ofLow f.low
      need (x.a == 0 && x.b == 0 && x.c == 0 && x.m == 0)
        (some (.pmovTow c x.d))
  | 0x71, 2 =>
      let x := FmtA.ofLow f.low
      need (x.d == 0 && x.b == 0 && x.c == 0 && x.m == 0)
        (some (.pmovFromw c x.a))
  | 0x72, _ =>
      let x := FmtA.ofLow f.low
      let m := MB.of x.m
      (VoteOp.ofCode f.sub).bind fun op =>
      need (x.b == 0 && x.c == 0 && m.rsv == 0 && m.b1 == 0)
        (some (.vote c op x.d x.a (flag m.b0)))
  | 0x73, 0 =>
      let x := FmtA.ofLow f.low
      let m := MB.of x.m
      need (x.b == 0 && x.c == 0 && m.rsv == 0 && m.b1 == 0)
        (some (.ballot c x.d x.a (flag m.b0)))
  | 0x74, _ =>
      let x := FmtA.ofLow f.low
      (ShflOp.ofCode f.sub).bind fun op =>
      (ShflSel.of x.b x.m).bind fun sel =>
      need (x.c == 0)
        (some (.shfl c op x.d x.a sel))
  | 0x75, _ =>
      let x := FmtA.ofLow f.low
      let m := MA.of x.m
      (ReduxOp.ofCode f.sub).bind fun op =>
      (RTy.ofCode m.ty).bind fun t =>
      (Rnd.ofCode m.rnd).bind fun rnd =>
      need (x.b == 0 && x.c == 0 && m.ovf == 0)
        (some (.redux c op t x.d x.a rnd (flag m.lo)))
  | _, _ => none

/-- Ops 0x80 to 0x9F (R211 to R215). -/
def decodeMemory (f : Fields) (c : Ctl) : Option Instr :=
  match f.op.toNat, f.sub.toNat with
  | 0x80, 0 =>
      let x := FmtM.ofLow f.low
      let m := MM.of x.m
      (MSize.ofCode m.size).bind fun sz =>
      (Scope.ofCode m.scope).bind fun sc =>
      need (m.space == 0 && m.sb == 0)
        (some (.ld c x.d x.a x.off sz sc (flag m.fam0) (flag m.fam1)))
  | 0x81, 0 =>
      let x := FmtM.ofLow f.low
      let m := MM.of x.m
      (MSize.ofCode m.size).bind fun sz =>
      (Scope.ofCode m.scope).bind fun sc =>
      need (m.space == 0 && m.sb == 0 && m.fam1 == 0 && m.fam0 == 0)
        (some (.st c x.d x.a x.off sz sc))
  | 0x82, 0 =>
      let x := FmtM.ofLow f.low
      let m := MM.of x.m
      (MSize.ofCode m.size).bind fun sz =>
      need (m.space == 2 && m.sb == 1 && m.scope == 0 && m.fam0 == 0)
        (some (.ldc c x.d x.a x.off sz (flag m.fam1)))
  | 0x83, 0 =>
      let x := FmtM.ofLow f.low
      let m := MM.of x.m
      (Scope.ofCode m.scope).bind fun sc =>
      need (x.d == 0 && m.size == 0 && m.space == 0 && m.sb == 0 && m.fam1 == 0)
        (some (if flag m.fam0 then .prefTr c x.a x.off sc else .pref c x.a x.off sc))
  | 0x84, 0 =>
      let x := FmtM.ofLow f.low
      let m := MM.of x.m
      (Scope.ofCode m.scope).bind fun sc =>
      need (x.d == 0 && m.size == 0 && m.space == 0 && m.sb == 0 && m.fam1 == 0)
        (some (if flag m.fam0 then .pmigPool c x.a x.off sc else .pmigComb c x.a x.off sc))
  | 0x85, 0 =>
      let x := FmtM.ofLow f.low
      let m := MM.of x.m
      (Scope.ofCode m.scope).bind fun sc =>
      need (x.d == 0 && x.a == 0 && x.off == 0 && m.size == 0 && m.space == 0 && m.sb == 0 && m.fam1 == 0 && m.fam0 == 0)
        (some (.fence c sc))
  | 0x86, 0 =>
      let x := FmtA.ofLow f.low
      need (x.d == 0 && x.c == 0 && x.m == 0)
        (some (.tlbfill c x.a x.b))
  | 0x87, 0 =>
      let x := FmtA.ofLow f.low
      let m := MB.of x.m
      need (x.d == 0 && x.b == 0 && x.c == 0 && m.rsv == 0)
        (if m.b1 == 0 && m.b0 == 0 then some (.tlbinvPg c x.a)
         else if m.b1 == 0 then need (x.a == 0) (some (.tlbinvAsid c))
         else need (x.a == 0 && m.b0 == 0) (some (.tlbinvAll c)))
  | 0x88, 0 =>
      let x := FmtA.ofLow f.low
      need (x.d == 0 && x.b == 0 && x.c == 0 && x.m == 0)
        (some (.wret c x.a))
  | _, _ => none

/-- Ops 0xA0 to 0xAF (R274). -/
def decodeAtomic (f : Fields) (c : Ctl) : Option Instr :=
  match f.op.toNat, f.sub.toNat with
  | 0xA0, _ =>
      let x := FmtA.ofLow f.low
      let m := MT.of x.m
      (AOp.ofCode f.sub).bind fun op =>
      (ATy.ofCode m.ty).bind fun t =>
      (Order.ofCode m.order).bind fun o =>
      (Scope.ofCode m.scope).bind fun sc =>
      need (x.c == 0 && m.rsv == 0)
        (some (.atom c op t o sc x.d x.a x.b))
  | 0xA1, 0 =>
      let x := FmtA.ofLow f.low
      let m := MT.of x.m
      (ATy.ofCode m.ty).bind fun t =>
      (Order.ofCode m.order).bind fun o =>
      (Scope.ofCode m.scope).bind fun sc =>
      need (m.rsv == 0)
        (some (.cas c t o sc x.d x.a x.b x.c))
  | 0xA2, _ =>
      let x := FmtA.ofLow f.low
      let m := MT.of x.m
      (RedOp.ofCode f.sub).bind fun op =>
      (ATy.ofCode m.ty).bind fun t =>
      (RedOrder.ofCode m.order).bind fun o =>
      (Scope.ofCode m.scope).bind fun sc =>
      need (x.d == 0 && x.c == 0 && m.rsv == 0)
        (some (.red c op t o sc x.a x.b))
  | _, _ => none

/-- Ops 0xB0 to 0xBF (R220, R223, R227, R230, R236). -/
def decodeScratch (f : Fields) (c : Ctl) : Option Instr :=
  match f.op.toNat, f.sub.toNat with
  | 0xB0, 0 =>
      let x := FmtM.ofLow f.low
      let m := MM.of x.m
      (MSize.ofCode m.size).bind fun sz =>
      need (m.space == 1 && m.sb == 0 && m.scope == 0 && m.fam0 == 0)
        (some (.lds c x.d x.a x.off sz (flag m.fam1)))
  | 0xB1, 0 =>
      let x := FmtM.ofLow f.low
      let m := MM.of x.m
      (MSize.ofCode m.size).bind fun sz =>
      need (m.space == 1 && m.sb == 0 && m.scope == 0 && m.fam1 == 0 && m.fam0 == 0)
        (some (.sts c x.d x.a x.off sz))
  | 0xB2, 0 =>
      let x := FmtA.ofLow f.low
      need (x.b == 0 && x.c == 0 && x.m == 0)
        (some (.sptagLook c x.d x.a))
  | 0xB2, 1 =>
      let x := FmtA.ofLow f.low
      need (x.c == 0 && x.m == 0)
        (some (.sptagSet c x.d x.a x.b))
  | 0xB2, 2 =>
      let x := FmtA.ofLow f.low
      need (x.b == 0 && x.c == 0 && x.m == 0)
        (some (.sptagClr c x.d x.a))
  | 0xB3, 0 =>
      let x := FmtT.ofLow f.low
      let q := CB.of x.c
      (Scope.ofCode x.scope).bind fun sc =>
      (bnOf (flag q.b0) x.bn).bind fun bn =>
      need (x.batch == 0 && q.rsv == 0 && q.b1 == 0)
        (some (.tcopy c x.d x.a x.b bn sc))
  | 0xB4, 0 =>
      let x := FmtT.ofLow f.low
      let q := CB.of x.c
      (Scope.ofCode x.scope).bind fun sc =>
      (bnOf (flag q.b0) x.bn).bind fun bn =>
      need (x.batch == 0 && q.rsv == 0 && q.b1 == 0)
        (some (.tstore c x.d x.a x.b bn sc))
  | 0xB5, 0 =>
      let x := FmtT.ofLow f.low
      need (x.d == 0 && x.a == 0 && x.b == 0 && x.c == 0 && x.bn == 0 && x.scope == 0)
        (some (.cseal c x.batch))
  | 0xB6, 0 =>
      let x := FmtT.ofLow f.low
      need (x.d == 0 && x.a == 0 && x.b == 0 && x.c == 0 && x.bn == 0 && x.scope == 0)
        (some (.cwait c x.batch))
  | 0xB7, 0 =>
      let x := FmtT.ofLow f.low
      let q := CB.of x.c
      need (x.d == 0 && x.b == 0 && x.batch == 0 && x.scope == 0 && q.rsv == 0 && q.b1 == 0)
        (some (.barInit c x.bn x.a (flag q.b0)))
  | 0xB7, 1 =>
      let x := FmtT.ofLow f.low
      let q := CB.of x.c
      need (x.d == 0 && x.a == 0 && x.b == 0 && x.batch == 0 && x.scope == 0 && q.rsv == 0 && q.b1 == 0)
        (some (.barArrive c x.bn (flag q.b0)))
  | 0xB7, 2 =>
      let x := FmtT.ofLow f.low
      need (x.d == 0 && x.a == 0 && x.b == 0 && x.c == 0 && x.batch == 0 && x.scope == 0)
        (some (.barWait c x.bn))
  | _, _ => none

/-- Ops 0xC0 to 0xCF (R239). -/
def decodeMatrix (f : Fields) (c : Ctl) : Option Instr :=
  match f.op.toNat, f.sub.toNat with
  | 0xC0, 0 =>
      let x := FmtX.ofLow f.low
      (XCtl.ofFmt x).bind fun xc =>
      (MMods.ofBits x.m).bind fun m =>
      some (.mma c xc x.a x.b m)
  | 0xC1, 0 =>
      let x := FmtX.ofLow f.low
      (XCtl.ofFmt x).bind fun xc =>
      (MMods.ofBits x.m).bind fun m =>
      some (.mmag c xc x.a x.b m)
  | 0xC2, 0 =>
      let x := FmtX.ofLow f.low
      (XCtl.ofFmt x).bind fun xc =>
      (MMods.ofBits x.m).bind fun m =>
      some (.mms c xc x.a x.b m)
  | 0xC3, 0 =>
      let x := FmtX.ofLow f.low
      (XCtl.ofFmt x).bind fun xc =>
      need (x.a == 0 && x.b == 0 && x.m == 0)
        (some (.accz c xc))
  | 0xC4, 0 =>
      let x := FmtX.ofLow f.low
      (XCtl.ofFmt x).bind fun xc =>
      need (x.b == 0 && x.m == 0)
        (some (.accld c xc x.a))
  | 0xC5, 0 =>
      let x := FmtX.ofLow f.low
      let m := MB.of x.m
      (XCtl.ofFmt x).bind fun xc =>
      need (x.b == 0 && m.rsv == 0)
        (some (.accst c xc x.a (flag m.b1) (flag m.b0)))
  | 0xC6, 0 =>
      let x := FmtX.ofLow f.low
      let m := MA.of x.m
      (DTy.ofCode m.ty).bind fun t =>
      (Rnd.ofCode m.rnd).bind fun rnd =>
      (Ovf.ofCode m.ovf).bind fun ovf =>
      (XCtl.ofFmt x).bind fun xc =>
      some (.drain c xc x.a x.b t rnd ovf (flag m.lo))
  | _, _ => none

/-- Ops 0xD0 to 0xDF (R284, R315, R321). -/
def decodeSync (f : Fields) (c : Ctl) : Option Instr :=
  match f.op.toNat, f.sub.toNat with
  | 0xD0, 0 =>
      let x := FmtT.ofLow f.low
      let q := CB.of x.c
      (Scope.ofCode x.scope).bind fun sc =>
      need (x.bn == 0 && x.batch == 0 && q.rsv == 0)
        (some (.waita c x.d x.a x.b (flag q.b1) (flag q.b0) sc))
  | 0xD1, 0 =>
      let x := FmtT.ofLow f.low
      need (x.d == 0 && x.b == 0 && x.c == 0 && x.bn == 0 && x.batch == 0 && x.scope == 0)
        (some (.spawn c x.a))
  | 0xD2, 0 =>
      let x := FmtT.ofLow f.low
      (Scope.ofCode x.scope).bind fun sc =>
      need (x.d == 0 && x.c == 0 && x.bn == 0 && x.batch == 0)
        (some (.join c x.a x.b sc))
  | 0xD3, 0 =>
      let x := FmtT.ofLow f.low
      need (x.d == 0 && x.a == 0 && x.b == 0 && x.c == 0 && x.bn == 0 && x.batch == 0 && x.scope == 0)
        (some (.atflush c))
  | 0xD4, 0 =>
      let x := FmtT.ofLow f.low
      (Scope.ofCode x.scope).bind fun sc =>
      need (x.d == 0 && x.a == 0 && x.b == 0 && x.c == 0 && x.bn == 0 && x.batch == 0)
        (some (.tbar c sc))
  | 0xD5, 0 =>
      let x := FmtT.ofLow f.low
      let q := CB.of x.c
      (Scope.ofCode x.scope).bind fun sc =>
      (bnOf (flag q.b0) x.bn).bind fun bn =>
      need (x.batch == 0 && q.rsv == 0)
        (some (.txfer c x.d x.a x.b bn (flag q.b1) sc))
  | 0xD6, 0 =>
      let x := FmtM.ofLow f.low
      need (x.d == 0 && x.a == 0 && x.m == 0)
        (some (.flowReset c x.off))
  | _, _ => none

/-- Ops 0xE0 to 0xEF (R343, R369). -/
def decodeSystem (f : Fields) (c : Ctl) : Option Instr :=
  match f.op.toNat, f.sub.toNat with
  | 0xE0, 0 =>
      let x := FmtM.ofLow f.low
      need (x.m == 0)
        (some (.syscall c x.d x.a x.off))
  | 0xE1, 0 =>
      let x := FmtM.ofLow f.low
      let m := MB.of x.m
      need (x.d == 0 && m.rsv == 0 && m.b1 == 0)
        (some (.trap c x.a x.off (flag m.b0)))
  | 0xE2, 0 =>
      let x := FmtM.ofLow f.low
      need (x.d == 0 && x.a == 0 && x.m == 0)
        (some (.brk c x.off))
  | 0xE3, 0 =>
      let x := FmtM.ofLow f.low
      let m := MB.of x.m
      need (x.d == 0 && m.rsv == 0 && m.b1 == 0)
        (some (.mark c x.a x.off (flag m.b0)))
  | 0xE4, 0 =>
      let x := FmtM.ofLow f.low
      (CReg.ofCode x.off).bind fun r =>
      need (x.a == 0 && x.m == 0)
        (some (.crd c x.d r))
  | 0xE5, 0 =>
      let x := FmtM.ofLow f.low
      (CReg.ofCode x.off).bind fun r =>
      need (x.d == 0 && x.m == 0)
        (some (.cwr c x.a r))
  | _, _ => none

/-- The instruction of a word's fields, before the checks of WellFormed. -/
def decodeFields (f : Fields) : Option Instr :=
  let c := Ctl.of f
  match f.op.toNat / 16 with
  | 0 => decodeControl f c
  | 2 => decodeIntegerLow f c
  | 3 => decodeIntegerHigh f c
  | 4 => decodeFloat f c
  | 5 => decodeFloat f c
  | 6 => decodeConvert f c
  | 7 => decodeLane f c
  | 8 => decodeMemory f c
  | 10 => decodeAtomic f c
  | 11 => decodeScratch f c
  | 12 => decodeMatrix f c
  | 13 => decodeSync f c
  | 14 => decodeSystem f c
  | _ => none

/-- The instruction of a word; none where the word raises ILL by itself (R97). -/
def decode (w : W64) : Option Instr :=
  (decodeFields (Fields.ofWord w)).bind fun i => need i.wf (some i)

/-- The word of an instruction; an event has none. -/
def encode (i : Instr) : Option W64 :=
  match i with
  | .nop c =>
      some (frame 0x00 0 c (FmtI.toLow { d := 0, a := 0, imm := 0 }))
  | .bra c off =>
      some (frame 0x01 0 c (FmtI.toLow { d := 0, a := 0, imm := off }))
  | .brx c a =>
      some (frame 0x02 0 c (FmtI.toLow { d := 0, a := a, imm := 0 }))
  | .call c d off =>
      some (frame 0x03 0 c (FmtI.toLow { d := d, a := 0, imm := off }))
  | .ret c a =>
      some (frame 0x04 0 c (FmtI.toLow { d := 0, a := a, imm := 0 }))
  | .exit c =>
      some (frame 0x05 0 c (FmtI.toLow { d := 0, a := 0, imm := 0 }))
  | .reform c =>
      some (frame 0x06 0 c (FmtI.toLow { d := 0, a := 0, imm := 0 }))
  | .rejoin c =>
      some (frame 0x07 0 c (FmtI.toLow { d := 0, a := 0, imm := 0 }))
  | .yield c =>
      some (frame 0x08 0 c (FmtI.toLow { d := 0, a := 0, imm := 0 }))
  | .add c d a b t sat =>
      some (frame 0x20 0 c (FmtA.toLow { d := d, a := a, b := b, c := 0, m := MA.bits { ty := t.code, rnd := 0, ovf := 0, lo := bit sat } }))
  | .addI c d a imm =>
      some (frame 0x20 1 c (FmtI.toLow { d := d, a := a, imm := imm }))
  | .sub c d a b t sat =>
      some (frame 0x21 0 c (FmtA.toLow { d := d, a := a, b := b, c := 0, m := MA.bits { ty := t.code, rnd := 0, ovf := 0, lo := bit sat } }))
  | .mul c d a b t sat =>
      some (frame 0x22 0 c (FmtA.toLow { d := d, a := a, b := b, c := 0, m := MA.bits { ty := t.code, rnd := 0, ovf := 0, lo := bit sat } }))
  | .mulI c d a imm =>
      some (frame 0x22 1 c (FmtI.toLow { d := d, a := a, imm := imm }))
  | .mulhi c d a b t =>
      some (frame 0x23 0 c (FmtA.toLow { d := d, a := a, b := b, c := 0, m := MA.bits { ty := t.code, rnd := 0, ovf := 0, lo := 0 } }))
  | .mad c d a b e t sat =>
      some (frame 0x24 0 c (FmtA.toLow { d := d, a := a, b := b, c := e, m := MA.bits { ty := t.code, rnd := 0, ovf := 0, lo := bit sat } }))
  | .div c d a b t =>
      some (frame 0x25 0 c (FmtA.toLow { d := d, a := a, b := b, c := 0, m := MA.bits { ty := t.code, rnd := 0, ovf := 0, lo := 0 } }))
  | .rem c d a b t =>
      some (frame 0x26 0 c (FmtA.toLow { d := d, a := a, b := b, c := 0, m := MA.bits { ty := t.code, rnd := 0, ovf := 0, lo := 0 } }))
  | .min c d a b t =>
      some (frame 0x27 0 c (FmtA.toLow { d := d, a := a, b := b, c := 0, m := MA.bits { ty := t.code, rnd := 0, ovf := 0, lo := 0 } }))
  | .max c d a b t =>
      some (frame 0x28 0 c (FmtA.toLow { d := d, a := a, b := b, c := 0, m := MA.bits { ty := t.code, rnd := 0, ovf := 0, lo := 0 } }))
  | .abs c d a sat =>
      some (frame 0x29 0 c (FmtA.toLow { d := d, a := a, b := 0, c := 0, m := MA.bits { ty := 0, rnd := 0, ovf := 0, lo := bit sat } }))
  | .neg c d a t sat =>
      some (frame 0x2A 0 c (FmtA.toLow { d := d, a := a, b := 0, c := 0, m := MA.bits { ty := t.code, rnd := 0, ovf := 0, lo := bit sat } }))
  | .and c d a b =>
      some (frame 0x2B 0 c (FmtA.toLow { d := d, a := a, b := b, c := 0, m := 0 }))
  | .andI c d a imm =>
      some (frame 0x2B 1 c (FmtI.toLow { d := d, a := a, imm := imm }))
  | .or c d a b =>
      some (frame 0x2C 0 c (FmtA.toLow { d := d, a := a, b := b, c := 0, m := 0 }))
  | .orI c d a imm =>
      some (frame 0x2C 1 c (FmtI.toLow { d := d, a := a, imm := imm }))
  | .xor c d a b =>
      some (frame 0x2D 0 c (FmtA.toLow { d := d, a := a, b := b, c := 0, m := 0 }))
  | .xorI c d a imm =>
      some (frame 0x2D 1 c (FmtI.toLow { d := d, a := a, imm := imm }))
  | .not c d a =>
      some (frame 0x2E 0 c (FmtA.toLow { d := d, a := a, b := 0, c := 0, m := 0 }))
  | .shl c d a b =>
      some (frame 0x2F 0 c (FmtA.toLow { d := d, a := a, b := b, c := 0, m := 0 }))
  | .shlI c d a imm =>
      some (frame 0x2F 1 c (FmtI.toLow { d := d, a := a, imm := imm }))
  | .shr c d a b =>
      some (frame 0x30 0 c (FmtA.toLow { d := d, a := a, b := b, c := 0, m := 0 }))
  | .shrI c d a imm =>
      some (frame 0x30 1 c (FmtI.toLow { d := d, a := a, imm := imm }))
  | .sar c d a b =>
      some (frame 0x31 0 c (FmtA.toLow { d := d, a := a, b := b, c := 0, m := 0 }))
  | .sarI c d a imm =>
      some (frame 0x31 1 c (FmtI.toLow { d := d, a := a, imm := imm }))
  | .rot c d a b =>
      some (frame 0x32 0 c (FmtA.toLow { d := d, a := a, b := b, c := 0, m := 0 }))
  | .rotI c d a imm =>
      some (frame 0x32 1 c (FmtI.toLow { d := d, a := a, imm := imm }))
  | .clz c d a =>
      some (frame 0x33 0 c (FmtA.toLow { d := d, a := a, b := 0, c := 0, m := 0 }))
  | .popc c d a =>
      some (frame 0x34 0 c (FmtA.toLow { d := d, a := a, b := 0, c := 0, m := 0 }))
  | .brev c d a =>
      some (frame 0x35 0 c (FmtA.toLow { d := d, a := a, b := 0, c := 0, m := 0 }))
  | .bfe c d a pos len t =>
      some (frame 0x36 0 c (FmtA.toLow { d := d, a := a, b := pos, c := len, m := MA.bits { ty := t.code, rnd := 0, ovf := 0, lo := 0 } }))
  | .bfi c d a pos len =>
      some (frame 0x37 0 c (FmtA.toLow { d := d, a := a, b := pos, c := len, m := 0 }))
  | .sel c d a b kc =>
      some (frame 0x38 0 c (FmtA.toLow { d := d, a := a, b := b, c := kc, m := 0 }))
  | .icmp c rel d a b t =>
      some (frame 0x39 rel.code c (FmtA.toLow { d := d, a := a, b := b, c := 0, m := MA.bits { ty := t.code, rnd := 0, ovf := 0, lo := 0 } }))
  | .lea c d a b sh t =>
      some (frame 0x3A 0 c (FmtA.toLow { d := d, a := a, b := b, c := sh, m := MA.bits { ty := t.code, rnd := 0, ovf := 0, lo := 0 } }))
  | .add64 c d a b =>
      some (frame 0x3B 0 c (FmtA.toLow { d := d, a := a, b := b, c := 0, m := 0 }))
  | .add64I c d a imm =>
      some (frame 0x3B 1 c (FmtI.toLow { d := d, a := a, imm := imm }))
  | .mov c d a t =>
      some (frame 0x3C 0 c (FmtA.toLow { d := d, a := a, b := 0, c := 0, m := MA.bits { ty := t.code, rnd := 0, ovf := 0, lo := 0 } }))
  | .movS c d sa t =>
      some (frame 0x3C 1 c (FmtA.toLow { d := d, a := sa, b := 0, c := 0, m := MA.bits { ty := t.code, rnd := 0, ovf := 0, lo := 0 } }))
  | .movi c d imm =>
      some (frame 0x3D 0 c (FmtL.toLow { d := d, rsv := 0, imm := imm }))
  | .sread c d r =>
      some (frame 0x3E 0 c (FmtA.toLow { d := d, a := 0, b := r.code, c := 0, m := 0 }))
  | .swrite c sd a t =>
      some (frame 0x3F 0 c (FmtA.toLow { d := sd, a := a, b := 0, c := 0, m := MA.bits { ty := t.code, rnd := 0, ovf := 0, lo := 0 } }))
  | .fadd c d a b t rnd ftz =>
      some (frame 0x40 0 c (FmtA.toLow { d := d, a := a, b := b, c := 0, m := MA.bits { ty := t.code, rnd := rnd.code, ovf := 0, lo := bit ftz } }))
  | .fsub c d a b t rnd ftz =>
      some (frame 0x41 0 c (FmtA.toLow { d := d, a := a, b := b, c := 0, m := MA.bits { ty := t.code, rnd := rnd.code, ovf := 0, lo := bit ftz } }))
  | .fmul c d a b t rnd ftz =>
      some (frame 0x42 0 c (FmtA.toLow { d := d, a := a, b := b, c := 0, m := MA.bits { ty := t.code, rnd := rnd.code, ovf := 0, lo := bit ftz } }))
  | .fma c d a b e t rnd ftz =>
      some (frame 0x43 0 c (FmtA.toLow { d := d, a := a, b := b, c := e, m := MA.bits { ty := t.code, rnd := rnd.code, ovf := 0, lo := bit ftz } }))
  | .fmin c d a b t ftz =>
      some (frame 0x44 0 c (FmtA.toLow { d := d, a := a, b := b, c := 0, m := MA.bits { ty := t.code, rnd := 0, ovf := 0, lo := bit ftz } }))
  | .fmax c d a b t ftz =>
      some (frame 0x45 0 c (FmtA.toLow { d := d, a := a, b := b, c := 0, m := MA.bits { ty := t.code, rnd := 0, ovf := 0, lo := bit ftz } }))
  | .fcmp c rel d a b t ftz =>
      some (frame 0x46 rel.code c (FmtA.toLow { d := d, a := a, b := b, c := 0, m := MA.bits { ty := t.code, rnd := 0, ovf := 0, lo := bit ftz } }))
  | .fclass c d a t =>
      some (frame 0x47 0 c (FmtA.toLow { d := d, a := a, b := 0, c := 0, m := MA.bits { ty := t.code, rnd := 0, ovf := 0, lo := 0 } }))
  | .frnd c d a t rnd =>
      some (frame 0x48 0 c (FmtA.toLow { d := d, a := a, b := 0, c := 0, m := MA.bits { ty := t.code, rnd := rnd.code, ovf := 0, lo := 0 } }))
  | .fsqrt c d a t rnd ftz =>
      some (frame 0x49 0 c (FmtA.toLow { d := d, a := a, b := 0, c := 0, m := MA.bits { ty := t.code, rnd := rnd.code, ovf := 0, lo := bit ftz } }))
  | .frcp c d a ftz =>
      some (frame 0x4A 0 c (FmtA.toLow { d := d, a := a, b := 0, c := 0, m := MA.bits { ty := 8, rnd := 0, ovf := 0, lo := bit ftz } }))
  | .frsq c d a ftz =>
      some (frame 0x4B 0 c (FmtA.toLow { d := d, a := a, b := 0, c := 0, m := MA.bits { ty := 8, rnd := 0, ovf := 0, lo := bit ftz } }))
  | .fexp2 c d a ftz =>
      some (frame 0x4C 0 c (FmtA.toLow { d := d, a := a, b := 0, c := 0, m := MA.bits { ty := 8, rnd := 0, ovf := 0, lo := bit ftz } }))
  | .flog2 c d a ftz =>
      some (frame 0x4D 0 c (FmtA.toLow { d := d, a := a, b := 0, c := 0, m := MA.bits { ty := 8, rnd := 0, ovf := 0, lo := bit ftz } }))
  | .fsinp c d a ftz =>
      some (frame 0x4E 0 c (FmtA.toLow { d := d, a := a, b := 0, c := 0, m := MA.bits { ty := 8, rnd := 0, ovf := 0, lo := bit ftz } }))
  | .fcosp c d a ftz =>
      some (frame 0x4F 0 c (FmtA.toLow { d := d, a := a, b := 0, c := 0, m := MA.bits { ty := 8, rnd := 0, ovf := 0, lo := bit ftz } }))
  | .hadd2 c d a b t rnd ftz =>
      some (frame 0x50 0 c (FmtA.toLow { d := d, a := a, b := b, c := 0, m := MA.bits { ty := t.code, rnd := rnd.code, ovf := 0, lo := bit ftz } }))
  | .hmul2 c d a b t rnd ftz =>
      some (frame 0x51 0 c (FmtA.toLow { d := d, a := a, b := b, c := 0, m := MA.bits { ty := t.code, rnd := rnd.code, ovf := 0, lo := bit ftz } }))
  | .hfma2 c d a b e t rnd ftz =>
      some (frame 0x52 0 c (FmtA.toLow { d := d, a := a, b := b, c := e, m := MA.bits { ty := t.code, rnd := rnd.code, ovf := 0, lo := bit ftz } }))
  | .dot4 c d a b e asg bsg sat =>
      some (frame 0x53 0 c (FmtA.toLow { d := d, a := a, b := b, c := e, m := MD.bits { asg := bit asg, bsg := bit bsg, rsv := 0, sat := bit sat } }))
  | .dotts c d a b e ftz =>
      some (frame 0x54 0 c (FmtA.toLow { d := d, a := a, b := b, c := e, m := MA.bits { ty := 0, rnd := 0, ovf := 0, lo := bit ftz } }))
  | .cvt c d a dt srcT rnd ovf ftz sc =>
      some (frame 0x60 0 c (FmtA.toLow { d := d, a := a, b := (sc.getD 0), c := CvtC.bits { rsv := 0, sc := bit sc.isSome, s := srcT.code }, m := MA.bits { ty := dt.code, rnd := rnd.code, ovf := ovf.code, lo := bit ftz } }))
  | .cvtts c d a t ftz =>
      some (frame 0x61 0 c (FmtA.toLow { d := d, a := a, b := 0, c := 0, m := MA.bits { ty := t.code, rnd := 0, ovf := 0, lo := bit ftz } }))
  | .pack c d a t rnd ovf ftz =>
      some (frame 0x62 0 c (FmtA.toLow { d := d, a := a, b := 0, c := 0, m := MA.bits { ty := t.code, rnd := rnd.code, ovf := ovf.code, lo := bit ftz } }))
  | .unpack c d a j t =>
      some (frame 0x63 0 c (FmtA.toLow { d := d, a := a, b := j, c := 0, m := MA.bits { ty := t.code, rnd := 0, ovf := 0, lo := 0 } }))
  | .blkdRd c d a off sp sc =>
      some (frame 0x64 0 c (FmtM.toLow { d := d, a := a, off := off, m := MM.bits { size := 1, space := sp.code, sb := 0, scope := sc.code, fam1 := 0, fam0 := 0 } }))
  | .blkdSet c d a off sp sc =>
      some (frame 0x64 1 c (FmtM.toLow { d := d, a := a, off := off, m := MM.bits { size := 1, space := sp.code, sb := 0, scope := sc.code, fam1 := 0, fam0 := 0 } }))
  | .plog c op d a b inv =>
      some (frame 0x70 op.code c (FmtA.toLow { d := d, a := a, b := b, c := 0, m := MB.bits { rsv := 0, b1 := 0, b0 := bit inv } }))
  | .pmov c d a inv =>
      some (frame 0x71 0 c (FmtA.toLow { d := d, a := a, b := 0, c := 0, m := MB.bits { rsv := 0, b1 := 0, b0 := bit inv } }))
  | .pmovTow c d =>
      some (frame 0x71 1 c (FmtA.toLow { d := d, a := 0, b := 0, c := 0, m := 0 }))
  | .pmovFromw c a =>
      some (frame 0x71 2 c (FmtA.toLow { d := 0, a := a, b := 0, c := 0, m := 0 }))
  | .vote c op d a neg =>
      some (frame 0x72 op.code c (FmtA.toLow { d := d, a := a, b := 0, c := 0, m := MB.bits { rsv := 0, b1 := 0, b0 := bit neg } }))
  | .ballot c d a neg =>
      some (frame 0x73 0 c (FmtA.toLow { d := d, a := a, b := 0, c := 0, m := MB.bits { rsv := 0, b1 := 0, b0 := bit neg } }))
  | .shfl c op d a sel =>
      some (frame 0x74 op.code c (FmtA.toLow { d := d, a := a, b := sel.b, c := 0, m := sel.m }))
  | .redux c op t d a rnd ftz =>
      some (frame 0x75 op.code c (FmtA.toLow { d := d, a := a, b := 0, c := 0, m := MA.bits { ty := t.code, rnd := rnd.code, ovf := 0, lo := bit ftz } }))
  | .ld c d a off sz sc na sx =>
      some (frame 0x80 0 c (FmtM.toLow { d := d, a := a, off := off, m := MM.bits { size := sz.code, space := 0, sb := 0, scope := sc.code, fam1 := bit sx, fam0 := bit na } }))
  | .st c d a off sz sc =>
      some (frame 0x81 0 c (FmtM.toLow { d := d, a := a, off := off, m := MM.bits { size := sz.code, space := 0, sb := 0, scope := sc.code, fam1 := 0, fam0 := 0 } }))
  | .ldc c d sa off sz sx =>
      some (frame 0x82 0 c (FmtM.toLow { d := d, a := sa, off := off, m := MM.bits { size := sz.code, space := 2, sb := 1, scope := 0, fam1 := bit sx, fam0 := 0 } }))
  | .pref c a off sc =>
      some (frame 0x83 0 c (FmtM.toLow { d := 0, a := a, off := off, m := MM.bits { size := 0, space := 0, sb := 0, scope := sc.code, fam1 := 0, fam0 := 0 } }))
  | .prefTr c a off sc =>
      some (frame 0x83 0 c (FmtM.toLow { d := 0, a := a, off := off, m := MM.bits { size := 0, space := 0, sb := 0, scope := sc.code, fam1 := 0, fam0 := 1 } }))
  | .pmigComb c a off sc =>
      some (frame 0x84 0 c (FmtM.toLow { d := 0, a := a, off := off, m := MM.bits { size := 0, space := 0, sb := 0, scope := sc.code, fam1 := 0, fam0 := 0 } }))
  | .pmigPool c a off sc =>
      some (frame 0x84 0 c (FmtM.toLow { d := 0, a := a, off := off, m := MM.bits { size := 0, space := 0, sb := 0, scope := sc.code, fam1 := 0, fam0 := 1 } }))
  | .fence c sc =>
      some (frame 0x85 0 c (FmtM.toLow { d := 0, a := 0, off := 0, m := MM.bits { size := 0, space := 0, sb := 0, scope := sc.code, fam1 := 0, fam0 := 0 } }))
  | .tlbfill c a b =>
      some (frame 0x86 0 c (FmtA.toLow { d := 0, a := a, b := b, c := 0, m := 0 }))
  | .tlbinvPg c a =>
      some (frame 0x87 0 c (FmtA.toLow { d := 0, a := a, b := 0, c := 0, m := 0 }))
  | .tlbinvAsid c =>
      some (frame 0x87 0 c (FmtA.toLow { d := 0, a := 0, b := 0, c := 0, m := MB.bits { rsv := 0, b1 := 0, b0 := 1 } }))
  | .tlbinvAll c =>
      some (frame 0x87 0 c (FmtA.toLow { d := 0, a := 0, b := 0, c := 0, m := MB.bits { rsv := 0, b1 := 1, b0 := 0 } }))
  | .wret c a =>
      some (frame 0x88 0 c (FmtA.toLow { d := 0, a := a, b := 0, c := 0, m := 0 }))
  | .atom c op t o sc d a b =>
      some (frame 0xA0 op.code c (FmtA.toLow { d := d, a := a, b := b, c := 0, m := MT.bits { ty := t.code, order := o.code, scope := sc.code, rsv := 0 } }))
  | .cas c t o sc d a b e =>
      some (frame 0xA1 0 c (FmtA.toLow { d := d, a := a, b := b, c := e, m := MT.bits { ty := t.code, order := o.code, scope := sc.code, rsv := 0 } }))
  | .red c op t o sc a b =>
      some (frame 0xA2 op.code c (FmtA.toLow { d := 0, a := a, b := b, c := 0, m := MT.bits { ty := t.code, order := o.code, scope := sc.code, rsv := 0 } }))
  | .lds c d a off sz sx =>
      some (frame 0xB0 0 c (FmtM.toLow { d := d, a := a, off := off, m := MM.bits { size := sz.code, space := 1, sb := 0, scope := 0, fam1 := bit sx, fam0 := 0 } }))
  | .sts c d a off sz =>
      some (frame 0xB1 0 c (FmtM.toLow { d := d, a := a, off := off, m := MM.bits { size := sz.code, space := 1, sb := 0, scope := 0, fam1 := 0, fam0 := 0 } }))
  | .sptagLook c d a =>
      some (frame 0xB2 0 c (FmtA.toLow { d := d, a := a, b := 0, c := 0, m := 0 }))
  | .sptagSet c d a b =>
      some (frame 0xB2 1 c (FmtA.toLow { d := d, a := a, b := b, c := 0, m := 0 }))
  | .sptagClr c d a =>
      some (frame 0xB2 2 c (FmtA.toLow { d := d, a := a, b := 0, c := 0, m := 0 }))
  | .tcopy c d a b bn sc =>
      some (frame 0xB3 0 c (FmtT.toLow { d := d, a := a, b := b, c := CB.bits { rsv := 0, b1 := 0, b0 := bit (nobBit bn) }, bn := bnBits bn, batch := 0, scope := sc.code }))
  | .tstore c d a b bn sc =>
      some (frame 0xB4 0 c (FmtT.toLow { d := d, a := a, b := b, c := CB.bits { rsv := 0, b1 := 0, b0 := bit (nobBit bn) }, bn := bnBits bn, batch := 0, scope := sc.code }))
  | .cseal c batch =>
      some (frame 0xB5 0 c (FmtT.toLow { d := 0, a := 0, b := 0, c := 0, bn := 0, batch := batch, scope := 0 }))
  | .cwait c batch =>
      some (frame 0xB6 0 c (FmtT.toLow { d := 0, a := 0, b := 0, c := 0, bn := 0, batch := batch, scope := 0 }))
  | .barInit c n a ext =>
      some (frame 0xB7 0 c (FmtT.toLow { d := 0, a := a, b := 0, c := CB.bits { rsv := 0, b1 := 0, b0 := bit ext }, bn := n, batch := 0, scope := 0 }))
  | .barArrive c n x =>
      some (frame 0xB7 1 c (FmtT.toLow { d := 0, a := 0, b := 0, c := CB.bits { rsv := 0, b1 := 0, b0 := bit x }, bn := n, batch := 0, scope := 0 }))
  | .barWait c n =>
      some (frame 0xB7 2 c (FmtT.toLow { d := 0, a := 0, b := 0, c := 0, bn := n, batch := 0, scope := 0 }))
  | .mma c x a b m =>
      some (frame 0xC0 0 c (FmtX.toLow (x.toFmt a b (m.bits))))
  | .mmag c x a b m =>
      some (frame 0xC1 0 c (FmtX.toLow (x.toFmt a b (m.bits))))
  | .mms c x a b m =>
      some (frame 0xC2 0 c (FmtX.toLow (x.toFmt a b (m.bits))))
  | .accz c x =>
      some (frame 0xC3 0 c (FmtX.toLow (x.toFmt 0 0 (0))))
  | .accld c x a =>
      some (frame 0xC4 0 c (FmtX.toLow (x.toFmt a 0 (0))))
  | .accst c x a accf fl =>
      some (frame 0xC5 0 c (FmtX.toLow (x.toFmt a 0 (MB.bits { rsv := 0, b1 := bit accf, b0 := bit fl }))))
  | .drain c x a b t rnd ovf accf =>
      some (frame 0xC6 0 c (FmtX.toLow (x.toFmt a b (MA.bits { ty := t.code, rnd := rnd.code, ovf := ovf.code, lo := bit accf }))))
  | .waita c d a b eq w64 sc =>
      some (frame 0xD0 0 c (FmtT.toLow { d := d, a := a, b := b, c := CB.bits { rsv := 0, b1 := bit eq, b0 := bit w64 }, bn := 0, batch := 0, scope := sc.code }))
  | .spawn c a =>
      some (frame 0xD1 0 c (FmtT.toLow { d := 0, a := a, b := 0, c := 0, bn := 0, batch := 0, scope := 0 }))
  | .join c a b sc =>
      some (frame 0xD2 0 c (FmtT.toLow { d := 0, a := a, b := b, c := 0, bn := 0, batch := 0, scope := sc.code }))
  | .atflush c =>
      some (frame 0xD3 0 c (FmtT.toLow { d := 0, a := 0, b := 0, c := 0, bn := 0, batch := 0, scope := 0 }))
  | .tbar c sc =>
      some (frame 0xD4 0 c (FmtT.toLow { d := 0, a := 0, b := 0, c := 0, bn := 0, batch := 0, scope := sc.code }))
  | .txfer c d a b bn pull sc =>
      some (frame 0xD5 0 c (FmtT.toLow { d := d, a := a, b := b, c := CB.bits { rsv := 0, b1 := bit pull, b0 := bit (nobBit bn) }, bn := bnBits bn, batch := 0, scope := sc.code }))
  | .flowReset c key =>
      some (frame 0xD6 0 c (FmtM.toLow { d := 0, a := 0, off := key, m := 0 }))
  | .syscall c d a code =>
      some (frame 0xE0 0 c (FmtM.toLow { d := d, a := a, off := code, m := 0 }))
  | .trap c a code resume =>
      some (frame 0xE1 0 c (FmtM.toLow { d := 0, a := a, off := code, m := MB.bits { rsv := 0, b1 := 0, b0 := bit resume } }))
  | .brk c code =>
      some (frame 0xE2 0 c (FmtM.toLow { d := 0, a := 0, off := code, m := 0 }))
  | .mark c a code w64 =>
      some (frame 0xE3 0 c (FmtM.toLow { d := 0, a := a, off := code, m := MB.bits { rsv := 0, b1 := 0, b0 := bit w64 } }))
  | .crd c d r =>
      some (frame 0xE4 0 c (FmtM.toLow { d := d, a := 0, off := r.code, m := 0 }))
  | .cwr c a r =>
      some (frame 0xE5 0 c (FmtM.toLow { d := 0, a := a, off := r.code, m := 0 }))
  | .clauseFetch .. => none
  | .resultLands .. => none
  | .storePerform .. => none
  | .waitWake .. => none
  | .waitPoll .. => none
  | .walkLimitExpiry .. => none
  | .regroupAgeExpiry .. => none
  | .islandIdle .. => none
  | .rampStep .. => none
  | .breakpointHit .. => none
  | .copyBlockLand .. => none
  | .copyRetire .. => none
  | .copyPageFault .. => none
  | .transferRetire .. => none
  | .matrixOpBegin .. => none
  | .matrixOpRetire .. => none
  | .mmsStreamComplete .. => none
  | .mxFetch .. => none
  | .starvationFlush .. => none
  | .qwptrDoorbell .. => none
  | .queueEnable .. => none
  | .queueDisable .. => none
  | .queueHaltClear .. => none
  | .packetFetch .. => none
  | .launchPacket .. => none
  | .launchBegin .. => none
  | .reuseCopyComplete .. => none
  | .collPacket .. => none
  | .writePacket .. => none
  | .waitvPacket .. => none
  | .waitvTimeout .. => none
  | .fencePacket .. => none
  | .sealPacket .. => none
  | .cancelPacket .. => none
  | .spawnAccept .. => none
  | .dispatchBatch .. => none
  | .dispatchStart .. => none
  | .migrationAttempt .. => none
  | .migrationTimeout .. => none
  | .spatialPreempt .. => none
  | .windowReserve .. => none
  | .swapOut .. => none
  | .swapReadmit .. => none
  | .readmitOtherDie .. => none
  | .teamRetire .. => none
  | .launchComplete .. => none
  | .ctxEnable .. => none
  | .ctxTeardown .. => none
  | .ctxQuotaChange .. => none
  | .ctxcoreWrite .. => none
  | .tlbshootPage .. => none
  | .tlbshootAsid .. => none
  | .tlbshootAll .. => none
  | .tlbshootDone .. => none
  | .derivedRegionValidate .. => none
  | .derivedRegionInvalidate .. => none
  | .pageMigrate .. => none
  | .hintDrain .. => none
  | .hiveTakeEvent .. => none
  | .eventPostDeferred .. => none
  | .faultRecordDeferred .. => none
  | .faultackReplay .. => none
  | .faultackFail .. => none
  | .faultackCancel .. => none
  | .fpWindowClose .. => none
  | .preemptVacate .. => none
  | .preemptDone .. => none
  | .ctxresume .. => none
  | .corecall .. => none
  | .debugAttach .. => none
  | .debugDetach .. => none
  | .debugStop .. => none
  | .debugResume .. => none
  | .debugStepFocused .. => none
  | .debugStepAll .. => none
  | .issueshapeWrite .. => none
  | .islctlWrite .. => none
  | .islandClockChange .. => none
  | .tracecfgWrite .. => none
  | .traceSample .. => none
  | .registerWrite .. => none
  | .segmentDataReceive .. => none
  | .segmentNakReceive .. => none
  | .segmentRefreshReceive .. => none
  | .flitReplay .. => none
  | .collMatchReceive .. => none
  | .collStepComplete .. => none
  | .collTimeout .. => none
  | .podArrivalReceive .. => none
  | .podBarrierRelease .. => none
  | .podGroupFile .. => none
  | .hostMemoryAccess .. => none
  | .uncorrectableError .. => none
  | .correctableError .. => none
  | .boot .. => none
  | .recovgo .. => none
  | .freeze .. => none
  | .peerSilenceTimeout .. => none
  | .thermalHot .. => none
  | .thermalTrip .. => none
  | .timerEvent .. => none

/-! ## Words in memory -/

/-- A word's byte at one of the eight offsets: every word is little-endian (R9, R83, R89). -/
def byteOfWord (w : W64) (k : Nat) : Byte := w.extractLsb' (8 * k) 8

/-- The eight bytes of a word, the first at the lowest address. -/
def bytesOfWord (w : W64) : List Byte := (List.range 8).map (byteOfWord w)

/-- The word that eight bytes make. -/
def wordOfBytes (bs : List Byte) : W64 := bs.foldr (fun b acc => acc <<< 8 ||| b.setWidth 64) 0

/-- The instruction the decoder reads from an instruction of the given bits: one 64-bit word, laid out as memory holds
it. -/
def decodeTableWord (nbits w : Nat) : Option Instr :=
  decode (wordOfBytes (bytesOfWord (BitVec.ofNat 64 (w % 2 ^ nbits))))

end Sys2Proof
end

