-- ==== Sys2Proof/Machine/Windows.lean ====
section
/-! DEFINITION. Windows.lean: windows of cores (R73, R79, R80), the logical cores of a deterministic launch and where they are
now (R78 to R80), and which swarms wait on a die (R74 to R76). -/

namespace Sys2Proof.Machine

/-! ## Windows -/

/-- Dies of the package that compute. -/
def dieCount : Nat := 8

/-- The cores of a window of n from a first core. -/
def windowCores (w n : Nat) : List Nat := (List.range n).map (w + ·)
/-- Whether a window lies on one die. -/
def onOneDie (w n : Nat) : Bool := dieOf w == dieOf (w + n - 1)

/-- The windows of R79 in their order, for some granted cores: dies in ring order from the home die. -/
def detWindows (mask : BitVec 320) (home n : Nat) : List Nat :=
  (List.range dieCount).flatMap fun i =>
    (coresOfDie ((home + i) % dieCount)).filter fun w =>
      w % 40 % n == 0 && onOneDie w n && (windowCores w n).all mask.getLsbD

/-- The window of a group once some windows have been lost, one loss after another (R80). -/
def remap (n g : Nat) : List (List Nat) → List Nat → Option Nat → Option Nat
  | [], _, w => w
  | lost :: more, ws, w =>
    let hit (x : Nat) : Bool := (windowCores x n).any lost.contains
    let ws := ws.filter fun x => !hit x
    let w := match w with
      | some x => if hit x then ws[g % ws.length]? else some x
      | none => none
    remap n g more ws w

/-- The window of a group of a deterministic launch. Where every window has been lost, the windows of the grants in
force are listed anew (log entry 24, DEDUCED). -/
def State.detWindow (s : State) (l : Launch) (n g : Nat) : Option Nat :=
  let ws := detWindows l.mask l.homeDie n
  match remap n g l.lost ws ws[g % ws.length]? with
  | some w => some w
  | none =>
    let now := detWindows (s.ctx l.ctx).cores l.homeDie n
    now[g % now.length]?

/-- The group of a team of a deterministic launch, by its linear index (R78, R79). -/
def Launch.groupOf (l : Launch) (n index : Nat) : Nat := index % l.lcores / n

/-- The die of a group's window in a deterministic launch. -/
def State.detDie (s : State) (l : Launch) (n k : Nat) : Option Nat := (s.detWindow l n k).map dieOf

/-! ## Swarms that wait -/

/-- A launch that has begun and not failed. -/
def Launch.running (l : Launch) : Bool := l.stat == LaunchStat.begun

/-- A swarm of a grid, by the linear index of its first team. -/
structure Swarm where
  ctx : Nat
  launch : Nat
  grid : Nat
  index : Nat
deriving DecidableEq, Repr

/-- The swarm that waits. -/
def Waiting.swarm (y : Waiting) : Swarm := { ctx := y.ctx, launch := y.launch, grid := y.grid, index := y.index }

/-- Whether a swarm is a killed one that is to start again (R255, R349). -/
def Launch.restarting (l : Launch) (grid index : Nat) : Bool := l.restarts.any fun r => r.grid == grid && r.index == index
def State.isRestart (s : State) (x : Swarm) : Bool :=
  match s.launch? x.ctx x.launch with | some l => l.restarting x.grid x.index | none => false

/-- Whether a swarm still waits on a die: its launch runs, it has not started, and, of a deterministic launch, the window of
its logical cores lies there now (R80). -/
def State.waitsOn (s : State) (die : Nat) (y : Waiting) : Bool :=
  match s.launch? y.ctx y.launch with
  | none => false
  | some l => l.running && (match l.grid? y.grid with
    | none => false
    | some g => (l.restarting g.id y.index || !g.started.contains y.index)
        && (!l.det || g.id == 0 || s.detDie l g.desc.swarm (l.groupOf g.desc.swarm y.index) == some die))

/-- Whether a team goes ahead of an unstarted swarm that waits: both belong to one group of logical cores of a deterministic
launch, and the team's swarm has started before, and was saved, or killed and starts again (R80, R255). -/
def State.goesAhead (s : State) (x : Swarm) (y : Waiting) : Bool :=
  x.ctx == y.ctx && x.launch == y.launch && x.grid != 0 && y.grid != 0 && (match s.launch? y.ctx y.launch with
    | none => false
    | some l => l.det && !l.restarting y.grid y.index && (match l.grid? x.grid, l.grid? y.grid with
      | some gx, some gy => gx.started.contains x.index && l.groupOf gy.desc.swarm x.index == l.groupOf gy.desc.swarm y.index
      | _, _ => false))

/-- Whether a team is one that a distributor moves away for a waiting swarm, and still stands on the window that is cleared
(R74, R75). -/
def Waiting.clears (y : Waiting) (t : Team) : Bool :=
  y.victims.contains t.key && t.isResident && (windowCores y.clearing y.count).contains t.core
/-- The teams that are still to leave for a waiting swarm. -/
def State.leavers (s : State) (y : Waiting) : List Team := (y.victims.filterMap s.team?).filter y.clears

end Sys2Proof.Machine
end

