-- ==== Sys2Proof/Machine/Schedule.lean ====
section
/-! DEFINITION. Schedule.lean: which bundle may issue and which it is by the stamp rule (R116, R117, R134), and how an
instruction's word comes to stand where the next step issues it. -/

namespace Sys2Proof.Machine

/-! ## Bundles -/

/-- Whether the issue limiter of a core's island lets a slot issue now; an issue that ends an idle spell starts the ramp and
is the first of its frame (R134, R391). -/
def State.permits (s : State) (core : Nat) : Bool :=
  let i := (s.island (pairOf core)).wake (s.cycle core)
  (s.cycle core - i.c0) % 16 < i.share

/-- Whether a vacate names a team: its core, or the core of a member of its swarm (R340). -/
def State.vacating (s : State) (t : Team) : Bool :=
  match s.vacate with
  | none => false
  | some v => t.key.ctx? == some v.ctx && (s.swarmOf t).any fun u => u.isResident && v.first ≤ u.core && u.core < v.first + v.count

/-- Whether a distributor is moving a team away (R74, R75). -/
def State.leaving (s : State) (t : Team) : Bool := s.dies.any fun d => d.2.waiting.any fun y => s.waitsOn d.1 y && y.clears t

/-- Whether a team may begin a clause: it is on its core, its launch has not failed, and no vacate and no distributor
waits for it (R74, R336, R340). -/
def State.mayBegin (s : State) (t : Team) : Bool :=
  t.isResident && !s.vacating t && !s.leaving t
    && (match t.key with
        | .walker _ _ => true
        | .user c l _ => match s.launch? c l with
          | some x => !x.isFailed
          | none => false)

/-- The address of the word, or the clause header, that a bundle comes to next. -/
def Bundle.nextPc (b : Bundle) : Nat := match b.clause with | some c => c.wordPc | none => b.pc

/-- Whether an enabled breakpoint names a thread and an address (R373). -/
def Breakpoint.hits (b : Breakpoint) (k : TeamKey) (tid pc : Nat) : Bool :=
  let lvl := (b.ctl.extractLsb' 61 2).toNat
  b.ctl.getLsbD 63 && (b.ctl.extractLsb' 3 53).toNat * 8 == pc
    && (lvl < 1 || b.launch == k.launchId) && (lvl < 2 || b.team == k.teamId) && (lvl < 3 || b.tid == tid)

/-- The threads of a bundle that are about to hit a breakpoint of their context. -/
def State.breaking (s : State) (b : Bundle) (i : Nat) : List Nat :=
  match b.key with
  | .walker _ _ => []
  | .user ctx _ _ =>
    let bp := sget .fresh (s.ctx ctx).bps i
    b.tids.filter fun t => bp.hits b.key t b.nextPc && (match s.thread? b.key t with | some x => !x.bpDone | none => false)

/-- Whether a bundle stands before a breakpoint that is still to be taken. -/
def State.breaks (s : State) (b : Bundle) : Bool :=
  match b.key with
  | .walker _ _ => false
  | .user ctx _ _ => (s.ctx ctx).bps.any fun e => !(s.breaking b e.1).isEmpty

/-- Whether the cycle of R100 has come for every thread of a bundle. -/
def State.cycleCome (s : State) (b : Bundle) (core : Nat) : Bool :=
  b.tids.all fun i => match s.thread? b.key i with | some x => x.nextAt ≤ s.cycle core | none => true

/-- Whether a step of another sub-group of the launch comes before a bundle's (R376). -/
def State.stepsBefore (s : State) (b : Bundle) : Bool :=
  b.single && s.bundles.any fun x => x.single && x.key.launch? == b.key.launch? && x.id < b.id

/-- Whether a bundle may issue its next word, for which it needs a slot that the limiter permits, or fetch its next clause
(R85, R100, R116, R134). A team that is being ended issues nothing (R254). -/
def State.canIssue (s : State) (b : Bundle) : Bool :=
  match s.team? b.key with
  | none => false
  | some t =>
    t.killed.isNone && !s.breaks b && !s.stepsBefore b
      && (match b.clause with
          | some c => !c.atEnd && (c.begun || s.mayBegin t) && s.cycleCome b t.core && (s.slotFor b t.core).isSome
              && s.permits t.core
          | none => s.mayBegin t && (b.single || !s.launchHas b.key (·.stopped)))

/-- Whether a bundle comes before another: one that has waited under R104 inside its clause first, then the smaller stamp,
then the lower lowest thread (R116, R117). -/
def bundleBefore (a b : Bundle) : Bool :=
  let inside (x : Bundle) : Nat := if x.waited then 0 else 1
  lexLt ([inside a, a.stamp] ++ a.key.order ++ [a.tids.headD 0, a.id]) ([inside b, b.stamp] ++ b.key.order ++ [b.tids.headD 0, b.id])

/-- The bundle that takes the next slot. -/
def State.readyBundle (s : State) : Option Bundle :=
  leastBy bundleBefore (s.bundles.filter fun b => !b.held && s.canIssue b)

/-! ## Placing a word to be issued -/

/-- The engine class of an op (R96). -/
def classOfOp (op : Nat) : Nat :=
  if op < 0x20 then 4
  else if op < 0x64 then 0
  else if op == 0x64 then 1
  else if op < 0x80 then 0
  else if op < 0xB3 then 1
  else if op < 0xC0 then 3
  else if op < 0xD0 then 2
  else if op < 0xE0 then 3
  else 4

/-- A kernel descriptor for a team of one thread with every register and a 64 KiB scratchpad. -/
def probeDesc : KDesc :=
  { entry := 0x10000, codeBytes := 0x10000, tx := 1, ty := 1, tz := 1, wregs := 256, scratch := 65536, swarm := 2,
    scalars := 0, flags := 1, raw := [] }

/-- A grid of one such team. -/
def probeGrid : Grid :=
  { id := 0, depth := 0, gx := 1, gy := 1, gz := 1, desc := probeDesc, args := [], done := 0,
    firstTeam := 0, counter := 0, owned := [], started := [0], retired := 0, complete := false, accepted := 0 }

/-- A launch with nothing declared that has begun and has placed one team. -/
def probeLaunch (ctx id : Nat) : Launch :=
  { ctx := ctx, id := id, pkt := { q := 0, idx := 0 }, prio := 0, seq := 0, record := [], flags := 0, lcores := 0,
    batch := 8, inputs := [], outputs := [], desc := probeDesc, args := [], done := 0, stat := .begun, inDigests := [],
    codeDigest := [], measured := none, completed := none, seedGrid := [], homeDie := 0, mask := 0, lost := [],
    tree := 1, nextTeam := 1, nextGrid := 1, grids := [probeGrid], ranges := [{ base := 0x10000, len := 0x10000 }],
    spViol := false, dirtyIn := false, inPages := [], codePages := [], relaunches := [], restarts := [], owed := [], shadow := [],
    ivals := [], places := [], reuseKey := [],
    account := { placing := 0, exec := 0, fault := 0, io := 0, other := 0 }, submit := 0, failGroup := 0,
    stopped := false }

/-- A context id and launch id that no launch of the state has. -/
def State.freshLaunch (s : State) : Nat := (s.launches.map (·.id)).foldl Nat.max 0 + 1

/-- The state with a clause of one word latched by a bundle of one thread, whose turn is next. The two instructions of
the walker slot (R98) are placed in a walker thread, any other in team 0 of a launch of context 0. -/
def State.placeWord (s : State) (w : W64) : State :=
  let op := (w.extractLsb' 56 8).toNat
  let head : W64 := BitVec.ofNat 64 (classOfOp op * 2 ^ 60)
  let cl : Clause := { Clause.start 0x10000 head [w] with begun := true }
  let walks := op == 0x86 || op == 0x88
  let id := s.freshLaunch
  let k : TeamKey := if walks then .walker 0 0 else .user 0 id 0
  let t : Team := Team.start k 0 0 0 0 0 (if walks then .walker 0x10000 else probeDesc) []
  let b : Bundle :=
    { id := s.nextBundle, key := k, tids := [0], pc := 0x10000, stamp := 0, clause := some cl, held := false, waits := [],
      notes := [], met := true, single := false }
  let wk : Walk := { slot := 0, what := .page 0 0 0 false, invals := [], started := 0, failed := false, region := 0, pages := 0 }
  let s := if walks then s.modCore 0 fun c => { c with walks := [wk] } else { s with launches := s.launches ++ [probeLaunch 0 id] }
  { s with
    teams := s.teams.filter (fun x => x.key != k) ++ [t]
    bundles := s.bundles ++ [b]
    nextBundle := s.nextBundle + 1
    agenda := .issue s.nextBundle :: s.agenda }

end Sys2Proof.Machine
end

