-- ==== Sys2Proof/Machine/Trace.lean ====
section
/-! DEFINITION. Trace.lean: trace streams and their records (R365 to R368). -/

namespace Sys2Proof.Machine

/-! ## Configuration (R365) -/

def Ctx.traceOn (c : Ctx) : Bool := c.trace.getLsbD 0
def Ctx.traceSamples (c : Ctx) : Bool := c.trace.getLsbD 1
def Ctx.traceMarks (c : Ctx) : Bool := c.trace.getLsbD 2
def Ctx.traceEvents (c : Ctx) : Bool := c.trace.getLsbD 3
/-- Core cycles between samples. -/
def Ctx.samplePeriod (c : Ctx) : Nat := 2 ^ ((c.trace.extractLsb' 4 3).toNat + 10)
/-- Bytes of a core's segment. -/
def Ctx.segmentBytes (c : Ctx) : Nat := 2 ^ (Nat.min 8 (c.trace.extractLsb' 8 4).toNat + 12)
/-- Address of a core's segment. -/
def Ctx.segmentAt (c : Ctx) (core : Nat) : Nat := (c.trace.extractLsb' 16 40).toNat * 65536 + core * c.segmentBytes
/-- Records of a segment. -/
def Ctx.segmentSlots (c : Ctx) : Nat := c.segmentBytes / 32 - 2

/-- A stream before its first record. -/
def Stream.fresh (ctx : Nat) : Stream :=
  { ctx := ctx, started := false, suspended := false, tail := 0, headSeen := 0, lost := 0, lostSince := 0, last := 0,
    resync := none, sampled := 0 }

/-- A core's stream of a context. -/
def Core.stream (c : Core) (ctx : Nat) : Stream := (c.streams.find? fun x => x.ctx == ctx).getD (.fresh ctx)
/-- Replaces a core's stream of a context. -/
def Core.setStream (c : Core) (x : Stream) : Core :=
  { c with streams := insertBy (fun a b => a.ctx ≤ b.ctx) x (c.streams.filter fun y => y.ctx != x.ctx) }

/-! ## Records (R366, R367) -/

/-- What a record says beside its time. -/
structure TraceRec where
  type : Nat
  flags : Nat
  tid : Nat
  launch : Nat
  team : Nat
  value : Nat
  code : Nat
deriving DecidableEq, Repr

/-- Bytes of a record. -/
def TraceRec.bytes (r : TraceRec) (delta lost : Nat) : List Byte :=
  bytesOfNat 1 r.type ++ bytesOfNat 1 r.flags ++ bytesOfNat 2 r.tid ++ bytesOfNat 4 delta ++ bytesOfNat 4 r.launch ++
    bytesOfNat 4 r.team ++ bytesOfNat 8 r.value ++ bytesOfNat 2 r.code ++ bytesOfNat 2 0 ++ bytesOfNat 4 lost

/-- A record that is not written is counted. -/
def Stream.lose (x : Stream) : Stream := { x with lost := x.lost + 1, lostSince := x.lostSince + 1 }

/-- Writes a stream's count of lost records into its segment's header; a fault suspends the stream (R366, R368). -/
def State.putLost (s : State) (core : Nat) (x : Stream) : State × Stream :=
  match s.sysWrite x.ctx ((s.ctx x.ctx).segmentAt core + 16) (bytesOfNat 8 x.lost) with
  | .ok s => (s, x)
  | .error _ => (s, { x with suspended := true })

/-- Writes one record at the tail, rereading HEAD where the ring looks full; a trace access that faults suspends the
stream. The result says whether the record was written (R365, R366, R368). -/
def State.putTrace (s : State) (core : Nat) (x : Stream) (bytes : List Byte) : State × Stream × Bool :=
  let c := s.ctx x.ctx
  let at0 := c.segmentAt core
  let n := c.segmentSlots
  let tail := x.tail % n
  let full (h : Nat) : Bool := (tail + 1) % n == h % n
  let lose (x : Stream) : State × Stream × Bool :=
    let (s, x) := s.putLost core x.lose
    (s, x, false)
  let write (x : Stream) : State × Stream × Bool :=
    match s.sysWrite x.ctx (at0 + 64 + 32 * tail) bytes with
    | .error _ => (s, { x.lose with suspended := true }, false)
    | .ok s => match s.sysWrite x.ctx at0 (bytesOfNat 8 ((tail + 1) % n)) with
      | .error _ => (s, { x with tail := (tail + 1) % n, suspended := true }, true)
      | .ok s => (s, { x with tail := (tail + 1) % n }, true)
  if !full x.headSeen then write x
  else match s.sysRead x.ctx (at0 + 8) 8 with
    | .error _ => (s, { x.lose with suspended := true }, false)
    | .ok b =>
      let x := { x with headSeen := natOfBytes b }
      if full x.headSeen then lose x else write x

/-- Why a RESYNC record must come before a stream's next record, if it must (R367). -/
def Stream.resyncWhy (x : Stream) (now : Nat) : Option Nat :=
  if !x.started then some 1
  else match x.resync with
    | some r => some r
    | none => if now - x.last ≥ 2 ^ 32 then some 5 else none

/-- Appends a record to a core's stream of a context, with the RESYNC that must come before it; a stream that is resumed first
writes its count of lost records into the header (R366 to R368). -/
def State.traceRecord (s : State) (core ctx : Nat) (r : TraceRec) : State :=
  let x := (s.core core).stream ctx
  let keep (s : State) (x : Stream) : State := s.modCore core (·.setStream x)
  if x.suspended then keep s x.lose
  else
    let (s, x) := if x.resync == some 4 then s.putLost core x else (s, x)
    let (s, x, ok) : State × Stream × Bool := if x.suspended then (s, x, false) else match x.resyncWhy s.ticks with
      | none => (s, x, true)
      | some why =>
        let rs : TraceRec :=
          { type := 5, flags := 0, tid := 0, launch := 0, team := 0, value := s.ticks, code := why }
        let (s, x, ok) := s.putTrace core x (rs.bytes 0 x.lostSince)
        (s, if ok then { x with started := true, resync := none, lostSince := 0, last := s.ticks } else x, ok)
    if x.suspended then keep s x.lose
    else if !ok then
      let (s, x) := s.putLost core x.lose
      keep s x
    else
      let (s, x, ok) := s.putTrace core x (r.bytes (s.ticks - x.last) 0)
      keep s (if ok then { x with last := s.ticks } else x)

/-- A record of a team's start or end, where the context asks for them (R365). -/
def State.traceTeam (s : State) (t : Team) (type : Nat) : State :=
  match t.key with
  | .walker _ _ => s
  | .user ctx l team =>
    if (s.ctx ctx).traceOn && (s.ctx ctx).traceEvents then
      s.traceRecord t.core ctx { type := type, flags := 0, tid := 0, launch := l, team := team, value := 0, code := 0 }
    else s

/-- A stream of every core of a pair must write a RESYNC record before its next record. -/
def State.resyncPair (s : State) (p why : Nat) : State :=
  (coresOfPair p).foldl (init := s) fun s c => s.modCore c fun x =>
    { x with streams := x.streams.map fun y => { y with resync := some (y.resync.getD why) } }

/-- A write of TRACECFG: it resumes every suspended stream of the context; a context whose tracing is switched on
begins its streams anew (R365, log entry 21, DEDUCED). -/
def State.setTrace (s : State) (ctx : Nat) (v : W64) : State :=
  let mask : W64 := 0x00FFFFFFFFFF0F7F
  let was := (s.ctx ctx).traceOn
  let s := s.modCtx ctx fun c => { c with trace := v &&& mask }
  let anew := !was && (s.ctx ctx).traceOn
  let upd (y : Stream) : Stream :=
    if y.ctx == ctx && y.suspended then { y with suspended := false, resync := some 4 } else y
  (List.range coreCount).foldl (init := s) fun s c => s.modCore c fun x =>
    { x with streams := if anew then x.streams.filter fun y => y.ctx != ctx else x.streams.map upd }

end Sys2Proof.Machine
end

