-- ==== Sys2Proof/Machine/System.lean ====
section
/-! DEFINITION. System.lean: system calls, user traps, breakpoint and trace words, and the core's control registers
(R343 to R348, R369 to R371). -/

namespace Sys2Proof.Machine

/-! ## System calls and user traps (R344, R348) -/

/-- A thread's earlier stores and atomics are performed at system scope: a release, which R279 does not list among those that
advance the interval number. -/
def State.releaseAll (s : State) (k : TeamKey) (tid upTo : Nat) : State :=
  let s := if s.launchHas k (·.det) then s.flushThread k tid upTo else s
  s.drain k

/-- SYSCALL: a pure launch traps PURITY; otherwise the thread parks in the word's syscall group with its arguments
(R344). -/
def execSyscall (c : Ctl) (d a : Reg) (code : BitVec 16) (s : State) : Result :=
  issueWith (ctlWord c (groupSlots a 8) (pairSlots d)) (fun _ _ _ => false) (fun _ cl => cl)
    { kind := .syscall, dest := d.toNat } (fun _ _ => none) (fun s site t =>
      if s.launchHas site.key (·.pure) then (s, .trap (Trap.plain t.tid .purity))
      else
        (s.releaseAll site.key t.tid t.atomSeq,
          .trap { Trap.plain t.tid .syscall with
            code := code.toNat, args := [0, 2, 4, 6].map fun i => t.pair (a.toNat + i) })) s

/-- TRAP: the thread parks in the word's trap group with the value of its register (R348). -/
def execTrap (c : Ctl) (a : Reg) (code : BitVec 16) (resume : Bool) (s : State) : Result :=
  issueWith (ctlWord c (regSlots a) []) (fun _ _ _ => false) (fun _ cl => cl) { kind := .trap resume }
    (fun _ _ => none) (fun s site t =>
      (s.releaseAll site.key t.tid t.atomSeq,
        .trap { Trap.plain t.tid .trap with code := code.toNat, value := (t.reg a.toNat).setWidth 64 })) s

/-! ## BRK and MARK (R370) -/

/-- Whether a debugger is attached to the context of a team. -/
def State.debugged (s : State) (k : TeamKey) : Bool :=
  match k with | .user ctx _ _ => (s.ctx ctx).debug | .walker _ _ => false

/-- BRK: under a debugger the thread stops before the word, once for each time it comes to it, as at a breakpoint, and the
launch stops; otherwise, and when the thread goes on, the word does nothing (R352, R370, R373; log entry 117, DEDUCED). -/
def execBrk (c : Ctl) (code : BitVec 16) (s : State) : Result :=
  issue (ctlWord c [] []) (fun s site t =>
    (s, if s.debugged site.key && !t.brkDone then .stop code.toNat else .nothing)) s

/-- MARK: a record of the thread's value in its core's stream. -/
def execMark (c : Ctl) (a : Reg) (code : BitVec 16) (w64 : Bool) (s : State) : Result :=
  issue (ctlWord c (wideSlots w64 a) []) (fun s site t =>
    match site.key with
    | .walker _ _ => (s, .nothing)
    | .user ctx l team =>
      if (s.ctx ctx).traceOn && (s.ctx ctx).traceMarks then
        (s.traceRecord site.core ctx
          { type := 1, flags := if w64 then 1 else 0, tid := t.tid, launch := l, team := team,
            value := (t.wide w64 a).toNat, code := code.toNat }, .nothing)
      else (s, .nothing)) s

/-! ## Control registers (R138, R247, R371, R392) -/

/-- An island's shaping registers as they stand at a cycle: a write applies from its frame on (R134, R393). -/
def Island.latch (i : Island) (now : Nat) : Island :=
  if i.shapeAt ≤ now then { i with maxq := i.nextMaxq, tau := i.nextTau, q := Nat.min i.q i.nextMaxq } else i

/-- ISSUESHAPE as it reads: the fraction in force, and a ramp while it is below the ceiling in force (R391, R392). -/
def Island.shapeWord (i : Island) : W64 :=
  BitVec.ofNat 64 ((if i.ramp && i.q < i.ceiling then 2 ^ 36 else 0) + i.share * 2 ^ 31 + i.nextMaxq * 2 ^ 16 + i.nextTau)

/-- A write of ISSUESHAPE, whole or ignored; it applies from the next frame (R392, R393). -/
def State.setShape (s : State) (isl : Nat) (v : W64) : State :=
  let maxq := (v.extractLsb' 16 5).toNat
  let tau := (v.extractLsb' 0 16).toNat
  if maxq < 1 || 16 < maxq || tau == 0 then s
  else
    let now := s.islandCycle isl
    s.modIsland isl fun i =>
      let i := i.latch now
      { i with nextMaxq := maxq, nextTau := tau, shapeAt := i.c0 + ((now - i.c0) / 16 + 1) * 16 }

/-- The value of a control register of a core. The crd that ends an idle spell of its island reads the ramp that it starts
(R134). -/
def State.coreReg (s : State) (core : Nat) (r : CReg) : W64 :=
  match r with
  | .regroupage => BitVec.ofNat 64 (s.core core).regroupAge
  | .mxpstall => (s.pair (pairOf core)).mxpstall
  | .issueshape => ((s.island (pairOf core)).wake (s.cycle core)).shapeWord

/-- A write of a control register of a core. A cwr that ends an idle spell of its island counts the next frame from the ramp
that it starts (R134, R393). -/
def State.setCoreReg (s : State) (core : Nat) (r : CReg) (v : W64) : State :=
  match r with
  | .regroupage =>
    let age := (v.extractLsb' 0 11).toNat
    if age < 16 || 1024 < age then s else s.modCore core fun c => { c with regroupAge := age }
  | .mxpstall => s.modPair (pairOf core) fun p => { p with mxpstall := v }
  | .issueshape => (s.wakeIsland core).setShape (pairOf core) v

/-- CRD: a pure launch traps PURITY (R61, R371). -/
def execCrd (c : Ctl) (d : Reg) (r : CReg) (s : State) : Result :=
  issue (ctlWord c [] (pairSlots d)) (fun s site t =>
    if s.launchHas site.key (·.pure) then (s, .trap (Trap.plain t.tid .purity))
    else (s, .pend d.toNat (wordsOfPair (s.coreReg site.core r)) .arith)) s

/-- CWR: REGROUPAGE and ISSUESHAPE are written only from the walker slot; elsewhere the word is ILL (R371). -/
def execCwr (c : Ctl) (a : Reg) (r : CReg) (s : State) : Result :=
  issueWith (ctlWord c (pairSlots a) []) (fun _ site _ => r != .mxpstall && !site.key.isWalker) (fun _ cl => cl) {}
    (fun _ _ => none) (fun s site t => (s.setCoreReg site.core r (t.pair a.toNat), .nothing)) s

end Sys2Proof.Machine
end

