-- ==== Sys2Proof/Machine/CoreEvents.lean ====
section
/-! DEFINITION. CoreEvents.lean: what a core does between instructions: clause fetch (R83 to R87, R99, R108), results
that land (R104), the store FIFO (R263), walk limits (R195), regroup ages (R114), the issue limiter (R134),
breakpoints (R373) and the starvation flush (R293). -/

namespace Sys2Proof.Machine

/-! ## Clause fetch -/

/-- COUNT of a header, as the number of words. -/
def headWords (h : W64) : Nat := (h.extractLsb' 56 4).toNat + 1
/-- Whether a header breaks R83. -/
def headBad (h : W64) : Bool := 4 < (h.extractLsb' 60 4).toNat || h.extractLsb' 0 28 != 0

/-- How the fetch of one 8-byte word ends. -/
inductive Fetched
  | word (w : W64)
  | fault (c : Cause)
  | miss
deriving DecidableEq, Repr

/-- Lines of a core's instruction cache: 32 KiB of 64 bytes (R107). -/
def codeLines : Nat := 512
/-- The line of a core's instruction cache that holds a block. -/
def State.codeLine? (s : State) (core : Nat) (p : Place) : Option CodeLine :=
  s.icache.find? fun l => l.core == core && l.place == p.block
/-- A core's instruction cache takes a line, and gives up the least recently used one where it is full (R107; which line goes
is log entry 87, DESIGN CHOICE). -/
def State.putCode (s : State) (l : CodeLine) : State :=
  let mine := s.icache.filter fun x => x.core == l.core && x.place != l.place
  { s with icache := l :: mine.take (codeLines - 1) ++ s.icache.filter fun x => x.core != l.core }
/-- A line that fails its parity check is discarded (R107). -/
def State.dropCode (s : State) (core : Nat) (p : Place) : State :=
  { s with icache := s.icache.filter fun l => !(l.core == core && l.place == p.block) }

/-- Fetches one word at its place: from the core's instruction cache, or, where the line is not there or fails its parity
check, from memory into it unless the clause asks not to (R107). A poisoned block is an uncorrectable error (log entry 23,
DEDUCED). -/
def State.fetchAt (s : State) (core : Nat) (p : Place) (noAlloc : Bool) : State × Fetched :=
  let word (bytes : List Byte) : Fetched := .word (BitVec.ofNat 64 (natOfBytes ((bytes.drop (p.pa % 64)).take 8)))
  let fill (s : State) : State × Fetched :=
    match s.readBlock p with
    | none => (s, .fault .machine)
    | some blk =>
      if blk.poison.isSome then (s, .fault .machine)
      else (if noAlloc then s else s.putCode { core := core, place := p.block, bytes := blk.bytes, descr := blk.descr }, word blk.bytes)
  match s.codeLine? core p with
  | none => fill s
  | some l =>
    let (s, parity) := s.freeBit
    if parity then fill (s.dropCode core p) else (s.putCode l, word l.bytes)

/-- Fetches one word for a bundle: through its lowest thread's translation, or physically and inside the protected
region in the walker slot (R107, R108, R196). -/
def State.fetchWord (s : State) (b : Bundle) (core pc : Nat) (noAlloc : Bool) : State × Fetched :=
  match b.key with
  | .walker c slot =>
    if pc % 8 != 0 then (s, .fault .align)
    else if (s.core c).walks.any fun w => w.slot == slot && within w.region (w.pages * 65536) pc then s.fetchAt core (.here pc) noAlloc
    else (s, .fault .pageProt)
  | .user _ _ _ =>
    let (s, r) := s.access b.key core (b.tids.headD 0) pc 8 [.exec] .exempt b.notes
    match r with
    | .ok p _ => s.fetchAt core p noAlloc
    | .fault c => (s, .fault c)
    | .miss => (s, .miss)

/-- Fetches consecutive words; stops at the first that does not come. -/
def State.fetchWords (s : State) (b : Bundle) (core pc : Nat) (noAlloc : Bool) : Nat → List W64 → State × Fetched × List W64
  | 0, acc => (s, .word 0, acc)
  | n + 1, acc =>
    match s.fetchWord b core pc noAlloc with
    | (s, .word w) => State.fetchWords s b core (pc + 8) noAlloc n (acc ++ [w])
    | (s, r) => (s, r, acc)

/-- The threads of a bundle park at the clause header (R99, R108); a walker thread's walk ends (R195). -/
def State.fetchFault (s : State) (b : Bundle) (c : Cause) (addr : Option Nat) : State :=
  match b.key with
  | .walker core slot => s.endWalk core slot .machine
  | .user _ _ _ =>
    let traps := b.tids.map fun t => { Trap.plain t c with kind := if addr.isSome then Acc.exec.kind else kindNone, addr := addr }
    let s := { s with bundles := s.bundles.filter fun x => x.id != b.id }
    (s.takeGroup b.key .fault b.pc 0 none traps false).settle b.key

/-- NOALLOC and PREF of a clause header (R83). -/
def headNoAlloc (h : W64) : Bool := h.getLsbD 30
def headPref (h : W64) : Bool := h.getLsbD 29

/-- PREF: the lines of the sequentially next clause come into the instruction cache, where they can be had without a walk or
a fault (R83, R107). -/
def State.prefetchClause (s : State) (b : Bundle) (core pc : Nat) : State :=
  match s.fetchWord b core pc false with
  | (s', .word h) => (s'.fetchWords b core (pc + 8) false (headWords h) []).1
  | _ => s

/-- The fetch of the next clause of a bundle, all of it or none (R99, R108). The header is read before the cache is asked to
keep its line, since NOALLOC is a bit of it (R83). -/
def State.fetchClause (s : State) (b : Bundle) : State :=
  let core := s.coreOf b.key
  let wait (s : State) (pc : Nat) : State := s.holdForWalks b core [(pc, [.exec])]
  match s.fetchWord b core b.pc true with
  | (s, .miss) => wait s b.pc
  | (s, .fault c) => s.fetchFault b c (some b.pc)
  | (s, .word h) =>
    if headBad h then s.fetchFault b .ill none
    else
      match s.fetchWords b core b.pc (headNoAlloc h) (headWords h + 1) [] with
      | (s, .miss, ws) => wait s (b.pc + 8 * ws.length)
      | (s, .fault c, ws) => s.fetchFault b c (some (b.pc + 8 * ws.length))
      | (s, .word _, ws) =>
        let s := if headPref h then s.prefetchClause b core (b.pc + 8 * ws.length) else s
        let s := b.tids.foldl (fun s t => s.modThread b.key t fun x => { x with bpDone := false, reissue := none }) s
        s.modBundle b.id fun x => { x with clause := some (Clause.start b.pc h ws.tail), held := false, waits := [], notes := [] }

/-- CLAUSE_FETCH (R108). -/
def execClauseFetch (bundle : Nat) (s : State) : Result :=
  .next (match s.bundle? bundle with
    | none => s
    | some b => match s.team? b.key with
      | none => s
      | some t => if b.clause.isNone && s.mayBegin t && !s.breaks b then s.fetchClause b else s)

/-! ## Results and stores -/

/-- RESULT_LANDS: the pending result with the given number lands (R104). -/
def execResultLands (t : ThreadName) (k : Nat) (s : State) : Result :=
  .next (match s.thread? t.key t.tid with
    | none => s
    | some x => match x.pend.find? fun p => p.id == k with
      | none => s
      | some p => match p.value with
        | none => s
        | some ws => (s.modThread t.key t.tid fun x => x.landWords p ws).wake)

/-- STORE_PERFORM: the oldest store of the core's FIFO is performed (R263). -/
def execStorePerform (core : Nat) (s : State) : Result := .next (s.performFifo core 1).wake

/-! ## Clocks of a core -/

/-- WALK_LIMIT_EXPIRY (R195). -/
def execWalkLimitExpiry (core slot : Nat) (s : State) : Result :=
  .next (match (s.core core).walks.find? fun w => w.slot == slot with
    | none => s
    | some w =>
      if w.what != WalkFor.call && w.started + walkLimit s.walkCfg ≤ s.cycle core then s.endWalk core slot .machine else s)

/-- REGROUP_AGE_EXPIRY (R114). -/
def execRegroupAgeExpiry (core bin : Nat) (s : State) : Result :=
  .next (match (s.core core).bins.find? fun b => b.idx == bin with
    | none => s
    | some b => if b.filed + b.age ≤ s.cycle core then s.drawBin core b else s)

/-- ISLAND_IDLE (R134): an idle spell is counted from the last issue, or from a ramp that started after it. -/
def execIslandIdle (island : Nat) (s : State) : Result :=
  let i := s.island island
  .next (if i.rested (s.islandCycle island) && i.c0 + idleCycles < s.islandCycle island then
      s.modIsland island fun i => { i with idle := true } else s)

/-- The fraction of R134 at a core cycle. -/
def Island.fraction (i : Island) (now : Nat) : Nat :=
  if i.ramp then Nat.min i.maxq (1 + (now - i.c0) / (16 * i.tau)) else i.maxq

/-- RAMP_STEP: the fraction takes its value of the cycle; the issue that ended the idle spell started the ramp, which is over
once the fraction has come to the MAXQ in force (R134, R393; log entry 116, DEDUCED). -/
def execRampStep (island : Nat) (s : State) : Result :=
  let now := s.islandCycle island
  let i := (s.island island).latch now
  let q := i.fraction now
  .next (s.modIsland island fun _ => { i with q := q, ramp := i.ramp && q < i.maxq })

/-! ## Breakpoints (R373) -/

/-- BREAKPOINT_HIT: the threads of the named thread's bundle that stand before the breakpoint stop, one record is
written, and the launch stops (R373, R375). -/
def execBreakpointHit (t : ThreadName) (bp : Nat) (s : State) : Result :=
  .next (match s.bundles.find? fun b => b.key == t.key && (s.breaking b bp).contains t.tid with
    | none => s
    | some b =>
      let hit := s.breaking b bp
      let pc := b.nextPc
      let s := s.leaveBundle b.id hit
      let s := hit.foldl (fun s x => s.modThread b.key x fun y =>
        { y with stat := .stopped, pc := pc, clause := b.clause, bpDone := true }) s
      let tr : Trap := { Trap.plain (hit.headD 0) .brk with code := 0xFFFF }
      let s := s.takeReport b.key .stop (tr.record pc b.key.teamId s.ticks hit.length) hit
      (s.stopLaunch b.key.ctxId b.key.launchId).settle b.key)

/-! ## The starvation flush (R293) -/


/-- Whether a team starves. -/
def State.starves (s : State) (t : Team) : Bool :=
  atomQuota ≤ s.quotaUsed t.key && (t.threads.filter (·.live)).all fun x => x.parkedAs.isSome

/-- STARVATION_FLUSH (R293). -/
def execStarvationFlush (key : TeamKey) (s : State) : Result :=
  .next (match s.team? key with
    | none => s
    | some t => if s.starves t then ((s.flushTeam key).settle key).wake else s)

end Sys2Proof.Machine
end

