-- ==== Sys2Proof/Machine/Front.lean ====
section
/-! DEFINITION. Front.lean: queues, doorbells, packets as the front end fetches and completes them, and the packets it
carries out alone: WRITE, WAITV, FENCE, and the hand-over of SEAL and CANCEL (R37 to R47, R394, R362). -/

namespace Sys2Proof.Machine

/-! ## Queues (R37 to R39) -/

/-- Whether a free-running index comes before another (R37). -/
def idxBefore (a b : Nat) : Bool := a != b && (b + 2 ^ 32 - a) % 2 ^ 32 < 2 ^ 31
/-- A packet that has not completed. -/
def Packet.open (p : Packet) : Bool := p.stage != .done
/-- A packet that has not begun. -/
def Packet.unbegun (p : Packet) : Bool := match p.stage with
  | .fetched => true | .queued => true | .waiting => true | .begun => false | .reusing => false | .hive => false | .done => false
/-- The packets of a queue. -/
def State.packetsOf (s : State) (q : Nat) : List Packet := s.packets.filter fun p => p.name.q == q
/-- ACTIVE. -/
def State.queueActive (s : State) (q : Nat) : Bool := (s.packetsOf q).any (·.open)

/-- Fields of QCFG other than EN. -/
def Queue.setFields (x : Queue) (v : W64) : Queue :=
  { x with ctx := (v.extractLsb' 40 6).toNat, msix := (v.extractLsb' 32 8).toNat, prio := (v.extractLsb' 28 4).toNat,
           log2slots := (v.extractLsb' 16 5).toNat }

/-- Queues of the package. -/
def queueCount : Nat := 256

/-- QUEUE_ENABLE: a QCFG write that sets EN (R37, R39). -/
def execQueueEnable (q : Nat) (v : W64) (s : State) : Result :=
  .next (if !v.getLsbD 0 || queueCount ≤ q || (s.queue q).en || s.queueActive q then s
    else
      let x := (s.queue q).setFields v
      s.modQueue q fun _ =>
        if x.log2slots < 4 || 16 < x.log2slots then { x with cfgErr := true }
        else { x with en := true, widx := 0, fidx := 0, cidx := 0, hidx := 0, halt := false, haltFrom := none, stamps := [] })

/-- QUEUE_DISABLE: a QCFG write that clears EN; it writes the other fields only where EN read 0 (R37, R39). -/
def execQueueDisable (q : Nat) (v : W64) (s : State) : Result :=
  .next (if v.getLsbD 0 || queueCount ≤ q then s
    else s.modQueue q fun x => if x.en then { x with en := false } else x.setFields v)

/-- QUEUE_HALT_CLEAR: a write of QSTAT, whose three marks are cleared by ones (R37, R45). -/
def execQueueHaltClear (q : Nat) (v : W64) (s : State) : Result :=
  .next (if queueCount ≤ q then s
    else s.modQueue q fun x =>
      { x with cfgErr := x.cfgErr && !v.getLsbD 3, overrun := x.overrun && !v.getLsbD 2, halt := x.halt && !v.getLsbD 1,
               haltFrom := if v.getLsbD 1 then none else x.haltFrom })

/-- QWPTR_DOORBELL (R38, R362). -/
def execQwptrDoorbell (q : Nat) (widx : W32) (s : State) : Result :=
  .next (if queueCount ≤ q then s
    else s.modQueue q fun x =>
      if 2 ^ x.log2slots < (widx - x.cidx).toNat || 2 ^ 31 ≤ (widx - x.widx).toNat then
        { x with overrun := true, stamp := 0 }
      else
        let stamp := if x.stamp == 0 then s.ticks else x.stamp.toNat
        { x with widx := widx, stamp := 0,
                 stamps := if widx == x.widx then x.stamps else x.stamps ++ [(widx.toNat, stamp)] })

/-! ## Packets (R43, R44, R46) -/

def Packet.field (p : Packet) (off n : Nat) : Nat := fieldAt p.bytes off n
def Packet.kind (p : Packet) : Nat := p.field 0 1
def Packet.isLaunch (p : Packet) : Bool := p.kind == 1
def Packet.signals (p : Packet) : Bool := p.field 1 1 % 2 == 1
def Packet.irq (p : Packet) : Bool := p.field 1 1 / 2 % 2 == 1
def Packet.tag (p : Packet) : Nat := p.field 4 4
/-- Whether some bytes are all zero. -/
def Packet.zero (p : Packet) (off n : Nat) : Bool := p.field off n == 0

/-- What check 1 asks of a header, reserved bits among its reserved bytes (R44; log entry 105, DEDUCED). -/
def Packet.headOk (p : Packet) : Bool :=
  1 ≤ p.kind && p.kind ≤ 7 && p.field 1 1 < 4 && p.zero 2 2 && p.zero 0x18 32 && p.zero 0x38 8
    && !(p.signals && p.field 8 8 % 8 != 0)
/-- What check 1 asks of a body, reserved bits among its reserved bytes (R46; log entry 105, DEDUCED). -/
def Packet.bodyOk (p : Packet) : Bool :=
  let sized (off : Nat) : Bool := (p.field off 1 == 4 || p.field off 1 == 8) && p.field 0x40 8 % p.field off 1 == 0
  match p.kind with
  | 3 => sized 0x50 && p.zero 0x51 47
  | 4 => sized 0x58 && p.field 0x59 1 ≤ 3 && p.zero 0x5A 6 && p.zero 0x68 24
  | 5 => p.field 0x40 1 < 2 && p.zero 0x41 63
  | 7 => p.zero 0x44 4 && p.zero 0x50 48
  | _ => true

/-! ## Accesses to context memory (R394) -/

/-- Whether a write of the front end would be made: translated, permitted, and no block poisoned. -/
def State.feCan (s : State) (ctx va n : Nat) : Except Cause Unit :=
  match s.sysCanWrite ctx va n with
  | .error c => .error c
  | .ok () => (blockParts va n).foldl (init := .ok ()) fun acc x =>
    match acc with
    | .error c => .error c
    | .ok () => match s.sysPlace ctx x.1 .write with
      | .error c => .error c
      | .ok p => match s.readBlock p with
        | none => .error .machine
        | some b => match b.poison with
          | some c => .error c
          | none => .ok ()

/-- A store of the front end. -/
def State.feStore (s : State) (ctx va : Nat) (bytes : List Byte) : Except Cause State :=
  match s.feCan ctx va bytes.length with
  | .error c => .error c
  | .ok () => s.sysWrite ctx va bytes

/-- Adds 1 to the 8-byte word of a done counter (R54). -/
def State.addDone (s : State) (ctx va : Nat) : Except Cause State :=
  match s.sysRead ctx va 8 with
  | .error c => .error c
  | .ok b => s.feStore ctx va (bytesOfNat 8 (natOfBytes b + 1))

/-! ## Completion (R45, R394) -/

/-- Sets HALT at a packet (R45). -/
def State.haltAt (s : State) (n : PktName) : State :=
  s.modQueue n.q fun x =>
    { x with halt := true, hidx := BitVec.ofNat 32 n.idx,
             haltFrom := some (match x.haltFrom with | some m => if idxBefore m n.idx then m else n.idx | none => n.idx) }

/-- CIDX passes every completed packet whose predecessors have completed. -/
def State.advanceCidx (s : State) (q : Nat) : Nat → State
  | 0 => s
  | n + 1 =>
    let x := s.queue q
    let here (p : Packet) : Bool := p.name.q == q && p.name.idx == x.cidx.toNat
    match s.packets.find? here with
    | none => s
    | some p =>
      if p.open then s
      else
        let s := { s with packets := s.packets.filter fun p => !here p }
        State.advanceCidx (s.modQueue q fun x => { x with cidx := x.cidx + 1 }) q n

/-- The status word. -/
def statusWord (state cause check : Nat) : Nat := state + 256 * cause + 65536 * check

/-- Whether a packet's end stores a signal: at a misaligned address, which check 1 refuses, no store is made (R394; log entry
104, DEDUCED). -/
def Packet.stores (p : Packet) : Bool := p.signals && p.field 8 8 % 8 == 0

/-- A cause as the state and cause of a status. -/
def PktEnd.failed (c : Cause) : PktEnd := { state := 4, cause := c.code }

/-- The end that a packet's status reports, once its signal store has been checked (R394). A packet that ends with STATE 4 as
it is keeps its cause (log entry 123, DEDUCED). none: the hive must first service a page. -/
def State.endOf (s : State) (p : Packet) (e : PktEnd) : Option PktEnd :=
  if !p.stores then some e
  else match s.feCan p.ctx (p.field 8 8) 8 with
    | .error .pageNp => none
    | .error c => some (if e.state == 4 then e else .failed c)
    | .ok () => some e

/-- Completes a packet: status, with a launch id still to be written, signal, interrupt, CIDX, and HALT where it did not end
well (R45, R394). none: the hive must first service a page. -/
def State.completePacket (s : State) (p : Packet) (e : PktEnd) : Option State :=
  match s.endOf p e with
  | none => none
  | some e' =>
    let st := s.feStore p.ctx (p.slot + 0x38)
      (bytesOfNat 4 (statusWord e'.state e'.cause e'.check) ++ (if p.idDue then bytesOfNat 4 p.launch else []))
    match st with
    | .error .pageNp => none
    | st =>
      let bad := 3 ≤ e'.state || (match st with | .ok _ => false | .error _ => true)
      let s := match st with | .ok s => s | .error _ => s
      let s := if p.stores then
          (match s.feStore p.ctx (p.field 8 8) (bytesOfNat 8 (p.field 0x10 8)) with | .ok s => s | .error _ => s)
        else s
      let s := if p.irq then { s with msix := s.msix ++ [(s.queue p.name.q).msix] } else s
      let s := s.modPacket p.name fun x => { x with stage := .done }
      let s := s.advanceCidx p.name.q (s.packets.length + 1)
      some (if bad then s.haltAt p.name else s)

/-- Ends a packet, whatever it was doing. Where the page of its status or signal is absent, how it ends is settled, and the
access is repeated once the page is there (R41, R394). -/
def State.endPacket (s : State) (p : Packet) (e : PktEnd) : State :=
  (s.completePacket p e).getD
    (s.modPacket p.name fun x => { x with stage := .begun, coll := none, sealed := none, ending := some e })

/-- A packet whose end is settled ends if it now can; any other packet goes on as its kind says. -/
def State.orEnding (s : State) (n : PktName) (go : State) : State :=
  match (s.packet? n).bind fun p => p.ending.map fun e => (p, e) with
  | some (p, e) => s.endPacket p e
  | none => go

/-! ## Fetching (R42, R43) -/

/-- Whether the front end may fetch from a queue. -/
def State.fetchable (s : State) (q : Nat) : Bool :=
  let x := s.queue q
  s.boot.done && x.en && !x.halt && (s.ctx x.ctx).en && x.fidx != x.widx
    && ((s.packetsOf q).filter (·.unbegun)).length < 8

/-- The queue that the next fetch serves: the highest level, then round-robin after the one last served. -/
def State.nextQueue (s : State) : Option Nat :=
  let qs := (s.queues.map (·.1)).filter s.fetchable
  match qs with
  | [] => none
  | _ =>
    let top := qs.foldl (fun m q => Nat.max m (s.queue q).prio) 0
    let lvl := qs.filter fun q => (s.queue q).prio == top
    let last := sget 0 s.served top
    match lvl.find? fun q => last ≤ q with
    | some q => some q
    | none => lvl.head?

/-- The submit stamp of a packet (R362). -/
def Queue.stampOf (x : Queue) (idx : Nat) : Nat :=
  match x.stamps.find? fun e => idxBefore idx e.1 with | some e => e.2 | none => 0

/-- The slot of a packet. -/
def Queue.slotAt (x : Queue) (idx : Nat) : Nat := x.base + 128 * (idx % 2 ^ x.log2slots)

/-- PACKET_FETCH: one packet of the chosen queue is read and gets its sequence number; check 1 is made. A slot whose own read
fails is refused with check 13, whatever it holds (R42 to R46; log entry 101, DESIGN CHOICE). -/
def execPacketFetch (s : State) : Result :=
  .next (match s.nextQueue with
    | none => s
    | some q =>
      let x := s.queue q
      let idx := x.fidx.toNat
      let mk (bytes : List Byte) : Packet :=
        { name := { q := q, idx := idx }, ctx := x.ctx, prio := x.prio, seq := (s.ctx x.ctx).nextSeq, slot := x.slotAt idx,
          bytes := bytes, submit := x.stampOf idx, stage := .fetched, launch := 0, began := s.ticks, coll := none,
          sealed := none, idDue := false, ending := none }
      let take (p : Packet) : State :=
        let s := s.modQueue q fun x =>
          { x with fidx := x.fidx + 1, stamps := x.stamps.filter fun e => idxBefore (idx + 1) e.1 }
        let s := s.modCtx x.ctx fun c => { c with nextSeq := c.nextSeq + 1 }
        { s with served := sset 0 s.served x.prio (q + 1), packets := s.packets ++ [p] }
      match s.sysRead x.ctx (x.slotAt idx) 128 with
      | .error .pageNp => s
      | .error _ =>
        let p := mk (List.replicate 128 0)
        (take p).endPacket p { state := 3, check := 13 }
      | .ok bytes =>
        let p := mk bytes
        if p.headOk && p.bodyOk then take p else (take p).endPacket p { state := 3, check := 1 })

/-! ## Order among packets (R47) -/

/-- Whether a queue lets a packet begin: no packet before it has halted the queue (R45). -/
def State.unhalted (s : State) (p : Packet) : Bool :=
  match (s.queue p.name.q).haltFrom with
  | some m => !idxBefore m p.name.idx
  | none => true

/-- Whether a packet of a kind other than LAUNCH may begin: every earlier packet of its queue has completed. -/
def State.mayStart (s : State) (p : Packet) : Bool :=
  p.stage == .fetched && s.unhalted p && !(s.packetsOf p.name.q).any fun x => x.open && idxBefore x.name.idx p.name.idx

/-- A packet of one kind that may begin. -/
def State.starting? (s : State) (n : PktName) (kind : Nat) : Option Packet :=
  (s.packet? n).filter fun p => p.kind == kind && s.mayStart p

/-- A packet of one kind that may begin or has begun, which it now has (R42). -/
def State.begin? (s : State) (n : PktName) (kind : Nat) : Option (State × Packet) :=
  ((s.packet? n).filter fun p => p.kind == kind && (p.stage == .begun || s.mayStart p)).map fun p =>
    if p.stage == .begun then (s, p)
    else (s.modPacket p.name fun x => { x with stage := .begun, began := s.ticks }, p)

/-! ## WRITE, WAITV, FENCE, and the hive's packets -/

/-- WRITE_PACKET (R47, R394). -/
def execWritePacket (p : PktName) (s : State) : Result :=
  .next (s.orEnding p (match s.begin? p 3 with
    | none => s
    | some (s, p) => match s.feStore p.ctx (p.field 0x40 8) (bytesOfNat (p.field 0x50 1) (p.field 0x48 8)) with
      | .error .pageNp => s
      | .error c => s.endPacket p (.failed c)
      | .ok s => s.endPacket p { state := 1 }))

/-- Whether a word ends a WAITV. -/
def Packet.waitHolds (p : Packet) (word : Nat) : Bool :=
  let n := 2 ^ (8 * p.field 0x58 1)
  let m := p.field 0x50 8 % n
  let a := (word % n) &&& m
  let b := (p.field 0x48 8 % n) &&& m
  match p.field 0x59 1 with | 0 => a == b | 1 => a != b | 2 => b ≤ a | _ => a < b

/-- The read of a WAITV. -/
def State.waitRead (s : State) (p : Packet) : Except Cause Nat :=
  match s.sysRead p.ctx (p.field 0x40 8) (p.field 0x58 1) with
  | .error c => .error c
  | .ok b => .ok (natOfBytes b)

/-- WAITV_PACKET: the wait begins, and each reread that finds the condition true completes it (R47, R394). -/
def execWaitvPacket (p : PktName) (s : State) : Result :=
  .next (s.orEnding p (match s.begin? p 4 with
    | none => s
    | some (s, p) => match s.waitRead p with
      | .error .pageNp => s
      | .error c => s.endPacket p (.failed c)
      | .ok w => if p.waitHolds w then s.endPacket p { state := 1 } else s))

/-- Whether a WAITV's timeout has elapsed. -/
def State.waitLate (s : State) (p : Packet) : Bool :=
  p.kind == 4 && p.stage == .begun && p.ending.isNone && p.field 0x60 8 != 0 && p.began + p.field 0x60 8 ≤ s.ticks

/-- WAITV_TIMEOUT (R47). -/
def execWaitvTimeout (p : PktName) (s : State) : Result :=
  .next (match s.packet? p with
    | none => s
    | some p => if s.waitLate p then s.endPacket p { state := 5 } else s)

/-- Whether a FENCE that has begun may complete. -/
def State.fenceReady (s : State) (p : Packet) : Bool :=
  p.field 0x40 1 % 2 == 0 || !s.packets.any fun x => x.ctx == p.ctx && x.open && x.seq < p.seq

/-- FENCE_PACKET (R47). -/
def execFencePacket (p : PktName) (s : State) : Result :=
  .next (s.orEnding p (match s.begin? p 5 with
    | none => s
    | some (s, p) => if s.fenceReady p then s.endPacket p { state := 1 } else s))

/-- Bytes that a receipt takes with no entry (R359, R360). -/
def receiptMin : Nat := 3748

/-- SEAL_PACKET: the checks that need no signer, the snapshot, and the hand-over to the hive (R359, R360). -/
def execSealPacket (p : PktName) (s : State) : Result :=
  .next (s.orEnding p (match s.starting? p 6 with
    | none => s
    | some p =>
      let c := s.ctx p.ctx
      if c.frozen || !p.zero 0x4C 4 || !p.zero 0x70 16 then s.endPacket p { state := 3, check := 1 }
      else if p.field 0x40 8 % 64 != 0 then s.endPacket p { state := 3, check := 13 }
      else if p.field 0x48 4 < receiptMin then s.endPacket p { state := 3, check := 17 }
      else
        let x : Seal :=
          { chain := c.chain, launches := c.launches, completions := c.completions, entries := c.unsealed, stamp := s.ticks }
        (s.modPacket p.name fun y => { y with stage := .hive, began := s.ticks, sealed := some x }).postEvent (.packet p)))

/-- CANCEL_PACKET: the hive runs it (R66, R335). -/
def execCancelPacket (p : PktName) (s : State) : Result :=
  .next (s.orEnding p (match s.starting? p 7 with
    | none => s
    | some p => (s.modPacket p.name fun y => { y with stage := .hive, began := s.ticks }).postEvent (.packet p)))

end Sys2Proof.Machine
end

