-- ==== Sys2Proof/Machine/Records.lean ====
section
/-! DEFINITION. Records.lean: launch records and kernel descriptors as bytes (R23, R27). -/

namespace Sys2Proof.Machine

/-- A launch record (R27), as a LAUNCH packet holds it or as a spawn wrote it. -/
structure LRec where
  kernel : Nat
  args : Nat
  intervals : Nat
  gx : Nat
  gy : Nat
  gz : Nat
  inputs : Nat
  outputs : Nat
  flags : Nat
  lcores : Nat
  batch : Nat
  argbytes : Nat
  done : Nat
  raw : List Byte
deriving DecidableEq, Repr

/-- A launch record of its 64 bytes. -/
def LRec.ofBytes (b : List Byte) : LRec :=
  { kernel := fieldAt b 0 8, args := fieldAt b 8 8, intervals := fieldAt b 0x10 8, gx := fieldAt b 0x18 4, gy := fieldAt b 0x1C 2,
    gz := fieldAt b 0x1E 2, inputs := fieldAt b 0x20 1, outputs := fieldAt b 0x21 1, flags := fieldAt b 0x22 2,
    lcores := fieldAt b 0x24 2, batch := fieldAt b 0x26 1, argbytes := fieldAt b 0x28 4, done := fieldAt b 0x30 8, raw := b }

/-- Whether the record's reserved bytes are zero (check 10). -/
def LRec.reservedOk (r : LRec) : Bool :=
  fieldAt r.raw 0x27 1 == 0 && fieldAt r.raw 0x2C 4 == 0 && fieldAt r.raw 0x38 8 == 0
/-- Bits of the record's flags. -/
def LRec.flag (r : LRec) (i : Nat) : Bool := r.flags / 2 ^ i % 2 == 1
/-- Teams of the record's grid. -/
def LRec.teams (r : LRec) : Nat := r.gx * r.gy * r.gz
/-- The batch size: 0 selects 8. -/
def LRec.batchSize (r : LRec) : Nat := if r.batch == 0 then 8 else r.batch

/-- A kernel descriptor of its 64 bytes. -/
def KDesc.ofBytes (b : List Byte) : KDesc :=
  { entry := fieldAt b 0 8, codeBytes := fieldAt b 8 4, tx := fieldAt b 0xC 2, ty := fieldAt b 0xE 2, tz := fieldAt b 0x10 2,
    wregs := fieldAt b 0x12 2, scratch := fieldAt b 0x14 4, swarm := fieldAt b 0x18 1, scalars := fieldAt b 0x19 1,
    flags := fieldAt b 0x1A 2, raw := b }

/-- Check 3 of R48. A reserved bit of the flags that is not zero fails it too (R24; log entry 105, DEDUCED). -/
def KDesc.shapeOk (d : KDesc) : Bool :=
  d.flags < 64 && fieldAt d.raw 0x1C 4 == 0 && 1 ≤ d.threads && d.threads ≤ 1024 && d.wregs % 8 == 0 && 8 ≤ d.wregs &&
    d.wregs ≤ 256 && d.scratch ≤ 524288 && d.scratch % 256 == 0 && 1 ≤ d.swarm && d.swarm ≤ 16 && d.scalars ≤ 32 &&
    d.wregs * d.threads * 4 ≤ 524288

/-- The code digest that a descriptor carries. -/
def KDesc.digest (d : KDesc) : List Byte := d.raw.drop 0x20

/-- Whether a byte range lies within one interval; an empty range does. -/
def coveredBy (ivs : List Interval) (lo n : Nat) : Bool := n == 0 || inOne ivs lo n

end Sys2Proof.Machine
end

