-- ==== Sys2Proof/Machine/Sha256.lean ====
section
/-! DEFINITION. Sha256.lean: SHA-256, the digest the hash engines and the front end compute (R57 to R59, R356). The
spec names the function and does not restate it; log entry 6, PRESUMED. -/

namespace Sys2Proof.Machine

/-- The first 32 bits of the fractional parts of the cube roots of the first 64 primes. -/
def shaK : List W32 :=
  [0x428A2F98, 0x71374491, 0xB5C0FBCF, 0xE9B5DBA5, 0x3956C25B, 0x59F111F1, 0x923F82A4, 0xAB1C5ED5,
   0xD807AA98, 0x12835B01, 0x243185BE, 0x550C7DC3, 0x72BE5D74, 0x80DEB1FE, 0x9BDC06A7, 0xC19BF174,
   0xE49B69C1, 0xEFBE4786, 0x0FC19DC6, 0x240CA1CC, 0x2DE92C6F, 0x4A7484AA, 0x5CB0A9DC, 0x76F988DA,
   0x983E5152, 0xA831C66D, 0xB00327C8, 0xBF597FC7, 0xC6E00BF3, 0xD5A79147, 0x06CA6351, 0x14292967,
   0x27B70A85, 0x2E1B2138, 0x4D2C6DFC, 0x53380D13, 0x650A7354, 0x766A0ABB, 0x81C2C92E, 0x92722C85,
   0xA2BFE8A1, 0xA81A664B, 0xC24B8B70, 0xC76C51A3, 0xD192E819, 0xD6990624, 0xF40E3585, 0x106AA070,
   0x19A4C116, 0x1E376C08, 0x2748774C, 0x34B0BCB5, 0x391C0CB3, 0x4ED8AA4A, 0x5B9CCA4F, 0x682E6FF3,
   0x748F82EE, 0x78A5636F, 0x84C87814, 0x8CC70208, 0x90BEFFFA, 0xA4506CEB, 0xBEF9A3F7, 0xC67178F2]

/-- The first 32 bits of the fractional parts of the square roots of the first 8 primes. -/
def shaInit : List W32 :=
  [0x6A09E667, 0xBB67AE85, 0x3C6EF372, 0xA54FF53A, 0x510E527F, 0x9B05688C, 0x1F83D9AB, 0x5BE0CD19]

/-- The eight words of the running state. -/
structure ShaState where
  a : W32
  b : W32
  c : W32
  d : W32
  e : W32
  f : W32
  g : W32
  h : W32
deriving DecidableEq, Repr

def shaBigSigma0 (x : W32) : W32 := x.rotateRight 2 ^^^ x.rotateRight 13 ^^^ x.rotateRight 22
def shaBigSigma1 (x : W32) : W32 := x.rotateRight 6 ^^^ x.rotateRight 11 ^^^ x.rotateRight 25
def shaSigma0 (x : W32) : W32 := x.rotateRight 7 ^^^ x.rotateRight 18 ^^^ x >>> 3
def shaSigma1 (x : W32) : W32 := x.rotateRight 17 ^^^ x.rotateRight 19 ^^^ x >>> 10

/-- One round with a constant and a schedule word. -/
def shaRound (s : ShaState) (k w : W32) : ShaState :=
  let t1 := s.h + shaBigSigma1 s.e + ((s.e &&& s.f) ^^^ (~~~s.e &&& s.g)) + k + w
  let t2 := shaBigSigma0 s.a + ((s.a &&& s.b) ^^^ (s.a &&& s.c) ^^^ (s.b &&& s.c))
  { a := t1 + t2, b := s.a, c := s.b, d := s.c, e := s.d + t1, f := s.e, g := s.f, h := s.g }

/-- The rounds: each takes the head of a 16-word window and appends the next schedule word. -/
def shaRounds : List W32 → List W32 → ShaState → ShaState
  | [], _, s => s
  | k :: ks, w, s =>
    let w0 := w.headD 0
    let next := shaSigma1 (w.getD 14 0) + w.getD 9 0 + shaSigma0 (w.getD 1 0) + w0
    shaRounds ks (w.tail ++ [next]) (shaRound s k w0)

/-- A big-endian word of four bytes. -/
def shaWord (bs : List Byte) : W32 := bs.foldl (fun acc b => acc <<< 8 ||| b.setWidth 32) 0

/-- The sixteen words of a block. -/
def shaWords (blk : List Byte) : List W32 :=
  (List.range 16).map fun i => shaWord ((blk.drop (4 * i)).take 4)

/-- One block into the state. -/
def shaBlock (s : ShaState) (blk : List Byte) : ShaState :=
  let r := shaRounds shaK (shaWords blk) s
  { a := s.a + r.a, b := s.b + r.b, c := s.c + r.c, d := s.d + r.d, e := s.e + r.e, f := s.f + r.f,
    g := s.g + r.g, h := s.h + r.h }

/-- The padded message: a one bit, zeros to 56 modulo 64 bytes, the length in bits big-endian. -/
def shaPad (m : List Byte) : List Byte :=
  let n := m.length
  let z := (119 - n % 64) % 64
  m ++ [(0x80 : Byte)] ++ List.replicate z 0
    ++ (List.range 8).map fun i => BitVec.ofNat 8 (8 * n / 2 ^ (8 * (7 - i)))

/-- The blocks in order, for a number of blocks. -/
def shaBlocks : Nat → List Byte → ShaState → ShaState
  | 0, _, s => s
  | k + 1, m, s => shaBlocks k (m.drop 64) (shaBlock s (m.take 64))

/-- The four bytes of a word, most significant first. -/
def shaBytes (w : W32) : List Byte := [w.extractLsb' 24 8, w.extractLsb' 16 8, w.extractLsb' 8 8, w.extractLsb' 0 8]

/-- SHA-256 of a list of bytes: 32 bytes. -/
def sha256 (m : List Byte) : List Byte :=
  let p := shaPad m
  let i (k : Nat) : W32 := shaInit.getD k 0
  let s0 : ShaState := { a := i 0, b := i 1, c := i 2, d := i 3, e := i 4, f := i 5, g := i 6, h := i 7 }
  let s := shaBlocks (p.length / 64) p s0
  [s.a, s.b, s.c, s.d, s.e, s.f, s.g, s.h].flatMap shaBytes

end Sys2Proof.Machine
end

