-- ==== Sys2Proof/Machine/Digest.lean ====
section
/-! DEFINITION. Digest.lean: the digests of intervals (R58), the launch code digest (R59), the measurement chain with its
two records (R60, R356, R357), and the reuse key (R62). -/

namespace Sys2Proof.Machine

/-! ## Interval digests (R58, R358) -/

/-- The parts of a range that lie in one 64 KiB page each: address and length. -/
def pageParts (va n : Nat) : List (Nat × Nat) :=
  if n = 0 then []
  else (List.range (pageOf (va + n - 1) - pageOf va + 1)).map fun i =>
    let lo := Nat.max va ((pageOf va + i) * 65536)
    (lo, Nat.min (va + n) ((pageOf va + i + 1) * 65536) - lo)

/-- The digest of a part: its data bytes, then the descriptors of the blocks it overlaps. A hash engine consumes a
poisoned block (R209). -/
def State.partDigest (s : State) (ctx va n : Nat) : Except Cause (List Byte) :=
  let r : Except Cause (List Byte × List Byte) := (blockParts va n).foldl (init := .ok ([], [])) fun acc x =>
    match acc with
    | .error c => .error c
    | .ok (bs, ds) => match s.sysBlock ctx x.1 with
      | .error c => .error c
      | .ok b => match b.poison with
        | some c => .error c
        | none => .ok (bs ++ (b.bytes.drop (x.1 % 64)).take x.2, ds ++ bytesOfNat 2 b.descr.toNat)
  match r with
  | .error c => .error c
  | .ok (bs, ds) => .ok (sha256 (bs ++ ds))

/-- Results in order, or the first failure. -/
def collect {α β : Type} (f : α → Except Cause β) (l : List α) : Except Cause (List β) :=
  l.foldl (init := .ok []) fun acc x =>
    match acc with
    | .error c => .error c
    | .ok ys => match f x with
      | .error c => .error c
      | .ok y => .ok (ys ++ [y])

/-- The digest of an interval, of memory as it stands. -/
def State.intervalDigest (s : State) (ctx : Nat) (v : Interval) : Except Cause (List Byte) :=
  match collect (fun p => s.partDigest ctx p.1 p.2) (pageParts v.base v.len) with
  | .error c => .error c
  | .ok ds => .ok (sha256 ds.flatten)

/-- Sets and ways of the page digest table (R358). -/
def digestSets : Nat := 65536
def digestWays : Nat := 4

/-- The page digest table takes the digest of a whole page that has been hashed (R358). Which entry of a full set it replaces
is a free choice (log entry 99, DESIGN CHOICE). -/
def State.putDigest (s : State) (page : Nat) (d : List Byte) : State :=
  let set := s.digests.filter fun e => e.1 % digestSets == page % digestSets && e.1 != page
  if set.length < digestWays then { s with digests := sset [] s.digests page d }
  else
    let out := (set[Config.freeNat s.free % set.length]?.map (·.1)).getD page
    { s with digests := sset [] (s.digests.filter fun e => e.1 != out) page d, free := s.free + 1 }

/-- A hash engine's digest of one part of an interval: the table's, where it holds the page; else it hashes, and the table
takes a whole page (R358). -/
def State.hashPart (s : State) (ctx va n : Nat) : State × Except Cause (List Byte) :=
  let page : Option Nat := match s.sysPlace ctx va .read with
    | .ok (.here pa) => if n == 65536 then some (pageOf pa) else none
    | .ok (.peer _ _) => none
    | .error _ => none
  match page.bind fun p => (s.digests.find? fun e => e.1 == p).map (·.2) with
  | some d => (s, .ok d)
  | none => match s.partDigest ctx va n, page with
    | .ok d, some p => (s.putDigest p d, .ok d)
    | r, _ => (s, r)

/-- Results in order with what each leaves behind, up to the first failure. -/
def hashEach {α : Type} (f : State → α → State × Except Cause (List Byte)) (s : State) (l : List α) :
    State × Except Cause (List (List Byte)) :=
  l.foldl (init := (s, .ok [])) fun acc x =>
    match acc.2 with
    | .error _ => acc
    | .ok ys =>
      let r := f acc.1 x
      (r.1, match r.2 with | .error c => .error c | .ok y => .ok (ys ++ [y]))

/-- The digest of an interval, with the page digest table. -/
def State.hashInterval (s : State) (ctx : Nat) (v : Interval) : State × Except Cause (List Byte) :=
  let r := hashEach (fun s p => s.hashPart ctx p.1 p.2) s (pageParts v.base v.len)
  (r.1, match r.2 with | .error c => .error c | .ok ds => .ok (sha256 ds.flatten))

/-- The digests of some intervals. -/
def State.hashIntervals (s : State) (ctx : Nat) (vs : List Interval) : State × Except Cause (List (List Byte)) :=
  hashEach (fun s v => s.hashInterval ctx v) s vs

/-! ## The launch code digest (R59) -/

/-- The immediate of a word of format L (R89). -/
def limm (w : Nat) : Nat := w % 2 ^ 32
/-- The address of the grid record that the two movi words of a generated seed encode (R27). -/
def State.seedGridAddr (s : State) (ctx entry : Nat) : Except Cause Nat :=
  match s.sysRead ctx (entry + 8) 16 with
  | .error c => .error c
  | .ok b => .ok (limm (fieldAt b 0 8) + 2 ^ 32 * limm (fieldAt b 8 8))

/-- What a launch names of the grid record of its generated seed: the record's bytes and the bytes of the descriptor
that the record names. -/
def State.seedGrid (s : State) (ctx : Nat) (d : KDesc) : Except Cause (List Byte × List Byte) :=
  if !d.isSeed then .ok ([], [])
  else match s.seedGridAddr ctx d.entry with
    | .error c => .error c
    | .ok va => match s.sysRead ctx va 64 with
      | .error c => .error c
      | .ok rec' => match s.sysRead ctx (fieldAt rec' 0 8) 64 with
        | .error c => .error c
        | .ok desc => .ok (rec', desc)

/-- The launch code digest, of the seed's descriptor and what its grid record names. -/
def codeDigestOf (d : KDesc) (g : List Byte × List Byte) : List Byte :=
  sha256 (d.raw.drop 8 ++ (if d.isSeed then g.2.drop 8 ++ (g.1.drop 0x18).take 8 else []))

/-! ## The chain (R60, R356, R357) -/

/-- The launch measurement record. -/
def measureRecord (l : Launch) : List Byte :=
  bytesOfNat 1 1 ++ bytesOfNat 1 0 ++ bytesOfNat 2 l.flags ++ bytesOfNat 4 l.id ++ l.codeDigest ++ sha256 l.args ++
    bytesOfNat 1 l.inputs.length ++ bytesOfNat 1 l.outputs.length ++ List.replicate 6 0 ++
    ((l.inputs.zip l.inDigests).flatMap fun x => bytesOfNat 8 x.1.base ++ bytesOfNat 8 x.1.len ++ x.2) ++
    (l.outputs.flatMap fun v => bytesOfNat 8 v.base ++ bytesOfNat 8 v.len)

/-- REUSED, PURE and DET as a completion record and a receipt hold them. -/
def completionFlags (l : Launch) (reused : Bool) : Nat :=
  (if reused then 1 else 0) + (if l.pure then 2 else 0) + (if l.det then 4 else 0)

/-- The completion record. -/
def completionRecord (l : Launch) (state cause : Nat) (reused : Bool) (ds : List (List Byte)) : List Byte :=
  bytesOfNat 1 2 ++ bytesOfNat 1 state ++ bytesOfNat 1 cause ++ bytesOfNat 1 (completionFlags l reused) ++ bytesOfNat 4 l.id ++
    bytesOfNat 1 ds.length ++ List.replicate 7 0 ++ ds.flatten

/-- Records appended to a context's chain since enable. -/
def Ctx.chainLength (c : Ctx) : Nat := c.launches + c.completions

/-- Appends a launch measurement record; the launch keeps its chain position (R60, R364). -/
def State.appendMeasure (s : State) (l : Launch) : State :=
  let c := s.ctx l.ctx
  let s := s.modCtx l.ctx fun c => { c with chain := sha256 (c.chain ++ measureRecord l), launches := c.launches + 1 }
  s.modLaunch l.ctx l.id fun l => { l with measured := some c.chainLength }

/-- Appends a completion record; it waits to be sealed (R356, R359). -/
def State.appendCompletion (s : State) (l : Launch) (state cause : Nat) (reused : Bool) (ds : List (List Byte)) : State :=
  let pos := (s.ctx l.ctx).chainLength
  let e : Completion :=
    { launch := l.id, state := state, cause := cause, flags := completionFlags l reused, stamp := s.ticks,
      digests := ds }
  let s := s.modCtx l.ctx fun c =>
    { c with chain := sha256 (c.chain ++ completionRecord l state cause reused ds), completions := c.completions + 1,
             unsealed := c.unsealed ++ [e] }
  s.modLaunch l.ctx l.id fun l => { l with completed := some pos }

/-! ## The reuse key (R62) -/

/-- The reuse key of a pure launch. -/
def reuseKeyOf (asid : Nat) (l : Launch) : List Byte :=
  sha256 (bytesOfNat 2 asid ++ l.codeDigest ++ bytesOfNat 2 (l.flags / 4 * 4) ++ bytesOfNat 4 l.args.length ++ l.args ++
    bytesOfNat 1 l.inputs.length ++
    ((l.inputs.zip l.inDigests).flatMap fun x => bytesOfNat 8 x.1.base ++ bytesOfNat 8 x.1.len ++ x.2) ++
    bytesOfNat 1 l.outputs.length ++ (l.outputs.flatMap fun v => bytesOfNat 8 v.len))

end Sys2Proof.Machine
end

