-- ==== Sys2Proof/Machine/Link.lean ====
section
/-! DEFINITION. Link.lean: the flow engines: predictor regions (R306), predictions (R307), coding and sending segments
(R303, R305, R308, R313, R327), tile transfers (R315 to R318) and flow resets (R311, R321). -/

namespace Sys2Proof.Machine

/-! ## Predictor regions (R306) -/

/-- A flow as a die's region holds it: its flow-state entry, its tables and its block count. -/
structure Flow where
  entry : Place
  tables : Place
  n : Nat
deriving DecidableEq, Repr

/-- Bytes of a place as a number. -/
def State.natAt (s : State) (p : Place) (n : Nat) : Nat := natOfBytes (s.bytesAt p n)

/-- The flow of a key in a region. -/
def State.flowIn (s : State) (r : Region) (key : Nat) : Option Flow :=
  ((List.range r.flows).find? fun i => s.natAt (r.place.add (16 * i)) 2 == key).map fun i =>
    let e := r.place.add (16 * i)
    { entry := e, tables := r.place.add (s.natAt (e.add 8) 8), n := s.natAt (e.add 4) 4 }

/-- The flow of a key on a die, in whichever of the context's regions holds it. -/
def State.flow? (s : State) (ctx : Nat) (c : Coord) (key : Nat) : Option Flow :=
  if key == 0 then none
  else (s.regions.filter fun r => r.ctx == ctx && r.die == c).findSome? fun r => s.flowIn r key

/-- A table line: of the send table, or of the receive table behind it. -/
def Flow.line (f : Flow) (recv : Bool) (b : Nat) : Place := f.tables.add (64 * (if recv then f.n + b else b))
/-- A block's tag: SG, then RG and RS at offsets 2 and 4. -/
def Flow.tag (f : Flow) (b : Nat) : Place := f.tables.add (128 * f.n + 8 * b)
/-- The send generation G. -/
def State.genOf (s : State) (f : Flow) : Nat := s.natAt (f.entry.add 2) 2
/-- Writes two bytes of a flow-state entry or a tag. -/
def State.put16 (s : State) (p : Place) (v : Nat) : State := s.writeBytes p (bytesOfNat 2 v)
/-- RG := 0 on every tag of a key. -/
def State.clearTags (s : State) (f : Flow) : State :=
  (List.range f.n).foldl (fun s b => s.put16 ((f.tag b).add 2) 0) s
/-- RS as a tag holds it (R306). -/
def sourceTag (c : Coord) : Nat := c + 32768

/-- G := G + 1, with the tags of every region of the context cleared before it would wrap (R311). -/
def State.bumpGen (s : State) (ctx : Nat) (f : Flow) (key : Nat) : State :=
  if s.genOf f < 0xFFFF then s.put16 (f.entry.add 2) (s.genOf f + 1)
  else
    let s := (s.regions.filter fun r => r.ctx == ctx).foldl (init := s) fun s r =>
      match s.flowIn r key with | some g => s.clearTags g | none => s
    s.put16 (f.entry.add 2) 1

/-! ## Coding (R303, R307) -/

/-- The prediction where nothing is known. -/
def noPrediction : Block := { bytes := List.replicate 64 0, descr := plainDescr, poison := none }
/-- A table line as a prediction. -/
def State.lineAt (s : State) (p : Place) : Block := (s.readBlock p).getD noPrediction
/-- A prediction becomes the data sent, over the elements present (R307). -/
def State.recordLine (s : State) (p : Place) (b : Block) : State := s.writePart p 0 b.bytes b.descr none

/-- Elements present in n bytes of a block (R303). -/
def presentElems (d : Descr) (n : Nat) : Nat := (8 * n + furrowWidth (fmtOf d) - 1) / furrowWidth (fmtOf d)
/-- Bytes of those elements. -/
def presentBytes (d : Descr) (n : Nat) : Nat := presentElems d n * furrowWidth (fmtOf d) / 8
/-- A block cut to the elements that n bytes of it need; what it lacks is sent as zero. -/
def Block.present (b : Block) (n : Nat) : Block :=
  let k := presentBytes b.descr n
  { b with bytes := (b.bytes.take n ++ List.replicate k 0).take k }

/-- A block to send: its flow block index, its code in its operation, its data, and its parts at each receiver. -/
structure FlowItem where
  idx : Nat
  code : Nat
  data : Block
  parts : List (List (Place × Nat))
deriving DecidableEq, Repr

/-- A receiver of a segment: its rank, what it adds to a block's code, and the collective step it belongs to. -/
structure Receiver where
  rank : Coord
  shift : Nat
  coll : Option CollRef
deriving DecidableEq, Repr

/-- A segment's blocks in groups of at most 64 with consecutive indices, a partial block only at the end (R308). -/
def segmentsOf (items : List FlowItem) : List (List FlowItem) :=
  (items.foldl (init := ([] : List (List FlowItem))) fun acc x =>
    match acc with
    | [] => [[x]]
    | cur :: rest => match cur with
      | [] => [x] :: rest
      | l :: _ =>
        if cur.length < 64 && x.idx == l.idx + 1 && l.data.bytes.length == 64 then (x :: cur) :: rest
        else [x] :: cur :: rest).reverse.map List.reverse

/-- The CRC of a segment (R309). -/
def blocksCrc (bs : List Block) : W32 := crc32c (bs.flatMap fun b => b.bytes ++ bytesOfNat 2 b.descr.toNat)

/-- The bits of a REFRESH, or of blocks sent against given predictions (R303, R310). -/
def codeBlocks (bs : List (Block × Block)) (refresh : Bool) : BitStr :=
  bs.foldl (init := BitStr.empty) fun acc x =>
    acc.append (encodeBlock x.1.bytes x.2.bytes x.1.descr x.2.descr (presentElems x.1.descr x.1.bytes.length) refresh)

/-- The sender's prediction of a block (R307). -/
def State.sendPrediction (s : State) (f : Option Flow) (b : Nat) : Block :=
  match f with
  | none => noPrediction
  | some f => if s.natAt (f.tag b) 2 == s.genOf f then s.lineAt (f.line false b) else noPrediction

/-- The next sequence number of a key, source and destination, and the count advanced (R327). -/
def State.takeSeq (s : State) (ctx key : Nat) (src dst : Coord) : State × Nat :=
  let mine (q : SeqNum) : Bool := q.ctx == ctx && q.key == key && q.src == src && q.dst == dst
  match s.seqNums.find? mine with
  | some q => ({ s with seqNums := modWhere mine (fun q => { q with send := (q.send + 1) % 2 ^ 32 }) s.seqNums }, q.send)
  | none =>
    ({ s with seqNums := s.seqNums ++ [{ ctx := ctx, key := key, src := src, dst := dst, send := 1, recv := 0 }] }, 0)

/-- Codes one segment against the sender's predictions, updates them, and puts a copy on the wire for each receiver
(R305, R307, R308, R313). -/
def State.sendSegment (s : State) (ctx key : Nat) (src : Coord) (rs : List Receiver) (single : Bool) (reduce : Nat)
    (move : Option Nat) (items : List FlowItem) : State :=
  let f := s.flow? ctx src key
  let gen := match f with | some f => s.genOf f | none => 0
  let first := match f with
    | some f => items.all fun x => s.natAt (f.tag x.idx) 2 != gen
    | none => false
  let str := codeBlocks (items.map fun x => (x.data, s.sendPrediction f x.idx)) false
  let lastElems := match items.getLast? with
    | some x => if x.data.bytes.length == 64 then 0 else presentElems x.data.descr x.data.bytes.length
    | none => 0
  let s := match f with
    | none => s
    | some f => items.foldl (fun s x => (s.recordLine (f.line false x.idx) x.data).put16 (f.tag x.idx) gen) s
  rs.zipIdx.foldl (init := s) fun s r =>
    let (s, seq) := s.takeSeq ctx key src r.1.rank
    let g : Segment :=
      { id := s.nextSegment, kind := .data, ctx := ctx, asid := (s.ctx ctx).asid, key := key, gen := gen, first := first, src := src,
        dst := r.1.rank, index := (items.head?.map (·.idx)).getD 0, last := lastElems, payload := str.bits,
        bits := str.len, crc := blocksCrc (items.map (·.data)), seq := seq, reduce := reduce, crcErr := false,
        move := move, coll := r.1.coll, single := single,
        blocks := items.map fun x => { code := r.1.shift + x.code, parts := x.parts.getD r.2 [], data := x.data },
        fails := 0 }
    { s with segments := s.segments ++ [g], nextSegment := s.nextSegment + 1 }

/-- Sends blocks as segments to some receivers. -/
def State.sendAll (s : State) (ctx key : Nat) (src : Coord) (rs : List Receiver) (single : Bool) (reduce : Nat)
    (move : Option Nat) (items : List FlowItem) : State :=
  (segmentsOf items).foldl (fun s g => s.sendSegment ctx key src rs single reduce move g) s

/-- What stops the encoder: a reserved format code (R146), or poison on a keyed flow (R209). -/
def flowBad (key : Nat) (items : List FlowItem) : Option Cause :=
  if items.any fun x => fmtReserved (fmtOf x.data.descr) then some .format
  else if key == 0 then none else items.findSome? fun x => x.data.poison

/-! ## Tile transfers (R315 to R318) -/

/-- The flow block index of a block: its offset from the layout's base (R307). -/
def Layout.flowIndex (l : Layout) (b : TileBlock) : Nat := (b.va + 2 ^ 64 - l.base) % 2 ^ 64 / 64

/-- The parts of memory that a block has at a rank. At a peer package they are the bytes at the same address of the
context bound there (log entry 20, DEDUCED). -/
def State.rankParts (s : State) (ctx : Nat) (rank : Coord) (va n : Nat) (acc : Acc) : Except Cause (List (Place × Nat)) :=
  if s.isOurs rank then s.placesOf ctx va n acc
  else .ok ((blockParts va n).map fun x => (.peer (rank % 4096) x.1, x.2))

/-- What else fails a transfer's record with FORMAT (R317). -/
def State.xferBad (s : State) (ctx die : Nat) (pull : Bool) (l : Layout) (cs : List Int) : Bool :=
  l.reduce > 5 || (pull && (l.rep != 0 || l.reduce != 0)) || !redAdmits l.reduce l.format
    || (l.key != 0
      && ((s.dieCoord die :: l.ranks.map (·.2)).any (fun c => (s.flow? ctx c l.key).isNone)
        || (match s.flow? ctx (s.dieCoord die) l.key with
            | some f => (l.inRange cs).any fun b => f.n ≤ l.flowIndex b
            | none => true)))

/-- The scope at which a transfer's blocks are performed (R318). -/
def State.xferScope (s : State) (die : Nat) (l : Layout) (sc : Scope) : Scope :=
  let need : Scope :=
    if l.ranks.all fun r => r.2 == s.dieCoord die then .die
    else if l.ranks.all fun r => s.isOurs r.2 then .pkg else .sys
  if sc.narrower need then need else sc

/-- The blocks of a transfer as its sender finds them, with their parts at each rank of the list. -/
def State.xferItems (s : State) (m : Move) (ranks : List (Nat × Coord)) : Except (Cause × Nat) (List FlowItem) :=
  let n := m.lay.blocks
  ((List.range n).filter fun i => (m.block i).nibs != 0).foldl (init := .ok []) fun done i =>
    match done with
    | .error e => .error e
    | .ok items =>
      let b := m.block i
      let parts : Except (Cause × Nat) (List (List (Place × Nat))) :=
        ranks.foldl (init := .ok []) fun acc r =>
          let va := (m.block (r.1 * n + i)).va
          match acc with
          | .error e => .error e
          | .ok ps => match s.rankParts m.key.ctxId r.2 va (m.lay.memBytes b) (if m.kind.inbound then .read else .write) with
            | .error c => .error (c, va)
            | .ok p => .ok (ps ++ [p])
      match parts with
      | .error e => .error e
      | .ok ps =>
        let src : Block := if m.kind.inbound then
            (match (ps.headD []).head? with
             | some p => (match s.readBlock p.1 with | some x => x | none => noPrediction)
             | none => noPrediction)
          else (match s.team? m.key with | some t => t.spBlock (m.off + b.off) | none => noPrediction)
        .ok (items ++ [{ idx := m.lay.flowIndex b, code := i, data := src.present b.bytes, parts := ps }])

/-- A transfer's blocks that cross a link are coded and sent: at issue, and again when a page it stopped on is replayed
(R305, R318). Nothing is sent unless every address translates. A launch that would send to, or take from, a package that has gone
silent fails (R378). -/
def State.sendMove (s : State) (m : Move) : State :=
  let own := s.dieCoord (dieOf m.core)
  let cross := m.lay.ranks.filter fun r => r.2 != own
  let left := m.left.filter fun c => m.kind.inbound || (m.block c).nibs != 0
  let s := s.modMove m.id fun m => { m with left := left }
  if cross.isEmpty then s.modMove m.id fun m => { m with sent := true }
  else if cross.any fun r => s.silent.contains (r.2 % 4096) then s.failLaunchOf m.key .machine 0
  else match s.xferItems m cross with
    | .error (.pageNp, va) =>
      let s := s.modMove m.id fun m => { m with stopped := some s.nextGroup }
      s.takeReport m.key (.move m.id) (m.record .pageNp va s.ticks) []
    | .error (c, _) => s.failLaunchOf m.key c 0
    | .ok items =>
      match flowBad m.lay.key items with
      | some c => s.failLaunchOf m.key c 0
      | none =>
        let s := s.modMove m.id fun m => { m with sent := true }
        let single := m.lay.ranks.length == 1
        if m.kind.inbound then
          s.sendAll m.key.ctxId m.lay.key m.lay.coord [{ rank := own, shift := 0, coll := none }] single 0 (some m.id) items
        else
          s.sendAll m.key.ctxId m.lay.key own (cross.map fun r => { rank := r.2, shift := r.1 * m.lay.blocks, coll := none })
            single m.lay.reduce (some m.id) items

/-- TXFER (R317, R318). -/
def execTxfer (c : Ctl) (d a b : Reg) (bn : Option (BitVec 4)) (pull : Bool) (sc : Scope) (s : State) : Result :=
  issue (syncWord c (moveSlots d a b) []) (fun s site x =>
    s.moveAct site x (if pull then .pull else .push) d a b bn sc
      (fun s l cs => s.xferBad site.key.ctxId (dieOf site.core) pull l cs)
      (fun l => s.xferScope (dieOf site.core) l sc) (fun s m => s.sendMove m)) s

/-- TRANSFER_RETIRE (R318). -/
def execTransferRetire (op : Nat) (s : State) : Result :=
  .next (match s.move? op with
    | none => s
    | some m => if m.left.isEmpty && m.sent && m.kind.isXfer then s.retireMove m else s)

/-! ## Resetting a flow (R321) -/

/-- FLOW_RESET. -/
def execFlowReset (c : Ctl) (key : BitVec 16) (s : State) : Result :=
  issue (syncWord c [] []) (fun s site _ =>
    (match s.flow? site.key.ctxId (s.dieCoord (dieOf site.core)) key.toNat with
     | none => s
     | some f => (s.bumpGen site.key.ctxId f key.toNat).clearTags f, .nothing)) s

end Sys2Proof.Machine
end

