-- ==== Sys2Proof/Machine/Convert.lean ====
section
/-! DEFINITION. Convert.lean: cvt, cvtts, pack and unpack (R183 to R186). -/

namespace Sys2Proof.Machine

/-! ## Types of a conversion (R183, R184) -/

/-- What a type code is: an integer of a sign and width, a float format, or TS8. -/
inductive CKind
  | int (signed : Bool) (width : Nat)
  | flt (F : FFmt)
  | ts8
deriving DecidableEq, Repr

/-- The kind of a cvt type. -/
def kindOfCTy (t : CTy) : CKind :=
  match t with
  | .s32 => .int true 32 | .n32 => .int false 32 | .s64 => .int true 64 | .n64 => .int false 64
  | .s16 => .int true 16 | .n16 => .int false 16 | .s8 => .int true 8 | .n8 => .int false 8
  | .s4 => .int true 4 | .n4 => .int false 4
  | .f32 => .flt .f32 | .f16 => .flt .f16 | .bf16 => .flt .bf16
  | .ts8 => .ts8

/-- The lowest value of an integer type. -/
def intLo (signed : Bool) (w : Nat) : Int := if signed then -2 ^ (w - 1) else 0
/-- The highest value of an integer type. -/
def intHi (signed : Bool) (w : Nat) : Int := if signed then 2 ^ (w - 1) - 1 else 2 ^ w - 1
/-- The low w bits of a value read as an integer type. -/
def intVal (signed : Bool) (w v : Nat) : Int :=
  let x := v % 2 ^ w
  if signed && 2 ^ (w - 1) ≤ x then (x : Int) - 2 ^ w else x
/-- An integer as an exact value. -/
def FVal.ofInt (x : Int) : FVal := .fin (x < 0) x.natAbs 0

/-- The value of a source. -/
def CKind.value (K : CKind) (ftz : Bool) (v : Nat) : FVal :=
  match K with
  | .int sg w => FVal.ofInt (intVal sg w v)
  | .flt F => F.operand ftz (v % 2 ^ F.width)
  | .ts8 => ts8Read (v % 256)

/-- An integer destination's overflow under a policy (R155): nan says that the source is a NaN; none is CVT_OVF. -/
def intOver (signed : Bool) (w : Nat) (o : Ovf) (neg nan : Bool) : Option Int :=
  match o with
  | .sat => some (if nan then 0 else if neg then intLo signed w else intHi signed w)
  | .inf => some (intLo signed w)
  | .nan => some (intLo signed w)
  | .trp => none

/-- A value converted to a destination, with its flags; fromInt says that the source is an integer, whose overflow
raises no flag. None is CVT_OVF (R184). -/
def convert (K : CKind) (rnd : Rnd) (o : Ovf) (ftz fromInt invalid : Bool) (x : FVal) : Option (Int × FpFlags) :=
  match K with
  | .flt F =>
    match x with
    | .nan s => some (F.nan, { inv := invalid || s })
    | .inf n => some (F.inf n, {})
    | .fin n m e => (F.roundPol rnd o ftz { neg := n, m := m, e := e }).map fun r => ((r.bits : Int), r.fl)
  | .int sg w =>
    match x with
    | .nan _ => (intOver sg w o false true).map fun y => (y, { inv := true })
    | .inf n => (intOver sg w o n false).map fun y => (y, { inv := true })
    | .fin n m e =>
      let r := ({ neg := n, m := m, e := e } : Exact).toInt rnd
      if intLo sg w ≤ r.1 && r.1 ≤ intHi sg w then some (r.1, { inx := r.2 })
      else (intOver sg w o n false).map fun y => (y, FpFlags.invIf !fromInt)
  | .ts8 => none

/-- Whether a type's values are integers. -/
def CKind.isInt (K : CKind) : Bool := match K with | .int _ _ => true | .flt _ => false | .ts8 => false

/-- A conversion with flags, or CVT_OVF (R163). -/
def State.convAct (s : State) (site : Site) (tid : Nat) (r : Option (Dest × W64 × FpFlags)) : Act :=
  match r with
  | none => .trap (Trap.plain tid .cvtOvf)
  | some (d, v, fl) => s.fpAct site.key fl (.write d v 6)

/-- CVT (R184). -/
def execCvt (c : Ctl) (d a : Reg) (dt srcT : CTy) (rnd : Rnd) (ovf : Ovf) (ftz : Bool) (sc : Option Reg) (s : State) :
    Result :=
  let scSlots := match sc with | some b => regSlots b | none => []
  issue (vecWord c (wideSlots srcT.is64 a ++ scSlots) (wideSlots dt.is64 d)) (fun s site th =>
    let x := (kindOfCTy srcT).value ftz (th.wide srcT.is64 a).toNat
    let (x, bad) := match sc with
      | none => (x, false)
      | some b => match scaleOf (byteAt (th.reg b.toNat) 1) with
        | none => (FVal.nan false, true)
        | some q => (x.scaled q, false)
    let r := convert (kindOfCTy dt) rnd ovf ftz (kindOfCTy srcT).isInt bad x
    (s, s.convAct site th.tid (r.map fun y => (wideDest dt.is64 d, BitVec.ofInt 64 y.1, y.2)))) s

/-- CVTTS (R185). -/
def execCvtts (c : Ctl) (d a : Reg) (t : FTy) (ftz : Bool) (s : State) : Result :=
  let F := fmtOfFTy t
  floatFixed c (regSlots a) d 6 (fun th => let r := toTs8 F ftz (th.flt F a); (r.bits, r.fl)) s

/-! ## pack and unpack (R186) -/

/-- Results joined into one: any CVT_OVF stops them all, and is the trap that is taken, whatever flag another element raises
(R186; log entry 129, DEDUCED). -/
def joinConv (w : Nat) (rs : List (Option (Int × FpFlags))) : Option (Nat × FpFlags) :=
  rs.zipIdx.foldl (init := some (0, {})) fun acc x =>
    match acc, x.1 with
    | some (v, fl), some r => some (v + (r.1 % 2 ^ w).toNat * 2 ^ (w * x.2), fl.or r.2)
    | none, _ => none
    | some _, none => none

/-- The kind of a pack destination or an unpack element. -/
def kindOfKTy (t : KTy) : CKind :=
  match t with
  | .s8 => .int true 8 | .n8 => .int false 8 | .s4 => .int true 4 | .n4 => .int false 4
  | .f16 => .flt .f16 | .bf16 => .flt .bf16
  | .ts8 => .ts8

/-- One element of pack, from its register. -/
def packElem (t : KTy) (rnd : Rnd) (ovf : Ovf) (ftz : Bool) (x : W32) : Option (Int × FpFlags) :=
  match kindOfKTy t with
  | .ts8 => some ((x.toNat % 256 : Nat), {})
  | .flt F => convert (.flt F) rnd ovf ftz false false (FFmt.f32.operand ftz x.toNat)
  | .int sg w => convert (.int sg w) rnd ovf ftz true false (FVal.ofInt x.toInt)

/-- PACK (R186). -/
def execPack (c : Ctl) (d a : Reg) (t : KTy) (rnd : Rnd) (ovf : Ovf) (ftz : Bool) (s : State) : Result :=
  let n := t.count
  issue (vecWord c (groupSlots a n) (regSlots d)) (fun s site th =>
    let r := joinConv t.width ((th.group a.toNat n).map (packElem t rnd ovf ftz))
    (s, s.convAct site th.tid (r.map fun y => (.reg d.toNat, BitVec.ofNat 64 y.1, y.2)))) s

/-- One element of unpack as a 32-bit value, with its flags (R186). -/
def unpackElem (t : KTy) (v : Nat) : W32 × FpFlags :=
  let wide (x : FVal) : W32 × FpFlags :=
    let r := FFmt.f32.ofVal .rn false x false
    (BitVec.ofNat 32 r.bits, FpFlags.invIf x.signalling)
  match kindOfKTy t with
  | .int sg w => (BitVec.ofInt 32 (intVal sg w v), {})
  | .flt F => wide (F.read v)
  | .ts8 => if ts8Value v == 0 then (0, {}) else wide (ts8Read v)

/-- UNPACK (R186). -/
def execUnpack (c : Ctl) (d a : Reg) (j : BitVec 8) (t : KTy) (s : State) : Result :=
  floatFixed c (regSlots a) d 6 (fun th =>
    let w := t.width
    let r := unpackElem t ((th.reg a.toNat).toNat / 2 ^ (w * j.toNat) % 2 ^ w)
    (r.1.toNat, r.2)) s

end Sys2Proof.Machine
end

