-- ==== Sys2Proof/Machine/Matrix.lean ====
section
/-! DEFINITION. Matrix.lean: the matrix engine of a core pair: issue and latching of its operations (R241, R242), products
and sums (R243 to R245), tiles (R250), the requantising drain (R251, R252), and the events of its queue (R246 to R249). -/

namespace Sys2Proof
open Machine

/-! ## Operand forms (R238, R240) -/

/-- Which operand of a product. -/
inductive Side | a | b
deriving DecidableEq, Repr

/-- 4-bit units of an operand's element class. -/
def MMods.nibs (m : MMods) (s : Side) : Nat :=
  match m.kind with
  | .i8 => 2
  | .i4 => 1
  | .ts => match s with | .a => 4 | .b => 2
  | .h16 => 4
/-- Whether the kind accumulates in s32. -/
def MMods.isInt (m : MMods) : Bool := match m.kind with | .i8 => true | .i4 => true | .ts => false | .h16 => false
/-- The format code that a plain block of the operand is read as. -/
def MMods.plain (m : MMods) (s : Side) : Nat :=
  match m.kind with
  | .i8 => match s with | .a => if m.asg then 1 else 2 | .b => if m.bsg then 1 else 2
  | .i4 => match s with | .a => if m.asg then 3 else 4 | .b => if m.bsg then 3 else 4
  | .ts => match s with | .a => if m.af16 then 7 else 6 | .b => 5
  | .h16 => match s with | .a => if m.af16 then 7 else 6 | .b => if m.bf16 then 7 else 6
/-- The format codes that an operand admits: its element class, and integers under s32 accumulation (R150, R151). -/
def MMods.admits (m : MMods) (s : Side) (fmt : Nat) : Bool :=
  fmt == 0 || (match m.kind with
    | .i8 => fmt == 1 || fmt == 2
    | .i4 => fmt == 3 || fmt == 4
    | .ts => match s with | .a => fmt == 6 || fmt == 7 | .b => fmt == 1 || fmt == 2 || fmt == 5
    | .h16 => fmt == 6 || fmt == 7)
/-- Bytes of 64 elements of an operand, and the blocks that hold them. -/
def MMods.rowBytes (m : MMods) (s : Side) : Nat := 32 * m.nibs s
def MMods.rowBlocks (m : MMods) (s : Side) : Nat := (m.rowBytes s + 63) / 64

/-- The integer that a code of an integer format stands for. -/
def intOfCode (fmt x : Nat) : Int :=
  match fmt with
  | 1 => intVal true 8 x
  | 2 => intVal false 8 x
  | 3 => intVal true 4 x
  | _ => intVal false 4 x
/-- The value that a code of a format stands for (R141, R142, R144). -/
def valOfCode (fmt x : Nat) : FVal :=
  match fmt with
  | 5 => ts8Read x
  | 6 => FFmt.bf16.read x
  | 7 => FFmt.f16.read x
  | _ => FVal.ofInt (intOfCode fmt x)

/-- An element as read: its value with its block's scale, and whether its block is invalid (R150, R152). -/
structure Elem where
  v : FVal
  bad : Bool
deriving DecidableEq, Repr

/-- The code of element k of a row that is held in blocks. -/
def codeIn (bs : List Block) (nibs k : Nat) : Block × Nat :=
  let n := k * nibs
  let b := bs.getD (n / 128) { bytes := [], descr := plainDescr, poison := none }
  (b, bitField (natOfBytes b.bytes) (n % 128 * 4) (4 * nibs))

/-- Element k of a row under s32 accumulation: scales are ignored (R151). -/
def MMods.intElem (m : MMods) (s : Side) (bs : List Block) (k : Nat) : Int :=
  let (b, x) := codeIn bs (m.nibs s) k
  intOfCode (if fmtOf b.descr == 0 then m.plain s else fmtOf b.descr) x
/-- Element k of a row under f32 accumulation. A plain block's scale is not applied (R147). -/
def MMods.fltElem (m : MMods) (s : Side) (bs : List Block) (k : Nat) : Elem :=
  let (b, x) := codeIn bs (m.nibs s) k
  match scaleOf (scaleByte b.descr) with
  | none => { v := .nan false, bad := true }
  | some sc =>
    if fmtOf b.descr == 0 then { v := valOfCode (m.plain s) x, bad := false }
    else { v := (valOfCode (fmtOf b.descr) x).scaled sc, bad := false }

/-- One product under f32 accumulation, rounded once (R151); an invalid block gives a NaN and FP_INV (R152). -/
def productElem (x y : Elem) : FRes := if x.bad || y.bad then FFmt.f32.nanRes true else productF32 false x.v y.v

/-- A tile element after one operation, and the flags raised (R243). -/
def MMods.element (m : MMods) (c : W32) (a b : List Block) : W32 × FpFlags :=
  if m.isInt then
    (BitVec.ofInt 32 (sumS32 m.sat c.toInt ((List.range 64).map fun k => m.intElem .a a k * m.intElem .b b k)), {})
  else
    let ps := (List.range 64).map fun k => productElem (m.fltElem .a a k) (m.fltElem .b b k)
    let r := sumF32 false c.toNat (ps.map (·.bits))
    (BitVec.ofNat 32 r.bits, ps.foldl (fun f p => f.or p.fl) r.fl)

end Sys2Proof

namespace Sys2Proof.Machine

/-! ## Tiles (R237) -/

/-- Where element (i, n) of a tile is kept. -/
def tileKey (t i n : Nat) : Nat := 8192 * t + 64 * i + n
def Pair.tile (p : Pair) (t i n : Nat) : W32 := sget 0 p.tiles (tileKey t i n)
def Pair.flags (p : Pair) (t : Nat) : BitVec 5 := sget 0 p.flg t
/-- Writes elements of a tile. -/
def Pair.setTile (p : Pair) (t : Nat) (es : List (Nat × W32)) : Pair :=
  { p with tiles := es.foldl (fun l e => sset 0 l (8192 * t + e.1) e.2) p.tiles }
def Pair.setFlags (p : Pair) (t : Nat) (f : BitVec 5) : Pair := { p with flg := sset 0 p.flg t f }
/-- The elements of a tile in order. -/
def Pair.tileWords (p : Pair) (t : Nat) : List W32 := (List.range 8192).map fun e => sget 0 p.tiles (8192 * t + e)

/-- Row i's part of a list with a number of blocks for each row. -/
def rowOf (bs : List Block) (n i : Nat) : List Block := (bs.drop (n * i)).take n

/-- A product into its tile: masked rows of a gather are left alone (R243, R245). -/
def Pair.product (p : Pair) (m : MMods) (acc : Nat) (index : List Nat) (a b : List Block) : Pair :=
  let rows := (List.range 128).filter fun i => index.getD i 0 != 0xFFFF
  let rs := rows.flatMap fun i => (List.range 64).map fun n =>
    (64 * i + n, m.element (p.tile acc i n) (rowOf a (m.rowBlocks .a) i) (rowOf b (m.rowBlocks .b) n))
  (p.setTile acc (rs.map fun x => (x.1, x.2.1))).setFlags acc
    (rs.foldl (fun f x => f ||| x.2.2.bits) (p.flags acc))

/-! ## The requantising drain (R251, R252) -/

/-- A record of drain. -/
structure DrainRec where
  bias : W32
  mult : Int
  shift : Int
  zp : Int
deriving DecidableEq, Repr

/-- Record n of the latched records. -/
def drainRec (bs : List Block) (n : Nat) : DrainRec :=
  let r := ((bs.getD (n / 4) { bytes := [], descr := plainDescr, poison := none }).bytes.drop (n % 4 * 16)).take 16
  { bias := BitVec.ofNat 32 (fieldAt r 0 4), mult := (BitVec.ofNat 32 (fieldAt r 4 4)).toInt,
    shift := (BitVec.ofNat 8 (fieldAt r 8 1)).toInt, zp := (BitVec.ofNat 16 (fieldAt r 0xA 2)).toInt }

/-- An exact sum of two values, and whether it is invalid: ∞ − ∞, or a signalling NaN among them (R143, R156). -/
def exactAdd (x y : FVal) : FVal × Bool :=
  match x, y with
  | .nan s, v => (.nan false, s || v.signalling)
  | .inf _, .nan s => (.nan false, s)
  | .fin _ _ _, .nan s => (.nan false, s)
  | .inf a, .inf b => if a == b then (.inf a, false) else (.nan false, true)
  | .inf a, .fin _ _ _ => (.inf a, false)
  | .fin _ _ _, .inf b => (.inf b, false)
  | .fin n1 m1 e1, .fin n2 m2 e2 =>
    let r := exactSum .rn n1 m1 e1 n2 m2 e2
    (.fin r.neg r.m r.e, false)

/-- q of R252, exact, and whether it raises FP_INV: a NaN that comes from values that are not NaN (R252), or from a
signalling NaN in the tile or the bias (R143, R156). -/
def drainQ (accf : Bool) (t : W32) (r : DrainRec) : FVal × Bool :=
  let x := if accf then exactAdd (FFmt.f32.read t.toNat) (FFmt.f32.read r.bias.toNat)
    else (FVal.ofInt (t.toInt + r.bias.toInt), false)
  match x.1 with
  | .nan _ => x
  | .inf n => if r.mult == 0 then (.nan false, true) else (.inf (n != decide (r.mult < 0)), false)
  | .fin n m e =>
    exactAdd (.fin (n != decide (r.mult < 0)) (m * r.mult.natAbs) (e - 31 - r.shift)) (FVal.ofInt r.zp)

end Sys2Proof.Machine

namespace Sys2Proof
open Machine

/-- The destination format of drain: an integer's signedness and width, or a float format. -/
def DTy.kind (d : DTy) : CKind :=
  match d with
  | .s32 => .int true 32 | .s8 => .int true 8 | .n8 => .int false 8 | .s4 => .int true 4 | .n4 => .int false 4
  | .f32 => .flt .f32 | .f16 => .flt .f16 | .bf16 => .flt .bf16
/-- The format code of drain's output (R146). -/
def DTy.fmt (d : DTy) : Nat :=
  match d with | .s8 => 1 | .n8 => 2 | .s4 => 3 | .n4 => 4 | .bf16 => 6 | .f16 => 7 | .f32 => 8 | .s32 => 9
/-- 4-bit units of an output element. -/
def DTy.nibs (d : DTy) : Nat := fmtNibs d.fmt

/-- An element of the result and its flags: FP_OVF wherever the policy applies, a NaN q among them, and FP_INX wherever the
element differs from q (R252, over R156's words on NaN results; log entry 43, DEDUCED). A zero result of a float format is
+0. -/
def drainElem (d : DTy) (rnd : Rnd) (o : Ovf) (q : FVal × Bool) : Int × FpFlags :=
  match d.kind with
  | .flt F =>
    match q.1 with
    | .nan _ => ((F.polOver o false).getD 0, { inv := q.2, ovf := true, inx := o != .nan })
    | .inf n => ((F.polOver o n).getD 0, { ovf := true, inx := o != .inf })
    | .fin n m e =>
      match F.roundPol rnd o false { neg := n && m != 0, m := m, e := e } with
      | some r => (r.bits, r.fl)
      | none => (0, {})
  | .int sg w =>
    match q.1 with
    | .nan _ => ((intOver sg w o false true).getD 0, { inv := q.2, ovf := true, inx := true })
    | .inf n => ((intOver sg w o n false).getD 0, { ovf := true, inx := true })
    | .fin n m e =>
      let r := ({ neg := n, m := m, e := e } : Exact).toInt rnd
      if intLo sg w ≤ r.1 && r.1 ≤ intHi sg w then (r.1, { inx := r.2 })
      else ((intOver sg w o n false).getD 0, { ovf := true, inx := true })
  | .ts8 => (0, {})

end Sys2Proof

namespace Sys2Proof.Machine

/-- The bytes of a drain of a tile, and the flags raised. -/
def Pair.drained (p : Pair) (acc : Nat) (d : DTy) (rnd : Rnd) (o : Ovf) (accf : Bool) (recs : List Block) :
    List Byte × FpFlags :=
  let rs := (p.tileWords acc).zipIdx.map fun x => drainElem d rnd o (drainQ accf x.1 (drainRec recs (x.2 % 64)))
  let w := 4 * d.nibs
  (bytesOfElems w (rs.map fun r => (r.1 % 2 ^ w).toNat), rs.foldl (fun f r => f.or r.2) {})

/-! ## An operation performed whole (R249, R250) -/

/-- Whole blocks of scratchpad take data and one descriptor, which clears their marks (R208). -/
def Team.spFill (t : Team) (off : Nat) (bytes : List Byte) (d : Descr) : Team :=
  (List.range (bytes.length / 64)).foldl (init := t) fun t j =>
    t.spLand (off + 64 * j) { bytes := (bytes.drop (64 * j)).take 64, descr := d, poison := none }

/-- What an operation does to its pair. -/
def Pair.perform (p : Pair) (o : MatOp) : Pair :=
  match o.kind with
  | .mma m => p.product m o.acc [] o.a o.b
  | .mmag m => p.product m o.acc o.index o.a o.b
  | .mms m => p.product m o.acc [] o.a ((List.range (64 * m.rowBlocks .b)).map fun i =>
      ((o.streamed.find? fun x => x.1 == i).map (·.2)).getD { bytes := [], descr := plainDescr, poison := none })
  | .accz => (p.setTile o.acc ((List.range 8192).map fun e => (e, 0))).setFlags o.acc 0
  | .accld => (p.setTile o.acc ((o.a.flatMap fun b => wordsOfBytes b.bytes).zipIdx.map fun x => (x.2, x.1))).setFlags o.acc 0
  | .accst _ fl => if fl then p.setFlags o.acc 0 else p
  | .drain d rnd ovf accf => p.setFlags o.acc (p.flags o.acc ||| (p.drained o.acc d rnd ovf accf o.b).2.bits)

/-- What an operation writes into its team's scratchpad. -/
def Team.receive (t : Team) (p : Pair) (o : MatOp) : Team :=
  match o.kind with
  | .accst accf fl =>
    if fl then t.spWrite o.dest (bytesOfNat 4 (p.flags o.acc).toNat)
    else t.spFill o.dest ((p.tileWords o.acc).flatMap fun w => bytesOfNat 4 w.toNat) (if accf then 0x8008 else 0x8009)
  | .drain d rnd ovf accf => t.spFill o.dest (p.drained o.acc d rnd ovf accf o.b).1 (0x8000 + BitVec.ofNat 16 d.fmt)
  | .mma _ => t
  | .mmag _ => t
  | .mms _ => t
  | .accz => t
  | .accld => t

/-! ## Issue (R241, R242) -/

/-- What a matrix instruction names: scratchpad offsets with their alignment, ranges it reads and writes, the stream of
mms, and what step 2 adds for a gather. -/
structure MatForm where
  kind : MatKind
  aligned : List Nat
  reads : List (Nat × Nat)
  writes : List (Nat × Nat)
  aOff : Nat
  bOff : Nat
  stride : Nat
deriving DecidableEq, Repr

/-- The index vector of a gather. -/
def Team.indexVec (t : Team) (off : Nat) : List Nat := (List.range 128).map fun i => natOfBytes (t.spRead (off + 2 * i) 2)

/-- The blocks of a row of 64 elements as latched, each with its descriptor. -/
def Team.latchRow (t : Team) (off bytes : Nat) : List Block :=
  if bytes ≤ 32 then
    [{ bytes := t.spRead off bytes, descr := (t.spBlock off).descr, poison := none }]
  else (List.range (bytes / 64)).map fun j => t.spBlock (off + 64 * j)

/-- The blocks of a range as latched. -/
def Team.latchRange (t : Team) (off bytes : Nat) : List Block :=
  (List.range ((bytes + 63) / 64)).map fun j => t.spBlock (off + 64 * j)

/-- The rows of A: 128 rows in order, or the rows that the index vector selects, with an empty row where it masks. -/
def Team.latchA (t : Team) (f : MatForm) : List Block :=
  let none' : Block := { bytes := [], descr := plainDescr, poison := none }
  match f.kind with
  | .mma m => (List.range 128).flatMap fun i => t.latchRow (f.aOff + i * m.rowBytes .a) (m.rowBytes .a)
  | .mms m => (List.range 128).flatMap fun i => t.latchRow (f.aOff + i * m.rowBytes .a) (m.rowBytes .a)
  | .mmag m => (t.indexVec f.aOff).flatMap fun x =>
      if x == 0xFFFF then List.replicate (m.rowBlocks .a) none' else t.latchRow (f.stride + x * m.rowBytes .a) (m.rowBytes .a)
  | .accld => t.latchRange f.aOff 32768
  | .accz => []
  | .accst _ _ => []
  | .drain _ _ _ _ => []
/-- The columns of B in scratchpad, or the drain records. -/
def Team.latchB (t : Team) (f : MatForm) : List Block :=
  match f.kind with
  | .mma m => (List.range 64).flatMap fun n => t.latchRow (f.bOff + n * m.rowBytes .b) (m.rowBytes .b)
  | .mmag m => (List.range 64).flatMap fun n => t.latchRow (f.bOff + n * m.rowBytes .b) (m.rowBytes .b)
  | .drain _ _ _ _ => t.latchRange f.bOff 1024
  | .mms _ => []
  | .accld => []
  | .accz => []
  | .accst _ _ => []

/-- The modifiers of a product. -/
def MatKind.mods? (k : MatKind) : Option MMods :=
  match k with
  | .mma m => some m | .mmag m => some m | .mms m => some m
  | .accz => none | .accld => none | .accst _ _ => none | .drain _ _ _ _ => none

end Sys2Proof.Machine

namespace Sys2Proof
open Machine

/-- What is wrong with a block of an operand: its format, or an invalid block under s32 accumulation. -/
def MMods.blockBad (m : MMods) (s : Side) (b : Block) : Option Cause :=
  if !m.admits s (fmtOf b.descr) then some .format
  else if m.isInt && scaleByte b.descr == 0xFF then some .dsBad else none

end Sys2Proof

namespace Sys2Proof.Machine

/-- The first cause among the blocks of A, then of B. Only they have a class, so that no format code and no scale of the index
vector or of a drain record is looked at (R242; log entry 136, DEDUCED). -/
def MatKind.blocksBad (k : MatKind) (a b : List Block) : Option Cause :=
  match k.mods? with
  | none => none
  | some m =>
    let cs := (a.filterMap (m.blockBad .a)) ++ (b.filterMap (m.blockBad .b))
    match cs.find? (· == .format) with
    | some c => some c
    | none => cs.head?

/-- The gathered rows of mmag, which step 2 and step 5 cover as they cover named ranges. -/
def MatForm.gathered (f : MatForm) (t : Team) : List (Nat × Nat) :=
  match f.kind with
  | .mmag m => ((t.indexVec f.aOff).filter (· != 0xFFFF)).map fun x => (f.stride + x * m.rowBytes .a, m.rowBytes .a)
  | _ => []

/-- Whether step 4 makes the thread wait. -/
def State.matWaits (s : State) (site : Site) (f : MatForm) (reads : List (Nat × Nat)) : Bool :=
  8 ≤ (s.pair (pairOf site.core)).queue.length
    || (reads.any fun r => s.inFlight site.key r.1 r.2 (·.inbound))
    || (f.writes.any fun w => s.inFlight site.key w.1 w.2 (fun _ => true))
    || (!f.writes.isEmpty && boardSize ≤ (s.board.filter fun e => e.core == site.core).length)

/-- Whether every range lies within the allocation. -/
def Team.holds (t : Team) (rs : List (Nat × Nat)) : Bool := rs.all fun r => r.1 + r.2 ≤ t.desc.scratch

/-- The mark of the first poisoned block among ranges. -/
def Team.markIn (t : Team) (rs : List (Nat × Nat)) : Option (Cause × Nat) :=
  (rs.flatMap fun r => (List.range ((r.1 + r.2 - 1) / 64 - r.1 / 64 + 1)).map (r.1 / 64 + ·)).findSome? fun b =>
    (markAt t.poison b).map fun c => (c, 64 * b)

/-- Queues an operation: its scoreboard entry, the operations it waits on, its slot, and its thread's record (R242). -/
def State.queueMat (s : State) (site : Site) (f : MatForm) (o : MatOp) : State :=
  let p := pairOf site.core
  let s := match f.writes.head? with
    | none => s
    | some w =>
      let e : SbEntry := { op := o.id, core := site.core, key := site.key, lo := w.1, hi := w.1 + w.2, inbound := true }
      { s with board := s.board ++ [e] }
  let s := s.modPair p fun p =>
    { p with queue := p.queue ++ [o]
             slots := match o.set with | some i => sset [] p.slots i (sget [] p.slots i ++ [o.id]) | none => p.slots }
  { s.modThread site.key o.tid fun x => { x with unsealed := x.unsealed ++ [o.id] } with nextOp := o.id + 1 }

/-- The steps of R242 for one thread. What the record of a fault names is log entry 133 (DEDUCED): the offset of the first
scratchpad operand at fault and a read, or the stream's address and a stream. -/
def State.matAct (s : State) (site : Site) (x : Thread) (c : XCtl) (f : MatForm) : State × Act :=
  match s.team? site.key with
  | none => (s, .nothing)
  | some t =>
    let bad (c : Cause) (k addr : Nat) : Act := .trap (Trap.at x.tid c k addr)
    let rows := f.gathered t
    match f.aligned.find? (· % 64 != 0) with
    | some o => (s, bad .align Acc.read.kind o)
    | none =>
      let m? := f.kind.mods?
      let streams := match f.kind with | .mms _ => true | _ => false
      let eb := match m? with | some m => m.rowBytes .b | none => 64
      let flagWord := match f.kind with | .accst _ fl => fl | _ => false
      if flagWord && (f.writes.any fun w => w.1 % 4 != 0) then (s, bad .align Acc.write.kind ((f.writes.headD (0, 0)).1))
      else if streams && (f.bOff % 64 != 0 || f.stride % 64 != 0 || f.stride < Nat.max 64 eb) then (s, bad .align kindStream f.bOff)
      else if !t.holds (f.reads ++ rows ++ f.writes) then (s, .off)
      else if streams && s.launchHas site.key (fun l => l.pure && !inOne (l.inputs ++ l.outputs) f.bOff (63 * f.stride + eb)) then
        (s, bad .purity kindStream f.bOff)
      else if s.matWaits site f (f.reads ++ rows) then (s, .again .copy)
      else if !((f.reads ++ rows).all fun r => t.written? r.1 r.2) then (s, .off)
      else match t.markIn (f.reads ++ rows) with
        | some (c, a) => (s, bad c Acc.read.kind a)
        | none =>
          let a := t.latchA f
          let b := t.latchB f
          match f.kind.blocksBad a b with
          | some c => (s, bad c Acc.read.kind f.aOff)
          | none =>
            let p := s.pair (pairOf site.core)
            let o : MatOp :=
              { id := s.nextOp, order := s.nextOp, key := site.key, tid := x.tid, pc := site.pc, kind := f.kind, acc := c.acc.toNat, a := a,
                index := (match f.kind with | .mmag _ => t.indexVec f.aOff | _ => []), b := b,
                dest := (f.writes.headD (0, 0)).1, bAddr := f.bOff, bStride := f.stride, streamed := [],
                set := c.set.map (·.toNat), waits := ((bitsOf c.wait).flatMap fun i => sget [] p.slots i).eraseDups,
                begun := false, stopped := none }
            (s.queueMat site f o, .nothing)

/-- A matrix word: ILL in any thread whose %swarm is not 0 (R241). -/
def matWord (c : Ctl) (reads : List Nat) (x : XCtl) (f : Thread → MatForm) (s : State) : Result :=
  issueWith (mxWord c reads) (fun s site _ => match s.team? site.key with | some t => t.swarmIdx != 0 | none => false)
    (fun _ c => c) {} (fun _ _ => none) (fun s site th => s.matAct site th x (f th)) s

/-- MMA (R243). -/
def execMma (c : Ctl) (x : XCtl) (a b : Reg) (m : MMods) (s : State) : Result :=
  matWord c (regSlots a ++ regSlots b) x (fun t =>
    let ao := (t.reg a.toNat).toNat
    let bo := (t.reg b.toNat).toNat
    { kind := .mma m, aligned := [ao, bo], reads := [(ao, 128 * m.rowBytes .a), (bo, 64 * m.rowBytes .b)], writes := [],
      aOff := ao, bOff := bo, stride := 0 }) s

/-- MMAG: stride holds the A region's offset (R245). -/
def execMmag (c : Ctl) (x : XCtl) (a b : Reg) (m : MMods) (s : State) : Result :=
  matWord c (pairSlots a ++ regSlots b) x (fun t =>
    let io := (t.reg a.toNat).toNat
    let ro := (t.reg (a.toNat + 1)).toNat
    let bo := (t.reg b.toNat).toNat
    { kind := .mmag m, aligned := [io, ro, bo], reads := [(io, 256), (bo, 64 * m.rowBytes .b)], writes := [],
      aOff := io, bOff := bo, stride := ro }) s

/-- The slots that mms reads from b: an address pair and the stride (R239). -/
def streamSlots (b : Reg) : List Nat := pairSlots b ++ [if b.toNat + 2 < 256 then b.toNat + 2 else noSlot]

/-- MMS (R246). -/
def execMms (c : Ctl) (x : XCtl) (a b : Reg) (m : MMods) (s : State) : Result :=
  matWord c (regSlots a ++ streamSlots b) x (fun t =>
    let ao := (t.reg a.toNat).toNat
    { kind := .mms m, aligned := [ao], reads := [(ao, 128 * m.rowBytes .a)], writes := [], aOff := ao,
      bOff := (t.pair b.toNat).toNat, stride := (t.reg (b.toNat + 2)).toNat }) s

/-- ACCZ (R250). -/
def execAccz (c : Ctl) (x : XCtl) (s : State) : Result :=
  matWord c [] x (fun _ => { kind := .accz, aligned := [], reads := [], writes := [], aOff := 0, bOff := 0, stride := 0 }) s

/-- ACCLD (R250). -/
def execAccld (c : Ctl) (x : XCtl) (a : Reg) (s : State) : Result :=
  matWord c (regSlots a) x (fun t =>
    let ao := (t.reg a.toNat).toNat
    { kind := .accld, aligned := [ao], reads := [(ao, 32768)], writes := [], aOff := ao, bOff := 0, stride := 0 }) s

/-- ACCST (R250). -/
def execAccst (c : Ctl) (x : XCtl) (a : Reg) (accf fl : Bool) (s : State) : Result :=
  matWord c (regSlots a) x (fun t =>
    let ao := (t.reg a.toNat).toNat
    { kind := .accst accf fl, aligned := if fl then [] else [ao], reads := [], writes := [(ao, if fl then 4 else 32768)],
      aOff := ao, bOff := 0, stride := 0 }) s

/-- DRAIN (R252). -/
def execDrain (c : Ctl) (x : XCtl) (a b : Reg) (t : DTy) (rnd : Rnd) (ovf : Ovf) (accf : Bool) (s : State) : Result :=
  matWord c (regSlots a ++ regSlots b) x (fun th =>
    let ao := (th.reg a.toNat).toNat
    let bo := (th.reg b.toNat).toNat
    { kind := .drain t rnd ovf accf, aligned := [ao, bo], reads := [(bo, 1024)], writes := [(ao, 4096 * t.nibs)], aOff := ao,
      bOff := bo, stride := 0 }) s

/-! ## The queue (R246 to R249) -/

/-- The blocks of B that an operation streams: index and address. -/
def MatOp.streams (o : MatOp) : List (Nat × Nat) :=
  match o.kind with
  | .mms m => (List.range 64).flatMap fun n => (List.range (m.rowBlocks .b)).map fun j =>
      (n * m.rowBlocks .b + j, (o.bAddr + n * o.bStride + 64 * j) % 2 ^ 64)
  | .mma _ => [] | .mmag _ => [] | .accz => [] | .accld => [] | .accst _ _ => [] | .drain _ _ _ _ => []
/-- Whether every operand is in the latch. -/
def MatOp.latched (o : MatOp) : Bool := !o.isStream || !o.streamed.isEmpty

/-- Whether an operation waits for none that is still queued (R248). -/
def Pair.clearOf (p : Pair) (o : MatOp) : Bool := o.waits.all fun w => !p.queue.any fun q => q.id == w
/-- The operation that the engine takes next: of those whose waits are met, the one issued earliest. -/
def Pair.nextOp? (p : Pair) : Option MatOp := p.queue.find? fun o => !o.begun && p.clearOf o

/-- MATRIX_OP_BEGIN: an mms whose B is incomplete holds the engine (R247, R248). -/
def execMatrixOpBegin (pair : Nat) (s : State) : Result :=
  .next (match (s.pair pair).nextOp? with
    | none => s
    | some o =>
      if o.latched then
        s.modPair pair fun p => { p with queue := modWhere (fun q => q.id == o.id) (fun q => { q with begun := true }) p.queue }
      else s)

/-- The operation leaves its pair, its slots and the scoreboard, and is complete for its thread (R248). -/
def State.leaveMat (s : State) (pair : Nat) (o : MatOp) : State :=
  let s := s.modPair pair fun p =>
    { p with queue := p.queue.filter fun q => q.id != o.id
             slots := p.slots.filterMap fun e =>
               let ops := e.2.filter (· != o.id)
               if ops.isEmpty then none else some (e.1, ops) }
  let s := { s with board := s.board.filter fun e => e.op != o.id }
  (s.modThread o.key o.tid (·.retired o.id)).wakeCopies (2 * pair)

/-- Queued operations of some teams go, from the queue and from the dependency slots (R254, R336). -/
def Pair.dropOps (p : Pair) (mine : TeamKey → Bool) : Pair :=
  let ids := (p.queue.filter fun o => mine o.key).map (·.id)
  { p with queue := p.queue.filter fun o => !mine o.key
           slots := (p.slots.map fun e => (e.1, e.2.filter fun i => !ids.contains i)).filter fun e => !e.2.isEmpty }
def State.dropOps (s : State) (mine : TeamKey → Bool) : State :=
  (s.pairs.map (·.1)).foldl (fun s n => s.modPair n (·.dropOps mine)) s

/-- MATRIX_OP_RETIRE: the operation is performed whole, and retires (R248, R249). -/
def execMatrixOpRetire (pair op : Nat) (s : State) : Result :=
  .next (match (s.pair pair).queue.find? fun o => o.id == op with
    | none => s
    | some o =>
      if o.begun then
        let p := s.pair pair
        let s := (s.modTeam o.key (·.receive p o)).modPair pair (·.perform o)
        (s.leaveMat pair o).settle o.key
      else s)

/-- The blocks of a stream as they stand, or the first address that fails with its cause. -/
def State.readStream (s : State) (o : MatOp) : Except (Cause × Nat) (List (Nat × Block)) :=
  o.streams.foldl (init := .ok []) fun acc x =>
    match acc with
    | .error e => .error e
    | .ok bs => match s.sysPlace o.key.ctxId x.2 .read with
      | .error c => .error (c, x.2)
      | .ok p => match s.readBlock p with
        | none => .error (.machine, x.2)
        | some b => .ok (bs ++ [(x.1, b)])

/-- What is wrong with the blocks of a stream that arrived: poison, format or an invalid block (R246). -/
def MatOp.streamBad (o : MatOp) (bs : List (Nat × Block)) : Option Cause :=
  match (bs.findSome? fun b => b.2.poison) with
  | some c => some c
  | none => o.kind.blocksBad [] (bs.map (·.2))

/-- MMS_STREAM_COMPLETE: every block of B is in the latch; a not-present page stops the stream with a group of one record;
a bad block fails the launch. Any other failure is MX_FETCH's (R246, R253). -/
def execMmsStreamComplete (pair op : Nat) (s : State) : Result :=
  .next (match (s.pair pair).queue.find? fun o => o.id == op with
    | none => s
    | some o =>
      if !o.isStream || o.latched || o.stopped.isSome || !(s.landing (2 * pair)).contains o.id then s
      else match s.readStream o with
        | .error (.pageNp, va) =>
          let s := s.modPair pair fun p =>
            { p with queue := modWhere (fun q => q.id == op) (fun q => { q with stopped := some s.nextGroup, stopVa := some va }) p.queue }
          s.takeReport o.key (.stream pair op) ((Trap.at o.tid .pageNp kindStream va).record o.pc o.key.teamId s.ticks 1) []
        | .error _ => s
        | .ok bs => match o.streamBad bs with
          | some c => s.failLaunchOf o.key c 0
          | none => s.modPair pair fun p =>
              { p with queue := modWhere (fun q => q.id == op) (fun q => { q with streamed := bs }) p.queue })

end Sys2Proof.Machine
end

