-- ==== Sys2Proof/Machine/Sync.lean ====
section
/-! DEFINITION. Sync.lean: waits on memory, spawn, join, atflush and the team barrier (R284 to R294). -/

namespace Sys2Proof.Machine

/-! ## Waits on memory (R285 to R287) -/

/-- Entries of a core's wait monitor (R286). -/
def monitorSize : Nat := 64

/-- Whether a word ends a wait. -/
def MemWait.holds (w : MemWait) (x : W64) : Bool :=
  if w.join then decide (w.val.toNat ≤ x.toNat) else if w.eq then x == w.val else x != w.val
/-- Bytes of the awaited word. -/
def MemWait.bytes (w : MemWait) : Nat := if w.wide then 8 else 4

/-- Core cycles between two rereads of a polled wait (R286). -/
def pollCycles : Nat := 1600

/-- A parked wait takes an entry of the monitor, shares one, or is polled where the monitor is full (R286). -/
def State.monitorWait (s : State) (core : Nat) (w : MemWait) : State × MemWait :=
  let key := (w.place.block, w.scope)
  let m := (s.core core).monitor
  if m.contains key then (s, w)
  else if m.length < monitorSize then (s.modCore core fun c => { c with monitor := c.monitor ++ [key] }, w)
  else (s, { w with polled := true, nextPoll := s.cycle core + pollCycles })

/-- The word that a wait reads in a block. -/
def MemWait.word (w : MemWait) (b : Block) : W64 := BitVec.ofNat 64 (natOfBytes ((b.bytes.drop (w.va % 64)).take w.bytes))
/-- What a wait that has ended brings: the value read, for waita (R285). -/
def MemWait.brings (w : MemWait) (v : W64) : Option (Nat × List W32 × PendKind) :=
  if w.join then none else some (w.dest, if w.wide then wordsOfPair v else [v.extractLsb' 0 32], .memory)

/-- One thread's wait: the address is checked once; the thread returns, as an acquire at its scope, if the condition holds at
the read; else it parks at the word (R285). -/
def State.waitAct (s : State) (site : Site) (x : Thread) (w : MemWait) : State × Act :=
  let (s, g) := s.gateRace site x.tid (GAcc.load w.va w.bytes w.scope) false
  match g with
  | .stop a => (s, a)
  | .go p sc =>
    let (s, b) := s.readAt site x.tid p sc false true
    match b with
    | .error c => (s, .trap (Trap.at x.tid c Acc.read.kind w.va))
    | .ok b =>
      let v := w.word b
      if w.holds v then
        (s.acquire site.core sc, match w.brings v with | none => .nothing | some (r, ws, k) => .pend r ws k)
      else
        let (s, w) := s.monitorWait site.core { w with place := p, scope := sc }
        (s, .again (.memory w))

/-- WAITA (R285). -/
def execWaita (c : Ctl) (d a b : Reg) (eq w64 : Bool) (sc : Scope) (s : State) : Result :=
  issue (syncWord c (pairSlots a ++ wideSlots w64 b) (wideSlots w64 d)) (fun s site x =>
    let w : MemWait :=
      { va := (x.pair a.toNat).toNat, place := .here 0, val := x.wide w64 b, wide := w64, eq := eq,
        join := false, scope := sc, dest := d.toNat, polled := false, nextPoll := 0 }
    s.waitAct site x w) s

/-- JOIN (R285). -/
def execJoin (c : Ctl) (a b : Reg) (sc : Scope) (s : State) : Result :=
  issue (syncWord c (pairSlots a ++ pairSlots b) []) (fun s site x =>
    let w : MemWait :=
      { va := (x.pair a.toNat).toNat, place := .here 0, val := x.pair b.toNat, wide := true, eq := true,
        join := true, scope := sc, dest := 0, polled := false, nextPoll := 0 }
    s.waitAct site x w) s

/-- The place that a parked wait rereads; none while its page is not there (R285, R286; log entry 88, DEDUCED). -/
def State.waitPlace (s : State) (k : TeamKey) (w : MemWait) : Option Place :=
  match k with
  | .user ctx _ _ => match s.sysPlace ctx w.va .read with | .ok p => some p | .error _ => none
  | .walker _ _ => some w.place

/-- Whether a thread parked in a wait has a store of its own to the awaited block in the FIFO: its reread comes after that store
(R263; log entry 122, DEDUCED). -/
def State.ownPending (s : State) (k : TeamKey) (w : MemWait) (p : Place) : Bool :=
  (s.core (s.coreOf k)).fifo.any fun e => e.key == k && e.place.block == p.block
    && (match s.thread? k e.tid with | some x => x.parkedAs == some (.memory w) | none => false)

/-- The block that a parked wait rereads: none while its page is not there, or a store of the thread's own is to come first. -/
def State.waitBlock (s : State) (k : TeamKey) (w : MemWait) : Option Block :=
  (s.waitPlace k w).bind fun p => if s.ownPending k w p then none else s.readBlock p

/-- Whether a reread would end a wait: the condition holds, or the block is poisoned (R209, R285). -/
def State.waitOver (s : State) (k : TeamKey) (w : MemWait) : Bool :=
  match s.waitBlock k w with
  | none => false
  | some b => b.poison.isSome || w.holds (w.word b)

/-- The monitor entries that some parked thread of the core still needs. -/
def State.trimMonitor (s : State) (core : Nat) : State :=
  let needed (e : Place × Scope) : Bool := s.teams.any fun t => t.isResident && t.core == core &&
    t.threads.any fun x => match x.parkedAs with
      | some (.memory w) => !w.polled && (w.place.block, w.scope) == e
      | _ => false
  s.modCore core fun c => { c with monitor := c.monitor.filter needed }

/-- Whether a thread waits on the flag of a pod barrier whose release has not yet come to its core group (R326). -/
def State.podHolds (s : State) (n : ThreadName) : Bool :=
  match s.team? n.key, s.thread? n.key n.tid with
  | some t, some x => match x.parkedAs with
    | some (.memory w) =>
      s.pods.any fun d => n.key.ctx? == some d.ctx && within d.flag 8 w.va && !d.filed.contains (t.core / 20)
    | _ => false
  | _, _ => false

/-- Whether a parked thread's wait, monitored or polled as asked, is over at a reread now. A polled word is reread when its
cycle has come (R286). -/
def State.waitDue (s : State) (t : Team) (polled : Bool) (x : Thread) : Bool :=
  match x.parkedAs with
  | some (.memory w) =>
    w.polled == polled && (!polled || w.nextPoll ≤ s.cycle t.core) && s.waitOver t.key w
      && !s.podHolds { key := t.key, tid := x.tid }
  | _ => false

/-- A wait that is over: the thread has done its word, with the value read, and its return is an acquire at the wait's scope; no
later load of its core returns an older write (R261). A poisoned block is a fault of the word (R209, R285). The result says
whether the thread goes on. -/
def State.finishWait (s : State) (k : TeamKey) (core : Nat) (x : Thread) (w : MemWait) (b : Block) : State × Bool :=
  match b.poison with
  | some c => (s.takeGroup k .fault x.pc 0 x.clause [Trap.at x.tid c Acc.read.kind w.va] false, false)
  | none =>
    let s := match s.waitPlace k w with | some p => s.freshLine core p b | none => s
    ((s.acquire core w.scope).pastWord k x.tid (w.brings (w.word b)), true)

/-- The rereads that end waits of a team: every thread named by due, whose wait is over, is released, and those of one row and
PC form one bundle (R112, R286). -/
def State.endWaits (s : State) (t : Team) (due : Thread → Bool) : State :=
  let (s, go) := (t.threads.filter due).foldl (init := (s, ([] : List Nat))) fun acc x =>
    match x.parkedAs with
    | some (.memory w) => match acc.1.waitBlock t.key w with
      | some b =>
        let (s, on) := acc.1.finishWait t.key t.core x w b
        (s, if on then acc.2 ++ [x.tid] else acc.2)
      | none => acc
    | _ => acc
  ((s.release t.key go false false).trimMonitor t.core).settle t.key

/-- WAIT_WAKE: a parked thread's condition is true at the reread; the threads of its team whose waits are over too go on with
it (R286). -/
def execWaitWake (n : ThreadName) (s : State) : Result :=
  .next (match s.team? n.key, s.thread? n.key n.tid with
    | some t, some x => if t.isResident && s.waitDue t false x then s.endWaits t (s.waitDue t false) else s
    | _, _ => s)

/-- WAIT_POLL: a polled word is reread; where the wait is not over, the next reread comes 1,600 core cycles later (R286). -/
def execWaitPoll (n : ThreadName) (s : State) : Result :=
  .next (match s.team? n.key, s.thread? n.key n.tid with
    | some t, some x => match x.parkedAs with
      | some (.memory w) =>
        if !t.isResident || !w.polled || s.cycle t.core < w.nextPoll then s
        else if s.waitDue t true x then s.endWaits t (s.waitDue t true)
        else s.modThread n.key n.tid fun x =>
          { x with stat := .parked (.memory { w with nextPoll := s.cycle t.core + pollCycles }) }
      | _ => s
    | _, _ => s)

/-! ## SPAWN (R289) -/

/-- A 64-byte read that spawn makes as a load (R289). -/
def State.spawnRead (s : State) (site : Site) (tid va : Nat) (pu : Purity) : State × Except Act (List Byte) :=
  let (s, g) := s.gateRace site tid { GAcc.load va 64 .sys with pu := pu } false
  match g with
  | .stop a => (s, .error a)
  | .go p sc =>
    let (s, b) := s.readAt site tid p sc false true
    match b with
    | .error c => (s, .error (.trap (Trap.at tid c Acc.read.kind va)))
    | .ok b => (s, .ok b.bytes)

/-- The purity test of a spawn: the record, the descriptor, the code and the argument block lie in input intervals, each
whole within one (R61; log entry 30, DEDUCED). -/
def Launch.spawnPure (l : Launch) (va : Nat) (r : LRec) (d : KDesc) : Bool :=
  inOne l.inputs va 64 && inOne l.inputs r.kernel 64 && coveredBy l.inputs d.entry d.codeBytes
    && coveredBy l.inputs r.args r.argbytes

/-- The leader's spawn, once it is allowed: the record is read, and checked in a pure launch; then it is entered, or the leader
waits with what it has read for an entry to free (R289). -/
def State.spawnGo (s : State) (site : Site) (t : Team) (tid va : Nat) : State × Act :=
  let isPure := s.launchHas site.key (·.pure)
  let made := t.key.teamId == 0 && t.desc.isSeed
  let (s, r) := s.spawnRead site tid va (if made then .exempt else .read)
  match r with
  | .error a => (s, a)
  | .ok bytes =>
    let rec' := LRec.ofBytes bytes
    let (s, bad) : State × Option Act :=
      if isPure && !made then
        let (s, d) := s.spawnRead site tid rec'.kernel .read
        match d with
        | .error a => (s, some a)
        | .ok db =>
          (s, if s.launchHas site.key (fun l => l.spawnPure va rec' (KDesc.ofBytes db)) then none
              else some (.trap (Trap.at tid .purity Acc.read.kind va)))
      else (s, none)
    match bad with
    | some a => (s, a)
    | none =>
      if spawnEntries ≤ t.spawns.length then (s, .again (.spawn bytes))
      else (s.enterSpawn site.key bytes site.pc, .nothing)

/-- SPAWN (R51, R53, R289). -/
def execSpawn (c : Ctl) (a : Reg) (s : State) : Result :=
  issue (syncWord c (pairSlots a) []) (fun s site x =>
    match s.team? site.key with
    | none => (s, .nothing)
    | some t =>
      let va := (x.pair a.toNat).toNat
      if x.tid != 0 then (s, .trap (Trap.plain x.tid .spawnBad))
      else if t.depth == 10 then (s, .trap (Trap.plain x.tid .depth))
      else if s.launchHas site.key (·.det) && t.key.teamId != 0 then (s, .trap (Trap.plain x.tid .spawnBad))
      else s.spawnGo site t x.tid va) s

/-! ## ATFLUSH and TBAR -/

/-- ATFLUSH: the flush is done, and its results have landed, when the word has issued (R294). -/
def execAtflush (c : Ctl) (s : State) : Result :=
  issue (syncWord c [] []) (fun s site x =>
    (if s.launchHas site.key (·.det) then s.flushThread site.key x.tid x.atomSeq else s, .nothing)) s

/-- TBAR: the arrival is a release; the thread parks after the word until the phase completes (R288). -/
def execTbar (c : Ctl) (sc : Scope) (s : State) : Result :=
  issue (syncWord c [] []) (fun s site x =>
    let s := ((s.drain site.key).bumpInterval site.key x.tid).modTeam site.key fun t =>
      { t with tbarIn := t.tbarIn ++ [(x.tid, sc)] }
    (s, .done { park := some (.tbar sc) })) s

end Sys2Proof.Machine
end

