-- ==== Sys2Proof/Machine/Place.lean ====
section
/-! DEFINITION. Place.lean: where teams run and how they get there: the resource check (R69), windows (R73, R79, R80), the
start of teams (R72, R111), and how a team is saved and restored (R74, R139, R235, R256, R287, R314, R341, R342). -/

namespace Sys2Proof.Machine

/-! ## The resource check (R69) -/

/-- An amount of each resource of a core. -/
structure Load where
  regs : Nat
  slots : Nat
  scratch : Nat
  teams : Nat
  bars : Nat
  entries : Nat
deriving DecidableEq, Repr

/-- What a core has. -/
def coreCapacity : Load := { regs := 524288, slots := 2048, scratch := 524288, teams := 32, bars := 512, entries := 128 }
def Load.add (a b : Load) : Load :=
  { regs := a.regs + b.regs, slots := a.slots + b.slots, scratch := a.scratch + b.scratch, teams := a.teams + b.teams,
    bars := a.bars + b.bars, entries := a.entries + b.entries }
def Load.within (a b : Load) : Bool :=
  a.regs ≤ b.regs && a.slots ≤ b.slots && a.scratch ≤ b.scratch && a.teams ≤ b.teams && a.bars ≤ b.bars
    && a.entries ≤ b.entries

/-- Thread slots of a team: its threads rounded up to whole rows. -/
def KDesc.slots (d : KDesc) : Nat := (d.threads + 31) / 32 * 32
/-- What one team takes. -/
def KDesc.load (d : KDesc) : Load :=
  { regs := d.wregs * d.slots * 4, slots := d.slots, scratch := d.scratch, teams := 1, bars := 16, entries := 4 }

/-- The teams whose state is on a core, walker threads apart. -/
def State.residents (s : State) (core : Nat) : List Team :=
  s.teams.filter fun t => t.isResident && !t.key.isWalker && t.core == core

/-- Whether a team passes the check on a core, if some teams were gone. -/
def State.fitsBut (s : State) (gone : List TeamKey) (core : Nat) (d : KDesc) : Bool :=
  let stays (t : Team) : Bool := !gone.contains t.key
  ((((s.residents core).filter stays).foldl (fun l t => l.add t.desc.load) d.load).within coreCapacity)
    && (!d.matrix || !(coresOfPair (pairOf core)).any fun c => (s.residents c).any fun t => t.desc.matrix && stays t)

/-- Whether the hive grants a core to a context (R67). -/
def State.granted (s : State) (ctx core : Nat) : Bool := (s.ctx ctx).cores.getLsbD core

/-- Free thread slots of a core. -/
def State.freeSlots (s : State) (core : Nat) : Nat := 2048 - ((s.residents core).map (·.desc.slots)).sum

/-! ## The home die (R70) -/

/-- The die whose granted cores have the most free thread slots, the lowest of several. -/
def State.homeDie (s : State) (ctx : Nat) : Option Nat :=
  let dies := (List.range dieCount).filter fun d => (coresOfDie d).any (s.granted ctx)
  let free (d : Nat) : Nat := (((coresOfDie d).filter (s.granted ctx)).map s.freeSlots).sum
  leastBy (fun a b => free b < free a || (free a == free b && a < b)) dies

/-! ## Windows (R73, R79, R80) -/

/-- The local cores of a die in a dispatcher's round-robin order (R72). -/
def State.roundRobin (s : State) (die : Nat) : List Nat :=
  (List.range 40).map fun i => 40 * die + ((s.die die).lastCore + 1 + i) % 40

/-- A window in which a swarm may stand at all: granted, on one die, a pair for a matrix swarm (R73). -/
def State.windowOk (s : State) (ctx : Nat) (d : KDesc) (w : Nat) : Bool :=
  onOneDie w d.swarm && (windowCores w d.swarm).all (s.granted ctx) && (!d.matrix || w % 2 == 0)

/-- The core of a team of a deterministic launch: its own in the window of its group (R79). -/
def State.detCore (s : State) (l : Launch) (grid index : Nat) : Option Nat :=
  match l.grid? grid with
  | none => none
  | some g => (s.detWindow l g.desc.swarm (l.groupOf g.desc.swarm index)).map (· + index % g.desc.swarm)

/-- The windows of a die in which teams of a swarm may start, in the dispatcher's order: for a deterministic launch the one
of its group. d.swarm is how many of them there are: one, for a team that starts again alone (R349). -/
def State.windowsFor (s : State) (l : Launch) (x : Swarm) (d : KDesc) (die : Nat) : List Nat :=
  if l.det && x.grid != 0 then
    match s.detCore l x.grid x.index with
    | some w => if dieOf w == die then [w] else []
    | none => []
  else (s.roundRobin die).filter (s.windowOk x.ctx d)

/-- The cores of a die that a waiting swarm has reserved. A reservation ends when its window is no longer one that the swarm
may stand in: it was ungranted, or remapped (R76, R80). -/
def State.reservedCores (s : State) (die : Nat) (y : Waiting) : List Nat :=
  match y.window, s.launch? y.ctx y.launch with
  | some w, some l => match l.grid? y.grid with
    | some g =>
      let d := { g.desc with swarm := y.count }
      if (s.windowsFor l y.swarm d die).contains w then windowCores w y.count else []
    | none => []
  | _, _ => []

/-- Reservations whose window their swarm can no longer have are over, so that none comes back beside another (R76, R80). -/
def State.endReservations (s : State) : State :=
  let keep (die : Nat) (y : Waiting) : Waiting := if (s.reservedCores die y).isEmpty then { y with window := none } else y
  (s.dies.map (·.1)).foldl (fun s n => s.modDie n fun d => { d with waiting := d.waiting.map (keep n) }) s

/-- Deterministic launches lose cores (R80): lost names those of each, because its window was moved, pre-empted or
ungranted. A reservation that this ends does not come back. -/
def State.loseCores (s : State) (lost : Launch → List Nat) : State :=
  let lose (l : Launch) : Launch :=
    if l.det && l.measured.isSome && !(lost l).isEmpty then { l with lost := l.lost ++ [lost l] } else l
  { s with launches := s.launches.map lose }.endReservations

/-- Teams have been moved off some cores that are cleared: each deterministic launch of theirs loses those cores, and the
cores of its own teams that left with their swarm; seeds do not count (R80, R340; log entry 113, DEDUCED). -/
def State.loseVacated (s : State) (ts : List Team) (cores : List Nat) : State :=
  s.loseCores fun l =>
    let own := ts.filter fun t => t.grid != 0 && t.key.launch? == some (l.ctx, l.id)
    if own.isEmpty then [] else (cores ++ own.map (·.core)).eraseDups

/-- Whether a core is reserved for a waiting swarm of some kind. -/
def State.keptFor (s : State) (core : Nat) (p : Waiting → Bool) : Bool :=
  (s.die (dieOf core)).waiting.any fun y => p y && (s.reservedCores (dieOf core) y).contains core
/-- Whether a reservation keeps a swarm off a core: one for any other swarm does, a killed swarm that starts again included
(R76; log entry 125, DEDUCED), but not one for a swarm that it goes ahead of on its own logical cores (R80). -/
def State.reservedFrom (s : State) (x : Swarm) (core : Nat) : Bool :=
  s.keptFor core fun y => y.swarm != x && !s.goesAhead x y

/-- Whether a swarm's teams all fit in a window now. -/
def State.windowFits (s : State) (x : Swarm) (d : KDesc) (w : Nat) : Bool :=
  s.windowOk x.ctx d w && (windowCores w d.swarm).all fun c => s.fitsBut [] c d && !s.reservedFrom x c

/-- The window that a swarm starts in. -/
def State.findWindow (s : State) (l : Launch) (x : Swarm) (d : KDesc) (die : Nat) : Option Nat :=
  (s.windowsFor l x d die).find? (s.windowFits x d)

/-! ## Starting a team (R72, R73, R111, R217, R237) -/

/-- The scalars preloaded from an argument block (R23). -/
def scalarsOf (n : Nat) (args : List Byte) : List (Nat × W32) :=
  (List.range n).foldl (fun m i => sset 0 m i (BitVec.ofNat 32 (fieldAt args (4 * i) 4))) []

/-- A pair as a swarm finds it at its start; MXPSTALL goes on counting (R237, R247). -/
def Pair.scrubbed (p : Pair) : Pair := { Pair.fresh with mxpstall := p.mxpstall }

/-- One bundle for each row of a team (R112). -/
def State.startBundles (s : State) (t : Team) : State :=
  (partsBy (· / 32) (t.threads.map (·.tid))).foldl (fun s part => s.mkBundle t.key part t.desc.entry none false false) s

/-- Starts one team of a grid on a core: every write that comes before the spawn is there for it (R289). In a stopped launch it
stands stopped before its first clause (R375). -/
def State.startTeam (s : State) (l : Launch) (g : Grid) (index swarmIdx core relaunches : Nat) : State :=
  let k : TeamKey := .user l.ctx l.id (g.firstTeam + index)
  let t := Team.start k core g.id index swarmIdx g.depth g.desc (scalarsOf g.desc.scalars g.args)
  let t := { t with relaunches := relaunches }
  let s := s.acquire core .sys
  let s := { s with teams := s.teams ++ [t] }
  let s := s.startBundles t
  let s := s.traceTeam t 3
  if l.stopped then s.stopLaunch l.ctx l.id else s

/-- Starts teams of a swarm in a window, all at once, and no die has it wait any more; the core that the dispatcher used last is then the window's last one
(log entry 89, DEDUCED). -/
def State.startSwarm (s : State) (l : Launch) (g : Grid) (x : Swarm) (n w relaunches : Nat) : State :=
  let s := if g.desc.matrix then s.modPair (pairOf w) (·.scrubbed) else s
  let s := (List.range n).foldl (fun s i => s.startTeam l g (x.index + i) ((x.index + i) % g.desc.swarm) (w + i) relaunches) s
  let s := s.modLaunch l.ctx l.id fun l => l.modGrid g.id fun g =>
    { g with started := (g.started ++ windowCores x.index n).eraseDups }
  let s := (List.range dieCount).foldl (fun s die =>
    s.modDie die fun d => { d with waiting := d.waiting.filter fun y => y.swarm != x }) s
  s.modDie (dieOf w) fun d => { d with lastCore := (w + n - 1) % 40 }

/-! ## Saving a team (R74, R81, R340, R341) -/

/-- Whether a team has stopped at clause boundaries, and what it waits for in R340 has come: results landed, copies and
transfers retired or stopped, the pair's queue empty of it but for stopped streams. A team that is being ended is not saved. -/
def State.quiet (s : State) (t : Team) : Bool :=
  t.killed.isNone && (!s.bundles.any fun b => b.key == t.key && (match b.clause with | some c => c.begun | none => false))
    && (t.threads.all fun x => x.pend.all fun p => p.value.isNone)
    && ((s.moves.filter fun m => m.key == t.key).all fun m => m.stopped.isSome)
    && (s.pair (pairOf t.core)).queue.all fun o => o.stopped.isSome || !(s.swarmOf t).any fun u => u.key == o.key

/-- The operations of a team go with it: their scoreboard entries to a core, or to none while it is saved, and with them the
copies themselves, which hold no landing permit of a core they have left (R233, R235, R256). -/
def State.boardTo (s : State) (k : TeamKey) (core : Nat) : State :=
  { s with board := s.board.map fun e => if e.key == k then { e with core := core } else e
           moves := s.moves.map fun m => if m.key == k then { m with core := core } else m }

/-- Saves a team to comb memory of its die: its stores and atomics are performed at system scope, its bundles and bins
go, and its last-page registers are emptied (R193, R259, R341). Each thread keeps how many cycles it has still to let pass
(R100). -/
def State.saveTeam (s : State) (k : TeamKey) (held swapped : Bool) : State :=
  match s.team? k with
  | none => s
  | some t =>
    let s := (s.flushTeam k).drain k
    let lead := t.desc.matrix && t.swarmIdx == 0
    let p := s.pair (pairOf t.core)
    let s := (s.bundles.filter fun b => b.key == k).foldl (init := s) fun s b =>
      b.tids.foldl (fun s x => s.modThread k x fun y => { y with pc := b.pc, clause := none }) s
    let s := s.modTeam k fun t =>
      { t with place := .saved (dieOf t.core) held swapped, parkedSince := none, readySince := none
               tiles := if lead then some p else none
               threads := t.threads.map fun x => { x with lpr := none, nextAt := x.nextAt - s.cycle t.core } }
    let s := if lead then s.modPair (pairOf t.core) (·.scrubbed) else s
    let s := { s with bundles := s.bundles.filter fun b => b.key != k }
    let s := s.boardTo k coreCount
    let s := s.modCore t.core fun c => { c with bins := c.bins.filter fun b => b.key != k }
    (s.trimMonitor t.core).wakeCopies t.core

/-- Swaps a whole swarm out, the follower before the leader that keeps the pair's state. -/
def State.saveSwarm (s : State) (t : Team) : State :=
  ((s.swarmOf t).reverse.map (·.key)).foldl (fun s k => s.saveTeam k false true) s

/-! ## Restoring a team (R139, R235, R256, R287, R314, R342) -/

/-- Whether a group is one of pages that are not present or not permitted. -/
def Group.isPages (g : Group) : Bool := g.records.all fun r => r.cause == .pageNp || r.cause == .pageProt

/-- The first address of a move that still meets a page that is not present. -/
def State.stillMissing (s : State) (m : Move) : Option Nat :=
  let parts (c : Nat) : Except Cause (List (Place × Nat)) :=
    if m.kind.isXfer then
      s.rankParts m.key.ctxId (m.rankOf c) (m.block c).va (m.lay.memBytes (m.block c)) (if m.kind.inbound then .read else .write)
    else s.moveParts m c
  let missing (c : Nat) : Bool := (m.block c).nibs != 0 && (match parts c with | .error .pageNp => true | _ => false)
  (m.left.find? missing).map fun c => (m.block c).va

/-- Puts a stopped move back in flight, whole, or leaves it stopped with a new record under its group (R235, R342). The blocks that
a reducing transfer had already sent are reduced again (R314; log entry 138, DEDUCED). -/
def State.reissueMove (s : State) (core : Nat) (m : Move) : State :=
  let n := m.lay.blocks * (if m.kind.isXfer then m.lay.ranks.length else 1)
  let m := { m with core := core, order := s.nextOp, left := List.range n, sent := !m.kind.isXfer }
  let s := { s with nextOp := s.nextOp + 1 }
  let go (s : State) : State :=
    let m := { m with stopped := none }
    let s := s.modMove m.id fun _ => m
    if m.kind.isXfer then s.sendMove m else s
  match (m.stopped.bind s.group?) with
  | none => go s
  | some g =>
    match (if g.ack.isSome then none else s.stillMissing m) with
    | some va => (s.modMove m.id fun _ => m).rejoinGroup g m.pc [m.record .pageNp va s.ticks] []
    | none => go (if g.ack.isSome then s.dropGroup g else s)

/-- A stopped stream of a restored pair is queued again whole, with a new place among the issues on its core; where its page
is still not there it stays stopped, with a new record under its group, and a cancelled one stays for MX_FETCH (R233, R253,
R256, R342). -/
def State.reissueStream (s : State) (pair : Nat) (o : MatOp) : State :=
  let put (s : State) (o : MatOp) : State :=
    s.modPair pair fun p => { p with queue := modWhere (fun q => q.id == o.id) (fun _ => o) p.queue }
  let o := { o with order := s.nextOp }
  let s := { s with nextOp := s.nextOp + 1 }
  match o.stopped with
  | none => put s o
  | some id => match s.group? id with
    | none => put s o
    | some g =>
      if g.ack.isSome then (put s { o with stopped := none }).dropGroup g
      else match s.readStream o with
        | .error (.pageNp, va) =>
          let g := { g with kind := .stream pair o.id }
          ((put s { o with stopVa := some va }).modGroup g.id fun _ => g).rejoinGroup g o.pc
            [(Trap.at o.tid .pageNp kindStream va).record o.pc o.key.teamId s.ticks 1] []
        | _ => (put s { o with stopped := none }).modGroup g.id fun g => { g with kind := .stream pair o.id }

/-- Puts the pair's state of a matrix swarm back, with its stopped streams in flight again (R256). -/
def State.restorePair (s : State) (core : Nat) (p : Pair) : State :=
  let pair := pairOf core
  let old := s.pair pair
  p.queue.foldl (fun s o => s.reissueStream pair o) (s.modPair pair fun _ => { p with mxpstall := old.mxpstall })

/-- What a restore does with a pending group of the team (R342). -/
def State.restoreGroup (s : State) (g : Group) : State :=
  match g.kind with
  | .fault =>
    if g.ack.isSome then s.replayGroup g
    else if g.isPages then
      let ts := s.groupMembers g
      let s := ts.foldl (fun s x => s.modThread g.key x fun y => { y with reissue := some g.id }) s
      (s.modGroup g.id fun g => { g with members := [] }).release g.key ts true false
    else s
  | .syscall => if g.ack.isSome then s.releaseGroup g else s
  | .trap _ => if g.ack.isSome then s.releaseGroup g else s
  | .stop => s
  | .fp => s
  | .move _ => s
  | .stream _ _ => s

/-- The waits on memory of a restored team are the new core's, and each word is reread at once (R287). -/
def State.restoreWaits (s : State) (k : TeamKey) (core : Nat) (ts : List Thread) : State :=
  let s := ts.foldl (init := s) fun s x => match x.parkedAs with
    | some (.memory w) =>
      let (s, w) := s.monitorWait core { w with polled := false, nextPoll := 0 }
      s.modThread k x.tid fun x => { x with stat := .parked (.memory { w with nextPoll := s.cycle core }) }
    | _ => s
  match s.team? k with
  | none => s
  | some t => s.endWaits t fun x => s.waitDue t false x || s.waitDue t true x

/-- Restores a saved team on a core: threads go back into bins, meetings and parks; running ones form bundles by row and
PC, one that a debugger steps for its one word (R376); waits on memory reread; copies are issued again, each with its scoreboard entry, although the new core's board may then hold more
than 64 (R235; log entry 132, DEDUCED), and a thread held at the issue of one looks again; groups go on as R342 says. -/
def State.restoreTeam (s : State) (k : TeamKey) (core : Nat) : State :=
  match s.team? k with
  | none => s
  | some t =>
    let s := s.modTeam k fun t =>
      { t with core := core, place := .resident, readySince := none, tiles := none
               threads := t.threads.map fun x => { x with nextAt := x.nextAt + s.cycle core } }
    let s := (s.acquire core .sys).boardTo k core
    let s := match t.tiles with | some p => s.restorePair core p | none => s
    let s := (s.moves.filter fun m => m.key == k).foldl (fun s m => s.reissueMove core m) s
    let s := (t.threads.filter fun x => match x.stat with | .binned _ => true | _ => false).foldl
      (fun s x => s.fileThread k x.tid x.pc) s
    let s := s.regroup k ((t.threads.filter fun x => x.isRunning && !x.stopNext).map (·.tid)) false false
    let s := s.regroup k ((t.threads.filter fun x => x.isRunning && x.stopNext).map (·.tid)) false true
    let s := s.release k (s.parkedFor k fun p => p == .copy) true false
    let s := s.restoreWaits k core t.threads
    let s := (s.groups.filter fun g => g.key == k).foldl State.restoreGroup s
    ((s.enterHeld k).settle k).wake

/-- Restores a swarm in a window. -/
def State.restoreSwarm (s : State) (ts : List Team) (w : Nat) : State :=
  ts.foldl (fun s t => s.restoreTeam t.key (w + t.swarmIdx)) s

end Sys2Proof.Machine
end

