-- ==== Sys2Proof/Machine/Collective.lean ====
section
/-! DEFINITION. Collective.lean: collectives and pod barriers: the packet and its match exchange (R322, R323), the steps
(R324, R325), and the release of a pod barrier (R326). -/

namespace Sys2Proof.Machine

/-! ## The packet (R322) -/

def Packet.collOp (p : Packet) : Nat := p.field 0x40 1
def Packet.collTree (p : Packet) : Bool := p.field 0x41 1 == 1
def Packet.members (p : Packet) : Nat := p.field 0x42 1
def Packet.me (p : Packet) : Nat := p.field 0x43 1
def Packet.root (p : Packet) : Nat := p.field 0x44 1
def Packet.collDet (p : Packet) : Bool := p.field 0x45 1 == 1
def Packet.stagger (p : Packet) : Nat := p.field 0x46 2
def Packet.layoutAt (p : Packet) : Nat := p.field 0x48 8
def Packet.flagBase (p : Packet) : Nat := p.field 0x50 8
def Packet.rankBytes (p : Packet) : List Byte := (p.bytes.drop 0x58).take 32
/-- The coord code of a member. -/
def Packet.rank (p : Packet) (i : Nat) : Coord := p.field (0x58 + 2 * i) 2
def Packet.timeout (p : Packet) : Nat := p.field 0x78 8
def Packet.isPod (p : Packet) : Bool := p.collOp == 5
def Packet.reducing (p : Packet) : Bool := p.collOp == 1 || p.collOp == 2
/-- The members other than this one, in order. -/
def Packet.others (p : Packet) : List Nat := (List.range p.members).filter (· != p.me)

/-- Whether the values of a COLL packet are in range. -/
def State.collFieldsOk (s : State) (p : Packet) : Bool :=
  let n := p.members
  let ranks := (List.range n).map p.rank
  let names := if p.isPod then ranks.map (· % 4096) else ranks
  1 ≤ p.collOp && p.collOp ≤ 5 && p.field 0x41 1 ≤ 1 && 2 ≤ n && n ≤ 16 && p.me < n && (p.collOp != 4 || p.root < n)
    && p.field 0x45 1 ≤ 1 && (if p.isPod then p.stagger ≤ 8191 else p.stagger == 0)
    && p.layoutAt % 64 == 0 && (!p.isPod || p.layoutAt == 0) && p.flagBase % 8 == 0
    && p.zero (0x58 + 2 * n) (2 * (16 - n)) && (ranks.all fun r => r < 32768) && s.isOurs (p.rank p.me)
    && names.eraseDups.length == n && !(p.collOp == 2 && p.collTree && !p.collDet)

/-- The layout record of a packet as a collective reads it: its tile at coordinates zero, with a memory element as wide as
the format says. -/
def collLayout (record : List Byte) : Layout := { Layout.ofBytes record with reduce := 0, rep := 0 }
/-- Coordinates zero. -/
def originCoords : List Int := [0, 0, 0, 0, 0]

/-- Whether the layout record passes the tests of R317, with the members as ranks. -/
def State.collRecordOk (s : State) (p : Packet) (record : List Byte) : Bool :=
  let l := Layout.ofBytes record
  let g := collLayout record
  l.contentOk record && g.aligned originCoords true && l.reduce ≤ 5 && redAdmits l.reduce l.format && !(p.reducing && l.reduce == 0)
    && (l.key == 0 || ((List.range p.members).all fun i => match s.flow? p.ctx (p.rank i) l.key with
        | some f => (g.inRange originCoords).all fun b => g.flowIndex b < f.n
        | none => false))

/-! ## Steps (R324) -/

/-- Smallest L with n ≤ 2^L. -/
def log2Up (n : Nat) : Nat := if n ≤ 1 then 0 else Nat.log2 (n - 1) + 1

/-- The shape of a collective: its packet, with the blocks of its tile. -/
structure CollShape where
  op : Nat
  n : Nat
  root : Nat
  ring : Bool
  tree : Bool
  blocks : Nat
deriving DecidableEq, Repr

def Packet.shape (p : Packet) (record : List Byte) : CollShape :=
  { op := p.collOp, n := p.members, root := p.root, blocks := (collLayout record).blocks,
    ring := !p.collDet && !p.collTree && p.collOp ≤ 3,
    tree := !p.collDet && p.collTree && (p.collOp == 1 || p.collOp == 4) }

/-- Blocks of chunk i. -/
def CollShape.chunk (c : CollShape) (i : Nat) : List Nat :=
  let lo := i * c.blocks / c.n
  (List.range ((i + 1) * c.blocks / c.n - lo)).map (lo + ·)
/-- The whole tile. -/
def CollShape.whole (c : CollShape) : List Nat := List.range c.blocks

/-- Steps of the collective. -/
def CollShape.steps (c : CollShape) : Nat :=
  if c.ring then (if c.op == 1 then 2 * (c.n - 1) else c.n - 1)
  else if c.tree then (if c.op == 1 then 2 * log2Up c.n else log2Up c.n)
  else if c.op == 1 then 2
  else 1

/-- Steps in which contributions are reduced. -/
def CollShape.reduceSteps (c : CollShape) : Nat :=
  if c.op != 1 && c.op != 2 then 0
  else if c.ring then c.n - 1
  else if c.tree then log2Up c.n
  else 1

/-- A step down a binomial tree: a member at relative place r and its child. -/
def treeDown (n l s r : Nat) : Option Nat :=
  let d := 2 ^ (l - 1 - s)
  if r % (2 * d) == 0 && r + d < n then some (r + d) else none

/-- What member m sends at step s: blocks and the members that get them, in order of emission. -/
def CollShape.sends (c : CollShape) (s m : Nat) : List (List Nat × List Nat) :=
  let others := (List.range c.n).filter (· != m)
  if c.ring then
    [(c.chunk ((m + 2 * c.n - s) % c.n), [(m + 1) % c.n])]
  else if c.tree then
    let l := log2Up c.n
    if c.op == 1 then
      if s < l then (if m % 2 ^ (s + 1) == 2 ^ s then [(c.whole, [m - 2 ^ s])] else [])
      else ((treeDown c.n l (s - l) m).map fun r => (c.whole, [r])).toList
    else ((treeDown c.n l s ((m + c.n - c.root) % c.n)).map fun r => (c.whole, [(r + c.root) % c.n])).toList
  else if c.op == 4 then (if m == c.root then [(c.whole, others)] else [])
  else if c.op == 3 || (c.op == 1 && s == 1) then [(c.chunk m, others)]
  else others.map fun i => (c.chunk i, [i])

/-- What member m gets at step s: the sender and the block. -/
def CollShape.gets (c : CollShape) (s m : Nat) : List (Nat × Nat) :=
  (List.range c.n).flatMap fun j =>
    (c.sends s j).flatMap fun x => if x.2.contains m then x.1.map fun b => (j, b) else []

/-! ## Sending -/

/-- A block of the tile as a member finds it, and its parts at some ranks. -/
def State.collItem (s : State) (ctx : Nat) (l : Layout) (ranks : List Coord) (i : Nat) : Except Cause FlowItem :=
  let b := l.block originCoords i
  let n := l.memBytes b
  match s.placesOf ctx b.va n .read with
  | .error c => .error c
  | .ok ps =>
    let src := match ps.head? with | some p => (s.readBlock p.1).getD noPrediction | none => noPrediction
    let parts : Except Cause (List (List (Place × Nat))) := ranks.foldl (init := .ok []) fun acc r =>
      match acc with
      | .error c => .error c
      | .ok ps => match s.rankParts ctx r b.va n .write with
        | .error c => .error c
        | .ok p => .ok (ps ++ [p])
    match parts with
    | .error c => .error c
    | .ok ps => .ok { idx := l.flowIndex b, code := i, data := src.present n, parts := ps }

/-- Some blocks of the tile. -/
def State.collItems (s : State) (ctx : Nat) (l : Layout) (ranks : List Coord) (blocks : List Nat) :
    Except Cause (List FlowItem) :=
  blocks.foldl (init := .ok []) fun acc i =>
    match acc with
    | .error c => .error c
    | .ok xs => match s.collItem ctx l ranks i with
      | .error c => .error c
      | .ok x => .ok (xs ++ [x])

/-- Emits a step's segments: ascending chunk, then ascending destination (R313, R324). -/
def State.collSend (s : State) (p : Packet) (c : Coll) (step : Nat) : Except Cause State :=
  let l := collLayout c.record
  let reduce := if step < (p.shape c.record).reduceSteps then (Layout.ofBytes c.record).reduce else 0
  ((p.shape c.record).sends step p.me).foldl (init := .ok s) fun acc x =>
    match acc with
    | .error c => .error c
    | .ok s =>
      let ranks := x.2.map p.rank
      match s.collItems p.ctx l ranks x.1 with
      | .error c => .error c
      | .ok items => match flowBad l.key items with
        | some c => .error c
        | none =>
          .ok (s.sendAll p.ctx l.key (p.rank p.me)
            (x.2.map fun i => { rank := p.rank i, shift := 0, coll := some { pkt := p.name, step := step, dest := i } })
            (x.2.length == 1) reduce none items)

/-! ## Receiving -/

/-- The new bytes of some elements under a reduction. The spec gives no address for the f32 destination of add.bf16 where
source and destination are one tile: its result is a free value (log entry 27, DESIGN CHOICE). -/
def State.collReduce (s : State) (reduce fmt : Nat) (old src : List Byte) : State × List Byte :=
  if reduce == 2 then
    ({ s with free := s.free + old.length }, (List.range old.length).map fun i => BitVec.ofNat 8 (Config.freeNat (s.free + i)))
  else (s, redBytes reduce fmt old src)

/-- Writes reduced bytes: descriptors stay, and marks spread (R208, R319). -/
def State.collWrite (s : State) (parts : List (Place × Nat)) (bytes : List Byte) (mark : Option Cause) : State :=
  scatter parts bytes (fun s p bs =>
    let s := s.writeBytes p bs
    if mark.isSome then s.writePoison p mark else s) s

/-- Writes copied bytes with their descriptor and mark. -/
def State.collCopy (s : State) (parts : List (Place × Nat)) (b : Block) : State :=
  scatter parts b.bytes (fun s p bs => s.writePart p (p.pa % 64) bs b.descr b.poison) s

/-- The local packet of a member of a collective. -/
def State.collPeer? (s : State) (ctx : Nat) (ranks : List Byte) (number member : Nat) : Option Packet :=
  s.packets.find? fun p => p.ctx == ctx && p.kind == 2 && p.open && p.rankBytes == ranks && p.me == member
    && (match p.coll with | some c => c.number == number | none => false)

/-- One block of a step reaches a member: it is held for a deterministic reduction, reduced, or copied. -/
def State.collLand (s : State) (p : Packet) (step src blk : Nat) (parts : List (Place × Nat)) (reduce : Nat) (b : Block) : State :=
  match p.coll with
  | none => s
  | some c =>
    let hold := step < (p.shape c.record).reduceSteps && p.collDet
    let s := if hold then s
      else if reduce != 0 then
        let (s, bs) := s.collReduce reduce (Layout.ofBytes c.record).format (s.gather parts) b.bytes
        s.collWrite parts bs b.poison
      else s.collCopy parts b
    s.modPacket p.name fun p => { p with coll := p.coll.map fun c =>
      { c with got := c.got ++ [(step, src, blk)], held := if hold then c.held ++ [(src, blk, b)] else c.held } }

/-- A block that reaches a peer package's member: a copy lands there, a reduction is made there, and a contribution that
waits there for its step's end has written nothing yet. -/
def State.collLandPeer (s : State) (p : Packet) (step : Nat) (parts : List (Place × Nat)) (reduce : Nat) (b : Block) : State :=
  match p.coll with
  | none => s
  | some c =>
    if step < (p.shape c.record).reduceSteps && p.collDet then s
    else if reduce != 0 then
      let (s, bs) := s.collReduce reduce (Layout.ofBytes c.record).format (s.gather parts) b.bytes
      s.collWrite parts bs b.poison
    else s.collCopy parts b

/-! ## The match exchange (R323) -/

/-- The match message of a member: q, bytes 0x40 to 0x45, the rank list, the layout record. -/
def Packet.matchMsg (p : Packet) (c : Coll) : List Byte :=
  bytesOfNat 8 c.number ++ (p.bytes.drop 0x40).take 6 ++ p.rankBytes ++ c.record
/-- A message without the byte that names its sender. -/
def withoutMe (msg : List Byte) : List Byte := msg.take 11 ++ msg.drop 12

/-- A message as it is kept for the members it was sent to: its number and its rank list stand in it (R323). -/
def keptMsg (ctx sender : Nat) (msg : List Byte) : CollMsg :=
  { ctx := ctx, ranks := (msg.drop 14).take 32, number := natOfBytes (msg.take 8), sender := sender, bytes := msg }
/-- A member's message is on its way to the others, whenever they come to need it. -/
def State.sendMatch (s : State) (m : CollMsg) : State :=
  if s.collMsgs.any fun x => x.ctx == m.ctx && x.ranks == m.ranks && x.number == m.number && x.sender == m.sender then s
  else { s with collMsgs := s.collMsgs ++ [m] }
/-- The message that a member has sent. -/
def State.sentMatch? (s : State) (p : Packet) (number sender : Nat) : Option (List Byte) :=
  (s.collMsgs.find? fun x => x.ctx == p.ctx && x.ranks == p.rankBytes && x.number == number && x.sender == sender).map (·.bytes)

/-- The packet with a collective in progress, if it is one. -/
def State.coll? (s : State) (n : PktName) : Option (Packet × Coll) :=
  match s.packet? n with
  | some p => if p.kind == 2 && p.open then p.coll.map fun c => (p, c) else none
  | none => none
def State.modColl (s : State) (n : PktName) (f : Coll → Coll) : State :=
  s.modPacket n fun p => { p with coll := p.coll.map f }

/-- COLL_PACKET: the checks, the packet's number, and its match message (R322, R323). A pod barrier's arrival stamp is the
instant at which it begins (R326). -/
def execCollPacket (p : PktName) (s : State) : Result :=
  .next (s.orEnding p (match s.starting? p 2 with
    | none => s
    | some p =>
      let refuse : State := s.endPacket p { state := 3, check := 16 }
      let go (record : List Byte) : State :=
        let key := p.rankBytes ++ [BitVec.ofNat 8 p.me]
        let was := match (s.ctx p.ctx).colls.find? fun e => e.1 == key with | some e => e.2 | none => 0
        let c : Coll :=
          { number := was + 1, record := record, step := 0, steps := (p.shape record).steps, running := false,
            matched := [p.me], got := [], held := [], stamps := if p.isPod then [(p.me, s.ticks)] else [], release := none,
            late := false }
        let s := s.modCtx p.ctx fun x => { x with colls := (x.colls.filter fun e => e.1 != key) ++ [(key, was + 1)] }
        (s.modPacket p.name fun y => { y with stage := .begun, began := s.ticks, coll := some c }).sendMatch
          (keptMsg p.ctx p.me (p.matchMsg c))
      if !s.collFieldsOk p then refuse
      else if p.isPod then go []
      else match s.sysRead p.ctx p.layoutAt 64 with
        | .error .pageNp => s
        | .error _ => refuse
        | .ok record => if s.collRecordOk p record then go record else refuse))

/-- Ends every local packet of a mismatched collective (R323). -/
def State.collMismatch (s : State) (p : Packet) (c : Coll) : State :=
  (s.packets.filter fun x => x.ctx == p.ctx && x.kind == 2 && x.open && x.rankBytes == p.rankBytes
    && (match x.coll with | some d => d.number == c.number | none => false)).foldl (init := s) fun s x =>
    s.endPacket x (.failed .collMismatch)

/-- A step's sends made, or the packet ended with what stopped them; none: the hive must first service a page. -/
def State.collStart (s : State) (p : Packet) (c : Coll) (step : Nat) : Option State :=
  match s.collSend p c step with
  | .error .pageNp => none
  | .error e => some (s.endPacket p (.failed e))
  | .ok s => some s

/-- COLL_MATCH_RECEIVE: the message of another member comes. A member of this package sends what its packet said, whether or
not that packet is still unfinished; a peer's message that comes before the packet has begun is kept. Once every message has
come and matches, step 0 begins (R323, R324). -/
def execCollMatchReceive (p : PktName) (member : Nat) (msg : List Byte) (s : State) : Result :=
  .next (match s.coll? p with
    | none => match s.packet? p with
      | some q => if q.kind == 2 && q.open && q.ending.isNone && member < q.members && !s.isOurs (q.rank member) then
          s.sendMatch (keptMsg q.ctx member msg) else s
      | none => s
    | some (p, c) =>
      let honest := match s.sentMatch? p c.number member with
        | some sent => msg == sent
        | none => !s.isOurs (p.rank member)
      if c.running || c.matched.contains member || p.members ≤ member || natOfBytes (msg.take 8) != c.number || !honest then s
      else if withoutMe msg != withoutMe (p.matchMsg c) || msg.getD 11 0 != BitVec.ofNat 8 member then
        s.collMismatch p c
      else
        let all := c.matched.length + 1 == p.members
        let s1 := s.modColl p.name fun c => { c with matched := c.matched ++ [member], running := all }
        if all && !p.isPod then (s1.collStart p c 0).getD s else s1)

/-- Whether a collective names a package that has gone silent: it then ends by its timeout alone (R378). -/
def State.collGone (s : State) (p : Packet) : Bool := (List.range p.members).any fun i => s.silent.contains (p.rank i % 4096)

/-- Whether a collective's messages are late, or a package that it names has gone silent (R323, R378). -/
def State.collLate (s : State) (p : Packet) (c : Coll) : Bool :=
  let waits := !c.running || (p.isPod && c.release.isNone) || s.collGone p
  p.timeout != 0 && waits && p.began + p.timeout ≤ s.ticks

/-- COLL_TIMEOUT (R323). -/
def execCollTimeout (p : PktName) (s : State) : Result :=
  .next (match s.coll? p with
    | none => s
    | some (p, c) => if s.collLate p c then s.endPacket p { state := 5 } else s)

/-! ## The end of a step (R324, R325) -/

/-- Whether the step that a member is in has been performed: what it sent has been applied, what it is to get has come, and no
package that the collective names is silent (R325, R378). -/
def State.collDone (s : State) (p : Packet) (c : Coll) : Bool :=
  !s.collGone p && (!s.segments.any fun g => match g.coll with | some r => r.pkt == p.name && r.step == c.step | none => false)
    && ((p.shape c.record).gets c.step p.me).all fun x => c.got.contains (c.step, x.1, x.2)

/-- The reductions of a deterministic step 0: R := the chunk of member 0, then R op the chunk of each later member, written
to the tile (R324). -/
def State.collCombine (s : State) (p : Packet) (c : Coll) : Except Cause State :=
  let l := collLayout c.record
  let full := Layout.ofBytes c.record
  let shape := p.shape c.record
  if !p.collDet || c.step != 0 || shape.reduceSteps == 0 then .ok s
  else (shape.chunk p.me).foldl (init := .ok s) fun acc i =>
    match acc with
    | .error e => .error e
    | .ok s => match s.collItem p.ctx l [p.rank p.me] i with
      | .error e => .error e
      | .ok own =>
        let part (j : Nat) : Block := if j == p.me then own.data
          else match c.held.find? fun h => h.1 == j && h.2.1 == i with | some h => h.2.2 | none => noPrediction
        let first := part 0
        let r := ((List.range p.members).drop 1).foldl (init := (s, first.bytes, first.poison)) fun r j =>
          let (s, bs) := r.1.collReduce full.reduce full.format r.2.1 (part j).bytes
          (s, bs, r.2.2.orElse fun _ => (part j).poison)
        .ok (r.1.collWrite (own.parts.headD []) r.2.1 r.2.2)

/-- COLL_STEP_COMPLETE: the step's flag is stored with release, and the next step begins or the packet completes (R325). -/
def execCollStepComplete (p : PktName) (step : Nat) (s : State) : Result :=
  .next (match s.coll? p with
    | none => s
    | some (p, c) =>
      if !c.running || p.isPod || c.step != step || !s.collDone p c then s
      else
        let failed (e : Cause) : State := if e == .pageNp then s else s.endPacket p (.failed e)
        match s.collCombine p c with
        | .error e => failed e
        | .ok s1 => match s1.feStore p.ctx (p.flagBase + 8 * step) (bytesOfNat 8 c.number) with
          | .error e => failed e
          | .ok s1 =>
            if step + 1 < c.steps then
              let s2 := s1.modColl p.name fun c => { c with step := step + 1 }
              (s2.collStart p c (step + 1)).getD s
            else s1.endPacket p { state := 1 })

/-! ## Pod barriers (R326) -/

/-- Keeps a member's arrival stamp that has come before the packet has begun. -/
def Packet.keepStamp (p : Packet) (member stamp : Nat) : Packet :=
  if p.early.any fun e => e.1 == member then p else { p with early := p.early ++ [(member, stamp)] }

/-- POD_ARRIVAL_RECEIVE: another member's arrival stamp comes; the last one fixes the release instant. One that comes before the
packet has begun is kept for it. -/
def execPodArrivalReceive (p : PktName) (member stamp : Nat) (s : State) : Result :=
  .next (match s.coll? p with
    | none => match s.packet? p with
      | some q => if q.kind == 2 && q.open && q.ending.isNone && q.isPod && member < q.members then
          s.modPacket p fun q => q.keepStamp member stamp else s
      | none => s
    | some (p, c) =>
      if !p.isPod || p.members ≤ member || c.stamps.any (fun e => e.1 == member) then s
      else
        let stamps := c.stamps ++ [(member, stamp)]
        let t := (stamps.map (·.2)).foldl Nat.max 0 + 4096
        s.modColl p.name fun c =>
          if stamps.length == p.members then { c with stamps := stamps, release := some t, late := t < s.ticks + 256 }
          else { c with stamps := stamps })

/-- Changes a die's FLOWSTAT counts. -/
def State.modFlow (s : State) (die : Nat) (f : Nat × Nat × Nat → Nat × Nat × Nat) : State :=
  { s with flowStat := sset (0, 0, 0) s.flowStat die (f (sget (0, 0, 0) s.flowStat die)) }

/-- A late barrier counts once at every die of the package; the count saturates as the other two do (R314, R326; log entry 49,
DEDUCED). -/
def State.countLateBar (s : State) : State :=
  (List.range dieCount).foldl (fun s d => s.modFlow d fun e => (satAdd 0xFFFF e.1 1, e.2)) s

/-- POD_BARRIER_RELEASE: at the release instant the flag is stored and the packet completes; its core groups are then
filed. Where match messages come later than the release instant, the release waits for them, and only what was known of the
arrivals decides whether it counts as late (R323, R326; log entry 134, DEDUCED). -/
def execPodBarrierRelease (p : PktName) (s : State) : Result :=
  .next (match s.coll? p with
    | none => s
    | some (p, c) => match c.release with
      | none => s
      | some t =>
        if !p.isPod || !c.running || s.ticks < t || s.collGone p then s
        else match s.feStore p.ctx p.flagBase (bytesOfNat 8 c.number) with
          | .error .pageNp => s
          | .error e => s.endPacket p (.failed e)
          | .ok s1 =>
            let s1 := s1.endPacket p { state := 1 }
            let s1 := if c.late then s1.countLateBar else s1
            { s1 with pods := s1.pods ++ [{ pkt := p.name, ctx := p.ctx, flag := p.flagBase, release := t, stagger := p.stagger,
                                            filed := [] }] })

/-- Core groups of a package. -/
def podGroups : Nat := 16
/-- The core group of a core. -/
def podGroupOf (core : Nat) : Nat := core / 20

/-- The teams of a core group that may wait on a pod barrier's flag. -/
def State.podTeams (s : State) (pod : Pod) (group : Nat) : List Team :=
  s.teams.filter fun t => t.isResident && podGroupOf t.core == group && t.key.ctx? == some pod.ctx

/-- Whether a thread is parked on a pod barrier's flag and its condition holds now. -/
def State.podOver (s : State) (pod : Pod) (t : Team) (x : Thread) : Bool :=
  match x.parkedAs with
  | some (.memory w) => within pod.flag 8 w.va && s.waitOver t.key w
  | _ => false

/-- POD_GROUP_FILE: the waiters of a core group whose condition holds are filed, at the group's instant. -/
def execPodGroupFile (p : PktName) (group : Nat) (s : State) : Result :=
  .next (match s.pods.find? fun d => d.pkt == p with
    | none => s
    | some pod =>
      if podGroups ≤ group || pod.filed.contains group || s.ticks < pod.release + group * pod.stagger then s
      else
        let s := (s.podTeams pod group).foldl (fun s t => s.endWaits t (s.podOver pod t)) s
        let pods := s.pods.map fun d => if d.pkt == p then { d with filed := d.filed ++ [group] } else d
        { s with pods := pods.filter fun d => d.filed.length < podGroups })

end Sys2Proof.Machine
end

