-- ==== Sys2Proof/Machine/Distribute.lean ====
section
/-! DEFINITION. Distribute.lean: the dispatchers and distributors of the dies: batches and starts (R71 to R73, R78),
migration, spatial pre-emption and reservation (R74 to R76), swap-out and re-admission (R81, R82). -/

namespace Sys2Proof.Machine

/-! ## Work that waits on a die -/

/-- Teams of a grid. -/
def Grid.teams (g : Grid) : Nat := g.gx * g.gy * g.gz
/-- B rounded up to a multiple of the swarm size (R71). -/
def Launch.batchFor (l : Launch) (g : Grid) : Nat := (l.batch + g.desc.swarm - 1) / g.desc.swarm * g.desc.swarm

/-- Something to start: teams of a swarm of a grid of a launch, all of them or one that starts again alone. -/
structure Work where
  l : Launch
  g : Grid
  index : Nat
  count : Nat
deriving DecidableEq, Repr

/-- A whole swarm of a grid. -/
def Work.whole (l : Launch) (g : Grid) (index : Nat) : Work := { l := l, g := g, index := index, count := g.desc.swarm }
/-- The kernel descriptor as the search for a window reads it. -/
def Work.desc (x : Work) : KDesc := { x.g.desc with swarm := x.count }

def Work.swarm (x : Work) : Swarm := { ctx := x.l.ctx, launch := x.l.id, grid := x.g.id, index := x.index }
/-- Higher priority first, then the grid accepted earliest; of grids accepted in one tick the lower context, launch and grid id
(R72; log entry 111, DESIGN CHOICE). -/
def Work.order (x : Work) : List Nat := [15 - x.l.prio, x.g.accepted, x.l.ctx, x.l.id, x.g.id]
/-- The first of some work. -/
def firstWork (l : List Work) : Option Work := leastBy (fun a b => lexLt (a.order ++ [a.index]) (b.order ++ [b.index])) l

/-! ## Saved teams (R82) -/

/-- Whether the cause of a thread's park has ended. -/
def State.unparked (s : State) (t : Team) (x : Thread) : Bool :=
  let acked (id : Nat) : Bool := match s.group? id with | some g => g.ack.isSome | none => true
  let moveAcked : Bool := (s.moves.any fun m => m.key == t.key && (match m.stopped with | some g => acked g | none => true))
    || (s.swarmOf t).any fun u => match u.tiles with
      | some p => p.queue.any fun o => match o.stopped with | some g => acked g | none => true
      | none => false
  match x.stat with
  | .running => true
  | .binned _ => true
  | .stopped => false
  | .exited => false
  | .off => false
  | .parked p =>
    match p with
    | .memory w => s.waitOver t.key w
    | .group g => acked g
    | .spawn _ => t.spawns.length < spawnEntries
    | .quota => true
    | .cwait n => (sget [] x.batches n).isEmpty || moveAcked
    | .copy => moveAcked || (s.board.filter fun e => e.core == t.core).length < boardSize
    | .meeting _ _ => moveAcked
    | .barWait n => t.phaseSeen x n || moveAcked
    | .barArrive _ => moveAcked
    | .tbar _ => moveAcked
    | .fpTrap => false

/-- Whether a saved team can go on: it is not held, its launch runs, and, where it was swapped out because it was parked, the
park of some member of its swarm has ended (R82, R339, R342). -/
def State.canReadmit (s : State) (t : Team) : Bool :=
  s.launchHas t.key (·.running) && (match t.place with
    | .saved _ held swapped => !held && (!swapped || (s.swarmOf t).any fun u => u.threads.any (s.unparked u))
    | .resident => false)

/-- The die on which a team is saved. -/
def Team.savedOn (t : Team) : Option Nat := match t.place with | .saved d _ _ => some d | .resident => none

/-- The die where a saved team is to be re-admitted: its own, or, of a deterministic team, that of its logical core's window
(R80, R82). -/
def State.readmitDie (s : State) (t : Team) : Option Nat :=
  match t.savedOn, s.launchOf? t.key with
  | some die, some l => if l.det && t.grid != 0 then s.detDie l t.desc.swarm (l.groupOf t.desc.swarm t.index) else some die
  | _, _ => none

/-- Whether a saved team has a window left where it may be re-admitted: a deterministic team that of its logical cores, any
other one on some die where it may go (R82). -/
def State.roomLeft (s : State) (t : Team) : Bool :=
  match s.launchOf? t.key, t.savedOn with
  | some l, some die =>
    if l.det && t.grid != 0 then (s.detWindow l t.desc.swarm (l.groupOf t.desc.swarm t.index)).isSome
    else (if l.det then [die] else List.range dieCount).any fun d => (coresOfDie d).any (s.windowOk l.ctx t.desc)
  | _, _ => true

/-- Whether a re-admission waits on a die. -/
def State.readmitting (s : State) (die : Nat) : Bool := s.teams.any fun t => s.readmitDie t == some die && s.canReadmit t

/-! ## Work to start -/

/-- Whether a team of a deterministic launch that belongs to a group of logical cores has been saved and is to resume, ahead of
their unstarted teams; one that was swapped out is, once its park has ended (R80, R82). -/
def State.savedFor (s : State) (l : Launch) (n k : Nat) : Bool :=
  s.teams.any fun t => t.key.launch? == some (l.ctx, l.id) && t.grid != 0 && l.groupOf n t.index == k
    && (match t.place with | .saved _ _ swapped => !swapped || s.canReadmit t | .resident => false)

/-- Whether an unstarted swarm that waits must let a team of its own logical cores go ahead of it: one that is saved, or killed
and to start again (R80, R255). -/
def State.yields (s : State) (y : Waiting) : Bool :=
  y.grid != 0 && (match s.launch? y.ctx y.launch with
    | none => false
    | some l => l.det && !l.restarting y.grid y.index && (match l.grid? y.grid with
      | none => false
      | some g =>
        let n := g.desc.swarm
        let k := l.groupOf n y.index
        s.savedFor l n k || l.restarts.any fun r => r.grid != 0 && l.groupOf n r.index == k))

/-- The swarm of a grid that a die starts next: of a deterministic grid the lowest whose window lies there and for whose
logical cores no saved team is to resume first, else the next of those it owns (R71, R78, R80). -/
def State.nextOf (s : State) (l : Launch) (g : Grid) (die : Nat) : Option Nat :=
  let n := g.desc.swarm
  if l.det then
    let next (k : Nat) : Nat := k * n + l.lcores * ((g.started.filter fun t => t % n == 0 && l.groupOf n t == k).length)
    let mine (k : Nat) : Bool := next k < g.teams && s.detDie l n k == some die && !s.savedFor l n k
    leastBy (· < ·) (((List.range (l.lcores / n)).filter mine).map next)
  else (g.owned.find? fun o => o.die == die && o.next ≤ o.last).map (·.next)

/-- Killed swarms that start again on a die: where they ran, or, of a deterministic launch, where their window is now (R80,
R255). -/
def State.restartsOn (s : State) (die : Nat) : List Work :=
  (s.launches.filter (·.running)).flatMap fun l => l.restarts.filterMap fun r =>
    match l.grid? r.grid with
    | none => none
    | some g =>
      let on := if l.det && g.id != 0 then s.detDie l g.desc.swarm (l.groupOf g.desc.swarm r.index) else some r.die
      if on == some die then some { l := l, g := g, index := r.index, count := r.count } else none
/-- Seeds that wait on a die (R70). -/
def State.seedsOn (s : State) (die : Nat) : List Work :=
  (s.launches.filter fun l => l.running && l.homeDie == die).filterMap fun l =>
    (l.grids.find? fun g => g.id == 0 && g.started.isEmpty).map fun g => Work.whole l g 0
/-- Teams of other grids that a die is to start. -/
def State.teamsOn (s : State) (die : Nat) : List Work :=
  (s.launches.filter (·.running)).flatMap fun l =>
    (l.grids.filter fun g => g.id != 0).filterMap fun g => (s.nextOf l g die).map fun i => Work.whole l g i

/-- The first work of a die beside re-admissions (R72, R255). Seeds among themselves go by priority and acceptance, as teams
do (log entry 112, DEDUCED). -/
def State.nextWork (s : State) (die : Nat) : Option Work :=
  match firstWork (s.restartsOn die) with
  | some x => some x
  | none => match firstWork (s.seedsOn die) with
    | some x => some x
    | none => firstWork (s.teamsOn die)

/-! ## Waits without end (R77) -/

/-- Whether a swarm that waits can still have a window: on its die, or, of teams no die owns yet, on any; and one that is to
start again where it ran (R77, R255). -/
def State.waitPossible (s : State) (l : Launch) (g : Grid) : Bool :=
  let ok (die : Nat) : Bool := (coresOfDie die).any (s.windowOk l.ctx g.desc)
  if l.det && g.id != 0 then
    (List.range (l.lcores / g.desc.swarm)).all fun k => (s.detWindow l g.desc.swarm k).isSome
  else (l.restarts.all fun r => r.grid != g.id || (coresOfDie r.die).any (s.windowOk l.ctx { g.desc with swarm := r.count }))
    && (if g.id == 0 then !g.started.isEmpty || ok l.homeDie
      else (g.owned.all fun o => o.last < o.next || ok o.die) && (g.teams ≤ g.counter || (List.range dieCount).any ok))

/-- Whether something of a launch waits that has no window left: an unstarted swarm, one that starts again, or a saved one that is
to be re-admitted (R77; log entry 126, DEDUCED). -/
def State.stuck (s : State) (l : Launch) : Bool :=
  l.running && ((l.grids.any fun g =>
      (g.started.length < g.teams || l.restarts.any fun r => r.grid == g.id) && !s.waitPossible l g)
    || s.teams.any fun t => t.key.launch? == some (l.ctx, l.id) && s.canReadmit t && !s.roomLeft t)

/-- The launches of a context that would wait without end fail (R77). -/
def State.failStuck (s : State) (ctx : Nat) : State :=
  (s.launches.filter fun l => l.ctx == ctx && s.stuck l).foldl (fun s l => s.failLaunch l.ctx l.id .machine 0) s

/-! ## Batches and starts (R71 to R73) -/

/-- Whether a die takes a batch of a grid: it owns no unstarted team of it, and one of its windows passes the check for a
swarm (R71; log entry 60, DEDUCED). -/
def State.takesBatch (s : State) (l : Launch) (g : Grid) (die : Nat) : Bool :=
  l.running && !l.det && g.id != 0 && g.counter < g.teams && (s.nextOf l g die).isNone
    && (coresOfDie die).any fun w => s.windowOk l.ctx g.desc w && (windowCores w g.desc.swarm).all fun c => s.fitsBut [] c g.desc

/-- DISPATCH_BATCH (R71). -/
def execDispatchBatch (die ctx launch grid : Nat) (s : State) : Result :=
  .next (match s.launch? ctx launch with
    | none => s
    | some l => match l.grid? grid with
      | none => s
      | some g =>
        if die < dieCount && s.takesBatch l g die then
          let o : Owned := { die := die, next := g.counter, last := Nat.min (g.counter + l.batchFor g) g.teams - 1 }
          s.modLaunch ctx launch fun l => l.modGrid grid fun g =>
            { g with counter := g.counter + l.batchFor g, owned := (g.owned.filter fun o => o.die != die) ++ [o] }
        else s)

/-- Relaunches of the swarm that a team belongs to. -/
def Launch.relaunchesOf (l : Launch) (g : Grid) (index : Nat) : Nat :=
  match l.relaunches.find? fun r => r.1 == g.firstTeam + index with | some r => r.2 | none => 0

/-- Starts some work in a window; the die no longer owns it. -/
def State.startWork (s : State) (x : Work) (w : Nat) : State :=
  let s := s.startSwarm x.l x.g x.swarm x.count w (x.l.relaunchesOf x.g x.index)
  s.modLaunch x.l.ctx x.l.id fun l =>
    let l := { l with restarts := l.restarts.filter fun r => !(r.grid == x.g.id && r.index == x.index) }
    let l := l.dropOwed fun id => x.g.firstTeam + x.index ≤ id && id < x.g.firstTeam + x.index + x.count
    l.modGrid x.g.id fun g =>
      { g with owned := g.owned.map fun o =>
          if o.die == dieOf w && o.next == x.index then { o with next := o.next + g.desc.swarm } else o }

/-- What finds no window waits there for the distributor, a single team or a seed as a swarm of one (R70, R74; log entry 90,
DEDUCED). -/
def State.noteWaiting (s : State) (die : Nat) (w : Work) : State :=
  let x := w.swarm
  if (s.die die).waiting.any fun y => y.swarm == x then s
  else
    let y : Waiting :=
      { ctx := x.ctx, launch := x.launch, grid := x.grid, index := x.index, count := w.count, attempts := 0, firstTry := none, givenUp := false, preempted := false,
        window := none, victims := [], clearing := 0 }
    s.modDie die fun d => { d with waiting := d.waiting ++ [y] }

/-- A waiting swarm as work. -/
def State.workOf (s : State) (y : Waiting) : Option Work :=
  match s.launch? y.ctx y.launch with
  | none => none
  | some l => if l.running then (l.grid? y.grid).map fun g => { l := l, g := g, index := y.index, count := y.count } else none

/-- The swarms that wait on a die and let no team go ahead of them. -/
def State.waitingOn (s : State) (die : Nat) : List Waiting :=
  (s.die die).waiting.filter fun y => s.waitsOn die y && !s.yields y

/-- The swarms that a distributor works for: of those that wait on its die, while killed ones are to start again there, only
those (R80, R255). -/
def State.inTurn (s : State) (die : Nat) : List Waiting :=
  let again := !(s.restartsOn die).isEmpty
  (s.waitingOn die).filter fun y => !again || s.isRestart y.swarm

/-- A swarm that holds a reservation and now fits in it: nothing else may start there, so that it need not wait for a swarm that
starts again elsewhere (R76). -/
def State.reservedReady (s : State) (die : Nat) : Option (Work × Nat) :=
  (s.waitingOn die).findSome? fun y => match y.window, s.workOf y with
    | some w, some x =>
      if !(s.reservedCores die y).isEmpty && s.windowFits x.swarm x.desc w then some (x, w) else none
    | _, _ => none

/-- Starts some work in the first window that fits, or has it wait. -/
def State.startOrWait (s : State) (die : Nat) (x : Work) : State :=
  match s.findWindow x.l x.swarm x.desc die with
  | some w => s.startWork x w
  | none => s.noteWaiting die x

/-- DISPATCH_START: the swarm whose turn it is starts, or waits for a window: first a killed one that starts again and fits,
then one whose reserved window is free, then in the order of R72 (R72, R73, R76, R255). -/
def execDispatchStart (die : Nat) (s : State) : Result :=
  .next (if dieCount ≤ die then s
    else match (firstWork (s.restartsOn die)).bind fun x => (s.findWindow x.l x.swarm x.desc die).map fun w => (x, w) with
      | some (x, w) => s.startWork x w
      | none => match s.reservedReady die with
        | some (x, w) => s.startWork x w
        | none =>
          if s.readmitting die then s
          else match s.nextWork die with
            | none => s
            | some x => s.startOrWait die x)

/-! ## Migration (R74) -/

/-- The sublists of a length, in order. -/
def combos {α : Type} : Nat → List α → List (List α)
  | 0, _ => [[]]
  | _ + 1, [] => []
  | k + 1, x :: xs => (combos k xs).map (x :: ·) ++ combos (k + 1) xs

/-- Whether migration may move a team: no member of a swarm, no team inside a matrix instruction. -/
def State.movable (s : State) (k : TeamKey) : Bool :=
  match s.team? k with | some t => t.desc.swarm ≤ 1 && !t.desc.matrix | none => false

/-- The fewest resident teams whose going lets a swarm stand in a window: of several equally small sets the first that holds
only teams that migration may move, else the first (R74; log entry 91, DESIGN CHOICE). -/
def State.removal (s : State) (d : KDesc) (w : Nat) : Option (List TeamKey) :=
  let cs := windowCores w d.swarm
  let ks := (cs.flatMap s.residents).map (·.key)
  (List.range (ks.length + 1)).findSome? fun n =>
    let sets := (combos n ks).filter fun gone => cs.all fun c => s.fitsBut gone c d
    (sets.find? fun gone => gone.all s.movable).orElse fun _ => sets.head?

/-- The windows of a die that a swarm could have, no core of another swarm's reservation in them: reserved windows never overlap
(R76). -/
def State.couldHave (s : State) (x : Work) (die : Nat) : List Nat :=
  (sortBy (· ≤ ·) (s.windowsFor x.l x.swarm x.desc die)).filter fun w =>
    s.windowOk x.l.ctx x.desc w
      && (windowCores w x.count).all fun c => !s.keptFor c fun y => y.swarm != x.swarm

/-- The window that needs the fewest teams moved, the lowest of several, with those teams. -/
def State.cheapest (s : State) (x : Work) (die : Nat) : Option (Nat × List TeamKey) :=
  leastBy (fun a b => a.2.length < b.2.length || (a.2.length == b.2.length && a.1 < b.1))
    ((s.couldHave x die).filterMap fun w => (s.removal x.desc w).map fun ks => (w, ks))

/-- Replaces what a distributor knows of a waiting swarm. -/
def State.modWaiting (s : State) (die : Nat) (y : Waiting) (f : Waiting → Waiting) : State :=
  s.modDie die fun d => { d with waiting := modWhere (fun z => z.swarm == y.swarm) f d.waiting }

/-- The waiting swarm that a distributor works for: the first in the order of reservations that satisfies p and still
finds no window. -/
def State.pursued (s : State) (die : Nat) (p : Waiting → Bool) : Option (Waiting × Work) :=
  let ys := (s.inTurn die).filterMap fun y => (s.workOf y).map fun x => (y, x)
  leastBy (fun a b => lexLt (a.2.order ++ [a.2.index]) (b.2.order ++ [b.2.index]))
    (ys.filter fun e => p e.1 && (s.findWindow e.2.l e.2.swarm e.2.desc die).isNone)

/-- Ticks in 100 µs. -/
def hundredMicros : Nat := 100000

/-- A failed attempt; the third ends migration for the swarm. -/
def Waiting.failTry (y : Waiting) (now : Nat) : Waiting :=
  { y with attempts := y.attempts + 1, firstTry := some (y.firstTry.getD now), victims := [], givenUp := y.givenUp || 3 ≤ y.attempts + 1 }

/-- Moves one team to another granted core of its die, outside the window that is cleared, in the order of R72, of which that
core is then the last one used: a deterministic team other than the seed to the window of its logical core, which counts
its old core as lost (R74, R80). none: no core of the die passes. -/
def State.migrate (s : State) (k : TeamKey) (clearing : List Nat) : Option State :=
  match s.team? k with
  | none => none
  | some t =>
    let ctx := k.ctxId
    let die := dieOf t.core
    let x : Swarm := { ctx := ctx, launch := k.launchId, grid := t.grid, index := t.index }
    let open' (c : Nat) : Bool :=
      !clearing.contains c && c != t.core && dieOf c == die && s.granted ctx c && s.fitsBut [] c t.desc && !s.reservedFrom x c
    let fixed := s.launchHas k (·.det) && t.grid != 0
    let s' := s.loseVacated [t] []
    let target : Option Nat := match s'.launchOf? k with
      | none => none
      | some l =>
        if fixed then (s'.detWindow l 1 (l.groupOf 1 t.index)).filter open' else (s.roundRobin die).find? open'
    target.map fun c => ((s'.saveTeam k false false).restoreTeam k c).modDie die fun d => { d with lastCore := c % 40 }

/-- MIGRATION_ATTEMPT: the window is chosen and its teams stop at clause boundaries; once those that have not left it on their
own account are quiet, each is moved (R74). -/
def execMigrationAttempt (die : Nat) (s : State) : Result :=
  .next (match s.pursued die fun y => !y.givenUp && (s.reservedCores die y).isEmpty with
    | none => s
    | some (y, x) =>
      let failed (s : State) : State := s.modWaiting die y (·.failTry s.ticks)
      if y.victims.isEmpty then
        match s.cheapest x die with
        | none => failed s
        | some (w, ks) =>
          if ks.all s.movable then
            s.modWaiting die y fun y => { y with victims := ks, clearing := w, firstTry := some (y.firstTry.getD s.ticks) }
          else failed s
      else if (s.leavers y).all s.quiet then
        let r := ((s.leavers y).map (·.key)).foldl (init := (s, true)) fun acc k =>
          if !acc.2 then acc
          else match acc.1.migrate k (windowCores y.clearing x.count) with
            | some s => (s, true)
            | none => (acc.1, false)
        if r.2 then r.1.modWaiting die y fun y => { y with victims := [] } else failed r.1
      else s)

/-- MIGRATION_TIMEOUT: 100 µs after the first attempt, migration ends for the swarm (R74). -/
def execMigrationTimeout (die : Nat) (s : State) : Result :=
  .next (match (s.die die).waiting.find? fun y => !y.givenUp && (match y.firstTry with
      | some t => t + hundredMicros ≤ s.ticks
      | none => false) with
    | none => s
    | some y => s.modWaiting die y fun y => { y with givenUp := true, victims := [] })

/-! ## Spatial pre-emption and reservation (R75, R76) -/

/-- A window that pre-emption could clear: its teams are of the same context, of launches of lower priority, and their
swarms lie within it. The result ranks it: lowest priority, highest sequence number, lowest core; of victims that differ, the
highest priority and the lowest sequence number count (R75; log entry 56, DEDUCED). -/
def State.preemptable (s : State) (x : Work) (w : Nat) : Option (List Nat × Nat × List TeamKey) :=
  let cs := windowCores w x.count
  let ts := cs.flatMap s.residents
  let ls := ts.filterMap fun t => s.launchOf? t.key
  let ok (t : Team) : Bool :=
    t.key.ctxId == x.l.ctx && (match s.launchOf? t.key with | some l => l.prio < x.l.prio | none => false)
      && (s.swarmOf t).all fun u => cs.contains u.core
  if ts.isEmpty || !ts.all ok then none
  else
    let top := (ls.map (·.prio)).foldl Nat.max 0
    let low := (ls.map (·.seq)).foldl Nat.min ((ls.map (·.seq)).headD 0)
    some ([top, 2 ^ 64 - low, w], w, ts.map (·.key))

/-- The window that pre-emption clears. -/
def State.preemptTarget (s : State) (x : Work) (die : Nat) : Option (Nat × List TeamKey) :=
  (leastBy (fun a b => lexLt a.1 b.1) ((s.couldHave x die).filterMap (s.preemptable x))).map (·.2)

/-- SPATIAL_PREEMPT: the victims stop at clause boundaries; once those that have not left the window on their own account are
quiet they are saved, to be re-admitted, and the swarm starts in the cleared window (R75). -/
def execSpatialPreempt (die : Nat) (s : State) : Result :=
  .next (match s.pursued die fun y => y.givenUp && !y.preempted && (s.reservedCores die y).isEmpty with
    | none => s
    | some (y, x) =>
      if y.victims.isEmpty then
        match s.preemptTarget x die with
        | none => s
        | some (w, ks) => s.modWaiting die y fun y => { y with victims := ks, clearing := w }
      else if (s.leavers y).all s.quiet then
        let ts := s.leavers y
        let s := (ts.reverse.foldl (fun s t => s.saveTeam t.key false false) s).loseVacated ts (windowCores y.clearing x.count)
        let s := s.modWaiting die y fun y => { y with victims := [], preempted := true }
        if (s.windowsFor x.l x.swarm x.desc die).contains y.clearing && s.windowFits x.swarm x.desc y.clearing then
          s.startWork x y.clearing
        else s
      else s)

/-- WINDOW_RESERVE: neither migration nor pre-emption has placed the swarm (R76). -/
def execWindowReserve (die : Nat) (s : State) : Result :=
  .next (match s.pursued die fun y => y.givenUp && (s.reservedCores die y).isEmpty && y.victims.isEmpty with
    | none => s
    | some (y, x) =>
      if !y.preempted && (s.preemptTarget x die).isSome then s
      else match s.cheapest x die with
        | none => s
        | some (w, _) => s.modWaiting die y fun y => { y with window := some w })

/-! ## Swap-out and re-admission (R81, R82) -/

/-- Whether a team is parked: every live thread is. -/
def Team.parked (t : Team) : Bool := (t.threads.filter (·.live)).all fun x => x.parkedAs.isSome

/-- Whether a team has been parked for SWAPTHR µs. -/
def State.swappable (s : State) (t : Team) : Bool :=
  t.isResident && t.parked && s.quiet t && (match t.parkedSince with
    | some t0 => t0 + 1000 * s.swapThr ≤ s.ticks
    | none => false)

/-- The swarm of a team. -/
def Team.swarm (t : Team) : Swarm :=
  { ctx := t.key.ctxId, launch := t.key.launchId, grid := t.grid, index := t.index / t.desc.swarm * t.desc.swarm }

/-- The windows where a saved swarm may go on a die, in the dispatcher's order. -/
def State.readmitWindows (s : State) (t : Team) (die : Nat) : List Nat :=
  match s.launchOf? t.key with
  | none => []
  | some l =>
    if l.det && t.grid != 0 then (s.detWindow l t.desc.swarm (l.groupOf t.desc.swarm t.index)).toList
    else s.windowsFor l t.swarm t.desc die
/-- The first core of the window where a saved swarm goes on a die. -/
def State.readmitWindow (s : State) (t : Team) (die : Nat) : Option Nat :=
  (s.readmitWindows t die).find? (s.windowFits t.swarm t.desc)

/-- Parked teams whose going lets a swarm stand in a window, none of them for nothing; a swarm goes whole (R81). -/
def State.roomBy (s : State) (d : KDesc) (w : Nat) : List TeamKey :=
  let cs := windowCores w d.swarm
  let fits (gone : List TeamKey) : Bool := cs.all fun c => s.fitsBut gone c d
  let ts := (cs.flatMap s.residents).filter fun t => (s.swarmOf t).all s.swappable
  let all := ts.map (·.key)
  if !fits all then []
  else ts.foldl (init := all) fun gone t =>
    let less := gone.filter fun k => !(s.swarmOf t).any fun u => u.key == k
    if fits less then less else gone

/-- What waits on a die and finds no room there: the swarm, its kernel, and the windows of its context that it could have. -/
def State.crowdedOut (s : State) (die : Nat) : List (KDesc × List Nat) :=
  let work := ((s.waitingOn die).filterMap s.workOf).filter fun x => (s.findWindow x.l x.swarm x.desc die).isNone
  let back := s.teams.filter fun t => s.readmitDie t == some die && s.canReadmit t && (s.readmitWindow t die).isNone
  work.map (fun x => (x.desc, s.couldHave x die))
    ++ back.map fun t => (t.desc, (s.readmitWindows t die).filter fun w => s.windowOk t.key.ctxId t.desc w
      && (windowCores w t.desc.swarm).all fun c => !s.reservedFrom t.swarm c)

/-- Whether a team's swarm has to go for something that waits on its die to find room (R81). -/
def State.needsRoom (s : State) (t : Team) : Bool :=
  (s.crowdedOut (dieOf t.core)).any fun x => x.2.any fun w =>
    (s.roomBy x.1 w).any fun k => (s.swarmOf t).any fun u => u.key == k

/-- SWAP_OUT: a parked team, or a whole parked swarm, leaves its core for work that waits there (R81). -/
def execSwapOut (key : TeamKey) (s : State) : Result :=
  .next (match s.team? key with
    | none => s
    | some t =>
      if s.swapThr != 0 && !key.isWalker && (s.swarmOf t).all s.swappable && s.needsRoom t then s.saveSwarm t else s)

/-- A saved swarm is re-admitted; its window's last core is then the one that the dispatcher used last (log entry 89,
DEDUCED). -/
def State.readmit (s : State) (t : Team) (die : Nat) : State :=
  match s.readmitWindow t die with
  | none => s
  | some w =>
    let s := s.restoreSwarm (s.swarmOf t) w
    s.modDie (dieOf w) fun d => { d with lastCore := (w + t.desc.swarm - 1) % 40 }

/-- SWAP_READMIT (R82): a team that has no window left where it could ever go fails its launch (R77; log entry 126, DEDUCED). -/
def execSwapReadmit (key : TeamKey) (s : State) : Result :=
  .next (match s.team? key with
    | none => s
    | some t =>
      if !s.canReadmit t then s
      else if !s.roomLeft t then (s.failLaunchOf key .machine 0).wake
      else match s.readmitDie t with
        | none => s
        | some die => s.readmit t die)

/-- READMIT_OTHER_DIE: after 100 µs without a core (R82). -/
def execReadmitOtherDie (key : TeamKey) (die : Nat) (s : State) : Result :=
  .next (match s.team? key with
    | none => s
    | some t =>
      let late := match t.readySince with | some t0 => t0 + hundredMicros ≤ s.ticks | none => false
      if die < dieCount && s.canReadmit t && late && !s.launchHas key (·.det) then s.readmit t die else s)

end Sys2Proof.Machine
end

