-- ==== Sys2Proof/Machine/LaunchFE.lean ====
section
/-! DEFINITION. LaunchFE.lean: the front end's checks of launch records (R48, R77), the acceptance of a LAUNCH (R49, R55) and
of a spawn record (R50 to R53, R61, R290), and the beginning of a launch (R56 to R62, R70). -/

namespace Sys2Proof.Machine

/-! ## The checks (R48) -/

/-- How the checks of a record end: the hive must first service a page, a numbered check fails, or all pass, with the
descriptor, the intervals and the argument block as read. -/
inductive Verdict
  | wait
  | fail (check : Nat)
  | ok (d : KDesc) (ivs : List Interval) (args : List Byte)
deriving DecidableEq, Repr

/-- A read that the checks make. -/
def State.checkRead (s : State) (ctx va n : Nat) (f : List Byte → Verdict) : Verdict :=
  match s.sysRead ctx va n with
  | .ok b => f b
  | .error .pageNp => .wait
  | .error _ => .fail 13

/-- Whether a swarm can stand on some die under the grants in force (check 15, R77). -/
def State.swarmPossible (s : State) (ctx : Nat) (det : Bool) (lcores : Nat) (d : KDesc) : Bool :=
  let n := d.swarm
  !(d.matrix && n != 2) && d.load.within coreCapacity && !(det && lcores % n != 0)
    && (List.range coreCount).any fun w =>
      s.windowOk ctx d w && !(det && w % 40 % n != 0)

/-- Whether declared intervals pass check 8. -/
def intervalsOk (ivs : List Interval) : Bool := ivs.all fun v => v.len != 0 && v.base + v.len ≤ 2 ^ 56

/-- Checks 9 to 15. spawnBad is check 12. -/
def State.checkRest (s : State) (ctx : Nat) (r : LRec) (d : KDesc) (ivs : List Interval) (spawnBad : Bool) : Verdict :=
  if r.argbytes > 4096 || r.argbytes % 4 != 0 || r.args % 4 != 0 || d.scalars > r.argbytes / 4 then .fail 9
  else if r.batch > 64 || !r.reservedOk then .fail 10
  else if r.done % 8 != 0 then .fail 11
  else if spawnBad then .fail 12
  else s.checkRead ctx r.args r.argbytes fun args => s.checkRead ctx d.entry d.codeBytes fun code =>
    if sha256 code != d.digest then .fail 14
    else if !s.swarmPossible ctx (r.flag 1) r.lcores d then .fail 15
    else .ok d ivs args

/-- Check 8 and those after it: the interval list of a LAUNCH is read before it; a spawn record's is ignored. -/
def State.checkIntervals (s : State) (ctx : Nat) (r : LRec) (d : KDesc) (spawn spawnBad : Bool) : Verdict :=
  let n := r.inputs + r.outputs
  if spawn then s.checkRest ctx r d [] spawnBad
  else s.checkRead ctx r.intervals (16 * n) fun b =>
    let ivs := (List.range n).map fun i => Interval.mk (fieldAt b (16 * i) 8) (fieldAt b (16 * i + 8) 8)
    if r.inputs > 8 || r.outputs > 8 || (n != 0 && r.intervals == 0) || r.intervals % 16 != 0 || !intervalsOk ivs then .fail 8
    else s.checkRest ctx r d ivs spawnBad

/-- Checks 2 to 15 of a record, in order. -/
def State.checkLaunch (s : State) (ctx : Nat) (r : LRec) (spawn spawnBad : Bool) : Verdict :=
  if r.kernel % 64 != 0 then .fail 2
  else s.checkRead ctx r.kernel 64 fun b =>
    let d := KDesc.ofBytes b
    if !d.shapeOk then .fail 3
    else if r.teams == 0 || r.teams ≥ 2 ^ 32 || r.teams % d.swarm != 0 then .fail 4
    else if !spawn && (r.teams != 1 || d.threads > 32) then .fail 5
    else if r.flags ≥ 1024 || (r.flag 0 && !r.flag 1) || (r.flag 4 && !r.flag 3) then .fail 6
    else if (if r.flag 1 then r.lcores < 1 || r.lcores > 320 else r.lcores != 0) then .fail 7
    else s.checkIntervals ctx r d spawn spawnBad

/-! ## Acceptance of a LAUNCH (R49, R55) -/

/-- Interval-table entries of a launch. -/
def Launch.entries (l : Launch) : Nat := Nat.max 1 (l.inputs.length + l.outputs.length)
/-- How a launch's packet stands. -/
def State.stageOf (s : State) (l : Launch) : Option PktStage := (s.packet? l.pkt).map (·.stage)
/-- Entries that a context has in use; a launch of a context that was torn down has none (R41). -/
def State.entriesUsed (s : State) (ctx : Nat) : Nat :=
  ((s.launches.filter fun l => l.ctx == ctx && l.completed.isNone && s.stageOf l != some .queued).map (·.entries)).sum

/-- Queued launches of a context take entries in order of their sequence numbers; none passes another (R55). -/
def State.promote (s : State) (ctx : Nat) : Nat → State
  | 0 => s
  | n + 1 =>
    match leastBy (fun a b => a.seq < b.seq) (s.launches.filter fun l => l.ctx == ctx && s.stageOf l == some .queued) with
    | none => s
    | some l =>
      if s.entriesUsed ctx + l.entries ≤ (s.ctx ctx).ivQuota then
        State.promote (s.modPacket l.pkt fun p => { p with stage := .waiting }) ctx n
      else s

/-- The seed's grid (R50, R52). -/
def seedGridOf (r : LRec) (d : KDesc) (args : List Byte) (now : Nat) : Grid :=
  { id := 0, depth := 0, gx := r.gx, gy := r.gy, gz := r.gz, desc := d, args := args, done := r.done,
    firstTeam := 0, counter := 0, owned := [], started := [], retired := 0, complete := false,
    accepted := now }

/-- No time counted yet. -/
def Account.zero : Account := { placing := 0, exec := 0, fault := 0, io := 0, other := 0 }

/-- A launch as its packet is accepted. -/
def launchOfPacket (p : Packet) (id : Nat) (r : LRec) (d : KDesc) (ivs : List Interval) (args : List Byte)
    (pages : List Nat) : Launch :=
  { ctx := p.ctx, id := id, pkt := p.name, prio := p.prio, seq := p.seq, record := r.raw, flags := r.flags, lcores := r.lcores,
    batch := r.batchSize, inputs := ivs.take r.inputs, outputs := ivs.drop r.inputs, desc := d, args := args, done := r.done,
    stat := .waiting, inDigests := [], codeDigest := [], measured := none, completed := none, seedGrid := [],
    homeDie := 0, mask := 0, lost := [], tree := 0, nextTeam := 1, nextGrid := 1, grids := [],
    ranges := [{ base := d.entry, len := d.codeBytes }], spViol := false, dirtyIn := false, inPages := [], codePages := pages,
    relaunches := [], restarts := [], owed := [], shadow := [], ivals := [], places := [], reuseKey := [],
    account := Account.zero, submit := p.submit, failGroup := 0, stopped := false }

/-- The next launch id after one: they run from 1 and continue from 1 (R49). -/
def nextId (n : Nat) : Nat := if n ≥ 0xFFFFFFFF then 1 else n + 1

/-- A LAUNCH that passes its checks gets its id, its argument copy and its place in the order. -/
def State.acceptLaunch (s : State) (p : Packet) (r : LRec) (d : KDesc) (ivs : List Interval) (args : List Byte) : State :=
  let id := (s.ctx p.ctx).nextLaunch
  let s := s.modCtx p.ctx fun c => { c with nextLaunch := nextId id }
  let (s, due) := match s.feStore p.ctx (p.slot + 0x3C) (bytesOfNat 4 id) with
    | .ok s => (s, false)
    | .error c => (s, c == Cause.pageNp)
  let l := launchOfPacket p id r d ivs args (s.sysPages p.ctx d.entry d.codeBytes)
  let s := s.modPacket p.name fun x => { x with stage := .queued, launch := id, idDue := due }
  State.promote { s with launches := s.launches ++ [l] } p.ctx (s.launches.length + 1)

/-- Writes a launch id that waits for its page (R394). -/
def State.writeId (s : State) (p : Packet) : State :=
  match s.feStore p.ctx (p.slot + 0x3C) (bytesOfNat 4 p.launch) with
  | .ok s => s.modPacket p.name fun x => { x with idDue := false }
  | .error .pageNp => s
  | .error _ => s.modPacket p.name fun x => { x with idDue := false }

/-- LAUNCH_PACKET: packets of a context are checked in the order of their sequence numbers; a launch id that its page has
held back is written (R48, R55, R394). -/
def execLaunchPacket (p : PktName) (s : State) : Result :=
  .next (s.orEnding p (match s.packet? p with
    | none => s
    | some p =>
      if p.idDue then s.writeId p
      else
      let earlier := s.packets.any fun x => x.ctx == p.ctx && x.isLaunch && x.stage == PktStage.fetched && x.seq < p.seq
      if !p.isLaunch || p.stage != PktStage.fetched || earlier then s
      else
        let r := LRec.ofBytes (p.bytes.drop 0x40)
        match s.checkLaunch p.ctx r false false with
        | .wait => s
        | .fail n => s.endPacket p { state := 3, check := n }
        | .ok d ivs args => s.acceptLaunch p r d ivs args))

/-! ## Hazards (R56) -/

/-- Whether some interval of one list overlaps one of another. -/
def overlap (a b : List Interval) : Bool := a.any fun x => b.any fun y => x.base < y.base + y.len && y.base < x.base + x.len
/-- The whole address space. -/
def wholeSpace : Interval := { base := 0, len := 2 ^ 56 }
/-- A launch that declares nothing reads and writes the whole space (R55). -/
def Launch.reads (l : Launch) : List Interval := if l.inputs.isEmpty && l.outputs.isEmpty then [wholeSpace] else l.inputs
def Launch.writes (l : Launch) : List Interval := if l.inputs.isEmpty && l.outputs.isEmpty then [wholeSpace] else l.outputs
/-- Whether a later launch has a hazard with an earlier one. -/
def hazard (e l : Launch) : Bool := overlap e.writes l.reads || overlap e.reads l.writes || overlap e.writes l.writes

/-- Whether a LAUNCH may begin, or has begun and still measures (R45, R47, R56, R57). -/
def State.mayLaunch (s : State) (p : Packet) (l : Launch) : Bool :=
  l.stat == .waiting && (p.stage == .begun || p.stage == .waiting && s.unhalted p
    && !((s.packetsOf p.name.q).any fun x => x.open && !x.isLaunch && idxBefore x.name.idx p.name.idx)
    && !s.launches.any fun e => e.ctx == l.ctx && e.seq < l.seq && hazard e l)

/-! ## Beginning (R57 to R62, R70) -/

/-- The seed goes to placement: its grid is accepted and its home die chosen (R50, R70). -/
def State.placeSeed (s : State) (ctx id : Nat) : State :=
  match s.launch? ctx id with
  | none => s
  | some l =>
    let r := LRec.ofBytes l.record
    let s := s.modPacket l.pkt fun p => { p with stage := .begun }
    match s.homeDie ctx with
    | none => s.failLaunch ctx id .machine 0
    | some die => s.modLaunch ctx id fun l =>
      { l with stat := .begun, homeDie := die, mask := (s.ctx ctx).cores, tree := 1,
               grids := [seedGridOf r l.desc l.args s.ticks] }

/-- The reuse entry that a launch hits: its context's, of an equal key, with every output base equal modulo 64 (R63,
R65). An entry whose bases differ is no hit, and keeps its rank (log entry 127, DEDUCED). -/
def State.reuseHit (s : State) (l : Launch) : Option Reuse :=
  (s.reuse.find? fun r => r.ctx == l.ctx && r.key == l.reuseKey).filter fun r =>
    (r.outs.zip l.outputs).all fun x => x.1.base % 64 == x.2.base % 64

/-- Marks an entry as the last one hit (R63). -/
def State.touchReuse (s : State) (r : Reuse) : State :=
  let top := (s.reuse.map (·.hit)).foldl Nat.max 0
  { s with reuse := modWhere (fun x => x.ctx == r.ctx && x.key == r.key) (fun x => { x with hit := top + 1 }) s.reuse }

/-- Steps 3 to 5 of R57 for a launch whose digests are known. -/
def State.measureAndPlace (s : State) (l : Launch) : State :=
  let s := s.appendMeasure l
  if !l.pure then s.placeSeed l.ctx l.id
  else match s.reuseHit l with
    | none => s.placeSeed l.ctx l.id
    | some r =>
      let s := (s.touchReuse r).modLaunch l.ctx l.id fun l => { l with stat := .reusing }
      s.modPacket l.pkt fun p => { p with stage := .reusing }

/-- LAUNCH_BEGIN. A page that is not present is serviced first, while the launch has begun; any other failure of a read fails
the launch, with nothing appended (R57, R59, R209, R363). -/
def execLaunchBegin (p : PktName) (s : State) : Result :=
  .next (match s.packet? p with
    | none => s
    | some p => match s.launch? p.ctx p.launch with
      | none => s
      | some l =>
        if !s.mayLaunch p l then s
        else
          let (s, r) := (s.modPacket p.name fun p => { p with stage := .begun }).hashIntervals l.ctx l.inputs
          let failed (c : Cause) : State := s.failLaunch l.ctx l.id c 0
          match r with
          | .error .pageNp => s
          | .error c => failed c
          | .ok ds => match s.seedGrid l.ctx l.desc with
            | .error .pageNp => s
            | .error c => failed c
            | .ok g =>
              let pages := l.inputs.flatMap fun v => s.sysPages l.ctx v.base v.len
              let l := { l with inDigests := ds, codeDigest := codeDigestOf l.desc g, seedGrid := g.1 ++ g.2, inPages := pages }
              let l := { l with reuseKey := if l.pure then reuseKeyOf (s.ctx l.ctx).asid l else [] }
              (s.modLaunch l.ctx l.id fun _ => l).measureAndPlace l)

/-! ## Spawns (R50 to R53, R61, R290) -/

/-- Check 12 of a spawn record. -/
def Launch.spawnDiffers (l : Launch) (r : LRec) : Bool :=
  r.flags != l.flags || r.lcores != l.lcores || (l.pure && r.done != 0)

/-- Whether the record of a generated seed is what the launch measured (R61). -/
def Launch.sameAsMeasured (l : Launch) (r : LRec) (d : KDesc) (args : List Byte) : Bool :=
  let m := LRec.ofBytes (l.seedGrid.take 64)
  r.kernel == m.kernel && (r.raw.drop 0x18).take 8 == (m.raw.drop 0x18).take 8 && r.args == m.args && r.argbytes == m.argbytes
    && d.raw.drop 8 == l.seedGrid.drop 72 && args == l.args

/-- Accepts a spawn record: the grid, its team ids and its argument copy (R49 to R52). -/
def State.acceptSpawn (s : State) (l : Launch) (t : Team) (r : LRec) (d : KDesc) (args : List Byte) : State :=
  let pages := s.sysPages l.ctx d.entry d.codeBytes
  let g : Grid :=
    { id := l.nextGrid, depth := t.depth + 1, gx := r.gx, gy := r.gy, gz := r.gz, desc := d,
      args := args, done := r.done, firstTeam := l.nextTeam, counter := 0, owned := [], started := [],
      retired := 0, complete := false, accepted := s.ticks }
  let s := s.modLaunch l.ctx l.id fun l =>
    { l with grids := l.grids ++ [g], nextGrid := l.nextGrid + 1, nextTeam := l.nextTeam + r.teams, tree := l.tree + 1,
             ranges := l.ranges ++ [{ base := d.entry, len := d.codeBytes }], codePages := l.codePages ++ pages }
  s.modTeam t.key fun t => { t with grids := t.grids ++ [g.id] }

/-- The entry of a team that the front end drains next. -/
def Team.nextSpawn (t : Team) : Option PendingLaunch := leastBy (fun a b => a.order < b.order) t.spawns

/-- Fails a launch for a bad spawn record, which names the leader and the spawn's address (R290). -/
def State.failSpawn (s : State) (t : Team) (e : PendingLaunch) (c : Cause) : State :=
  let id := s.nextGroup
  let s := s.takeReport t.key .fault ((Trap.plain 0 c).record e.pc t.key.teamId s.ticks 1) []
  (s.modTeam t.key fun t => { t with spawns := [] }).failLaunchOf t.key c id

/-- Whether the front end can take a team's next entry: the launch runs, and no page must first be serviced. -/
def State.spawnReady (s : State) (t : Team) : Bool :=
  match s.launchOf? t.key, t.nextSpawn with
  | some l, some e =>
    l.running && (match s.checkLaunch l.ctx (LRec.ofBytes e.bytes) true (l.spawnDiffers (LRec.ofBytes e.bytes)) with
      | .wait => false
      | .fail _ => true
      | .ok _ _ _ => true)
  | _, _ => false

/-- The team that the front end serves next: round-robin over the teams with waiting entries (R52). -/
def State.spawnTurn? (s : State) : Option TeamKey :=
  let ks := sortBy (fun a b => !lexLt b.order a.order) ((s.teams.filter s.spawnReady).map (·.key))
  match s.spawnServed with
  | none => ks.head?
  | some k => (ks.find? fun x => lexLt k.order x.order).or ks.head?

/-- SPAWN_ACCEPT (R52). -/
def execSpawnAccept (key : TeamKey) (s : State) : Result :=
  .next (if s.spawnTurn? != some key then s
    else match s.team? key, s.launchOf? key with
      | some t, some l => match t.nextSpawn with
        | none => s
        | some e =>
          let r := LRec.ofBytes e.bytes
          match s.checkLaunch l.ctx r true (l.spawnDiffers r) with
          | .wait => s
          | .fail _ => { s.failSpawn t e .spawnBad with spawnServed := some key }
          | .ok d _ args =>
            if l.pure && t.desc.isSeed && !l.sameAsMeasured r d args then { s.failSpawn t e .purity with spawnServed := some key }
            else
              let u := s.modTeam key fun t => { t with spawns := t.spawns.filter fun x => x.slot != e.slot }
              { (((u.acceptSpawn l t r d args).enterHeld key).settle key).wake with spawnServed := some key }
      | _, _ => s)

end Sys2Proof.Machine
end

