-- ==== Sys2Proof/Machine/CoreImage.lean ====
section
/-! DEFINITION. CoreImage.lean: the ELF core image of a failed launch (R377). What the spec leaves to the ELF format and the
widths of note fields that it does not lay out are those of log entry 25, PRESUMED. -/

namespace Sys2Proof.Machine

/-- Pads bytes with zeros to a multiple of n. -/
def padTo (n : Nat) (bs : List Byte) : List Byte := bs ++ List.replicate ((n - bs.length % n) % n) 0

/-- The name of every note, with its final zero. -/
def noteName : List Byte := [0x47, 0x41, 0x52, 0x47, 0x49, 0x4C, 0x00]

/-- A note: sizes, type, name and contents. -/
def note (type : Nat) (desc : List Byte) : List Byte :=
  bytesOfNat 4 noteName.length ++ bytesOfNat 4 desc.length ++ bytesOfNat 4 type ++ padTo 4 noteName ++ padTo 4 desc

/-- Bytes before the notes: the ELF header and one program header. -/
def imageHead : Nat := 120

/-- The ELF header and the PT_NOTE program header, for a number of note bytes. -/
def elfHead (n : Nat) : List Byte :=
  [0x7F, 0x45, 0x4C, 0x46, 2, 1, 1, 0] ++ List.replicate 8 0 ++ bytesOfNat 2 4 ++ bytesOfNat 2 0x5F01 ++ bytesOfNat 4 1 ++
    bytesOfNat 8 0 ++ bytesOfNat 8 64 ++ bytesOfNat 8 0 ++ bytesOfNat 4 1 ++ bytesOfNat 2 64 ++ bytesOfNat 2 56 ++
    bytesOfNat 2 1 ++ bytesOfNat 2 0 ++ bytesOfNat 2 0 ++ bytesOfNat 2 0 ++
    bytesOfNat 4 4 ++ bytesOfNat 4 0 ++ bytesOfNat 8 imageHead ++ bytesOfNat 8 0 ++ bytesOfNat 8 0 ++ bytesOfNat 8 n ++
    bytesOfNat 8 0 ++ bytesOfNat 8 4

/-- A barrier register as an image maps it (R225). -/
def BarReg.word (b : BarReg) : W64 := b.phase ++ b.xexp ++ (if b.tm then 1 else 0 : BitVec 1) ++ b.xadd ++ b.xgot

/-- The group whose report counts a floating-point trap of a thread; 0 where none does (R337). -/
def State.fpGroupOf (s : State) (t : Team) (tid : Nat) : Nat :=
  match (s.core t.core).windows.find? fun w => w.traps.any fun f => f.key == t.key && f.tid == tid with
  | some w => w.group
  | none => 0

/-- State code, address and group of a thread. A thread that a floating-point trap parked counts as parked in a group, that of
its window (log entry 25, PRESUMED). -/
def State.imageState (s : State) (t : Team) (x : Thread) : Nat × Nat × Nat :=
  match x.stat with
  | .running => (0, 0, 0)
  | .binned _ => (1, x.pc, 0)
  | .stopped => (5, 0, 0)
  | .exited => (6, 0, 0)
  | .off => (7, 0, 0)
  | .parked p =>
    match p with
    | .meeting a _ => (2, a, 0)
    | .memory w => (3, w.va, 0)
    | .group g => (4, 0, g)
    | .barWait _ => (3, 0, 0)
    | .barArrive _ => (3, 0, 0)
    | .tbar _ => (3, 0, 0)
    | .cwait _ => (3, 0, 0)
    | .fpTrap => (4, 0, s.fpGroupOf t x.tid)
    | .spawn _ => (3, 0, 0)
    | .quota => (3, 0, 0)
    | .copy => (3, 0, 0)

/-- A window entry of a THREAD note: registers by number, predicates by 256 + number, all predicates as 511. -/
def WinEntry.image (e : WinEntry) : List Byte :=
  let slot := match e.dest with | .reg r => r | .pair r => r | .pred k => predSlot k | .preds => 511
  bytesOfNat 2 slot ++ bytesOfNat 2 e.left ++ bytesOfNat 4 0 ++ bytesOfNat 8 e.value.toNat

/-- A THREAD note. -/
def State.threadNote (s : State) (launch : Nat) (t : Team) (x : Thread) : List Byte :=
  let (st, a, g) := s.imageState t x
  note 0x5303 (bytesOfNat 4 launch ++ bytesOfNat 4 t.key.teamId ++ bytesOfNat 2 x.tid ++ bytesOfNat 1 st ++
    bytesOfNat 1 (t.desc.wregs / 8) ++ bytesOfNat 2 x.arr.toNat ++ bytesOfNat 2 0 ++ bytesOfNat 8 x.pc ++ bytesOfNat 8 a ++
    bytesOfNat 8 g ++ bytesOfNat 4 x.preds.toNat ++ bytesOfNat 4 (Nat.min 10 x.win.length) ++
    ((List.range 16).flatMap fun n => bytesOfNat 2 (sget 0 x.wp n).toNat) ++
    ((x.win.take 10).flatMap WinEntry.image ++ List.replicate 160 0).take 160 ++
    ((x.group 0 t.desc.wregs).flatMap fun w => bytesOfNat 4 w.toNat))

/-- A TEAM note. -/
def teamNote (t : Team) : List Byte :=
  let scalars (m : List (Nat × W32)) : List Byte := (List.range 32).flatMap fun i => bytesOfNat 4 (sget 0 m i).toNat
  note 0x5302 (bytesOfNat 4 t.key.teamId ++ bytesOfNat 4 t.depth ++ bytesOfNat 4 t.swarmIdx ++ bytesOfNat 4 t.core ++
    scalars t.visible ++ scalars t.pending ++ ((List.range 16).flatMap fun n => bytesOfNat 8 (t.bar n).word.toNat) ++
    bytesOfNat 8 t.tbarPhase ++ bytesOfNat 128 t.faultMask.toNat ++
    (t.tags.flatMap fun e => bytesOfNat 4 e.1 ++ bytesOfNat 4 e.2.2.toNat ++ bytesOfNat 8 e.2.1.toNat))

/-- A SCRATCH note. -/
def scratchNote (t : Team) : List Byte :=
  let n := t.desc.scratch
  let blocks := List.range ((n + 63) / 64)
  note 0x5304 (sgetMany 0 t.bytes 0 n ++ (blocks.flatMap fun b => bytesOfNat 2 (sget plainDescr t.descs b).toNat) ++
    ((List.range ((n / 32 + 7) / 8)).map fun i => BitVec.ofNat 8
      (((List.range 8).map fun j => if sget false t.sectors (8 * i + j) then 2 ^ j else 0).sum)) ++
    (blocks.map fun b => BitVec.ofNat 8 (match markAt t.poison b with | some c => c.code | none => 0)))

/-- The pair's state of a matrix leader. -/
def State.leaderPair (s : State) (t : Team) : Pair := t.tiles.getD (s.pair (pairOf t.core))

/-- A MATRIX note. -/
def matrixNote (p : Pair) : List Byte :=
  note 0x5305 (((List.range 16).flatMap fun t => (p.tileWords t).flatMap fun w => bytesOfNat 4 w.toNat) ++
    ((List.range 16).flatMap fun t => bytesOfNat 1 (p.flags t).toNat) ++
    ((List.range 8).flatMap fun i =>
      bytesOfNat 4 (sget [] p.slots i).length ++ ((sget [] p.slots i).flatMap fun o => bytesOfNat 8 o)))

/-- A GROUP note. -/
def groupNote (g : Group) : List Byte :=
  note 0x5306 (bytesOfNat 8 g.id ++ bytesOfNat 4 ((g.records.head?.map (·.cause.code)).getD 0) ++ bytesOfNat 8 g.pc ++
    bytesOfNat 4 g.members.length ++ ((sortBy (· ≤ ·) g.members).flatMap fun m => bytesOfNat 2 m))

/-- A LAUNCH note. -/
def launchNote (l : Launch) (tag stamp : Nat) (c : Cause) (need : Nat) : List Byte :=
  note 0x5301 (bytesOfNat 4 l.id ++ bytesOfNat 4 c.code ++ bytesOfNat 4 tag ++ bytesOfNat 4 0 ++ bytesOfNat 8 l.failGroup ++
    bytesOfNat 8 stamp ++ bytesOfNat 8 need)

/-- The notes of a failed launch in their order. -/
def State.imageNotes (s : State) (l : Launch) (c : Cause) : List (List Byte) :=
  let ts := sortBy (fun a b => a.key.teamId ≤ b.key.teamId) (s.teams.filter fun t => t.key.launch? == some (l.ctx, l.id))
  let gs := sortBy (fun a b => a.id ≤ b.id) (s.groups.filter fun g => g.ctx == l.ctx && g.launch == l.id)
  let body := (ts.flatMap fun t =>
      teamNote t :: (t.threads.map (s.threadNote l.id t) ++ [scratchNote t] ++
        (if t.desc.matrix && t.swarmIdx == 0 then [matrixNote (s.leaderPair t)] else []))) ++ gs.map groupNote
  let tag := match s.packet? l.pkt with | some p => p.tag | none => 0
  let stamp := match (s.group? l.failGroup).bind (·.records.head?) with | some r => r.stamp | none => s.ticks
  let first := launchNote l tag stamp c 0
  let need := imageHead + first.length + (body.map (·.length)).sum
  launchNote l tag stamp c need :: body

/-- Writes notes one after another until one does not fit or may not be written. The result holds the address after the
last; none: the hive must first service a page. -/
def State.writeNotes (s : State) (ctx va last : Nat) : List (List Byte) → Option (State × Nat)
  | [] => some (s, va)
  | n :: ns =>
    if va + n.length > last then some (s, va)
    else match s.sysWrite ctx va n with
      | .error .pageNp => none
      | .error _ => some (s, va)
      | .ok s => State.writeNotes s ctx (va + n.length) last ns

/-- Writes the core image of a failed launch, where the context asks for one: into its buffer, or whole into the file of an
open handle (R377; LOG2LEN counts for a file too, log entry 25, PRESUMED). -/
def State.coreImage (s : State) (l : Launch) (c : Cause) : Option State :=
  let v := (s.ctx l.ctx).coreDst
  let log := (v.extractLsb' 0 6).toNat
  if !v.getLsbD 63 || log < 12 || 40 < log then some s
  else if v.getLsbD 62 then
    let h := (v.extractLsb' 6 50).toNat
    let notes := (s.imageNotes l c).flatten
    let file (x : Nat × Nat × HandleKind) : Bool := x.1 == l.ctx && x.2.1 == h && x.2.2 == HandleKind.file
    some (if s.handles.any file then { s with imageFiles := s.imageFiles ++ [(l.ctx, h, elfHead notes.length ++ notes)] } else s)
  else
    let base := (v.extractLsb' 6 50).toNat * 64
    match s.writeNotes l.ctx (base + imageHead) (base + 2 ^ log) (s.imageNotes l c) with
    | none => none
    | some (s, stop) => match s.sysWrite l.ctx base (elfHead (stop - base - imageHead)) with
      | .error .pageNp => none
      | .error _ => some s
      | .ok s => some s

end Sys2Proof.Machine
end

