-- ==== Sys2Proof/Machine/Retire.lean ====
section
/-! DEFINITION. Retire.lean: how teams, grids and launches end: retirement (R122, R292), grid completion (R54, R291, R320),
launch completion (R219, R355), failed launches (R336), the reuse table (R63 to R65), and account entries (R364). -/

namespace Sys2Proof.Machine

/-! ## Account entries (R364) -/

/-- Threads of a team that were switched off. -/
def Team.offCount (t : Team) : Nat := (t.threads.filter fun x => x.stat == TStat.off).length

/-- The account entry of a team. -/
def teamEntry (p : Packet) (l : Launch) (t : Team) (now : Nat) (halted : Bool) : List Byte :=
  bytesOfNat 1 2 ++ bytesOfNat 1 p.name.q ++ bytesOfNat 1 l.ctx ++ bytesOfNat 1 0 ++ bytesOfNat 4 l.id ++
    bytesOfNat 4 t.key.teamId ++ bytesOfNat 4 p.tag ++ bytesOfNat 8 now ++ bytesOfNat 1 t.relaunches ++ bytesOfNat 1 t.depth ++
    bytesOfNat 2 t.offCount ++ bytesOfNat 1 (if halted then 1 else 0) ++ List.replicate 3 0 ++ bytesOfNat 8 0 ++ bytesOfNat 8 0 ++
    List.replicate 16 0 ++ bytesOfNat 128 t.faultMask.toNat ++ List.replicate 64 0

/-- The account entry of a launch, with its time-account record (R363). -/
def launchEntry (p : Packet) (l : Launch) (now state : Nat) : List Byte :=
  let a := l.account
  bytesOfNat 1 1 ++ bytesOfNat 1 p.name.q ++ bytesOfNat 1 l.ctx ++ bytesOfNat 1 state ++ bytesOfNat 4 l.id ++ bytesOfNat 4 0 ++
    bytesOfNat 4 p.tag ++ bytesOfNat 8 now ++ List.replicate 8 0 ++ bytesOfNat 8 (l.measured.getD (2 ^ 64 - 1)) ++
    bytesOfNat 8 (l.completed.getD 0) ++ List.replicate 16 0 ++
    bytesOfNat 8 l.submit ++ bytesOfNat 8 (now - l.submit - (a.placing + a.exec + a.fault + a.io + a.other)) ++ bytesOfNat 8 a.placing ++ bytesOfNat 8 a.exec ++ bytesOfNat 8 a.fault ++
    bytesOfNat 8 a.io ++ bytesOfNat 8 a.other ++ bytesOfNat 8 0 ++ List.replicate 128 0

/-- Writes an entry to a context's account ring, or counts it in LOST. -/
def State.accountPut (s : State) (ctx : Nat) (bytes : List Byte) : State :=
  (s.ringPut ctx (·.acct) (fun c r => { c with acct := r }) 256 bytes).1

/-- A team's entry. -/
def State.entryOf (s : State) (t : Team) (halted : Bool) : Option (List Byte) :=
  (s.launchOf? t.key).bind fun l => (s.packet? l.pkt).map fun p => teamEntry p l t s.ticks halted

/-- Writes a team's entry. -/
def State.accountTeam (s : State) (t : Team) (halted : Bool) : State :=
  match s.entryOf t halted with | none => s | some e => s.accountPut t.key.ctxId e

/-- Keeps the entry of a team that may yet be started again (log entry 119, DEDUCED). -/
def State.oweEntry (s : State) (t : Team) (halted : Bool) : State :=
  match s.entryOf t halted with
  | none => s
  | some e => s.modLaunch t.key.ctxId t.key.launchId fun l => (l.dropOwed (· == t.key.teamId)).owe t.key.teamId e

/-- Writes the entries that were kept of some teams of a launch, in the order of the teams' ends. -/
def State.payEntries (s : State) (ctx id : Nat) (who : Nat → Bool) : State :=
  match s.launch? ctx id with
  | none => s
  | some l =>
    ((l.owed.filter fun e => who e.1).foldl (fun s e => s.accountPut ctx e.2) s).modLaunch ctx id (·.dropOwed who)

/-! ## What starts again (R255) -/

/-- Relaunches of one swarm that a launch may have. -/
def maxRelaunches : Nat := 3

/-- The first index of a team's swarm. -/
def Team.swarmFirst (t : Team) : Nat := t.index / t.desc.swarm * t.desc.swarm

/-- The teams that are killed with a team: a matrix team's swarm; any other team alone (R254, R349). -/
def State.killSet (s : State) (t : Team) : List Team := if t.desc.matrix then s.swarmOf t else [t]
/-- The first index, and the number, of the teams that are killed with a team. -/
def Team.killFirst (t : Team) : Nat := if t.desc.matrix then t.swarmFirst else t.index
def Team.killCount (t : Team) : Nat := if t.desc.matrix then t.desc.swarm else 1

/-- Whether a killed team is started again (R255). -/
def State.relaunchable (s : State) (t : Team) : Bool :=
  match s.launchOf? t.key with
  | none => false
  | some l => l.running && l.pure && !t.desc.atomic && !t.desc.spawns && !t.desc.sysc
      && (match l.grid? t.grid with | some g => l.relaunchesOf g t.killFirst < maxRelaunches | none => false)

/-- Whether a team that ends now may yet be started again: a member of its swarm is left that can take the swarm with it
(R254, R255). -/
def State.mayReturn (s : State) (t : Team) : Bool := (s.killSet t).any (fun u => u.key != t.key) && s.relaunchable t

/-- The entry of a team that has retired: kept while it may be started again; with the last of its swarm the kept ones are
written (R364; log entry 119, DEDUCED). -/
def State.accountRetired (s : State) (t : Team) : State :=
  if s.mayReturn t then s.oweEntry t false
  else
    let first := t.key.teamId - (t.index - t.killFirst)
    let s := if (s.killSet t).all fun u => u.key == t.key then
        s.payEntries t.key.ctxId t.key.launchId fun id => first ≤ id && id < first + t.killCount else s
    s.accountTeam t false

/-! ## Retiring a team (R122, R292) -/

/-- Whether a team retires: no thread is live, its spawned grids have completed, and so has its asynchronous work. -/
def State.retires (s : State) (l : Launch) (t : Team) : Bool :=
  l.running && t.liveTids.isEmpty && t.spawns.isEmpty
    && (t.grids.all fun g => match l.grid? g with | some g => g.complete | none => true)
    && (!s.moves.any fun m => m.key == t.key)
    && (!(s.leaderPair t).queue.any fun o => o.key == t.key)

/-- The race detector keeps the interval numbers and the die of an ended team (R279). -/
def Launch.keepRace (l : Launch) (t : Team) : Launch :=
  if !l.race then l
  else { l with
    ivals := t.threads.foldl (fun m x => sset 0 m (threadKey t.key.teamId x.tid) x.interval) l.ivals
    places := sset 0 l.places t.key.teamId (dieOf t.core) }

/-- The swarm's pair is scrubbed once none of its teams is left on it (R237). -/
def State.scrubPair (s : State) (t : Team) : State :=
  if t.desc.matrix && t.isResident && !(coresOfPair (pairOf t.core)).any fun c => (s.residents c).any fun u => u.desc.matrix then
    s.modPair (pairOf t.core) (·.scrubbed)
  else s

/-- Takes a team out of the machine. -/
def State.removeTeam (s : State) (t : Team) : State :=
  let s := { s with teams := s.teams.filter fun u => u.key != t.key
                    bundles := s.bundles.filter fun b => b.key != t.key
                    board := s.board.filter fun e => e.key != t.key }
  let s := s.modCore t.core fun c =>
    { c with bins := c.bins.filter fun b => b.key != t.key, atoms := c.atoms.filter fun e => e.key != t.key }
  ((s.trimMonitor t.core).scrubPair t).wakeCopies t.core

/-- Performs every store of a launch that waits in a core's FIFO (R54). -/
def State.publishLaunch (s : State) (ctx id : Nat) : State :=
  (s.cores.map (·.1)).foldl (init := s) fun s core =>
    let fifo := (s.core core).fifo
    s.performFifo core ((fifo.zipIdx.filter fun x => x.1.key.launch? == some (ctx, id)).foldl (fun _ x => x.2 + 1) 0)

/-- A grid whose last team has retired completes: its effects are performed, its held reductions applied, its done word
counted, and the tree is one less (R50, R54, R320). The seed's done word is written at the launch's completion. -/
def State.completeGrid (s : State) (l : Launch) (g : Grid) : Option State :=
  let s := (s.publishLaunch l.ctx l.id).applyHeld l.ctx l.id g.id
  let s := s.modLaunch l.ctx l.id fun l => { l.modGrid g.id (fun g => { g with complete := true }) with tree := l.tree - 1 }
  if g.done == 0 || g.id == 0 then some s
  else match s.addDone l.ctx g.done with
    | .error .pageNp => none
    | .error c => some (s.failLaunch l.ctx l.id c 0)
    | .ok s => some s

/-- TEAM_RETIRE. -/
def execTeamRetire (key : TeamKey) (s : State) : Result :=
  .next (match s.team? key, s.launchOf? key with
    | some t, some l =>
      if !s.retires l t then s
      else
        let s1 := if t.isResident then s.flushTeam key else s
        let t := (s1.team? key).getD t
        let s1 := s1.traceTeam t 4
        let s1 := s1.accountRetired t
        let s1 := s1.removeTeam t
        let s1 := s1.modLaunch l.ctx l.id fun l =>
          let l := (l.keepRace t).modGrid t.grid fun g => { g with retired := g.retired + 1 }
          { l with spViol := l.spViol || t.faultMask != 0 }
        match s1.launch? l.ctx l.id with
        | none => s
        | some l1 => match l1.grid? t.grid with
          | none => s
          | some g => if g.retired == g.teams then ((s1.completeGrid l1 g).getD s).wake else s1.wake
    | _, _ => s)

/-! ## The reuse table (R63) -/

/-- Evicts a context's least recently hit entries down to a number. -/
def State.evictReuse (s : State) (ctx quota : Nat) : State :=
  let mine := sortBy (fun a b => a.hit ≤ b.hit) (s.reuse.filter fun r => r.ctx == ctx)
  let out := mine.take (mine.length - quota)
  { s with reuse := s.reuse.filter fun r => !out.contains r }

/-- Makes the entry of a pure launch that ended well; an entry of an equal key is replaced, before the quota is looked at (R63,
R355; log entry 103, DEDUCED). -/
def State.makeReuse (s : State) (l : Launch) (ds : List (List Byte)) : State :=
  let quota := (s.ctx l.ctx).reuseQuota
  if !l.pure || l.dirtyIn || quota == 0 then s
  else
    let top := (s.reuse.map (·.hit)).foldl Nat.max 0
    let s := { s with reuse := s.reuse.filter fun r => !(r.ctx == l.ctx && r.key == l.reuseKey) }
    let s := s.evictReuse l.ctx (quota - 1)
    let pages := l.inPages ++ l.outputs.flatMap fun v => s.sysPages l.ctx v.base v.len
    { s with reuse := s.reuse ++ [Reuse.mk l.ctx l.reuseKey l.outputs ds pages (top + 1)] }

/-! ## Completing a launch (R355) -/

/-- Steps 2 to 5 of R355. A launch whose context was torn down has had its completion record (R41). none: the hive must
first service a page. -/
def State.finishLaunch (s : State) (l : Launch) (e : PktEnd) (reused : Bool) (ds : List (List Byte)) : Option State :=
  match s.packet? l.pkt with
  | none => none
  | some p =>
    let s := if l.completed.isSome then s else s.appendCompletion l e.state e.cause reused ds
    let l := (s.launch? l.ctx l.id).getD l
    let s := if e.state == 1 then s.makeReuse l ds else s
    let s := s.accountPut l.ctx (launchEntry p l s.ticks e.state)
    (s.completePacket p e).map fun s =>
      let s := { s with launches := s.launches.filter fun x => !(x.ctx == l.ctx && x.id == l.id) }
      s.promote l.ctx (s.launches.length + 1)

/-- The launch's last done add, before its status (R54, R394). -/
def State.lastDone (s : State) (l : Launch) : Except Cause State :=
  if l.done == 0 then .ok s else s.addDone l.ctx l.done

/-- The end that the status will report: the signal store is checked first (R394). -/
def State.launchEnd (s : State) (l : Launch) (e : PktEnd) : Option PktEnd :=
  match s.packet? l.pkt with | none => none | some p => s.endOf p e

/-- Completes a launch whose teams have all retired (R219, R355). One with a scratchpad violation, or whose results cannot
be digested, fails (R336). A failing done add or signal store ends the packet and fails no launch (R394; log entry 98,
DEDUCED). -/
def State.completeLaunch (s : State) (l : Launch) : Option State :=
  let s := s.publishLaunch l.ctx l.id
  match s.lastDone l with
  | .error .pageNp => none
  | .error c => s.finishLaunch l (.failed c) false []
  | .ok s =>
    if l.spViol then some (s.failLaunch l.ctx l.id .spViol 0)
    else match s.launchEnd l { state := 1 } with
    | none => none
    | some e =>
      if e.state != 1 then s.finishLaunch l e false []
      else
        let (s, r) := s.hashIntervals l.ctx l.outputs
        match r with
        | .error .pageNp => none
        | .error c => some (s.failLaunch l.ctx l.id c 0)
        | .ok ds => s.finishLaunch l e false ds

/-! ## Ending a failed launch (R336) -/

/-- The teams of a launch. -/
def State.teamsOf (s : State) (l : Launch) : List Team := s.teams.filter fun t => t.key.launch? == some (l.ctx, l.id)

/-- Whether the threads of a failed launch have finished the clauses they were in, and the results that were on their way have
landed, so that an image names them (R88, R164). A word that waits for a stopped copy or stream can wait for ever, and is cut
short. -/
def State.halted (s : State) (l : Launch) : Bool :=
  ((s.teamsOf l).all fun t => t.threads.all fun x => !x.pend.any fun p => p.value.isSome)
  && !s.bundles.any fun b => b.key.launch? == some (l.ctx, l.id)
    && (match b.clause with | some c => c.begun | none => false)
    && !(b.held && (s.moves.any (fun m => m.key == b.key && m.stopped.isSome)
          || (s.pair (pairOf (s.coreOf b.key))).queue.any fun o => o.stopped.isSome))

/-- Steps 2 and 4: what the launch has in flight is discarded, the resources of its teams are freed, and its acknowledged
groups are done with. -/
def State.scrubLaunch (s : State) (l : Launch) : State :=
  let mine (k : TeamKey) : Bool := k.launch? == some (l.ctx, l.id)
  let ts := sortBy (fun a b => a.key.teamId ≤ b.key.teamId) (s.teamsOf l)
  let s := ts.foldl (fun s t => (s.traceTeam t 4).accountTeam t true) (s.payEntries l.ctx l.id fun _ => true)
  let s := (s.groups.filter fun g => g.ctx == l.ctx && g.launch == l.id && g.ack.isSome).foldl (fun s g => s.dropGroup g) s
  let s := { s with moves := s.moves.filter fun m => !mine m.key
                    heldReds := s.heldReds.filter fun h => !(h.ctx == l.ctx && h.launch == l.id) }
  let s := s.dropOps mine
  let s := ts.foldl (fun s t => s.removeTeam t) s
  let s := (s.cores.map (·.1)).foldl (init := s) fun s c => s.modCore c fun c =>
    { c with windows := c.windows.filter fun w => !(w.ctx == l.ctx && w.launch == l.id) }
  (s.dies.map (·.1)).foldl (init := s) fun s d => s.modDie d fun d =>
    { d with waiting := d.waiting.filter fun y => !(y.ctx == l.ctx && y.launch == l.id) }

/-- Ends a failed launch. none: the hive must first service a page. -/
def State.endFailed (s : State) (l : Launch) (c : Cause) : Option State :=
  let s := s.publishLaunch l.ctx l.id
  match s.coreImage l c with
  | none => none
  | some s => (s.scrubLaunch l).finishLaunch l (.failed c) false []

/-- Whether the last team of a launch has retired; and whether its spawn tree has then come to its end (R50, R363). -/
def Launch.retired (l : Launch) : Bool := l.tree == 0 && !l.grids.isEmpty
def Launch.finished (l : Launch) : Bool := l.running && l.retired

/-- LAUNCH_COMPLETE. -/
def execLaunchComplete (ctx launch : Nat) (s : State) : Result :=
  .next (match s.launch? ctx launch with
    | none => s
    | some l => match l.failedCause? with
      | some c => if s.halted l then ((s.endFailed l c).getD s).wake else s
      | none => if l.finished then ((s.completeLaunch l).getD s).wake else s)

/-! ## Reuse (R65) -/

/-- Copies one recorded result to its new place, block by block with descriptors and marks, up to the first failure; what has
been copied stays. -/
def State.copyResult (s : State) (ctx : Nat) (src dst : Interval) : State × Option Cause :=
  if src.base == dst.base then (s, none)
  else (blockParts dst.base dst.len).foldl (init := (s, none)) fun acc x =>
    match acc.2 with
    | some _ => acc
    | none => match acc.1.sysBlock ctx (src.base + (x.1 - dst.base)), acc.1.sysPlace ctx x.1 .write with
      | .ok b, .ok p =>
        if (acc.1.readBlock p).isNone then (acc.1, some .machine)
        else (acc.1.writePart p (p.pa % 64) ((b.bytes.drop (p.pa % 64)).take x.2) b.descr b.poison, none)
      | .error c, _ => (acc.1, some c)
      | _, .error c => (acc.1, some c)

/-- Copies the results of an entry to a launch's outputs. -/
def State.copyResults (s : State) (l : Launch) (r : Reuse) : State × Option Cause :=
  (r.outs.zip l.outputs).foldl (init := (s, none)) fun acc x =>
    match acc.2 with
    | some _ => acc
    | none => acc.1.copyResult l.ctx x.1 x.2

/-- REUSE_COPY_COMPLETE: the copies of a hit, and its retirement; an entry that has gone stale sends the launch on to
placement (R65). -/
def execReuseCopyComplete (p : PktName) (s : State) : Result :=
  .next (match s.packet? p with
    | none => s
    | some p => match s.launch? p.ctx p.launch with
      | none => s
      | some l =>
        if l.stat != LaunchStat.reusing then s
        else match s.reuseHit l with
          | none => s.placeSeed l.ctx l.id
          | some r => match s.copyResults l r with
            | (s1, some .pageNp) => s1
            | (s1, some c) => s1.failLaunch l.ctx l.id c 0
            | (s1, none) =>
              if (s1.reuseHit l).isNone then s1.placeSeed l.ctx l.id
              else match s1.lastDone l with
                | .error .pageNp => s1
                | .error c => (s1.finishLaunch l (.failed c) false []).getD s1
                | .ok s2 => match s2.launchEnd l { state := 2 } with
                  | none => s1
                  | some e => (s2.finishLaunch l e (e.state == 2) (if e.state == 2 then r.digests else [])).getD s1)

end Sys2Proof.Machine
end

