-- ==== Sys2Proof/Machine/Contexts.lean ====
section
/-! DEFINITION. Contexts.lean: enabling, changing and tearing down contexts (R40, R41, R350), grants (R68), TLBSHOOT (R198,
R199), derived regions (R202), page moves (R200) and migration hints (R201). -/

namespace Sys2Proof.Machine

/-! ## Contexts (R40, R41). Every CTXCFG write is ignored until DONE (R383). -/

/-- Contexts of the package. -/
def ctxCount : Nat := 64

/-- The quota fields of a CTXCFG write. -/
def cfgIv (v : W64) : Nat := (v.extractLsb' 48 11).toNat
def cfgReuse (v : W64) : Nat := (v.extractLsb' 31 17).toNat
def cfgAsid (v : W64) : Nat := (v.extractLsb' 0 16).toNat

/-- Enabled contexts other than one. -/
def State.othersEnabled (s : State) (ctx : Nat) : List Ctx := (s.ctxs.filter fun c => c.1 != ctx && c.2.en).map (·.2)

/-- Whether quotas pass the tests of R40. -/
def State.quotasOk (s : State) (ctx : Nat) (v : W64) : Bool :=
  16 ≤ cfgIv v && cfgIv v ≤ 1024 && cfgIv v + ((s.othersEnabled ctx).map (·.ivQuota)).sum ≤ 1024
    && cfgReuse v + ((s.othersEnabled ctx).map (·.reuseQuota)).sum ≤ 65536

/-- CTX_ENABLE: a CTXCFG write that sets EN of a disabled context; its chain and counts start anew (R40, R357). -/
def execCtxEnable (ctx : Nat) (v : W64) (s : State) : Result :=
  .next (if !s.boot.done || ctxCount ≤ ctx || (s.ctx ctx).en || !v.getLsbD 63 || !s.quotasOk ctx v
      || (s.othersEnabled ctx).any (fun c => c.asid == cfgAsid v) then s
    else s.modCtx ctx fun c =>
      { c with en := true, ivQuota := cfgIv v, reuseQuota := cfgReuse v, asid := cfgAsid v, chain := List.replicate 32 0,
               launches := 0, completions := 0, unsealed := [], frozen := false, enabledAt := s.ticks })

/-- CTX_QUOTA_CHANGE: a CTXCFG write that leaves an enabled context enabled (R40, R55, R63). -/
def execCtxQuotaChange (ctx : Nat) (v : W64) (s : State) : Result :=
  .next (if !s.boot.done || ctxCount ≤ ctx || !(s.ctx ctx).en || !v.getLsbD 63 || !s.quotasOk ctx v then s
    else
      let s := s.modCtx ctx fun c => { c with ivQuota := cfgIv v, reuseQuota := cfgReuse v }
      ((s.evictReuse ctx (cfgReuse v)).promote ctx (s.launches.length + 1)).wake)

/-- Zeroes the flow-state tables and tags of a context (R41, R311). -/
def State.zeroFlows (s : State) (ctx : Nat) : State :=
  (s.regions.filter fun r => r.ctx == ctx).foldl (init := s) fun s r =>
    (List.range r.flows).foldl (init := s) fun s i =>
      let e := r.place.add (16 * i)
      let n := s.natAt (e.add 4) 4
      let tags := (r.place.add (s.natAt (e.add 8) 8)).add (128 * n)
      let s := (List.range n).foldl (fun s b => s.writeBytes (tags.add (8 * b)) (List.replicate 8 0)) s
      s.writeBytes e (List.replicate 16 0)

/-- Ends a context's packets that no launch completes: with STATE 4 and CAUSE 0xF0. -/
def State.endPackets (s : State) (ctx : Nat) : State :=
  (s.packets.filter fun p => p.ctx == ctx && p.open && p.launch == 0).foldl (init := s) fun s p =>
    s.endPacket p (.failed .machine)

/-- Takes a context down: R41, or R350 where it fails. Its launches are halted, and LAUNCH_COMPLETE ends their packets;
their completion records are appended before the chain freezes. -/
def State.teardown (s : State) (ctx : Nat) : State :=
  let s := (s.modCtx ctx fun c => { c with en := false }).endPackets ctx
  let mine := s.launches.filter fun l => l.ctx == ctx && l.completed.isNone
  let s := mine.foldl (init := s) fun s l =>
    (s.failLaunch ctx l.id .machine 0).appendCompletion l 4 ((l.failedCause?.getD .machine).code) false []
  let s := { s with reuse := s.reuse.filter fun r => r.ctx != ctx
                    segments := s.segments.filter fun g => g.ctx != ctx
                    seqNums := s.seqNums.filter fun q => q.ctx != ctx
                    pods := s.pods.filter fun p => p.ctx != ctx
                    collMsgs := s.collMsgs.filter fun m => m.ctx != ctx }
  let s := s.zeroFlows ctx
  (s.modCtx ctx fun c => { c with frozen := true, cores := 0, colls := [] }).wake

/-- CTX_TEARDOWN: a CTXCFG write that clears EN; ASID changes only where EN read 0 (R40, R41). -/
def execCtxTeardown (ctx : Nat) (v : W64) (s : State) : Result :=
  .next (if !s.boot.done || ctxCount ≤ ctx || v.getLsbD 63 then s
    else if (s.ctx ctx).en then
      (s.teardown ctx).modCtx ctx fun c => { c with ivQuota := cfgIv v, reuseQuota := cfgReuse v }
    else s.modCtx ctx fun c => { c with ivQuota := cfgIv v, reuseQuota := cfgReuse v, asid := cfgAsid v })

/-! ## Grants (R68) -/

/-- Whether another context has a core, by its grant or by a team still on it. -/
def State.coreTaken (s : State) (ctx core : Nat) : Bool :=
  (s.ctxs.any fun c => c.1 != ctx && c.2.cores.getLsbD core) || (s.residents core).any fun t => t.key.ctx? != some ctx


/-- CTXCORE_WRITE: ignored whole where it would grant a core that another context has (R68); a launch with a waiting swarm that
is left without any window fails (R77). -/
def execCtxcoreWrite (ctx word : Nat) (v : W64) (s : State) : Result :=
  .next (if ctxCount ≤ ctx || 5 ≤ word || (List.range 64).any (fun i => v.getLsbD i && s.coreTaken ctx (64 * word + i)) then s
    else
      let old := (s.ctx ctx).cores
      let gone := ((List.range 64).filter fun i => old.getLsbD (64 * word + i) && !v.getLsbD i).map (64 * word + ·)
      let part : BitVec 320 := BitVec.ofNat 320 (v.toNat * 2 ^ (64 * word))
      let mask : BitVec 320 := BitVec.ofNat 320 ((2 ^ 64 - 1) * 2 ^ (64 * word))
      let s := s.modCtx ctx fun c => { c with cores := (c.cores &&& ~~~mask) ||| part }
      let s := s.loseCores fun l => if l.ctx == ctx then gone else []
      (s.failStuck ctx).wake)

/-! ## TLBSHOOT (R198, R199) -/

/-- What an invalidation of the register asks for. -/
def shootInval (v : W64) : Option Inval :=
  match (v.extractLsb' 61 2).toNat with
  | 0 => some (.page (cfgAsid v) (v.extractLsb' 16 40).toNat)
  | 1 => some (.asid (cfgAsid v))
  | 2 => some .all
  | _ => none

/-- An invalidation reaches every core, and the saved teams too. -/
def State.invalidateAll (s : State) (i : Inval) : State :=
  (List.range coreCount).foldl (fun s c => s.invalidate c i) s

/-- The fields of TLBSHOOT that software sets (R10, R198). -/
def shootFields (v : W64) : W64 := v &&& 0x60FFFFFFFFFFFFFF

/-- A write of TLBSHOOT of one kind. -/
def State.tlbshoot (s : State) (v : W64) (kind : Nat) : State :=
  if s.shootBusy then s
  else match shootInval v with
    | none => s
    | some i =>
      if (v.extractLsb' 61 2).toNat != kind then s
      else if !v.getLsbD 63 then { s with shoot := shootFields v }
      else ({ s with shoot := shootFields v, shootBusy := true }).invalidateAll i

/-- TLBSHOOT_PAGE. -/
def execTlbshootPage (v : W64) (s : State) : Result := .next (s.tlbshoot v 0)
/-- TLBSHOOT_ASID. -/
def execTlbshootAsid (v : W64) (s : State) : Result := .next (s.tlbshoot v 1)
/-- TLBSHOOT_ALL. -/
def execTlbshootAll (v : W64) (s : State) : Result := .next (s.tlbshoot v 2)

/-- Whether an access of a context that was translated earlier is still to be performed: a store, a buffered atomic, a
segment's block, a reduction that is held until its grid has retired (R320). -/
def State.oldAccesses (s : State) (asid : Option Nat) : Bool :=
  let hit (ctx : Nat) : Bool := match asid with | some a => (s.ctx ctx).asid == a | none => true
  (s.cores.any fun c => (c.2.fifo.any fun e => hit e.key.ctxId) || c.2.atoms.any fun e => hit e.key.ctxId)
    || (s.segments.any fun g => hit g.ctx) || s.heldReds.any fun h => hit h.ctx

/-- TLBSHOOT_DONE: GO clears once every access that used an old translation has been performed (R199). -/
def execTlbshootDone (s : State) : Result :=
  .next (if s.shootBusy && !s.oldAccesses (if (s.shoot.extractLsb' 61 2).toNat == 2 then none else some (cfgAsid s.shoot)) then
      { s with shootBusy := false }
    else s)

/-! ## Derived regions (R202) -/

/-- Descriptors of the table. -/
def derivedCount : Nat := 256

/-- Whether a descriptor passes the front end's check. -/
def State.derivedOk (s : State) (i : Nat) (d : Derived) : Bool :=
  let w := d.window.toNat
  let n := d.length.toNat
  let apart (x : Nat × Derived) : Bool :=
    x.1 == i || !x.2.v || w + n ≤ x.2.window.toNat || x.2.window.toNat + x.2.length.toNat ≤ w
  w % 65536 == 0 && n % 65536 == 0 && 65536 ≤ n && inWindows w && w + n ≤ windowBase + 8 * portSpan && d.port.toNat < 8
    && d.base.toNat % 65536 == 0 && d.index.toNat % 16 == 0 && d.stream.toNat % 8 == 0
    && s.inPort d.port.toNat d.base.toNat n && s.inPort d.port.toNat d.index.toNat d.indexBytes
    && s.inPort d.port.toNat d.stream.toNat d.bytes.toNat && s.derived.all apart

/-- A window that becomes valid is as good as written: digests and reuse entries of its pages go (log entry 26, DEDUCED). -/
def State.touchWindow (s : State) (d : Derived) : State :=
  let hit (p : Nat) : Bool := within d.window.toNat d.length.toNat (p * 65536)
  { s with digests := s.digests.filter fun x => !hit x.1, reuse := s.reuse.filter fun r => !r.pages.any hit }

/-- DERIVED_REGION_VALIDATE: a write of the flags' word that holds V = 1; a reserved bit that is not zero breaks its limit.
Nothing clears ERR (R202; log entry 57, DESIGN CHOICE). -/
def execDerivedRegionValidate (i : Nat) (v : W64) (s : State) : Result :=
  .next (if derivedCount ≤ i || !v.getLsbD 24 || (s.derivedAt i).v then s
    else
      let d := { s.derivedAt i with asid := v.extractLsb' 0 16, port := v.extractLsb' 16 8 }
      if v.extractLsb' 26 38 == 0 && s.derivedOk i d then (s.modDerived i fun _ => { d with v := true }).touchWindow d
      else s.modDerived i fun _ => { d with err := true })

/-- DERIVED_REGION_INVALIDATE: a write of the flags' word that holds V = 0. -/
def execDerivedRegionInvalidate (i : Nat) (v : W64) (s : State) : Result :=
  .next (if derivedCount ≤ i || v.getLsbD 24 then s
    else s.modDerived i fun d =>
      if d.v then { d with v := false } else { d with asid := v.extractLsb' 0 16, port := v.extractLsb' 16 8 })

/-! ## Page moves (R200) -/

/-- The address of the entry that maps a 64 KiB page, and the entry. -/
def State.leafFrom (s : State) (va table : Nat) : Nat → Option (Nat × Nat)
  | 0 => none
  | lv + 1 =>
    let pa := table + 8 * (va / (65536 * 1024 ^ lv) % 1024)
    if !s.populated pa || inWindows pa then none
    else
      let e := s.storedNat pa 8
      if bitAt e 5 || lv == 0 then (if lv == 0 && bitAt e 5 && !bitAt e 7 then some (pa, e) else none)
      else if bitAt e 0 then s.leafFrom va (e / 8192 % 2 ^ 39 * 8192) lv
      else none

/-- A physical address after a page has moved. -/
def movedPa (old new pa : Nat) : Nat := if pageOf pa == pageOf old then new + pa % 65536 else pa
def Place.moved (p : Place) (old new : Nat) : Place :=
  match p with | .here pa => .here (movedPa old new pa) | .peer c pa => .peer c pa
/-- A page number after a page has moved. -/
def movedPage (old new p : Nat) : Nat := if p == pageOf old then pageOf new else p

/-- Copies a page's data, descriptors and marks, of a derived page those that the expander delivers; a move is no write (R64,
R200, R208). -/
def State.copyPage (s : State) (old new : Nat) : State :=
  (List.range 1024).foldl (init := s) fun s i =>
    let b := (s.readBlock (.here (old + 64 * i))).getD (s.storedBlock (old + 64 * i))
    let pa := new + 64 * i
    { s with mem := ssetMany 0 s.mem pa b.bytes, descs := sset plainDescr s.descs (pa / 64) b.descr
             poison := setMark s.poison (pa / 64) b.poison }

/-- Everything that names the page by its physical address names the new one, and what tracks a window's page goes on tracking
it too; the L1 lines and the cached code of both pages go, since the copy changes what they hold (R107). -/
def State.rekeyPage (s : State) (old new : Nat) : State :=
  let pg (p : Nat) : List Nat := if p == pageOf old && inWindows old then [p, pageOf new] else [movedPage old new p]
  let line (x : Nat × Block) : Bool := x.1 / 1024 != pageOf old && x.1 / 1024 != pageOf new
  let code (l : CodeLine) : Bool := l.place.pageKey != pageOf old && l.place.pageKey != pageOf new
  let digest := (s.digests.find? fun x => x.1 == pageOf old).map (·.2)
  let s := { s with digests := s.digests.filter fun x => x.1 != pageOf old && x.1 != pageOf new }
  let s := match digest with | some d => s.putDigest (pageOf new) d | none => s
  let s' : State := { s with
    icache := s.icache.filter code
    reuse := s.reuse.map fun r => { r with pages := r.pages.flatMap pg }
    launches := s.launches.map fun l => { l with inPages := l.inPages.flatMap pg, codePages := l.codePages.flatMap pg }
    heldReds := s.heldReds.map fun h => { h with parts := h.parts.map fun p => (p.1.moved old new, p.2) }
    segments := s.segments.map fun g => { g with blocks := g.blocks.map fun b =>
      { b with parts := b.parts.map fun p => (p.1.moved old new, p.2) } } }
  (s.cores.map (·.1)).foldl (init := s') fun s n => s.modCore n fun c => { c with
    l1 := c.l1.filter line
    atoms := c.atoms.map fun e => { e with op := { e.op with place := e.op.place.moved old new } } }

/-- PAGE_MIGRATE: the hive moves a 64 KiB page of a context to another place (R200). Stores translated earlier are
performed first (R199). -/
def execPageMigrate (ctx va newPa : Nat) (s : State) : Result :=
  .next (match s.leafFrom va (s.ctx ctx).root 4 with
    | none => s
    | some (at0, e) =>
      let old := e / 65536 % 2 ^ 36 * 65536
      if newPa % 65536 != 0 || !s.populated newPa || inWindows newPa || (s.readBlock (.here old)).isNone || old == newPa
          || s.regions.any fun r => (match r.place with | .here pa => within pa r.size old || within old 65536 pa | .peer _ _ => false) then s
      else
        let s := (s.cores.map (·.1)).foldl (fun s c => s.performFifo c (s.core c).fifo.length) s
        let s := s.writeBytes (.here at0) (bytesOfNat 8 (e / 2 * 2))
        let s := s.invalidateAll (.page (s.ctx ctx).asid (va / 65536))
        let s := (s.copyPage old newPa).rekeyPage old newPa
        (s.writeBytes (.here at0) (bytesOfNat 8 (e % 65536 + newPa + e / 2 ^ 52 * 2 ^ 52 + (1 - e % 2)))).wake)

/-! ## Hints (R201) -/

/-- HINT_DRAIN: the hive takes the oldest hint; the move itself is PAGE_MIGRATE. -/
def execHintDrain (s : State) : Result :=
  .next (if s.hintHead % hintSlots == s.hintTail % hintSlots then s else { s with hintHead := (s.hintHead + 1) % hintSlots })

end Sys2Proof.Machine
end

