-- ==== Sys2Proof/Machine/Control.lean ====
section
/-! DEFINITION. Control.lean: the control instructions (R119 to R127). -/

namespace Sys2Proof.Machine

/-- NOP: its issue cycle and its stall count, in a clause of any class (R127). -/
def execNop (c : Ctl) (s : State) : Result :=
  issue { c := c, cls := none, reads := [], writes := [] } (fun s _ _ => (s, .nothing)) s

/-- Whether a target lies in the code of the launch as it stands, or in the protected region of a walker-slot thread
(R109, R120, R196). -/
def State.inCode (s : State) (k : TeamKey) (target : Nat) : Bool :=
  match k with
  | .user c l _ => match s.launch? c l with
    | some x => x.ranges.any fun r => within r.base r.len target
    | none => false
  | .walker core slot => match (s.core core).walks.find? fun w => w.slot == slot with
    | some w => within w.region (w.pages * 65536) target
    | none => false

/-- A branch, call or return of one thread: its target is checked, then becomes the next PC, and a call's return address
takes the delayed-write window (R120). -/
def branchAct (s : State) (site : Site) (t : Thread) (target : Nat) (link : Option (Dest × W64 × Nat)) : Act :=
  if target % 8 != 0 then .trap (Trap.at t.tid .align 2 target)
  else if target ≥ 2 ^ 56 || !s.inCode site.key target then .trap (Trap.at t.tid .pageProt 2 target)
  else .done { jump := some target, write := link }

/-- The target of a direct branch, in units of 8 bytes from the clause header (R87, R120). -/
def directTarget (hdr : Nat) (off : BitVec 26) : Nat := (BitVec.ofNat 64 hdr + 8 * off.signExtend 64).toNat

/-- A word of the branch group. -/
def branchWord (c : Ctl) (reads writes : List Nat) : OpWord :=
  { c := c, cls := some 4, reads := reads, writes := writes, branch := true }

/-- BRA (R120). -/
def execBra (c : Ctl) (off : BitVec 26) (s : State) : Result :=
  issue (branchWord c [] []) (fun s site t => (s, branchAct s site t (directTarget site.cl.hdr off) none)) s

/-- BRX (R120). -/
def execBrx (c : Ctl) (a : Reg) (s : State) : Result :=
  issue (branchWord c (pairSlots a) []) (fun s site t => (s, branchAct s site t (t.pair a.toNat).toNat none)) s

/-- CALL: the pair takes the address of the next clause, with latency 4 (R120, R121). -/
def execCall (c : Ctl) (d : Reg) (off : BitVec 26) (s : State) : Result :=
  issue (branchWord c [] (pairSlots d)) (fun s site t =>
    (s, branchAct s site t (directTarget site.cl.hdr off)
      (some (.pair d.toNat, BitVec.ofNat 64 (site.cl.hdr + 8 + 8 * site.cl.words.length), 4)))) s

/-- RET (R120). -/
def execRet (c : Ctl) (a : Reg) (s : State) : Result :=
  issue (branchWord c (pairSlots a) []) (fun s site t => (s, branchAct s site t (t.pair a.toNat).toNat none)) s

/-- EXIT: the thread ends (R122). -/
def execExit (c : Ctl) (s : State) : Result :=
  issue (branchWord c [] []) (fun s _ _ => (s, .done { exits := true })) s

/-- A word of the regroup group, and what it asks of the clause's end. -/
def regroupWith (c : Ctl) (f : Site → Clause → Clause) (s : State) : Result :=
  issueWith { c := c, cls := some 4, reads := [], writes := [], regroup := true } (fun _ _ _ => false) f {}
    (fun _ _ => none) (fun s _ _ => (s, .nothing)) s

/-- REFORM: the threads it acts on are filed into regroup bins at the clause's end (R123). -/
def execReform (c : Ctl) (s : State) : Result :=
  regroupWith c (fun site cl => { cl with reform := site.on.map (·.tid) }) s

/-- REJOIN: every thread meets its row at the next clause, whatever its predicate (R124). -/
def execRejoin (c : Ctl) (s : State) : Result := regroupWith c (fun _ cl => { cl with rejoin := true }) s

/-- YIELD: the bundle is stamped anew at the clause's end (R126), as every clause's end stamps it (R116). -/
def execYield (c : Ctl) (s : State) : Result := regroupWith c (fun _ cl => cl) s

end Sys2Proof.Machine
end

