-- ==== Sys2Proof/Machine/Segment.lean ====
section
/-! DEFINITION. Segment.lean: segments as they arrive: checks, application, NAK and REFRESH (R304, R307 to R313, R327). -/

namespace Sys2Proof.Machine

/-! ## The segment that arrives -/

/-- The step in which a peer's block of a collective is due: the first in which the member is to get it and has not. -/
def Packet.dueStep (p : Packet) (c : Coll) (src blk : Nat) : Option Nat :=
  (List.range c.steps).find? fun s =>
    ((p.shape c.record).gets s p.me).contains (src, blk) && !c.got.contains (s, src, blk)

/-- A segment on the wire as flits (R308): the header flit, and the payload from bit 0 of the next one on, its tail zero. -/
def SegKind.code (k : SegKind) : Nat := match k with | .data => 1 | .nak => 2 | .refresh => 3
def Segment.header (g : Segment) : List Byte :=
  let flags := match g.kind with
    | .nak => if g.crcErr then 2 else 4
    | .data => if g.first then 1 else 0
    | .refresh => if g.first then 1 else 0
  bytesOfNat 1 g.kind.code ++ bytesOfNat 1 flags ++ bytesOfNat 2 g.key ++ bytesOfNat 2 g.gen ++ bytesOfNat 2 g.src ++
    bytesOfNat 2 g.dst ++ bytesOfNat 2 g.asid ++ bytesOfNat 4 g.index ++ bytesOfNat 1 g.blocks.length ++ bytesOfNat 1 g.last ++
    bytesOfNat 2 g.bits ++ bytesOfNat 4 g.crc.toNat ++ bytesOfNat 4 g.seq ++ bytesOfNat 1 g.reduce ++ List.replicate 3 0
/-- Payload flits of a segment: a NAK has none. -/
def Segment.payloadFlits (g : Segment) : Nat := match g.kind with | .nak => 0 | .data => (g.bits + 255) / 256 | .refresh => (g.bits + 255) / 256
def Segment.flits (g : Segment) : List (List Byte) :=
  g.header :: (List.range g.payloadFlits).map fun i => bytesOfNat 32 (bitField g.payload (256 * i) 256)

/-- A segment that a peer package sends for a collective, from its header flit: a DATA or a REFRESH of the context's ASID
(R308). -/
def State.peerSegment (s : State) (n : PktName) (h : List Byte) (payload : Nat) : Option Segment :=
  (s.coll? n).bind fun x =>
    let p := x.1
    let c := x.2
    let l := collLayout c.record
    let first := fieldAt h 0x0C 4
    let blks := (List.range (fieldAt h 0x10 1)).map fun i =>
      (List.range l.blocks).find? fun b => l.flowIndex (l.block originCoords b) == first + i
    let src := (List.range p.members).find? fun i => p.rank i == fieldAt h 6 2
    match src with
    | none => none
    | some src =>
      if s.isOurs (p.rank src) || fieldAt h 8 2 != p.rank p.me || fieldAt h 0x0A 2 != (s.ctx p.ctx).asid
          || !(fieldAt h 0 1 == 1 || fieldAt h 0 1 == 3) || blks.any (·.isNone) then none
      else (p.dueStep c src ((blks.headD none).getD 0)).map fun step =>
        { id := s.nextSegment, kind := if fieldAt h 0 1 == 3 then .refresh else .data, ctx := p.ctx, asid := fieldAt h 0x0A 2,
          key := fieldAt h 2 2,
          gen := fieldAt h 4 2, first := fieldAt h 1 1 % 2 == 1, src := fieldAt h 6 2, dst := fieldAt h 8 2, index := first,
          last := fieldAt h 0x11 1, payload := payload, bits := fieldAt h 0x12 2, crc := BitVec.ofNat 32 (fieldAt h 0x14 4),
          seq := fieldAt h 0x18 4, reduce := fieldAt h 0x1C 1, crcErr := false, move := none,
          coll := some { pkt := p.name, step := step, dest := p.me }, single := false,
          blocks := (blks.filterMap id).map fun b => { code := b, parts := [], data := noPrediction }, fails := 0 }

/-- The segment that a name stands for. -/
def State.segment? (s : State) (n : SegName) : Option Segment :=
  match n with
  | .sent id => s.segments.find? fun g => g.id == id
  | .peer p h v => s.peerSegment p h v

/-- Whether the segment is one that a peer package sent. -/
def fromPeer (n : SegName) : Bool := match n with | .sent _ => false | .peer _ _ _ => true

/-! ## Order (R312, R327) -/

/-- Whether a count belongs to a segment. -/
def SeqNum.isOf (q : SeqNum) (g : Segment) : Bool := q.ctx == g.ctx && q.key == g.key && q.src == g.src && q.dst == g.dst
/-- The sequence number that the receiver applies next. -/
def State.nextSeqOf (s : State) (g : Segment) : Nat := match s.seqNums.find? (·.isOf g) with | some q => q.recv | none => 0
/-- The segment has been applied. -/
def State.advanceSeq (s : State) (g : Segment) : State :=
  if s.seqNums.any (·.isOf g) then
    { s with seqNums := modWhere (·.isOf g) (fun q => { q with recv := (q.recv + 1) % 2 ^ 32 }) s.seqNums }
  else { s with seqNums := s.seqNums ++ [{ ctx := g.ctx, key := g.key, src := g.src, dst := g.dst, send := 0, recv := 1 }] }

/-! ## Checks (R304, R307, R309) -/

/-- The receiver's prediction of a block; none where the block lags. -/
def State.recvPrediction (s : State) (g : Segment) (f : Option Flow) (b : Nat) : Option Block :=
  match f with
  | none => some noPrediction
  | some f =>
    if g.first then some noPrediction
    else if s.natAt ((f.tag b).add 2) 2 == g.gen && s.natAt ((f.tag b).add 4) 2 == sourceTag g.src then
      some (s.lineAt (f.line true b))
    else none

/-- Bits of a payload inverted on the way. -/
def flipBits (v : Nat) (flips : List Nat) : Nat := flips.foldl (fun v i => v ^^^ 2 ^ i) v

/-- The block coded at a position, with n elements present, 0 for a whole one, and the position after it. -/
def decodeOne (v pos lim n : Nat) (pred : Block) : Option (Block × Nat) :=
  let descr := if bitField v pos 1 == 1 then BitVec.ofNat 16 (bitField v (pos + 1) 16) else pred.descr
  let bytes := if n == 0 then 64 else n * furrowWidth (fmtOf descr) / 8
  if 64 < bytes then none
  else match decodeBlock v pos lim pred.bytes pred.descr bytes false with
    | .block bs d p => some ({ bytes := bs, descr := d, poison := none }, p)
    | .past => none
    | .reserved => none
    | .mode3 => none

/-- The blocks of a payload; none under R304. -/
def decodeAll (v lim last : Nat) : List Block → Nat → Option (List Block)
  | [], pos => if pos == lim then some [] else none
  | p :: ps, pos =>
    match decodeOne v pos lim (if ps.isEmpty then last else 0) p with
    | none => none
    | some (b, pos) => (decodeAll v lim last ps pos).map fun bs => b :: bs

/-- What a receiver finds. -/
inductive Checked
  | lags
  | bad
  | pass (blocks : List Block)
deriving DecidableEq, Repr

/-- The two stages of R309. -/
def State.checkSegment (s : State) (g : Segment) (flips : List Nat) : Checked :=
  let f := s.flow? g.ctx g.dst g.key
  let preds := (List.range g.blocks.length).map fun i => s.recvPrediction g f (g.index + i)
  if preds.any (·.isNone) then .lags
  else match decodeAll (flipBits g.payload flips) g.bits g.last (preds.filterMap id) 0 with
    | none => .bad
    | some bs => if blocksCrc bs == g.crc then .pass bs else .bad

/-! ## Application (R307, R318, R324) -/

/-- The receiver's predictions become what was sent. -/
def State.updateRecv (s : State) (g : Segment) (bs : List Block) : State :=
  match s.flow? g.ctx g.dst g.key with
  | none => s
  | some f => bs.zipIdx.foldl (init := s) fun s x =>
    let b := g.index + x.2
    ((s.recordLine (f.line true b) x.1).put16 ((f.tag b).add 2) g.gen).put16 ((f.tag b).add 4) (sourceTag g.src)

/-- A block of a transfer is performed at its rank. -/
def State.landMove (s : State) (m : Move) (src : Coord) (code : Nat) (parts : List (Place × Nat)) (b : Block) : State :=
  let t := m.block code
  let s := if m.kind.inbound then s.modTeam m.key fun u => u.landBlock m.lay (m.off + t.off) t b
    else s.putRank m src parts t b
  s.modMove m.id fun m => { m with left := m.left.filter (· != code) }

/-- The collective member that a segment comes from, and the member it goes to. -/
def State.collEnds (s : State) (g : Segment) (r : CollRef) (peer : Bool) : Option (Packet × Nat × Option Packet) :=
  (s.coll? r.pkt).bind fun x =>
    let p := x.1
    if peer then ((List.range p.members).find? fun i => p.rank i == g.src).map fun j => (p, j, some p)
    else some (p, p.me, s.collPeer? p.ctx p.rankBytes x.2.number r.dest)

/-- A collective block's parts of this package's memory where a peer sent it. -/
def State.peerParts (s : State) (p : Packet) (code : Nat) : Except Cause (List (Place × Nat)) :=
  match p.coll with
  | none => .ok []
  | some c =>
    let l := collLayout c.record
    let b := l.block originCoords code
    s.placesOf p.ctx b.va (l.memBytes b) .write

/-- A block of a collective's step is performed. none: the hive must first service a page. -/
def State.landColl (s : State) (g : Segment) (r : CollRef) (peer : Bool) (x : SegBlock) (b : Block) : Option State :=
  match s.collEnds g r peer with
  | none => some s
  | some (sender, j, rcv) => match rcv with
    | none => some (if s.isOurs g.dst then s else s.collLandPeer sender r.step x.parts g.reduce b)
    | some q =>
      if !peer then some (s.collLand q r.step j x.code x.parts g.reduce b)
      else match s.peerParts q x.code with
        | .error .pageNp => none
        | .error e => some (s.endPacket q (.failed e))
        | .ok ps => some (s.collLand q r.step j x.code ps g.reduce b)

/-- A segment that passed is applied. none: the hive must first service a page. -/
def State.applySegment (s : State) (g : Segment) (peer : Bool) (bs : List Block) : Option State :=
  let s := s.updateRecv g bs
  let xs := g.blocks.zip bs
  let done : Option State := match g.move, g.coll with
    | some id, _ => match s.move? id with
      | none => some s
      | some m => some (xs.foldl (fun s x => s.landMove m g.src x.1.code x.1.parts { x.2 with poison := x.1.data.poison }) s)
    | none, some r =>
      xs.foldl (init := some s) fun s x => s.bind fun s => s.landColl g r peer x.1 { x.2 with poison := x.1.data.poison }
    | none, none => some s
  done.map fun s => ({ s with segments := s.segments.filter fun x => x.id != g.id }).advanceSeq g

/-- Adds one to a count of the receiving die's FLOWSTAT (R314). -/
def State.countFlow (s : State) (g : Segment) (desync : Bool) : State :=
  if !s.isOurs g.dst then s
  else s.modFlow (coordDie g.dst) fun e =>
    if desync then (e.1, e.2.1, satAdd 0xFFFFFF e.2.2 1) else (e.1, satAdd 0xFFFFFF e.2.1 1, e.2.2)

/-- Step 2b at the receiver: no tag of the key is valid, and the failure is counted. -/
def State.failCrc (s : State) (g : Segment) : State :=
  let s := s.countFlow g true
  match s.flow? g.ctx g.dst g.key with | some f => s.clearTags f | none => s

/-- A segment goes back as a NAK, with the other header fields of the segment it answers (R308; log entry 137, DESIGN CHOICE). -/
def State.nakSegment (s : State) (g : Segment) (crc : Bool) : State :=
  let f (x : Segment) : Segment := { x with kind := .nak, crcErr := crc, fails := if crc then x.fails + 1 else x.fails }
  { s with segments := modWhere (fun x => x.id == g.id) f s.segments }

/-- Whether a segment may be applied now: its turn has come, and a pull holds its landing permit (R233, R312). -/
def State.segmentReady (s : State) (g : Segment) : Bool :=
  g.seq == s.nextSeqOf g
    && (match g.move with | some id => (match s.move? id with | some m => s.permitted m | none => true) | none => true)

/-! ## Events -/

/-- SEGMENT_DATA_RECEIVE: flips names the payload bits that were inverted on the way (R309). -/
def execSegmentDataReceive (seg : SegName) (flips : List Nat) (s : State) : Result :=
  .next (match s.segment? seg with
    | none => s
    | some g =>
      if g.kind != SegKind.data || !s.segmentReady g then s
      else match s.checkSegment g flips with
        | .lags => s.nakSegment g false
        | .bad => (s.failCrc g).nakSegment g true
        | .pass bs => (s.applySegment g (fromPeer seg) bs).getD s)

/-- Failures in a row that fail the context (R310). -/
def maxFails : Nat := 8

/-- SEGMENT_NAK_RECEIVE: the sender answers with a REFRESH, its blocks raw against zero under the G in force (R310). -/
def execSegmentNakReceive (nak : Nat) (s : State) : Result :=
  .next (match s.segments.find? fun g => g.id == nak with
    | none => s
    | some g =>
      if g.kind != SegKind.nak then s
      else if maxFails ≤ g.fails then s.teardown g.ctx
      else
        let f := s.flow? g.ctx g.src g.key
        let s := match f with
          | some f => if g.crcErr && g.single then s.bumpGen g.ctx f g.key else s
          | none => s
        let gen := match f with | some f => s.genOf f | none => 0
        let s := match f with
          | some f => (List.range g.blocks.length).foldl (fun (s : State) i => s.put16 (f.tag (g.index + i)) gen) s
          | none => s
        let str := codeBlocks (g.blocks.map fun b => (b.data, noPrediction)) true
        let h (x : Segment) : Segment := { x with kind := .refresh, gen := gen, first := true, payload := str.bits, bits := str.len }
        { s with segments := modWhere (fun x => x.id == nak) h s.segments })

/-- SEGMENT_REFRESH_RECEIVE: the repaired segment is applied, and the REFRESH counted; one that fails its CRC repeats the
exchange (R310). -/
def execSegmentRefreshReceive (seg : SegName) (flips : List Nat) (s : State) : Result :=
  .next (match s.segment? seg with
    | none => s
    | some g =>
      if g.kind != SegKind.refresh || !s.segmentReady g then s
      else match s.checkSegment g flips with
        | .lags => s.nakSegment g false
        | .bad => (s.failCrc g).nakSegment g true
        | .pass bs => ((s.applySegment g (fromPeer seg) bs).map fun s => s.countFlow g false).getD s)

/-- FLIT_REPLAY: the link layer repairs a flit by itself; no state changes (R309). -/
def execFlitReplay (seg : Nat) (s : State) : Result := .next (if s.segments.any fun g => g.id == seg then s else s)

end Sys2Proof.Machine
end

