-- ==== Sys2Proof/Machine/Debug.lean ====
section
/-! DEFINITION. Debug.lean: the debugger's commands: attach, detach, stop, resume and step (R374 to R376). -/

namespace Sys2Proof.Machine

/-- The teams of a launch, by its name. -/
def State.launchTeams (s : State) (ctx launch : Nat) : List Team := s.teams.filter fun t => t.key.launch? == some (ctx, launch)

/-- Whether a thread stands stopped. -/
def Thread.isStopped (x : Thread) : Bool := match x.stat with | .stopped => true | _ => false

/-- The stopped threads of a team. -/
def Team.stoppedTids (t : Team) : List Nat := (t.threads.filter (·.isStopped)).map (·.tid)

/-- Stopped threads of a team go on: on its core as bundles, of a saved team once it is restored. single says that they stop
again after one word (R375, R376). -/
def State.goOn (s : State) (k : TeamKey) (tids : List Nat) (single : Bool) : State :=
  match s.team? k with
  | none => s
  | some t =>
    let s := tids.foldl (fun s i => s.modThread k i fun x => { x with stopNext := single }) s
    if t.isResident then s.regroup k tids false single
    else tids.foldl (fun s i => s.modThread k i fun x => { x with stat := .running }) s

/-- Every stopped thread of a launch goes on, and none is to stop any more; the records of its stops are done with. -/
def State.resumeLaunch (s : State) (ctx launch : Nat) : State :=
  let ts := s.launchTeams ctx launch
  let s := ts.foldl (init := s) fun s t =>
    let s := s.modTeam t.key fun t => { t with threads := t.threads.map fun x => { x with stopNext := false } }
    (s.goOn t.key t.stoppedTids false).settle t.key
  let s := s.modLaunch ctx launch fun l => { l with stopped := false }
  let s := { s with bundles := modWhere (fun b => b.key.launch? == some (ctx, launch)) (fun b => { b with single := false }) s.bundles }
  let isStop (g : Group) : Bool :=
    g.ctx == ctx && g.launch == launch && (match g.kind with | .stop => true | _ => false)
  ((s.groups.filter isStop).foldl (fun s g => s.dropGroup g) s).wake

/-- DEBUG_ATTACH. -/
def execDebugAttach (ctx : Nat) (s : State) : Result :=
  .next (if ctxCount ≤ ctx then s else s.modCtx ctx fun c => { c with debug := true })

/-- DEBUG_DETACH: the context resumes, and its breakpoints are disabled (R375). -/
def execDebugDetach (ctx : Nat) (s : State) : Result :=
  .next (if ctxCount ≤ ctx then s
    else
      let s := s.modCtx ctx fun c =>
        { c with debug := false, bps := c.bps.map fun e => (e.1, { e.2 with ctl := e.2.ctl &&& 0x7FFFFFFFFFFFFFFF }) }
      (s.launches.filter fun l => l.ctx == ctx).foldl (fun s l => s.resumeLaunch ctx l.id) s)

/-- Whether a command of DBGCMD acts on a launch: it runs (R374, R375). -/
def State.debuggable (s : State) (ctx launch : Nat) : Bool :=
  match s.launch? ctx launch with | some l => l.running | none => false

/-- DEBUG_STOP. -/
def execDebugStop (ctx launch : Nat) (s : State) : Result :=
  .next (if s.debuggable ctx launch then
      let ts := s.launchTeams ctx launch
      ts.foldl (fun s t => s.settle t.key) (s.stopLaunch ctx launch)
    else s)

/-- DEBUG_RESUME. -/
def execDebugResume (ctx launch : Nat) (s : State) : Result :=
  .next (if s.debuggable ctx launch then s.resumeLaunch ctx launch else s)

/-- The stopped sub-groups of a team: its stopped threads at one PC each (R375). -/
def State.subgroups (s : State) (t : Team) : List (List Nat) := partsBy (fun x => (s.placeOf t.key x).1) t.stoppedTids

/-- A stopped sub-group is to issue one word and stop again (R376). -/
def State.stepGroup (s : State) (k : TeamKey) (tids : List Nat) : State := s.goOn k tids true

/-- DEBUG_STEP_FOCUSED: the sub-group that holds the focused thread (R376). -/
def execDebugStepFocused (ctx launch : Nat) (s : State) : Result :=
  .next (if !s.debuggable ctx launch then s
    else match s.team? (.user ctx launch s.focusTeam.toNat) with
      | none => s
      | some t => match (s.subgroups t).find? fun g => g.contains s.focusTid.toNat with
        | none => s
        | some g => s.stepGroup t.key g)

/-- DEBUG_STEP_ALL: each stopped sub-group once, in ascending order of its lowest logical thread (R376). -/
def execDebugStepAll (ctx launch : Nat) (s : State) : Result :=
  .next (if !s.debuggable ctx launch then s
    else
      let ts := sortBy (fun a b => a.key.teamId ≤ b.key.teamId) (s.launchTeams ctx launch)
      (ts.flatMap fun t => (s.subgroups t).map fun g => (t.key, g)).foldl (fun s x => s.stepGroup x.1 x.2) s)

end Sys2Proof.Machine
end

