-- ==== Sys2Proof/Machine/Errors.lean ====
section
/-! DEFINITION. Errors.lean: failed matrix fetches and the relaunch of a swarm (R253 to R255), uncorrectable and
correctable errors (R349), and accesses by the host (R188). -/

namespace Sys2Proof.Machine

/-! ## Killing and relaunching a swarm (R254, R255) -/

/-- Steps 1 and 2 of R254: issue stops in every team of the swarm at once, and its queued operations go. -/
def State.stopSwarm (s : State) (t : Team) (c : Cause) : State :=
  let ks := (s.killSet t).map (·.key)
  let mine (k : TeamKey) : Bool := ks.contains k
  let s := { s with teams := modWhere (fun u => mine u.key) (fun u => { u with killed := some c }) s.teams
                    bundles := s.bundles.filter fun b => !mine b.key }
  s.dropOps mine

/-- Takes a killed team out of the machine: its stopped copies are abandoned and no fault record of it survives; a collection
window that held only traps of it is gone (R254, R337). -/
def State.scrubKilled (s : State) (t : Team) : State :=
  let mine (k : TeamKey) : Bool := k == t.key
  let gs := s.groups.filter fun g => mine g.key
  let s := gs.foldl (fun s g => s.dropGroup g) s
  let s := { s with moves := s.moves.filter fun m => !mine m.key
                    events := s.events.filter fun e => !gs.any e.reports
                    deferred := s.deferred.filter fun e => !gs.any e.reports }
  let s := (s.cores.map (·.1)).foldl (init := s) fun s c => s.modCore c fun x =>
    { x with windows := (x.windows.map fun w => { w with traps := w.traps.filter fun f => !mine f.key }).filter fun w =>
        w.closed || !w.traps.isEmpty }
  s.removeTeam t

/-- The launch of killed teams that start again: their task records, and, of a member that had retired, its count (R255). -/
def Launch.restart (l : Launch) (t : Team) (alive die : Nat) : Launch :=
  match l.grid? t.grid with
  | none => l
  | some g =>
    let first := t.killFirst
    let count := t.killCount
    let id := g.firstTeam + first
    let n := l.relaunchesOf g first + 1
    let l := { l with relaunches := (l.relaunches.filter fun (r : Nat × Nat) => r.1 != id) ++ [(id, n)]
                      restarts := l.restarts ++ [Restart.mk g.id first count die] }
    l.modGrid g.id fun g => { g with retired := g.retired - (count - alive) }

/-- Steps 3 to 5 of R254, once every copy of the swarm has retired or stopped; then it starts again, or its launch fails
(R255); so it does where no window is left to start again in (R77; log entry 126, DEDUCED). -/
def State.endKill (s : State) (t : Team) (c : Cause) : State :=
  let ts := s.killSet t
  if s.moves.any fun m => m.stopped.isNone && ts.any fun u => u.key == m.key then s
  else
    let die := match t.place with | .resident => dieOf t.core | .saved d _ _ => d
    let again := s.relaunchable t
    let s := ts.foldl (fun s u => let s := s.traceTeam u 4
      if again then s.oweEntry u true else s.accountTeam u true) s
    let s := ts.foldl (fun s u => s.scrubKilled u) s
    (if again then (s.modLaunch t.key.ctxId t.key.launchId fun l => l.restart t ts.length die).failStuck t.key.ctxId
     else s.failLaunchOf t.key c 0).wake

/-- MX_FETCH: a swarm is killed (R254). -/
def State.killSwarm (s : State) (t : Team) (c : Cause) : State := (s.stopSwarm t c).endKill t c

/-- What the front end records of a failed fetch (R253). Of an uncorrectable error in the stream at no known address, which
block it lies in is a free value (log entry 92, DEDUCED). -/
def State.recordFetch (s : State) (o : MatOp) (why : MxWhy) : State :=
  let r (a : Option Nat) : MxRecord := { key := o.key, tid := o.tid, pc := o.pc, addr := a }
  let put (s : State) (a : Option Nat) : State := { s with mxFetches := s.mxFetches ++ [r a] }
  match why with
  | .prot => put s (match s.readStream o with | .error (_, va) => some va | .ok _ => none)
  | .cancel => put s o.stopVa
  | .streamError => match s.readStream o with
    | .error (.machine, va) => put s (some va)
    | _ => put { s with free := s.free + 1 } (o.streams[Config.freeNat s.free % o.streams.length]?.map (·.2))
  | .latchError => put s none

/-- Whether a fetch of a queued operation fails in a way; its latch holds operands from its issue on (R253). -/
def State.fetchFails (s : State) (o : MatOp) (why : MxWhy) : Bool :=
  let streams := o.isStream && !o.latched
  match why with
  | .prot => streams && o.stopped.isNone && (match s.readStream o with | .error (.pageProt, _) => true | _ => false)
  | .cancel => streams && (match o.stopped with | some g => (s.group? g).isNone | none => false)
  | .streamError => streams && o.stopped.isNone
  | .latchError => true

/-- A killed team whose swarm still waits for its copies. -/
def State.dying (s : State) (p : Team → Bool) : Option (Team × Cause) :=
  s.teams.findSome? fun t => match t.killed with | some c => if p t then some (t, c) else none | none => none

/-- MX_FETCH: a failed operand fetch kills the swarm; a swarm that waits for its copies is done with once they have come
to an end (R253 to R255). -/
def execMxFetch (pair op : Nat) (why : MxWhy) (s : State) : Result :=
  .next (match (s.pair pair).queue.find? fun o => o.id == op with
    | some o => match s.team? o.key with
      | some t => if s.fetchFails o why then (s.recordFetch o why).killSwarm t .mxFetch else s
      | none => s
    | none => match s.dying fun t => t.desc.matrix && pairOf t.core == pair with
      | some (t, c) => s.endKill t c
      | none => s)

/-! ## Errors (R349, R350) -/

/-- UNCORRECTABLE_ERROR. -/
def execUncorrectableError (place : ErrPlace) (s : State) : Result :=
  .next (match place with
    | .memoryBlock pa =>
      if s.populated pa && !inWindows pa then s.writePoison (Place.here pa).block (some .machine) else s
    | .matrixFetch pair op => match (s.pair pair).queue.find? fun o => o.id == op with
      | none => s
      | some o => match s.team? o.key with
        | some t => (s.recordFetch o (if o.isStream && !o.latched then .streamError else .latchError)).killSwarm t .mxFetch
        | none => s
    | .teamState key => match key, s.team? key with
      | .walker core slot, some _ => s.endWalk core slot .machine
      | .user _ _ _, some t => match t.killed with
        | some c => s.endKill t c
        | none => if s.relaunchable t then s.killSwarm t .machine else s.failLaunchOf key .machine 0
      | _, none => s
    | .contextState ctx => if (s.ctx ctx).en then s.teardown ctx else s
    | .hive => ((s.ctxs.filter fun c => c.2.en).map (·.1)).foldl (fun s c => s.teardown c) s)

/-- CORRECTABLE_ERROR: corrected without any effect on state. -/
def execCorrectableError (s : State) : Result := .next s

/-! ## The host (R188) -/

/-- The dies that a context's grants touch. -/
def State.grantedDies (s : State) (ctx : Nat) : List Nat :=
  (List.range dieCount).filter fun d => (coresOfDie d).any fun c => (s.ctx ctx).cores.getLsbD c

/-- Bytes of the flow-state table of f flows, and of the tables of a flow of n blocks (R306). -/
def flowTableBytes (f : Nat) : Nat := 64 * ((16 * f + 63) / 64)
def flowBytes (n : Nat) : Nat := 128 * n + 64 * ((8 * n + 63) / 64)
/-- Bytes of a region (R306). -/
def regionBytes (flows : List (Nat × Nat)) : Nat :=
  (flowTableBytes flows.length + (flows.map fun f => flowBytes f.2).sum + 65535) / 65536 * 65536

/-- The place that the hive has for a region: on a die of this package in that die's comb memory, at a peer where the hive there
has bound it; granules that no other region holds (R306). -/
def State.regionPlace (s : State) (size : Nat) (x : Nat × Nat) : Option Place :=
  if s.isOurs x.1 then
    let lo := 2 ^ 29 * coordDie x.1
    let free := !s.regions.any fun r => (match r.place with | .here pa => overlaps pa r.size x.2 size | .peer _ _ => false)
    if x.2 % 65536 == 0 && lo ≤ x.2 && x.2 + size ≤ lo + 2 ^ 29 && free then some (.here x.2) else none
  else some (.peer (x.1 % 4096) x.2)

/-- Sets a region up: each flow's state entry, with G = 1, its table lines zero with descriptor 0x8000, and its tags zero (R306,
R328). -/
def State.setupRegion (s : State) (p : Place) (flows : List (Nat × Nat)) : State :=
  (flows.zipIdx.foldl (init := (s, flowTableBytes flows.length)) fun acc x =>
    let (s, off) := acc
    let f := x.1
    let s := s.writeBytes (p.add (16 * x.2)) (bytesOfNat 2 f.1 ++ bytesOfNat 2 1 ++ bytesOfNat 4 f.2 ++ bytesOfNat 8 off)
    let s := (List.range (2 * f.2)).foldl (fun s b => s.recordLine (p.add (off + 64 * b)) noPrediction) s
    let s := (List.range f.2).foldl (fun s b => s.writeBytes (p.add (off + 128 * f.2 + 8 * b)) (List.replicate 8 0)) s
    (s, off + flowBytes f.2)).1

/-- Whether an object's flows may be declared: keys and counts in range, no key twice or declared in the context already (R29). -/
def State.flowsOk (s : State) (ctx : Nat) (flows : List (Nat × Nat)) : Bool :=
  (flows.all fun f => 1 ≤ f.1 && f.1 ≤ 65535 && 1 ≤ f.2 && f.2 ≤ 16777216)
    && (flows.map (·.1)).eraseDups.length == flows.length
    && !s.regions.any fun r => r.ctx == ctx && flows.any fun f => (s.flowIn r f.1).isSome

/-- The loader reserves predictor regions for an object's flows: one on each die that the context's grants touch, or none at all
(R29, R306; log entry 45). -/
def State.loadFlows (s : State) (ctx : Nat) (flows places : List (Nat × Nat)) : State :=
  let size := regionBytes flows
  let dies := (places.map (·.1)).filter s.isOurs
  if !s.flowsOk ctx flows || flows.isEmpty || (places.map (·.1)).eraseDups.length != places.length
      || sortBy (· ≤ ·) dies != (s.grantedDies ctx).map s.dieCoord then s
  else
    let r : Option State := places.foldl (init := some s) fun s x => s.bind fun s => (s.regionPlace size x).map fun p =>
      ({ s with regions := s.regions ++ [Region.mk ctx x.1 p flows.length size] }).setupRegion p flows
    r.getD s

/-- The loader writes a section, and beside each of its blocks the entry of its companion, or 0x8000 where it has none; a
companion is 1/32 the size of its section, or nothing is loaded (R35, R149; log entry 120, DESIGN CHOICE). -/
def State.loadSection (s : State) (ctx va : Nat) (bytes : List Byte) (blockd : Option (List Byte)) : State :=
  if (match blockd with | some d => 32 * d.length != bytes.length | none => false) then s
  else match s.sysWrite ctx va bytes with
    | .error _ => s
    | .ok s => (blockParts va bytes.length).zipIdx.foldl (init := s) fun s x =>
      match s.sysPlace ctx x.1.1 .write with
      | .error _ => s
      | .ok p => s.writeDescr p (match blockd with | some d => BitVec.ofNat 16 (fieldAt d (2 * x.2) 2) | none => plainDescr)

/-- Bytes of the MSI-X table: 256 vectors of 16 (R388). -/
def vectorBytes : Nat := 256 * 16
/-- The bytes of a table entry, and the entry of some bytes. -/
def MsixEntry.bytes (e : MsixEntry) : List Byte := bytesOfNat 8 e.addr.toNat ++ bytesOfNat 4 e.data.toNat ++ bytesOfNat 4 e.ctrl.toNat
def MsixEntry.ofBytes (bs : List Byte) : MsixEntry :=
  { addr := BitVec.ofNat 64 (fieldAt bs 0 8), data := BitVec.ofNat 32 (fieldAt bs 8 4), ctrl := BitVec.ofNat 32 (fieldAt bs 12 4) }
/-- A write of one byte of BAR4. -/
def State.writeVector (s : State) (off : Nat) (b : Byte) : State :=
  let e := sget MsixEntry.fresh s.msixTable (off / 16)
  if off < vectorBytes then { s with msixTable := sset .fresh s.msixTable (off / 16) (.ofBytes (e.bytes.set (off % 16) b)) } else s

/-- A byte of BAR2, which reads as zero once the ROM has booted, and of BAR4 (R388). -/
def State.windowByte (s : State) (off : Nat) : Byte := if s.boot.rom then sget 0 s.window off else 0
def State.vectorByte (s : State) (off : Nat) : Byte := (sget MsixEntry.fresh s.msixTable (off / 16)).bytes.getD (off % 16) 0

/-- HOST_MEMORY_ACCESS: a write that the context's tables permit is performed at system scope; the recovery window takes bytes
while the ROM runs; a read changes nothing (R188, R385, R388). -/
def execHostMemoryAccess (ctx va : Nat) (what : HostAccess) (s : State) : Result :=
  .next (match what with
    | .read => s
    | .write bytes => match s.sysWrite ctx va bytes with
      | .ok s => s.wake
      | .error _ => s
    | .window bytes =>
      if s.boot.rom then { s with window := ssetMany 0 s.window va (bytes.take (64 * 1024 * 1024 - va)) } else s
    | .vector bytes => bytes.zipIdx.foldl (fun s x => s.writeVector (va + x.2) x.1) s
    | .loadSection bytes blockd => (s.loadSection ctx va bytes blockd).wake
    | .loadFlows flows places => s.loadFlows ctx flows places)

end Sys2Proof.Machine
end

