-- ==== Sys2Proof/Machine/Signer.lean ====
section
/-! DEFINITION. Signer.lean: hash-based signatures (R361, R384), and the device id and the certificates of the receipt signers
(R386). The spec names RFC 8554 and does not restate it; its layouts and its verification are log entry 100,
PRESUMED. -/

namespace Sys2Proof.Machine

/-! ## Keys and signatures (RFC 8554) -/

/-- Numbers of 32 and 16 bits, most significant byte first; and a number of such bytes. -/
def wordBE (n : Nat) : List Byte := (bytesOfNat 4 n).reverse
def halfBE (n : Nat) : List Byte := (bytesOfNat 2 n).reverse
def natBE (bs : List Byte) : Nat := natOfBytes bs.reverse

/-- The type codes LMS_SHA256_M32_H20 and LMOTS_SHA256_N32_W8. -/
def lmsType : Nat := 8
def otsType : Nat := 4

/-- The height of a tree, the chains of a one-time signature, and the last value of a chain. -/
def lmsHeight : Nat := 20
def otsChains : Nat := 34
def otsLast : Nat := 255

/-- Bytes of a key of one level, of a one-time signature, of an LMS signature, and of a signature of two levels (R361). -/
def lmsKeyBytes : Nat := 56
def otsBytes : Nat := 4 + 32 + 32 * otsChains
def lmsBytes : Nat := 8 + otsBytes + 32 * lmsHeight
def signatureBytes : Nat := 4 + (lmsBytes + lmsKeyBytes) + lmsBytes

/-- A key of one level: type codes, identifier and root. -/
structure LmsKey where
  id : List Byte
  root : List Byte
deriving DecidableEq, Repr

/-- The key of some bytes: of the right length and type codes. -/
def LmsKey.parse (bs : List Byte) : Option LmsKey :=
  if bs.length == lmsKeyBytes && natBE (bs.take 4) == lmsType && natBE ((bs.drop 4).take 4) == otsType then
    some { id := (bs.drop 8).take 16, root := bs.drop 24 }
  else none

/-- The digits of a message's digest and of its checksum: one byte each. -/
def otsDigits (digest : List Byte) : List Nat :=
  let ds := digest.map (·.toNat)
  let sum := (ds.map (otsLast - ·)).sum
  ds ++ [sum / 256 % 256, sum % 256]

/-- A chain of a one-time signature from one value on, for a number of links. -/
def otsChain (pre : List Byte) (j : Nat) : Nat → List Byte → List Byte
  | 0, y => y
  | n + 1, y => otsChain pre (j + 1) n (sha256 (pre ++ bytesOfNat 1 j ++ y))

/-- The one-time key that a signature of a message leads to. -/
def otsCandidate (id : List Byte) (leaf : Nat) (sig msg : List Byte) : List Byte :=
  let pre := id ++ wordBE leaf
  let c := (sig.drop 4).take 32
  let zs := (otsDigits (sha256 (pre ++ halfBE 0x8181 ++ c ++ msg))).zipIdx.map fun x =>
    otsChain (pre ++ halfBE x.2) x.1 (otsLast - x.1) ((sig.drop (36 + 32 * x.2)).take 32)
  sha256 (pre ++ halfBE 0x8080 ++ zs.flatten)

/-- The root that a path leads to from a node. -/
def lmsClimb (id path : List Byte) : Nat → Nat → List Byte → List Byte
  | 0, _, v => v
  | n + 1, node, v =>
    let other := path.take 32
    let pair := if node % 2 == 1 then other ++ v else v ++ other
    lmsClimb id (path.drop 32) n (node / 2) (sha256 (id ++ wordBE (node / 2) ++ halfBE 0x8383 ++ pair))

/-- Whether an LMS signature of a message verifies under a key. -/
def lmsVerify (key : LmsKey) (msg sig : List Byte) : Bool :=
  let leaf := natBE (sig.take 4)
  let ots := (sig.drop 4).take otsBytes
  let rest := sig.drop (4 + otsBytes)
  let node := 2 ^ lmsHeight + leaf
  sig.length == lmsBytes && leaf < 2 ^ lmsHeight && natBE (ots.take 4) == otsType && natBE (rest.take 4) == lmsType
    && lmsClimb key.id (rest.drop 4) lmsHeight node
        (sha256 (key.id ++ wordBE node ++ halfBE 0x8282 ++ otsCandidate key.id leaf ots msg)) == key.root

/-- Whether the levels of a signature verify, from a key downward: each but the last signs the key of the next. -/
def hssLevels : Nat → List Byte → List Byte → List Byte → Bool
  | 0, key, msg, sig => match LmsKey.parse key with | none => false | some k => lmsVerify k msg sig
  | n + 1, key, msg, sig => match LmsKey.parse key with
    | none => false
    | some k =>
      let next := (sig.drop lmsBytes).take lmsKeyBytes
      lmsVerify k next (sig.take lmsBytes) && hssLevels n next msg (sig.drop (lmsBytes + lmsKeyBytes))

end Sys2Proof.Machine

namespace Sys2Proof.Config

/-- Whether an HSS signature of a message verifies under a public key, every level of which has the parameters that R361 and
R384 name. -/
def hssVerify (key msg sig : List Byte) : Bool :=
  let levels := Machine.natBE (key.take 4)
  let signed := Machine.natBE (sig.take 4)
  1 ≤ levels && levels ≤ 8 && signed + 1 == levels && Machine.hssLevels signed (key.drop 4) msg (sig.drop 4)

end Sys2Proof.Config

namespace Sys2Proof.Machine

/-- The bytes of an HSS signature of two levels that its index and its parameters fix, each with its offset: the number of
signed keys, and of each level the leaf number and the type codes; and the type codes of the key between them (R361). -/
def hssFixed (q : Nat) : List (Nat × List Byte) :=
  let lms (at0 leaf : Nat) : List (Nat × List Byte) :=
    [(at0, wordBE leaf), (at0 + 4, wordBE otsType), (at0 + 4 + otsBytes, wordBE lmsType)]
  (0, wordBE 1) :: lms 4 (q / 2 ^ lmsHeight) ++ [(4 + lmsBytes, wordBE lmsType), (8 + lmsBytes, wordBE otsType)]
    ++ lms (4 + lmsBytes + lmsKeyBytes) (q % 2 ^ lmsHeight)

/-- A signature over a receipt's body; what its index does not fix is a free value. -/
def signature (signer q : Nat) (body : List Byte) : List Byte :=
  (List.range signatureBytes).map fun i =>
    match (hssFixed q).find? fun f => f.1 ≤ i && i < f.1 + 4 with
    | some f => f.2.getD (i - f.1) 0
    | none => Config.hssByte signer q body i

/-- A signer's HSS public key: two levels, the type codes of its upper tree, and what identifies it (R361, R386). -/
def signerKey (hub : Nat) : List Byte :=
  wordBE 2 ++ wordBE lmsType ++ wordBE otsType ++ (List.range 48).map (Config.hssKeyByte hub)

/-! ## The device id and the certificates (R386) -/

/-- The device id (R386). -/
def deviceId : List Byte := bytesOfNat 2 0x47A1 ++ bytesOfNat 2 0x0840 ++ (List.range 12).map Config.serialByte

/-- The bytes of a length in DER. -/
def derLength (n : Nat) : List Byte :=
  if n < 128 then bytesOfNat 1 n else if n < 256 then [0x81] ++ bytesOfNat 1 n else [0x82] ++ halfBE n

/-- An element in DER, by tag; a sequence, and a bit string of whole bytes. -/
def der (tag : Byte) (content : List Byte) : List Byte := tag :: derLength content.length ++ content
def derSeq (parts : List (List Byte)) : List Byte := der 0x30 parts.flatten
def derBits (bs : List Byte) : List Byte := der 0x03 (0x00 :: bs)

/-- A byte as two hexadecimal digits. -/
def hexDigits (b : Byte) : List Byte :=
  [b.toNat / 16, b.toNat % 16].map fun d => BitVec.ofNat 8 (if d < 10 then 0x30 + d else 0x37 + d)

/-- A subject's name, whose serial number is an id; and a subject's key, an HSS public key (log entry 121, PRESUMED). -/
def certSubject (other id : List Byte) : List Byte :=
  derSeq [other, der 0x31 (derSeq [der 0x06 [0x55, 0x04, 0x05], der 0x13 (id.flatMap hexDigits)])]
def certKey (key : List Byte) : List Byte :=
  derSeq [derSeq [der 0x06 [0x2A, 0x86, 0x48, 0x86, 0xF7, 0x0D, 0x01, 0x09, 0x10, 0x03, 0x11]], derBits key]

/-- A signer's certificate in X.509's form: its subject serial is the device id, its subject key the signer's; the contents of
the other parts are free (R386; log entry 121, PRESUMED). -/
def certificate (hub : Nat) : List Byte :=
  let free (i : Nat) : List Byte := Config.certPart hub i
  derSeq [
    derSeq [der 0xA0 (der 0x02 [0x02]), der 0x02 (free 0), der 0x30 (free 1), der 0x30 (free 2), der 0x30 (free 3),
      certSubject (free 4) deviceId, certKey (signerKey hub), der 0xA3 (free 5)],
    der 0x30 (free 1), derBits (free 6)]

/-- A byte of a signer's certificate window: the certificate's length in 4 bytes, the certificate, then whatever else the
4 KiB hold (R386). -/
def certByte (hub i : Nat) : Byte :=
  (bytesOfNat 4 (certificate hub).length ++ certificate hub).getD i (Config.certTail hub i)

end Sys2Proof.Machine
end

