-- ==== Sys2Proof/Machine/Hive.lean ====
section
/-! DEFINITION. Hive.lean: the hive: acknowledgement of fault groups (R333, R334, R342), its event queue (R66), system calls
and traps (R344 to R348), SEAL and CANCEL (R335, R359 to R361), collection windows (R337, R338), pre-emption (R339,
R340) and CORECALL (R372). -/

namespace Sys2Proof.Machine

/-! ## Acknowledging a group (R332 to R334, R342) -/

/-- A group of a saved team is acknowledged with ACTION 1: it is recorded with the team, and its slots are free. -/
def State.recordAck (s : State) (g : Group) : State :=
  { s.modGroup g.id (fun g => { g with ack := some 1, slots := 0 }) with faultFree := Nat.min ringSlots (s.faultFree + g.slots) }

/-- The results of a syscall group reach their threads' pairs; nothing that was issued before lands over them (R102, R344). -/
def State.deliverResults (s : State) (g : Group) : State :=
  g.records.foldl (init := s) fun s r => s.modThread g.key r.tid fun x =>
    x.landWords { id := x.nextPend, reg := g.dest, count := 2, value := none, kind := .memory } (wordsOfPair r.result)

/-- A stopped copy or transfer goes on (R234, R334). -/
def State.replayMove (s : State) (g : Group) (op : Nat) : State :=
  let s := (s.modMove op fun m => { m with stopped := none }).dropGroup g
  match s.move? op with
  | some m => if m.sent then s else s.sendMove m
  | none => s

/-- A stopped stream goes on (R246). -/
def State.replayStream (s : State) (g : Group) (pair op : Nat) : State :=
  (s.modPair pair fun p => { p with queue := modWhere (fun o => o.id == op) (fun o => { o with stopped := none }) p.queue }).dropGroup g

/-- ACTION 2 or 3: the launch fails, and the group is acknowledged: its slots are free, and the core image still names it
(R332, R333, R377). -/
def State.failGroup (s : State) (g : Group) (c : Cause) : State :=
  let s := (s.failLaunch g.ctx g.launch c g.id).modGroup g.id fun g => { g with ack := some 2, slots := 0 }
  ({ s with faultFree := Nat.min ringSlots (s.faultFree + g.slots) }).wake

/-- ACTION 3: a cancelled page of a stream is left to MX_FETCH (R253); any other group fails its launch. -/
def State.cancelGroup (s : State) (g : Group) : State :=
  match g.kind with
  | .stream _ _ => (s.dropGroup g).wake
  | .fault => s.failGroup g .pageCancel
  | .syscall => s.failGroup g .pageCancel
  | .trap _ => s.failGroup g .pageCancel
  | .stop => s.failGroup g .pageCancel
  | .fp => s.failGroup g .pageCancel
  | .move _ => s.failGroup g .pageCancel

/-- The cause of a group's first record. -/
def Group.cause (g : Group) : Cause := match g.records with | r :: _ => r.cause | [] => .machine

/-- ACTION 1 on a group: replay, release, or, on any other group, ACTION 2. -/
def State.replayOrRelease (s : State) (g : Group) : State :=
  let saved := match s.team? g.key with | some t => !t.isResident | none => false
  let core := s.coreOf g.key
  let go (f : State → State) : State := if saved then s.recordAck g else (f s).settle g.key
  match g.kind with
  | .fault => if g.isPages then go (·.replayGroup g) else s.failGroup g g.cause
  | .move op => if g.isPages then go fun s => (s.replayMove g op).wake else s.failGroup g g.cause
  | .stream pair op => if g.isPages then go fun s => (s.replayStream g pair op).wake else s.failGroup g g.cause
  | .syscall =>
    let s := s.deliverResults g
    if saved then s.recordAck g else ((s.acquire core .sys).releaseGroup g).settle g.key
  | .trap resume =>
    if resume then (if saved then s.recordAck g else ((s.acquire core .sys).releaseGroup g).settle g.key)
    else s.failGroup g g.cause
  | .stop => s.failGroup g g.cause
  | .fp => s.failGroup g g.cause

/-- A pending group: not acknowledged yet. -/
def State.pending? (s : State) (id : Nat) : Option Group := (s.group? id).filter fun g => g.ack.isNone

/-- FAULTACK_REPLAY: ACTION 1 (R333). -/
def execFaultackReplay (group : Nat) (s : State) : Result :=
  .next (match s.pending? group with | none => s | some g => s.replayOrRelease g)
/-- FAULTACK_FAIL: ACTION 2. -/
def execFaultackFail (group : Nat) (s : State) : Result :=
  .next (match s.pending? group with | none => s | some g => s.failGroup g g.cause)
/-- FAULTACK_CANCEL: ACTION 3. -/
def execFaultackCancel (group : Nat) (s : State) : Result :=
  .next (match s.pending? group with | none => s | some g => s.cancelGroup g)

/-- EVENT_POST_DEFERRED: an event that its producer held is posted (R66). -/
def execEventPostDeferred (s : State) : Result :=
  .next (match s.deferred with
    | [] => s
    | e :: rest => if s.events.length < eventSlots then { s with events := s.events ++ [e], deferred := rest } else s)

/-- FAULT_RECORD_DEFERRED: a group that waited for room in the ring is written (R332). -/
def execFaultRecordDeferred (s : State) : Result :=
  .next (match s.groups.find? fun g => g.slot.isNone && g.ack.isNone && (s.ringRoom g.records.length).isSome with
    | none => s
    | some g => s.fileGroup g.id)

/-! ## System calls (R344 to R347) -/

/-- Numbers of the services that Folvis provides. -/
def services : List Nat := [0x01, 0x02, 0x03, 0x04, 0x05, 0x06, 0x10, 0x11, 0x12, 0x13, 0x14, 0x15]
/-- The result of an unknown service. -/
def unknownService : W64 := BitVec.ofInt 64 (-38)

/-- A negative result (R347). -/
def svcError (n : Nat) : W64 := BitVec.ofInt 64 (-(n : Int))
/-- Errors that storage or network may answer with (R347). -/
def deviceErrors : List W64 := [2, 5, 28, 104, 110].map svcError

/-- What a handle of a context stands for, if it is open. -/
def State.handle? (s : State) (ctx : Nat) (h : W64) : Option HandleKind :=
  (s.handles.find? fun x => x.1 == ctx && x.2.1 == h.toNat).map (·.2.2)
/-- The lowest number that no handle of a context has (log entry 97, DESIGN CHOICE). -/
def State.newHandle (s : State) (ctx : Nat) : Nat :=
  let mine := s.handles.filter fun x => x.1 == ctx
  ((List.range (mine.length + 1)).find? fun i => !mine.any fun x => x.2.1 == i).getD 0
/-- Opens a handle and gives its number. -/
def State.openHandle (s : State) (ctx : Nat) (k : HandleKind) : State × W64 :=
  let h := s.newHandle ctx
  ({ s with handles := s.handles ++ [(ctx, h, k)] }, BitVec.ofNat 64 h)

/-- How the checks of a call end before storage or network takes part: with a result of its own, with a page that Folvis must
first service, or with leave to go on. -/
inductive SvcCheck
  | result (v : W64)
  | waits
  | go
deriving DecidableEq, Repr

/-- Whether Folvis can read or write a caller's buffer (R346, R347). -/
def State.svcBuffer (s : State) (ctx va n : Nat) (acc : Acc) : SvcCheck :=
  if n == 0 then .go
  else (blockParts va n).foldl (init := .go) fun r x =>
    match r with
    | .go => match s.sysPlace ctx x.1 acc with
      | .ok p => if (s.readBlock p).isNone then .result (svcError 14) else .go
      | .error .pageNp => .waits
      | .error _ => .result (svcError 14)
    | r => r

/-- The path of an open: bytes up to a zero, at most 4,096 of them; each block is read as it is reached. -/
def State.svcPath (s : State) (ctx va : Nat) : SvcCheck :=
  (blockParts va 4096).foldl (init := (SvcCheck.go, false)) (fun r x =>
    if r.2 then r
    else match s.sysRead ctx x.1 x.2 with
      | .error .pageNp => (.waits, true)
      | .error _ => (.result (svcError 14), true)
      | .ok bs => (.go, bs.contains 0)) |> fun r => if r.2 then r.1 else .result (svcError 22)

/-- An address record: its family, and zero where it holds nothing (R346). -/
def State.svcAddress (s : State) (ctx va : Nat) : SvcCheck :=
  match s.svcBuffer ctx va 32 .read with
  | .go => match s.sysRead ctx va 32 with
    | .error _ => .result (svcError 14)
    | .ok bs =>
      let zero (lo n : Nat) : Bool := fieldAt bs lo n == 0
      let fam := fieldAt bs 0 1
      if (fam == 4 && zero 0x14 12 || fam == 6) && zero 1 1 && zero 4 12 then .go else .result (svcError 22)
  | r => r

/-- The kinds of handle that a service takes; the empty list where it takes none. -/
def svcHandle (code : Nat) : List HandleKind :=
  if code ≤ 1 || code == 0x10 then []
  else if code == 2 then [.file, .stream, .datagram]
  else if code ≤ 6 then [.file]
  else if code == 0x12 || code == 0x13 then [.stream]
  else [.stream, .datagram]

/-- The checks of one call: its number, its handle, its arguments, then its buffers (R346, R347; their order is log entry 97,
DESIGN CHOICE). -/
def State.svcCheck (s : State) (ctx : Nat) (r : FaultRec) : SvcCheck :=
  let a (i : Nat) : W64 := r.args.getD i 0
  let kinds := svcHandle r.code
  if !services.contains r.code then .result unknownService
  else if !kinds.isEmpty && !(match s.handle? ctx (a 0) with | some k => kinds.contains k | none => false) then .result (svcError 9)
  else if r.code == 1 then (if a 1 &&& ~~~7 != 0 then .result (svcError 22) else s.svcPath ctx (a 0).toNat)
  else if r.code == 3 then
    (if 2 ^ 31 < (a 2).toNat then .result (svcError 22) else s.svcBuffer ctx (a 1).toNat (a 2).toNat .write)
  else if r.code == 4 then
    (if 2 ^ 31 < (a 2).toNat then .result (svcError 22) else s.svcBuffer ctx (a 1).toNat (a 2).toNat .read)
  else if r.code == 0x10 then (if 1 < (a 0).toNat then .result (svcError 22) else .go)
  else if r.code == 0x11 || r.code == 0x12 then s.svcAddress ctx (a 1).toNat
  else if r.code == 0x14 then s.svcBuffer ctx (a 1).toNat (a 2).toNat .read
  else if r.code == 0x15 then s.svcBuffer ctx (a 1).toNat (a 2).toNat .write
  else .go

/-- A call that storage or network has answered (R346): a handle opened or closed, bytes for the caller's buffer, a count no
larger than what was asked for. An error that R347 does not give counts as −5. -/
def State.svcPerform (s : State) (ctx : Nat) (r : FaultRec) (p : SvcReply) : State × W64 :=
  let a (i : Nat) : W64 := r.args.getD i 0
  if p.result.getLsbD 63 then (s, if deviceErrors.contains p.result then p.result else svcError 5)
  else if r.code == 1 then s.openHandle ctx .file
  else if r.code == 0x10 then s.openHandle ctx (if a 0 == 0 then .stream else .datagram)
  else if r.code == 0x13 then s.openHandle ctx .stream
  else if r.code == 2 then ({ s with handles := s.handles.filter fun x => !(x.1 == ctx && x.2.1 == (a 0).toNat) }, 0)
  else if r.code == 3 || r.code == 0x15 then
    let bs := p.data.take (a 2).toNat
    (match s.sysWrite ctx (a 1).toNat bs with
     | .ok s => (s, BitVec.ofNat 64 bs.length)
     | .error _ => (s, svcError 14))
  else if r.code == 4 || r.code == 0x14 then (s, if (a 2).toNat < p.result.toNat then a 2 else p.result)
  else if r.code == 6 then (s, p.result)
  else (s, 0)

/-- Performs the calls of a group in order; those that pass their checks take the replies that storage and network give. none:
there are too few or too many, or a page must first be serviced. -/
def State.serve (s : State) (ctx : Nat) : List FaultRec → List SvcReply → Option (State × List FaultRec)
  | [], [] => some (s, [])
  | [], _ :: _ => none
  | r :: rs, reps =>
    match s.svcCheck ctx r with
    | .waits => none
    | .result v => (s.serve ctx rs reps).map fun x => (x.1, { r with result := v } :: x.2)
    | .go => match reps with
      | [] => none
      | p :: ps =>
        let (s, v) := s.svcPerform ctx r p
        (s.serve ctx rs ps).map fun x => (x.1, { r with result := v } :: x.2)

/-- A SYSCALL event (R344). none: it waits for replies. -/
def State.runSyscall (s : State) (id : Nat) (reps : List SvcReply) : Option State :=
  match s.pending? id with
  | none => if reps.isEmpty then some s else none
  | some g => (s.serve g.ctx g.records reps).map fun x =>
      let s := x.1.modGroup id fun g => { g with records := x.2 }
      let g := { g with records := x.2 }
      let s := match g.slot with | some slot => s.putRecords g slot | none => s
      s.replayOrRelease g

/-! ## Faults and traps -/

/-- The trap ring takes copies of a group's records (R348). -/
def State.trapRing (s : State) (g : Group) : State :=
  g.records.zipIdx.foldl (init := s) fun s x =>
    (s.ringPut g.ctx (·.trap) (fun c r => { c with trap := r }) 64 (recordBytes g x.2 x.1)).1

/-- A FAULT event: page faults wait for the hive's service and its FAULTACK, a debugger's stop for the debugger; a trap
with RESUME is copied and released; anything else is fatal (R333, R348). -/
def State.runFault (s : State) (id : Nat) : State :=
  match s.pending? id with
  | none => s
  | some g => match g.kind with
    | .fault => if g.isPages then s else s.failGroup g g.cause
    | .move _ => if g.isPages then s else s.failGroup g g.cause
    | .stream _ _ => if g.isPages then s else s.failGroup g g.cause
    | .trap resume => if resume then (s.trapRing g).replayOrRelease g else s.failGroup g g.cause
    | .stop => s
    | .fp => s.failGroup g g.cause
    | .syscall => s

/-! ## CANCEL and SEAL (R335, R359 to R361) -/

/-- Cancels the groups that a CANCEL names and completes the packet. -/
def State.runCancel (s : State) (p : Packet) : State :=
  let launch := p.field 0x40 4
  let group := p.field 0x48 8
  let hit (g : Group) : Bool := g.ctx == p.ctx && g.ack.isNone && (launch == 0 || g.launch == launch) && (group == 0 || g.id == group)
  let due := sortBy (fun a b => a.id ≤ b.id) (s.groups.filter hit)
  (due.foldl (fun s g => s.cancelGroup g) s).endPacket p { state := 1 }

/-- Signatures that one signer can make (R360). -/
def signatureCount : Nat := 2 ^ 40

/-- A receipt's entry. -/
def receiptEntry (e : Completion) : List Byte :=
  bytesOfNat 4 e.launch ++ bytesOfNat 1 e.state ++ bytesOfNat 1 e.cause ++ bytesOfNat 1 e.flags ++ bytesOfNat 1 0 ++
    bytesOfNat 8 e.stamp ++ sha256 e.digests.flatten

/-- The signed bytes of a receipt (R359). -/
def State.receiptBody (s : State) (p : Packet) (x : Seal) (signer q : Nat) : List Byte :=
  let c := s.ctx p.ctx
  let e := Nat.min x.entries.length ((p.field 0x48 4 - receiptMin) / 48)
  bytesOfNat 4 1 ++ bytesOfNat 4 (0x90 + 48 * e) ++ deviceId ++ bytesOfNat 1 signer ++ bytesOfNat 1 p.ctx ++ bytesOfNat 2 c.asid ++
    bytesOfNat 4 e ++ bytesOfNat 8 q ++ bytesOfNat 8 x.launches ++ bytesOfNat 8 x.completions ++ bytesOfNat 8 x.stamp ++
    bytesOfNat 8 c.enabledAt ++ bytesOfNat 4 (if e < x.entries.length then 1 else 0) ++ bytesOfNat 4 0 ++
    (p.bytes.drop 0x50).take 32 ++ x.chain ++ (x.entries.drop (x.entries.length - e)).flatMap receiptEntry

/-- How a SEAL ends whose receipt cannot be written: a protection failure is check 13; where nothing answers, it ends as a
packet's other failing writes do (R360, R394; log entry 135, DEDUCED). -/
def sealFailure (c : Cause) : PktEnd := if c == .pageProt then { state := 3, check := 13 } else .failed c

/-- Builds and writes a receipt and completes its packet; an index whose receipt could not be written is used up (R361).
none: the hive must first service a page, or the signer's clock stands still (R389). -/
def State.runSeal (s : State) (p : Packet) (x : Seal) (signer : Nat) : Option State :=
  let q := sget 0 s.signer signer
  if !s.hubServes signer hashFn then none
  else if signatureCount ≤ q then some (s.endPacket p { state := 3, check := 18 })
  else
    let body := s.receiptBody p x signer q
    let used (s : State) : State := { s with signer := sset 0 s.signer signer (q + 1) }
    match s.sysWrite p.ctx (p.field 0x40 8) (body ++ signature signer q body) with
    | .error .pageNp => none
    | .error c => some ((used s).endPacket p (sealFailure c))
    | .ok s =>
      let s := used s
      let s := s.modCtx p.ctx fun c => { c with unsealed := c.unsealed.filter fun e => !x.entries.contains e }
      some (s.endPacket p { state := 1 })

/-- A PACKET event, by the context and sequence number of its packet. -/
def State.runPacket (s : State) (ctx seq signer : Nat) : Option State :=
  match s.packets.find? fun p => p.ctx == ctx && p.seq == seq && p.open && p.ending.isNone with
  | none => some s
  | some p => match p.sealed with
    | some x => s.runSeal p x signer
    | none => some (s.runCancel p)

/-! ## The event queue (R66) -/

/-- System cores of the two hubs, and those of one hub (R3). -/
def syscoreCount : Nat := 12
def syscoresPerHub : Nat := 6

/-- Runs one event to completion. none: it cannot complete yet. -/
def State.runEvent (s : State) (e : HiveEvent) (signer : Nat) (reps : List SvcReply) : Option State :=
  match e.type with
  | .syscall => s.runSyscall e.word reps
  | .fault => if reps.isEmpty then some (s.runFault e.word) else none
  | .packet => if reps.isEmpty then s.runPacket e.ctx e.seq signer else none
  | .timer => if reps.isEmpty then some s else none

/-- The oldest event that can run, and the state after it. -/
def State.takeEvent (s : State) (signer : Nat) (reps : List SvcReply) : List HiveEvent → List HiveEvent → Option State
  | _, [] => none
  | before, e :: rest =>
    match ({ s with events := before ++ rest }).runEvent e signer reps with
    | some s' => some s'
    | none => s.takeEvent signer reps (before ++ [e]) rest

/-- HIVE_TAKE_EVENT: an idle system core runs an event to completion (R66). -/
def execHiveTakeEvent (syscore : Nat) (replies : List SvcReply) (s : State) : Result :=
  .next (if syscoreCount ≤ syscore then s else (s.takeEvent (syscore / syscoresPerHub) replies [] s.events).getD s)

/-- TIMER_EVENT: a timer posts its event (R66). -/
def execTimerEvent (id : W64) (s : State) : Result := .next (s.postEvent (.timer id))

/-! ## Floating-point reports (R337, R338) -/

/-- The cause of the lowest flag of a set. -/
def lowestFp (f : BitVec 5) : Cause :=
  if f.getLsbD 0 then .fpInv else if f.getLsbD 1 then .fpDivz else if f.getLsbD 2 then .fpOvf else if f.getLsbD 3 then .fpUnf else .fpInx

/-- The trap that a window reports: issued earliest, lowest PC, lowest logical thread. -/
def FpWindow.first (w : FpWindow) : Option FpTrap :=
  leastBy (fun a b => lexLt [a.cycle, a.pc, a.key.teamId, a.tid] [b.cycle, b.pc, b.key.teamId, b.tid]) w.traps

/-- FP_WINDOW_CLOSE: the core writes one record for the launch, which fails. -/
def execFpWindowClose (core ctx launch : Nat) (s : State) : Result :=
  let mine (w : FpWindow) : Bool := w.ctx == ctx && w.launch == launch
  .next (match (s.core core).windows.find? mine with
    | none => s
    | some w => match w.first with
      | none => s
      | some t =>
        if w.closed || s.cycle core < w.opened + windowCycles then s
        else
          let c := lowestFp t.flags
          let r := (Trap.plain t.tid c).record t.pc t.key.teamId t.stamp w.traps.length
          let r := { r with flags := w.traps.foldl (fun f x => f ||| x.flags) 0, fpCount := w.traps.length }
          let id := s.nextGroup
          let s := s.modCore core fun x => { x with windows := modWhere mine (fun w => { w with closed := true, group := id }) x.windows }
          (s.takeReport t.key .fp r ((w.traps.filter fun x => x.key == t.key).map (·.tid))).failLaunch ctx launch c id)

/-! ## Pre-emption (R339, R340) -/

def preemptCtx (v : W64) : Nat := (v.extractLsb' 48 6).toNat
def preemptCount (v : W64) : Nat := (v.extractLsb' 9 9).toNat
def preemptFirst (v : W64) : Nat := (v.extractLsb' 0 9).toNat

/-- The fields of PREEMPT that software sets; GO is what runs, and reserved bits read zero (R10, R339). -/
def preemptFields (v : W64) : W64 := v &&& 0x403F00000003FFFF

/-- PREEMPT_VACATE: a write of PREEMPT; one with GO = 1 starts a vacate (R339). -/
def execPreemptVacate (v : W64) (s : State) : Result :=
  .next (if s.vacate.isSome || preemptCount v == 0 || coreCount < preemptFirst v + preemptCount v then s
    else
      let s := { s with preempt := preemptFields v }
      if v.getLsbD 63 then
        { s with vacate := some (Vacate.mk (preemptCtx v) (preemptFirst v) (preemptCount v) (v.getLsbD 62)) }
      else s)

/-- PREEMPT_DONE: every team that the vacate names is quiet and is saved; deterministic launches are remapped. -/
def execPreemptDone (s : State) : Result :=
  .next (match s.vacate with
    | none => s
    | some v =>
      let ts := s.teams.filter fun t => t.isResident && s.vacating t
      if ts.all s.quiet then
        let s := ts.reverse.foldl (fun s t => s.saveTeam t.key v.hold false) s
        ({ s.loseVacated ts ((List.range v.count).map (v.first + ·)) with vacate := none }).wake
      else s)

/-- CTXRESUME: the held teams of a context wait to be re-admitted; its deterministic launches take windows of the grants
in force (R339, log entry 24, DEDUCED). -/
def execCtxresume (v : W64) (s : State) : Result :=
  let ctx := (v.extractLsb' 0 6).toNat
  let held (t : Team) : Bool := t.key.ctx? == some ctx && (match t.place with | .saved _ h _ => h | .resident => false)
  .next (if s.teams.any held then
      let ls := (s.teams.filter held).map fun t => t.key.launchId
      let s' : State := { s with
        teams := s.teams.map fun t => if held t then
          { t with place := match t.place with | .saved d _ w => .saved d false w | .resident => .resident } else t
        launches := s.launches.map fun l =>
          if l.ctx == ctx && l.det && ls.contains l.id then { l with mask := (s.ctx ctx).cores, lost := [] } else l }
      s'.endReservations
    else s)

/-! ## CORECALL (R372) -/

/-- The fields of CORECALL that software sets (R10, R372). -/
def callFields (v : W64) : W64 := v &&& 0x1FFFFFFFFFFFFFF8

/-- CORECALL: a write with GO = 1 starts a walker thread with all registers zero, once a place of the core's walker slot is
free (R372). -/
def execCorecall (v : W64) (s : State) : Result :=
  .next (if s.callBusy || coreCount ≤ callCore v then s
    else
      let s := { s with call := callFields v }
      if v.getLsbD 63 then ({ s with callBusy := true }).startCall else s)

end Sys2Proof.Machine
end

