-- ==== Sys2Proof/Machine/Lane.lean ====
section
/-! DEFINITION. Lane.lean: the predicate moves and the lane instructions (R128 to R133). -/

namespace Sys2Proof.Machine

/-! ## Predicate moves (R129) -/

/-- A logic operation on predicates. -/
def plogVal (op : POp) (a b : Bool) : Bool :=
  match op with | .and => a && b | .or => a || b | .xor => a != b | .andn => a && !b

/-- PLOG (R129). -/
def execPlog (c : Ctl) (op : POp) (d a b : Reg) (inv : Bool) (s : State) : Result :=
  issueFixed (vecWord c (predSlots a ++ predSlots b) (predSlots d)) (.pred d.toNat) 4 (fun t =>
    if plogVal op (t.pred a.toNat) (t.pred b.toNat) != inv then 1 else 0) s
/-- PMOV (R129). -/
def execPmov (c : Ctl) (d a : Reg) (inv : Bool) (s : State) : Result :=
  issueFixed (vecWord c (predSlots a) (predSlots d)) (.pred d.toNat) 4 (fun t => if t.pred a.toNat != inv then 1 else 0) s
/-- PMOV_TOW (R129). -/
def execPmovTow (c : Ctl) (d : Reg) (s : State) : Result :=
  issueFixed (vecWord c ((List.range 24).map predSlot) (regSlots d)) (.reg d.toNat) 4 (fun t => t.preds.setWidth 64) s
/-- PMOV_FROMW: one entry of the delayed-write window (R103, R129). -/
def execPmovFromw (c : Ctl) (a : Reg) (s : State) : Result :=
  issueFixed (vecWord c (regSlots a) ((List.range 24).map predSlot)) .preds 4 (fun t => (t.reg a.toNat).setWidth 64) s

/-! ## Lane instructions (R130 to R133) -/

/-- A lane instruction of fixed latency whose value for a thread follows from the threads it acts over. -/
def laneFixed (w : OpWord) (d : Dest) (lat : Nat) (f : List Thread → Thread → W64) (s : State) : Result :=
  issueLane w (fun s site t => (s, .write d (f site.on t) lat)) s

/-- The vote of a list of truth values (R131). -/
def voteVal (op : VoteOp) (qs : List Bool) : Bool :=
  match op with
  | .all => qs.all id
  | .any => qs.any id
  | .uni => qs.all id || qs.all (!·)

/-- VOTE (R131). -/
def execVote (c : Ctl) (op : VoteOp) (d a : Reg) (neg : Bool) (s : State) : Result :=
  laneFixed (vecWord c (predSlots a) (predSlots d)) (.pred d.toNat) 4 (fun on _ =>
    if voteVal op (on.map fun u => u.pred a.toNat != neg) then 1 else 0) s

/-- A thread's position in its row (R110). -/
def Thread.pos (t : Thread) : Nat := t.tid % 32

/-- BALLOT (R131). -/
def execBallot (c : Ctl) (d a : Reg) (neg : Bool) (s : State) : Result :=
  laneFixed (vecWord c (predSlots a) (regSlots d)) (.reg d.toNat) 4 (fun on _ =>
    on.foldl (fun m u => if u.pred a.toNat != neg then m ||| (1 <<< u.pos) else m) 0) s

/-- The position that a thread reads from, if there is one (R132). -/
def shflSource (op : ShflOp) (p sel : Nat) : Option Nat :=
  match op with
  | .idx => some (sel % 32)
  | .xor => some (p ^^^ (sel % 32))
  | .up => if sel > 31 || p < sel then none else some (p - sel)
  | .down => if sel > 31 || p + sel > 31 then none else some (p + sel)

/-- SHFL (R132). -/
def execShfl (c : Ctl) (op : ShflOp) (d a : Reg) (sel : ShflSel) (s : State) : Result :=
  let selSlots := match sel with | .reg b => regSlots b | .imm _ => []
  laneFixed (vecWord c (regSlots a ++ selSlots) (regSlots d)) (.reg d.toNat) 8 (fun on t =>
    let n := match sel with | .reg b => (t.reg b.toNat).toNat | .imm i => i.toNat
    let src := (shflSource op t.pos n).bind fun p => on.find? fun u => u.pos == p
    ((src.getD t).reg a.toNat).setWidth 64) s

/-- One step of a reduction (R133). -/
def reduxStep (op : ReduxOp) (t : RTy) (rnd : Rnd) (ftz : Bool) (acc : FRes) (v : Nat) : FRes :=
  let int (k : ITy) : Nat :=
    let a : W32 := BitVec.ofNat 32 acc.bits
    let b : W32 := BitVec.ofNat 32 v
    match op with
    | .add => (a + b).toNat
    | .min => if (match k with | .s32 => decide (b.toInt < a.toInt) | .n32 => decide (b.toNat < a.toNat)) then v else acc.bits
    | .max => if (match k with | .s32 => decide (a.toInt < b.toInt) | .n32 => decide (a.toNat < b.toNat)) then v else acc.bits
  match t with
  | .s32 => { acc with bits := int .s32 }
  | .n32 => { acc with bits := int .n32 }
  | .f32 =>
    let r := match op with
      | .add => FFmt.f32.add rnd ftz acc.bits v
      | .min => FFmt.f32.minMax false false acc.bits v
      | .max => FFmt.f32.minMax true false acc.bits v
    { r with fl := acc.fl.or r.fl }

/-- The reduction of a list of words; a list of one f32 word is canonicalised, and flushed where ftz says so (log entry
10, DEDUCED). -/
def reduxVal (op : ReduxOp) (t : RTy) (rnd : Rnd) (ftz : Bool) (xs : List Nat) : FRes :=
  match xs with
  | [] => { bits := 0, fl := {} }
  | x :: rest =>
    let first : FRes := match t with
      | .f32 => match FFmt.f32.operand ftz x with
        | .nan sg => { bits := if rest.isEmpty then FFmt.f32.nan else x, fl := FpFlags.invIf (sg && (rest.isEmpty || op != .add)) }
        | .inf _ => { bits := x, fl := {} }
        | .fin _ _ _ => { bits := FFmt.f32.flushIn ftz x, fl := {} }
      | .s32 => { bits := x, fl := {} }
      | .n32 => { bits := x, fl := {} }
    rest.foldl (reduxStep op t rnd ftz) first

/-- REDUX: one result for every thread; its flags are one result's, so that an enabled one traps them all (R133). -/
def execRedux (c : Ctl) (op : ReduxOp) (t : RTy) (d a : Reg) (rnd : Rnd) (ftz : Bool) (s : State) : Result :=
  issueLane (vecWord c (regSlots a) (regSlots d)) (fun s site _ =>
    let r := reduxVal op t rnd ftz ((sortBy (fun x y => x.tid ≤ y.tid) site.on).map fun u => (u.reg a.toNat).toNat)
    (s, s.fpAct site.key r.fl (.write (.reg d.toNat) (BitVec.ofNat 64 r.bits) 10))) s

end Sys2Proof.Machine
end

