-- ==== Sys2Proof/Machine/Power.lean ====
section
/-! DEFINITION. Power.lean: boot and recovery (R383 to R385), the freeze and the silence of peers (R378), islands and their
clocks (R389, R390), temperature (R391), issue shaping by package write (R392, R393), and trace configuration and samples
(R365, R367). -/

namespace Sys2Proof.Machine

/-! ## Reset, boot and recovery -/

/-- The package right after a reset: every context is discarded; memory keeps its bytes, and a signer's indices are never
used again (R361, R378, log entry 28, DEDUCED). -/
def State.afterReset (s : State) : State :=
  { State.reset with mem := s.mem, descs := s.descs, poison := s.poison, portCap := s.portCap, signer := s.signer,
                     peerMem := s.peerMem, peerDescs := s.peerDescs, peerPoison := s.peerPoison, agenda := s.agenda, free := s.free }

/-- The hash fused into H0. -/
def rootHash : List Byte := (List.range 32).map Config.rootHashByte

/-- What the check of an image comes to, as ERR has it: 0 where the ROM accepts it (R384). -/
def imageError (image : List Byte) : BitVec 8 :=
  if sha256 (Config.imageRootKey image) != rootHash
      || !Config.hssVerify (Config.imageRootKey image) (Config.imageKey image) (Config.imageKeySig image)
      || !Config.hssVerify (Config.imageKey image) (Config.imageBody image) (Config.imageBodySig image) then 2
  else if Config.imageSvn image < Config.minSvn then 3
  else 0

/-- The ROM gives up on an image: it writes ERR, sets WAITREC, and waits (R384). -/
def Boot.refuse (b : Boot) (e : BitVec 8) : Boot := { b with err := e, waitRec := true, stage := .waiting }

/-- The ROM checks an image and, where it accepts it, goes on to load it; the running image's SVN and RECOV are recorded as
it is loaded (R383 to R385). -/
def Boot.check (b : Boot) (image : List Byte) (host : Bool) : Boot :=
  if imageError image == 0 then { b with waitRec := false, err := 0, recov := host, stage := .load, image := image }
  else b.refuse (imageError image)

/-- Every island returns to the operating point of reset (R383, R390). -/
def State.trainIslands (s : State) : State :=
  { s with islands := s.islands.map fun i => (i.1, { i.2 with nextFreq := Island.fresh.freq, nextGate := false }) }

/-- BOOT: the release of reset, or one of the steps that follow it, in their order (R383, R384). A failed memory test ends the
boot without WAITREC (log entry 69, DEDUCED). -/
def execBoot (e : BootEvent) (s : State) : Result :=
  let b := s.boot
  let at' (g : BootStage) (s' : State) : Result := .next (if b.stage == g then s' else s)
  match e with
  | .release => .next s.afterReset
  | .memoryTest ok =>
    at' .test { s with boot := if ok then { b with stage := .flash } else { b with err := 4, stage := .waiting } }
  | .readFlash image => at' .flash { s with boot := match image with
      | some bytes => { b with stage := .check, image := bytes }
      | none => b.refuse 1 }
  | .check => at' .check { s with boot := b.check b.image false }
  | .load =>
    at' .load { s with boot := { b with rom := false, svn := BitVec.ofNat 32 (Config.imageSvn b.image), stage := .train, image := [] }
                       window := [] }
  | .train => at' .train { s.trainIslands with boot := { b with stage := .last } }
  | .finish => at' .last { s with boot := { b with done := true, stage := .waiting } }

/-- Bytes of the recovery window (R385, R388). -/
def recoveryBytes : Nat := 64 * 1024 * 1024

/-- The image that the host has left in the recovery window: RECOVLEN bytes of it, at most the window. -/
def State.recoveryImage (s : State) : List Byte := sgetMany 0 s.window 0 (Nat.min s.boot.recovLen.toNat recoveryBytes)

/-- RECOVGO: a write of any value while the ROM waits has it check the image of the recovery window; one while WAITREC = 0 is
ignored (R385). -/
def execRecovgo (_v : W32) (s : State) : Result :=
  .next (if s.boot.waitRec then { s with boot := s.boot.check s.recoveryImage true } else s)

/-- FREEZE: every clock stops (R378). -/
def execFreeze (s : State) : Result := .next { s with frozen := true }

/-- Whether a launch has a transfer to a package. -/
def State.sendsTo (s : State) (l : Launch) (coord : Nat) : Bool :=
  s.moves.any fun m => m.key.launch? == some (l.ctx, l.id) && m.kind.isXfer && m.lay.ranks.any fun r => r.2 % 4096 == coord

/-- PEER_SILENCE_TIMEOUT: a peer has been silent for 100 µs. Launches with a transfer to it fail, and nothing more comes
over its links (R378). -/
def execPeerSilenceTimeout (px py pz : Nat) (s : State) : Result :=
  let coord := px % 16 + 16 * (py % 16) + 256 * (pz % 16)
  .next (if coord == s.coord.toNat then s
    else
      let s := (s.launches.filter fun l => s.sendsTo l coord).foldl (fun s l => s.failLaunch l.ctx l.id .machine 0) s
      { s with silent := if s.silent.contains coord then s.silent else s.silent ++ [coord]
               segments := s.segments.filter fun g => g.src % 4096 != coord && g.dst % 4096 != coord })

/-! ## Islands (R389, R390) -/

/-- Islands of the package, and those that are core pairs. -/
def islandCount : Nat := 256
def pairIslands : Nat := 160

/-- Whether ISLCTL takes a frequency. -/
def freqOk (island f : Nat) : Bool := island < pairIslands && 400 ≤ f && f ≤ 1600 && f % 100 == 0

/-- ISLCTL_WRITE, by the hive: the clock changes later (R390). -/
def execIslctlWrite (island : Nat) (v : W64) (s : State) : Result :=
  .next (if islandCount ≤ island then s
    else s.modIsland island fun i =>
      let f := (v.extractLsb' 0 16).toNat
      { i with nextFreq := if freqOk island f then f else i.nextFreq, nextGate := v.getLsbD 16 })

/-- Whether an island's clock is to stand still: a core pair's stops only while no team is resident. -/
def State.gateDue (s : State) (island : Nat) : Bool :=
  (s.island island).nextGate && (pairIslands ≤ island || (coresOfPair island).all fun c => (s.residents c).isEmpty)

/-- ISLAND_CLOCK_CHANGE: the clock takes its new frequency or gate, and trace streams will say so (R367, R390). -/
def execIslandClockChange (island : Nat) (s : State) : Result :=
  let i := s.island island
  let gate := s.gateDue island
  .next (if islandCount ≤ island || (i.freq == i.nextFreq && i.gate == gate) then s
    else
      let now := s.islandCycle island
      let s := s.modIsland island fun i => { i with base := now, since := s.now8, freq := i.nextFreq, gate := gate }
      if island < pairIslands then s.resyncPair island (if gate then 3 else 2) else s)

/-! ## Temperature (R391) -/

/-- 1/256 °C in a degree. -/
def degrees (n : Int) : BitVec 16 := BitVec.ofInt 16 (256 * n)
/-- HOT and TRIP of a temperature. -/
def isHot (t : BitVec 16) : Bool := (degrees 105).toInt ≤ t.toInt
def isTrip (t : BitVec 16) : Bool := (degrees 115).toInt ≤ t.toInt

/-- THERMAL_HOT: a sensor's reading; the issue ceiling is lowered at 105 °C and returns below 100 °C. -/
def execThermalHot (island : Nat) (temp : BitVec 16) (s : State) : Result :=
  .next (if islandCount ≤ island then s
    else s.modIsland island fun i =>
      { i with temp := temp, hot := if isHot temp then true else if temp.toInt < (degrees 100).toInt then false else i.hot })

/-- THERMAL_TRIP: power is removed, and the package keeps no state. -/
def execThermalTrip (island : Nat) (temp : BitVec 16) (s : State) : Result :=
  .next (if islandCount ≤ island || !isTrip temp then s
    else { State.reset with powered := false, agenda := s.agenda, free := s.free, signer := s.signer })

/-! ## Issue shaping (R392, R393) -/

/-- ISSUESHAPE_WRITE, by the hive. -/
def execIssueshapeWrite (island : Nat) (v : W64) (s : State) : Result :=
  .next (if pairIslands ≤ island then s else s.setShape island v)

/-! ## Trace streams (R365, R367) -/

/-- TRACECFG_WRITE. -/
def execTracecfgWrite (ctx : Nat) (v : W64) (s : State) : Result :=
  .next (if ctxCount ≤ ctx then s else s.setTrace ctx v)

/-- The sample period that a core is in. -/
def State.samplePeriodOf (s : State) (core ctx : Nat) : Nat := s.cycle core / (s.ctx ctx).samplePeriod

/-- Whether a sample of a stream is due: the context samples, it has a team on the core, and a period has begun. -/
def State.sampleDue (s : State) (core ctx : Nat) : Bool :=
  (s.ctx ctx).traceOn && (s.ctx ctx).traceSamples && ((s.residents core).any fun t => t.key.ctx? == some ctx)
    && ((s.core core).stream ctx).sampled != s.samplePeriodOf core ctx

/-- TRACE_SAMPLE: the lowest thread of the bundle that issued on slot 0 in the sample cycle, or IDLE (R366, R367). -/
def execTraceSample (core ctx : Nat) (s : State) : Result :=
  .next (if coreCount ≤ core || !s.sampleDue core ctx then s
    else
      let p := s.samplePeriodOf core ctx
      let idle : TraceRec := { type := 2, flags := 2, tid := 0, launch := 0, team := 0, value := 0, code := 0 }
      let r : TraceRec := match ((s.core core).slot 0).last with
        | some (k, tid, pc, cycle) =>
          if k.ctx? == some ctx && cycle == s.cycle core then
            { type := 2, flags := 0, tid := tid, launch := k.launchId, team := k.teamId, value := pc, code := 0 }
          else idle
        | none => idle
      (s.traceRecord core ctx r).modCore core fun c => c.setStream { c.stream ctx with sampled := p })

end Sys2Proof.Machine
end

