-- ==== Sys2Proof/Machine/Registers.lean ====
section
/-! DEFINITION. Registers.lean: the package register space (R37, R382): what a read of each register gives, and writes of the
registers that have no event of their own. -/

namespace Sys2Proof.Machine

/-- Which of a row of register groups an address names, and the offset in it. -/
def groupAt (base stride count a : Nat) : Option (Nat × Nat) :=
  if base ≤ a && a < base + stride * count then some ((a - base) / stride, (a - base) % stride) else none

/-- Bits hi to lo of a value, in place. -/
def keepBits (v : W64) (lo n : Nat) : Nat := (v.extractLsb' lo n).toNat * 2 ^ lo
/-- One bit of a register word. -/
def flagBit (b : Bool) (i : Nat) : Nat := if b then 2 ^ i else 0

/-! ## Reads -/

/-- QCFG. -/
def Queue.cfgWord (x : Queue) : Nat :=
  x.ctx * 2 ^ 40 + x.msix * 2 ^ 32 + x.prio * 2 ^ 28 + x.log2slots * 2 ^ 16 + flagBit x.en 0
/-- A queue's registers. -/
def State.readQueue (s : State) (q off : Nat) : Nat :=
  let x := s.queue q
  if off == 0x00 then x.base
  else if off == 0x08 then x.cfgWord
  else if off == 0x10 then x.widx.toNat
  else if off == 0x18 then x.fidx.toNat * 2 ^ 32 + x.cidx.toNat
  else if off == 0x20 then x.hidx.toNat * 2 ^ 32 + flagBit x.cfgErr 3 + flagBit x.overrun 2 + flagBit x.halt 1 + flagBit (s.queueActive q) 0
  else if off == 0x28 then x.stamp.toNat
  else 0

/-- CTXCFG. -/
def Ctx.cfgWord (c : Ctx) : Nat := flagBit c.en 63 + c.ivQuota * 2 ^ 48 + c.reuseQuota * 2 ^ 31 + c.asid

/-- A ring's two registers, with its base in units of 2^unit bytes. -/
def Ring.baseWord (r : Ring) : Nat := r.base + r.log2n
def Ring.ptrWord (r : Ring) : Nat := r.lost * 2 ^ 40 + r.head * 2 ^ 20 + r.tail
def Ring.word (r : Ring) (off : Nat) : Nat := if off == 0 then r.baseWord else if off == 8 then r.ptrWord else 0

/-- A derived region descriptor's words (R202). -/
def Derived.word (d : Derived) (off : Nat) : Nat :=
  if off == 0x00 then d.window.toNat
  else if off == 0x08 then d.length.toNat
  else if off == 0x10 then d.base.toNat
  else if off == 0x18 then d.index.toNat
  else if off == 0x20 then d.stream.toNat
  else if off == 0x28 then d.bytes.toNat
  else if off == 0x30 then d.asid.toNat + d.port.toNat * 2 ^ 16 + flagBit d.v 24 + flagBit d.err 25
  else if off == 0x38 then (d.length - BitVec.ofNat 64 d.indexBytes - d.bytes).toNat
  else 0

/-- A breakpoint entry's words (R373). -/
def Breakpoint.word (b : Breakpoint) (off : Nat) : Nat :=
  if off == 0x00 then b.ctl.toNat
  else if off == 0x08 then b.launch + b.team * 2 ^ 32
  else if off == 0x10 then b.tid
  else 0

/-- BOOTSTAT (R383). -/
def Boot.word (b : Boot) : Nat :=
  b.svn.toNat * 2 ^ 32 + b.err.toNat * 2 ^ 8 + flagBit b.recov 3 + flagBit b.waitRec 2 + flagBit b.done 1 + flagBit b.rom 0

/-- ISLCTL and ISLSTAT (R390). -/
def Island.ctlWord (i : Island) : Nat := flagBit i.nextGate 16 + i.nextFreq
def Island.statWord (i : Island) (mv mhz : Nat) : Nat :=
  i.temp.toNat * 2 ^ 48 + mv * 2 ^ 32 + mhz * 2 ^ 16 + flagBit (isHot i.temp) 1 + flagBit (isTrip i.temp) 0

/-- The island of H0 that is not populated (R389). -/
def absentIsland : Nat := 228
/-- Whether boot has set the operating points (R383). -/
def State.pointsSet (s : State) : Bool := s.boot.done || s.boot.stage == .last
/-- MHZ of an island: 0 of one that is stopped or not populated, and, as the register resets, until boot has set the operating
points (R383, R389, R390; log entry 110, DEDUCED). -/
def State.islandMhz (s : State) (i : Nat) : Nat :=
  if (s.island i).gate || i == absentIsland || !s.pointsSet then 0 else (s.island i).freq

/-- MV of an island: as the register resets, until boot has set the operating points; then what its sensor reads at the time,
a free value (R390; log entry 52, DESIGN CHOICE). -/
def State.islandMv (s : State) (i : Nat) : Nat := if s.pointsSet then (Config.islandMv i s.ticks).toNat else 0

/-- FLOWSTAT (R314). -/
def State.flowWord (s : State) (die : Nat) : Nat :=
  let e := sget (0, 0, 0) s.flowStat die
  e.1 * 2 ^ 48 + e.2.1 * 2 ^ 24 + e.2.2

/-- A word of bytes that f gives by offset. -/
def wordOfFn (f : Nat → Byte) (off : Nat) : Nat := natOfBytes ((List.range 8).map fun i => f (off + i))

/-- Registers that stand alone, by address; absent ones and write-only ones read as zero. -/
def State.readSingle (s : State) (a : Nat) : Nat :=
  if a == 0x00130000 then s.swapThr
  else if a == 0x00140000 then s.walkCfg.toNat
  else if a == 0x00140008 then s.walkCode.toNat
  else if a == 0x00140010 then s.shoot.toNat % 2 ^ 63 + flagBit s.shootBusy 63
  else if a == 0x00140020 then s.hintBase
  else if a == 0x00140028 then s.hintDrop.toNat * 2 ^ 32 + s.hintHead * 2 ^ 10 + s.hintTail
  else if a == 0x00180000 then s.preempt.toNat % 2 ^ 63 + flagBit s.vacate.isSome 63
  else if a == 0x00180010 then s.faultBase + s.faultFree
  else if a == 0x00182000 then s.ticks
  else if a == 0x001A8008 then s.focusTeam.toNat * 2 ^ 32 + s.focusTid.toNat * 2 ^ 16
  else if a == 0x001C0000 then s.call.toNat % 2 ^ 61 + flagBit s.callErr 61 + flagBit s.callBusy 63
  else if a == 0x001E0000 then s.boot.word
  else if a == 0x001E0010 then natOfBytes (deviceId.take 8)
  else if a == 0x001E0018 then natOfBytes (deviceId.drop 8)
  else if a == 0x001E0020 then s.coord.toNat
  else if a == 0x001F0000 then s.slewLim
  else 0

/-- The value of a package register. -/
def State.readReg (s : State) (a : Nat) : W64 :=
  let w : Option Nat :=
    [ (groupAt 0x00100000 0x40 queueCount a).map fun x => s.readQueue x.1 x.2,
      (groupAt 0x00110000 0x10 ctxCount a).map fun x =>
      if x.2 == 0 then (s.ctx x.1).cfgWord else if x.2 == 8 then (s.ctx x.1).root else 0,
      (groupAt 0x00120000 0x40 ctxCount a).map fun x => ((s.ctx x.1).cores.extractLsb' (8 * x.2) 64).toNat,
      (groupAt 0x00150000 0x40 derivedCount a).map fun x => (s.derivedAt x.1).word x.2,
      (groupAt 0x00160000 0x10 ctxCount a).map fun x => (s.ctx x.1).race.word x.2,
      (groupAt 0x00170000 0x10 dieCount a).map fun x => if x.2 == 0 then s.flowWord x.1 else 0,
      (groupAt 0x00181000 0x10 ctxCount a).map fun x => (s.ctx x.1).trap.word x.2,
      (groupAt 0x00190000 0x10 ctxCount a).map fun x => (s.ctx x.1).acct.word x.2,
      (groupAt 0x00191000 0x10 ctxCount a).map fun x => if x.2 == 0 then (s.ctx x.1).trace.toNat else 0,
      (groupAt 0x001A0000 0x100 ctxCount a).map fun x => (sget .fresh (s.ctx x.1).bps (x.2 / 0x20)).word (x.2 % 0x20),
      (groupAt 0x001D0000 0x10 ctxCount a).map fun x => if x.2 == 0 then (s.ctx x.1).coreDst.toNat else 0,
      (groupAt 0x001E1000 0x1000 2 a).map fun x => wordOfFn (certByte x.1) x.2,
      (groupAt 0x001F0100 8 pairIslands a).map fun x => (s.island x.1).shapeWord.toNat,
      (groupAt 0x001F1000 8 islandCount a).map fun x => (s.island x.1).ctlWord,
      (groupAt 0x001F2000 8 islandCount a).map fun x => (s.island x.1).statWord (s.islandMv x.1) (s.islandMhz x.1) ].findSome? id
  BitVec.ofNat 64 (w.getD (s.readSingle a))

/-! ## Writes -/

/-- QBASE and QSTAMP (R37, R362). -/
def State.writeQueue (s : State) (q off : Nat) (v : W64) : State :=
  if off == 0x00 then s.modQueue q fun x => if x.en then x else { x with base := keepBits v 7 49 }
  else if off == 0x28 then s.modQueue q fun x => { x with stamp := v }
  else s

/-- A ring's two registers: LOST is cleared by ones, TAIL is read only. unit is the number of low bits of BASE that are
zero. -/
def Ring.write (r : Ring) (unit off : Nat) (v : W64) : Ring :=
  if off == 0x00 then { r with base := keepBits v unit (56 - unit), log2n := (v.extractLsb' 0 5).toNat }
  else if off == 0x08 then { r with lost := (BitVec.ofNat 24 r.lost &&& ~~~v.extractLsb' 40 24).toNat, head := (v.extractLsb' 20 20).toNat }
  else r

/-- A derived region descriptor's words but for the one with its flags; none changes while V = 1 (R202). -/
def Derived.write (d : Derived) (off : Nat) (v : W64) : Derived :=
  if d.v then d
  else if off == 0x00 then { d with window := v }
  else if off == 0x08 then { d with length := v }
  else if off == 0x10 then { d with base := v }
  else if off == 0x18 then { d with index := v }
  else if off == 0x20 then { d with stream := v }
  else if off == 0x28 then { d with bytes := v }
  else d

/-- A breakpoint entry's words (R373). -/
def Breakpoint.write (b : Breakpoint) (off : Nat) (v : W64) : Breakpoint :=
  if off == 0x00 then { b with ctl := v &&& 0xE0FFFFFFFFFFFFF8 }
  else if off == 0x08 then { b with launch := (v.extractLsb' 0 32).toNat, team := (v.extractLsb' 32 32).toNat }
  else if off == 0x10 then { b with tid := (v.extractLsb' 0 16).toNat }
  else b

/-- FLOWSTAT: each count is cleared by ones. -/
def State.clearFlow (s : State) (die : Nat) (v : W64) : State :=
  s.modFlow die fun e =>
    ((BitVec.ofNat 16 e.1 &&& ~~~v.extractLsb' 48 16).toNat, (BitVec.ofNat 24 e.2.1 &&& ~~~v.extractLsb' 24 24).toNat,
      (BitVec.ofNat 24 e.2.2 &&& ~~~v.extractLsb' 0 24).toNat)

/-- Registers that stand alone. SLEWLIM and PKGCOORD are the hive's; PKGCOORD is fixed from DONE on (R382, R387, R392). -/
def State.writeSingle (s : State) (who : Writer) (a : Nat) (v : W64) : State :=
  if a == 0x00130000 then { s with swapThr := (v.extractLsb' 0 16).toNat }
  else if a == 0x00140000 then { s with walkCfg := v &&& 0xFFFFFFFFFFFFFFF8 }
  else if a == 0x00140008 then { s with walkCode := v &&& 0x000FFFFFFFFF00FF }
  else if a == 0x00140020 then { s with hintBase := keepBits v 14 38 }
  else if a == 0x00140028 then { s with hintDrop := s.hintDrop &&& ~~~v.extractLsb' 32 32, hintHead := (v.extractLsb' 10 11).toNat }
  else if a == 0x00180010 then { s with faultBase := keepBits v 18 34 }
  else if a == 0x001A8008 then { s with focusTeam := v.extractLsb' 32 32, focusTid := v.extractLsb' 16 16 }
  else if a == 0x001E0008 then { s with boot := { s.boot with recovLen := v.extractLsb' 0 32 } }
  else if a == 0x001E0020 then if who == .hive && !s.boot.done then { s with coord := v.extractLsb' 0 12 } else s
  else if a == 0x001F0000 then
    let lim := (v.extractLsb' 0 9).toNat
    if who == .hive && 10 ≤ lim && lim ≤ 400 then { s with slewLim := lim } else s
  else s

/-- A write of a package register that has no behaviour of its own. -/
def State.writeReg (s : State) (who : Writer) (a : Nat) (v : W64) : State :=
  let r : Option State :=
    [ (groupAt 0x00100000 0x40 queueCount a).map fun x => s.writeQueue x.1 x.2 v,
      (groupAt 0x00110000 0x10 ctxCount a).map fun x =>
      if x.2 == 8 && !(s.ctx x.1).en then s.modCtx x.1 fun c => { c with root := keepBits v 13 39 } else s,
      (groupAt 0x00150000 0x40 derivedCount a).map fun x => s.modDerived x.1 fun d => d.write x.2 v,
      (groupAt 0x00160000 0x10 ctxCount a).map fun x => s.modCtx x.1 fun c => { c with race := c.race.write 6 x.2 v },
      (groupAt 0x00170000 0x10 dieCount a).map fun x => if x.2 == 0 then s.clearFlow x.1 v else s,
      (groupAt 0x00181000 0x10 ctxCount a).map fun x => s.modCtx x.1 fun c => { c with trap := c.trap.write 6 x.2 v },
      (groupAt 0x00190000 0x10 ctxCount a).map fun x => s.modCtx x.1 fun c => { c with acct := c.acct.write 8 x.2 v },
      (groupAt 0x001A0000 0x100 ctxCount a).map fun x => s.modCtx x.1 fun c =>
      { c with bps := sset .fresh c.bps (x.2 / 0x20) ((sget .fresh c.bps (x.2 / 0x20)).write (x.2 % 0x20) v) },
      (groupAt 0x001D0000 0x10 ctxCount a).map fun x =>
      if x.2 == 0 then s.modCtx x.1 fun c => { c with coreDst := v &&& 0xC0FFFFFFFFFFFFFF } else s ].findSome? id
  r.getD (s.writeSingle who a v)

/-- REGISTER_WRITE. -/
def execRegisterWrite (who : Writer) (addr : Nat) (v : W64) (s : State) : Result := .next (s.writeReg who addr v)

end Sys2Proof.Machine
end

