-- ==== Sys2Proof/Machine/Dispatch.lean ====
section
/-! DEFINITION. Dispatch.lean: which meaning each instruction and event has. -/

namespace Sys2Proof.Machine

/-- What an instruction does at the issuing bundle, and what an event does to the package. -/
def exec (i : Instr) (s : State) : Host.Outcome State Fault Refusal :=
  match i with
  | .nop c => Sys2Proof.Machine.execNop c s
  | .bra c off => Sys2Proof.Machine.execBra c off s
  | .brx c a => Sys2Proof.Machine.execBrx c a s
  | .call c d off => Sys2Proof.Machine.execCall c d off s
  | .ret c a => Sys2Proof.Machine.execRet c a s
  | .exit c => Sys2Proof.Machine.execExit c s
  | .reform c => Sys2Proof.Machine.execReform c s
  | .rejoin c => Sys2Proof.Machine.execRejoin c s
  | .yield c => Sys2Proof.Machine.execYield c s
  | .add c d a b t sat => Sys2Proof.Machine.execAdd c d a b t sat s
  | .addI c d a imm => Sys2Proof.Machine.execAddI c d a imm s
  | .sub c d a b t sat => Sys2Proof.Machine.execSub c d a b t sat s
  | .mul c d a b t sat => Sys2Proof.Machine.execMul c d a b t sat s
  | .mulI c d a imm => Sys2Proof.Machine.execMulI c d a imm s
  | .mulhi c d a b t => Sys2Proof.Machine.execMulhi c d a b t s
  | .mad c d a b e t sat => Sys2Proof.Machine.execMad c d a b e t sat s
  | .div c d a b t => Sys2Proof.Machine.execDiv c d a b t s
  | .rem c d a b t => Sys2Proof.Machine.execRem c d a b t s
  | .min c d a b t => Sys2Proof.Machine.execMin c d a b t s
  | .max c d a b t => Sys2Proof.Machine.execMax c d a b t s
  | .abs c d a sat => Sys2Proof.Machine.execAbs c d a sat s
  | .neg c d a t sat => Sys2Proof.Machine.execNeg c d a t sat s
  | .and c d a b => Sys2Proof.Machine.execAnd c d a b s
  | .andI c d a imm => Sys2Proof.Machine.execAndI c d a imm s
  | .or c d a b => Sys2Proof.Machine.execOr c d a b s
  | .orI c d a imm => Sys2Proof.Machine.execOrI c d a imm s
  | .xor c d a b => Sys2Proof.Machine.execXor c d a b s
  | .xorI c d a imm => Sys2Proof.Machine.execXorI c d a imm s
  | .not c d a => Sys2Proof.Machine.execNot c d a s
  | .shl c d a b => Sys2Proof.Machine.execShl c d a b s
  | .shlI c d a imm => Sys2Proof.Machine.execShlI c d a imm s
  | .shr c d a b => Sys2Proof.Machine.execShr c d a b s
  | .shrI c d a imm => Sys2Proof.Machine.execShrI c d a imm s
  | .sar c d a b => Sys2Proof.Machine.execSar c d a b s
  | .sarI c d a imm => Sys2Proof.Machine.execSarI c d a imm s
  | .rot c d a b => Sys2Proof.Machine.execRot c d a b s
  | .rotI c d a imm => Sys2Proof.Machine.execRotI c d a imm s
  | .clz c d a => Sys2Proof.Machine.execClz c d a s
  | .popc c d a => Sys2Proof.Machine.execPopc c d a s
  | .brev c d a => Sys2Proof.Machine.execBrev c d a s
  | .bfe c d a pos len t => Sys2Proof.Machine.execBfe c d a pos len t s
  | .bfi c d a pos len => Sys2Proof.Machine.execBfi c d a pos len s
  | .sel c d a b kc => Sys2Proof.Machine.execSel c d a b kc s
  | .icmp c rel d a b t => Sys2Proof.Machine.execIcmp c rel d a b t s
  | .lea c d a b sh t => Sys2Proof.Machine.execLea c d a b sh t s
  | .add64 c d a b => Sys2Proof.Machine.execAdd64 c d a b s
  | .add64I c d a imm => Sys2Proof.Machine.execAdd64I c d a imm s
  | .mov c d a t => Sys2Proof.Machine.execMov c d a t s
  | .movS c d sa t => Sys2Proof.Machine.execMovS c d sa t s
  | .movi c d imm => Sys2Proof.Machine.execMovi c d imm s
  | .sread c d r => Sys2Proof.Machine.execSread c d r s
  | .swrite c sd a t => Sys2Proof.Machine.execSwrite c sd a t s
  | .fadd c d a b t rnd ftz => Sys2Proof.Machine.execFadd c d a b t rnd ftz s
  | .fsub c d a b t rnd ftz => Sys2Proof.Machine.execFsub c d a b t rnd ftz s
  | .fmul c d a b t rnd ftz => Sys2Proof.Machine.execFmul c d a b t rnd ftz s
  | .fma c d a b e t rnd ftz => Sys2Proof.Machine.execFma c d a b e t rnd ftz s
  | .fmin c d a b t ftz => Sys2Proof.Machine.execFmin c d a b t ftz s
  | .fmax c d a b t ftz => Sys2Proof.Machine.execFmax c d a b t ftz s
  | .fcmp c rel d a b t ftz => Sys2Proof.Machine.execFcmp c rel d a b t ftz s
  | .fclass c d a t => Sys2Proof.Machine.execFclass c d a t s
  | .frnd c d a t rnd => Sys2Proof.Machine.execFrnd c d a t rnd s
  | .fsqrt c d a t rnd ftz => Sys2Proof.Machine.execFsqrt c d a t rnd ftz s
  | .frcp c d a ftz => Sys2Proof.Machine.execFrcp c d a ftz s
  | .frsq c d a ftz => Sys2Proof.Machine.execFrsq c d a ftz s
  | .fexp2 c d a ftz => Sys2Proof.Machine.execFexp2 c d a ftz s
  | .flog2 c d a ftz => Sys2Proof.Machine.execFlog2 c d a ftz s
  | .fsinp c d a ftz => Sys2Proof.Machine.execFsinp c d a ftz s
  | .fcosp c d a ftz => Sys2Proof.Machine.execFcosp c d a ftz s
  | .hadd2 c d a b t rnd ftz => Sys2Proof.Machine.execHadd2 c d a b t rnd ftz s
  | .hmul2 c d a b t rnd ftz => Sys2Proof.Machine.execHmul2 c d a b t rnd ftz s
  | .hfma2 c d a b e t rnd ftz => Sys2Proof.Machine.execHfma2 c d a b e t rnd ftz s
  | .dot4 c d a b e asg bsg sat => Sys2Proof.Machine.execDot4 c d a b e asg bsg sat s
  | .dotts c d a b e ftz => Sys2Proof.Machine.execDotts c d a b e ftz s
  | .cvt c d a dt srcT rnd ovf ftz sc => Sys2Proof.Machine.execCvt c d a dt srcT rnd ovf ftz sc s
  | .cvtts c d a t ftz => Sys2Proof.Machine.execCvtts c d a t ftz s
  | .pack c d a t rnd ovf ftz => Sys2Proof.Machine.execPack c d a t rnd ovf ftz s
  | .unpack c d a j t => Sys2Proof.Machine.execUnpack c d a j t s
  | .blkdRd c d a off sp sc => Sys2Proof.Machine.execBlkdRd c d a off sp sc s
  | .blkdSet c d a off sp sc => Sys2Proof.Machine.execBlkdSet c d a off sp sc s
  | .plog c op d a b inv => Sys2Proof.Machine.execPlog c op d a b inv s
  | .pmov c d a inv => Sys2Proof.Machine.execPmov c d a inv s
  | .pmovTow c d => Sys2Proof.Machine.execPmovTow c d s
  | .pmovFromw c a => Sys2Proof.Machine.execPmovFromw c a s
  | .vote c op d a neg => Sys2Proof.Machine.execVote c op d a neg s
  | .ballot c d a neg => Sys2Proof.Machine.execBallot c d a neg s
  | .shfl c op d a sel => Sys2Proof.Machine.execShfl c op d a sel s
  | .redux c op t d a rnd ftz => Sys2Proof.Machine.execRedux c op t d a rnd ftz s
  | .ld c d a off sz sc na sx => Sys2Proof.Machine.execLd c d a off sz sc na sx s
  | .st c d a off sz sc => Sys2Proof.Machine.execSt c d a off sz sc s
  | .ldc c d sa off sz sx => Sys2Proof.Machine.execLdc c d sa off sz sx s
  | .pref c a off sc => Sys2Proof.Machine.execPref c a off sc s
  | .prefTr c a off sc => Sys2Proof.Machine.execPrefTr c a off sc s
  | .pmigComb c a off sc => Sys2Proof.Machine.execPmigComb c a off sc s
  | .pmigPool c a off sc => Sys2Proof.Machine.execPmigPool c a off sc s
  | .fence c sc => Sys2Proof.Machine.execFence c sc s
  | .tlbfill c a b => Sys2Proof.Machine.execTlbfill c a b s
  | .tlbinvPg c a => Sys2Proof.Machine.execTlbinvPg c a s
  | .tlbinvAsid c => Sys2Proof.Machine.execTlbinvAsid c s
  | .tlbinvAll c => Sys2Proof.Machine.execTlbinvAll c s
  | .wret c a => Sys2Proof.Machine.execWret c a s
  | .atom c op t o sc d a b => Sys2Proof.Machine.execAtom c op t o sc d a b s
  | .cas c t o sc d a b e => Sys2Proof.Machine.execCas c t o sc d a b e s
  | .red c op t o sc a b => Sys2Proof.Machine.execRed c op t o sc a b s
  | .lds c d a off sz sx => Sys2Proof.Machine.execLds c d a off sz sx s
  | .sts c d a off sz => Sys2Proof.Machine.execSts c d a off sz s
  | .sptagLook c d a => Sys2Proof.Machine.execSptagLook c d a s
  | .sptagSet c d a b => Sys2Proof.Machine.execSptagSet c d a b s
  | .sptagClr c d a => Sys2Proof.Machine.execSptagClr c d a s
  | .tcopy c d a b bn sc => Sys2Proof.Machine.execTcopy c d a b bn sc s
  | .tstore c d a b bn sc => Sys2Proof.Machine.execTstore c d a b bn sc s
  | .cseal c batch => Sys2Proof.Machine.execCseal c batch s
  | .cwait c batch => Sys2Proof.Machine.execCwait c batch s
  | .barInit c n a ext => Sys2Proof.Machine.execBarInit c n a ext s
  | .barArrive c n x => Sys2Proof.Machine.execBarArrive c n x s
  | .barWait c n => Sys2Proof.Machine.execBarWait c n s
  | .mma c x a b m => Sys2Proof.Machine.execMma c x a b m s
  | .mmag c x a b m => Sys2Proof.Machine.execMmag c x a b m s
  | .mms c x a b m => Sys2Proof.Machine.execMms c x a b m s
  | .accz c x => Sys2Proof.Machine.execAccz c x s
  | .accld c x a => Sys2Proof.Machine.execAccld c x a s
  | .accst c x a accf fl => Sys2Proof.Machine.execAccst c x a accf fl s
  | .drain c x a b t rnd ovf accf => Sys2Proof.Machine.execDrain c x a b t rnd ovf accf s
  | .waita c d a b eq w64 sc => Sys2Proof.Machine.execWaita c d a b eq w64 sc s
  | .spawn c a => Sys2Proof.Machine.execSpawn c a s
  | .join c a b sc => Sys2Proof.Machine.execJoin c a b sc s
  | .atflush c => Sys2Proof.Machine.execAtflush c s
  | .tbar c sc => Sys2Proof.Machine.execTbar c sc s
  | .txfer c d a b bn pull sc => Sys2Proof.Machine.execTxfer c d a b bn pull sc s
  | .flowReset c key => Sys2Proof.Machine.execFlowReset c key s
  | .syscall c d a code => Sys2Proof.Machine.execSyscall c d a code s
  | .trap c a code resume => Sys2Proof.Machine.execTrap c a code resume s
  | .brk c code => Sys2Proof.Machine.execBrk c code s
  | .mark c a code w64 => Sys2Proof.Machine.execMark c a code w64 s
  | .crd c d r => Sys2Proof.Machine.execCrd c d r s
  | .cwr c a r => Sys2Proof.Machine.execCwr c a r s
  | .clauseFetch bundle => Sys2Proof.Machine.execClauseFetch bundle s
  | .resultLands t k => Sys2Proof.Machine.execResultLands t k s
  | .storePerform core => Sys2Proof.Machine.execStorePerform core s
  | .waitWake t => Sys2Proof.Machine.execWaitWake t s
  | .waitPoll t => Sys2Proof.Machine.execWaitPoll t s
  | .walkLimitExpiry core slot => Sys2Proof.Machine.execWalkLimitExpiry core slot s
  | .regroupAgeExpiry core bin => Sys2Proof.Machine.execRegroupAgeExpiry core bin s
  | .islandIdle island => Sys2Proof.Machine.execIslandIdle island s
  | .rampStep island => Sys2Proof.Machine.execRampStep island s
  | .breakpointHit t bp => Sys2Proof.Machine.execBreakpointHit t bp s
  | .copyBlockLand op blk => Sys2Proof.Machine.execCopyBlockLand op blk s
  | .copyRetire op => Sys2Proof.Machine.execCopyRetire op s
  | .copyPageFault op blk => Sys2Proof.Machine.execCopyPageFault op blk s
  | .transferRetire op => Sys2Proof.Machine.execTransferRetire op s
  | .matrixOpBegin pair => Sys2Proof.Machine.execMatrixOpBegin pair s
  | .matrixOpRetire pair op => Sys2Proof.Machine.execMatrixOpRetire pair op s
  | .mmsStreamComplete pair op => Sys2Proof.Machine.execMmsStreamComplete pair op s
  | .mxFetch pair op why => Sys2Proof.Machine.execMxFetch pair op why s
  | .starvationFlush key => Sys2Proof.Machine.execStarvationFlush key s
  | .qwptrDoorbell q widx => Sys2Proof.Machine.execQwptrDoorbell q widx s
  | .queueEnable q v => Sys2Proof.Machine.execQueueEnable q v s
  | .queueDisable q v => Sys2Proof.Machine.execQueueDisable q v s
  | .queueHaltClear q v => Sys2Proof.Machine.execQueueHaltClear q v s
  | .packetFetch => Sys2Proof.Machine.execPacketFetch s
  | .launchPacket p => Sys2Proof.Machine.execLaunchPacket p s
  | .launchBegin p => Sys2Proof.Machine.execLaunchBegin p s
  | .reuseCopyComplete p => Sys2Proof.Machine.execReuseCopyComplete p s
  | .collPacket p => Sys2Proof.Machine.execCollPacket p s
  | .writePacket p => Sys2Proof.Machine.execWritePacket p s
  | .waitvPacket p => Sys2Proof.Machine.execWaitvPacket p s
  | .waitvTimeout p => Sys2Proof.Machine.execWaitvTimeout p s
  | .fencePacket p => Sys2Proof.Machine.execFencePacket p s
  | .sealPacket p => Sys2Proof.Machine.execSealPacket p s
  | .cancelPacket p => Sys2Proof.Machine.execCancelPacket p s
  | .spawnAccept key => Sys2Proof.Machine.execSpawnAccept key s
  | .dispatchBatch die ctx launch grid => Sys2Proof.Machine.execDispatchBatch die ctx launch grid s
  | .dispatchStart die => Sys2Proof.Machine.execDispatchStart die s
  | .migrationAttempt die => Sys2Proof.Machine.execMigrationAttempt die s
  | .migrationTimeout die => Sys2Proof.Machine.execMigrationTimeout die s
  | .spatialPreempt die => Sys2Proof.Machine.execSpatialPreempt die s
  | .windowReserve die => Sys2Proof.Machine.execWindowReserve die s
  | .swapOut key => Sys2Proof.Machine.execSwapOut key s
  | .swapReadmit key => Sys2Proof.Machine.execSwapReadmit key s
  | .readmitOtherDie key die => Sys2Proof.Machine.execReadmitOtherDie key die s
  | .teamRetire key => Sys2Proof.Machine.execTeamRetire key s
  | .launchComplete ctx launch => Sys2Proof.Machine.execLaunchComplete ctx launch s
  | .ctxEnable ctx v => Sys2Proof.Machine.execCtxEnable ctx v s
  | .ctxTeardown ctx v => Sys2Proof.Machine.execCtxTeardown ctx v s
  | .ctxQuotaChange ctx v => Sys2Proof.Machine.execCtxQuotaChange ctx v s
  | .ctxcoreWrite ctx word v => Sys2Proof.Machine.execCtxcoreWrite ctx word v s
  | .tlbshootPage v => Sys2Proof.Machine.execTlbshootPage v s
  | .tlbshootAsid v => Sys2Proof.Machine.execTlbshootAsid v s
  | .tlbshootAll v => Sys2Proof.Machine.execTlbshootAll v s
  | .tlbshootDone => Sys2Proof.Machine.execTlbshootDone s
  | .derivedRegionValidate n v => Sys2Proof.Machine.execDerivedRegionValidate n v s
  | .derivedRegionInvalidate n v => Sys2Proof.Machine.execDerivedRegionInvalidate n v s
  | .pageMigrate ctx va newPa => Sys2Proof.Machine.execPageMigrate ctx va newPa s
  | .hintDrain => Sys2Proof.Machine.execHintDrain s
  | .hiveTakeEvent syscore replies => Sys2Proof.Machine.execHiveTakeEvent syscore replies s
  | .eventPostDeferred => Sys2Proof.Machine.execEventPostDeferred s
  | .faultRecordDeferred => Sys2Proof.Machine.execFaultRecordDeferred s
  | .faultackReplay group => Sys2Proof.Machine.execFaultackReplay group s
  | .faultackFail group => Sys2Proof.Machine.execFaultackFail group s
  | .faultackCancel group => Sys2Proof.Machine.execFaultackCancel group s
  | .fpWindowClose core ctx launch => Sys2Proof.Machine.execFpWindowClose core ctx launch s
  | .preemptVacate v => Sys2Proof.Machine.execPreemptVacate v s
  | .preemptDone => Sys2Proof.Machine.execPreemptDone s
  | .ctxresume v => Sys2Proof.Machine.execCtxresume v s
  | .corecall v => Sys2Proof.Machine.execCorecall v s
  | .debugAttach ctx => Sys2Proof.Machine.execDebugAttach ctx s
  | .debugDetach ctx => Sys2Proof.Machine.execDebugDetach ctx s
  | .debugStop ctx launch => Sys2Proof.Machine.execDebugStop ctx launch s
  | .debugResume ctx launch => Sys2Proof.Machine.execDebugResume ctx launch s
  | .debugStepFocused ctx launch => Sys2Proof.Machine.execDebugStepFocused ctx launch s
  | .debugStepAll ctx launch => Sys2Proof.Machine.execDebugStepAll ctx launch s
  | .issueshapeWrite island v => Sys2Proof.Machine.execIssueshapeWrite island v s
  | .islctlWrite island v => Sys2Proof.Machine.execIslctlWrite island v s
  | .islandClockChange island => Sys2Proof.Machine.execIslandClockChange island s
  | .tracecfgWrite ctx v => Sys2Proof.Machine.execTracecfgWrite ctx v s
  | .traceSample core ctx => Sys2Proof.Machine.execTraceSample core ctx s
  | .registerWrite who addr v => Sys2Proof.Machine.execRegisterWrite who addr v s
  | .segmentDataReceive seg flips => Sys2Proof.Machine.execSegmentDataReceive seg flips s
  | .segmentNakReceive nak => Sys2Proof.Machine.execSegmentNakReceive nak s
  | .segmentRefreshReceive seg flips => Sys2Proof.Machine.execSegmentRefreshReceive seg flips s
  | .flitReplay seg => Sys2Proof.Machine.execFlitReplay seg s
  | .collMatchReceive p member msg => Sys2Proof.Machine.execCollMatchReceive p member msg s
  | .collStepComplete p step => Sys2Proof.Machine.execCollStepComplete p step s
  | .collTimeout p => Sys2Proof.Machine.execCollTimeout p s
  | .podArrivalReceive p member stamp => Sys2Proof.Machine.execPodArrivalReceive p member stamp s
  | .podBarrierRelease p => Sys2Proof.Machine.execPodBarrierRelease p s
  | .podGroupFile p group => Sys2Proof.Machine.execPodGroupFile p group s
  | .hostMemoryAccess ctx va what => Sys2Proof.Machine.execHostMemoryAccess ctx va what s
  | .uncorrectableError place => Sys2Proof.Machine.execUncorrectableError place s
  | .correctableError => Sys2Proof.Machine.execCorrectableError s
  | .boot e => Sys2Proof.Machine.execBoot e s
  | .recovgo v => Sys2Proof.Machine.execRecovgo v s
  | .freeze => Sys2Proof.Machine.execFreeze s
  | .peerSilenceTimeout px py pz => Sys2Proof.Machine.execPeerSilenceTimeout px py pz s
  | .thermalHot island temp => Sys2Proof.Machine.execThermalHot island temp s
  | .thermalTrip island temp => Sys2Proof.Machine.execThermalTrip island temp s
  | .timerEvent id => Sys2Proof.Machine.execTimerEvent id s

end Sys2Proof.Machine
end

