-- ==== Sys2Proof/Machine/Due.lean ====
section
/-! DEFINITION. Due.lean: time as it passes, with what counts it (R82, R247, R363), and the events of the package itself that
may be due in a state, in the order in which the model tries them. Events of the host, of other packages and of the hive's
own policy come only from the agenda. -/

namespace Sys2Proof.Machine

/-! ## Time accounts (R363) -/

/-- What a launch's tick counts as. -/
inductive TickClass | exec | fault | io | other | place | queued
deriving DecidableEq, Repr

/-- The kind of the group that a thread is parked in. -/
def State.parkedGroup (s : State) (x : Thread) : Option GroupKind :=
  match x.parkedAs with
  | some (.group g) => (s.group? g).map (·.kind)
  | some .fpTrap => some .fp
  | _ => none

/-- Whether a kind of group is a system call's. -/
def GroupKind.isCall (k : GroupKind) : Bool := match k with | .syscall => true | _ => false

/-- The first state of R363 whose test holds. -/
def State.tickClass (s : State) (l : Launch) : TickClass :=
  let ts := s.teamsOf l
  let xs := ts.flatMap (·.threads)
  let runs (x : Thread) : Bool := match x.stat with | .running => true | .binned _ => true | _ => false
  if (ts.filter (·.isResident)).any fun t => t.threads.any runs then .exec
  else if xs.any fun x => match s.parkedGroup x with | some k => !k.isCall | none => false then .fault
  else if xs.any fun x => match s.parkedGroup x with | some k => k.isCall | none => false then .io
  else if l.retired || l.stat == LaunchStat.reusing || xs.any (·.isStopped) then .other
  else if s.stageOf l == some .begun || s.stageOf l == some .reusing then .place
  else .queued

/-- Adds ticks to a launch's account. -/
def Account.count (a : Account) (c : TickClass) (n : Nat) : Account :=
  match c with
  | .exec => { a with exec := a.exec + n }
  | .fault => { a with fault := a.fault + n }
  | .io => { a with io := a.io + n }
  | .other => { a with other := a.other + n }
  | .place => { a with placing := a.placing + n }
  | .queued => a

/-! ## Stalls and waits -/

/-- Whether a block of a stream comes from an expander: it lies in a derived region (R204, R246). -/
def State.expands (s : State) (o : MatOp) : Bool :=
  o.streams.any fun x => match s.sysPlace o.key.ctxId x.2 .read with
    | .ok (.here pa) => inWindows pa
    | .ok (.peer _ _) => false
    | .error _ => false

/-- Whether a pair's engine stands idle, and its next operation is an mms whose B is incomplete for want of a landing permit
or of expander output (R247). -/
def State.starved (s : State) (pair : Nat) (p : Pair) : Bool :=
  !(p.queue.any (·.begun)) && (match p.nextOp? with
    | some o => o.isStream && !o.latched && o.stopped.isNone && (!(s.landing (2 * pair)).contains o.id || s.expands o)
    | none => false)

/-- A team notes since when it has been parked (R81), or could be re-admitted (R82). -/
def State.noteTeam (s : State) (t : Team) : Team :=
  let since (b : Bool) (was : Option Nat) : Option Nat := if b then some (was.getD s.ticks) else none
  { t with parkedSince := since (t.isResident && t.parked) t.parkedSince
           readySince := since (!t.isResident && s.canReadmit t) t.readySince }

/-- TIME PASSES: n eighths of a tick. -/
def State.elapse (s : State) (e : Nat) : State :=
  let later := { s with ticks := (s.now8 + e) / 8, eighth := (s.now8 + e) % 8 }
  let n := later.ticks - s.ticks
  { later with
    teams := s.teams.map s.noteTeam
    launches := s.launches.map fun l => { l with account := l.account.count (s.tickClass l) n }
    pairs := s.pairs.map fun p =>
      let cycles := later.islandCycle p.1 - s.islandCycle p.1
      (p.1, if s.starved p.1 p.2 then { p.2 with mxpstall := p.2.mxpstall + BitVec.ofNat 64 cycles } else p.2) }

/-- Time passes: n ticks. -/
def State.tick (s : State) (n : Nat) : State := s.elapse (8 * n)

/-! ## Events that may be due -/

/-- Events of threads and their units. -/
def State.threadEvents (s : State) : List Instr :=
  s.teams.flatMap fun t =>
    let name (x : Thread) : ThreadName := { key := t.key, tid := x.tid }
    (t.threads.flatMap fun x =>
      (x.pend.filterMap fun p => if p.value.isSome then some (Instr.resultLands (name x) p.id) else none)
        ++ (match x.parkedAs with
            | some (.memory w) => [if w.polled then Instr.waitPoll (name x) else Instr.waitWake (name x)]
            | _ => []))
      ++ (if s.starves t then [Instr.starvationFlush t.key] else [])

/-- Breakpoints that bundles stand at. -/
def State.breakEvents (s : State) : List Instr :=
  s.bundles.flatMap fun b => match b.key with
    | .walker _ _ => []
    | .user ctx _ _ => (s.ctx ctx).bps.flatMap fun e =>
        ((s.breaking b e.1).take 1).map fun t => Instr.breakpointHit { key := b.key, tid := t } e.1

/-- Events of cores and islands. -/
def State.coreEvents (s : State) : List Instr :=
  (s.cores.flatMap fun c =>
    (if c.2.fifo.isEmpty then [] else [Instr.storePerform c.1])
      ++ (c.2.walks.map fun w => Instr.walkLimitExpiry c.1 w.slot)
      ++ (c.2.bins.map fun b => Instr.regroupAgeExpiry c.1 b.idx)
      ++ (c.2.windows.map fun w => Instr.fpWindowClose c.1 w.ctx w.launch))
    ++ (((s.bundles.map fun b => pairOf (s.coreOf b.key)) ++ (s.islands.map (·.1)).filter (· < pairIslands)).eraseDups.flatMap
        fun i => [Instr.rampStep i, Instr.islandIdle i])
    ++ (s.islands.map fun i => Instr.islandClockChange i.1)

/-- Events of copies and transfers. -/
def State.moveEvents (s : State) : List Instr :=
  s.moves.flatMap fun m =>
    (m.left.flatMap fun b => [Instr.copyBlockLand m.id b, Instr.copyPageFault m.id b])
      ++ [Instr.copyRetire m.id, Instr.transferRetire m.id]

/-- Events of the matrix engines. -/
def State.matrixEvents (s : State) : List Instr :=
  (s.pairs.flatMap fun p =>
    (p.2.queue.flatMap fun o =>
      (if o.begun then [Instr.matrixOpRetire p.1 o.id] else [])
        ++ (if o.isStream && !o.latched then [Instr.mmsStreamComplete p.1 o.id, .mxFetch p.1 o.id .prot, .mxFetch p.1 o.id .cancel] else [])
        ++ (match s.readStream o with | .error (.machine, _) => [Instr.mxFetch p.1 o.id .streamError] | _ => []))
      ++ [Instr.matrixOpBegin p.1])
    ++ (s.teams.filter (·.killed.isSome)).map fun t =>
        if t.desc.matrix then Instr.mxFetch (pairOf t.core) s.nextOp .latchError else Instr.uncorrectableError (.teamState t.key)

/-- Whether a hub's peer links reach the package's outside: its own, or, over the link between the hubs, those of the other one. -/
def State.linksOut (s : State) (hub : Nat) : Bool :=
  linkFns.any (s.hubServes hub)
    || (s.hubServes 0 hubLinkFn && s.hubServes 1 hubLinkFn && linkFns.any (s.hubServes (1 - hub)))
/-- Whether the islands on a segment's way run: the hub ports and ring segments of each end in this package, and, where the other
end is a peer, a peer link (R389; log entry 71, DEDUCED). -/
def State.carries (s : State) (g : Segment) : Bool :=
  let port (c : Coord) : Bool := !s.isOurs c || s.hubServes (coordDie c / 4) ringFn
  let out (a b : Coord) : Bool := s.isOurs b || !s.isOurs a || s.linksOut (coordDie a / 4)
  port g.src && port g.dst && out g.src g.dst && out g.dst g.src

/-- Events of the links. -/
def State.linkEvents (s : State) : List Instr :=
  (s.segments.filter s.carries).map fun g => match g.kind with
    | .data => Instr.segmentDataReceive (.sent g.id) []
    | .nak => .segmentNakReceive g.id
    | .refresh => .segmentRefreshReceive (.sent g.id) []

/-- Match messages that have been sent to a packet's member. -/
def State.matchEvents (s : State) (p : Packet) : List Instr :=
  match p.coll with
  | none => []
  | some c => p.others.filterMap fun m => (s.sentMatch? p c.number m).map fun msg => Instr.collMatchReceive p.name m msg

/-- Arrival stamps that a pod barrier's member has still to take: those that came early, and those of members in this package
(R326). -/
def State.stampEvents (s : State) (p : Packet) : List Instr :=
  match p.coll with
  | none => []
  | some c => (p.others.filter fun m => p.isPod && !c.stamps.any fun e => e.1 == m).filterMap fun m =>
    let here : Option Nat := do
      let q ← s.collPeer? p.ctx p.rankBytes c.number m
      (← q.coll).stamps.find? (·.1 == m) |>.map (·.2)
    (((p.early.find? (·.1 == m)).map (·.2)).orElse fun _ => here).map (Instr.podArrivalReceive p.name m)

/-- Events of packets. -/
def State.packetEvents (s : State) : List Instr :=
  if !s.fnRuns frontEndFn then []
  else (s.packets.filter (·.open)).flatMap fun p =>
    match p.kind with
    | 1 => [Instr.launchPacket p.name, .reuseCopyComplete p.name] ++ (if s.fnRuns hashFn then [.launchBegin p.name] else [])
    | 2 => [Instr.collPacket p.name] ++ s.matchEvents p ++ s.stampEvents p
        ++ [.collStepComplete p.name ((p.coll.map (·.step)).getD 0), .podBarrierRelease p.name, .collTimeout p.name]
    | 3 => [.writePacket p.name]
    | 4 => [.waitvPacket p.name, .waitvTimeout p.name]
    | 5 => [.fencePacket p.name]
    | 6 => [.sealPacket p.name]
    | _ => [.cancelPacket p.name]

/-- Events of launches, grids and teams. -/
def State.launchEvents (s : State) : List Instr :=
  (s.launches.flatMap fun l =>
    (if s.fnRuns frontEndFn && s.fnRuns hashFn then [Instr.launchComplete l.ctx l.id] else []) ++ (l.grids.flatMap fun g =>
      if l.running && g.counter < g.teams then (List.range dieCount).map fun d => Instr.dispatchBatch d l.ctx l.id g.id else []))
    ++ (if s.fnRuns frontEndFn then s.spawnTurn?.toList.map Instr.spawnAccept else [])
    ++ (s.teams.flatMap fun t =>
      (if t.liveTids.isEmpty then [Instr.teamRetire t.key] else [])
        ++ (if t.isResident then [Instr.swapOut t.key]
            else Instr.swapReadmit t.key :: (List.range dieCount).map (Instr.readmitOtherDie t.key)))

/-- Events of the distributors. -/
def State.dieEvents (s : State) : List Instr :=
  if s.launches.isEmpty then []
  else (List.range dieCount).flatMap fun d =>
    Instr.dispatchStart d ::
      (if (s.die d).waiting.isEmpty then []
       else [.migrationAttempt d, .migrationTimeout d, .spatialPreempt d, .windowReserve d])

/-- Events of the hive and of its registers. -/
def State.hiveEvents (s : State) : List Instr :=
  (if s.deferred.isEmpty || !s.fnRuns frontEndFn then [] else [Instr.eventPostDeferred])
    ++ (if s.groups.isEmpty then [] else [.faultRecordDeferred])
    ++ (if s.events.isEmpty then []
        else ([0, 1].filter fun h => s.hubServes h syscoreFn).map fun h => .hiveTakeEvent (syscoresPerHub * h) [])
    ++ (if s.vacate.isSome then [.preemptDone] else [])
    ++ (if s.shootBusy then [.tlbshootDone] else [])
    ++ (s.pods.flatMap fun p => (List.range podGroups).map (Instr.podGroupFile p.pkt))
    ++ (if s.fnRuns frontEndFn then [.packetFetch] else [])

/-- Steps of a boot that need nothing from outside (R383). -/
def State.bootEvents (s : State) : List Instr :=
  match s.boot.stage with
  | .check => [.boot .check]
  | .load => [.boot .load]
  | .train => [.boot .train]
  | .last => [.boot .finish]
  | .test => []
  | .flash => []
  | .waiting => []

/-- Events that come after every word of their cycle: samples (R367). -/
def State.lateCandidates (s : State) : List Instr :=
  s.teams.filterMap fun t => match t.key with
    | .user ctx _ _ => if s.sampleDue t.core ctx then some (Instr.traceSample t.core ctx) else none
    | .walker _ _ => none

/-- Every other event that may be due, in the order in which it is tried. -/
def State.candidates (s : State) : List Instr :=
  s.breakEvents ++ s.threadEvents ++ s.coreEvents ++ s.moveEvents ++ s.matrixEvents ++ s.linkEvents ++ s.packetEvents
    ++ s.launchEvents ++ s.dieEvents ++ s.hiveEvents ++ s.bootEvents

end Sys2Proof.Machine
end

