-- ==== Sys2Proof/Machine/Step.lean ====
section
/-! DEFINITION. Step.lean: one step of the package: the next turn of the agenda, or, with an empty agenda, an event that
is due, a word or a fetch of the bundle whose turn it is, or an eighth of a tick of time. -/

namespace Sys2Proof.Machine

/-- Issues the next word of a bundle that holds a clause: what it decodes to, or ILL (R97, R99). -/
def issueWord (s : State) (id : Nat) (c : Clause) : Host.Outcome State Fault Refusal :=
  let w := c.words.getD c.idx 0
  let s := { s with focus := some id }
  match decode w with
  | some i => exec i s
  | none => issueIllegal (Fields.ofWord w).pr ((Fields.ofWord w).pn == 1) (Fields.ofWord w).st s

/-- A bundle's turn: the next word of its clause, or the fetch of its next one. -/
def bundleTurn (s : State) (b : Bundle) : Host.Outcome State Fault Refusal :=
  match b.clause with
  | some c => issueWord s b.id c
  | none => exec (.clauseFetch b.id) s

/-- A turn of the agenda. The turn of a bundle that may not issue passes. -/
def takeTurn (t : Turn) (s : State) : Host.Outcome State Fault Refusal :=
  match t with
  | .event i => exec i s
  | .tick n => .next (s.tick n)
  | .issue id => match s.bundle? id with
    | some b => if s.canIssue b then bundleTurn s b else .next s
    | none => .next s

/-- The first of some events that is due: exec of it answers another state. -/
def firstDue (s : State) (l : List Instr) : Option Instr :=
  l.find? fun i => match exec i s with
    | .next s' => s' != s
    | .fault _ => false
    | .refused _ => false

/-- Whether an event may happen while the clocks stand still: only the release of reset (R378, R383, R391). -/
def Turn.isReset (t : Turn) : Bool :=
  match t with
  | .event (.boot .release) => true
  | _ => false

/-- One step: a turn of the agenda; with an empty agenda, the event that is due, else the turn of the bundle that the stamp
rule chooses, else a sample, else an eighth of a tick of time. A package that FREEZE has stopped, or that has lost its power, does nothing but begin
anew (R378, R391). -/
def step (s : State) : Host.Outcome State Fault Refusal :=
  match s.agenda with
  | t :: rest =>
    if (s.frozen || !s.powered) && !t.isReset then .next { s with agenda := rest } else takeTurn t { s with agenda := rest }
  | [] =>
    if s.frozen || !s.powered then .next s
    else
      match firstDue s s.candidates with
      | some i => exec i s
      | none => match s.readyBundle with
        | some b => bundleTurn s b
        | none => match firstDue s s.lateCandidates with
          | some i => exec i s
          | none => .next (s.elapse 1)

/-- The state with one instruction stored where the next step issues it. -/
def State.withFetchWord (s : State) (nbits w : Nat) : State :=
  s.placeWord (wordOfBytes (bytesOfWord (BitVec.ofNat 64 (w % 2 ^ nbits))))

end Sys2Proof.Machine
end

