-- ==== Sys2Proof/Safety.lean ====
section
/-! DEFINITION. Safety.lean: what counts as a safe step and a safe run, and the terms in which claims are made: when a word
may issue, and what its issue leaves. -/

namespace Sys2Proof.Machine

/-! ## Runs -/

/-- The machine goes on from a state. -/
def State.GoesOn (s : State) : Prop := ∃ t, step s = .next t

/-- States that a machine can come to from a state in a number of steps. -/
inductive Reaches : Nat → State → State → Prop
  | start (s : State) : Reaches 0 s s
  | step {n : Nat} {s t u : State} (h : Reaches n s t) (h' : Machine.step t = .next u) : Reaches (n + 1) s u

/-- A run is safe for a number of steps when the machine goes on from every state on the way. -/
def SafeFor (n : Nat) (s : State) : Prop := ∀ m t, m < n → Reaches m s t → t.GoesOn

/-! ## An invariant -/

/-- The four memories are in their canonical form. -/
abbrev State.MemoryWf (s : State) : Prop :=
  Memory.wf s.mem = true ∧ swf plainDescr s.descs = true ∧ Memory.wf s.peerMem = true ∧ swf plainDescr s.peerDescs = true

/-- The tables of units are in their canonical form. -/
structure State.TablesWf (s : State) : Prop where
  cores : swf Core.fresh s.cores = true
  pairs : swf Pair.fresh s.pairs = true
  ctxs : swf Ctx.fresh s.ctxs = true
  queues : swf Queue.fresh s.queues = true
  islands : swf Island.fresh s.islands = true
  dies : swf Die.fresh s.dies = true
  derived : swf Derived.fresh s.derived = true
  signer : swf 0 s.signer = true

/-- Every bundle names at least one thread, and each of its threads once (R112). -/
def State.BundlesWf (s : State) : Prop := ∀ b ∈ s.bundles, b.tids ≠ [] ∧ b.tids.Nodup

/-- Every thread's registers are in their canonical form. -/
def State.RegsWf (s : State) : Prop := ∀ t ∈ s.teams, ∀ x ∈ t.threads, swf 0 x.regs = true

/-- What every step keeps. -/
structure State.Inv (s : State) : Prop where
  memory : s.MemoryWf
  tables : s.TablesWf
  bundles : s.BundlesWf
  regs : s.RegsWf

/-! ## When a word may issue -/

/-- The threads of the issuing bundle that a word acts on (R90). -/
def Issuer.on (i : Issuer) (w : OpWord) : List Thread := i.ts.filter (selects w.c)

/-- The bundle i is the one in focus and may issue the word now: its header's waits are over (R85), the word is legal where
it stands (R86, R90, R91), no thread it acts on waits for a pending result (R104) or breaks the checking scoreboard
(R105), none of the bundle waits for a float result that may trap (R163), and a live thread of the bundle has not arrived at the team barrier, as none that issues has (R288). -/
structure MayIssue (s : State) (i : Issuer) (w : OpWord) : Prop where
  issuer : s.issuer? = some i
  bundle : i.b.tids ≠ [] ∧ i.b.tids.Nodup
  header : i.cl.begun = true ∨ s.headerReady i.t i.ts i.cl = true
  legal : w.illegal i.cl i.t.desc.wregs = false
  free : ∀ x ∈ i.on w, s.mustWait i.b.key w.slots x = false
  past : ∀ x ∈ i.ts, s.fpHolds i.b.key x = false
  long : ∀ x ∈ i.on w, s.checking i.b.key i.cl = true → x.short (w.guard ++ w.slots) = false
  running : ∃ x ∈ i.ts, x.live = true ∧ ∀ a ∈ i.t.tbarIn, a.1 ≠ x.tid

/-- A lane instruction's row meeting is over as well (R130). -/
structure MayIssueLane (s : State) (i : Issuer) (w : OpWord) : Prop extends MayIssue s i w where
  met : i.b.met = true

/-- The word acts on one thread alone. -/
structure MayIssueOne (s : State) (i : Issuer) (w : OpWord) (x : Thread) : Prop extends MayIssue s i w where
  one : i.on w = [x]

/-- The issuer's threads as the word finds them: the first word of a clause has counted the header's waits (R228). -/
def Issuer.begin (i : Issuer) (x : Thread) : Thread :=
  if i.cl.begun then x else (bitsOf i.cl.bwait).foldl Thread.bumpWp x

/-- Where a word issues. -/
def Issuer.site (i : Issuer) (w : OpWord) : Site :=
  { b := i.b, cl := { i.cl with begun := true }, key := i.b.key, core := i.t.core, pc := i.cl.wordPc,
    on := (i.on w).map i.begin }

/-! ## What the issue of a word leaves -/

/-- Everything a thread holds but what scheduling decides: whether it runs, and the clause it keeps. -/
def Thread.data (x : Thread) : Thread := { x with stat := .running, clause := none, stopNext := false }

/-- Everything of a team but its threads, with the time since which it has been parked. -/
def Team.rest (t : Team) : Team := { t with threads := [], parkedSince := none }

/-- A team as its threads' data and everything else of it. -/
def Team.data (t : Team) : Team := { t.rest with threads := t.threads.map Thread.data }

/-- Everything of a core but its regroup bins and its issue slots. -/
def Core.rest (c : Core) : Core := { c with bins := [], slots := [] }

/-- The clause after one of its words, reg being what a regroup word asks of its end (R86, R123, R124). -/
def Issuer.next (i : Issuer) (w : OpWord) (reg : Clause → Clause) : Clause :=
  reg { i.cl with begun := true, idx := i.cl.idx + 1, grouped := i.cl.grouped || w.regroup }

/-- THE ISSUE OF A WORD. From the state s, in which the word has done what it does to the units of the machine, to t: each
thread named in acts takes its result and its next PC; the other threads of the bundle go on to the next word; their
delayed-write windows advance by the stall count and one, and none issues again before so many cycles have passed (R100 to
R103); the bundle goes on to the clause's next word;
and nothing else changes but what the issuing unit keeps. -/
structure Issued (s t : State) (i : Issuer) (w : OpWord) (reg : Clause → Clause) (acts : List (Nat × Done)) : Prop where
  frame : t = { s with teams := t.teams, bundles := t.bundles, nextBundle := t.nextBundle, cores := t.cores,
                       islands := t.islands }
  acted : ∀ a ∈ acts, ∀ x, s.thread? i.b.key a.1 = some x →
    (t.thread? i.b.key a.1).map Thread.data = some (x.issued a.2 w.c.st.toNat (i.next w reg).wordPc (s.cycle i.t.core)).data
  idle : ∀ tid ∈ i.b.tids, (∀ a ∈ acts, a.1 ≠ tid) → ∀ x, s.thread? i.b.key tid = some x →
    (t.thread? i.b.key tid).map Thread.data = some (x.issued {} w.c.st.toNat (i.next w reg).wordPc (s.cycle i.t.core)).data
  others : ∀ tid, tid ∉ i.b.tids → (t.thread? i.b.key tid).map Thread.data = (s.thread? i.b.key tid).map Thread.data
  team : (t.team? i.b.key).map Team.rest = (s.team? i.b.key).map Team.rest
  elsewhere : ∀ k, k ≠ i.b.key → (t.team? k).map Team.data = (s.team? k).map Team.data
  cores : swf Core.fresh s.cores = true → ∀ n, (t.core n).rest = (s.core n).rest
  bundle : (i.next w reg).atEnd = false → i.b.single = false →
    t.bundle? i.b.id = some { i.b with
      clause := some (i.next w reg), held := false, waits := [], notes := [], met := false }

/-- A word with no request of the clause's end. -/
abbrev noRegroup : Clause → Clause := id

/-- A word whose effect on each thread is f of that thread alone. -/
def IssuedEach (s t : State) (i : Issuer) (w : OpWord) (f : Thread → Done) : Prop :=
  Issued (s.beginClause i) t i w noRegroup ((i.on w).map fun x => (x.tid, f (i.begin x)))

/-- exec answers a next state, of which P holds. -/
def Answers (r : Result) (P : State → Prop) : Prop := ∃ t, r = .next t ∧ P t

/-- A fixed-latency write to a destination (R101). -/
abbrev Done.writes (d : Dest) (v : W64) (lat : Nat) : Done := { write := some (d, v, lat) }
/-- A variable-latency result (R104). -/
abbrev Done.brings (r : Reg) (ws : List W32) (kind : PendKind) : Done :=
  { pend := some (r.toNat, ws.length, some ws, kind) }

/-- Wherever the bundle in focus may issue the word w, exec of the instruction n answers a next state in which the word
has issued, with the effect f on each thread it acts on. -/
def IssuesEach (s : State) (i : Issuer) (w : OpWord) (n : Instr) (f : Thread → Done) : Prop :=
  MayIssue s i w → Answers (exec n s) fun t => IssuedEach s t i w f
/-- The same of a lane instruction. -/
def IssuesLane (s : State) (i : Issuer) (w : OpWord) (n : Instr) (f : Thread → Done) : Prop :=
  MayIssueLane s i w → Answers (exec n s) fun t => IssuedEach s t i w f
/-- The same of a word that acts on the thread x alone, with the effect d on it, and that leaves the units of the machine
as in u. -/
def IssuesOne (s : State) (i : Issuer) (w : OpWord) (x : Thread) (n : Instr) (u : State) (d : Done) : Prop :=
  MayIssueOne s i w x → Answers (exec n s) fun t => Issued u t i w noRegroup [(x.tid, d)]

end Sys2Proof.Machine
end

