-- ==== Sys2Proof/Certificates/Slice0/Obligations.lean ====
section
/-! DEFINITION. Obligations.lean: the statements about this machine that are to be proved, and the spec's own formulas that
they use. The terms of issue are those of Safety.lean: MayIssue says when a word may issue, Issued what its issue leaves. -/

namespace Sys2Proof.Claims
open Sys2Proof Sys2Proof.Machine

/-! ## Formulas of the rules -/

/-- v(x) of R167. -/
def v (t : ITy) (x : W32) : Int := match t with | .s32 => x.toInt | .n32 => x.toNat
/-- fin(x) of R167. -/
def fin (t : ITy) (sat : Bool) (x : Int) : W32 :=
  BitVec.ofInt 32 (if sat then (match t with
    | .s32 => max (-2147483648) (min 2147483647 x)
    | .n32 => max 0 (min 4294967295 x)) else x)
/-- q of R168. -/
def quotient (t : ITy) (a b : W32) : W32 :=
  if b = 0 then 0xFFFFFFFF
  else if t = .s32 ∧ a = 0x80000000 ∧ b = 0xFFFFFFFF then 0x80000000
  else BitVec.ofInt 32 ((v t a).tdiv (v t b))
/-- rest of R168. -/
def rest (t : ITy) (a b : W32) : W32 :=
  if b = 0 then a
  else if t = .s32 ∧ a = 0x80000000 ∧ b = 0xFFFFFFFF then 0
  else BitVec.ofInt 32 (v t a - (v t a).tdiv (v t b) * v t b)
/-- The shifts of R169 by n. -/
def shl (x : W32) (n : Nat) : W32 := if 32 ≤ n then 0 else x <<< n
def shr (x : W32) (n : Nat) : W32 := if 32 ≤ n then 0 else x >>> n
def sar (x : W32) (n : Nat) : W32 := if 32 ≤ n then (if x.msb then BitVec.allOnes 32 else 0) else x.sshiftRight n
def rot (x : W32) (n : Nat) : W32 := x.rotateLeft (n % 32)
/-- bfe of R169. -/
def bfe (t : ITy) (x : W32) (pos len : Nat) : W32 :=
  match t with
  | .s32 => (x.extractLsb' pos len).signExtend 32
  | .n32 => (x.extractLsb' pos len).setWidth 32
/-- bfi of R169, bit by bit. -/
def bfi (old x : W32) (pos len : Nat) : W32 :=
  BitVec.ofNat 32 (((List.range 32).map fun k =>
    if (if pos ≤ k ∧ k < pos + len then x.getLsbD (k - pos) else old.getLsbD k) then 2 ^ k else 0).sum)
/-- A register or a pair, by the width of the type, as R170 compares it. -/
def v64 (t : WTy) (x : Thread) (r : Reg) : Int :=
  match t with
  | .s32 => (x.reg r.toNat).toInt
  | .n32 => (x.reg r.toNat).toNat
  | .s64 => (x.pair r.toNat).toInt
  | .n64 => (x.pair r.toNat).toNat
/-- The relations of R165. -/
def holds (r : IRel) (a b : Int) : Bool :=
  match r with
  | .eq => decide (a = b) | .ne => decide (a ≠ b) | .lt => decide (a < b) | .le => decide (a ≤ b)
  | .gt => decide (a > b) | .ge => decide (a ≥ b)
/-- The slots of a register or a pair. -/
def slots (wide : Bool) (r : Reg) : List Nat := if wide then [r.toNat, r.toNat + 1] else [r.toNat]
/-- A register or a pair as a destination. -/
def dest (wide : Bool) (r : Reg) : Dest := if wide then .pair r.toNat else .reg r.toNat
/-- A truth value as a predicate takes it. -/
def truth (b : Bool) : W64 := if b then 1 else 0
/-- The special registers of R173, for thread tid of team t in grid g of launch l. -/
def special (s : State) (l : Launch) (g : Grid) (t : Team) (tid : Nat) (r : SReg) : Nat :=
  match r with
  | .tidX => tid % t.desc.tx
  | .tidY => tid / t.desc.tx % t.desc.ty
  | .tidZ => tid / (t.desc.tx * t.desc.ty)
  | .teamX => t.index % g.gx
  | .teamY => t.index / g.gx % g.gy
  | .teamZ => t.index / (g.gx * g.gy)
  | .gridX => g.gx
  | .gridY => g.gy
  | .gridZ => g.gz
  | .lane => tid % 32
  | .core => t.core
  | .lcore => if l.det then t.index % l.lcores else 0xFFFFFFFF
  | .die => t.core / 40
  | .launch => l.id
  | .depth => t.depth
  | .swarm => t.swarmIdx
  | .time => s.ticks
  | .clock => s.cycle t.core
/-- The special registers that a pure launch traps on (R61, R173). -/
def runSpecific : List SReg := [.core, .die, .time, .clock, .launch]
/-- Whether none of a word's threads raises a flag that its launch traps on (R163). -/
abbrev noFlag (s : State) (i : Issuer) (w : OpWord) (r : Thread → FpFlags) : Prop :=
  ∀ x ∈ i.on w, (r x).bits &&& s.fptrap i.b.key = 0
/-- Element k of a packed register. -/
def half (x : W32) (k : Nat) : Nat := (x.extractLsb' (16 * k) 16).toNat
/-- Byte k of a register. -/
def byte (x : W32) (k : Nat) : Nat := (x.extractLsb' (8 * k) 8).toNat
/-- Byte k as s8 or n8. -/
def byteInt (signed : Bool) (x : W32) (k : Nat) : Int :=
  if signed then (x.extractLsb' (8 * k) 8).toInt else (x.extractLsb' (8 * k) 8).toNat
/-- One addition of dot4: it wraps, or clamps (R181). -/
def add32 (sat : Bool) (a b : Int) : Int :=
  if sat then max (-2147483648) (min 2147483647 (a + b)) else (BitVec.ofInt 32 (a + b)).toInt
/-- The target of a direct branch: off26 counts 8-byte units from the clause header (R120). -/
def target (i : Issuer) (off : BitVec 26) : Nat := (((i.cl.hdr : Int) + 8 * off.toInt) % 2 ^ 64).toNat
/-- What R120 asks of a target. -/
abbrev goodTarget (s : State) (i : Issuer) (a : Nat) : Prop := a % 8 = 0 ∧ a < 2 ^ 56 ∧ s.inCode i.b.key a = true

/-- The word's one thread traps, and r is what the word's issue answers. From u, which the word's checks have left: the
thread parks at the word with its registers as they were, the one member of a new fault group with one record of the
cause, kind and address (R329 to R331). -/
def TrapsAs (s : State) (i : Issuer) (w : OpWord) (x : Thread) (r : Result) (u : State) (cause : Cause) (kind addr : Nat) :
    Prop :=
  MayIssueOne s i w x → i.b.key.isWalker = false → i.b.single = false → (s.core i.t.core).bins = [] →
  swf Core.fresh s.cores = true → ∀ z, u.thread? i.b.key x.tid = some z → z.reissue = none →
  Answers r fun t =>
    (∃ y, t.thread? i.b.key x.tid = some y ∧ y.stat = .parked (.group u.nextGroup) ∧ y.pc = i.cl.wordPc
      ∧ y.regs = z.regs ∧ y.preds = z.preds)
    ∧ ∃ g ∈ t.groups, g.id = u.nextGroup ∧ g.members = [x.tid]
      ∧ g.records.map (fun r => (r.cause, r.kind, r.addr)) = [(cause, kind, addr)]
/-- The same of an instruction. -/
def TrapsOne (s : State) (i : Issuer) (w : OpWord) (x : Thread) (n : Instr) (u : State) (cause : Cause) (kind addr : Nat) :
    Prop := TrapsAs s i w x (exec n s) u cause kind addr

/-- The word's one thread parks at the word and leaves the bundle, to issue it again; u is the state with what the word
has done before. -/
def ParksOne (s : State) (i : Issuer) (w : OpWord) (x : Thread) (n : Instr) (u : State) (park : Park) : Prop :=
  MayIssueOne s i w x → i.b.single = false → (s.core i.t.core).bins = [] → swf Core.fresh s.cores = true →
  Answers (exec n s) fun t => ∃ y z, u.thread? i.b.key x.tid = some z ∧ t.thread? i.b.key x.tid = some y
    ∧ y.stat = .parked park ∧ y.pc = i.cl.wordPc ∧ y.regs = z.regs ∧ y.preds = z.preds ∧ y.win = z.win

/-- No slot of the fault ring lies where a write would count as a write to a launch's code (R64, R109). -/
def ringApart (s : State) (l : Launch) : Prop :=
  ∀ a, s.faultBase ≤ a → a < s.faultBase + 64 * 4096 → ∀ p ∈ l.codePages, s.touches (.here a) 64 p = false

/-- An event whose condition does not hold: it does not occur, and the state is as it was. -/
def Stays (n : Instr) (s : State) : Prop := exec n s = .next s
/-- An event, or a word, takes s to t. -/
def Goes (n : Instr) (s t : State) : Prop := exec n s = .next t

end Sys2Proof.Claims

open Sys2Proof Sys2Proof.Machine Sys2Proof.Claims

/-! ## Integer instructions -/

/-- R167: the arithmetic instructions, with their latencies. -/
def Obligations.IntegerArithmetic : Prop :=
  ∀ (s : State) (i : Issuer) (c : Ctl) (d a b e : Reg) (t : ITy) (sat : Bool) (imm : BitVec 26),
    let w2 := vecWord c [a.toNat, b.toNat] [d.toNat]
    let w1 := vecWord c [a.toNat] [d.toNat]
    let put (lat : Nat) (x : W32) : Done := .writes (.reg d.toNat) (x.setWidth 64) lat
    let A (x : Thread) := x.reg a.toNat
    let B (x : Thread) := x.reg b.toNat
    IssuesEach s i w2 (.add c d a b t sat) (fun x => put 4 (fin t sat (v t (A x) + v t (B x))))
      ∧ IssuesEach s i w2 (.sub c d a b t sat) (fun x => put 4 (fin t sat (v t (A x) - v t (B x))))
      ∧ IssuesEach s i w2 (.mul c d a b t sat) (fun x => put 6 (fin t sat (v t (A x) * v t (B x))))
      ∧ IssuesEach s i (vecWord c [a.toNat, b.toNat, e.toNat] [d.toNat]) (.mad c d a b e t sat)
          (fun x => put 6 (fin t sat (v t (A x) * v t (B x) + v t (x.reg e.toNat))))
      ∧ IssuesEach s i w2 (.mulhi c d a b t) (fun x => put 6 (BitVec.ofInt 32 ((v t (A x) * v t (B x)) / 2 ^ 32)))
      ∧ IssuesEach s i w2 (.min c d a b t) (fun x => put 4 (if v t (A x) ≤ v t (B x) then A x else B x))
      ∧ IssuesEach s i w2 (.max c d a b t) (fun x => put 4 (if v t (B x) ≤ v t (A x) then A x else B x))
      ∧ IssuesEach s i w1 (.abs c d a sat) (fun x => put 4 (fin .s32 sat |v .s32 (A x)|))
      ∧ IssuesEach s i w1 (.neg c d a t sat) (fun x => put 4 (fin t sat (-v t (A x))))
      ∧ IssuesEach s i w1 (.addI c d a imm) (fun x => put 4 (BitVec.ofInt 32 ((A x).toNat + imm.toInt)))
      ∧ IssuesEach s i w1 (.mulI c d a imm) (fun x => put 6 (BitVec.ofInt 32 ((A x).toNat * imm.toInt)))

/-- R168: div truncates toward zero and rem takes the sign of the dividend; neither traps, on any operands. -/
def Obligations.IntegerDivision : Prop :=
  ∀ (s : State) (i : Issuer) (c : Ctl) (d a b : Reg) (t : ITy),
    let w := vecWord c [a.toNat, b.toNat] [d.toNat]
    IssuesEach s i w (.div c d a b t) (fun x => .brings d [quotient t (x.reg a.toNat) (x.reg b.toNat)] .arith)
      ∧ IssuesEach s i w (.rem c d a b t) (fun x => .brings d [rest t (x.reg a.toNat) (x.reg b.toNat)] .arith)

/-- R169: logic, shifts and bits. A shift amount is the whole register, or the immediate; the literals of bfe and bfi are
those that R166 admits. -/
def Obligations.LogicShiftsBits : Prop :=
  ∀ (s : State) (i : Issuer) (c : Ctl) (d a b : Reg) (t : ITy) (imm : BitVec 26) (pos len : BitVec 8),
    let w2 := vecWord c [a.toNat, b.toNat] [d.toNat]
    let w1 := vecWord c [a.toNat] [d.toNat]
    let put (x : W32) : Done := .writes (.reg d.toNat) (x.setWidth 64) 4
    let A (x : Thread) := x.reg a.toNat
    let B (x : Thread) := x.reg b.toNat
    let N (x : Thread) := (x.reg b.toNat).toNat
    IssuesEach s i w2 (.and c d a b) (fun x => put (A x &&& B x))
      ∧ IssuesEach s i w2 (.or c d a b) (fun x => put (A x ||| B x))
      ∧ IssuesEach s i w2 (.xor c d a b) (fun x => put (A x ^^^ B x))
      ∧ IssuesEach s i w1 (.andI c d a imm) (fun x => put (A x &&& imm.zeroExtend 32))
      ∧ IssuesEach s i w1 (.orI c d a imm) (fun x => put (A x ||| imm.zeroExtend 32))
      ∧ IssuesEach s i w1 (.xorI c d a imm) (fun x => put (A x ^^^ imm.zeroExtend 32))
      ∧ IssuesEach s i w1 (.not c d a) (fun x => put (~~~ A x))
      ∧ IssuesEach s i w2 (.shl c d a b) (fun x => put (Claims.shl (A x) (N x)))
      ∧ IssuesEach s i w2 (.shr c d a b) (fun x => put (Claims.shr (A x) (N x)))
      ∧ IssuesEach s i w2 (.sar c d a b) (fun x => put (Claims.sar (A x) (N x)))
      ∧ IssuesEach s i w2 (.rot c d a b) (fun x => put (Claims.rot (A x) (N x)))
      ∧ IssuesEach s i w1 (.shlI c d a imm) (fun x => put (Claims.shl (A x) imm.toNat))
      ∧ IssuesEach s i w1 (.shrI c d a imm) (fun x => put (Claims.shr (A x) imm.toNat))
      ∧ IssuesEach s i w1 (.sarI c d a imm) (fun x => put (Claims.sar (A x) imm.toNat))
      ∧ IssuesEach s i w1 (.rotI c d a imm) (fun x => put (Claims.rot (A x) imm.toNat))
      ∧ IssuesEach s i w1 (.clz c d a) (fun x =>
          put (BitVec.ofNat 32 ((List.range 32).takeWhile fun k => !(A x).getLsbD (31 - k)).length))
      ∧ IssuesEach s i w1 (.popc c d a) (fun x =>
          put (BitVec.ofNat 32 ((List.range 32).map fun k => ((A x).getLsbD k).toNat).sum))
      ∧ IssuesEach s i w1 (.brev c d a) (fun x =>
          put (BitVec.ofNat 32 ((List.range 32).map fun k => ((A x).getLsbD (31 - k)).toNat * 2 ^ k).sum))
      ∧ (1 ≤ len.toNat → pos.toNat + len.toNat ≤ 32 →
          IssuesEach s i w1 (.bfe c d a pos len t) (fun x => put (bfe t (A x) pos.toNat len.toNat))
            ∧ IssuesEach s i (vecWord c [d.toNat, a.toNat] [d.toNat]) (.bfi c d a pos len)
                (fun x => put (bfi (x.reg d.toNat) (A x) pos.toNat len.toNat)))

/-- R170: selection by a predicate, and the comparisons. -/
def Obligations.SelectAndCompare : Prop :=
  ∀ (s : State) (i : Issuer) (c : Ctl) (d a b kc : Reg) (rel : IRel) (t : WTy),
    IssuesEach s i (vecWord c [a.toNat, b.toNat, predSlot kc.toNat] [d.toNat]) (.sel c d a b kc) (fun x =>
        .writes (.reg d.toNat) ((if x.pred kc.toNat then x.reg a.toNat else x.reg b.toNat).setWidth 64) 4)
      ∧ IssuesEach s i (vecWord c (slots t.is64 a ++ slots t.is64 b) [predSlot d.toNat]) (.icmp c rel d a b t) (fun x =>
          .writes (.pred d.toNat) (truth (holds rel (v64 t x a) (v64 t x b))) 4)

/-- R171: addresses wrap modulo 2^64 and are not checked. -/
def Obligations.AddressArithmetic : Prop :=
  ∀ (s : State) (i : Issuer) (c : Ctl) (d a b : Reg) (sh : BitVec 8) (t : ITy) (imm : BitVec 26),
    let put (n : Int) : Done := .writes (.pair d.toNat) (BitVec.ofInt 64 n) 6
    let A (x : Thread) : Int := (x.pair a.toNat).toNat
    IssuesEach s i (vecWord c [a.toNat, a.toNat + 1, b.toNat] [d.toNat, d.toNat + 1]) (.lea c d a b sh t)
        (fun x => put (A x + v t (x.reg b.toNat) * 2 ^ sh.toNat))
      ∧ IssuesEach s i (vecWord c [a.toNat, a.toNat + 1, b.toNat, b.toNat + 1] [d.toNat, d.toNat + 1]) (.add64 c d a b)
        (fun x => put (A x + (x.pair b.toNat).toNat))
      ∧ IssuesEach s i (vecWord c [a.toNat, a.toNat + 1] [d.toNat, d.toNat + 1]) (.add64I c d a imm)
        (fun x => put (A x + imm.toInt))

/-- R172 to R174: the moves copy bits unchanged, and mov.s reads the visible copy of a team scalar, or of a scalar pair; sread
writes the special register named, but for those that a pure launch traps on; the leader's swrite writes the pending copy
of a scalar or of a pair, whose visible copy stays. -/
def Obligations.MovesAndSpecials : Prop :=
  (∀ (s : State) (i : Issuer) (c : Ctl) (d a : Reg) (t : WTy) (imm : W32),
      IssuesEach s i (vecWord c (slots t.is64 a) (slots t.is64 d)) (.mov c d a t) (fun x =>
          .writes (dest t.is64 d) (if t.is64 then x.pair a.toNat else (x.reg a.toNat).setWidth 64) 4)
        ∧ IssuesEach s i (vecWord c [] [d.toNat]) (.movi c d imm) (fun _ => .writes (.reg d.toNat) (imm.setWidth 64) 4)
        ∧ IssuesEach s i (vecWord c [] (slots t.is64 d)) (.movS c d a t) (fun _ =>
            let n := a.toNat
            .writes (dest t.is64 d) (if t.is64 then sget 0 i.t.visible (n + 1) ++ sget 0 i.t.visible n
              else (sget 0 i.t.visible n).setWidth 64) 4))
    ∧ (∀ (s : State) (i : Issuer) (l : Launch) (g : Grid) (c : Ctl) (d : Reg) (r : SReg),
      s.launchOf? i.b.key = some l → s.gridOf i.t = some g → l.id = i.b.key.launchId → (l.pure = true → r ∉ runSpecific) →
      IssuesEach s i (vecWord c [] (slots r.is64 d)) (.sread c d r) (fun x =>
        .writes (dest r.is64 d) (BitVec.ofNat 64 (special s l g i.t x.tid r)) 4))
    ∧ (∀ (s : State) (i : Issuer) (x : Thread) (c : Ctl) (sd a : Reg) (t : WTy), x.tid = 0 →
      IssuesOne s i (vecWord c (slots t.is64 a) []) x (.swrite c sd a t)
        ((s.beginClause i).modTeam i.b.key fun u =>
          if t.is64 then
            { u with
              pending := sset 0 (sset 0 u.pending sd.toNat (x.reg a.toNat)) (sd.toNat + 1) (x.reg (a.toNat + 1))
              written := ((u.written.filter (· != sd.toNat)) ++ [sd.toNat]).filter (· != sd.toNat + 1) ++ [sd.toNat + 1] }
          else
            { u with
              pending := sset 0 u.pending sd.toNat (x.reg a.toNat)
              written := u.written.filter (· != sd.toNat) ++ [sd.toNat] }) {})

/-! ## Float and conversion instructions -/

/-- The scalar float instructions: each takes its operands in the format named, computes and rounds in that format, and
writes the result with latency 6, but fsqrt and the six approximations, whose results are of variable latency. -/
def Obligations.FloatResults : Prop :=
  (∀ (s : State) (i : Issuer) (c : Ctl) (d a b e : Reg) (t : FTy) (rnd : Rnd) (ftz : Bool) (rel : FRel),
      let F := fmtOfFTy t
      let w1 := vecWord c [a.toNat] [d.toNat]
      let w2 := vecWord c [a.toNat, b.toNat] [d.toNat]
      let w3 := vecWord c [a.toNat, b.toNat, e.toNat] [d.toNat]
      let wp := vecWord c [a.toNat, b.toNat] [predSlot d.toNat]
      let A (x : Thread) := (x.reg a.toNat).toNat % 2 ^ F.width
      let B (x : Thread) := (x.reg b.toNat).toNat % 2 ^ F.width
      let E (x : Thread) := (x.reg e.toNat).toNat % 2 ^ F.width
      let put (r : FRes) : Done := .writes (.reg d.toNat) (BitVec.ofNat 64 r.bits) 6
      let each (w : OpWord) (n : Instr) (r : Thread → FRes) : Prop :=
        noFlag s i w (fun x => (r x).fl) → IssuesEach s i w n (fun x => put (r x))
      each w2 (.fadd c d a b t rnd ftz) (fun x => F.addVal rnd ftz (F.operand ftz (A x)) (F.operand ftz (B x)))
        ∧ each w2 (.fsub c d a b t rnd ftz) (fun x => F.addVal rnd ftz (F.operand ftz (A x)) (F.operand ftz (B x)).negate)
        ∧ each w2 (.fmul c d a b t rnd ftz) (fun x => F.mul rnd ftz (A x) (B x))
        ∧ each w3 (.fma c d a b e t rnd ftz) (fun x => F.fma rnd ftz (A x) (B x) (E x))
        ∧ each w2 (.fmin c d a b t ftz) (fun x => F.minMax false ftz (A x) (B x))
        ∧ each w2 (.fmax c d a b t ftz) (fun x => F.minMax true ftz (A x) (B x))
        ∧ each w1 (.fclass c d a t) (fun x => { bits := 2 ^ F.classBit (A x), fl := {} })
        ∧ each w1 (.frnd c d a t rnd) (fun x => F.rnd rnd (A x))
        ∧ (noFlag s i wp (fun x => (F.cmp rel ftz (A x) (B x)).2) →
            IssuesEach s i wp (.fcmp c rel d a b t ftz) (fun x =>
              .writes (.pred d.toNat) (truth (F.cmp rel ftz (A x) (B x)).1) 6))
        ∧ (noFlag s i w1 (fun x => (F.sqrt rnd ftz (A x)).fl) →
            IssuesEach s i w1 (.fsqrt c d a t rnd ftz) (fun x =>
              .brings d [BitVec.ofNat 32 (F.sqrt rnd ftz (A x)).bits] .fp)))
    ∧ (∀ (s : State) (i : Issuer) (c : Ctl) (d a : Reg) (ftz : Bool),
      let w := vecWord c [a.toNat] [d.toNat]
      let each (n : Instr) (r : Nat → FRes) : Prop :=
        noFlag s i w (fun x => (r (x.reg a.toNat).toNat).fl) →
          IssuesEach s i w n (fun x => .brings d [BitVec.ofNat 32 (r (x.reg a.toNat).toNat).bits] .fp)
      each (.frcp c d a ftz) (approxRcp ftz) ∧ each (.frsq c d a ftz) (approxRsq ftz)
        ∧ each (.fexp2 c d a ftz) (approxExp2 ftz) ∧ each (.flog2 c d a ftz) (approxLog2 ftz)
        ∧ each (.fsinp c d a ftz) (approxSinPi ftz) ∧ each (.fcosp c d a ftz) (approxCosPi ftz))

/-- The packed forms act on their two elements independently; one word holds both results and raises the flags of
either. dotts multiplies four twin-shift elements by four bf16 elements of a pair, rounds each product to f32, and sums
them in the order of R159. -/
def Obligations.PackedHalvesAndDots : Prop :=
  (∀ (s : State) (i : Issuer) (c : Ctl) (d a b e : Reg) (t : PTy) (rnd : Rnd) (ftz : Bool),
      let F := fmtOfPTy t
      let w2 := vecWord c [a.toNat, b.toNat] [d.toNat]
      let w3 := vecWord c [a.toNat, b.toNat, e.toNat] [d.toNat]
      let A (x : Thread) := half (x.reg a.toNat)
      let B (x : Thread) := half (x.reg b.toNat)
      let E (x : Thread) := half (x.reg e.toNat)
      let each (w : OpWord) (n : Instr) (r : Thread → Nat → FRes) : Prop :=
        noFlag s i w (fun x => (r x 0).fl.or (r x 1).fl) →
          IssuesEach s i w n (fun x => .writes (.reg d.toNat) (BitVec.ofNat 64 ((r x 0).bits + 2 ^ 16 * (r x 1).bits)) 6)
      each w2 (.hadd2 c d a b t rnd ftz) (fun x k => F.add rnd ftz (A x k) (B x k))
        ∧ each w2 (.hmul2 c d a b t rnd ftz) (fun x k => F.mul rnd ftz (A x k) (B x k))
        ∧ each w3 (.hfma2 c d a b e t rnd ftz) (fun x k => F.fma rnd ftz (A x k) (B x k) (E x k)))
    ∧ (∀ (s : State) (i : Issuer) (c : Ctl) (d a b e : Reg) (ftz : Bool),
      let w := vecWord c [a.toNat, b.toNat, b.toNat + 1, e.toNat] [d.toNat]
      let p (x : Thread) (k : Nat) : FRes :=
        productF32 ftz (ts8Read (byte (x.reg a.toNat) k)) (FFmt.bf16.operand ftz (half (x.reg (b.toNat + k / 2)) (k % 2)))
      let r (x : Thread) : FRes := sumF32 ftz (x.reg e.toNat).toNat [(p x 0).bits, (p x 1).bits, (p x 2).bits, (p x 3).bits]
      noFlag s i w (fun x => ((((r x).fl.or (p x 0).fl).or (p x 1).fl).or (p x 2).fl).or (p x 3).fl) →
        IssuesEach s i w (.dotts c d a b e ftz) (fun x => .writes (.reg d.toNat) (BitVec.ofNat 64 (r x).bits) 8))

/-- R181: dot4 sums its four exact products in the order given, each addition wrapping or clamping. -/
def Obligations.IntegerDot : Prop :=
  ∀ (s : State) (i : Issuer) (c : Ctl) (d a b e : Reg) (asg bsg sat : Bool),
    IssuesEach s i (vecWord c [a.toNat, b.toNat, e.toNat] [d.toNat]) (.dot4 c d a b e asg bsg sat) (fun x =>
      let p (k : Nat) := byteInt asg (x.reg a.toNat) k * byteInt bsg (x.reg b.toNat) k
      let E := add32 sat (add32 sat (x.reg e.toNat).toInt (p 0)) (p 2)
      let O := add32 sat (p 1) (p 3)
      .writes (.reg d.toNat) ((BitVec.ofInt 32 (add32 sat E O)).setWidth 64) 8)

/-- The conversions write their result with latency 6: cvt and pack where no element overflows under the policy trp. -/
def Obligations.Conversions : Prop :=
  ∀ (s : State) (i : Issuer) (c : Ctl) (d a : Reg) (dt st : CTy) (t : FTy) (k : KTy) (j : BitVec 8) (rnd : Rnd) (ovf : Ovf)
    (ftz : Bool) (b : Option Reg),
    let wc := vecWord c (slots st.is64 a ++ (match b with | some r => [r.toNat] | none => [])) (slots dt.is64 d)
    let src (x : Thread) : Nat := if st.is64 then (x.pair a.toNat).toNat else (x.reg a.toNat).toNat
    -- the source with its block scale, and whether its block is invalid (R184)
    let X (x : Thread) : FVal × Bool :=
      let y := (kindOfCTy st).value ftz (src x)
      match b with
      | none => (y, false)
      | some r => match scaleOf (byte (x.reg r.toNat) 1) with
        | none => (.nan false, true)
        | some q => (y.scaled q, false)
    let Y (x : Thread) := convert (kindOfCTy dt) rnd ovf ftz (kindOfCTy st).isInt (X x).2 (X x).1
    let w1 := vecWord c [a.toNat] [d.toNat]
    let F := fmtOfFTy t
    let ts (x : Thread) := toTs8 F ftz ((x.reg a.toNat).toNat % 2 ^ F.width)
    let wk := vecWord c ((List.range k.count).map (a.toNat + ·)) [d.toNat]
    let P (x : Thread) := joinConv k.width ((List.range k.count).map fun n => packElem k rnd ovf ftz (x.reg (a.toNat + n)))
    let U (x : Thread) := unpackElem k ((x.reg a.toNat).toNat / 2 ^ (k.width * j.toNat) % 2 ^ k.width)
    (∀ y : Thread → Int × FpFlags, (∀ x ∈ i.on wc, Y x = some (y x)) → noFlag s i wc (fun x => (y x).2) →
        (∀ x ∈ i.ts, y (i.begin x) = y x) →
        IssuesEach s i wc (.cvt c d a dt st rnd ovf ftz b) (fun x =>
          .writes (dest dt.is64 d) (BitVec.ofInt 64 (y x).1) 6))
      ∧ (noFlag s i w1 (fun x => (ts x).fl) →
          IssuesEach s i w1 (.cvtts c d a t ftz) (fun x => .writes (.reg d.toNat) (BitVec.ofNat 64 (ts x).bits) 6))
      ∧ (∀ y : Thread → Nat × FpFlags, (∀ x ∈ i.on wk, P x = some (y x)) → noFlag s i wk (fun x => (y x).2) →
          (∀ x ∈ i.ts, y (i.begin x) = y x) →
          IssuesEach s i wk (.pack c d a k rnd ovf ftz) (fun x => .writes (.reg d.toNat) (BitVec.ofNat 64 (y x).1) 6))
      ∧ (noFlag s i w1 (fun x => (U x).2) →
          IssuesEach s i w1 (.unpack c d a j k) (fun x => .writes (.reg d.toNat) ((U x).1.setWidth 64) 6))

/-! ## Predicates and lanes -/

/-- R129: the predicate moves. -/
def Obligations.PredicateMoves : Prop :=
  ∀ (s : State) (i : Issuer) (c : Ctl) (op : POp) (d a b : Reg) (inv : Bool),
    let A (x : Thread) := x.pred a.toNat
    let B (x : Thread) := x.pred b.toNat
    let all := (List.range 24).map predSlot
    IssuesEach s i (vecWord c [predSlot a.toNat, predSlot b.toNat] [predSlot d.toNat]) (.plog c op d a b inv) (fun x =>
        .writes (.pred d.toNat) (truth (xor inv (match op with
          | .and => A x && B x | .or => A x || B x | .xor => xor (A x) (B x) | .andn => A x && !B x))) 4)
      ∧ IssuesEach s i (vecWord c [predSlot a.toNat] [predSlot d.toNat]) (.pmov c d a inv) (fun x =>
        .writes (.pred d.toNat) (truth (xor inv (A x))) 4)
      ∧ IssuesEach s i (vecWord c all [d.toNat]) (.pmovTow c d) (fun x =>
        .writes (.reg d.toNat) (BitVec.ofNat 64 ((List.range 24).map fun k => (x.pred k).toNat * 2 ^ k).sum) 4)
      ∧ IssuesEach s i (vecWord c [a.toNat] all) (.pmovFromw c a) (fun x =>
        .writes .preds ((x.reg a.toNat).setWidth 64) 4)

/-- R131 to R133: the lane instructions act once over the threads that the word selects, each of which takes its value
from all of them. -/
def Obligations.LaneInstructions : Prop :=
  ∀ (s : State) (i : Issuer) (c : Ctl) (d a : Reg) (neg : Bool) (vop : VoteOp) (sop : ShflOp) (sel : ShflSel) (rop : ReduxOp)
    (rt : RTy) (rnd : Rnd) (ftz : Bool),
    let wv := vecWord c [predSlot a.toNat] [predSlot d.toNat]
    let wb := vecWord c [predSlot a.toNat] [d.toNat]
    let ws := vecWord c (a.toNat :: (match sel with | .reg b => [b.toNat] | .imm _ => [])) [d.toNat]
    let wr := vecWord c [a.toNat] [d.toNat]
    let q (x : Thread) : Bool := xor neg (x.pred a.toNat)
    let amount (x : Thread) : Nat := match sel with | .reg b => (x.reg b.toNat).toNat | .imm n => n.toNat
    -- the position that a thread reads from, where it names one within the row (R132)
    let from' (x : Thread) : Option Nat :=
      let p := x.tid % 32
      let n := amount x
      match sop with
      | .idx => some (n % 32)
      | .xor => some (p ^^^ (n % 32))
      | .up => if n ≤ p then some (p - n) else none
      | .down => if p + n ≤ 31 then some (p + n) else none
    let r := reduxVal rop rt rnd ftz
      ((sortBy (fun x y => decide (x.tid ≤ y.tid)) (i.site wr).on).map fun x => (x.reg a.toNat).toNat)
    IssuesLane s i wv (.vote c vop d a neg) (fun _ =>
        .writes (.pred d.toNat) (truth (match vop with
          | .all => (i.on wv).all q
          | .any => (i.on wv).any q
          | .uni => (i.on wv).all q || (i.on wv).all fun x => !q x)) 4)
      ∧ IssuesLane s i wb (.ballot c d a neg) (fun _ =>
        .writes (.reg d.toNat) (BitVec.ofNat 64 ((List.range 32).map fun p =>
          if (i.on wb).any (fun x => x.tid % 32 == p && q x) then 2 ^ p else 0).sum) 4)
      ∧ IssuesLane s i ws (.shfl c sop d a sel) (fun x =>
        let y := ((from' x).bind fun p => (i.on ws).find? fun y => y.tid % 32 == p).getD x
        .writes (.reg d.toNat) ((y.reg a.toNat).setWidth 64) 8)
      ∧ (r.fl.bits &&& s.fptrap i.b.key = 0 →
        IssuesLane s i wr (.redux c rop rt d a rnd ftz) (fun _ =>
          .writes (.reg d.toNat) (BitVec.ofNat 64 r.bits) 10))

/-! ## Control -/

/-- R120, R127: a nop takes its issue cycle; branches, calls and returns to a good target send the threads they act on
there, and the others to the next clause; a call leaves its return address in the pair. -/
def Obligations.BranchesAndCalls : Prop :=
  ∀ (s : State) (i : Issuer) (c : Ctl) (d a : Reg) (off : BitVec 26),
    let wx := branchWord c [a.toNat, a.toNat + 1] []
    let wb := branchWord c [] []
    let wl := branchWord c [] [d.toNat, d.toNat + 1]
    let to' (x : Thread) := (x.pair a.toNat).toNat
    IssuesEach s i { c := c, cls := none, reads := [], writes := [] } (.nop c) (fun _ => {})
      ∧ (goodTarget s i (target i off) →
          IssuesEach s i wb (.bra c off) (fun _ => { jump := some (target i off) })
            ∧ IssuesEach s i wl (.call c d off) (fun _ =>
              { jump := some (target i off)
                write := some (.pair d.toNat, BitVec.ofNat 64 (i.cl.hdr + 8 + 8 * i.cl.words.length), 4) }))
      ∧ ((∀ x ∈ i.on wx, goodTarget s i (to' x)) →
          IssuesEach s i wx (.brx c a) (fun x => { jump := some (to' x) })
            ∧ IssuesEach s i wx (.ret c a) (fun x => { jump := some (to' x) }))

/-- R120, R330, R331: a branch, call or return whose target breaks R120 traps, a misaligned one ALIGN, one that is no code of the
launch PAGE_PROT; a load or a store whose access does not go on traps with its cause. The thread parks at the word, in a group of
one record. That the record of a branch gives the target as its address, and the kind execute (2), is log entry 34 (DEDUCED). -/
def Obligations.TrapsOfWords : Prop :=
  (∀ (s : State) (i : Issuer) (x : Thread) (c : Ctl) (d a : Reg) (off : BitVec 26),
      let wx := branchWord c [a.toNat, a.toNat + 1] []
      let traps (w : OpWord) (n : Instr) (v : Nat) : Prop := ¬ goodTarget s i v →
        TrapsOne s i w x n (s.beginClause i) (if v % 8 ≠ 0 then .align else .pageProt) 2 v
      traps (branchWord c [] []) (.bra c off) (target i off)
        ∧ traps (branchWord c [] [d.toNat, d.toNat + 1]) (.call c d off) (target i off)
        ∧ traps wx (.brx c a) (x.pair a.toNat).toNat ∧ traps wx (.ret c a) (x.pair a.toNat).toNat)
    ∧ (∀ (s : State) (i : Issuer) (x : Thread) (c : Ctl) (d a : Reg) (off : BitVec 16) (z : MSize) (sc : Scope) (na sx : Bool)
      (u : State) (cause : Cause),
      let s1 := s.beginClause i
      let regs := (List.range z.regs).map (d.toNat + ·)
      let wl := memWord c [a.toNat, a.toNat + 1] regs
      let ws := memWord c ([a.toNat, a.toNat + 1] ++ regs) []
      let va := (x.pair a.toNat + off.signExtend 64).toNat
      (s1.gateRace (i.site wl) x.tid (.load va z.bytes sc) false = (u, .stop (.trap (Trap.at x.tid cause 0 va))) →
          TrapsOne s i wl x (.ld c d a off z sc na sx) u cause 0 va)
        ∧ (s1.gateRace (i.site ws) x.tid (.store va z.bytes sc) true = (u, .stop (.trap (Trap.at x.tid cause 1 va))) →
          TrapsOne s i ws x (.st c d a off z sc) u cause 1 va))

/-- R122: exit ends the threads it acts on, whose pending results are discarded. -/
def Obligations.Exits : Prop :=
  ∀ (s : State) (i : Issuer) (c : Ctl),
    MayIssue s i (branchWord c [] []) → (∀ b ∈ (s.core i.t.core).bins, b.key ≠ i.b.key) → swf Core.fresh s.cores = true →
    Answers (exec (.exit c) s) fun t =>
      ∀ x ∈ i.on (branchWord c [] []), ∃ y, t.thread? i.b.key x.tid = some y ∧ y.stat = .exited ∧ y.pend = [] ∧ y.win = []

/-- R86, R123, R124, R126: a regroup instruction is remembered to the clause's end, reform with the threads it acts on,
rejoin for all of them whatever their predicate. There a thread that met rejoin waits for its row at its next PC; else one
that reform named is filed in a regroup bin; any other goes on. -/
def Obligations.Regrouping : Prop :=
  (∀ (s : State) (i : Issuer) (c : Ctl),
      let w : OpWord := { c := c, cls := some 4, reads := [], writes := [], regroup := true }
      let acts := (i.on w).map fun x => (x.tid, ({} : Done))
      MayIssue s i w →
        Answers (exec (.reform c) s) (fun t =>
            Issued (s.beginClause i) t i w (fun cl => { cl with reform := (i.on w).map (·.tid) }) acts)
          ∧ Answers (exec (.rejoin c) s) (fun t => Issued (s.beginClause i) t i w (fun cl => { cl with rejoin := true }) acts)
          ∧ Answers (exec (.yield c) s) (fun t => Issued (s.beginClause i) t i w id acts))
    ∧ (∀ (s : State) (k : TeamKey) (c : Clause) (x : Thread), s.thread? k x.tid = some x → x.stopNext = false →
      (c.rejoin = true → (s.endThread k c x.tid).2 = false
          ∧ (s.endThread k c x.tid).1.thread? k x.tid = some { x with stat := .parked (.meeting x.pc false), clause := none })
        ∧ (c.rejoin = false → x.tid ∈ c.reform → (∀ b ∈ (s.core (s.coreOf k)).bins, b.key ≠ k) →
            (s.core (s.coreOf k)).bins.length < 64 → (∀ b ∈ (s.core (s.coreOf k)).bins, b.idx < 64) →
            swf Core.fresh s.cores = true →
            (s.endThread k c x.tid).2 = false ∧ ∃ b ∈ ((s.endThread k c x.tid).1.core (s.coreOf k)).bins,
              b.key = k ∧ b.pc = x.pc ∧ b.tids = [x.tid] ∧ b.age = (s.core (s.coreOf k)).regroupAge)
        ∧ (c.rejoin = false → x.tid ∉ c.reform → s.endThread k c x.tid = (s, true)))

/-! ## Memory instructions -/

/-- R197 and R193: the checks of one access, in order. A misaligned address traps ALIGN, one of 2^56 or more PAGE_PROT;
then the page decides, here through the thread's last-page register; a page that permits the access and passes the purity
check, with no race detector on, lets it go on to its place, at scope system for a peer's page. A walker thread's
address is physical; that an address at which nothing answers, in a window that no valid region covers too, gives MACHINE is log
entry 36 (DEDUCED). -/
def Obligations.AccessChecks : Prop :=
  ∀ (s : State) (i : Issuer) (x : Thread) (w : OpWord) (g : GAcc) (writes : Bool),
    MayIssueOne s i w x →
    (∀ e ∈ (s.core (s.coreOf i.b.key)).atoms, e.key = i.b.key → e.tid = x.tid → e.op.order.acquires = false) →
    let s1 := s.beginClause i
    let r := s1.gateRace (i.site w) x.tid g writes
    let stop (c : Cause) := r = (s1, .stop (.trap (Trap.at x.tid c g.recKind g.va)))
    (g.va % g.n ≠ 0 → stop .align)
      ∧ (g.va % g.n = 0 → 2 ^ 56 ≤ g.va → stop .pageProt)
      ∧ (g.va % g.n = 0 → g.va < 2 ^ 56 → i.b.key.isWalker = true →
          r = (s1, if s.answers (.here g.va) then .go (.here g.va) g.sc
            else .stop (.trap (Trap.at x.tid .machine g.recKind g.va))))
      ∧ (∀ p, g.va % g.n = 0 → g.va < 2 ^ 56 → i.b.key.isWalker = false → x.lpr = some p →
          p.asid = (s.ctx i.b.key.ctxId).asid → p.va ≤ g.va → g.va < p.va + p.size →
          let isPure := !(match s.launchOf? i.b.key with | some l => l.purityOk p g.pu g.va g.n | none => true)
          (g.accs.all p.permits = false → stop .pageProt)
            ∧ (g.accs.all p.permits = true → isPure = true → stop .purity)
            ∧ (g.accs.all p.permits = true → isPure = false → s.launchHas i.b.key (·.race) = false →
                r = (s1, .go (p.place.add (g.va - p.va)) (g.sc.reach p.place.isPeer))))

/-- R209, R211, R263: what a load reads. A scope wider than team reads memory, whatever the core's L1 read cache holds; so
does any load of a block that the cache does not hold. The thread's own stores in the FIFO lie over it; a poison mark
stops a read that delivers data, and a reserved format any read of a block that comes over a link (R146, R305; which reads
cross one is log entry 106, DEDUCED, the model's reading); nothing answers outside memory, and that such a read ends with MACHINE is
log entry 36 (DEDUCED). -/
def Obligations.LoadsRead : Prop :=
  ∀ (s : State) (site : Site) (tid : Nat) (p : Place) (sc : Scope) (na data : Bool),
    let held := (s.core site.core).l1.any fun y => y.1 == p.blockKey
    let r := s.readAt site tid p sc na data
    sc ≠ .team ∨ held = false →
      (s.readBlock p = none → r = (s, .error .machine))
      ∧ ∀ b, s.readBlock p = some b →
          r.1 = (if held = true ∨ (sc = .team ∧ na = false)
            then s.modCore site.core fun c => { c with l1 := putLine c.l1 p.blockKey b } else s)
          ∧ r.2 = (
              let own := s.ownStores site.core site.key tid p b
              let far : Bool := match p with | .here pa => pa < 2 ^ 32 && pa / 2 ^ 29 != site.core / 40 | .peer _ _ => true
              let moved : Except Cause Block := if far && fmtReserved (fmtOf own.descr) then .error .format else .ok own
              match own.poison with
              | some c => if data then .error c else moved
              | none => moved)

/-- R187, R212, R280: an ld, an ldc or a blkd.rd whose access goes on brings the bytes read, widened below 32 bits, or the block's
descriptor, as a result of variable latency; it leaves memory as it is. The race detector checks the ld and the blkd.rd, and no
ldc. -/
def Obligations.Loads : Prop :=
  ∀ (s : State) (i : Issuer) (x : Thread) (c : Ctl) (d a : Reg) (off : BitVec 16) (z : MSize) (sc : Scope) (na sx : Bool)
    (u u' : State) (p : Place) (sc' : Scope) (b : Block),
    let s1 := s.beginClause i
    let regs := (List.range z.regs).map (d.toNat + ·)
    let wl := memWord c [a.toNat, a.toNat + 1] regs
    let wc := memWord c [] regs
    let wd := memWord c [a.toNat, a.toNat + 1] [d.toNat]
    let va := (x.pair a.toNat + off.signExtend 64).toNat
    let vs := (sget 0 i.t.visible (a.toNat + 1) ++ sget 0 i.t.visible a.toNat + off.signExtend 64).toNat
    let words (va : Nat) := loadWords z sx ((b.bytes.drop (va % 64)).take z.bytes)
    (s1.gateRace (i.site wl) x.tid (.load va z.bytes sc) false = (u, .go p sc') →
        u.readAt (i.site wl) x.tid p sc' na true = (u', .ok b) →
        IssuesOne s i wl x (.ld c d a off z sc na sx) u' (.brings d (words va) .memory))
      ∧ (s1.gate (i.site wc) x.tid (.load vs z.bytes .team) = (u, .go p sc') →
        u.readAt (i.site wc) x.tid p sc' false true = (u', .ok b) →
        IssuesOne s i wc x (.ldc c d a off z sx) u' (.brings d (words vs) .memory))
      ∧ (s1.gateRace (i.site wd) x.tid (.load va 1 sc) false = (u, .go p sc') →
        u.readAt (i.site wd) x.tid p sc' false false = (u', .ok b) →
        IssuesOne s i wd x (.blkdRd c d a off .global sc) u' (.brings d [b.descr.setWidth 32] .memory))

/-- R187, R212, R263: an st, or a blkd.set of an admitted format, whose access goes on puts its store into the FIFO of the
core, at the place it was translated to; memory is as before until the store is performed. -/
def Obligations.Stores : Prop :=
  ∀ (s : State) (i : Issuer) (x : Thread) (c : Ctl) (d a : Reg) (off : BitVec 16) (z : MSize) (sc : Scope)
    (u : State) (p : Place) (sc' : Scope),
    let s1 := s.beginClause i
    let ws := memWord c ([a.toNat, a.toNat + 1] ++ (List.range z.regs).map (d.toNat + ·)) []
    let wd := memWord c [a.toNat, a.toNat + 1, d.toNat] []
    let va := (x.pair a.toNat + off.signExtend 64).toNat
    let v : Descr := (x.reg d.toNat).extractLsb' 0 16
    let put (bytes : List Byte) (descr : Option Descr) : State :=
      u.modCore i.t.core fun k => { k with fifo := k.fifo ++
        [{ key := i.b.key, tid := x.tid, place := p, bytes := bytes, descr := descr, scope := sc' }] }
    (s1.gateRace (i.site ws) x.tid (.store va z.bytes sc) true = (u, .go p sc') →
        IssuesOne s i ws x (.st c d a off z sc) (put (bytesOfWords (x.group d.toNat z.regs) z.bytes) none) {})
      ∧ (s1.gateRace (i.site wd) x.tid (.store va 1 sc) true = (u, .go p sc') → fmtReserved (fmtOf v) = false →
        IssuesOne s i wd x (.blkdSet c d a off .global sc) (put [] (some v)) {})

/-- R201, R213: a prefetch that translates brings its line into the L1 read cache, or only its translation; a migration
hint word writes one 16-byte hint at the hint ring's tail, or counts it where the ring is full. -/
def Obligations.PrefetchesAndHints : Prop :=
  ∀ (s : State) (i : Issuer) (x : Thread) (c : Ctl) (a : Reg) (off : BitVec 16) (sc : Scope) (u : State) (p : Place)
    (peer : Bool) (b : Block),
    let s1 := s.beginClause i
    let w := memWord c [a.toNat, a.toNat + 1] []
    let va := (x.pair a.toNat + off.signExtend 64).toNat
    let hint (dir : Nat) : State :=
      if (s.hintTail + 1) % 1024 = s.hintHead % 1024 then
        { s1 with hintDrop := BitVec.ofNat 32 (min 0xFFFFFFFF (s.hintDrop.toNat + 1)) }
      else
        { s1.writeBytes (.here (s.hintBase + 16 * s.hintTail)) (bytesOfNat 8 (va / 65536 * 65536)
            ++ bytesOfNat 2 (s.asidOf i.b.key) ++ bytesOfNat 1 (i.t.core / 40) ++ bytesOfNat 1 dir ++ bytesOfNat 4 0) with
          hintTail := (s.hintTail + 1) % 1024 }
    (s1.access i.b.key i.t.core x.tid va 1 [.read] .read i.b.notes = (u, .ok p peer) → u.readBlock p = some b →
        IssuesOne s i w x (.pref c a off sc)
            (u.modCore i.t.core fun k => { k with l1 := putLine k.l1 p.blockKey b }) {}
          ∧ IssuesOne s i w x (.prefTr c a off sc) u {})
      ∧ IssuesOne s i w x (.pmigComb c a off sc) (hint 0) {}
      ∧ IssuesOne s i w x (.pmigPool c a off sc) (hint 1) {}

/-- R214, R263: a fence performs the core's stores up to the team's last, in order; wider than team it discards the
core's L1 lines. After the drain no store of the team waits. -/
def Obligations.Fences : Prop :=
  ∀ (s : State) (i : Issuer) (x : Thread) (c : Ctl) (sc : Scope),
    let u := (s.beginClause i).drain i.b.key
    IssuesOne s i (memWord c [] []) x (.fence c sc)
        ((if sc = .team then u else u.modCore i.t.core fun k => { k with l1 := [] }).bumpInterval i.b.key x.tid) {}
      ∧ (swf Core.fresh s.cores = true → ∀ k, ∀ e ∈ ((s.drain k).core (s.coreOf k)).fifo, e.key ≠ k)

/-! ## Scratchpad -/

/-- R187, R218, R221: scratchpad loads and stores within the allocation, aligned, of written sectors, outside the ranges of
moves in flight. A store sets the written bits; a descriptor store does not. -/
def Obligations.ScratchpadAccesses : Prop :=
  ∀ (s : State) (i : Issuer) (x : Thread) (c : Ctl) (d a : Reg) (off : BitVec 16) (z : MSize) (sx : Bool) (sc : Scope),
    let s1 := s.beginClause i
    let o := (x.reg a.toNat + off.signExtend 32).toNat
    let regs := (List.range z.regs).map (d.toNat + ·)
    let v : Descr := (x.reg d.toNat).extractLsb' 0 16
    let free (n : Nat) : Prop := o + n ≤ i.t.desc.scratch ∧
      ∀ e ∈ s.board, e.key = i.b.key → o + n ≤ e.lo ∨ e.hi ≤ o
    let wrote (n : Nat) : Prop := ∀ k ∈ sectorsOf o n, sget false i.t.sectors k = true
    (o % z.bytes = 0 → free z.bytes → wrote z.bytes → markAt i.t.poison (o / 64) = none →
        IssuesOne s i (memWord c [a.toNat] regs) x (.lds c d a off z sx) s1
          (.brings d (loadWords z sx (sgetMany 0 i.t.bytes o z.bytes)) .memory))
      ∧ (o % z.bytes = 0 → free z.bytes →
        IssuesOne s i (memWord c (a.toNat :: regs) []) x (.sts c d a off z)
          (s1.modTeam i.b.key fun t => t.spWrite o (bytesOfWords (x.group d.toNat z.regs) z.bytes)) {})
      ∧ (free 1 → wrote 1 →
        IssuesOne s i (memWord c [a.toNat] [d.toNat]) x (.blkdRd c d a off .scratch sc) s1
          (.brings d [(sget plainDescr i.t.descs (o / 64)).setWidth 32] .memory))
      ∧ (free 1 → fmtReserved (fmtOf v) = false →
        IssuesOne s i (memWord c [a.toNat, d.toNat] []) x (.blkdSet c d a off .scratch sc)
          (s1.modTeam i.b.key fun t => { t with descs := sset plainDescr t.descs (o / 64) v }) {})

/-- R218: a scratchpad access outside the team's allocation switches its thread off and sets its bit of the fault mask; it
writes nothing. -/
def Obligations.ScratchpadViolations : Prop :=
  ∀ (s : State) (i : Issuer) (x : Thread) (c : Ctl) (d a : Reg) (off : BitVec 16) (z : MSize) (sx : Bool),
    let o := (x.reg a.toNat + off.signExtend 32).toNat
    let regs := (List.range z.regs).map (d.toNat + ·)
    let offNow (r : Result) : Prop := Answers r fun t => ∃ y T, t.team? i.b.key = some T ∧ T.thread? x.tid = some y
      ∧ y.stat = .off ∧ y.pend = [] ∧ T.bytes = i.t.bytes ∧ T.faultMask.getLsbD x.tid = decide (x.tid < 1024)
    (∀ b ∈ (s.core i.t.core).bins, b.key ≠ i.b.key) → swf Core.fresh s.cores = true → i.b.single = false →
    o % z.bytes = 0 → i.t.desc.scratch < o + z.bytes →
    (MayIssueOne s i (memWord c [a.toNat] regs) x → offNow (exec (.lds c d a off z sx) s))
      ∧ (MayIssueOne s i (memWord c (a.toNat :: regs) []) x → offNow (exec (.sts c d a off z) s))

/-- R224: the tag table operations. -/
def Obligations.ScratchTags : Prop :=
  ∀ (s : State) (i : Issuer) (x : Thread) (c : Ctl) (d a b : Reg) (T : Team),
    let s1 := s.beginClause i
    s1.team? i.b.key = some T →
    let tag := x.pair a.toNat
    let found := T.tags.find? fun e => e.2.1 == tag
    let lowest := (List.range (T.desc.scratch / 2048)).find? fun n => !T.tags.any fun e => e.1 == n
    let now (tags : List (Nat × W64 × W32)) : State := s1.modTeam i.b.key fun _ => { T with tags := tags }
    let value := match found with | some e => e.2.2 | none => 0xFFFFFFFF
    let w1 := memWord c [a.toNat, a.toNat + 1] [d.toNat]
    IssuesOne s i w1 x (.sptagLook c d a) (now T.tags) (.brings d [value] .memory)
      ∧ IssuesOne s i (memWord c [a.toNat, a.toNat + 1, b.toNat] [d.toNat]) x (.sptagSet c d a b)
          (now (match found, lowest with
            | some e, _ => T.tags.map fun y => if y.1 = e.1 then (y.1, tag, x.reg b.toNat) else y
            | none, some n => insertBy (fun p q => p.1 ≤ q.1) (n, tag, x.reg b.toNat) T.tags
            | none, none => T.tags))
          (.brings d [if found.isSome || lowest.isSome then 0 else 0xFFFFFFFF] .memory)
      ∧ IssuesOne s i w1 x (.sptagClr c d a)
          (now (match found with | some e => T.tags.filter fun y => y.1 != e.1 | none => T.tags))
          (.brings d [value] .memory)

/-! ## Atomics -/

/-- R263, R276: the new value of an atomic's word, in words of 4 or 8 bytes; and one atomic, its core's stores up to the
team's last having been performed, and every store of the core where it writes, reads the word at its place and writes the
new one there, in one step; it writes nothing where a cas finds another value, and no other byte ever. -/
def Obligations.AtomicSteps : Prop :=
  (∀ (o : AtomOp) (old : W64),
      let n := 8 * o.ty.bytes
      let cut (y : Nat) : W64 := BitVec.ofNat 64 (y % 2 ^ n)
      let val (y : W64) : Int := match o.ty with
        | .s32 => (y.extractLsb' 0 32).toInt
        | .s64 => y.toInt
        | .n32 => (y.extractLsb' 0 32).toNat
        | .f32 => (y.extractLsb' 0 32).toNat
        | .n64 => y.toNat
      (o.cas = true → o.newValue old =
          if old.toNat % 2 ^ n = o.b.toNat % 2 ^ n then some (cut o.c.toNat) else none)
        ∧ (o.cas = false → o.op = .add → o.ty ≠ .f32 → o.newValue old = some (cut (old.toNat + o.b.toNat)))
        ∧ (o.cas = false → o.op = .add → o.ty = .f32 → o.newValue old = some (BitVec.ofNat 64
            (FFmt.f32.add .rn false (old.toNat % 2 ^ 32) (o.b.toNat % 2 ^ 32)).bits))
        ∧ (o.cas = false → o.op = .min → o.newValue old = some (cut (if val o.b < val old then o.b else old).toNat))
        ∧ (o.cas = false → o.op = .max → o.newValue old = some (cut (if val old < val o.b then o.b else old).toNat))
        ∧ (o.cas = false → o.op = .and → o.newValue old = some (cut (old &&& o.b).toNat))
        ∧ (o.cas = false → o.op = .or → o.newValue old = some (cut (old ||| o.b).toNat))
        ∧ (o.cas = false → o.op = .xor → o.newValue old = some (cut (old ^^^ o.b).toNat))
        ∧ (o.cas = false → o.op = .xchg → o.newValue old = some (cut o.b.toNat)))
    ∧ (∀ (s : State) (k : TeamKey) (o : AtomOp) (pa : Nat) (b0 b : Block),
      let v := s.drain k
      let n := o.ty.bytes
      let word (b : Block) : W64 := BitVec.ofNat 64 (natOfBytes ((b.bytes.drop (pa % 64)).take n))
      let core := v.coreOf k
      let u := if (o.newValue (word b0)).isSome then v.performFifo core (v.core core).fifo.length else v
      s.MemoryWf → o.place = .here pa → pa % n = 0 → s.populated pa = true → inWindows pa = false →
      v.readBlock (.here pa) = some b0 → u.readBlock (.here pa) = some b → b.poison = none →
      let old := word b
      let r := s.performAtom k o
      r.2 = .ok old
        ∧ ∀ a, sget 0 r.1.mem a = match o.newValue old with
          | some v => if pa ≤ a ∧ a < pa + n then (v.extractLsb' (8 * (a - pa)) 8) else sget 0 u.mem a
          | none => sget 0 u.mem a)

/-- R276, R277, R293: the atomics whose access goes on and whose word is not poisoned. Outside a deterministic launch the
operation is performed at once and its old value is the pending result of atom and cas; in one, it enters the core's
buffer with its sequence number, and the result stays pending until a flush. -/
def Obligations.Atomics : Prop :=
  ∀ (s : State) (i : Issuer) (x : Thread) (c : Ctl) (op : AOp) (rop : RedOp) (t : ATy) (ord : Order) (rord : RedOrder)
    (sc sc' : Scope) (d a b e : Reg) (u u1 u2 : State) (p : Place) (old : W64),
    let s1 := s.beginClause i
    let pairA := [a.toNat, a.toNat + 1]
    let out := slots t.is64 d
    let val (r : Reg) : W64 := if t.is64 then x.pair r.toNat else (x.reg r.toNat).setWidth 64
    let atom : AtomOp := { op := op, cas := false, ty := t, order := ord, scope := sc, va := (x.pair a.toNat).toNat,
                           place := .here 0, b := val b, c := 0, returns := true }
    let cas : AtomOp := { atom with op := .xchg, cas := true, c := val e }
    let red : AtomOp := { atom with op := RedOp.asAtom rop, order := RedOrder.asOrder rord, returns := false }
    let done (w : OpWord) (n : Instr) (o : AtomOp) (res : Option Reg) : Prop :=
      let o' := { o with place := p, scope := sc' }
      s1.gate (i.site w) x.tid o.acc = (u, .go p sc') →
      u.raceCheck i.b.key x.tid o.va t.bytes i.cl.wordPc 2 sc' false (u.ivalOf i.b.key x.tid) = (u1, false) →
      (u.launchHas i.b.key (·.det) = false → u1.launchHas i.b.key (·.det) = false →
          (u1.drain i.b.key).atomBlocked p = none → (u1.drain i.b.key).performAtom i.b.key o' = (u2, .ok old) →
          IssuesOne s i w x n (u2.atomDone i.b.key x.tid o' old)
            (match res with | some r => .brings r (t.words old) .atomic | none => {}))
        ∧ (u.launchHas i.b.key (·.det) = true → u.quotaUsed i.b.key < 128 → u1.atomBlocked p = none →
          IssuesOne s i w x n
            ((u1.modCore i.t.core fun k => { k with atoms := k.atoms ++
                [{ key := i.b.key, tid := x.tid, seq := x.atomSeq, op := o', pend := res.map fun _ => x.nextPend }] }).modThread
              i.b.key x.tid fun y => { y with atomSeq := y.atomSeq + 1 })
            (match res with
              | some r => { pend := some (r.toNat, (t.words 0).length, none, .atomic) }
              | none => {}))
    done (memWord c (pairA ++ slots t.is64 b) out) (.atom c op t ord sc d a b) atom (some d)
      ∧ done (memWord c (pairA ++ slots t.is64 b ++ slots t.is64 e) out) (.cas c t ord sc d a b e) cas (some d)
      ∧ done (memWord c (pairA ++ slots t.is64 b) []) (.red c rop t rord sc a b) red none

/-! ## Barriers, copies and the matrix engine -/

/-- R228: bar.init resets bN; bar.arrive is an extra arrival where X is set or TM is 0 and else the thread's own, a second
one of a phase waiting for the phase to complete; bar.wait goes on once PHASE is 1 to 32,767 past the thread's count, and
else parks. An arrival performs the team's stores first (R229, R265). The arrivals here complete no phase. -/
def Obligations.BarrierWords : Prop :=
  ∀ (s : State) (i : Issuer) (x : Thread) (c : Ctl) (n : BitVec 4) (a : Reg) (ext extra : Bool),
    let s1 := s.beginClause i
    let u := s1.drain i.b.key
    let w := syncWord c [] []
    let b := i.t.bar n.toNat
    let v := x.reg a.toNat
    let reset : State := s1.modTeam i.b.key fun t => { t with
      bars := sset .fresh t.bars n.toNat { phase := 0, xexp := v.extractLsb' 0 15, tm := !ext, xadd := 0, xgot := 0 }
      threads := t.threads.map fun y => { y with
        arr := y.arr &&& ~~~(1 <<< n.toNat : BitVec 16), wp := sset 0 y.wp n.toNat 0 } }
    let got := (u.modTeam i.b.key fun t => t.setBar n.toNat { b with xgot := b.xgot + 1 }).bumpInterval i.b.key x.tid
    let own := (u.modThread i.b.key x.tid fun y => { y with arr := y.arr ||| (1 <<< n.toNat) }).bumpInterval i.b.key x.tid
    let quiet (s : State) : Prop := ∀ T, s.team? i.b.key = some T → T.phaseReady n.toNat = false
    let ahead := (b.phase - sget 0 (i.begin x).wp n.toNat).toNat
    IssuesOne s i (syncWord c [a.toNat] []) x (.barInit c n a ext) reset {}
      ∧ (extra = true ∨ b.tm = false → quiet got → IssuesOne s i w x (.barArrive c n extra) got {})
      ∧ (extra = false → b.tm = true → x.arr.getLsbD n.toNat = false → quiet own →
          IssuesOne s i w x (.barArrive c n extra) own {})
      ∧ (extra = false → b.tm = true → (∀ y ∈ i.t.threads, y.tid = x.tid → y.arr.getLsbD n.toNat = true) →
          ParksOne s i w x (.barArrive c n extra) u (.barArrive n.toNat))
      ∧ (1 ≤ ahead → ahead ≤ 32767 → IssuesOne s i w x (.barWait c n)
          (s1.modThread i.b.key x.tid fun y => { y with wp := sset 0 y.wp n.toNat (sget 0 y.wp n.toNat + 1) }) {})
      ∧ (ahead = 0 ∨ 32767 < ahead → ParksOne s i w x (.barWait c n) s1 (.barWait n.toNat))

/-- R226: a phase of bN completes at an event once every live thread has arrived, or TM is 0, and XGOT has reached
XEXP + XADD; XGOT keeps the rest, XADD and every ARR are cleared, PHASE counts one more, and other registers stay. R174, R288:
once every live thread of a team has arrived, the team barrier's phase completes: every scalar written since the last one
becomes visible, and the others keep their visible copies. That a team with no live thread completes no such phase is log
entry 9 (DEDUCED). -/
def Obligations.BarrierPhases : Prop :=
  (∀ (s : State) (k : TeamKey) (n : Nat) (T : Team), s.team? k = some T → n < 16 → swf BarReg.fresh T.bars = true →
      let b := T.bar n
      let live := T.threads.filter (·.live)
      let ready := (b.tm = false ∨ ∀ y ∈ live, y.arr.getLsbD n = true)
        ∧ b.xexp.toNat + b.xadd.toNat ≤ b.xgot.toNat
      (¬ ready → s.barEvent k n = s)
        ∧ (ready → ∃ T', (s.barEvent k n).team? k = some T'
          ∧ T'.bar n = { b with xgot := BitVec.ofNat 16 (b.xgot.toNat - (b.xexp.toNat + b.xadd.toNat)), xadd := 0,
                                phase := b.phase + 1 }
          ∧ (∀ m, m ≠ n → T'.bar m = T.bar m) ∧ ∀ y ∈ T'.threads, y.arr.getLsbD n = false))
    ∧ (∀ (s : State) (k : TeamKey) (T : Team), s.team? k = some T → swf 0 T.visible = true →
      (¬ (T.liveTids ≠ [] ∧ ∀ j ∈ T.liveTids, ∃ e ∈ T.tbarIn, e.1 = j) → s.tbarEvent k = s)
        ∧ (T.liveTids ≠ [] → (∀ j ∈ T.liveTids, ∃ e ∈ T.tbarIn, e.1 = j) → ∃ T', (s.tbarEvent k).team? k = some T'
          ∧ T'.tbarPhase = T.tbarPhase + 1 ∧ T'.tbarIn = [] ∧ T'.written = []
          ∧ ∀ n, sget 0 T'.visible n = if n ∈ T.written then sget 0 T.pending n else sget 0 T.visible n))

/-- R232, R318: a copy, a tile store or a transfer that passes every check in order takes a place in its core's range
scoreboard and a count on its barrier register, and is outstanding and unsealed in its thread; a transfer is then sent.
The layout record is read as a load. -/
def Obligations.CopiesStart : Prop :=
  ∀ (s : State) (i : Issuer) (x : Thread) (c : Ctl) (kind : MoveKind) (d a b : Reg) (bn : Option (BitVec 4)) (sc sc' : Scope)
    (u u1 u2 : State) (T : Team) (p : Place) (blk : Block),
    let s1 := s.beginClause i
    let five := (List.range 5).map fun j => if b.toNat + j < 256 then b.toNat + j else noSlot
    let w := syncWord c ([d.toNat, a.toNat, a.toNat + 1] ++ five) []
    let off := (x.reg d.toNat).toNat
    let raw := Layout.ofBytes blk.bytes
    let lay := if kind.isXfer then raw else { raw with rep := 0, reduce := 0, key := 0 }
    let cs := (List.range 5).map fun j => (x.reg (b.toNat + j)).toInt
    let bar := bn.map (·.toNat)
    let m : Move :=
      { id := u2.nextOp, order := u2.nextOp, key := i.b.key, tid := x.tid, pc := i.cl.wordPc, kind := kind, lay := lay, coords := cs, off := off,
        len := lay.tileBytes, bar := bar, scope := if kind.isXfer then u1.xferScope (i.t.core / 40) lay sc else sc,
        left := List.range (lay.blocks * (if kind.isXfer then lay.ranks.length else 1)), sent := !kind.isXfer,
        stopped := none, interval := u2.ivalOf i.b.key x.tid, core := i.t.core }
    s1.team? i.b.key = some T → off % 64 = 0 →
    s1.gateRace (i.site w) x.tid (.load (x.pair a.toNat).toNat 64 sc) false = (u, .go p sc') →
    u.readAt (i.site w) x.tid p sc' false true = (u1, .ok blk) →
    lay.contentOk blk.bytes = true → lay.aligned cs kind.isXfer = true → off + lay.tileBytes ≤ T.desc.scratch →
    (∀ l, u1.launchOf? i.b.key = some l → l.movePure lay cs kind = true) →
    (kind.inbound = false → T.written? off lay.tileBytes = true) →
    u1.moveWaits (i.site w) T off lay.tileBytes bar = false →
    (kind.isXfer = false → u1.moveRace (i.site w) x.tid lay cs (!kind.inbound) sc = (u2, false)) →
    (kind = .tcopy → IssuesOne s i w x (.tcopy c d a b bn sc) (u2.startMove m) {})
      ∧ (kind = .tstore → IssuesOne s i w x (.tstore c d a b bn sc) (u2.startMove m) {})
      ∧ (kind.isXfer = true → u2 = u1 → u1.xferBad i.b.key.ctxId (i.t.core / 40) (kind == .pull) lay cs = false →
          IssuesOne s i w x (.txfer c d a b bn (kind == .pull) sc) ((u1.startMove m).sendMove m) {})

/-- R236: cseal moves the thread's outstanding, unsealed operations into a batch; cwait lets it go on once its batch is
empty and parks it before; R321: flow.reset begins a new generation of the flow and clears its tags. -/
def Obligations.SealsAndFlows : Prop :=
  ∀ (s : State) (i : Issuer) (x : Thread) (c : Ctl) (n : BitVec 4) (key : BitVec 16),
    let s1 := s.beginClause i
    let w := syncWord c [] []
    IssuesOne s i w x (.cseal c n) (s1.modThread i.b.key x.tid fun y => { y with
        batches := sset [] y.batches n.toNat (sget [] y.batches n.toNat ++ y.unsealed), unsealed := [] }) {}
      ∧ (sget [] x.batches n.toNat = [] → IssuesOne s i w x (.cwait c n) s1 {})
      ∧ (sget [] x.batches n.toNat ≠ [] → ParksOne s i w x (.cwait c n) s1 (.cwait n.toNat))
      ∧ IssuesOne s i w x (.flowReset c key)
          (match s.flow? i.b.key.ctxId (s.dieCoord (i.t.core / 40)) key.toNat with
            | none => s1
            | some f => (s1.bumpGen i.b.key.ctxId f key.toNat).clearTags f) {}

/-- R241, R242: a matrix word of a thread whose swarm is 0 latches its operands once every check has passed, and queues one
operation of the pair's engine, which waits on the operations then pending in the slots that its word names. -/
def Obligations.MatrixWordsQueue : Prop :=
  ∀ (s : State) (i : Issuer) (x : Thread) (c : Ctl) (q : XCtl) (a b : Reg) (m : MMods) (t : DTy) (rnd : Rnd) (ovf : Ovf)
    (accf fl : Bool) (T : Team),
    let s1 := s.beginClause i
    let A := (x.reg a.toNat).toNat
    let B := (x.reg b.toNat).toNat
    let p := s.pair (pairOf i.t.core)
    let done (w : OpWord) (n : Instr) (f : MatForm) : Prop :=
      let reads := f.reads ++ f.gathered T
      let o : MatOp :=
        { id := s.nextOp, order := s.nextOp, key := i.b.key, tid := x.tid, pc := i.cl.wordPc, kind := f.kind, acc := q.acc.toNat,
          a := T.latchA f, index := (match f.kind with | .mmag _ => T.indexVec f.aOff | _ => []), b := T.latchB f,
          dest := (f.writes.headD (0, 0)).1, bAddr := f.bOff, bStride := f.stride, streamed := [],
          set := q.set.map (·.toNat), waits := ((bitsOf q.wait).flatMap fun j => sget [] p.slots j).eraseDups,
          begun := false, stopped := none }
      (∀ y ∈ f.aligned, y % 64 = 0) → T.holds (reads ++ f.writes) = true → s1.matWaits (i.site w) f reads = false →
      (∀ r ∈ reads, T.written? r.1 r.2 = true) → T.markIn reads = none →
      f.kind.blocksBad (T.latchA f) (T.latchB f) = none → IssuesOne s i w x n (s1.queueMat (i.site w) f o) {}
    s1.team? i.b.key = some T → T.swarmIdx = 0 →
    done (mxWord c [a.toNat, b.toNat]) (.mma c q a b m)
        { kind := .mma m, aligned := [A, B], reads := [(A, 128 * m.rowBytes .a), (B, 64 * m.rowBytes .b)], writes := [],
          aOff := A, bOff := B, stride := 0 }
      ∧ done (mxWord c [a.toNat, a.toNat + 1, b.toNat]) (.mmag c q a b m)
        { kind := .mmag m, aligned := [A, (x.reg (a.toNat + 1)).toNat, B], reads := [(A, 256), (B, 64 * m.rowBytes .b)],
          writes := [], aOff := A, bOff := B, stride := (x.reg (a.toNat + 1)).toNat }
      ∧ ((x.pair b.toNat).toNat % 64 = 0 → (x.reg (b.toNat + 2)).toNat % 64 = 0 →
          max 64 (m.rowBytes .b) ≤ (x.reg (b.toNat + 2)).toNat → s.launchHas i.b.key (·.pure) = false →
          done (mxWord c [a.toNat, b.toNat, b.toNat + 1, if b.toNat + 2 < 256 then b.toNat + 2 else noSlot]) (.mms c q a b m)
            { kind := .mms m, aligned := [A], reads := [(A, 128 * m.rowBytes .a)], writes := [], aOff := A,
              bOff := (x.pair b.toNat).toNat, stride := (x.reg (b.toNat + 2)).toNat })
      ∧ done (mxWord c []) (.accz c q)
        { kind := .accz, aligned := [], reads := [], writes := [], aOff := 0, bOff := 0, stride := 0 }
      ∧ done (mxWord c [a.toNat]) (.accld c q a)
        { kind := .accld, aligned := [A], reads := [(A, 32768)], writes := [], aOff := A, bOff := 0, stride := 0 }
      ∧ ((fl = true → A % 4 = 0) → done (mxWord c [a.toNat]) (.accst c q a accf fl)
        { kind := .accst accf fl, aligned := if fl then [] else [A], reads := [], writes := [(A, if fl then 4 else 32768)],
          aOff := A, bOff := 0, stride := 0 })
      ∧ done (mxWord c [a.toNat, b.toNat]) (.drain c q a b t rnd ovf accf)
        { kind := .drain t rnd ovf accf, aligned := [A, B], reads := [(B, 1024)], writes := [(A, 4096 * t.nibs)],
          aOff := A, bOff := B, stride := 0 }

/-! ## Waiting, spawning and team barriers -/

/-- R285, R286: a wait on memory returns, as an acquire of its scope, where its condition holds at the read, and else parks
at the word; waita brings the word it read, join nothing. -/
def Obligations.MemoryWaits : Prop :=
  ∀ (s : State) (i : Issuer) (x : Thread) (c : Ctl) (d a b : Reg) (eq wide : Bool) (sc sc' : Scope) (u u1 : State) (p : Place)
    (blk : Block),
    let s1 := s.beginClause i
    let va := (x.pair a.toNat).toNat
    let n := if wide then 8 else 4
    let ww := syncWord c ([a.toNat, a.toNat + 1] ++ slots wide b) (slots wide d)
    let wj := syncWord c [a.toNat, a.toNat + 1, b.toNat, b.toNat + 1] []
    let got (n : Nat) : W64 := BitVec.ofNat 64 (natOfBytes ((blk.bytes.drop (va % 64)).take n))
    let want : W64 := if wide then x.pair b.toNat else (x.reg b.toNat).setWidth 64
    let fin (u : State) : State := if sc' = .team then u else u.modCore i.t.core fun k => { k with l1 := [] }
    let words : List W32 := if wide then [(got 8).extractLsb' 0 32, (got 8).extractLsb' 32 32] else [(got 4).extractLsb' 0 32]
    let wait : MemWait := { va := va, place := p, val := want, wide := wide, eq := eq, join := false, scope := sc',
                            dest := d.toNat, polled := false, nextPoll := 0 }
    let jwait : MemWait := { va := va, place := p, val := x.pair b.toNat, wide := true, eq := true, join := true,
                             scope := sc', dest := 0, polled := false, nextPoll := 0 }
    (s1.gateRace (i.site ww) x.tid (.load va n sc) false = (u, .go p sc') →
        u.readAt (i.site ww) x.tid p sc' false true = (u1, .ok blk) →
        ((eq = true ∧ got n = want) ∨ (eq = false ∧ got n ≠ want) →
            IssuesOne s i ww x (.waita c d a b eq wide sc) (fin u1) (.brings d words .memory))
          ∧ ((eq = true ∧ got n ≠ want) ∨ (eq = false ∧ got n = want) →
            ParksOne s i ww x (.waita c d a b eq wide sc) (u1.monitorWait i.t.core wait).1
              (.memory (u1.monitorWait i.t.core wait).2)))
      ∧ (s1.gateRace (i.site wj) x.tid (.load va 8 sc) false = (u, .go p sc') →
        u.readAt (i.site wj) x.tid p sc' false true = (u1, .ok blk) →
        ((x.pair b.toNat).toNat ≤ (got 8).toNat → IssuesOne s i wj x (.join c a b sc) (fin u1) {})
          ∧ ((got 8).toNat < (x.pair b.toNat).toNat →
            ParksOne s i wj x (.join c a b sc) (u1.monitorWait i.t.core jwait).1
              (.memory (u1.monitorWait i.t.core jwait).2)))

/-- R51, R53, R289: the leader's spawn reads the launch record as a load and takes one of the team's four pending entries,
or parks with what it has read while none is free; any other thread's traps SPAWN_BAD, and one at depth 10 DEPTH. -/
def Obligations.Spawns : Prop :=
  ∀ (s : State) (i : Issuer) (x : Thread) (c : Ctl) (a : Reg) (u : State) (T : Team) (bytes : List Byte),
    let s1 := s.beginClause i
    let w := syncWord c [a.toNat, a.toNat + 1] []
    let va := (x.pair a.toNat).toNat
    s1.team? i.b.key = some T →
    (x.tid ≠ 0 → TrapsOne s i w x (.spawn c a) s1 .spawnBad kindNone 0)
      ∧ (x.tid = 0 → T.depth = 10 → TrapsOne s i w x (.spawn c a) s1 .depth kindNone 0)
      ∧ (x.tid = 0 → T.depth ≠ 10 → s.launchHas i.b.key (·.det) = false → s.launchHas i.b.key (·.pure) = false →
          s1.spawnRead (i.site w) 0 va (if T.key.teamId = 0 ∧ T.desc.isSeed = true then .exempt else .read) = (u, .ok bytes) →
          (T.spawns.length < 4 → IssuesOne s i w x (.spawn c a)
              ((u.drain i.b.key).modTeam i.b.key fun t => { t with
                spawns := t.spawns ++ [{ slot := ((List.range 4).find? fun n => !T.spawns.any fun e => e.slot == n).getD 0,
                                         bytes := bytes, order := T.spawnCount, pc := i.cl.wordPc }]
                spawnCount := t.spawnCount + 1 }) {})
            ∧ (T.spawns.length = 4 → ParksOne s i w x (.spawn c a) u (.spawn bytes)))

/-- R288, R294: atflush applies the thread's buffered atomics in a deterministic launch and does nothing in another; tbar
performs the team's stores, arrives, and parks its thread after the word while another live thread has not arrived. -/
def Obligations.FlushesAndTeamBarriers : Prop :=
  ∀ (s : State) (i : Issuer) (x : Thread) (c : Ctl) (sc : Scope),
    let s1 := s.beginClause i
    let w := syncWord c [] []
    IssuesOne s i w x (.atflush c)
        (if s.launchHas i.b.key (·.det) then s1.flushThread i.b.key x.tid x.atomSeq else s1) {}
      ∧ (MayIssueOne s i w x → i.b.single = false → (s.core i.t.core).bins = [] → swf Core.fresh s.cores = true →
          (∃ y ∈ i.t.threads, y.tid ≠ x.tid ∧ y.live = true ∧ i.t.thread? y.tid = some y
            ∧ ∀ e ∈ i.t.tbarIn, e.1 ≠ y.tid) →
          Answers (exec (.tbar c sc) s) fun t => ∃ T y, t.team? i.b.key = some T ∧ T.thread? x.tid = some y
            ∧ y.stat = .parked (.tbar sc) ∧ y.pc = (i.next w noRegroup).wordPc
            ∧ T.tbarIn = i.t.tbarIn ++ [(x.tid, sc)] ∧ T.tbarPhase = i.t.tbarPhase ∧ T.visible = i.t.visible)

/-! ## System and walker words -/

/-- R344, R348: syscall and trap park their thread at the word, its earlier stores and atomics performed, in a group of the
word, whose record carries the code and the arguments, or the value. -/
def Obligations.CallsAndTraps : Prop :=
  ∀ (s : State) (i : Issuer) (x : Thread) (c : Ctl) (d a : Reg) (code : BitVec 16) (resume : Bool),
    let ws := ctlWord c ((List.range 8).map (a.toNat + ·)) [d.toNat, d.toNat + 1]
    let wt := ctlWord c [a.toNat] []
    let u := (s.beginClause i).releaseAll i.b.key x.tid x.atomSeq
    let parks (t : State) (p : Group → Prop) : Prop :=
      (∃ y, t.thread? i.b.key x.tid = some y ∧ y.stat = .parked (.group u.nextGroup) ∧ y.pc = i.cl.wordPc)
        ∧ ∃ g ∈ t.groups, g.id = u.nextGroup ∧ g.members = [x.tid] ∧ p g
    i.b.key.isWalker = false → i.b.single = false → (s.core i.t.core).bins = [] → swf Core.fresh s.cores = true →
    (∀ z, u.thread? i.b.key x.tid = some z → z.reissue = none) →
    (MayIssueOne s i ws x → s.launchHas i.b.key (·.pure) = false → Answers (exec (.syscall c d a code) s) fun t =>
        parks t fun g => g.kind = .syscall ∧ g.dest = d.toNat ∧ g.records.map (fun r => (r.cause, r.code, r.args))
          = [(.syscall, code.toNat, [0, 2, 4, 6].map fun n => x.pair (a.toNat + n))])
      ∧ (s.launchHas i.b.key (·.pure) = true → TrapsOne s i ws x (.syscall c d a code) (s.beginClause i) .purity kindNone 0)
      ∧ (MayIssueOne s i wt x → Answers (exec (.trap c a code resume) s) fun t =>
        parks t fun g => g.kind = .trap resume ∧ g.records.map (fun r => (r.cause, r.code, r.value))
          = [(.trap, code.toNat, (x.reg a.toNat).setWidth 64)])

/-- R352, R365, R366, R370, R373: brk issues as a nop where no debugger is attached to the context. Where one is, it stops a
thread that comes to it before the word, with its registers and predicates as they are, stops the launch and files a record
with its code; a thread that brk has stopped there issues it as a nop when it goes on. That brk stops before the word, and once
for each arrival as a breakpoint does, is log entry 117 (DEDUCED). mark issues, and where the context traces marks its record
goes to its core's trace stream: with the stream begun, in order and with room, the 32 bytes of R366 are stored at the
segment's tail, and then the tail. In a walker thread both issue as a nop. -/
def Obligations.BreaksAndMarks : Prop :=
  ∀ (s : State) (i : Issuer) (x : Thread) (c : Ctl) (a : Reg) (code : BitVec 16) (wide : Bool) (ctx l team : Nat),
    let s1 := s.beginClause i
    let wb := ctlWord c [] []
    let wm := ctlWord c (slots wide a) []
    let value := if wide then (x.pair a.toNat).toNat else (x.reg a.toNat).toNat
    (i.b.key.isWalker = true → IssuesOne s i wb x (.brk c code) s1 {} ∧ IssuesOne s i wm x (.mark c a code wide) s1 {})
    ∧ (i.b.key = .user ctx l team →
    ((s.ctx ctx).debug = false ∨ x.brkDone = true → IssuesOne s i wb x (.brk c code) s1 {})
      ∧ ((s.ctx ctx).debug = true → x.brkDone = false → (s.core i.t.core).bins = [] → swf Core.fresh s.cores = true → i.b.single = false →
          (∀ k ∈ s.bundles, k.id ≠ i.b.id → k.key = i.b.key → x.tid ∉ k.tids) →
          MayIssueOne s i wb x → Answers (exec (.brk c code) s) fun t =>
            (∃ y, t.thread? i.b.key x.tid = some y ∧ y.stat = .stopped ∧ y.pc = i.cl.wordPc ∧ y.regs = x.regs
                ∧ y.preds = x.preds ∧ y.win = x.win ∧ y.brkDone = true)
              ∧ (∀ L, t.launch? ctx l = some L → L.stopped = true)
              ∧ ∃ g ∈ t.groups, g.kind = .stop ∧ g.pc = i.cl.wordPc ∧ g.members = [x.tid]
                ∧ g.records.map (fun r => (r.cause, r.code)) = [(.brk, code.toNat)])
      ∧ IssuesOne s i wm x (.mark c a code wide)
          (if (s.ctx ctx).trace.getLsbD 0 && (s.ctx ctx).trace.getLsbD 2 then
            s1.traceRecord i.t.core ctx
              { type := 1, flags := if wide then 1 else 0, tid := x.tid, launch := l, team := team, value := value,
                code := code.toNat }
          else s1) {}
      ∧ (let cfg := (s.ctx ctx).trace
         let y := (s.core i.t.core).stream ctx
         let bytes := 2 ^ (min 8 (cfg.extractLsb' 8 4).toNat + 12)
         let seg := (cfg.extractLsb' 16 40).toNat * 65536 + i.t.core * bytes
         let n := bytes / 32 - 2
         let tail := y.tail % n
         let rec' := bytesOfNat 1 1 ++ bytesOfNat 1 (if wide then 1 else 0) ++ bytesOfNat 2 x.tid
           ++ bytesOfNat 4 (s.ticks - y.last) ++ bytesOfNat 4 l ++ bytesOfNat 4 team ++ bytesOfNat 8 value
           ++ bytesOfNat 2 code.toNat ++ bytesOfNat 2 0 ++ bytesOfNat 4 0
         ∀ u w, cfg.getLsbD 0 = true → cfg.getLsbD 2 = true → y.started = true → y.suspended = false → y.resync = none →
           s.ticks - y.last < 2 ^ 32 → (tail + 1) % n ≠ y.headSeen % n →
           s1.sysWrite ctx (seg + 64 + 32 * tail) rec' = .ok u → u.sysWrite ctx seg (bytesOfNat 8 ((tail + 1) % n)) = .ok w →
           IssuesOne s i wm x (.mark c a code wide)
             (w.modCore i.t.core fun k => k.setStream { y with tail := (tail + 1) % n, last := s.ticks }) {}))

/-- R61, R98, R371, R392: crd brings the pair of words of a control register, but traps PURITY in a pure launch; cwr writes
MXPSTALL anywhere, and the other two from the walker slot alone, where REGROUPAGE takes 16 to 1,024 and ISSUESHAPE a MAXQ of
1 to 16 with a TAU that is not 0. The issue that ends an idle spell of its island has started a ramp (R134). -/
def Obligations.ControlRegisters : Prop :=
  ∀ (s : State) (i : Issuer) (x : Thread) (c : Ctl) (d a : Reg) (r : CReg),
    let s1 := s.beginClause i
    let wr := ctlWord c [] [d.toNat, d.toNat + 1]
    let ww := ctlWord c [a.toNat, a.toNat + 1] []
    let v := x.pair a.toNat
    let rests := s.island (pairOf i.t.core)
    let isl := if rests.idle = true ∧ rests.lastIssue + 1600 < s.cycle i.t.core then
        { rests with idle := false, ramp := true, c0 := s.cycle i.t.core, q := min rests.maxq 1 }
      else { rests with idle := false }
    let maxq := (v.extractLsb' 16 5).toNat
    let tau := (v.extractLsb' 0 16).toNat
    let value : W64 := match r with
      | .regroupage => BitVec.ofNat 64 (s.core i.t.core).regroupAge
      | .mxpstall => (s.pair (pairOf i.t.core)).mxpstall
      | .issueshape => BitVec.ofNat 64 ((if isl.ramp then 2 ^ 36 else 0) + isl.q * 2 ^ 31 + isl.nextMaxq * 2 ^ 16 + isl.nextTau)
    (s.launchHas i.b.key (·.pure) = false → IssuesOne s i wr x (.crd c d r) s1
        (.brings d [value.extractLsb' 0 32, value.extractLsb' 32 32] .arith))
      ∧ (s.launchHas i.b.key (·.pure) = true → TrapsOne s i wr x (.crd c d r) s1 .purity kindNone 0)
      ∧ IssuesOne s i ww x (.cwr c a .mxpstall) (s1.modPair (pairOf i.t.core) fun p => { p with mxpstall := v }) {}
      ∧ (r ≠ .mxpstall → i.b.key.isWalker = false → TrapsOne s i ww x (.cwr c a r) s1 .ill kindNone 0)
      ∧ (i.b.key.isWalker = true → IssuesOne s i ww x (.cwr c a .regroupage)
          (if 16 ≤ (v.extractLsb' 0 11).toNat ∧ (v.extractLsb' 0 11).toNat ≤ 1024 then
            s1.modCore i.t.core fun k => { k with regroupAge := (v.extractLsb' 0 11).toNat } else s1) {})
      ∧ (i.b.key.isWalker = true → MayIssueOne s i ww x → swf Island.fresh s.islands = true →
          Answers (exec (.cwr c a .issueshape) s) fun t => Issued s1 t i ww noRegroup [(x.tid, {})]
            ∧ (1 ≤ maxq → maxq ≤ 16 → 1 ≤ tau →
              (t.island (pairOf i.t.core)).nextMaxq = maxq ∧ (t.island (pairOf i.t.core)).nextTau = tau)
            ∧ (maxq = 0 ∨ 16 < maxq ∨ tau = 0 → (t.island (pairOf i.t.core)).nextMaxq = isl.nextMaxq
              ∧ (t.island (pairOf i.t.core)).nextTau = isl.nextTau))

/-- R98, R199, R216: tlbinv removes what it names from the core; tlbfill puts a valid entry for the walk's ASID into the
core's TLB, unless an invalidation has marked the walk or named a page of the entry during it; wret ends its walker thread
and its walk. tlbfill, wret and tlbinv.all are ILL outside the walker slot. -/
def Obligations.WalkerWords : Prop :=
  ∀ (s : State) (i : Issuer) (x : Thread) (c : Ctl) (a b : Reg) (core slot ctx asid page : Nat) (marked : Bool) (wk : Walk)
    (e : TlbEntry),
    let s1 := s.beginClause i
    let w0 := memWord c [] []
    let wa := memWord c [a.toNat, a.toNat + 1] []
    let wf := memWord c [a.toNat, a.toNat + 1, b.toNat, b.toNat + 1] []
    let wr := memWord c [a.toNat] []
    let user := i.b.key.isWalker = false
    IssuesOne s i wa x (.tlbinvPg c a)
        (s1.invalidate i.t.core (.page (s.asidOf i.b.key) ((x.pair a.toNat).toNat / 65536 % 2 ^ 40))) {}
      ∧ IssuesOne s i w0 x (.tlbinvAsid c) (s1.invalidate i.t.core (.asid (s.asidOf i.b.key))) {}
      ∧ (¬ user → IssuesOne s i w0 x (.tlbinvAll c) (s1.invalidate i.t.core .all) {})
      ∧ (user → TrapsOne s i w0 x (.tlbinvAll c) s1 .ill kindNone 0 ∧ TrapsOne s i wf x (.tlbfill c a b) s1 .ill kindNone 0
          ∧ TrapsOne s i wr x (.wret c a) s1 .ill kindNone 0)
      ∧ (i.b.key = .walker core slot → (s.core core).walks.find? (fun k => k.slot == slot) = some wk →
          (wk.what = .page ctx asid page marked → s.fillOf asid (x.pair a.toNat) (x.pair b.toNat) = .entry e →
            IssuesOne s i wf x (.tlbfill c a b)
              (if marked = true ∨ ∃ i ∈ wk.invals, i.hits e.asid e.va e.size = true then s1.markWalk core slot
               else s1.modCore core fun k => { k with tlb := tlbPut k.tlb e }) {})
          ∧ (MayIssueOne s i wr x → swf Core.fresh s.cores = true → Answers (exec (.wret c a) s) fun t =>
              (∀ k ∈ (t.core core).walks, k.slot = slot → k.what = .call)
                ∧ (s.callBusy = false ∨ wk.what = .call → t.team? (.walker core slot) = none
                  ∧ (∀ k ∈ (t.core core).walks, k.slot ≠ slot) ∧ (∀ k ∈ t.bundles, k.key ≠ .walker core slot))))

/-! ## Events of cores and their units -/

/-- R83, R84, R99, R108: a bundle between clauses of a team that may begin one fetches its next clause, all of it: one
header and the number of words that it counts. A header that breaks R83 traps ILL, and a header or a word that cannot be
fetched traps with its cause; the threads of the bundle park at the header. -/
def Obligations.ClauseFetches : Prop :=
  ∀ (s : State) (b : Bundle) (T : Team) (u u' : State) (h z : W64) (ws : List W64) (c : Cause),
    let core := s.coreOf b.key
    let bad := 4 < (h.extractLsb' 60 4).toNat ∨ (h.extractLsb' 0 28).toNat ≠ 0
    let n := (h.extractLsb' 56 4).toNat + 1
    let parks (u : State) (cause : Cause) : Prop :=
      b.key.isWalker = false → b.tids ≠ [] →
      (∀ y, u.thread? b.key (b.tids.headD 0) = some y → y.reissue = none) →
      Answers (exec (.clauseFetch b.id) s) fun t => ∃ g ∈ t.groups, g.id = u.nextGroup ∧ g.members = b.tids ∧ g.pc = b.pc
        ∧ g.records.map (·.cause) = [cause]
    s.bundle? b.id = some b → s.team? b.key = some T →
    (b.clause ≠ none ∨ s.mayBegin T = false ∨ s.breaks b = true → Stays (.clauseFetch b.id) s)
      ∧ (b.clause = none → s.mayBegin T = true → s.breaks b = false →
          (s.fetchWord b core b.pc true = (u, .fault c) → parks u c)
            ∧ (s.fetchWord b core b.pc true = (u, .word h) → bad → parks u .ill)
            ∧ (s.fetchWord b core b.pc true = (u, .word h) → ¬ bad →
              (u.fetchWords b core b.pc (h.getLsbD 30) (n + 1) [] = (u', .fault c, ws) → parks u' c)
                ∧ (u.fetchWords b core b.pc (h.getLsbD 30) (n + 1) [] = (u', .word z, ws) →
                  Answers (exec (.clauseFetch b.id) s) fun t => ws.length = n + 1 ∧ t.bundle? b.id = some { b with
                    clause := some { hdr := b.pc, head := h, words := ws.tail, idx := 0, begun := false, reform := [],
                                     rejoin := false, grouped := false }
                    held := false, waits := [], notes := [] })))

/-- R104, R114, R134, R195, R263, R293, R373: a pending result lands in its registers; the oldest store of a FIFO is
performed; a walk at its limit ends; a bin of full age is drawn as one bundle; an island without an issue for 1,600 cycles
is idle; the fraction of a ramp grows by one every 16 TAU cycles from its start to MAXQ; a breakpoint stops the threads before
it and writes one record; a starving team's buffered atomics are flushed. That idleness also counts from the start of a ramp
is log entry 78 (DEDUCED), and that a ramp ends at the MAXQ in force is log entry 116 (DEDUCED). -/
def Obligations.CoreEvents : Prop :=
  ∀ (s : State) (core : Nat), swf Core.fresh s.cores = true →
    let cyc := s.cycle core
    (∀ (n : ThreadName) (k : Nat) (x : Thread) (p : Pend) (ws : List W32), s.thread? n.key n.tid = some x →
        x.pend.find? (fun p => p.id == k) = some p → p.value = some ws → swf 0 x.regs = true →
        Answers (exec (.resultLands n k) s) fun t => ∃ y, t.thread? n.key n.tid = some y
          ∧ (∀ r, y.reg r = if p.reg ≤ r ∧ r < p.reg + ws.length then ws.getD (r - p.reg) 0 else x.reg r)
          ∧ y.pend = x.pend.filter (fun q => q.id != p.id) ∧ y.preds = x.preds ∧ y.pc = x.pc ∧ y.stat = x.stat)
      ∧ (∀ (e : StoreEntry) (rest : List StoreEntry) (pa : Nat), (s.core core).fifo = e :: rest → e.place = .here pa →
        e.descr = none → s.populated pa = true → inWindows pa = false → s.MemoryWf →
        Answers (exec (.storePerform core) s) fun t => (t.core core).fifo = rest
          ∧ ∀ a, sget 0 t.mem a = if pa ≤ a ∧ a < pa + e.bytes.length then e.bytes.getD (a - pa) 0 else sget 0 s.mem a)
      ∧ (∀ (slot : Nat) (w : Walk), (s.core core).walks.find? (fun w => w.slot == slot) = some w → w.what ≠ .call →
        (w.started + walkLimit s.walkCfg ≤ cyc → Answers (exec (.walkLimitExpiry core slot) s) fun t =>
            (∀ k ∈ (t.core core).walks, k.slot = slot → k.what = .call)
              ∧ (s.callBusy = false → t.team? (.walker core slot) = none ∧ ∀ k ∈ (t.core core).walks, k.slot ≠ slot))
          ∧ (cyc < w.started + walkLimit s.walkCfg → Stays (.walkLimitExpiry core slot) s))
      ∧ (∀ (n : Nat) (b : Bin), (s.core core).bins.find? (fun b => b.idx == n) = some b → b.tids ≠ [] →
        (∀ j ∈ b.tids, ∀ y, s.thread? b.key j = some y → y.stopNext = false) →
        (b.filed + b.age ≤ cyc → Answers (exec (.regroupAgeExpiry core n) s) fun t => (∀ y ∈ (t.core core).bins, y.idx ≠ n)
            ∧ ∃ k ∈ t.bundles, k.key = b.key ∧ k.pc = b.pc ∧ k.clause = none ∧ ∀ j, j ∈ k.tids ↔ j ∈ b.tids)
          ∧ (cyc < b.filed + b.age → Stays (.regroupAgeExpiry core n) s))
      ∧ (∀ (isl : Nat), let i := s.island isl
        let now := s.islandCycle isl
        let j := i.latch now
        let put (k : Island) : State := { s with islands := sset .fresh s.islands isl k }
        let q := if j.ramp then min j.maxq (1 + (now - j.c0) / (16 * j.tau)) else j.maxq
        (max i.lastIssue i.c0 + 1600 < now → Goes (.islandIdle isl) s (put { i with idle := true }))
          ∧ (now ≤ max i.lastIssue i.c0 + 1600 → Stays (.islandIdle isl) s)
          ∧ Goes (.rampStep isl) s (put { j with q := q, ramp := j.ramp && decide (q < j.maxq) }))
      ∧ (∀ (n : ThreadName) (bp : Nat) (b : Bundle) (T : Team),
        s.bundles.find? (fun b => b.key == n.key && (s.breaking b bp).contains n.tid) = some b → s.team? b.key = some T →
        T.core = core → T.tbarIn = [] → (s.core core).bins = [] →
        (∀ k ∈ s.bundles, k.id ≠ b.id → k.key = b.key → ∀ j ∈ k.tids, j ∉ b.tids) →
        Answers (exec (.breakpointHit n bp) s) fun t =>
          (∀ j ∈ s.breaking b bp, ∀ x, s.thread? b.key j = some x → ∃ y, t.thread? b.key j = some y
            ∧ y.stat = .stopped ∧ y.pc = b.nextPc ∧ y.regs = x.regs)
          ∧ ∃ g ∈ t.groups, g.kind = .stop ∧ g.records.map (fun r => (r.cause, r.code)) = [(.brk, 0xFFFF)])
      ∧ (∀ (k : TeamKey) (T : Team), s.team? k = some T → T.core = core →
        (s.starves T = true → Answers (exec (.starvationFlush k) s) fun t => ∀ e ∈ (t.core core).atoms, e.key ≠ k)
          ∧ (s.starves T = false → Stays (.starvationFlush k) s))

/-- R233 to R235, R246 to R248, R253, R254, R286, R318: a wait whose word a reread would let it return from is over, and its
thread goes on after the word; a polled wait that is not over is reread 1,600 core cycles later; a block of a tile copy lands whole, and the copy retires with its last block, its scoreboard entry and its arrival; a page
that is not present stops a copy with a record; the engine takes the first operation that is clear of the ones it waits
on, and performs it whole as it retires; a stream comes complete, or stops on a page; a failed fetch is recorded, and kills
its swarm once the swarm's copies have retired or stopped: one that cannot start again fails the launch. -/
def Obligations.UnitEvents : Prop :=
  ∀ (s : State),
    (∀ (n : ThreadName) (T : Team) (x : Thread) (w : MemWait) (c : Clause), s.team? n.key = some T → s.thread? n.key n.tid = some x →
        x.stat = .parked (.memory w) → x.clause = some c → c.idx + 1 < c.words.length → x.stopNext = false →
        T.isResident = true → T.tbarIn = [] → swf Core.fresh s.cores = true → (s.core T.core).bins = [] →
        (T.threads.map (·.tid)).Nodup → s.podHolds n = false →
        (∀ y ∈ T.threads, ∀ w', y.stat = .parked (.memory w') → ∀ b, s.waitBlock n.key w' = some b → b.poison = none) →
        let goesOn (t : State) : Prop := ∃ y, t.thread? n.key n.tid = some y ∧ y.stat = .running ∧ y.pc = c.wordPc + 8
        (w.polled = true ∨ s.waitOver n.key w = false → Stays (.waitWake n) s)
          ∧ (w.polled = false ∨ s.cycle T.core < w.nextPoll → Stays (.waitPoll n) s)
          ∧ (w.polled = false → s.waitOver n.key w = true → Answers (exec (.waitWake n) s) goesOn)
          ∧ (w.polled = true → w.nextPoll ≤ s.cycle T.core →
            (s.waitOver n.key w = true → Answers (exec (.waitPoll n) s) goesOn)
              ∧ (s.waitOver n.key w = false → Goes (.waitPoll n) s (s.modThread n.key n.tid fun y =>
                { y with stat := .parked (.memory { w with nextPoll := s.cycle T.core + 1600 }) }))))
      ∧ (∀ (op blk : Nat) (m : Move) (T : Team) (pa k : Nat) (src : Block), s.move? op = some m → m.kind = .tcopy →
        s.blockReady m blk = true → (m.block blk).nibs ≠ 0 → s.moveParts m blk = .ok [(.here pa, k)] →
        s.readBlock (.here pa) = some src → s.team? m.key = some T →
        Answers (exec (.copyBlockLand op blk) s) fun t =>
          t.team? m.key = some (T.landBlock m.lay (m.off + (m.block blk).off) (m.block blk) src)
            ∧ t.move? op = some { m with left := m.left.filter (· != blk) } ∧ t.mem = s.mem)
      ∧ (∀ (op : Nat) (m : Move), s.move? op = some m → m.left = [] →
        let gone (t : State) : Prop := t.move? op = none ∧ ∀ e ∈ t.board, e.op ≠ op
        (m.kind.isXfer = false → Answers (exec (.copyRetire op) s) gone)
          ∧ (m.kind.isXfer = true → m.sent = true → Answers (exec (.transferRetire op) s) gone))
      ∧ (∀ (op blk : Nat) (m : Move), s.move? op = some m → s.blockReady m blk = true → m.kind.isXfer = false →
        (m.block blk).nibs ≠ 0 → s.moveParts m blk = .error .pageNp →
        Answers (exec (.copyPageFault op blk) s) fun t => t.move? op = some { m with stopped := some s.nextGroup }
          ∧ ∃ g ∈ t.groups, g.id = s.nextGroup ∧ g.kind = .move op
            ∧ g.records.map (fun r => (r.cause, r.addr)) = [(.pageNp, (m.block blk).va)])
      ∧ (∀ (pair : Nat) (o : MatOp), (s.pair pair).nextOp? = some o → (o.isStream = true → o.streamed ≠ []) →
        let x := s.pair pair
        let x' : Pair := { x with queue := x.queue.map fun q => if q.id = o.id then { q with begun := true } else q }
        Goes (.matrixOpBegin pair) s { s with pairs := sset .fresh s.pairs pair x' })
      ∧ (∀ (pair op : Nat) (o : MatOp), (s.pair pair).queue.find? (fun o => o.id == op) = some o → o.begun = true →
        swf Pair.fresh s.pairs = true →
        Answers (exec (.matrixOpRetire pair op) s) fun t => (∀ q ∈ (t.pair pair).queue, q.id ≠ op)
          ∧ (∀ e ∈ t.board, e.op ≠ op) ∧ (t.pair pair).tiles = ((s.pair pair).perform o).tiles
          ∧ (t.pair pair).flg = ((s.pair pair).perform o).flg)
      ∧ (∀ (pair op : Nat) (o : MatOp) (bs : List (Nat × Block)) (va : Nat), (s.pair pair).queue.find? (fun o => o.id == op) = some o →
        o.isStream = true → o.streamed = [] → o.stopped = none → (s.landing (2 * pair)).contains op = true →
        let x := s.pair pair
        let upd (f : MatOp → MatOp) : List (Nat × Pair) :=
          sset .fresh s.pairs pair { x with queue := x.queue.map fun q => if q.id = op then f q else q }
        (s.readStream o = .ok bs → o.streamBad bs = none →
            Goes (.mmsStreamComplete pair op) s { s with pairs := upd fun q => { q with streamed := bs } })
          ∧ (s.readStream o = .error (.pageNp, va) → Answers (exec (.mmsStreamComplete pair op) s) fun t =>
            t.pairs = upd (fun q => { q with stopped := some s.nextGroup, stopVa := some va })
              ∧ ∃ g ∈ t.groups, g.id = s.nextGroup ∧ g.records.map (fun r => (r.cause, r.addr)) = [(.pageNp, va)]))
      ∧ (∀ (pair op : Nat) (why : MxWhy) (o : MatOp) (T : Team) (ctx l team : Nat) (L : Launch),
        (s.pair pair).queue.find? (fun o => o.id == op) = some o → s.team? o.key = some T → T.key = .user ctx l team →
        s.launch? ctx l = some L → L.stat = .begun → s.fetchFails o why = true →
        let noted (t : State) : Prop := ∃ a, t.mxFetches = s.mxFetches ++ [{ key := o.key, tid := o.tid, pc := o.pc, addr := a }]
          ∧ (∀ va, why = .prot → s.readStream o = .error (.pageProt, va) → a = some va) ∧ (why = .cancel → a = o.stopVa)
        ((∃ m ∈ s.moves, m.key = o.key ∧ m.stopped = none) → Answers (exec (.mxFetch pair op why) s) fun t => noted t
            ∧ (∃ T', t.team? o.key = some T' ∧ T'.killed = some .mxFetch) ∧ ∀ b ∈ t.bundles, b.key ≠ o.key)
          ∧ (s.relaunchable T = false → (∀ m ∈ s.moves, ∀ u ∈ s.killSet T, m.key = u.key → m.stopped ≠ none) →
            Answers (exec (.mxFetch pair op why) s) fun t => noted t
              ∧ ∃ L' c, t.launch? ctx l = some L' ∧ L'.stat = .failed c ∧ ((s.ctx ctx).acct.log2n = 0 → c = .mxFetch)))

/-! ## Events of the front end -/

/-- R37 to R39, R42, R43, R362: the writes of a queue's registers, and the fetch of one packet of the queue chosen, which
takes the context's next sequence number. -/
def Obligations.QueueEvents : Prop :=
  ∀ (s : State) (q : Nat) (v : W64) (widx : W32), q < 256 →
    let x := s.queue q
    let put (y : Queue) : State := { s with queues := sset .fresh s.queues q y }
    let cfg : Queue := { x with ctx := (v.extractLsb' 40 6).toNat, msix := (v.extractLsb' 32 8).toNat,
                                prio := (v.extractLsb' 28 4).toNat, log2slots := (v.extractLsb' 16 5).toNat }
    (v.getLsbD 0 = true → x.en = true ∨ s.queueActive q = true → Stays (.queueEnable q v) s)
      ∧ (v.getLsbD 0 = true → x.en = false → s.queueActive q = false → Goes (.queueEnable q v) s (put (
          if 4 ≤ cfg.log2slots ∧ cfg.log2slots ≤ 16 then
            { cfg with en := true, widx := 0, fidx := 0, cidx := 0, hidx := 0, halt := false, haltFrom := none, stamps := [] }
          else { cfg with cfgErr := true })))
      ∧ (v.getLsbD 0 = false → Goes (.queueDisable q v) s (put (if x.en then { x with en := false } else cfg)))
      ∧ Goes (.queueHaltClear q v) s (put { x with
          cfgErr := if v.getLsbD 3 then false else x.cfgErr, overrun := if v.getLsbD 2 then false else x.overrun,
          halt := if v.getLsbD 1 then false else x.halt, haltFrom := if v.getLsbD 1 then none else x.haltFrom })
      ∧ Goes (.qwptrDoorbell q widx) s (put (
          if 2 ^ x.log2slots < (widx - x.cidx).toNat ∨ 2 ^ 31 ≤ (widx - x.widx).toNat then
            { x with overrun := true, stamp := 0 }
          else { x with widx := widx, stamp := 0, stamps := if widx = x.widx then x.stamps
            else x.stamps ++ [(widx.toNat, if x.stamp = 0 then s.ticks else x.stamp.toNat)] }))
      ∧ (s.nextQueue = none → Stays .packetFetch s)
      ∧ (∀ (bytes : List Byte), s.nextQueue = some q → s.sysRead x.ctx (x.base + 128 * (x.fidx.toNat % 2 ^ x.log2slots)) 128 = .ok bytes →
          let p : Packet :=
            { name := { q := q, idx := x.fidx.toNat }, ctx := x.ctx, prio := x.prio, seq := (s.ctx x.ctx).nextSeq,
              slot := x.base + 128 * (x.fidx.toNat % 2 ^ x.log2slots), bytes := bytes, submit := x.stampOf x.fidx.toNat,
              stage := .fetched, launch := 0, began := s.ticks, coll := none, sealed := none, idDue := false,
              ending := none }
          p.headOk = true → p.bodyOk = true → Answers (exec .packetFetch s) fun t => t.packets = s.packets ++ [p]
            ∧ t.queues = sset .fresh s.queues q { x with
                fidx := x.fidx + 1, stamps := x.stamps.filter fun e => idxBefore (x.fidx.toNat + 1) e.1 }
            ∧ t.ctxs = sset .fresh s.ctxs x.ctx { s.ctx x.ctx with nextSeq := (s.ctx x.ctx).nextSeq + 1 })

/-- R41, R45, R47, R66, R322, R335, R359, R394: how packets that the front end or the hive carries out begin and end. A WRITE
stores its value; a WAITV ends once its condition holds, or at its timeout; a FENCE once what it waits for has completed;
SEAL and CANCEL go to the hive; a COLL whose fields are wrong ends with check 16. A packet that its context's end cut short
ends as soon as its pages are there. A packet that did not end well halts its queue at itself. -/
def Obligations.PacketEvents : Prop :=
  ∀ (s : State) (n : PktName) (p : Packet),
    let ends (i : Instr) (u : State) (e : PktEnd) : Prop := ∀ t, u.completePacket p e = some t → Goes i s t
    -- a packet of a kind that may begin, or has begun, and the state in which it has
    let runs (k : Nat) : Prop :=
      s.packet? n = some p ∧ p.kind = k ∧ p.ending = none ∧ (p.stage = .begun ∨ s.mayStart p = true)
    let u : State := if p.stage = .begun then s else { s with
      packets := s.packets.map fun y => if y.name = p.name then { y with stage := .begun, began := s.ticks } else y }
    (runs 3 → ∀ w, u.feStore p.ctx (p.field 0x40 8) (bytesOfNat (p.field 0x50 1) (p.field 0x48 8)) = .ok w →
        ∀ t, w.completePacket p { state := 1 } = some t → Goes (.writePacket n) s t)
      ∧ (runs 4 → ∀ w, u.waitRead p = .ok w →
        let m := 2 ^ (8 * p.field 0x58 1)
        let a := w % m &&& p.field 0x50 8 % m
        let b := p.field 0x48 8 % m &&& p.field 0x50 8 % m
        let holds := match p.field 0x59 1 with | 0 => a = b | 1 => a ≠ b | 2 => b ≤ a | _ => a < b
        (holds → ends (.waitvPacket n) u { state := 1 })
          ∧ (¬ holds → Goes (.waitvPacket n) s u))
      ∧ (s.packet? n = some p → s.waitLate p = true → ends (.waitvTimeout n) s { state := 5 })
      ∧ (s.packet? n = some p → s.waitLate p = false → Stays (.waitvTimeout n) s)
      ∧ (runs 5 → u.fenceReady p = true → ends (.fencePacket n) u { state := 1 })
      ∧ (runs 5 → u.fenceReady p = false → Goes (.fencePacket n) s u)
      ∧ (∀ e, s.packet? n = some p → p.ending = some e → ends (.writePacket n) s e ∧ ends (.waitvPacket n) s e
          ∧ ends (.fencePacket n) s e ∧ ends (.sealPacket n) s e ∧ ends (.cancelPacket n) s e ∧ ends (.collPacket n) s e
          ∧ ends (.launchPacket n) s e)
      ∧ (s.starting? n 7 = some p → p.ending = none → s.events.length < 4096 → s.deferred = [] → Goes (.cancelPacket n) s
          { s with
            packets := s.packets.map fun y => if y.name = p.name then { y with stage := .hive, began := s.ticks } else y
            events := s.events ++ [.packet p] })
      ∧ (s.starting? n 6 = some p → p.ending = none → (s.ctx p.ctx).frozen = false → p.zero 0x4C 4 = true → p.zero 0x70 16 = true →
          p.field 0x40 8 % 64 = 0 → 3748 ≤ p.field 0x48 4 → s.events.length < 4096 → s.deferred = [] →
          let c := s.ctx p.ctx
          let j : Seal :=
            { chain := c.chain, launches := c.launches, completions := c.completions, entries := c.unsealed, stamp := s.ticks }
          Goes (.sealPacket n) s { s with
            packets := s.packets.map fun y => if y.name = p.name then { y with stage := .hive, began := s.ticks, sealed := some j } else y
            events := s.events ++ [.packet p] })
      ∧ (s.starting? n 2 = some p → p.ending = none → s.collFieldsOk p = false → ends (.collPacket n) s { state := 3, check := 16 })
      ∧ (s.starting? n 2 = some p → p.ending = none → s.collFieldsOk p = true → p.isPod = true → s.packet? p.name = some p →
          Answers (exec (.collPacket n) s) fun t => ∃ y c, t.packet? p.name = some y ∧ y.stage = .begun ∧ y.coll = some c
            ∧ c.matched = [p.me] ∧ c.stamps = [(p.me, s.ticks)] ∧ c.release = none)
      ∧ (∀ e t, p.signals = false → s.completePacket p e = some t → 3 ≤ e.state →
          (t.queue p.name.q).halt = true ∧ (t.queue p.name.q).hidx = BitVec.ofNat 32 p.name.idx)

/-- R48 to R57, R65, R290, R336, R355, R394: a LAUNCH that passes its checks becomes a waiting launch with the context's next
id, which is written once its page is there; one whose turn it is begins, with its seed's grid at its home die; a launch that hits the reuse table but whose entry is
gone goes to placement; of the teams with spawn records only the one whose turn it is is served, a record that passes is a
new grid of the tree, and one that does not fails the launch with SPAWN_BAD; a launch completes once its tree has, or, if it failed, once its threads have halted. -/
def Obligations.LaunchEvents : Prop :=
  ∀ (s : State) (n : PktName) (p : Packet) (L : Launch), s.packet? n = some p → p.name = n → p.ending = none →
    let r := LRec.ofBytes (p.bytes.drop 0x40)
    let first := s.packets.all fun x => !(x.ctx == p.ctx && x.isLaunch && x.stage == .fetched && decide (x.seq < p.seq))
    (p.isLaunch = true → p.stage = .fetched → p.idDue = false → first = true →
        (∀ k t, s.checkLaunch p.ctx r false false = .fail k → s.completePacket p { state := 3, check := k } = some t →
            Goes (.launchPacket n) s t)
          ∧ (∀ d ivs args, s.checkLaunch p.ctx r false false = .ok d ivs args → Answers (exec (.launchPacket n) s) fun t =>
            ∃ l ∈ t.launches, l.ctx = p.ctx ∧ l.id = (s.ctx p.ctx).nextLaunch ∧ l.pkt = n ∧ l.seq = p.seq ∧ l.prio = p.prio
              ∧ l.stat = .waiting ∧ l.desc = d ∧ l.args = args ∧ l.inputs = ivs.take r.inputs ∧ l.outputs = ivs.drop r.inputs))
      ∧ (p.idDue = false → p.isLaunch = false ∨ p.stage ≠ .fetched ∨ first = false → Stays (.launchPacket n) s)
      ∧ (∀ u, p.idDue = true → s.feStore p.ctx (p.slot + 0x3C) (bytesOfNat 4 p.launch) = .ok u → Goes (.launchPacket n) s
          { u with packets := u.packets.map fun x => if x.name = p.name then { x with idDue := false } else x })
      ∧ (s.launch? p.ctx p.launch = some L →
        (s.mayLaunch p L = false → Stays (.launchBegin n) s)
          ∧ (∀ u ds g die, s.mayLaunch p L = true → L.pure = false →
            ({ s with packets := s.packets.map fun x => if x.name = p.name then { x with stage := .begun } else x }
              : State).hashIntervals L.ctx L.inputs = (u, .ok ds) →
            u.seedGrid L.ctx L.desc = .ok g → s.homeDie L.ctx = some die → Answers (exec (.launchBegin n) s) fun t =>
              ∃ l, t.launch? L.ctx L.id = some l ∧ l.stat = .begun ∧ l.homeDie = die ∧ l.tree = 1
                ∧ l.mask = (s.ctx L.ctx).cores ∧ l.grids.map (·.id) = [0] ∧ l.inDigests = ds)
          ∧ (L.stat ≠ .reusing → Stays (.reuseCopyComplete n) s)
          ∧ (L.stat = .reusing → s.reuseHit L = none → Goes (.reuseCopyComplete n) s (s.placeSeed L.ctx L.id))
          ∧ (∀ R e t, L.stat = .reusing → s.reuseHit L = some R → R.outs = L.outputs → L.done = 0 →
            s.launchEnd L { state := 2 } = some e → e.state = 2 → s.finishLaunch L e true R.digests = some t →
            Goes (.reuseCopyComplete n) s t))
      ∧ (∀ (k : TeamKey) (T : Team) (l : Launch) (e : PendingLaunch), s.team? k = some T → s.launchOf? k = some l →
          T.nextSpawn = some e → l.stat = .begun →
          let r := LRec.ofBytes e.bytes
          (s.spawnTurn? ≠ some k → Stays (.spawnAccept k) s) ∧ (s.spawnTurn? = some k →
          (∀ c, ringApart s l → s.checkLaunch l.ctx r true (l.spawnDiffers r) = .fail c → Answers (exec (.spawnAccept k) s) fun t =>
              ∃ l', t.launch? l.ctx l.id = some l' ∧ l'.stat = .failed .spawnBad)
            ∧ (∀ d ivs args, s.checkLaunch l.ctx r true (l.spawnDiffers r) = .ok d ivs args → l.pure = false →
              Answers (exec (.spawnAccept k) s) fun t => ∃ l', t.launch? l.ctx l.id = some l' ∧ l'.tree = l.tree + 1
                ∧ l'.nextTeam = l.nextTeam + r.teams ∧ ∃ g ∈ l'.grids, g.id = l.nextGrid
                  ∧ g.depth = T.depth + 1 ∧ g.firstTeam = l.nextTeam ∧ g.desc = d ∧ g.args = args)))
      ∧ (∀ ctx id l, s.launch? ctx id = some l →
          (∀ c u, l.stat = .failed c → s.halted l = true → s.endFailed l c = some u → Goes (.launchComplete ctx id) s u.wake)
            ∧ (∀ c, l.stat = .failed c → s.halted l = false → Stays (.launchComplete ctx id) s)
            ∧ (∀ u, l.stat = .begun → l.tree = 0 → l.grids ≠ [] → s.completeLaunch l = some u →
              Goes (.launchComplete ctx id) s u.wake)
            ∧ (l.stat = .begun → l.tree ≠ 0 → Stays (.launchComplete ctx id) s))

/-! ## Events of the dies -/

/-- R71 to R76, R81, R82, R122, R255: a die takes a batch of a grid; it starts a killed swarm that starts again where a window
holds it, else the swarm whose reserved window is free, else the first work in a window that holds it, or notes that the work
waits; for a waiting swarm it tries migration up to three times or 100 µs, then pre-empts, then reserves; a
parked team gives up its core where that makes room for work that waits, and comes back once it can go on, but fails its launch
with MACHINE where no window is left to it (R77; log entry 126, DEDUCED, the model's reading); a team retires with its last
thread, its grids and its copies. -/
def Obligations.DispatchEvents : Prop :=
  ∀ (s : State) (die : Nat), die < 8 →
    (∀ ctx id g l G, s.launch? ctx id = some l → l.grid? g = some G →
        (s.takesBatch l G die = false → Stays (.dispatchBatch die ctx id g) s)
          ∧ (s.takesBatch l G die = true → Answers (exec (.dispatchBatch die ctx id g) s) fun t =>
            ∃ l' G', t.launch? ctx id = some l' ∧ l'.grid? g = some G' ∧ G'.counter = G.counter + l.batchFor G
              ∧ G'.owned = (G.owned.filter fun o => o.die != die)
                ++ [{ die := die, next := G.counter, last := min (G.counter + l.batchFor G) G.teams - 1 }]))
      ∧ (let starts (x : Work) (w : Nat) (t : State) : Prop := ∀ j, j < x.count → ∃ T ∈ t.teams,
            T.key = .user x.l.ctx x.l.id (x.g.firstTeam + (x.index + j)) ∧ T.core = w + j ∧ T.place = .resident
              ∧ T.index = x.index + j ∧ T.swarmIdx = (x.index + j) % x.g.desc.swarm ∧ T.depth = x.g.depth
              ∧ T.threads.length = x.g.desc.threads
        let fits (x : Work) : Option Nat := s.findWindow x.l x.swarm x.desc die
        let again := firstWork (s.restartsOn die)
        (∀ x w, again = some x → fits x = some w → Answers (exec (.dispatchStart die) s) (starts x w))
        ∧ ((∀ x, again = some x → fits x = none) →
        (∀ x w, s.reservedReady die = some (x, w) → Answers (exec (.dispatchStart die) s) (starts x w))
        ∧ (s.reservedReady die = none →
        (s.readmitting die = true → Stays (.dispatchStart die) s)
          ∧ (s.readmitting die = false → s.nextWork die = none → Stays (.dispatchStart die) s)
          ∧ (∀ x w, s.readmitting die = false → s.nextWork die = some x → fits x = some w →
            Answers (exec (.dispatchStart die) s) (starts x w))
          ∧ (∀ x, s.readmitting die = false → s.nextWork die = some x → fits x = none →
            Goes (.dispatchStart die) s (s.noteWaiting die x)))))
      ∧ (s.pursued die (fun y => !y.givenUp && (s.reservedCores die y).isEmpty) = none → Stays (.migrationAttempt die) s)
      ∧ (∀ y x, s.pursued die (fun y => !y.givenUp && (s.reservedCores die y).isEmpty) = some (y, x) → y.victims = [] →
          (s.cheapest x die = none → Goes (.migrationAttempt die) s (s.modWaiting die y fun y => { y with
              attempts := y.attempts + 1, firstTry := some (y.firstTry.getD s.ticks), victims := []
              givenUp := y.givenUp || decide (3 ≤ y.attempts + 1) }))
            ∧ (∀ w ks, s.cheapest x die = some (w, ks) → (∀ k ∈ ks, s.movable k = true) → Goes (.migrationAttempt die) s
              (s.modWaiting die y fun y => { y with
                victims := ks, clearing := w, firstTry := some (y.firstTry.getD s.ticks) })))
      ∧ (∀ y, (s.die die).waiting.find? (fun y => !y.givenUp && (match y.firstTry with
            | some t => decide (t + 100000 ≤ s.ticks) | none => false)) = some y →
          Goes (.migrationTimeout die) s (s.modWaiting die y fun y => { y with givenUp := true, victims := [] }))
      ∧ (∀ y x, s.pursued die (fun y => y.givenUp && !y.preempted && (s.reservedCores die y).isEmpty) = some (y, x) → y.victims = [] →
          (s.preemptTarget x die = none → Stays (.spatialPreempt die) s)
            ∧ (∀ w ks, s.preemptTarget x die = some (w, ks) → Goes (.spatialPreempt die) s
              (s.modWaiting die y fun y => { y with victims := ks, clearing := w })))
      ∧ (∀ y x w ks, s.pursued die (fun y => y.givenUp && (s.reservedCores die y).isEmpty && y.victims.isEmpty) = some (y, x) →
          y.preempted = true ∨ s.preemptTarget x die = none → s.cheapest x die = some (w, ks) →
          Goes (.windowReserve die) s (s.modWaiting die y fun y => { y with window := some w }))
      ∧ (∀ k T, s.team? k = some T → k.isWalker = false →
          (s.swapThr = 0 → Stays (.swapOut k) s)
            ∧ (s.swapThr ≠ 0 → s.needsRoom T = true → T.desc.swarm ≤ 1 → s.swappable T = true →
              Answers (exec (.swapOut k) s) fun t => ∃ T', t.team? k = some T' ∧ T'.place = .saved (dieOf T.core) false true
                ∧ ∀ b ∈ t.bundles, b.key ≠ k)
            ∧ (s.canReadmit T = false → Stays (.swapReadmit k) s)
            ∧ (∀ l, s.canReadmit T = true → s.launchOf? k = some l → s.roomLeft T = false →
              Answers (exec (.swapReadmit k) s) fun t =>
                ∃ l' ∈ t.launches, l'.ctx = l.ctx ∧ l'.id = l.id ∧ l'.stat = .failed .machine)
            ∧ (∀ d w, s.readmitDie T = some d → s.canReadmit T = true → s.roomLeft T = true → T.desc.swarm ≤ 1 → T.swarmIdx = 0 →
              s.readmitWindow T d = some w → Answers (exec (.swapReadmit k) s) fun t =>
                ∃ T', t.team? k = some T' ∧ T'.place = .resident ∧ T'.core = w)
            ∧ (∀ t0 w, T.readySince = some t0 → t0 + 100000 ≤ s.ticks → s.canReadmit T = true →
              s.launchHas k (·.det) = false → T.desc.swarm ≤ 1 → T.swarmIdx = 0 → s.readmitWindow T die = some w →
              Answers (exec (.readmitOtherDie k die) s) fun t =>
                ∃ T', t.team? k = some T' ∧ T'.place = .resident ∧ T'.core = w))
      ∧ (∀ k T l, s.team? k = some T → s.launchOf? k = some l →
          (s.retires l T = false → Stays (.teamRetire k) s)
            ∧ (∀ g, s.retires l T = true → l.grid? T.grid = some g → g.retired + 1 < g.teams →
              Answers (exec (.teamRetire k) s) fun t => t.team? k = none ∧ (∀ b ∈ t.bundles, b.key ≠ k)
                ∧ ∃ l' g', t.launch? l.ctx l.id = some l' ∧ l'.grid? T.grid = some g' ∧ g'.retired = g.retired + 1
                  ∧ l'.spViol = (l.spViol || T.faultMask != 0)))

/-! ## Events of the hive -/

/-- R40, R41, R68: a context is enabled with quotas that fit and an ASID of its own, and changes its quotas, or the write is
ignored. Torn down, it is disabled and its chain frozen, its quotas are those of the write, its packets that no launch
completes have ended or end once their pages are there, its launches have failed and have their completion records, and it
has no core, no reuse entry, no segment and no pod barrier. A grant is written whole or not at all. That an enable keeps the
context's launch ids and sequence numbers is log entry 55 (DEDUCED); which completion records a teardown makes, and their
order, is log entry 62 (DEDUCED). -/
def Obligations.ContextEvents : Prop :=
  ∀ (s : State) (ctx : Nat) (v : W64), ctx < 64 → swf Ctx.fresh s.ctxs = true → swf Core.fresh s.cores = true →
    let c := s.ctx ctx
    let others := s.othersEnabled ctx
    let iv := (v.extractLsb' 48 11).toNat
    let reuse := (v.extractLsb' 31 17).toNat
    let asid := (v.extractLsb' 0 16).toNat
    let fits : Prop :=
      16 ≤ iv ∧ iv + (others.map (·.ivQuota)).sum ≤ 1024 ∧ reuse + (others.map (·.reuseQuota)).sum ≤ 65536
    let put (x : Ctx) : State := { s with ctxs := sset .fresh s.ctxs ctx x }
    (s.boot.done = false → Stays (.ctxEnable ctx v) s ∧ Stays (.ctxQuotaChange ctx v) s ∧ Stays (.ctxTeardown ctx v) s)
      ∧ (s.boot.done = true → v.getLsbD 63 = true → c.en = false →
          (fits → (∀ o ∈ others, o.asid ≠ asid) → Goes (.ctxEnable ctx v) s (put { c with
              en := true, ivQuota := iv, reuseQuota := reuse, asid := asid, chain := List.replicate 32 0, launches := 0,
              completions := 0, unsealed := [], frozen := false, enabledAt := s.ticks }))
            ∧ (¬ fits ∨ (∃ o ∈ others, o.asid = asid) → Stays (.ctxEnable ctx v) s))
      ∧ (s.boot.done = true → v.getLsbD 63 = true → c.en = true →
          (fits → Answers (exec (.ctxQuotaChange ctx v) s) fun t =>
              t.ctx ctx = { c with ivQuota := iv, reuseQuota := reuse }
                ∧ (t.reuse.filter fun r => r.ctx == ctx).length ≤ reuse ∧ t.teams = s.teams)
            ∧ (¬ fits → Stays (.ctxQuotaChange ctx v) s))
      ∧ (s.boot.done = true → v.getLsbD 63 = false →
          (c.en = true → Answers (exec (.ctxTeardown ctx v) s) fun t => (t.ctx ctx).en = false ∧ (t.ctx ctx).frozen = true
                ∧ (t.ctx ctx).cores = 0 ∧ (t.ctx ctx).colls = [] ∧ (t.ctx ctx).ivQuota = iv ∧ (t.ctx ctx).reuseQuota = reuse
                ∧ (∀ r ∈ t.reuse, r.ctx ≠ ctx) ∧ (∀ g ∈ t.segments, g.ctx ≠ ctx) ∧ (∀ d ∈ t.pods, d.ctx ≠ ctx)
                ∧ (∀ m ∈ t.collMsgs, m.ctx ≠ ctx)
                ∧ (∀ p ∈ t.packets, p.ctx = ctx → p.launch = 0 → p.stage = .done ∨ p.ending.isSome = true)
                ∧ (∀ l ∈ t.launches, l.ctx = ctx → l.completed.isSome = true)
                ∧ ∀ l ∈ s.launches, l.ctx = ctx → l.completed = none → l.stat = .begun →
                  ∃ l' ∈ t.launches, l'.ctx = ctx ∧ l'.id = l.id ∧ l'.stat = .failed .machine)
            ∧ (c.en = false → Goes (.ctxTeardown ctx v) s (put { c with ivQuota := iv, reuseQuota := reuse, asid := asid })))
      ∧ (∀ word, word < 5 →
          let clash := ∃ k, k < 64 ∧ v.getLsbD k = true ∧ s.coreTaken ctx (64 * word + k) = true
          (clash → Stays (.ctxcoreWrite ctx word v) s)
            ∧ (¬ clash → Answers (exec (.ctxcoreWrite ctx word v) s) fun t => ∀ k, k < 320 →
                (t.ctx ctx).cores.getLsbD k
                  = if 64 * word ≤ k ∧ k < 64 * word + 64 then v.getLsbD (k - 64 * word) else c.cores.getLsbD k))

/-- R10, R198 to R202: a write of TLBSHOOT stores its fields, and with GO takes what it names from every core's TLB; it is
ignored while one is under way, which is done once no access that used an old translation is left. A derived region's
descriptor becomes valid only with every limit kept, and else reports ERR; it is made invalid. A page moves with its data and
descriptors, and its entry maps the new place. The oldest hint is taken. The model's own: ERR is never cleared (log entry 57,
DESIGN CHOICE), a descriptor drops the results over its window when it becomes valid and not when it is made invalid (26,
DEDUCED), and a moved page's entry keeps its other bits (109, DEDUCED). -/
def Obligations.TranslationEvents : Prop :=
  ∀ (s : State) (ctx : Nat) (v : W64), swf Core.fresh s.cores = true →
    let c := s.ctx ctx
    let asid := (v.extractLsb' 0 16).toNat
    let op := (v.extractLsb' 61 2).toNat
    let page := (v.extractLsb' 16 40).toNat * 65536
    let fields : W64 := v &&& 0x60FFFFFFFFFFFFFF
    let hit (e : TlbEntry) : Bool := match op with
      | 0 => decide (asid = e.asid) && decide (e.va ≤ page) && decide (page < e.va + e.size)
      | 1 => decide (asid = e.asid)
      | _ => true
    let write (kind : Nat) (n : Instr) : Prop :=
      (s.shootBusy = true ∨ op ≠ kind → Stays n s)
        ∧ (s.shootBusy = false → op = kind → v.getLsbD 63 = false → Goes n s { s with shoot := fields })
        ∧ (s.shootBusy = false → op = kind → v.getLsbD 63 = true → Answers (exec n s) fun t =>
          t.shootBusy = true ∧ t.shoot = fields ∧ ∀ k, k < 320 → (t.core k).tlb = (s.core k).tlb.filter fun e => !hit e)
    (write 0 (.tlbshootPage v) ∧ write 1 (.tlbshootAsid v) ∧ write 2 (.tlbshootAll v))
      ∧ (let who := if (s.shoot.extractLsb' 61 2).toNat = 2 then none else some (s.shoot.extractLsb' 0 16).toNat
         (s.shootBusy = true → s.oldAccesses who = false → Goes .tlbshootDone s { s with shootBusy := false })
           ∧ (s.shootBusy = false ∨ s.oldAccesses who = true → Stays .tlbshootDone s))
      ∧ (∀ i, i < 256 → swf Derived.fresh s.derived = true →
          let d := { s.derivedAt i with asid := v.extractLsb' 0 16, port := v.extractLsb' 16 8 }
          let keeps (x : Derived) : State := { s with derived := sset .fresh s.derived i x }
          (v.getLsbD 24 = true → (s.derivedAt i).v = true → Stays (.derivedRegionValidate i v) s)
            ∧ (v.getLsbD 24 = true → (s.derivedAt i).v = false →
                (v.extractLsb' 26 38 = 0 → s.derivedOk i d = true →
                    Answers (exec (.derivedRegionValidate i v) s) fun t => t.derivedAt i = { d with v := true })
                  ∧ (s.derivedOk i d = false → Goes (.derivedRegionValidate i v) s (keeps { d with err := true })))
            ∧ (v.getLsbD 24 = false → (s.derivedAt i).v = true →
                Goes (.derivedRegionInvalidate i v) s (keeps { s.derivedAt i with v := false }))
            ∧ (v.getLsbD 24 = false → (s.derivedAt i).v = false → Goes (.derivedRegionInvalidate i v) s (keeps d)))
      ∧ (∀ va new, s.leafFrom va c.root 4 = none → Stays (.pageMigrate ctx va new) s)
      ∧ (∀ va new at0 e, s.leafFrom va c.root 4 = some (at0, e) → s.MemoryWf → (∀ k ∈ s.cores, k.2.fifo = []) →
          let old := e / 65536 % 2 ^ 36 * 65536
          new % 65536 = 0 → old ≠ new → s.populated old = true → s.populated new = true → inWindows old = false →
          inWindows new = false → s.regions = [] → pageOf at0 ≠ pageOf old → pageOf at0 ≠ pageOf new →
          Answers (exec (.pageMigrate ctx va new) s) fun t =>
            (∀ k, k < 65536 → sget 0 t.mem (new + k) = sget 0 s.mem (old + k))
              ∧ (∀ k, k < 1024 → sget plainDescr t.descs (new / 64 + k) = sget plainDescr s.descs (old / 64 + k))
              ∧ t.storedNat at0 8 = e % 65536 / 2 * 2 + 1 + new + e / 2 ^ 52 * 2 ^ 52)
      ∧ (s.hintHead % 1024 = s.hintTail % 1024 → Stays .hintDrain s)
      ∧ (s.hintHead % 1024 ≠ s.hintTail % 1024 → Goes .hintDrain s { s with hintHead := (s.hintHead + 1) % 1024 })

/-- R66, R330, R332 to R335, R337, R338, R344, R347, R348, R359, R361: an idle system core takes the oldest event that can
complete: a timer, a stop and a group of pages are only taken; a fatal group fails its launch; an unknown service answers -38
and its thread goes on after the word; a CANCEL cancels the group that it names and completes; a SEAL stores its receipt and
uses its signer's next index up, stored or not, and waits while the signer's island stands still (log entry 71, DEDUCED); a
receipt that cannot be stored for another reason than protection ends it with STATE 4 (log entry 135, DEDUCED). A held event, and a held group, is filed once there is room. FAULTACK replays a
group of pages, or fails the launch with the group's own cause, or with PAGE_CANCEL, but of a stream, whose cancelled page is
MX_FETCH's, as log entry 64 reads R253 and R333 (DEDUCED). A collection window of 256 cycles reports its first trap, and its
launch fails. That a failure first marks its launch and leaves its teams to LAUNCH_COMPLETE is log entry 84 (DESIGN CHOICE),
and the slots that a deferred group takes are log entry 96 (DEDUCED). -/
def Obligations.FaultEvents : Prop :=
  ∀ (s : State),
    (∀ n reps, 12 ≤ n → Stays (.hiveTakeEvent n reps) s)
      ∧ (∀ n reps, s.events = [] → Stays (.hiveTakeEvent n reps) s)
      ∧ (∀ n x rest, n < 12 → s.events = .timer x :: rest → Goes (.hiveTakeEvent n []) s { s with events := rest })
      ∧ (∀ n e x rest, n < 12 → s.events = e :: .timer x :: rest →
          ({ s with events := .timer x :: rest } : State).runEvent e (n / 6) [] = none →
          Goes (.hiveTakeEvent n []) s { s with events := e :: rest })
      ∧ (∀ n rest g, n < 12 → s.events = g.event :: rest → s.group? g.id = some g →
          (g.kind = .fault ∧ ∀ r ∈ g.records, r.cause = .pageNp ∨ r.cause = .pageProt) ∨ g.kind = .stop →
          Goes (.hiveTakeEvent n []) s { s with events := rest })
      ∧ (∀ n rest g r rs l, n < 12 → s.events = g.event :: rest → s.group? g.id = some g → g.ack = none →
          g.records = r :: rs → s.launch? g.ctx g.launch = some l → l.stat = .begun →
          (g.kind = .fault ∧ r.cause ≠ .pageNp ∧ r.cause ≠ .pageProt) ∨ g.kind = .trap false ∨ g.kind = .fp →
          Answers (exec (.hiveTakeEvent n []) s) fun t => t.events = rest
            ∧ ∃ l', t.launch? g.ctx g.launch = some l' ∧ l'.stat = .failed r.cause)
      ∧ (∀ n rest g r T x b, n < 12 → s.events = g.event :: rest → s.group? g.id = some g → g.ack = none →
          g.kind = .syscall → g.records = [r] → r.code ∉ [0x01, 0x02, 0x03, 0x04, 0x05, 0x06, 0x10, 0x11, 0x12, 0x13, 0x14, 0x15] →
          g.members = [r.tid] → g.dest % 2 = 0 → s.team? g.key = some T → T.isResident = true → T.tbarIn = [] →
          (∃ y ∈ T.threads, y.live = true) → s.thread? g.key r.tid = some x → x.stat = .parked (.group g.id) →
          x.win = [] → x.clause = some b → b.idx + 1 < b.words.length →
          swf Core.fresh s.cores = true → (s.core T.core).bins = [] → swf 0 x.regs = true →
          Answers (exec (.hiveTakeEvent n []) s) fun t => t.events = rest ∧ t.group? g.id = none
            ∧ ∃ y, t.thread? g.key r.tid = some y ∧ y.pair g.dest = BitVec.ofInt 64 (-38) ∧ y.pc = b.wordPc + 8)
      ∧ (∀ n p rest u, n < 12 → s.events = .packet p :: rest →
          s.packets.find? (fun q => q.ctx == p.ctx && q.seq == p.seq && q.open && q.ending.isNone) = some p →
          let s' : State := { s with events := rest }
          let named (g : Group) : Bool := g.ctx == p.ctx && g.ack.isNone
            && (p.field 0x40 4 == 0 || g.launch == p.field 0x40 4) && (p.field 0x48 8 == 0 || g.id == p.field 0x48 8)
          (p.sealed = none → s.groups.filter named = [] → s'.completePacket p { state := 1 } = some u →
              Goes (.hiveTakeEvent n []) s u)
            ∧ (∀ g, p.sealed = none → s.groups.filter named = [g] → (s'.cancelGroup g).completePacket p { state := 1 } = some u →
              Goes (.hiveTakeEvent n []) s u)
            ∧ (∀ x w, p.sealed = some x →
              let k := n / 6
              let q := sget 0 s.signer k
              let body := s'.receiptBody p x k q
              let used (u : State) : State := { u with signer := sset 0 u.signer k (q + 1) }
              let stored := s'.sysWrite p.ctx (p.field 0x40 8) (body ++ signature k q body)
              ((s.island (224 + 16 * k + 2)).gate = true → rest = [] → Stays (.hiveTakeEvent n []) s)
                ∧ ((s.island (224 + 16 * k + 2)).gate = false →
              (q < 2 ^ 40 → stored = .ok u → ((used u).modCtx p.ctx fun c =>
                  { c with unsealed := c.unsealed.filter fun e => !x.entries.contains e }).completePacket p { state := 1 } = some w →
                  Goes (.hiveTakeEvent n []) s w)
                ∧ (∀ c, q < 2 ^ 40 → stored = .error c → c ≠ .pageNp →
                  (used s').completePacket p (if c = .pageProt then { state := 3, check := 13 }
                    else { state := 4, cause := c.code }) = some w → Goes (.hiveTakeEvent n []) s w)
                ∧ (2 ^ 40 ≤ q → s'.completePacket p { state := 3, check := 18 } = some w → Goes (.hiveTakeEvent n []) s w))))
      ∧ (s.deferred = [] → Stays .eventPostDeferred s)
      ∧ (∀ e rest, s.deferred = e :: rest → s.events.length < 4096 →
          Goes .eventPostDeferred s { s with events := s.events ++ [e], deferred := rest })
      ∧ (∀ e rest, s.deferred = e :: rest → 4096 ≤ s.events.length → Stays .eventPostDeferred s)
      ∧ (∀ g, s.groups.find? (fun g => g.slot.isNone && g.ack.isNone && decide (g.records.length ≤ s.faultFree)) = some g →
          s.group? g.id = some g →
          (∀ j, j < g.records.length → ∀ h ∈ s.groups, h.holdsSlot ((s.faultSlot + j) % 4096) = false) →
          Answers (exec .faultRecordDeferred s) fun t =>
            (∃ g', t.group? g.id = some g' ∧ g'.slot = some (s.faultSlot % 4096) ∧ g'.records = g.records
              ∧ (g'.event ∈ t.events ∨ g'.event ∈ t.deferred))
              ∧ t.faultFree = s.faultFree - g.records.length ∧ t.faultSlot = (s.faultSlot + g.records.length) % 4096)
      ∧ ((∀ g ∈ s.groups, g.slot.isSome = true ∨ g.ack.isSome = true ∨ s.faultFree < g.records.length) →
          Stays .faultRecordDeferred s)
      ∧ (∀ id, (∀ g, s.group? id = some g → g.ack.isSome = true) →
          Stays (.faultackReplay id) s ∧ Stays (.faultackFail id) s ∧ Stays (.faultackCancel id) s)
      ∧ (∀ g, s.group? g.id = some g → g.ack = none →
          let freed := min 4096 (s.faultFree + g.slots)
          (∀ T, g.kind = .fault → (∀ r ∈ g.records, r.cause = .pageNp ∨ r.cause = .pageProt) → s.team? g.key = some T →
              T.tbarIn = [] → (∃ y ∈ T.threads, y.live = true) → swf Core.fresh s.cores = true → (s.core T.core).bins = [] →
              (T.isResident = true → Answers (exec (.faultackReplay g.id) s) fun t => t.group? g.id = none
                  ∧ t.faultFree = freed ∧ ∀ j ∈ g.members, ∀ x, s.thread? g.key j = some x → ∃ y, t.thread? g.key j = some y
                    ∧ y.pc = x.pc ∧ y.regs = x.regs ∧ y.preds = x.preds)
                ∧ (T.isResident = false → Answers (exec (.faultackReplay g.id) s) fun t =>
                  t.group? g.id = some { g with ack := some 1, slots := 0 } ∧ t.faultFree = freed ∧ t.teams = s.teams))
            ∧ (∀ l r rest, s.launch? g.ctx g.launch = some l → l.stat = .begun → g.records = r :: rest →
              let fails (n : Instr) (c : Cause) : Prop := Answers (exec n s) fun t =>
                t.group? g.id = some { g with ack := some 2, slots := 0 } ∧ t.faultFree = freed ∧ t.teams = s.teams
                  ∧ ∃ l', t.launch? g.ctx g.launch = some l' ∧ l'.stat = .failed c
              fails (.faultackFail g.id) r.cause
                ∧ ((∀ p o, g.kind ≠ .stream p o) → fails (.faultackCancel g.id) .pageCancel)
                ∧ (∀ p o, g.kind = .stream p o → Answers (exec (.faultackCancel g.id) s) fun t =>
                  t.group? g.id = none ∧ t.faultFree = freed ∧ t.launches = s.launches ∧ t.pairs = s.pairs)))
      ∧ (∀ core ctx launch w, (s.core core).windows.find? (fun w => w.ctx == ctx && w.launch == launch) = some w →
          let cyc := s.cycle core
          (w.closed = true ∨ cyc < w.opened + 256 → Stays (.fpWindowClose core ctx launch) s)
            ∧ (∀ x l, w.closed = false → w.opened + 256 ≤ cyc → w.first = some x → s.launch? ctx launch = some l →
              l.stat = .begun → ringApart s l → Answers (exec (.fpWindowClose core ctx launch) s) fun t =>
                ∃ l', t.launch? ctx launch = some l' ∧ l'.stat = .failed (if x.flags.getLsbD 0 then .fpInv
                  else if x.flags.getLsbD 1 then .fpDivz else if x.flags.getLsbD 2 then .fpOvf
                  else if x.flags.getLsbD 3 then .fpUnf else .fpInx)))

/-- R10, R339, R340, R372, R374 to R376: a write of PREEMPT stores its fields and, with GO, names the teams that are to leave,
which are saved once all are quiet, held or not; CTXRESUME lets held teams come back; a write of CORECALL stores its fields
and, with GO, starts a walker thread at its PC with all registers zero, or waits for a place. A debugger attaches; its leaving
disables the breakpoints and lets every launch of the context go on; stop, resume and step act on the threads of one launch.
That a resume drops the stop groups is log entry 40 (DEDUCED), and that a step forms its bundle at once, marked to issue one
word, is log entry 59 (DEDUCED). -/
def Obligations.PreemptAndDebugEvents : Prop :=
  ∀ (s : State) (v : W64),
    (let ctx := (v.extractLsb' 48 6).toNat
     let n := (v.extractLsb' 9 9).toNat
     let first := (v.extractLsb' 0 9).toNat
     let good := s.vacate = none ∧ 1 ≤ n ∧ first + n ≤ 320
     let fields : W64 := v &&& 0x403F00000003FFFF
     (good → v.getLsbD 63 = true → Goes (.preemptVacate v) s { s with
         preempt := fields, vacate := some { ctx := ctx, first := first, count := n, hold := v.getLsbD 62 } })
       ∧ (good → v.getLsbD 63 = false → Goes (.preemptVacate v) s { s with preempt := fields })
       ∧ (¬ good → Stays (.preemptVacate v) s))
      ∧ (s.vacate = none → Stays .preemptDone s)
      ∧ (∀ x, s.vacate = some x →
          let out (T : Team) : Prop := T ∈ s.teams ∧ T.isResident = true ∧ s.vacating T = true
          ((∃ T, out T ∧ s.quiet T = false) → Stays .preemptDone s)
            ∧ ((∀ T, out T → s.quiet T = true) → Answers (exec .preemptDone s) fun t => t.vacate = none
              ∧ ∀ T, out T → ∃ T', t.team? T.key = some T' ∧ T'.place = .saved (dieOf T'.core) x.hold false))
      ∧ (let ctx := (v.extractLsb' 0 6).toNat
         let held (T : Team) : Prop := T.key.ctx? = some ctx ∧ ∃ d w, T.place = .saved d true w
         ((∀ T ∈ s.teams, ¬ held T) → Stays (.ctxresume v) s)
           ∧ ((∃ T ∈ s.teams, held T) → Answers (exec (.ctxresume v) s) fun t => (∀ T ∈ t.teams, ¬ held T)
             ∧ t.teams.map (·.key) = s.teams.map (·.key) ∧ t.bundles = s.bundles))
      ∧ (let core := (v.extractLsb' 52 9).toNat
         let fields : W64 := v &&& 0x1FFFFFFFFFFFFFF8
         (s.callBusy = true ∨ 320 ≤ core → Stays (.corecall v) s)
           ∧ (s.callBusy = false → core < 320 → v.getLsbD 63 = false → Goes (.corecall v) s { s with call := fields })
           ∧ (s.callBusy = false → core < 320 → v.getLsbD 63 = true → s.freeWalker core = none →
             Goes (.corecall v) s { s with call := fields, callBusy := true })
           ∧ (∀ slot, s.callBusy = false → core < 320 → v.getLsbD 63 = true → s.freeWalker core = some slot →
             (∀ w ∈ (s.core core).walks, w.what ≠ .call) →
             Answers (exec (.corecall v) s) fun t => t.callBusy = true ∧ t.call = fields
               ∧ ∃ T x, T ∈ t.teams ∧ T.key = .walker core slot ∧ T.core = core ∧ T.threads = [x]
                 ∧ x.pc = (v.extractLsb' 3 49).toNat * 8 ∧ x.regs = [] ∧ x.preds = 0))
      ∧ (∀ ctx, ctx < 64 →
          let c := s.ctx ctx
          Goes (.debugAttach ctx) s { s with ctxs := sset .fresh s.ctxs ctx { c with debug := true } }
            ∧ (swf Ctx.fresh s.ctxs = true → Answers (exec (.debugDetach ctx) s) fun t => (t.ctx ctx).debug = false
                ∧ (t.ctx ctx).bps = c.bps.map (fun e => (e.1, { e.2 with ctl := e.2.ctl &&& 0x7FFFFFFFFFFFFFFF }))
                ∧ ∀ l ∈ t.launches, l.ctx = ctx → l.stopped = false))
      ∧ (∀ ctx launch l, s.launch? ctx launch = some l →
          let ours (k : TeamKey) : Prop := k.launch? = some (ctx, launch)
          let simple := ∀ T ∈ s.teams, ours T.key → T.tbarIn = [] ∧ (s.core T.core).bins = []
            ∧ ∀ x ∈ T.threads, x.parkedAs = none
          (s.debuggable ctx launch = false → Stays (.debugStop ctx launch) s ∧ Stays (.debugResume ctx launch) s
              ∧ Stays (.debugStepFocused ctx launch) s ∧ Stays (.debugStepAll ctx launch) s)
            ∧ (s.debuggable ctx launch = true →
              (simple → swf Core.fresh s.cores = true → Answers (exec (.debugStop ctx launch) s) fun t =>
                  (∃ l', t.launch? ctx launch = some l' ∧ l'.stopped = true)
                    ∧ ∀ b ∈ s.bundles, ours b.key → b.clause = none → ∀ j ∈ b.tids, ∀ x, s.thread? b.key j = some x →
                      ∃ y, t.thread? b.key j = some y ∧ y.stat = .stopped ∧ y.regs = x.regs ∧ y.preds = x.preds)
                ∧ (Answers (exec (.debugResume ctx launch) s) fun t =>
                  (∃ l', t.launch? ctx launch = some l' ∧ l'.stopped = false)
                    ∧ ∀ g ∈ t.groups, ¬ (g.ctx = ctx ∧ g.launch = launch ∧ g.kind = .stop))
                ∧ (s.team? (.user ctx launch s.focusTeam.toNat) = none → Stays (.debugStepFocused ctx launch) s)
                ∧ (∀ T g, s.team? (.user ctx launch s.focusTeam.toNat) = some T →
                  (s.subgroups T).find? (fun g => g.contains s.focusTid.toNat) = some g →
                  Goes (.debugStepFocused ctx launch) s (s.stepGroup T.key g))
                ∧ (∀ T g, s.launchTeams ctx launch = [T] → s.subgroups T = [g] →
                  Goes (.debugStepAll ctx launch) s (s.stepGroup T.key g))))

/-! ## Power, trace, links and errors -/

/-- R37, R332, R365 to R368, R382, R389 to R393: the hive's clock and shaping writes take only values in range; a clock
changes at its event; a sample is one SAMPLE record per period, stored at its segment's tail where the stream is begun, in order
and with room; and the registers that have no event of their own keep what is written. That a period begins at each multiple of
2^(PERIOD + 10) is log entry 72 (DEDUCED). -/
def Obligations.PowerAndTraceEvents : Prop :=
  ∀ (s : State) (v : W64),
    (∀ k, k < 160 →
        let i := s.island k
        let put (x : Island) : State := { s with islands := sset .fresh s.islands k x }
        let f := (v.extractLsb' 0 16).toNat
        let maxq := (v.extractLsb' 16 5).toNat
        let tau := (v.extractLsb' 0 16).toNat
        let now := s.islandCycle k
        Goes (.islctlWrite k v) s (put { i with
            nextFreq := if 400 ≤ f ∧ f ≤ 1600 ∧ f % 100 = 0 then f else i.nextFreq, nextGate := v.getLsbD 16 })
          ∧ (maxq = 0 ∨ 16 < maxq ∨ tau = 0 → Stays (.issueshapeWrite k v) s)
          ∧ (1 ≤ maxq → maxq ≤ 16 → 1 ≤ tau → Goes (.issueshapeWrite k v) s
            (let j := i.latch now
             put { j with nextMaxq := maxq, nextTau := tau, shapeAt := j.c0 + ((now - j.c0) / 16 + 1) * 16 }))
          ∧ (let gate := i.nextGate && (s.residents (2 * k)).isEmpty && (s.residents (2 * k + 1)).isEmpty
             (i.freq = i.nextFreq → i.gate = gate → Stays (.islandClockChange k) s)
               ∧ (i.freq ≠ i.nextFreq ∨ i.gate ≠ gate → swf Island.fresh s.islands = true →
                 Answers (exec (.islandClockChange k) s) fun t =>
                   t.island k = { i with base := now, since := 8 * s.ticks + s.eighth, freq := i.nextFreq, gate := gate }
                     ∧ t.islandCycle k = now)))
      ∧ (∀ ctx, ctx < 64 → swf Ctx.fresh s.ctxs = true → Answers (exec (.tracecfgWrite ctx v) s) fun t =>
          t.ctx ctx = { s.ctx ctx with trace := v &&& 0x00FFFFFFFFFF0F7F })
      ∧ (∀ core ctx, core < 320 → swf Core.fresh s.cores = true →
          (s.sampleDue core ctx = false → Stays (.traceSample core ctx) s)
            ∧ (s.sampleDue core ctx = true → Answers (exec (.traceSample core ctx) s) fun t =>
              ((t.core core).stream ctx).sampled = s.cycle core / 2 ^ (((s.ctx ctx).trace.extractLsb' 4 3).toNat + 10))
            ∧ (let cfg := (s.ctx ctx).trace
               let y := (s.core core).stream ctx
               let bytes := 2 ^ (min 8 (cfg.extractLsb' 8 4).toNat + 12)
               let seg := (cfg.extractLsb' 16 40).toNat * 65536 + core * bytes
               let n := bytes / 32 - 2
               let tail := y.tail % n
               let sample (flags tid launch team pc : Nat) : List Byte := bytesOfNat 1 2 ++ bytesOfNat 1 flags ++ bytesOfNat 2 tid
                 ++ bytesOfNat 4 (s.ticks - y.last) ++ bytesOfNat 4 launch ++ bytesOfNat 4 team ++ bytesOfNat 8 pc
                 ++ bytesOfNat 2 0 ++ bytesOfNat 2 0 ++ bytesOfNat 4 0
               let idle := sample 2 0 0 0 0
               let rec' := match ((s.core core).slot 0).last with
                 | some (.user k launch team, tid, pc, cyc) =>
                   if k = ctx ∧ cyc = s.cycle core then sample 0 tid launch team pc else idle
                 | _ => idle
               ∀ u w, s.sampleDue core ctx = true → y.started = true → y.suspended = false → y.resync = none →
                 s.ticks - y.last < 2 ^ 32 → (tail + 1) % n ≠ y.headSeen % n →
                 s.sysWrite ctx (seg + 64 + 32 * tail) rec' = .ok u → u.sysWrite ctx seg (bytesOfNat 8 ((tail + 1) % n)) = .ok w →
                 Answers (exec (.traceSample core ctx) s) fun t => t = { w with cores := t.cores }
                   ∧ (t.core core).stream ctx = { y with
                     tail := (tail + 1) % n, last := s.ticks, sampled := s.cycle core / 2 ^ ((cfg.extractLsb' 4 3).toNat + 10) }))
      ∧ (∀ who,
          Goes (.registerWrite who 0x00130000 v) s { s with swapThr := (v.extractLsb' 0 16).toNat }
            ∧ Goes (.registerWrite who 0x00140000 v) s { s with walkCfg := v &&& 0xFFFFFFFFFFFFFFF8 }
            ∧ Goes (.registerWrite who 0x00140008 v) s { s with walkCode := v &&& 0x000FFFFFFFFF00FF }
            ∧ Goes (.registerWrite who 0x00140020 v) s { s with hintBase := (v.extractLsb' 14 38).toNat * 2 ^ 14 }
            ∧ Goes (.registerWrite who 0x00180010 v) s { s with faultBase := (v.extractLsb' 18 34).toNat * 2 ^ 18 }
            ∧ Goes (.registerWrite who 0x001A8008 v) s { s with
                focusTeam := v.extractLsb' 32 32, focusTid := v.extractLsb' 16 16 }
            ∧ Goes (.registerWrite .host 0x001F0000 v) s s ∧ Goes (.registerWrite .host 0x001E0020 v) s s
            ∧ (let lim := (v.extractLsb' 0 9).toNat
               Goes (.registerWrite .hive 0x001F0000 v) s (if 10 ≤ lim ∧ lim ≤ 400 then { s with slewLim := lim } else s))
            ∧ (∀ q, q < 256 → (s.queue q).en = true → Goes (.registerWrite who (0x00100000 + 0x40 * q) v) s s)
            ∧ (∀ q, q < 256 → (s.queue q).en = false → Goes (.registerWrite who (0x00100000 + 0x40 * q) v) s
              { s with queues := sset .fresh s.queues q { s.queue q with base := (v.extractLsb' 7 49).toNat * 2 ^ 7 } })
            ∧ (∀ c, c < 64 → (s.ctx c).en = true → Goes (.registerWrite who (0x00110008 + 0x10 * c) v) s s)
            ∧ (∀ c, c < 64 → (s.ctx c).en = false → Goes (.registerWrite who (0x00110008 + 0x10 * c) v) s
              { s with ctxs := sset .fresh s.ctxs c { s.ctx c with root := (v.extractLsb' 13 39).toNat * 2 ^ 13 } })
            ∧ (∀ i o, i < 256 → o < 0x30 → (s.derivedAt i).v = true → swf Derived.fresh s.derived = true →
              Answers (exec (.registerWrite who (0x00150000 + 0x40 * i + o) v) s) fun t => t.derivedAt i = s.derivedAt i))

/-- R309 to R312, R318, R323 to R327: a segment whose turn has come is checked and applied, or goes back as a NAK; the sender
answers with a REFRESH of whole blocks, and its eighth failure in a row takes the context down. A collective's messages
match or end it with COLL_MISMATCH, and a peer's that comes early is kept, as an early arrival stamp is; a late one times out; a
step's end stores its flag. A pod barrier's release instant is 4,096 ticks after the last arrival, and its core groups are filed at
their instants; one that names a silent package is not released. That messages are compared without the
member's own byte is log entry 65 (DEDUCED), and that the eighth failure is a context failure under R350 is log entry 83
(DEDUCED). -/
def Obligations.LinkEvents : Prop :=
  ∀ (s : State),
    (∀ n g flips, s.segment? n = some g →
        let now := s.segmentReady g
        let back (u : State) (crc : Bool) : State := { u with segments := u.segments.map fun x => if x.id = g.id then
          { x with kind := .nak, crcErr := crc, fails := if crc then x.fails + 1 else x.fails } else x }
        let each (i : Instr) (k : SegKind) (after : State → State) : Prop :=
          (g.kind ≠ k ∨ now = false → Stays i s)
            ∧ (g.kind = k → now = true →
              (s.checkSegment g flips = .lags → Goes i s (back s false))
                ∧ (s.checkSegment g flips = .bad → Goes i s (back (s.failCrc g) true))
                ∧ (∀ bs u, s.checkSegment g flips = .pass bs → s.applySegment g (fromPeer n) bs = some u → Goes i s (after u)))
        each (.segmentDataReceive n flips) .data id ∧ each (.segmentRefreshReceive n flips) .refresh (fun u => u.countFlow g false))
      ∧ (∀ g bs, g.coll = none → g.move = none → s.segments.find? (fun x => x.id == g.id) = some g → g.kind = .data →
          s.segmentReady g = true → s.checkSegment g [] = .pass bs →
          Answers (exec (.segmentDataReceive (.sent g.id) []) s) fun t => (∀ x ∈ t.segments, x.id ≠ g.id)
            ∧ t.nextSeqOf g = (s.nextSeqOf g + 1) % 2 ^ 32)
      ∧ (∀ nak, s.segments.find? (fun g => g.id == nak) = none → Stays (.segmentNakReceive nak) s)
      ∧ (∀ g, s.segments.find? (fun x => x.id == g.id) = some g →
          (g.kind ≠ .nak → Stays (.segmentNakReceive g.id) s)
            ∧ (g.kind = .nak → 8 ≤ g.fails → Goes (.segmentNakReceive g.id) s (s.teardown g.ctx))
            ∧ (g.kind = .nak → g.fails < 8 → Answers (exec (.segmentNakReceive g.id) s) fun t =>
              ∃ x, t.segments.find? (fun x => x.id == g.id) = some x ∧ x.kind = .refresh ∧ x.first = true
                ∧ x.blocks = g.blocks ∧ x.seq = g.seq
                ∧ x.payload = (codeBlocks (g.blocks.map fun b => (b.data, noPrediction)) true).bits))
      ∧ (∀ n, Stays (.flitReplay n) s)
      ∧ (∀ n p m msg, s.coll? n = none → s.packet? n = some p → p.kind = 2 → p.open = true → p.ending = none → m < p.members →
          (s.isOurs (p.rank m) = false → Goes (.collMatchReceive n m msg) s (s.sendMatch (keptMsg p.ctx m msg)))
            ∧ (p.isPod = true → (∀ y ∈ s.packets, y.name = n → ∀ e ∈ y.early, e.1 ≠ m) → ∀ stamp, Goes (.podArrivalReceive n m stamp) s { s with
              packets := s.packets.map fun y => if y.name = n then { y with early := y.early ++ [(m, stamp)] } else y }))
      ∧ (∀ n p c, s.coll? n = some (p, c) →
          let held (f : Coll → Coll) : State := { s with packets := s.packets.map fun y => if y.name = p.name then
            { y with coll := y.coll.map f } else y }
          (∀ m msg, c.running = false → m ∉ c.matched → m < p.members → natOfBytes (msg.take 8) = c.number →
              (match s.sentMatch? p c.number m with | some sent => msg = sent | none => s.isOurs (p.rank m) = false) →
              let same := withoutMe msg = withoutMe (p.matchMsg c) ∧ msg.getD 11 0 = BitVec.ofNat 8 m
              (¬ same → Goes (.collMatchReceive n m msg) s (s.collMismatch p c))
                ∧ (same → c.matched.length + 1 < p.members → Goes (.collMatchReceive n m msg) s
                  (held fun c => { c with matched := c.matched ++ [m], running := false }))
                ∧ (same → c.matched.length + 1 = p.members → p.isPod = false → ∀ u,
                  (held fun c => { c with matched := c.matched ++ [m], running := true }).collStart p c 0 = some u →
                  Goes (.collMatchReceive n m msg) s u))
            ∧ (∀ u, s.collLate p c = true → s.completePacket p { state := 5 } = some u → Goes (.collTimeout n) s u)
            ∧ (s.collLate p c = false → Stays (.collTimeout n) s)
            ∧ (∀ k, c.running = false ∨ c.step ≠ k ∨ s.collDone p c = false → Stays (.collStepComplete n k) s)
            ∧ (∀ u w t, c.running = true → p.isPod = false → s.collDone p c = true → c.step + 1 = c.steps →
              s.collCombine p c = .ok u → u.feStore p.ctx (p.flagBase + 8 * c.step) (bytesOfNat 8 c.number) = .ok w →
              w.completePacket p { state := 1 } = some t → Goes (.collStepComplete n c.step) s t)
            ∧ (∀ m stamp, p.isPod = true → m < p.members → (∀ e ∈ c.stamps, e.1 ≠ m) →
              let all := c.stamps ++ [(m, stamp)]
              let at0 := (all.map (·.2)).foldl max 0 + 4096
              Goes (.podArrivalReceive n m stamp) s (held fun c =>
                if all.length = p.members then
                  { c with stamps := all, release := some at0, late := decide (at0 < s.ticks + 256) }
                else { c with stamps := all }))
            ∧ (∀ r, c.release = some r → s.ticks < r ∨ s.collGone p = true → Stays (.podBarrierRelease n) s)
            ∧ (∀ r u w, c.release = some r → r ≤ s.ticks → p.isPod = true → c.running = true → s.collGone p = false →
              s.feStore p.ctx p.flagBase (bytesOfNat 8 c.number) = .ok u → u.completePacket p { state := 1 } = some w →
              Answers (exec (.podBarrierRelease n) s) fun t => t.mem = w.mem ∧ t.pods = w.pods ++ [
                { pkt := p.name, ctx := p.ctx, flag := p.flagBase, release := r, stagger := p.stagger, filed := [] }]))
      ∧ (∀ n d k, s.pods.find? (fun d => d.pkt == n) = some d →
          (16 ≤ k ∨ k ∈ d.filed ∨ s.ticks < d.release + k * d.stagger → Stays (.podGroupFile n k) s)
            ∧ (k < 16 → k ∉ d.filed → d.release + k * d.stagger ≤ s.ticks → d.filed.length < 15 →
              Answers (exec (.podGroupFile n k) s) fun t =>
                ∃ d', t.pods.find? (fun d => d.pkt == n) = some d' ∧ d'.filed = d.filed ++ [k]))

/-- R66, R188, R255, R349, R350, R378, R383 to R385, R388, R391: a permitted host write is performed, to context memory, to the
recovery window while the ROM runs, or to the MSI-X table; an uncorrectable error marks a memory block, restarts or fails a
swarm, or takes a context down, and a correctable one does nothing. The boot takes its steps in order: the ROM accepts a signed
image that is not too old, and else writes ERR and waits for recovery, whose image it checks in the same way. A freeze stops all but the boot; launches with a
transfer to a silent package fail; 105 °C and 115 °C lower the ceiling and remove power; a timer posts its event. The model's
own: memory is kept over the release of a package in reset (log entry 28, DEDUCED), a failed memory test opens no recovery (69,
DEDUCED), a good recovery image leaves ERR 0 (70, DEDUCED), and the layout of the MSI-X table (108, PRESUMED). -/
def Obligations.ErrorEvents : Prop :=
  ∀ (s : State),
    (∀ ctx va, Goes (.hostMemoryAccess ctx va .read) s s)
      ∧ (∀ ctx va bytes, (∀ u, s.sysWrite ctx va bytes = .ok u →
            Goes (.hostMemoryAccess ctx va (.write bytes)) s { u with bundles := u.bundles.map fun b => { b with held := false } })
          ∧ (∀ c, s.sysWrite ctx va bytes = .error c → Stays (.hostMemoryAccess ctx va (.write bytes)) s)
          ∧ (s.boot.rom = true → Goes (.hostMemoryAccess ctx va (.window bytes)) s
            { s with window := ssetMany 0 s.window va (bytes.take (67108864 - va)) })
          ∧ (s.boot.rom = false → Stays (.hostMemoryAccess ctx va (.window bytes)) s))
      ∧ (∀ ctx off b,
          let e := MsixEntry.ofBytes ((sget MsixEntry.fresh s.msixTable (off / 16)).bytes.set (off % 16) b)
          (off < 4096 → Goes (.hostMemoryAccess ctx off (.vector [b])) s
              { s with msixTable := sset .fresh s.msixTable (off / 16) e })
            ∧ (4096 ≤ off → Stays (.hostMemoryAccess ctx off (.vector [b])) s))
      ∧ (∀ pa, s.populated pa = true → inWindows pa = false → Answers (exec (.uncorrectableError (.memoryBlock pa)) s) fun t =>
          t.mem = s.mem ∧ t.descs = s.descs ∧ (t.poison.find? fun e => e.1 == pa / 64) = some (pa / 64, .machine))
      ∧ (∀ k T l, s.team? k = some T → k.isWalker = false → T.killed = none → s.launchOf? k = some l → l.stat = .begun →
          s.relaunchable T = false → Answers (exec (.uncorrectableError (.teamState k)) s) fun t =>
            ∃ l', t.launchOf? k = some l' ∧ l'.stat = .failed .machine)
      ∧ (∀ k T l, s.team? k = some T → k.isWalker = false → T.killed = none → s.launchOf? k = some l →
          s.relaunchable T = true → T.desc.swarm = 1 → (∀ m ∈ s.moves, m.key ≠ k) →
          Answers (exec (.uncorrectableError (.teamState k)) s) fun t => t.team? k = none ∧ (∀ b ∈ t.bundles, b.key ≠ k)
            ∧ ∃ l', t.launchOf? k = some l' ∧ l'.stat = l.stat)
      ∧ (∀ ctx, (s.ctx ctx).en = true → Goes (.uncorrectableError (.contextState ctx)) s (s.teardown ctx))
      ∧ (∀ ctx, (s.ctx ctx).en = false → Stays (.uncorrectableError (.contextState ctx)) s)
      ∧ Stays .correctableError s
      ∧ (let r : State := { State.reset with mem := s.mem, descs := s.descs, poison := s.poison, portCap := s.portCap,
                                             signer := s.signer, peerMem := s.peerMem, peerDescs := s.peerDescs,
                                             peerPoison := s.peerPoison, agenda := s.agenda, free := s.free }
         Goes (.boot .release) s r)
      ∧ (let b := s.boot
         let now (f : Boot) : State := { s with boot := f }
         let checks (i : Instr) (img : List Byte) (host : Bool) : Prop :=
           let root := Config.imageRootKey img
           let good := sha256 root = rootHash ∧ Config.hssVerify root (Config.imageKey img) (Config.imageKeySig img) = true
             ∧ Config.hssVerify (Config.imageKey img) (Config.imageBody img) (Config.imageBodySig img) = true
           (¬ good → Goes i s (now { b with err := 2, waitRec := true, stage := .waiting }))
             ∧ (good → Config.imageSvn img < Config.minSvn → Goes i s (now { b with err := 3, waitRec := true, stage := .waiting }))
             ∧ (good → Config.minSvn ≤ Config.imageSvn img → Goes i s (now { b with
                 waitRec := false, err := 0, recov := host, stage := .load, image := img }))
         (b.stage = .test → Goes (.boot (.memoryTest true)) s (now { b with stage := .flash })
             ∧ Goes (.boot (.memoryTest false)) s (now { b with err := 4, stage := .waiting }))
           ∧ (b.stage = .flash → (∀ img, Goes (.boot (.readFlash (some img))) s (now { b with stage := .check, image := img }))
             ∧ Goes (.boot (.readFlash none)) s (now { b with err := 1, waitRec := true, stage := .waiting }))
           ∧ (b.stage = .check → checks (.boot .check) b.image false)
           ∧ (b.stage = .load → Goes (.boot .load) s { s with window := [], boot := { b with
               rom := false, svn := BitVec.ofNat 32 (Config.imageSvn b.image), stage := .train, image := [] } })
           ∧ (b.stage = .train → Goes (.boot .train) s { s with 
               boot := { b with stage := .last }
               islands := s.islands.map fun i => (i.1, { i.2 with nextFreq := 1600, nextGate := false }) })
           ∧ (b.stage = .last → Goes (.boot .finish) s (now { b with done := true, stage := .waiting }))
           ∧ (b.stage ≠ .test → ∀ ok, Stays (.boot (.memoryTest ok)) s) ∧ (b.stage ≠ .flash → ∀ img, Stays (.boot (.readFlash img)) s)
           ∧ (b.stage ≠ .check → Stays (.boot .check) s) ∧ (b.stage ≠ .load → Stays (.boot .load) s)
           ∧ (b.stage ≠ .train → Stays (.boot .train) s) ∧ (b.stage ≠ .last → Stays (.boot .finish) s)
           ∧ (∀ v, (b.waitRec = false → Stays (.recovgo v) s)
             ∧ (b.waitRec = true → checks (.recovgo v) (sgetMany 0 s.window 0 (min b.recovLen.toNat 67108864)) true)))
      ∧ Goes .freeze s { s with frozen := true }
      ∧ (s.frozen = true ∨ s.powered = false → (s.agenda = [] → step s = .next s)
          ∧ ∀ n rest, s.agenda = n :: rest → n ≠ .event (.boot .release) → step s = .next { s with agenda := rest })
      ∧ (∀ px py pz, px < 16 → py < 16 → pz < 16 →
          let coord := px + 16 * py + 256 * pz
          (coord = s.coord.toNat → Stays (.peerSilenceTimeout px py pz) s)
            ∧ (coord ≠ s.coord.toNat → Answers (exec (.peerSilenceTimeout px py pz) s) fun t => coord ∈ t.silent
              ∧ (∀ g ∈ t.segments, g.src % 4096 ≠ coord ∧ g.dst % 4096 ≠ coord)
              ∧ ∀ l ∈ s.launches, l.stat = .begun → s.sendsTo l coord = true → ∃ l' ∈ t.launches,
                l'.ctx = l.ctx ∧ l'.id = l.id ∧ l'.stat = .failed .machine))
      ∧ (∀ k (temp : BitVec 16), k < 256 →
          Goes (.thermalHot k temp) s { s with islands := sset .fresh s.islands k { s.island k with
              temp := temp
              hot := if 105 * 256 ≤ temp.toInt then true else if temp.toInt < 100 * 256 then false else (s.island k).hot } }
            ∧ (temp.toInt < 115 * 256 → Stays (.thermalTrip k temp) s)
            ∧ (115 * 256 ≤ temp.toInt → Goes (.thermalTrip k temp) s
              { State.reset with powered := false, agenda := s.agenda, free := s.free, signer := s.signer }))
      ∧ (∀ x, s.deferred = [] → s.events.length < 4096 → Goes (.timerEvent x) s { s with events := s.events ++ [.timer x] })
      ∧ (∀ x, s.deferred ≠ [] ∨ 4096 ≤ s.events.length → Goes (.timerEvent x) s { s with deferred := s.deferred ++ [.timer x] })

/-! ## Encodings -/

/-- Decoding the word of a well-formed instruction gives the instruction back, and the word of an instruction that a word
decodes to is that word: no bit of an encoding is dropped, and every bit that is not a field is zero (R89 to R97). The
words of decodeTableWord are those of decode. -/
def Obligations.EncodingsAgree : Prop :=
  (∀ (i : Instr) (w : W64), i.wf = true → encode i = some w → decode w = some i)
    ∧ (∀ (w : W64) (i : Instr), decode w = some i → i.wf = true ∧ encode i = some w)
    ∧ ∀ w : W64, decodeTableWord 64 w.toNat = decode w

/-- Words that the spec's own chapters give, one or more of each family, decode to the instructions they are given for. -/
def Obligations.SpecWordsDecode : Prop :=
  let c : Ctl := { pr := 31, pn := false, st := 0 }
  let k (pr : BitVec 5) : Ctl := { pr := pr, pn := false, st := 0 }
  -- exit; (!k0) bra, 4 units on; rejoin
  decode 0x050F800000000000 = some (.exit c)
    ∧ decode 0x0100400000000004 = some (.bra { pr := 0, pn := true, st := 0 } 4)
    ∧ decode 0x070F800000000000 = some (.rejoin c)
    -- sread w0, %tid.x; movi w1, 0; add.i w3, w1, -5; lea.n32 w6:w7, w8:w9, w0, 2; mov.s.n64 w10:w11, s2
    ∧ decode 0x3E0F8C0000000000 = some (.sread { c with st := 3 } 0 .tidX)
    ∧ decode 0x3D0F8C0400000000 = some (.movi { c with st := 3 } 1 0)
    ∧ decode 0x201F800C07FFFFFB = some (.addI c 3 1 0x3FFFFFB)
    ∧ decode 0x3A0F941820000840 = some (.lea { c with st := 5 } 6 8 0 2 .n32)
    ∧ decode 0x3C1F8C28080000C0 = some (.movS { c with st := 3 } 10 2 .n64)
    -- cvt.f32.f32.sc w15, w13, w12; blkd.rd w12, g[w10:w11+0]; ballot into w4
    ∧ decode 0x600F943C34306200 = some (.cvt { c with st := 5 } 15 13 .f32 .f32 .rn .sat false (some 12))
    ∧ decode 0x640F803028000080 = some (.blkdRd c 12 10 0 .global .team)
    ∧ decode 0x730F8C1000000000 = some (.ballot { c with st := 3 } 4 0 false)
    -- a load, a store, a scratchpad load; pmig.comb
    ∧ decode 0x800F804028000100 = some (.ld c 16 10 0 .b32 .team false false)
    ∧ decode 0x810F80281000C180 = some (.st c 10 4 48 .b64 .team)
    ∧ decode 0xB00F804408000120 = some (.lds c 17 2 0 .b32 false)
    ∧ decode 0x840F8000B0000000 = some (.pmigComb c 44 0 .team)
    -- atom.add.n32.rel w5, g[w8:w9], w6 scope=die
    ∧ decode 0xA00F801420180052 = some (.atom c .add .n32 .rel .die 5 8 6)
    -- (k1) tcopy with b1; bar.arrive b1; a tstore without a barrier; txfer at scope pkg
    ∧ decode 0xB300805048500040 = some (.tcopy (k 1) 20 18 20 (some 1) .team)
    ∧ decode 0xB71F800000000040 = some (.barArrive c 1 false)
    ∧ decode 0xB400005C50800400 = some (.tstore (k 0) 23 20 32 none .team)
    ∧ decode 0xD501807C98A80402 = some (.txfer (k 3) 31 38 42 none false .pkg)
    -- (k3) mms.ts acc0 set=0; mmag KIND i8, BSG, SAT; accst.f32; drain to s8
    ∧ decode 0xC201802050700200
        = some (.mms (k 3) { acc := 0, set := some 0, wait := 0 } 20 28
            { kind := .ts, asg := false, bsg := false, af16 := false, bf16 := false, sat := false })
    ∧ decode 0xC100002428200448
        = some (.mmag (k 0) { acc := 0, set := some 1, wait := 1 } 10 8
            { kind := .i8, asg := false, bsg := true, af16 := false, bf16 := false, sat := true })
    ∧ decode 0xC50180007C000402 = some (.accst (k 3) { acc := 0, set := none, wait := 1 } 31 true false)
    ∧ decode 0xC60000005C240980 = some (.drain (k 0) { acc := 0, set := none, wait := 2 } 23 9 .s8 .rn .sat false)
    -- waita.eq.b32 at scope pkg; spawn; join; tbar at scope pkg; flow.reset key=0x0101
    ∧ decode 0xD00F802810180802 = some (.waita c 10 4 6 true false .pkg)
    ∧ decode 0xD10F800010000000 = some (.spawn c 4)
    ∧ decode 0xD20F800028580003 = some (.join c 10 22 .sys)
    ∧ decode 0xD40F800000000002 = some (.tbar c .pkg)
    ∧ decode 0xD60F800000040400 = some (.flowReset c 0x0101)
    -- syscall w20:w21, w8, 3; trap w5, 0x42; brk 7; mark w4, 0x21; crd w6:w7, MXPSTALL; cwr MXPSTALL, w8:w9
    ∧ decode 0xE00F805020000C00 = some (.syscall c 20 8 3)
    ∧ decode 0xE10F800014010800 = some (.trap c 5 0x42 false)
    ∧ decode 0xE20F800000001C00 = some (.brk c 7)
    ∧ decode 0xE30F800010008400 = some (.mark c 4 0x21 false)
    ∧ decode 0xE40F801800000800 = some (.crd c 6 .mxpstall)
    ∧ decode 0xE50F800020000800 = some (.cwr c 8 .mxpstall)

/-! ## The whole machine -/

/-- A step runs the instruction that the next word of the chosen bundle's clause decodes to: the bundle that a turn of the
agenda names, if it may issue, or the one that the stamp rule chooses while no event is due. Its event turns are exec of
the event. -/
def Obligations.StepRunsDecoded : Prop :=
  ∀ (s : State) (rest : List Turn), s.frozen = false → s.powered = true →
    (∀ (b : Bundle) (cl : Clause) (i : Instr), s.bundle? b.id = some b → b.clause = some cl →
        decode (cl.words.getD cl.idx 0) = some i →
        (s.agenda = .issue b.id :: rest → s.canIssue b = true →
            step s = exec i { s with agenda := rest, focus := some b.id })
          ∧ (s.agenda = [] → firstDue s s.candidates = none → s.readyBundle = some b →
            step s = exec i { s with focus := some b.id }))
      ∧ ∀ i, s.agenda = .event i :: rest → step s = exec i { s with agenda := rest }

/-- R97: a word that decodes to no instruction raises ILL in the thread that its predicate selects: the thread parks at the
word, the member of a new fault group with one record. -/
def Obligations.ReservedWordsTrap : Prop :=
  ∀ (s : State) (i : Issuer) (x : Thread) (w : W64) (c : Ctl), w = i.cl.words.getD i.cl.idx 0 → decode w = none →
    c = Ctl.of (Fields.ofWord w) → c.valid = true →
    TrapsAs s i { c := c, cls := none, reads := [], writes := [] } x (issueWord s i.b.id i.cl) (s.beginClause i) .ill kindNone 0

/-- The memories and the tables of units keep their canonical form, so that equal contents are equal data; every bundle
names at least one thread, and none twice (R112); every thread's registers are in canonical form: every step keeps this
from every state that has it. -/
def Obligations.InvariantKept : Prop := ∀ s t : State, s.Inv → step s = .next t → t.Inv

/-- The invariant holds right after reset. -/
def Obligations.InvariantAtReset : Prop := State.reset.Inv

/-- What the registers that the hive reads give right after reset (the Reset columns of R37, R40, R67, R68, R195, R196,
R198, R201, R332, R339, R372, R382, R383, R390, R392), the control registers of a core (R138 for REGROUPAGE; the counter
MXPSTALL of R247 and R371 has no stated reset value, and its 0 is log entry 1, DESIGN CHOICE), the descriptor of a block that is
first allocated (R145), and the first fault-group id (R330). No context is enabled, no team is there, and the package has its
power. -/
def Obligations.ResetValues : Prop :=
  let s := State.reset
  (∀ q o, q < 256 → o < 0x30 → s.readReg (0x00100000 + 0x40 * q + o) = 0)
    ∧ (∀ c o, c < 64 → o < 0x10 → s.readReg (0x00110000 + 0x10 * c + o) = 0)
    ∧ (∀ c j, c < 64 → j < 5 → s.readReg (0x00120000 + 0x40 * c + 8 * j) = 0)
    ∧ s.readReg 0x00130000 = 0x64 ∧ s.readReg 0x00140000 = 0x100 <<< 52 ∧ s.readReg 0x00140008 = 0
    ∧ s.readReg 0x00140010 = 0 ∧ s.readReg 0x00140020 = 0 ∧ s.readReg 0x00140028 = 0
    ∧ s.readReg 0x00180000 = 0 ∧ s.readReg 0x00180010 = 4096 ∧ s.readReg 0x001C0000 = 0 ∧ s.readReg 0x001E0000 = 1
    ∧ s.readReg 0x001F0000 = 100
    ∧ (∀ p, p < 160 → s.readReg (0x001F0100 + 8 * p) = (16 <<< 31 ||| 16 <<< 16 ||| 14))
    ∧ (∀ i, i < 256 → s.readReg (0x001F1000 + 8 * i) = 1600)
    ∧ (∀ k, k < 320 → s.coreReg k .regroupage = 64 ∧ s.coreReg k .mxpstall = 0)
    ∧ (∀ b, sget plainDescr s.descs b = 0x8000)
    ∧ s.nextGroup = 1 ∧ s.teams = [] ∧ (∀ c, (s.ctx c).en = false) ∧ s.powered = true ∧ s.frozen = false
end

