-- ==== Sys2Proof/Laws/Sparse.lean ====
section
/-! SUPPORT. Sparse.lean: reading after writing in a sparse store, and that every write keeps its canonical form. -/

namespace Sys2Proof.Machine

variable {α : Type} [DecidableEq α] (d : α)

theorem sget_of_swfFrom {l : List (Nat × α)} : ∀ {lo k : Nat}, swfFrom d lo l = true → k < lo → sget d l k = d := by
  induction l with
  | nil => intros; rfl
  | cons e t ih =>
    obtain ⟨k', v⟩ := e
    intro lo k h hk
    simp only [swfFrom, Bool.and_eq_true, decide_eq_true_eq] at h
    have : k < k' := by omega
    simp only [sget]
    rw [if_neg (by omega), if_pos this]

/-- Reading a key that was just written gives the value, whatever the store. -/
theorem sget_sset_same (l : List (Nat × α)) (k : Nat) (v : α) (h : swf d l = true) : sget d (sset d l k v) k = v := by
  suffices ∀ lo, swfFrom d lo l = true → sget d (sset d l k v) k = v from this 0 h
  clear h
  induction l with
  | nil =>
    intro lo _
    by_cases hv : v = d <;> simp [sset, sget, hv]
  | cons e t ih =>
    obtain ⟨k', v'⟩ := e
    intro lo hw
    simp only [swfFrom, Bool.and_eq_true, decide_eq_true_eq] at hw
    by_cases h1 : k < k'
    · by_cases hv : v = d
      · simp [sset, h1, hv, sget, show ¬ k' = k by omega]
      · simp [sset, h1, hv, sget]
    · by_cases h2 : k = k'
      · subst h2
        by_cases hv : v = d
        · simp only [sset, lt_irrefl, if_false, if_true, hv]
          exact sget_of_swfFrom d hw.2 (by omega)
        · simp [sset, hv, sget]
      · simp only [sset, if_neg h1, if_neg h2, sget]
        rw [if_neg (fun e => h2 e.symm)]
        exact ih _ hw.2

/-- Reading any other key gives what it gave. -/
theorem sget_sset_ne (l : List (Nat × α)) {k j : Nat} (v : α) (h : swf d l = true) (hj : j ≠ k) :
    sget d (sset d l k v) j = sget d l j := by
  suffices ∀ lo, swfFrom d lo l = true → sget d (sset d l k v) j = sget d l j from this 0 h
  clear h
  induction l with
  | nil =>
    intro lo _
    by_cases hv : v = d
    · simp [sset, hv]
    · simp [sset, sget, hv, Ne.symm hj]
  | cons e t ih =>
    obtain ⟨k', v'⟩ := e
    intro lo hw
    simp only [swfFrom, Bool.and_eq_true, decide_eq_true_eq] at hw
    by_cases h1 : k < k'
    · by_cases hv : v = d
      · simp [sset, h1, hv]
      · simp only [sset, h1, hv, if_true, if_false, sget, if_neg (Ne.symm hj)]
        by_cases h3 : j < k
        · rw [if_pos h3, if_neg (by omega), if_pos (by omega)]
        · rw [if_neg h3]
    · by_cases h2 : k = k'
      · subst h2
        by_cases hv : v = d
        · simp only [sset, lt_irrefl, if_false, if_true, hv, sget, if_neg (Ne.symm hj)]
          by_cases h3 : j < k
          · rw [if_pos h3]; exact sget_of_swfFrom d hw.2 (by omega)
          · rw [if_neg h3]
        · simp [sset, hv, sget, Ne.symm hj]
      · simp only [sset, if_neg h1, if_neg h2, sget]
        rw [ih _ hw.2]

theorem swfFrom_sset (l : List (Nat × α)) (k : Nat) (v : α) :
    ∀ lo, swfFrom d lo l = true → lo ≤ k → swfFrom d lo (sset d l k v) = true := by
  induction l with
  | nil =>
    intro lo _ hk
    by_cases hv : v = d <;> simp [sset, hv, swfFrom, hk]
  | cons e t ih =>
    obtain ⟨k', v'⟩ := e
    intro lo hw hk
    have hw' := hw
    simp only [swfFrom, Bool.and_eq_true, decide_eq_true_eq] at hw
    by_cases h1 : k < k'
    · by_cases hv : v = d
      · simpa [sset, h1, hv] using hw'
      · simp only [sset, h1, hv, if_true, if_false, swfFrom, Bool.and_eq_true, decide_eq_true_eq]
        exact ⟨⟨hk, hv⟩, ⟨by omega, hw.1.2⟩, hw.2⟩
    · by_cases h2 : k = k'
      · subst h2
        by_cases hv : v = d
        · simp only [sset, lt_irrefl, if_false, if_true, hv]
          cases t with
          | nil => rfl
          | cons e t =>
            obtain ⟨a, b⟩ := e
            simp only [swfFrom, Bool.and_eq_true, decide_eq_true_eq] at hw ⊢
            exact ⟨⟨by omega, hw.2.1.2⟩, hw.2.2⟩
        · simp only [sset, lt_irrefl, if_false, if_true, hv, swfFrom, Bool.and_eq_true, decide_eq_true_eq]
          exact ⟨⟨hk, hv⟩, hw.2⟩
      · simp only [sset, if_neg h1, if_neg h2, swfFrom, Bool.and_eq_true, decide_eq_true_eq]
        exact ⟨⟨hw.1.1, hw.1.2⟩, ih _ hw.2 (by omega)⟩

/-- A write keeps the canonical form. -/
theorem swf_sset (l : List (Nat × α)) (k : Nat) (v : α) (h : swf d l = true) : swf d (sset d l k v) = true :=
  swfFrom_sset d l k v 0 h (Nat.zero_le _)

/-- A write of several values keeps the canonical form. -/
theorem swf_ssetMany (vs : List α) : ∀ (l : List (Nat × α)) (k : Nat), swf d l = true → swf d (ssetMany d l k vs) = true := by
  induction vs with
  | nil => intro l k h; exact h
  | cons v vs ih => intro l k h; exact ih _ _ (swf_sset d l k v h)

/-- Reading outside the keys of a write of several values gives what it gave. -/
theorem sget_ssetMany_ne (vs : List α) : ∀ (l : List (Nat × α)) (k j : Nat), swf d l = true →
    (j < k ∨ k + vs.length ≤ j) → sget d (ssetMany d l k vs) j = sget d l j := by
  induction vs with
  | nil => intro l k j _ _; rfl
  | cons v vs ih =>
    intro l k j h hj
    simp only [List.length_cons] at hj
    simp only [ssetMany]
    rw [ih _ _ _ (swf_sset d l k v h) (by omega), sget_sset_ne d l v h (by omega)]

/-- Reading a key of a write of several values gives the value written there. -/
theorem sget_ssetMany_at (vs : List α) : ∀ (l : List (Nat × α)) (k i : Nat) (hi : i < vs.length), swf d l = true →
    sget d (ssetMany d l k vs) (k + i) = vs[i] := by
  induction vs with
  | nil => intro l k i hi; simp at hi
  | cons v vs ih =>
    intro l k i hi h
    cases i with
    | zero =>
      simp only [ssetMany, Nat.add_zero, List.getElem_cons_zero]
      rw [sget_ssetMany_ne d vs _ _ _ (swf_sset d l k v h) (by omega), sget_sset_same d l k v h]
    | succ i =>
      simp only [ssetMany, List.getElem_cons_succ]
      rw [show k + (i + 1) = (k + 1) + i by omega]
      exact ih _ _ _ (by simpa using hi) (swf_sset d l k v h)

/-- Equal readings of canonical stores are equal stores. -/
theorem swf_ext {l m : List (Nat × α)} (hl : swf d l = true) (hm : swf d m = true)
    (h : ∀ k, sget d l k = sget d m k) : l = m := by
  suffices ∀ lo, swfFrom d lo l = true → swfFrom d lo m = true → (∀ k, sget d l k = sget d m k) → l = m from
    this 0 hl hm h
  clear hl hm h
  induction l generalizing m with
  | nil =>
    intro lo _ hm h
    cases m with
    | nil => rfl
    | cons e t =>
      obtain ⟨a, b⟩ := e
      simp only [swfFrom, Bool.and_eq_true, decide_eq_true_eq] at hm
      have := h a
      simp [sget] at this
      exact absurd this.symm hm.1.2
  | cons e t ih =>
    obtain ⟨a, b⟩ := e
    intro lo hl hm h
    have hl' := hl
    simp only [swfFrom, Bool.and_eq_true, decide_eq_true_eq] at hl
    cases m with
    | nil =>
      have := h a
      simp [sget] at this
      exact absurd this hl.1.2
    | cons e u =>
      obtain ⟨x, y⟩ := e
      have hm' := hm
      simp only [swfFrom, Bool.and_eq_true, decide_eq_true_eq] at hm
      have hax : a = x := by
        rcases lt_trichotomy a x with hlt | heq | hlt
        · have := h a
          simp only [sget, if_true] at this
          rw [if_neg (by omega), if_pos hlt] at this
          exact absurd this hl.1.2
        · exact heq
        · have := h x
          simp only [sget, if_true] at this
          rw [if_neg (by omega), if_pos hlt] at this
          exact absurd this.symm hm.1.2
      subst hax
      have hby : b = y := by simpa [sget] using h a
      subst hby
      congr 1
      refine ih _ hl.2 hm.2 fun k => ?_
      by_cases hk : k ≤ a
      · rw [sget_of_swfFrom d hl.2 (by omega), sget_of_swfFrom d hm.2 (by omega)]
      · have := h k
        simp only [sget] at this
        rwa [if_neg (by omega), if_neg (by omega), if_neg (by omega), if_neg (by omega)] at this

end Sys2Proof.Machine
end

