-- ==== Sys2Proof/Laws/Memory.lean ====
section
/-! SUPPORT. Memory.lean: every operation that writes memory keeps its canonical form; a byte just written reads as written,
and every other byte reads as before. -/

namespace Sys2Proof.Machine

/-! ## What a write leaves alone -/

@[simp] theorem State.trackWrite_mem (s : State) (p : Place) (n : Nat) : (s.trackWrite p n).mem = s.mem := rfl
@[simp] theorem State.trackWrite_descs (s : State) (p : Place) (n : Nat) : (s.trackWrite p n).descs = s.descs := rfl
@[simp] theorem State.trackWrite_peerMem (s : State) (p : Place) (n : Nat) : (s.trackWrite p n).peerMem = s.peerMem := rfl
@[simp] theorem State.trackWrite_peerDescs (s : State) (p : Place) (n : Nat) : (s.trackWrite p n).peerDescs = s.peerDescs := rfl
@[simp] theorem State.writePoison_mem (s : State) (p : Place) (m : Option Cause) : (s.writePoison p m).mem = s.mem := by
  cases p <;> rfl
@[simp] theorem State.writePoison_descs (s : State) (p : Place) (m : Option Cause) : (s.writePoison p m).descs = s.descs := by
  cases p <;> rfl
@[simp] theorem State.writePoison_peerMem (s : State) (p : Place) (m : Option Cause) :
    (s.writePoison p m).peerMem = s.peerMem := by cases p <;> rfl
@[simp] theorem State.writePoison_peerDescs (s : State) (p : Place) (m : Option Cause) :
    (s.writePoison p m).peerDescs = s.peerDescs := by cases p <;> rfl

/-! ## The canonical form -/

theorem State.writeBytes_wf {s : State} (h : s.MemoryWf) (p : Place) (bs : List Byte) : (s.writeBytes p bs).MemoryWf := by
  obtain ⟨a, b, c, d⟩ := h
  cases p with
  | here pa =>
    simp only [State.writeBytes]
    split
    · exact ⟨swf_ssetMany 0 bs _ pa a, b, c, d⟩
    · exact ⟨a, b, c, d⟩
  | peer k pa => exact ⟨a, b, swf_ssetMany 0 bs _ _ c, d⟩

theorem State.writeDescr_wf {s : State} (h : s.MemoryWf) (p : Place) (x : Descr) : (s.writeDescr p x).MemoryWf := by
  obtain ⟨a, b, c, d⟩ := h
  cases p with
  | here pa =>
    simp only [State.writeDescr]
    split
    · exact ⟨a, swf_sset plainDescr _ _ x b, c, d⟩
    · exact ⟨a, b, c, d⟩
  | peer k pa => exact ⟨a, b, c, swf_sset plainDescr _ _ x d⟩

theorem State.writePoison_wf {s : State} (h : s.MemoryWf) (p : Place) (m : Option Cause) : (s.writePoison p m).MemoryWf := by
  cases p <;> exact h

theorem State.writeBlock_wf {s : State} (h : s.MemoryWf) (p : Place) (b : Block) : (s.writeBlock p b).MemoryWf :=
  State.writePoison_wf (State.writeDescr_wf (State.writeBytes_wf h _ _) _ _) _ _

theorem State.writePart_wf {s : State} (h : s.MemoryWf) (p : Place) (off : Nat) (bs : List Byte) (x : Descr)
    (m : Option Cause) : (s.writePart p off bs x m).MemoryWf := by
  simp only [State.writePart]
  split
  · exact State.writePoison_wf (State.writeDescr_wf (State.writeBytes_wf h _ _) _ _) _ _
  · exact State.writeDescr_wf (State.writeBytes_wf h _ _) _ _

theorem MemoryWf.foldl {α : Type} (f : State → α → State) (hf : ∀ s x, s.MemoryWf → (f s x).MemoryWf) (l : List α) :
    ∀ s : State, s.MemoryWf → (l.foldl f s).MemoryWf := by
  induction l with
  | nil => exact fun s h => h
  | cons a l ih => exact fun s h => ih _ (hf s a h)

theorem State.copyPage_wf {s : State} (h : s.MemoryWf) (old new : Nat) : (s.copyPage old new).MemoryWf := by
  unfold State.copyPage
  generalize List.range 1024 = l
  refine MemoryWf.foldl _ (fun s i h => ?_) l s h
  generalize (s.readBlock (.here (old + 64 * i))).getD (s.storedBlock (old + 64 * i)) = b
  obtain ⟨h1, h2, h3, h4⟩ := h
  refine ⟨?_, ?_, ?_, ?_⟩
  · exact swf_ssetMany 0 b.bytes s.mem (new + 64 * i) h1
  · exact swf_sset plainDescr s.descs ((new + 64 * i) / 64) b.descr h2
  · exact h3
  · exact h4

theorem State.sysWrite_wf {s u : State} (h : s.MemoryWf) {ctx va : Nat} {bs : List Byte} (hu : s.sysWrite ctx va bs = .ok u) :
    u.MemoryWf := by
  simp only [State.sysWrite] at hu
  split at hu
  · exact absurd hu (by simp)
  · cases hu
    refine MemoryWf.foldl _ (fun s i h => ?_) _ _ h
    split
    · exact h
    · exact State.writeBytes_wf h _ _

theorem State.feStore_wf {s u : State} (h : s.MemoryWf) {ctx va : Nat} {bs : List Byte} (hu : s.feStore ctx va bs = .ok u) :
    u.MemoryWf := by
  simp only [State.feStore] at hu
  split at hu
  · exact absurd hu (by simp)
  · exact State.sysWrite_wf h hu

theorem State.reset_memoryWf : State.reset.MemoryWf := by decide

/-! ## Reading after writing -/

/-- A byte of this package's memory after a store to a populated place outside the windows. -/
theorem State.writeBytes_here {s : State} (h : s.MemoryWf) {pa : Nat} (hp : s.populated pa = true) (hw : inWindows pa = false)
    (bs : List Byte) (a : Nat) :
    sget 0 (s.writeBytes (.here pa) bs).mem a
      = if pa ≤ a ∧ a < pa + bs.length then bs.getD (a - pa) 0 else sget 0 s.mem a := by
  simp only [State.writeBytes, hp, hw, Bool.not_false, Bool.and_self, if_true]
  show sget 0 (ssetMany 0 s.mem pa bs) a = _
  split
  · next hc =>
    have hi : a - pa < bs.length := by omega
    have := sget_ssetMany_at 0 bs s.mem pa (a - pa) hi h.1
    rw [show pa + (a - pa) = a by omega] at this
    rw [this, List.getD_eq_getElem?_getD, List.getElem?_eq_getElem hi]
    rfl
  · next hc => exact sget_ssetMany_ne 0 bs s.mem pa a h.1 (by omega)

/-- A store to a window, or to a place that nothing answers for, changes no byte. -/
theorem State.writeBytes_nowhere (s : State) {pa : Nat} (hp : s.populated pa = false ∨ inWindows pa = true) (bs : List Byte) :
    s.writeBytes (.here pa) bs = s := by
  rcases hp with hp | hp <;> simp [State.writeBytes, hp]

end Sys2Proof.Machine
end

