-- ==== Sys2Proof/Laws/Inv.lean ====
section
/-! SUPPORT. Inv.lean: the invariant through the operations that replace one thing of the state: a unit, a team, a thread,
a bundle, and bytes of memory. -/

namespace Sys2Proof.Machine

/-! ## What the invariant reads -/

/-- The invariant reads twelve tables, the teams and the bundles, and nothing else. -/
def State.tables (s : State) :=
  (s.mem, s.descs, s.peerMem, s.peerDescs, s.cores, s.pairs, s.ctxs, s.queues, s.islands, s.dies, s.derived, s.signer)

theorem State.Inv.same {s t : State} (h : s.Inv) (e : t.tables = s.tables) (b : t.bundles = s.bundles)
    (m : t.teams = s.teams) : t.Inv := by
  simp only [State.tables, Prod.mk.injEq] at e
  obtain ⟨e1, e2, e3, e4, e5, e6, e7, e8, e9, e10, e11, e12⟩ := e
  exact {
    memory := by unfold State.MemoryWf; rw [e1, e2, e3, e4]; exact h.memory
    tables := {
      cores := e5 ▸ h.tables.cores
      pairs := e6 ▸ h.tables.pairs
      ctxs := e7 ▸ h.tables.ctxs
      queues := e8 ▸ h.tables.queues
      islands := e9 ▸ h.tables.islands
      dies := e10 ▸ h.tables.dies
      derived := e11 ▸ h.tables.derived
      signer := e12 ▸ h.tables.signer }
    bundles := by unfold State.BundlesWf; rw [b]; exact h.bundles
    regs := by unfold State.RegsWf; rw [m]; exact h.regs }

/-- New teams and bundles. -/
theorem State.Inv.remade {s t : State} (h : s.Inv) (e : t.tables = s.tables) (b : t.BundlesWf) (m : t.RegsWf) : t.Inv := by
  have := (h.same (t := { t with bundles := s.bundles, teams := s.teams }) e rfl rfl)
  exact ⟨this.memory, ⟨this.tables.cores, this.tables.pairs, this.tables.ctxs, this.tables.queues, this.tables.islands,
    this.tables.dies, this.tables.derived, this.tables.signer⟩, b, m⟩

/-- The same memories, teams and bundles; tables in their form. -/
theorem State.Inv.units {s t : State} (h : s.Inv)
    (e : (t.mem, t.descs, t.peerMem, t.peerDescs) = (s.mem, s.descs, s.peerMem, s.peerDescs))
    (b : t.bundles = s.bundles) (m : t.teams = s.teams) (k : t.TablesWf) : t.Inv := by
  simp only [Prod.mk.injEq] at e
  obtain ⟨e1, e2, e3, e4⟩ := e
  refine ⟨?_, k, ?_, ?_⟩
  · unfold State.MemoryWf; rw [e1, e2, e3, e4]; exact h.memory
  · unfold State.BundlesWf; rw [b]; exact h.bundles
  · unfold State.RegsWf; rw [m]; exact h.regs

/-- The same tables, teams and bundles; memories in their form. -/
theorem State.Inv.stored {s t : State} (h : s.Inv)
    (e : (t.cores, t.pairs, t.ctxs, t.queues, t.islands, t.dies, t.derived, t.signer)
      = (s.cores, s.pairs, s.ctxs, s.queues, s.islands, s.dies, s.derived, s.signer))
    (b : t.bundles = s.bundles) (m : t.teams = s.teams) (k : t.MemoryWf) : t.Inv := by
  simp only [Prod.mk.injEq] at e
  obtain ⟨e1, e2, e3, e4, e5, e6, e7, e8⟩ := e
  exact {
    memory := k
    tables := {
      cores := e1 ▸ h.tables.cores
      pairs := e2 ▸ h.tables.pairs
      ctxs := e3 ▸ h.tables.ctxs
      queues := e4 ▸ h.tables.queues
      islands := e5 ▸ h.tables.islands
      dies := e6 ▸ h.tables.dies
      derived := e7 ▸ h.tables.derived
      signer := e8 ▸ h.tables.signer }
    bundles := by unfold State.BundlesWf; rw [b]; exact h.bundles
    regs := by unfold State.RegsWf; rw [m]; exact h.regs }

/-! ## Going through a computation -/

theorem State.Inv.fst {α : Type} {p : State × α} {t : State} {a : α} (e : p = (t, a)) (h : p.1.Inv) : t.Inv := by
  rw [e] at h; exact h

theorem State.Inv.foldl {α : Type} (f : State → α → State) (l : List α) (hf : ∀ s x, s.Inv → (f s x).Inv) :
    ∀ {s : State}, s.Inv → (l.foldl f s).Inv := by
  induction l with
  | nil => exact fun h => h
  | cons x t ih => exact fun h => ih (hf _ x h)

theorem State.Inv.foldlMem {α : Type} (f : State → α → State) (l : List α) (hf : ∀ s x, x ∈ l → s.Inv → (f s x).Inv) :
    ∀ {s : State}, s.Inv → (l.foldl f s).Inv := by
  induction l with
  | nil => exact fun h => h
  | cons x t ih =>
    exact fun h => ih (fun s y hy => hf s y (List.mem_cons_of_mem _ hy)) (hf _ x List.mem_cons_self h)

theorem State.Inv.foldlFst {α β : Type} (f : State × β → α → State × β) (l : List α)
    (hf : ∀ a x, a.1.Inv → (f a x).1.Inv) : ∀ {a : State × β}, a.1.Inv → (l.foldl f a).1.Inv := by
  induction l with
  | nil => exact fun h => h
  | cons x t ih => exact fun h => ih (hf _ x h)

theorem ite_inv {c : Prop} [Decidable c] {s t : State} (hs : s.Inv) (ht : t.Inv) : (if c then s else t).Inv := by
  split
  · exact hs
  · exact ht

theorem ite_fst_inv {α : Type} {c : Prop} [Decidable c] {p q : State × α} (hp : p.1.Inv) (hq : q.1.Inv) :
    (if c then p else q).1.Inv := by
  split
  · exact hp
  · exact hq

/-- What an optional state must satisfy. -/
def OptInv (o : Option State) : Prop := ∀ t, o = some t → t.Inv
theorem OptInv.none : OptInv none := fun _ h => by simp at h
theorem OptInv.some {s : State} (h : s.Inv) : OptInv (some s) := fun _ e => by
  simp only [Option.some.injEq] at e; exact e ▸ h
theorem OptInv.get {o : Option State} {t : State} (h : OptInv o) (e : o = .some t) : t.Inv := h t e
theorem OptInv.bind {o : Option State} {f : State → Option State} (h : OptInv o) (hf : ∀ s, s.Inv → OptInv (f s)) :
    OptInv (o.bind f) := fun t e => by
  cases o with
  | none => simp at e
  | some s => exact hf s (h s rfl) t e
theorem OptInv.map {o : Option State} {f : State → State} (h : OptInv o) (hf : ∀ s, s.Inv → (f s).Inv) :
    OptInv (o.map f) := fun t e => by
  cases o with
  | none => simp at e
  | some s => simp only [Option.map_some, Option.some.injEq] at e; exact e ▸ hf s (h s rfl)
theorem OptInv.foldl {α : Type} (f : Option State → α → Option State) (l : List α) (hf : ∀ o x, OptInv o → OptInv (f o x)) :
    ∀ {o : Option State}, OptInv o → OptInv (l.foldl f o) := by
  induction l with
  | nil => exact fun h => h
  | cons x t ih => exact fun h => ih (hf _ x h)

/-- What a state with a cause for failing must satisfy. -/
def ExcInv (o : Except Cause State) : Prop := ∀ t, o = .ok t → t.Inv
theorem ExcInv.error (c : Cause) : ExcInv (.error c) := fun _ h => by simp at h
theorem ExcInv.ok {s : State} (h : s.Inv) : ExcInv (.ok s) := fun _ e => by
  simp only [Except.ok.injEq] at e; exact e ▸ h
theorem ExcInv.get {o : Except Cause State} {t : State} (h : ExcInv o) (e : o = .ok t) : t.Inv := h t e
theorem ExcInv.foldl {α : Type} (f : Except Cause State → α → Except Cause State) (l : List α)
    (hf : ∀ o x, ExcInv o → ExcInv (f o x)) : ∀ {o : Except Cause State}, ExcInv o → ExcInv (l.foldl f o) := by
  induction l with
  | nil => exact fun h => h
  | cons x t ih => exact fun h => ih (hf _ x h)

/-- What the outcome of an instruction must satisfy. -/
def ResInv (r : Result) : Prop := ∀ t, r = .next t → t.Inv
theorem ResInv.next {s : State} (h : s.Inv) : ResInv (.next s) := fun _ e => by
  simp only [Host.Outcome.next.injEq] at e; exact e ▸ h
theorem ResInv.fault (f : Fault) : ResInv (.fault f) := fun _ h => by simp at h
theorem ResInv.refused (f : Refusal) : ResInv (.refused f) := fun _ h => by simp at h

/-! ## Units -/

theorem State.setCore_inv {s : State} (h : s.Inv) (n : Nat) (c : Core) : (s.setCore n c).Inv :=
  h.units rfl rfl rfl { h.tables with cores := swf_sset _ _ _ _ h.tables.cores }
theorem State.modCore_inv {s : State} (h : s.Inv) (n : Nat) (f : Core → Core) : (s.modCore n f).Inv := State.setCore_inv h _ _
theorem State.setPair_inv {s : State} (h : s.Inv) (n : Nat) (p : Pair) : ({ s with pairs := sset .fresh s.pairs n p } : State).Inv :=
  h.units rfl rfl rfl { h.tables with pairs := swf_sset _ _ _ _ h.tables.pairs }
theorem State.modPair_inv {s : State} (h : s.Inv) (n : Nat) (f : Pair → Pair) : (s.modPair n f).Inv := State.setPair_inv h _ _
theorem State.modCtx_inv {s : State} (h : s.Inv) (n : Nat) (f : Ctx → Ctx) : (s.modCtx n f).Inv :=
  h.units rfl rfl rfl { h.tables with ctxs := swf_sset _ _ _ _ h.tables.ctxs }
theorem State.modQueue_inv {s : State} (h : s.Inv) (n : Nat) (f : Queue → Queue) : (s.modQueue n f).Inv :=
  h.units rfl rfl rfl { h.tables with queues := swf_sset _ _ _ _ h.tables.queues }
theorem State.modIsland_inv {s : State} (h : s.Inv) (n : Nat) (f : Island → Island) : (s.modIsland n f).Inv :=
  h.units rfl rfl rfl { h.tables with islands := swf_sset _ _ _ _ h.tables.islands }
theorem State.modDie_inv {s : State} (h : s.Inv) (n : Nat) (f : Die → Die) : (s.modDie n f).Inv :=
  h.units rfl rfl rfl { h.tables with dies := swf_sset _ _ _ _ h.tables.dies }
theorem State.modDerived_inv {s : State} (h : s.Inv) (n : Nat) (f : Derived → Derived) : (s.modDerived n f).Inv :=
  h.units rfl rfl rfl { h.tables with derived := swf_sset _ _ _ _ h.tables.derived }
theorem State.setSigner_inv {s : State} (h : s.Inv) (n v : Nat) : ({ s with signer := sset 0 s.signer n v } : State).Inv :=
  h.units rfl rfl rfl { h.tables with signer := swf_sset _ _ _ _ h.tables.signer }

/-! ## Teams and threads -/

/-- A team whose threads' registers are in their form. -/
def Team.RegsWf (t : Team) : Prop := ∀ x ∈ t.threads, swf 0 x.regs = true

theorem mem_modWhere {α : Type} {p : α → Bool} {f : α → α} {l : List α} {y : α} (h : y ∈ modWhere p f l) :
    ∃ x ∈ l, y = f x ∨ y = x := by
  unfold modWhere at h
  obtain ⟨x, hx, e⟩ := List.mem_map.mp h
  refine ⟨x, hx, ?_⟩
  split at e
  · exact .inl e.symm
  · exact .inr e.symm

theorem State.setTeams_inv {s : State} (h : s.Inv) (l : List Team) (hl : ∀ t ∈ l, t.RegsWf) : ({ s with teams := l } : State).Inv :=
  h.remade rfl h.bundles hl

theorem State.modTeam_inv {s : State} (h : s.Inv) (k : TeamKey) (f : Team → Team) (hf : ∀ t, t.RegsWf → (f t).RegsWf) :
    (s.modTeam k f).Inv :=
  State.setTeams_inv h _ fun t ht => by
    obtain ⟨x, hx, rfl | rfl⟩ := mem_modWhere ht
    · exact hf x (h.regs x hx)
    · exact h.regs t hx

theorem Team.modThread_regs {t : Team} (h : t.RegsWf) (i : Nat) (f : Thread → Thread)
    (hf : ∀ x, swf 0 x.regs = true → swf 0 (f x).regs = true) : (t.modThread i f).RegsWf := fun y hy => by
  obtain ⟨x, hx, rfl | rfl⟩ := mem_modWhere hy
  · exact hf x (h x hx)
  · exact h _ hx

theorem Team.mapThreads_regs {t : Team} (h : t.RegsWf) (f : Thread → Thread)
    (hf : ∀ x, swf 0 x.regs = true → swf 0 (f x).regs = true) :
    ({ t with threads := t.threads.map f } : Team).RegsWf := fun y hy => by
  obtain ⟨x, hx, rfl⟩ := List.mem_map.mp hy
  exact hf x (h x hx)

theorem State.modThread_inv {s : State} (h : s.Inv) (k : TeamKey) (i : Nat) (f : Thread → Thread)
    (hf : ∀ x, swf 0 x.regs = true → swf 0 (f x).regs = true) : (s.modThread k i f).Inv :=
  State.modTeam_inv h _ _ fun _ ht => Team.modThread_regs ht _ _ hf

theorem State.addTeam_inv {s : State} (h : s.Inv) (t : Team) (ht : t.RegsWf) : ({ s with teams := s.teams ++ [t] } : State).Inv :=
  State.setTeams_inv h _ fun x hx => by
    rcases List.mem_append.mp hx with hx | hx
    · exact h.regs x hx
    · simp only [List.mem_singleton] at hx; exact hx ▸ ht

theorem State.filterTeams_inv {s : State} (h : s.Inv) (p : Team → Bool) : ({ s with teams := s.teams.filter p } : State).Inv :=
  State.setTeams_inv h _ fun x hx => h.regs x (List.mem_of_mem_filter hx)

theorem State.mapTeams_inv {s : State} (h : s.Inv) (f : Team → Team) (hf : ∀ t, t.RegsWf → (f t).RegsWf) :
    ({ s with teams := s.teams.map f } : State).Inv :=
  State.setTeams_inv h _ fun x hx => by
    obtain ⟨t, ht, rfl⟩ := List.mem_map.mp hx
    exact hf t (h.regs t ht)

theorem State.team?_regs {s : State} (h : s.Inv) {k : TeamKey} {t : Team} (e : s.team? k = some t) : t.RegsWf :=
  h.regs t (List.mem_of_find?_eq_some e)

theorem State.thread?_regs {s : State} (h : s.Inv) {k : TeamKey} {i : Nat} {x : Thread} (e : s.thread? k i = some x) :
    swf 0 x.regs = true := by
  unfold State.thread? at e
  cases ht : s.team? k with
  | none => rw [ht] at e; simp at e
  | some t =>
    rw [ht] at e
    exact State.team?_regs h ht x (List.mem_of_find?_eq_some e)

theorem Thread.setReg_regs {x : Thread} (h : swf 0 x.regs = true) (r : Nat) (v : W32) : swf 0 (x.setReg r v).regs = true :=
  swf_sset _ _ _ _ h
theorem Thread.setDest_regs {x : Thread} (h : swf 0 x.regs = true) (d : Dest) (v : W64) : swf 0 (x.setDest d v).regs = true := by
  cases d with
  | reg r => exact swf_sset _ _ _ _ h
  | pair r => exact swf_sset _ _ _ _ (swf_sset _ _ _ _ h)
  | pred k => exact h
  | preds => exact h
theorem foldl_regs {α : Type} (f : Thread → α → Thread) (l : List α)
    (hf : ∀ x a, swf 0 x.regs = true → swf 0 (f x a).regs = true) :
    ∀ {x : Thread}, swf 0 x.regs = true → swf 0 (l.foldl f x).regs = true := by
  induction l with
  | nil => exact fun h => h
  | cons a t ih => exact fun h => ih (hf _ a h)
theorem Thread.advance_regs {x : Thread} (h : swf 0 x.regs = true) (k : Nat) : swf 0 (x.advance k).regs = true :=
  foldl_regs _ _ (fun _ _ h => Thread.setDest_regs h _ _) h
theorem Thread.landWords_regs {x : Thread} (h : swf 0 x.regs = true) (p : Pend) (ws : List W32) :
    swf 0 (x.landWords p ws).regs = true :=
  foldl_regs _ _ (fun _ _ h => Thread.setReg_regs h _ _) h

/-! ## Bundles -/

theorem State.setBundles_inv {s : State} (h : s.Inv) (l : List Bundle) (hl : ∀ b ∈ l, b.tids ≠ [] ∧ b.tids.Nodup) :
    ({ s with bundles := l } : State).Inv := h.remade rfl hl h.regs

theorem State.mapBundles_inv {s : State} (h : s.Inv) (f : Bundle → Bundle) (hf : ∀ b, (f b).tids = b.tids) :
    ({ s with bundles := s.bundles.map f } : State).Inv :=
  State.setBundles_inv h _ fun b hb => by
    obtain ⟨x, hx, rfl⟩ := List.mem_map.mp hb
    rw [hf]; exact h.bundles x hx

theorem State.filterBundles_inv {s : State} (h : s.Inv) (p : Bundle → Bool) :
    ({ s with bundles := s.bundles.filter p } : State).Inv :=
  State.setBundles_inv h _ fun b hb => h.bundles b (List.mem_of_mem_filter hb)

theorem State.modBundle_inv {s : State} (h : s.Inv) (id : Nat) (f : Bundle → Bundle) (hf : ∀ b, (f b).tids = b.tids) :
    (s.modBundle id f).Inv :=
  State.setBundles_inv h _ fun b hb => by
    obtain ⟨x, hx, rfl | rfl⟩ := mem_modWhere hb
    · rw [hf]; exact h.bundles x hx
    · exact h.bundles _ hx

theorem State.leaveBundle_inv {s : State} (h : s.Inv) (id : Nat) (tids : List Nat) : (s.leaveBundle id tids).Inv :=
  State.setBundles_inv h _ fun b hb => by
    obtain ⟨hb, hne⟩ := List.mem_filter.mp hb
    refine ⟨by simpa using hne, ?_⟩
    obtain ⟨x, hx, rfl | rfl⟩ := mem_modWhere hb
    · exact (h.bundles x hx).2.filter _
    · exact (h.bundles _ hx).2

theorem State.wake_inv {s : State} (h : s.Inv) : s.wake.Inv := State.mapBundles_inv h _ fun _ => rfl

/-! ## Memory -/

theorem State.trackWrite_inv {s : State} (h : s.Inv) (p : Place) (n : Nat) : (s.trackWrite p n).Inv := h.same rfl rfl rfl
theorem State.writeBytes_inv {s : State} (h : s.Inv) (p : Place) (bs : List Byte) : (s.writeBytes p bs).Inv := by
  refine h.stored ?_ ?_ ?_ (State.writeBytes_wf h.memory p bs) <;> cases p <;> unfold State.writeBytes <;> simp only <;>
    (try split) <;> rfl
theorem State.writeDescr_inv {s : State} (h : s.Inv) (p : Place) (d : Descr) : (s.writeDescr p d).Inv := by
  refine h.stored ?_ ?_ ?_ (State.writeDescr_wf h.memory p d) <;> cases p <;> unfold State.writeDescr <;> simp only <;>
    (try split) <;> rfl
theorem State.writePoison_inv {s : State} (h : s.Inv) (p : Place) (m : Option Cause) : (s.writePoison p m).Inv := by
  cases p <;> exact h.same rfl rfl rfl
theorem State.writeBlock_inv {s : State} (h : s.Inv) (p : Place) (b : Block) : (s.writeBlock p b).Inv :=
  State.writePoison_inv (State.writeDescr_inv (State.writeBytes_inv h _ _) _ _) _ _
theorem State.writePart_inv {s : State} (h : s.Inv) (p : Place) (off : Nat) (bs : List Byte) (d : Descr) (m : Option Cause) :
    (s.writePart p off bs d m).Inv := by
  unfold State.writePart
  simp only
  split
  · exact State.writePoison_inv (State.writeDescr_inv (State.writeBytes_inv h _ _) _ _) _ _
  · exact State.writeDescr_inv (State.writeBytes_inv h _ _) _ _
theorem State.sysWrite_inv {s : State} (h : s.Inv) (ctx va : Nat) (bs : List Byte) : ExcInv (s.sysWrite ctx va bs) := by
  unfold State.sysWrite
  split
  · exact .error _
  · refine .ok (State.Inv.foldl _ _ (fun s x h => ?_) h)
    split
    · exact h
    · exact State.writeBytes_inv h _ _

/-! ## Launches, groups and the rest -/

theorem State.modLaunch_inv {s : State} (h : s.Inv) (ctx id : Nat) (f : Launch → Launch) : (s.modLaunch ctx id f).Inv :=
  h.same rfl rfl rfl
theorem State.modPacket_inv {s : State} (h : s.Inv) (n : PktName) (f : Packet → Packet) : (s.modPacket n f).Inv := h.same rfl rfl rfl
theorem State.modGroup_inv {s : State} (h : s.Inv) (id : Nat) (f : Group → Group) : (s.modGroup id f).Inv := h.same rfl rfl rfl
theorem State.modMove_inv {s : State} (h : s.Inv) (id : Nat) (f : Move → Move) : (s.modMove id f).Inv := h.same rfl rfl rfl
theorem State.failLaunch_inv {s : State} (h : s.Inv) (ctx id : Nat) (c : Cause) (g : Nat) : (s.failLaunch ctx id c g).Inv :=
  h.same rfl rfl rfl
theorem State.failLaunchOf_inv {s : State} (h : s.Inv) (k : TeamKey) (c : Cause) (g : Nat) : (s.failLaunchOf k c g).Inv := by
  cases k with
  | user _ _ _ => exact h.same rfl rfl rfl
  | walker _ _ => exact h
theorem State.postEvent_inv {s : State} (h : s.Inv) (e : HiveEvent) : (s.postEvent e).Inv := by
  unfold State.postEvent; split <;> exact h.same rfl rfl rfl

end Sys2Proof.Machine
end

