-- ==== Sys2Proof/Laws/InvOps.lean ====
section
/-! SUPPORT. InvOps.lean: the shared operations over bundles, bins, groups, walkers, memory accesses, atomics and barriers
keep the invariant. -/

namespace Sys2Proof.Machine

/-! ## Bundles and bins -/

theorem State.standThreads_inv {s : State} (h : s.Inv) (k : TeamKey) (f : Thread → Thread) (hf : ∀ x, (f x).regs = x.regs)
    (tids : List Nat) : (tids.foldl (fun s t => s.modThread k t f) s).Inv :=
  State.Inv.foldl _ _ (fun s t h => State.modThread_inv h _ _ _ fun x hx => by rw [hf]; exact hx) h

theorem mem_of_mem_eraseDups (n : Nat) : ∀ (l : List Nat) (x : Nat), l.length ≤ n → x ∈ l.eraseDups → x ∈ l := by
  induction n with
  | zero =>
    intro l x hl hx
    rw [List.length_eq_zero_iff.mp (Nat.le_zero.mp hl)] at hx
    simp at hx
  | succ n ih =>
    intro l x hl hx
    cases l with
    | nil => simp at hx
    | cons a t =>
      rw [List.eraseDups_cons] at hx
      rcases List.mem_cons.mp hx with rfl | hx
      · exact List.mem_cons_self
      · have hlen : (t.filter fun b => !b == a).length ≤ n :=
          Nat.le_trans (List.length_filter_le _ _) (Nat.le_of_succ_le_succ hl)
        exact List.mem_cons_of_mem _ (List.mem_of_mem_filter (ih _ x hlen hx))

theorem nodup_eraseDups (n : Nat) : ∀ l : List Nat, l.length ≤ n → l.eraseDups.Nodup := by
  induction n with
  | zero =>
    intro l hl
    rw [List.length_eq_zero_iff.mp (Nat.le_zero.mp hl)]
    simp
  | succ n ih =>
    intro l hl
    cases l with
    | nil => simp
    | cons a t =>
      have hlen : (t.filter fun b => !b == a).length ≤ n :=
        Nat.le_trans (List.length_filter_le _ _) (Nat.le_of_succ_le_succ hl)
      rw [List.eraseDups_cons, List.nodup_cons]
      refine ⟨fun hx => ?_, ih _ hlen⟩
      have := mem_of_mem_eraseDups n _ a hlen hx
      simp at this

theorem nodup_eraseDupsIf (l : List Nat) (h : l ≠ []) : l.eraseDups ≠ [] ∧ l.eraseDups.Nodup := by
  constructor
  · cases l with
    | nil => exact absurd rfl h
    | cons a t => rw [List.eraseDups_cons]; simp
  · exact nodup_eraseDups _ l (Nat.le_refl _)

theorem State.mkBundle_inv {s : State} (h : s.Inv) (k : TeamKey) (tids : List Nat) (pc : Nat) (cl : Option Clause)
    (met single : Bool) : (s.mkBundle k tids pc cl met single).Inv := by
  unfold State.mkBundle
  split
  · exact h
  · rename_i hne
    simp only
    have h1 := State.modTeam_inv (State.standThreads_inv h k (fun x => { x with stat := .running, clause := none })
      (by intro _; rfl) tids.eraseDups) k (fun t => { t with parkedSince := none }) fun _ ht => ht
    refine h1.remade rfl ?_ h1.regs
    intro b hb
    rcases List.mem_append.mp hb with hb | hb
    · exact h1.bundles b hb
    · simp only [List.mem_singleton] at hb
      subst hb
      exact nodup_eraseDupsIf tids (by simpa using hne)

theorem State.drawBin_inv {s : State} (h : s.Inv) (core : Nat) (b : Bin) : (s.drawBin core b).Inv := by
  unfold State.drawBin
  simp only
  exact State.mkBundle_inv (State.standThreads_inv (State.modCore_inv h _ _) _ _ (by intro _; rfl) _) _ _ _ _ _ _

theorem State.fileThread_inv {s : State} (h : s.Inv) (k : TeamKey) (tid pc : Nat) : (s.fileThread k tid pc).Inv := by
  unfold State.fileThread
  simp only
  split
  · have h1 := fun n f i => State.modThread_inv (State.modCore_inv h n f) k tid
      (fun x => { x with stat := .binned i, clause := none }) fun _ hx => hx
    split
    · exact State.drawBin_inv (h1 _ _ _) _ _
    · exact h1 _ _ _
  · have h0 : (match freeBin (s.core (s.coreOf k)).bins with
      | some _ => s
      | none => match leastBy (fun (a b : Bin) => decide (a.filed < b.filed)) (s.core (s.coreOf k)).bins with
        | some b => s.drawBin (s.coreOf k) b
        | none => s).Inv := by
      split
      · exact h
      · split
        · exact State.drawBin_inv h _ _
        · exact h
    split
    · exact h0
    · exact State.modThread_inv (State.modCore_inv h0 _ _) _ _ _ fun _ hx => hx

theorem State.drawFull_inv {s : State} (h : s.Inv) (k : TeamKey) : (s.drawFull k).Inv := by
  unfold State.drawFull
  split
  · exact h
  · exact State.Inv.foldl _ _ (fun s b h => State.drawBin_inv h _ _) h

theorem State.endThread_inv {s : State} (h : s.Inv) (k : TeamKey) (c : Clause) (tid : Nat) : (s.endThread k c tid).1.Inv := by
  unfold State.endThread
  split
  · exact h
  · split
    · exact State.modThread_inv h _ _ _ fun _ hx => hx
    · split
      · exact State.fileThread_inv h _ _ _
      · split
        · exact State.modThread_inv h _ _ _ fun _ hx => hx
        · exact h

theorem State.endThreads_inv {s : State} (h : s.Inv) (k : TeamKey) (c : Clause) (tids : List Nat) :
    (s.endThreads k c tids).1.Inv := by
  unfold State.endThreads
  refine State.Inv.foldlFst _ _ ?_ h
  exact fun a x h => State.endThread_inv h _ _ _

theorem State.regroup_inv {s : State} (h : s.Inv) (k : TeamKey) (tids : List Nat) (met single : Bool) :
    (s.regroup k tids met single).Inv := by
  unfold State.regroup
  refine State.Inv.foldl _ _ (fun s part h => ?_) h
  split
  · exact h
  · simp only
    split
    · exact State.mkBundle_inv h _ _ _ _ _ _
    · split
      · exact State.mkBundle_inv (State.endThreads_inv h _ _ _) _ _ _ _ _ _
      · exact State.mkBundle_inv h _ _ _ _ _ _

theorem State.release_inv {s : State} (h : s.Inv) (k : TeamKey) (tids : List Nat) (back met : Bool) :
    (s.release k tids back met).Inv := by
  unfold State.release
  simp only
  split
  · exact State.regroup_inv (State.regroup_inv h _ _ _ _) _ _ _ _
  · exact State.standThreads_inv (State.regroup_inv h _ _ _ _) _ _ (by intro _; rfl) _

theorem State.releaseRows_inv {s : State} (h : s.Inv) (k : TeamKey) : (s.releaseRows k).Inv := by
  unfold State.releaseRows
  split
  · exact h
  · refine State.Inv.foldl _ _ (fun s row h => ?_) h
    simp only
    split
    · exact h
    · exact State.release_inv (State.release_inv h _ _ _ _) _ _ _ _

/-! ## Groups -/

theorem State.putRecords_inv {s : State} (h : s.Inv) (g : Group) (slot : Nat) : (s.putRecords g slot).Inv := by
  unfold State.putRecords
  exact State.Inv.foldl _ _ (fun s x h => State.writeBytes_inv h _ _) h

theorem State.fileGroup_inv {s : State} (h : s.Inv) (id : Nat) : (s.fileGroup id).Inv := by
  unfold State.fileGroup
  split
  · exact h
  · split
    · exact h
    · split
      · exact h
      · refine State.postEvent_inv ?_ _
        exact (State.putRecords_inv h _ _).same rfl rfl rfl

theorem State.rejoinGroup_inv {s : State} (h : s.Inv) (g : Group) (pc : Nat) (recs : List FaultRec) (tids : List Nat) :
    (s.rejoinGroup g pc recs tids).Inv := by
  unfold State.rejoinGroup
  simp only
  split
  · exact h.same rfl rfl rfl
  · split <;> split
    all_goals first
      | exact State.putRecords_inv (State.modGroup_inv h _ _) _ _
      | (refine State.fileGroup_inv ?_ _; exact h.same rfl rfl rfl)

theorem State.takeGroup_inv {s : State} (h : s.Inv) (k : TeamKey) (kind : GroupKind) (pc dest : Nat) (inner : Option Clause)
    (traps : List Trap) (each : Bool) : (s.takeGroup k kind pc dest inner traps each).Inv := by
  unfold State.takeGroup
  simp only
  split
  · exact State.rejoinGroup_inv (State.standThreads_inv h _ _ (by intro _; rfl) _) _ _ _ _
  · refine State.fileGroup_inv ?_ _
    exact (State.standThreads_inv h _ _ (by intro _; rfl) _).same rfl rfl rfl

theorem State.takeReport_inv {s : State} (h : s.Inv) (k : TeamKey) (kind : GroupKind) (r : FaultRec) (ms : List Nat) :
    (s.takeReport k kind r ms).Inv := by
  unfold State.takeReport
  refine State.fileGroup_inv ?_ _
  exact h.same rfl rfl rfl

theorem State.dropGroup_inv {s : State} (h : s.Inv) (g : Group) : (s.dropGroup g).Inv := h.same rfl rfl rfl

theorem State.replayGroup_inv {s : State} (h : s.Inv) (g : Group) : (s.replayGroup g).Inv :=
  State.wake_inv (State.dropGroup_inv (State.release_inv h _ _ _ _) _)

theorem Thread.pastWord_regs {x : Thread} (h : swf 0 x.regs = true) (now : Nat) (pend : Option (Nat × List W32 × PendKind)) :
    swf 0 (x.pastWord now pend).regs = true := by
  unfold Thread.pastWord
  extract_lets y
  have hy : swf 0 y.regs = true := by
    unfold y
    split <;> exact h
  split
  · exact hy
  · exact Thread.advance_regs hy _

theorem State.pastWord_inv {s : State} (h : s.Inv) (k : TeamKey) (tid : Nat) (pend : Option (Nat × List W32 × PendKind)) :
    (s.pastWord k tid pend).Inv := State.modThread_inv h _ _ _ fun _ hx => Thread.pastWord_regs hx _ _

theorem State.releaseGroup_inv {s : State} (h : s.Inv) (g : Group) : (s.releaseGroup g).Inv := by
  unfold State.releaseGroup
  simp only
  refine State.wake_inv (State.dropGroup_inv (State.release_inv ?_ _ _ _ _) _)
  exact State.Inv.foldl _ _ (fun s t h => State.pastWord_inv h _ _ _) h

/-! ## Walkers and translation -/

theorem foldl_sset_wf {α β : Type} [DecidableEq α] (d : α) (l : List (Nat × β)) (f : β → α) :
    ∀ (m : List (Nat × α)), swf d m = true → swf d (l.foldl (fun r e => sset d r e.1 (f e.2)) m) = true := by
  induction l with
  | nil => exact fun _ h => h
  | cons a t ih => exact fun _ h => ih _ (swf_sset _ _ _ _ h)

theorem Team.start_regs (k : TeamKey) (core grid index swarmIdx depth : Nat) (d : KDesc) (sc : List (Nat × W32)) :
    (Team.start k core grid index swarmIdx depth d sc).RegsWf := fun x hx => by
  unfold Team.start at hx
  obtain ⟨i, _, rfl⟩ := List.mem_map.mp hx
  rfl

theorem State.startWalker_inv {s : State} (h : s.Inv) (core slot entry : Nat) (what : WalkFor) (regs : List (Nat × W32)) :
    (s.startWalker core slot entry what regs).Inv := by
  unfold State.startWalker
  simp only
  refine State.mkBundle_inv (State.addTeam_inv (State.modCore_inv h _ _) _ ?_) _ _ _ _ _ _
  refine Team.modThread_regs (Team.start_regs _ _ _ _ _ _ _ _) _ _ fun x hx => ?_
  exact foldl_sset_wf 0 regs id [] rfl

theorem State.startWalk_inv {s : State} (h : s.Inv) (core ctx va : Nat) (accs : List Acc) : (s.startWalk core ctx va accs).Inv := by
  unfold State.startWalk
  simp only
  split
  · exact h
  · split
    · exact h
    · exact State.startWalker_inv h _ _ _ _ _

theorem State.endWalker_inv {s : State} (h : s.Inv) (core slot : Nat) (r : WalkEnd) : (s.endWalker core slot r).Inv := by
  unfold State.endWalker
  simp only
  split
  · exact h
  · refine State.wake_inv ?_
    have h1 : ∀ f k, ({ s.modCore core f with
        teams := (s.modCore core f).teams.filter fun t => t.key != k
        bundles := (s.modCore core f).bundles.filter fun b => b.key != k } : State).Inv := fun f k =>
      State.filterBundles_inv (State.filterTeams_inv (State.modCore_inv h core f) _) _
    split
    · exact (h1 _ _).same rfl rfl rfl
    · split
      · exact h1 _ _
      · refine State.mapBundles_inv (h1 _ _) _ fun b => ?_
        split <;> rfl

theorem State.startCall_inv {s : State} (h : s.Inv) : s.startCall.Inv := by
  unfold State.startCall
  simp only
  split
  · exact h
  · split
    · exact h
    · exact State.startWalker_inv h _ _ _ _ _

theorem State.endWalk_inv {s : State} (h : s.Inv) (core slot : Nat) (r : WalkEnd) : (s.endWalk core slot r).Inv :=
  State.startCall_inv (State.endWalker_inv h _ _ _)

theorem State.translate_inv {s : State} (h : s.Inv) (k : TeamKey) (core tid va : Nat) (notes : List WalkNote) :
    (s.translate k core tid va notes).1.Inv := by
  have hg : ∀ hit, (State.translate.go k core tid va notes s hit).1.Inv := fun hit => by
    unfold State.translate.go
    split
    · exact State.modThread_inv (State.modCore_inv h _ _) _ _ _ fun _ hx => hx
    · split
      · exact h
      · exact h
  unfold State.translate
  simp only
  split
  · split
    · exact h
    · exact hg _
  · exact hg _

theorem State.access_inv {s : State} (h : s.Inv) (k : TeamKey) (core tid va n : Nat) (accs : List Acc) (pu : Purity)
    (notes : List WalkNote) : (s.access k core tid va n accs pu notes).1.Inv := by
  have ht := State.translate_inv h k core tid va notes
  unfold State.access
  split
  · exact h
  · split
    · exact h
    · split
      · exact h
      · simp only
        split
        · exact ht
        · exact ht
        · split
          · exact ht
          · split
            · split <;> exact ht
            · split <;> exact ht

/-! ## Loads, stores and the race detector -/

theorem State.performEntry_inv {s : State} (h : s.Inv) (core : Nat) (e : StoreEntry) : (s.performEntry core e).Inv := by
  unfold State.performEntry
  simp only
  refine State.modCore_inv ?_ _ _
  have h1 : (if s.answers e.place then s else s.failLaunchOf e.key .machine 0).Inv := ite_inv h (State.failLaunchOf_inv h _ _ _)
  split
  · exact State.writeDescr_inv h1 _ _
  · exact State.writeBytes_inv h1 _ _

theorem State.performFifo_inv (n : Nat) : ∀ {s : State} (_ : s.Inv) (core : Nat), (s.performFifo core n).Inv := by
  induction n with
  | zero => exact fun h _ => h
  | succ n ih =>
    intro s h core
    unfold State.performFifo
    split
    · exact h
    · exact ih (State.performEntry_inv (State.modCore_inv h _ _) _ _) _

theorem State.drain_inv {s : State} (h : s.Inv) (k : TeamKey) : (s.drain k).Inv := State.performFifo_inv _ h _

theorem State.acquire_inv {s : State} (h : s.Inv) (core : Nat) (sc : Scope) : (s.acquire core sc).Inv := by
  unfold State.acquire
  split
  · exact h
  · exact State.modCore_inv h _ _

theorem State.freeBit_inv {s : State} (h : s.Inv) : s.freeBit.1.Inv := h.same rfl rfl rfl

theorem State.loadBlock_inv {s : State} (h : s.Inv) (core : Nat) (sc : Scope) (na : Bool) (p : Place) :
    (s.loadBlock core sc na p).1.Inv := by
  have hm : ∀ (u : State) (_ : u.Inv) (c : Bool) (key : Nat), (match u.readBlock p with
      | none => (u, none)
      | some b => if c = true then (u.modCore core fun c => { c with l1 := putLine c.l1 key b }, some b)
        else (u, some b) : State × Option Block).1.Inv := by
    intro u hu c key
    split
    · exact hu
    · split
      · dsimp only
        exact State.modCore_inv hu _ _
      · exact hu
  unfold State.loadBlock
  simp only
  split
  · split
    · split
      · exact State.freeBit_inv h
      · exact hm _ (State.freeBit_inv h) _ _
    · exact hm _ h _ _
  · exact hm _ h _ _

theorem State.loadFor_inv {s : State} (h : s.Inv) (core : Nat) (k : TeamKey) (tid : Nat) (sc : Scope) (na : Bool) (p : Place) :
    (s.loadFor core k tid sc na p).1.Inv := State.loadBlock_inv h _ _ _ _

theorem State.pushStore_inv {s : State} (h : s.Inv) (core : Nat) (e : StoreEntry) : (s.pushStore core e).Inv :=
  State.modCore_inv h _ _

theorem State.ringPut_inv {s : State} (h : s.Inv) (ctx : Nat) (get : Ctx → Ring) (set : Ctx → Ring → Ctx) (unit : Nat)
    (bytes : List Byte) : (s.ringPut ctx get set unit bytes).1.Inv := by
  unfold State.ringPut
  simp only
  split
  · dsimp only
    exact State.modCtx_inv h _ _
  · split
    · dsimp only
      exact State.modCtx_inv h _ _
    · rename_i e
      dsimp only
      exact State.modCtx_inv ((State.sysWrite_inv h _ _ _).get e) _ _

theorem State.raceMark_inv {s : State} (h : s.Inv) (k : TeamKey) (tid va n : Nat) (sc : Scope) (atomic : Bool) (ival : W32) :
    (s.raceMark k tid va n sc atomic ival).Inv := by
  unfold State.raceMark
  split
  · exact h
  · split
    · exact State.modLaunch_inv h _ _ _
    · exact h

theorem State.raceCheck_inv {s : State} (h : s.Inv) (k : TeamKey) (tid va n pc kind : Nat) (sc : Scope) (writes : Bool)
    (ival : W32) : (s.raceCheck k tid va n pc kind sc writes ival).1.Inv := by
  unfold State.raceCheck
  split
  · exact h
  · split
    · exact h
    · split
      · exact h
      · simp only
        split
        · exact h
        · rename_i l _ _ _
          have h1 : ∀ (m : List (Nat × Shadow)) (g : State → Nat × Shadow → List Byte) (c : Nat), (m.foldl (fun s x => (s.ringPut c (·.race)
              (fun c r => { c with race := r }) 64 (g s x)).1) s).Inv := fun m g c =>
            State.Inv.foldl _ _ (fun s x h => State.ringPut_inv h _ _ _ _ _) h
          split
          · dsimp only
            exact State.raceMark_inv (h1 _ _ _) _ _ _ _ _ _ _
          · dsimp only
            exact h1 _ _ _

theorem State.bumpInterval_inv {s : State} (h : s.Inv) (k : TeamKey) (tid : Nat) : (s.bumpInterval k tid).Inv := by
  unfold State.bumpInterval
  split
  · exact State.modThread_inv h _ _ _ fun _ hx => hx
  · exact h

/-! ## Atomics -/

theorem State.atomDrain_inv {s : State} (h : s.Inv) (k : TeamKey) (o : AtomOp) : (s.atomDrain k o).Inv := by
  unfold State.atomDrain
  exact ite_inv (State.performFifo_inv _ (State.drain_inv h k) _) (State.drain_inv h k)

theorem State.freshLine_inv {s : State} (h : s.Inv) (core : Nat) (p : Place) (b : Block) : (s.freshLine core p b).Inv :=
  State.modCore_inv h _ _

theorem State.performAtom_inv {s : State} (h : s.Inv) (k : TeamKey) (o : AtomOp) : (s.performAtom k o).1.Inv := by
  have hd := State.atomDrain_inv h k o
  unfold State.performAtom
  simp only
  split
  · exact hd
  · split
    · exact hd
    · have h1 : ∀ (b : Block) (v : Option W64) (f : W64 → StoreEntry), (match v with
          | none => (s.atomDrain k o).freshLine (s.coreOf k) o.place b
          | some v => ((s.atomDrain k o).freshLine (s.coreOf k) o.place b).performEntry (s.coreOf k) (f v)).Inv := by
        intro b v f
        have hl := State.freshLine_inv hd (s.coreOf k) o.place b
        split
        · exact hl
        · exact State.performEntry_inv hl _ _
      split
      · exact State.acquire_inv (h1 _ _ _) _ _
      · exact h1 _ _ _

theorem State.atomDone_inv {s : State} (h : s.Inv) (k : TeamKey) (tid : Nat) (o : AtomOp) (old : W64) :
    (s.atomDone k tid o old).Inv := by
  unfold State.atomDone
  simp only
  have h1 : ∀ (c : Prop) [Decidable c] i, (if c then s.raceMark k tid o.va o.ty.bytes o.scope true i else s).Inv := by
    intro c _ i
    split
    · exact State.raceMark_inv h _ _ _ _ _ _ _
    · exact h
  split
  · exact State.bumpInterval_inv (h1 _ _) _ _
  · exact h1 _ _

theorem State.applyEntry_inv {s : State} (h : s.Inv) (e : AtomEntry) : (s.applyEntry e).Inv := by
  have ha := State.performAtom_inv h e.key e.op
  unfold State.applyEntry
  simp only
  split
  · exact State.failLaunchOf_inv ha _ _ _
  · have hd := fun o => State.atomDone_inv ha e.key e.tid e.op o
    split
    · exact hd _
    · refine State.modThread_inv (hd _) _ _ _ fun x hx => ?_
      split
      · exact Thread.landWords_regs hx _ _
      · exact hx

theorem State.flushAtoms_inv {s : State} (h : s.Inv) (core : Nat) (p : AtomEntry → Bool) : (s.flushAtoms core p).Inv := by
  unfold State.flushAtoms
  exact State.Inv.foldl _ _ (fun s e h => State.applyEntry_inv h e) (State.modCore_inv h _ _)

theorem State.flushTeam_inv {s : State} (h : s.Inv) (k : TeamKey) : (s.flushTeam k).Inv := State.flushAtoms_inv h _ _
theorem State.flushThread_inv {s : State} (h : s.Inv) (k : TeamKey) (tid upTo : Nat) : (s.flushThread k tid upTo).Inv :=
  State.flushAtoms_inv h _ _

theorem State.flushAcquires_inv {s : State} (h : s.Inv) (k : TeamKey) (tid : Nat) : (s.flushAcquires k tid).Inv := by
  unfold State.flushAcquires
  simp only
  split
  · exact h
  · exact State.flushThread_inv h _ _ _

theorem State.flushFor_inv {s : State} (h : s.Inv) (k : TeamKey) (tid : Nat) (slots : List Nat) : (s.flushFor k tid slots).Inv := by
  unfold State.flushFor
  split
  · exact h
  · simp only
    split
    · exact h
    · exact State.flushThread_inv h _ _ _

/-! ## Barriers -/

theorem State.wakeBar_inv {s : State} (h : s.Inv) (k : TeamKey) (n : Nat) : (s.wakeBar k n).Inv := by
  unfold State.wakeBar
  split
  · exact h
  · exact State.wake_inv (State.release_inv h _ _ _ _)

theorem State.barEvent_inv {s : State} (h : s.Inv) (k : TeamKey) (n : Nat) : (s.barEvent k n).Inv := by
  unfold State.barEvent
  split
  · exact h
  · split
    · refine State.wakeBar_inv (State.modTeam_inv h _ _ ?_) _ _
      intro t ht
      exact Team.mapThreads_regs (t := t.setBar n _) ht _ fun _ hx => hx
    · exact h

theorem State.tbarEvent_inv {s : State} (h : s.Inv) (k : TeamKey) : (s.tbarEvent k).Inv := by
  unfold State.tbarEvent
  split
  · exact h
  · simp only
    split
    · exact h
    · have h1 : (if s.launchHas k (·.det) then s.flushTeam k else s).Inv := by
        split
        · exact State.flushTeam_inv h k
        · exact h
      refine State.release_inv (State.Inv.foldl _ _ (fun s a h => State.acquire_inv h _ _) ?_) _ _ _ _
      exact State.modTeam_inv h1 _ _ fun _ ht => ht

theorem State.enterSpawn_inv {s : State} (h : s.Inv) (k : TeamKey) (bytes : List Byte) (pc : Nat) :
    (s.enterSpawn k bytes pc).Inv := State.modTeam_inv (State.drain_inv h k) _ _ fun _ ht => ht

theorem State.enterHeld_inv {s : State} (h : s.Inv) (k : TeamKey) : (s.enterHeld k).Inv := by
  unfold State.enterHeld
  split
  · split
    · exact ite_inv (State.release_inv (State.pastWord_inv (State.enterSpawn_inv h _ _ _) _ _ _) _ _ _ _) h
    · exact h
  · exact h

theorem State.retryHeld_inv {s : State} (h : s.Inv) (k : TeamKey) : (s.retryHeld k).Inv := by
  unfold State.retryHeld
  split
  · exact h
  · exact ite_inv (State.release_inv h _ _ _ _) h

theorem State.retryArrive_inv {s : State} (h : s.Inv) (k : TeamKey) : (s.retryArrive k).Inv := State.release_inv h _ _ _ _

theorem State.settle_inv {s : State} (h : s.Inv) (k : TeamKey) : (s.settle k).Inv :=
  State.drawFull_inv (State.releaseRows_inv (State.retryArrive_inv (State.retryHeld_inv (State.tbarEvent_inv h k) k) k) k) k

theorem State.ceased_inv {s : State} (h : s.Inv) (k : TeamKey) : (s.ceased k).Inv :=
  State.tbarEvent_inv (State.Inv.foldl _ _ (fun _ n h => State.barEvent_inv h k n) h) k

theorem State.switchOff_inv {s : State} (h : s.Inv) (k : TeamKey) (tid : Nat) : (s.switchOff k tid).Inv :=
  State.modTeam_inv h _ _ fun _ ht => Team.modThread_regs ht _ _ fun _ hx => hx

end Sys2Proof.Machine
end

