-- ==== Sys2Proof/Laws/InvIssue.lean ====
section
/-! SUPPORT. InvIssue.lean: the issue of a word keeps the invariant, whatever it does to the units of the machine keeping
it. -/

namespace Sys2Proof.Machine

theorem State.stopLaunch_inv {s : State} (h : s.Inv) (ctx id : Nat) : (s.stopLaunch ctx id).Inv := by
  unfold State.stopLaunch
  simp only
  refine State.filterBundles_inv (State.Inv.foldl _ _ (fun s b h => State.standThreads_inv h _ _ (by intro _; rfl) _) ?_) _
  refine State.setTeams_inv (State.modLaunch_inv h _ _ _) _ fun t ht => ?_
  obtain ⟨x, hx, rfl | rfl⟩ := mem_modWhere ht
  · refine Team.mapThreads_regs (h.regs x hx) _ fun y hy => ?_
    split
    · split <;> exact hy
    all_goals exact hy
  · exact h.regs _ hx

theorem State.collectFp_inv {s : State} (h : s.Inv) (core : Nat) (k : TeamKey) (tid pc : Nat) (flags : BitVec 5) :
    (s.collectFp core k tid pc flags).Inv := by
  unfold State.collectFp
  exact State.modCore_inv h _ _

theorem Thread.issued_regs {x : Thread} (h : swf 0 x.regs = true) (d : Done) (st next now : Nat) :
    swf 0 (x.issued d st next now).regs = true := by
  unfold Thread.issued
  simp only
  refine Thread.advance_regs ?_ _
  split
  · split <;> exact h
  · split <;> exact h

theorem Thread.cease_regs {x : Thread} (h : swf 0 x.regs = true) (st : TStat) : swf 0 (x.cease st).regs = true := h

theorem State.applyAct_inv {s : State} (h : s.Inv) (site : Site) (next : Clause) (st now tid : Nat) (a : Act) :
    (s.applyAct site next st now tid a).Inv := by
  unfold State.applyAct
  simp only
  split
  · rename_i d
    have hi := fun x (hx : swf 0 x.regs = true) => Thread.issued_regs (x := x) hx d st next.wordPc now
    have h1 : ∀ f : Thread → Thread, (∀ x, swf 0 x.regs = true → swf 0 (f x).regs = true) →
      (s.modThread site.key tid f).Inv := fun f hf => State.modThread_inv h _ _ _ hf
    have h2 : (s.modThread site.key tid fun t =>
        let t := t.issued d st next.wordPc now
        if d.exits then t.cease .exited
        else match d.park with
          | some p => { t with stat := .parked p, clause := next.kept tid }
          | none => t).Inv := by
      refine h1 _ fun x hx => ?_
      dsimp only
      split
      · exact hi x hx
      · split
        · exact hi x hx
        · exact hi x hx
    exact ite_inv (State.ceased_inv (State.bumpInterval_inv h2 _ _) _) h2
  · exact h
  · exact State.modThread_inv (State.collectFp_inv h _ _ _ _ _) _ _ _ fun _ hx => hx
  · exact State.ceased_inv (State.switchOff_inv h _ _) _
  · exact State.modThread_inv h _ _ _ fun _ hx => hx
  · exact State.modThread_inv h _ _ _ fun _ hx => hx
  · exact h
  · exact h

/-! ## The end of a clause -/

theorem State.endThreads_sub (s : State) (k : TeamKey) (c : Clause) (tids : List Nat) :
    (s.endThreads k c tids).2.Sublist tids := by
  unfold State.endThreads
  suffices ∀ (l : List Nat) (acc : State × List Nat) (done : List Nat), acc.2.Sublist done → (l.foldl (fun acc t =>
      ((acc.1.endThread k c t).1, if (acc.1.endThread k c t).2 = true then acc.2 ++ [t] else acc.2)) acc).2.Sublist (done ++ l) from
    this tids (s, []) [] (List.Sublist.refl _)
  intro l
  induction l with
  | nil => intro acc done h; simpa using h
  | cons x t ih =>
    intro acc done h
    have := ih ((acc.1.endThread k c x).1, if (acc.1.endThread k c x).2 = true then acc.2 ++ [x] else acc.2) (done ++ [x]) ?_
    · simpa using this
    · dsimp only
      split
      · exact h.append (List.Sublist.refl _)
      · exact h.trans (List.sublist_append_left _ _)

theorem mem_of_mem_eraseDups' {κ : Type} [DecidableEq κ] (n : Nat) : ∀ (l : List κ) (x : κ), l.length ≤ n → x ∈ l.eraseDups → x ∈ l := by
  induction n with
  | zero =>
    intro l x hl hx
    rw [List.length_eq_zero_iff.mp (Nat.le_zero.mp hl)] at hx
    simp at hx
  | succ n ih =>
    intro l x hl hx
    cases l with
    | nil => simp at hx
    | cons a t =>
      rw [List.eraseDups_cons] at hx
      rcases List.mem_cons.mp hx with rfl | hx
      · exact List.mem_cons_self
      · have hlen : (t.filter fun b => !b == a).length ≤ n :=
          Nat.le_trans (List.length_filter_le _ _) (Nat.le_of_succ_le_succ hl)
        exact List.mem_cons_of_mem _ (List.mem_of_mem_filter (ih _ x hlen hx))

/-- Each part of a split is some of the threads, and never empty. -/
theorem partsBy_part {κ : Type} [DecidableEq κ] (f : Nat → κ) (l : List Nat) {p : List Nat} (hp : p ∈ partsBy f l) :
    p ≠ [] ∧ p.Sublist l := by
  unfold partsBy at hp
  obtain ⟨k, hk, rfl⟩ := List.mem_map.mp hp
  refine ⟨?_, List.filter_sublist⟩
  obtain ⟨x, hx, e⟩ := List.mem_map.mp (mem_of_mem_eraseDups' _ _ _ (Nat.le_refl _) hk)
  have : x ∈ l.filter fun t => f t == k := List.mem_filter.mpr ⟨hx, by simp [e]⟩
  exact List.ne_nil_of_mem this

theorem State.bundle?_wf {s : State} (h : s.Inv) {id : Nat} {b : Bundle} (e : s.bundle? id = some b) :
    b.tids ≠ [] ∧ b.tids.Nodup := h.bundles b (List.mem_of_find?_eq_some e)

theorem State.setTids_inv {s : State} (h : s.Inv) (id : Nat) (f : Bundle → Bundle)
    (hf : ∀ b, (f b).tids ≠ [] ∧ (f b).tids.Nodup) : (s.modBundle id f).Inv :=
  State.setBundles_inv h _ fun b hb => by
    obtain ⟨x, hx, rfl | rfl⟩ := mem_modWhere hb
    · exact hf x
    · exact h.bundles _ hx

theorem State.endClause_inv {s : State} (h : s.Inv) (id : Nat) (c : Clause) : (s.endClause id c).Inv := by
  unfold State.endClause
  split
  · exact h
  · rename_i b hb
    have he := State.endThreads_inv h b.key c b.tids
    have hs := State.endThreads_sub s b.key c b.tids
    have hn := (State.bundle?_wf h hb).2
    simp only
    split
    · exact State.filterBundles_inv he _
    · rename_i part more hp
      refine State.Inv.foldl _ _ (fun s p h => State.mkBundle_inv h _ _ _ _ _ _) ?_
      refine State.setTids_inv he _ _ fun _ => ?_
      have hm := partsBy_part (fun t => (State.placeOf (s.endThreads b.key c b.tids).1 b.key t).1)
        (s.endThreads b.key c b.tids).2 (p := part) (by rw [hp]; exact List.mem_cons_self)
      exact ⟨hm.1, (hm.2.trans hs).nodup hn⟩

theorem State.endSingle_inv {s : State} (h : s.Inv) (id : Nat) (c : Clause) : (s.endSingle id c).Inv := by
  unfold State.endSingle
  split
  · exact h
  · rename_i b hb
    simp only
    have h1 := State.standThreads_inv h b.key (fun x => { x with stopNext := true }) (by intro _; rfl) b.tids
    split
    · exact State.endClause_inv h1 _ _
    · exact State.filterBundles_inv (State.standThreads_inv h1 _ _ (by intro _; rfl) _) _

theorem State.nextWord_inv {s : State} (h : s.Inv) (site : Site) (next : Clause) : (s.nextWord site next).Inv := by
  unfold State.nextWord
  simp only
  have h1 : ∀ f : Bundle → Bundle, (∀ b, (f b).tids = b.tids) → (s.modBundle site.b.id f).Inv := fun f hf =>
    State.modBundle_inv h _ _ hf
  split
  · exact State.endSingle_inv (h1 _ (by intro _; rfl)) _ _
  · split
    · exact State.endClause_inv (h1 _ (by intro _; rfl)) _ _
    · exact h1 _ (by intro _; rfl)

theorem State.leaveSlot_inv {s : State} (h : s.Inv) (id core : Nat) : (s.leaveSlot id core).Inv := State.modCore_inv h _ _

theorem State.hold_inv {s : State} (h : s.Inv) (id : Nat) : (s.hold id).Inv := State.modBundle_inv h _ _ (by intro _; rfl)

theorem State.waitFree_inv {s : State} (h : s.Inv) (id core : Nat) : (s.waitFree id core).Inv :=
  State.leaveSlot_inv (State.modBundle_inv h _ _ (by intro _; rfl)) _ _

theorem State.holdFree_inv {s : State} (h : s.Inv) (id core : Nat) : (s.holdFree id core).Inv :=
  State.waitFree_inv (State.hold_inv h _) _ _

theorem State.wakeIsland_inv {s : State} (h : s.Inv) (core : Nat) : (s.wakeIsland core).Inv := State.modIsland_inv h _ _

/-! ## Issue -/

theorem State.threadAct_inv {s : State} (h : s.Inv) (w : OpWord) (site : Site) (bad : Bool) (ill : Thread → Bool)
    (eff : State → Site → Thread → State × Act) (he : ∀ s site t, s.Inv → (eff s site t).1.Inv) (t : Thread) :
    (s.threadAct w site bad ill eff t).1.Inv := by
  unfold State.threadAct
  split
  · exact h
  · split
    · exact h
    · exact he _ _ _ h

theorem State.runThreads_inv {s : State} (h : s.Inv) (site : Site) (f : State → Thread → State × Act)
    (hf : ∀ s t, s.Inv → (f s t).1.Inv) : (s.runThreads site f).1.Inv := by
  unfold State.runThreads
  refine State.Inv.foldlFst _ _ ?_ h
  exact fun a x h => hf _ _ h

theorem State.noteIssue_inv {s : State} (h : s.Inv) (site : Site) : (s.noteIssue site).Inv := by
  unfold State.noteIssue
  simp only
  refine State.modIsland_inv ?_ _ _
  split
  · exact h
  · exact State.modCore_inv (State.leaveSlot_inv h _ _) _ _

theorem State.commit_inv {s : State} (h : s.Inv) (w : OpWord) (site : Site) (regroup : Clause → Clause) (rep : Report)
    (acts : List (Nat × Act)) : (s.commit w site regroup rep acts).Inv := by
  unfold State.commit
  extract_lets k st now src next s0 s1 idle s2 gone s3 s4 traps p
  have h0 : s0.Inv := State.noteIssue_inv h _
  have h1 : s1.Inv := State.Inv.foldl _ _ (fun s x h => State.applyAct_inv h _ _ _ _ _ _) h0
  have h2 : s2.Inv := State.Inv.foldl _ _ (fun s x h => State.modThread_inv h _ _ _ fun _ hx => Thread.issued_regs hx _ _ _ _) h1
  have h3 : s3.Inv := State.leaveBundle_inv h2 _ _
  have h4 : s4.Inv := by
    refine ite_inv (State.Inv.foldl _ _ (fun s x h => State.modThread_inv h _ _ _ fun x hx => ?_) h3) h3
    split <;> exact hx
  clear_value s4
  split
  rename_i calls faults e
  clear_value s3 s2 s1 s0
  extract_lets s5 s6 stops s7 s8
  have h5 : s5.Inv := ite_inv h4 (State.takeGroup_inv h4 _ _ _ _ _ _ _)
  have h6 : s6.Inv := ite_inv h5 (State.takeGroup_inv h5 _ _ _ _ _ _ _)
  have h7 : s7.Inv := ite_inv h6 (State.stopLaunch_inv (State.takeReport_inv h6 _ _ _ _) _ _)
  have h8 : s8.Inv := State.nextWord_inv h7 _ _
  clear_value s8 k
  cases k
  rotate_left
  · exact ite_inv (State.settle_inv h8 _) (State.endWalk_inv h8 _ _ _)
  · exact State.settle_inv h8 _

theorem State.keepPages_inv {s : State} (h : s.Inv) (u : State) (site : Site) : (s.keepPages u site).Inv := by
  unfold State.keepPages
  exact State.modCore_inv (State.Inv.foldl _ _ (fun s t h => State.modThread_inv h _ _ (fun x =>
    { x with lpr := match u.thread? site.key t.tid with | some y => y.lpr | none => x.lpr }) fun _ hx => hx) h) _ _

theorem State.holdForWalks_inv {s : State} (h : s.Inv) (b : Bundle) (core : Nat) (ms : List (Nat × List Acc)) :
    (s.holdForWalks b core ms).Inv :=
  State.waitFree_inv (State.modBundle_inv (State.Inv.foldl _ _ (fun _ _ h => State.startWalk_inv h _ _ _ _) h) _ _
    (by intro _; rfl)) _ _

theorem State.drainAtoms_inv {s : State} (h : s.Inv) (i : Issuer) : (s.drainAtoms i).Inv := by
  unfold State.drainAtoms
  exact ite_inv h (State.Inv.foldl _ _ (fun s m h => State.flushThread_inv h _ _ _) h)

theorem bumpWp_regs (l : List Nat) : ∀ {x : Thread}, swf 0 x.regs = true → swf 0 (l.foldl Thread.bumpWp x).regs = true :=
  foldl_regs Thread.bumpWp l fun _ _ h => h

theorem State.beginClause_inv {s : State} (h : s.Inv) (i : Issuer) : (s.beginClause i).Inv := by
  unfold State.beginClause
  refine ite_inv h (State.modBundle_inv ?_ _ _ (by intro _; rfl))
  exact State.Inv.foldl _ _ (fun s x h => State.modThread_inv h _ _ _ fun _ hx => bumpWp_regs _ hx) h

/-- The issue of a word whose effects keep the invariant keeps it. -/
theorem issueWith_inv (w : OpWord) (ill : State → Site → Thread → Bool) (regroup : Site → Clause → Clause) (rep : Report)
    (before : State → Site → Option State) (eff : State → Site → Thread → State × Act)
    (hb : ∀ s site, s.Inv → OptInv (before s site)) (he : ∀ s site t, s.Inv → (eff s site t).1.Inv) {s : State} (h : s.Inv) :
    ResInv (issueWith w ill regroup rep before eff s) := by
  unfold issueWith
  split
  · exact .fault _
  · rename_i i0 _
    extract_lets s' i s1 site bad sf site' go
    have h' : s'.Inv := State.drainAtoms_inv h _
    clear_value s'
    have h1 : s1.Inv := State.beginClause_inv h' _
    have hgo : ResInv go := by
      have hf : sf.Inv := State.Inv.foldl _ _ (fun s x h => State.flushFor_inv h _ _ _) h1
      clear_value sf
      unfold go
      split
      · exact .next (State.holdFree_inv hf _ _)
      · split
        rename_i s2 acts e
        have h2 : s2.Inv := State.Inv.fst e (State.runThreads_inv hf _ _ fun s t h => State.threadAct_inv h _ _ _ _ _ he _)
        split
        · exact .next (State.holdForWalks_inv (State.wakeIsland_inv (State.keepPages_inv hf _ _) _) _ _ _)
        · split
          · exact .next (State.holdFree_inv hf _ _)
          · exact .next (State.commit_inv h2 _ _ _ _ _)
    split
    · exact .next (State.hold_inv h' _)
    · split
      · exact hgo
      · split
        · rename_i s'' e
          exact .next ((hb _ _ h1).get e)
        · exact hgo

theorem issue_inv (w : OpWord) (eff : State → Site → Thread → State × Act) (he : ∀ s site t, s.Inv → (eff s site t).1.Inv)
    {s : State} (h : s.Inv) : ResInv (issue w eff s) := issueWith_inv _ _ _ _ _ _ (fun _ _ _ => .none) he h

theorem issueFixed_inv (w : OpWord) (d : Dest) (lat : Nat) (f : Thread → W64) {s : State} (h : s.Inv) :
    ResInv (issueFixed w d lat f s) := issue_inv _ _ (fun _ _ _ h => h) h

theorem issueIllegal_inv (pr : BitVec 5) (pn : Bool) (st : BitVec 4) {s : State} (h : s.Inv) :
    ResInv (issueIllegal pr pn st s) := by
  unfold issueIllegal
  exact issueWith_inv _ _ _ _ _ _ (fun _ _ _ => .none) (fun _ _ _ h => h) h

theorem meetRow_inv (s : State) (site : Site) (h : s.Inv) : OptInv (meetRow s site) := by
  unfold meetRow
  split
  · exact .none
  · refine .some (State.settle_inv ?_ _)
    exact State.standThreads_inv (State.leaveBundle_inv h _ _) _ _ (by intro _; rfl) _

theorem issueLane_inv (w : OpWord) (eff : State → Site → Thread → State × Act) (he : ∀ s site t, s.Inv → (eff s site t).1.Inv)
    {s : State} (h : s.Inv) : ResInv (issueLane w eff s) := issueWith_inv _ _ _ _ _ _ meetRow_inv he h

end Sys2Proof.Machine
end

