-- ==== Sys2Proof/Laws/State.lean ====
section
/-! SUPPORT. State.lean: what each update of the state leaves alone, field by field. -/

namespace Sys2Proof.Machine

variable (s : State)

/-! ## setCore -/

@[simp] theorem State.setCore_mem (n : Nat) (c : Core) : (s.setCore n c).mem = s.mem := rfl
@[simp] theorem State.setCore_descs (n : Nat) (c : Core) : (s.setCore n c).descs = s.descs := rfl
@[simp] theorem State.setCore_poison (n : Nat) (c : Core) : (s.setCore n c).poison = s.poison := rfl
@[simp] theorem State.setCore_peerMem (n : Nat) (c : Core) : (s.setCore n c).peerMem = s.peerMem := rfl
@[simp] theorem State.setCore_peerDescs (n : Nat) (c : Core) : (s.setCore n c).peerDescs = s.peerDescs := rfl
@[simp] theorem State.setCore_peerPoison (n : Nat) (c : Core) : (s.setCore n c).peerPoison = s.peerPoison := rfl
@[simp] theorem State.setCore_portCap (n : Nat) (c : Core) : (s.setCore n c).portCap = s.portCap := rfl
@[simp] theorem State.setCore_teams (n : Nat) (c : Core) : (s.setCore n c).teams = s.teams := rfl
@[simp] theorem State.setCore_bundles (n : Nat) (c : Core) : (s.setCore n c).bundles = s.bundles := rfl
@[simp] theorem State.setCore_nextBundle (n : Nat) (c : Core) : (s.setCore n c).nextBundle = s.nextBundle := rfl
@[simp] theorem State.setCore_focus (n : Nat) (c : Core) : (s.setCore n c).focus = s.focus := rfl
@[simp] theorem State.setCore_icache (n : Nat) (c : Core) : (s.setCore n c).icache = s.icache := rfl
@[simp] theorem State.setCore_pairs (n : Nat) (c : Core) : (s.setCore n c).pairs = s.pairs := rfl
@[simp] theorem State.setCore_board (n : Nat) (c : Core) : (s.setCore n c).board = s.board := rfl
@[simp] theorem State.setCore_moves (n : Nat) (c : Core) : (s.setCore n c).moves = s.moves := rfl
@[simp] theorem State.setCore_nextOp (n : Nat) (c : Core) : (s.setCore n c).nextOp = s.nextOp := rfl
@[simp] theorem State.setCore_derived (n : Nat) (c : Core) : (s.setCore n c).derived = s.derived := rfl
@[simp] theorem State.setCore_queues (n : Nat) (c : Core) : (s.setCore n c).queues = s.queues := rfl
@[simp] theorem State.setCore_ctxs (n : Nat) (c : Core) : (s.setCore n c).ctxs = s.ctxs := rfl
@[simp] theorem State.setCore_packets (n : Nat) (c : Core) : (s.setCore n c).packets = s.packets := rfl
@[simp] theorem State.setCore_pods (n : Nat) (c : Core) : (s.setCore n c).pods = s.pods := rfl
@[simp] theorem State.setCore_launches (n : Nat) (c : Core) : (s.setCore n c).launches = s.launches := rfl
@[simp] theorem State.setCore_reuse (n : Nat) (c : Core) : (s.setCore n c).reuse = s.reuse := rfl
@[simp] theorem State.setCore_digests (n : Nat) (c : Core) : (s.setCore n c).digests = s.digests := rfl
@[simp] theorem State.setCore_served (n : Nat) (c : Core) : (s.setCore n c).served = s.served := rfl
@[simp] theorem State.setCore_mxFetches (n : Nat) (c : Core) : (s.setCore n c).mxFetches = s.mxFetches := rfl
@[simp] theorem State.setCore_spawnServed (n : Nat) (c : Core) : (s.setCore n c).spawnServed = s.spawnServed := rfl
@[simp] theorem State.setCore_events (n : Nat) (c : Core) : (s.setCore n c).events = s.events := rfl
@[simp] theorem State.setCore_deferred (n : Nat) (c : Core) : (s.setCore n c).deferred = s.deferred := rfl
@[simp] theorem State.setCore_groups (n : Nat) (c : Core) : (s.setCore n c).groups = s.groups := rfl
@[simp] theorem State.setCore_nextGroup (n : Nat) (c : Core) : (s.setCore n c).nextGroup = s.nextGroup := rfl
@[simp] theorem State.setCore_faultBase (n : Nat) (c : Core) : (s.setCore n c).faultBase = s.faultBase := rfl
@[simp] theorem State.setCore_faultFree (n : Nat) (c : Core) : (s.setCore n c).faultFree = s.faultFree := rfl
@[simp] theorem State.setCore_faultSlot (n : Nat) (c : Core) : (s.setCore n c).faultSlot = s.faultSlot := rfl
@[simp] theorem State.setCore_handles (n : Nat) (c : Core) : (s.setCore n c).handles = s.handles := rfl
@[simp] theorem State.setCore_imageFiles (n : Nat) (c : Core) : (s.setCore n c).imageFiles = s.imageFiles := rfl
@[simp] theorem State.setCore_msix (n : Nat) (c : Core) : (s.setCore n c).msix = s.msix := rfl
@[simp] theorem State.setCore_msixTable (n : Nat) (c : Core) : (s.setCore n c).msixTable = s.msixTable := rfl
@[simp] theorem State.setCore_window (n : Nat) (c : Core) : (s.setCore n c).window = s.window := rfl
@[simp] theorem State.setCore_collMsgs (n : Nat) (c : Core) : (s.setCore n c).collMsgs = s.collMsgs := rfl
@[simp] theorem State.setCore_walkCfg (n : Nat) (c : Core) : (s.setCore n c).walkCfg = s.walkCfg := rfl
@[simp] theorem State.setCore_walkCode (n : Nat) (c : Core) : (s.setCore n c).walkCode = s.walkCode := rfl
@[simp] theorem State.setCore_shootBusy (n : Nat) (c : Core) : (s.setCore n c).shootBusy = s.shootBusy := rfl
@[simp] theorem State.setCore_shoot (n : Nat) (c : Core) : (s.setCore n c).shoot = s.shoot := rfl
@[simp] theorem State.setCore_hintBase (n : Nat) (c : Core) : (s.setCore n c).hintBase = s.hintBase := rfl
@[simp] theorem State.setCore_hintDrop (n : Nat) (c : Core) : (s.setCore n c).hintDrop = s.hintDrop := rfl
@[simp] theorem State.setCore_hintHead (n : Nat) (c : Core) : (s.setCore n c).hintHead = s.hintHead := rfl
@[simp] theorem State.setCore_hintTail (n : Nat) (c : Core) : (s.setCore n c).hintTail = s.hintTail := rfl
@[simp] theorem State.setCore_swapThr (n : Nat) (c : Core) : (s.setCore n c).swapThr = s.swapThr := rfl
@[simp] theorem State.setCore_dies (n : Nat) (c : Core) : (s.setCore n c).dies = s.dies := rfl
@[simp] theorem State.setCore_segments (n : Nat) (c : Core) : (s.setCore n c).segments = s.segments := rfl
@[simp] theorem State.setCore_nextSegment (n : Nat) (c : Core) : (s.setCore n c).nextSegment = s.nextSegment := rfl
@[simp] theorem State.setCore_seqNums (n : Nat) (c : Core) : (s.setCore n c).seqNums = s.seqNums := rfl
@[simp] theorem State.setCore_regions (n : Nat) (c : Core) : (s.setCore n c).regions = s.regions := rfl
@[simp] theorem State.setCore_flowStat (n : Nat) (c : Core) : (s.setCore n c).flowStat = s.flowStat := rfl
@[simp] theorem State.setCore_heldReds (n : Nat) (c : Core) : (s.setCore n c).heldReds = s.heldReds := rfl
@[simp] theorem State.setCore_vacate (n : Nat) (c : Core) : (s.setCore n c).vacate = s.vacate := rfl
@[simp] theorem State.setCore_preempt (n : Nat) (c : Core) : (s.setCore n c).preempt = s.preempt := rfl
@[simp] theorem State.setCore_callBusy (n : Nat) (c : Core) : (s.setCore n c).callBusy = s.callBusy := rfl
@[simp] theorem State.setCore_callErr (n : Nat) (c : Core) : (s.setCore n c).callErr = s.callErr := rfl
@[simp] theorem State.setCore_call (n : Nat) (c : Core) : (s.setCore n c).call = s.call := rfl
@[simp] theorem State.setCore_focusTeam (n : Nat) (c : Core) : (s.setCore n c).focusTeam = s.focusTeam := rfl
@[simp] theorem State.setCore_focusTid (n : Nat) (c : Core) : (s.setCore n c).focusTid = s.focusTid := rfl
@[simp] theorem State.setCore_signer (n : Nat) (c : Core) : (s.setCore n c).signer = s.signer := rfl
@[simp] theorem State.setCore_islands (n : Nat) (c : Core) : (s.setCore n c).islands = s.islands := rfl
@[simp] theorem State.setCore_slewLim (n : Nat) (c : Core) : (s.setCore n c).slewLim = s.slewLim := rfl
@[simp] theorem State.setCore_boot (n : Nat) (c : Core) : (s.setCore n c).boot = s.boot := rfl
@[simp] theorem State.setCore_coord (n : Nat) (c : Core) : (s.setCore n c).coord = s.coord := rfl
@[simp] theorem State.setCore_frozen (n : Nat) (c : Core) : (s.setCore n c).frozen = s.frozen := rfl
@[simp] theorem State.setCore_powered (n : Nat) (c : Core) : (s.setCore n c).powered = s.powered := rfl
@[simp] theorem State.setCore_silent (n : Nat) (c : Core) : (s.setCore n c).silent = s.silent := rfl
@[simp] theorem State.setCore_ticks (n : Nat) (c : Core) : (s.setCore n c).ticks = s.ticks := rfl
@[simp] theorem State.setCore_eighth (n : Nat) (c : Core) : (s.setCore n c).eighth = s.eighth := rfl
@[simp] theorem State.setCore_agenda (n : Nat) (c : Core) : (s.setCore n c).agenda = s.agenda := rfl
@[simp] theorem State.setCore_free (n : Nat) (c : Core) : (s.setCore n c).free = s.free := rfl

/-! ## modCore -/

@[simp] theorem State.modCore_mem (n : Nat) (f : Core → Core) : (s.modCore n f).mem = s.mem := rfl
@[simp] theorem State.modCore_descs (n : Nat) (f : Core → Core) : (s.modCore n f).descs = s.descs := rfl
@[simp] theorem State.modCore_poison (n : Nat) (f : Core → Core) : (s.modCore n f).poison = s.poison := rfl
@[simp] theorem State.modCore_peerMem (n : Nat) (f : Core → Core) : (s.modCore n f).peerMem = s.peerMem := rfl
@[simp] theorem State.modCore_peerDescs (n : Nat) (f : Core → Core) : (s.modCore n f).peerDescs = s.peerDescs := rfl
@[simp] theorem State.modCore_peerPoison (n : Nat) (f : Core → Core) : (s.modCore n f).peerPoison = s.peerPoison := rfl
@[simp] theorem State.modCore_portCap (n : Nat) (f : Core → Core) : (s.modCore n f).portCap = s.portCap := rfl
@[simp] theorem State.modCore_teams (n : Nat) (f : Core → Core) : (s.modCore n f).teams = s.teams := rfl
@[simp] theorem State.modCore_bundles (n : Nat) (f : Core → Core) : (s.modCore n f).bundles = s.bundles := rfl
@[simp] theorem State.modCore_nextBundle (n : Nat) (f : Core → Core) : (s.modCore n f).nextBundle = s.nextBundle := rfl
@[simp] theorem State.modCore_focus (n : Nat) (f : Core → Core) : (s.modCore n f).focus = s.focus := rfl
@[simp] theorem State.modCore_icache (n : Nat) (f : Core → Core) : (s.modCore n f).icache = s.icache := rfl
@[simp] theorem State.modCore_pairs (n : Nat) (f : Core → Core) : (s.modCore n f).pairs = s.pairs := rfl
@[simp] theorem State.modCore_board (n : Nat) (f : Core → Core) : (s.modCore n f).board = s.board := rfl
@[simp] theorem State.modCore_moves (n : Nat) (f : Core → Core) : (s.modCore n f).moves = s.moves := rfl
@[simp] theorem State.modCore_nextOp (n : Nat) (f : Core → Core) : (s.modCore n f).nextOp = s.nextOp := rfl
@[simp] theorem State.modCore_derived (n : Nat) (f : Core → Core) : (s.modCore n f).derived = s.derived := rfl
@[simp] theorem State.modCore_queues (n : Nat) (f : Core → Core) : (s.modCore n f).queues = s.queues := rfl
@[simp] theorem State.modCore_ctxs (n : Nat) (f : Core → Core) : (s.modCore n f).ctxs = s.ctxs := rfl
@[simp] theorem State.modCore_packets (n : Nat) (f : Core → Core) : (s.modCore n f).packets = s.packets := rfl
@[simp] theorem State.modCore_pods (n : Nat) (f : Core → Core) : (s.modCore n f).pods = s.pods := rfl
@[simp] theorem State.modCore_launches (n : Nat) (f : Core → Core) : (s.modCore n f).launches = s.launches := rfl
@[simp] theorem State.modCore_reuse (n : Nat) (f : Core → Core) : (s.modCore n f).reuse = s.reuse := rfl
@[simp] theorem State.modCore_digests (n : Nat) (f : Core → Core) : (s.modCore n f).digests = s.digests := rfl
@[simp] theorem State.modCore_served (n : Nat) (f : Core → Core) : (s.modCore n f).served = s.served := rfl
@[simp] theorem State.modCore_mxFetches (n : Nat) (f : Core → Core) : (s.modCore n f).mxFetches = s.mxFetches := rfl
@[simp] theorem State.modCore_spawnServed (n : Nat) (f : Core → Core) : (s.modCore n f).spawnServed = s.spawnServed := rfl
@[simp] theorem State.modCore_events (n : Nat) (f : Core → Core) : (s.modCore n f).events = s.events := rfl
@[simp] theorem State.modCore_deferred (n : Nat) (f : Core → Core) : (s.modCore n f).deferred = s.deferred := rfl
@[simp] theorem State.modCore_groups (n : Nat) (f : Core → Core) : (s.modCore n f).groups = s.groups := rfl
@[simp] theorem State.modCore_nextGroup (n : Nat) (f : Core → Core) : (s.modCore n f).nextGroup = s.nextGroup := rfl
@[simp] theorem State.modCore_faultBase (n : Nat) (f : Core → Core) : (s.modCore n f).faultBase = s.faultBase := rfl
@[simp] theorem State.modCore_faultFree (n : Nat) (f : Core → Core) : (s.modCore n f).faultFree = s.faultFree := rfl
@[simp] theorem State.modCore_faultSlot (n : Nat) (f : Core → Core) : (s.modCore n f).faultSlot = s.faultSlot := rfl
@[simp] theorem State.modCore_handles (n : Nat) (f : Core → Core) : (s.modCore n f).handles = s.handles := rfl
@[simp] theorem State.modCore_imageFiles (n : Nat) (f : Core → Core) : (s.modCore n f).imageFiles = s.imageFiles := rfl
@[simp] theorem State.modCore_msix (n : Nat) (f : Core → Core) : (s.modCore n f).msix = s.msix := rfl
@[simp] theorem State.modCore_msixTable (n : Nat) (f : Core → Core) : (s.modCore n f).msixTable = s.msixTable := rfl
@[simp] theorem State.modCore_window (n : Nat) (f : Core → Core) : (s.modCore n f).window = s.window := rfl
@[simp] theorem State.modCore_collMsgs (n : Nat) (f : Core → Core) : (s.modCore n f).collMsgs = s.collMsgs := rfl
@[simp] theorem State.modCore_walkCfg (n : Nat) (f : Core → Core) : (s.modCore n f).walkCfg = s.walkCfg := rfl
@[simp] theorem State.modCore_walkCode (n : Nat) (f : Core → Core) : (s.modCore n f).walkCode = s.walkCode := rfl
@[simp] theorem State.modCore_shootBusy (n : Nat) (f : Core → Core) : (s.modCore n f).shootBusy = s.shootBusy := rfl
@[simp] theorem State.modCore_shoot (n : Nat) (f : Core → Core) : (s.modCore n f).shoot = s.shoot := rfl
@[simp] theorem State.modCore_hintBase (n : Nat) (f : Core → Core) : (s.modCore n f).hintBase = s.hintBase := rfl
@[simp] theorem State.modCore_hintDrop (n : Nat) (f : Core → Core) : (s.modCore n f).hintDrop = s.hintDrop := rfl
@[simp] theorem State.modCore_hintHead (n : Nat) (f : Core → Core) : (s.modCore n f).hintHead = s.hintHead := rfl
@[simp] theorem State.modCore_hintTail (n : Nat) (f : Core → Core) : (s.modCore n f).hintTail = s.hintTail := rfl
@[simp] theorem State.modCore_swapThr (n : Nat) (f : Core → Core) : (s.modCore n f).swapThr = s.swapThr := rfl
@[simp] theorem State.modCore_dies (n : Nat) (f : Core → Core) : (s.modCore n f).dies = s.dies := rfl
@[simp] theorem State.modCore_segments (n : Nat) (f : Core → Core) : (s.modCore n f).segments = s.segments := rfl
@[simp] theorem State.modCore_nextSegment (n : Nat) (f : Core → Core) : (s.modCore n f).nextSegment = s.nextSegment := rfl
@[simp] theorem State.modCore_seqNums (n : Nat) (f : Core → Core) : (s.modCore n f).seqNums = s.seqNums := rfl
@[simp] theorem State.modCore_regions (n : Nat) (f : Core → Core) : (s.modCore n f).regions = s.regions := rfl
@[simp] theorem State.modCore_flowStat (n : Nat) (f : Core → Core) : (s.modCore n f).flowStat = s.flowStat := rfl
@[simp] theorem State.modCore_heldReds (n : Nat) (f : Core → Core) : (s.modCore n f).heldReds = s.heldReds := rfl
@[simp] theorem State.modCore_vacate (n : Nat) (f : Core → Core) : (s.modCore n f).vacate = s.vacate := rfl
@[simp] theorem State.modCore_preempt (n : Nat) (f : Core → Core) : (s.modCore n f).preempt = s.preempt := rfl
@[simp] theorem State.modCore_callBusy (n : Nat) (f : Core → Core) : (s.modCore n f).callBusy = s.callBusy := rfl
@[simp] theorem State.modCore_callErr (n : Nat) (f : Core → Core) : (s.modCore n f).callErr = s.callErr := rfl
@[simp] theorem State.modCore_call (n : Nat) (f : Core → Core) : (s.modCore n f).call = s.call := rfl
@[simp] theorem State.modCore_focusTeam (n : Nat) (f : Core → Core) : (s.modCore n f).focusTeam = s.focusTeam := rfl
@[simp] theorem State.modCore_focusTid (n : Nat) (f : Core → Core) : (s.modCore n f).focusTid = s.focusTid := rfl
@[simp] theorem State.modCore_signer (n : Nat) (f : Core → Core) : (s.modCore n f).signer = s.signer := rfl
@[simp] theorem State.modCore_islands (n : Nat) (f : Core → Core) : (s.modCore n f).islands = s.islands := rfl
@[simp] theorem State.modCore_slewLim (n : Nat) (f : Core → Core) : (s.modCore n f).slewLim = s.slewLim := rfl
@[simp] theorem State.modCore_boot (n : Nat) (f : Core → Core) : (s.modCore n f).boot = s.boot := rfl
@[simp] theorem State.modCore_coord (n : Nat) (f : Core → Core) : (s.modCore n f).coord = s.coord := rfl
@[simp] theorem State.modCore_frozen (n : Nat) (f : Core → Core) : (s.modCore n f).frozen = s.frozen := rfl
@[simp] theorem State.modCore_powered (n : Nat) (f : Core → Core) : (s.modCore n f).powered = s.powered := rfl
@[simp] theorem State.modCore_silent (n : Nat) (f : Core → Core) : (s.modCore n f).silent = s.silent := rfl
@[simp] theorem State.modCore_ticks (n : Nat) (f : Core → Core) : (s.modCore n f).ticks = s.ticks := rfl
@[simp] theorem State.modCore_eighth (n : Nat) (f : Core → Core) : (s.modCore n f).eighth = s.eighth := rfl
@[simp] theorem State.modCore_agenda (n : Nat) (f : Core → Core) : (s.modCore n f).agenda = s.agenda := rfl
@[simp] theorem State.modCore_free (n : Nat) (f : Core → Core) : (s.modCore n f).free = s.free := rfl

/-! ## modPair -/

@[simp] theorem State.modPair_mem (n : Nat) (f : Pair → Pair) : (s.modPair n f).mem = s.mem := rfl
@[simp] theorem State.modPair_descs (n : Nat) (f : Pair → Pair) : (s.modPair n f).descs = s.descs := rfl
@[simp] theorem State.modPair_poison (n : Nat) (f : Pair → Pair) : (s.modPair n f).poison = s.poison := rfl
@[simp] theorem State.modPair_peerMem (n : Nat) (f : Pair → Pair) : (s.modPair n f).peerMem = s.peerMem := rfl
@[simp] theorem State.modPair_peerDescs (n : Nat) (f : Pair → Pair) : (s.modPair n f).peerDescs = s.peerDescs := rfl
@[simp] theorem State.modPair_peerPoison (n : Nat) (f : Pair → Pair) : (s.modPair n f).peerPoison = s.peerPoison := rfl
@[simp] theorem State.modPair_portCap (n : Nat) (f : Pair → Pair) : (s.modPair n f).portCap = s.portCap := rfl
@[simp] theorem State.modPair_teams (n : Nat) (f : Pair → Pair) : (s.modPair n f).teams = s.teams := rfl
@[simp] theorem State.modPair_bundles (n : Nat) (f : Pair → Pair) : (s.modPair n f).bundles = s.bundles := rfl
@[simp] theorem State.modPair_nextBundle (n : Nat) (f : Pair → Pair) : (s.modPair n f).nextBundle = s.nextBundle := rfl
@[simp] theorem State.modPair_focus (n : Nat) (f : Pair → Pair) : (s.modPair n f).focus = s.focus := rfl
@[simp] theorem State.modPair_icache (n : Nat) (f : Pair → Pair) : (s.modPair n f).icache = s.icache := rfl
@[simp] theorem State.modPair_cores (n : Nat) (f : Pair → Pair) : (s.modPair n f).cores = s.cores := rfl
@[simp] theorem State.modPair_board (n : Nat) (f : Pair → Pair) : (s.modPair n f).board = s.board := rfl
@[simp] theorem State.modPair_moves (n : Nat) (f : Pair → Pair) : (s.modPair n f).moves = s.moves := rfl
@[simp] theorem State.modPair_nextOp (n : Nat) (f : Pair → Pair) : (s.modPair n f).nextOp = s.nextOp := rfl
@[simp] theorem State.modPair_derived (n : Nat) (f : Pair → Pair) : (s.modPair n f).derived = s.derived := rfl
@[simp] theorem State.modPair_queues (n : Nat) (f : Pair → Pair) : (s.modPair n f).queues = s.queues := rfl
@[simp] theorem State.modPair_ctxs (n : Nat) (f : Pair → Pair) : (s.modPair n f).ctxs = s.ctxs := rfl
@[simp] theorem State.modPair_packets (n : Nat) (f : Pair → Pair) : (s.modPair n f).packets = s.packets := rfl
@[simp] theorem State.modPair_pods (n : Nat) (f : Pair → Pair) : (s.modPair n f).pods = s.pods := rfl
@[simp] theorem State.modPair_launches (n : Nat) (f : Pair → Pair) : (s.modPair n f).launches = s.launches := rfl
@[simp] theorem State.modPair_reuse (n : Nat) (f : Pair → Pair) : (s.modPair n f).reuse = s.reuse := rfl
@[simp] theorem State.modPair_digests (n : Nat) (f : Pair → Pair) : (s.modPair n f).digests = s.digests := rfl
@[simp] theorem State.modPair_served (n : Nat) (f : Pair → Pair) : (s.modPair n f).served = s.served := rfl
@[simp] theorem State.modPair_mxFetches (n : Nat) (f : Pair → Pair) : (s.modPair n f).mxFetches = s.mxFetches := rfl
@[simp] theorem State.modPair_spawnServed (n : Nat) (f : Pair → Pair) : (s.modPair n f).spawnServed = s.spawnServed := rfl
@[simp] theorem State.modPair_events (n : Nat) (f : Pair → Pair) : (s.modPair n f).events = s.events := rfl
@[simp] theorem State.modPair_deferred (n : Nat) (f : Pair → Pair) : (s.modPair n f).deferred = s.deferred := rfl
@[simp] theorem State.modPair_groups (n : Nat) (f : Pair → Pair) : (s.modPair n f).groups = s.groups := rfl
@[simp] theorem State.modPair_nextGroup (n : Nat) (f : Pair → Pair) : (s.modPair n f).nextGroup = s.nextGroup := rfl
@[simp] theorem State.modPair_faultBase (n : Nat) (f : Pair → Pair) : (s.modPair n f).faultBase = s.faultBase := rfl
@[simp] theorem State.modPair_faultFree (n : Nat) (f : Pair → Pair) : (s.modPair n f).faultFree = s.faultFree := rfl
@[simp] theorem State.modPair_faultSlot (n : Nat) (f : Pair → Pair) : (s.modPair n f).faultSlot = s.faultSlot := rfl
@[simp] theorem State.modPair_handles (n : Nat) (f : Pair → Pair) : (s.modPair n f).handles = s.handles := rfl
@[simp] theorem State.modPair_imageFiles (n : Nat) (f : Pair → Pair) : (s.modPair n f).imageFiles = s.imageFiles := rfl
@[simp] theorem State.modPair_msix (n : Nat) (f : Pair → Pair) : (s.modPair n f).msix = s.msix := rfl
@[simp] theorem State.modPair_msixTable (n : Nat) (f : Pair → Pair) : (s.modPair n f).msixTable = s.msixTable := rfl
@[simp] theorem State.modPair_window (n : Nat) (f : Pair → Pair) : (s.modPair n f).window = s.window := rfl
@[simp] theorem State.modPair_collMsgs (n : Nat) (f : Pair → Pair) : (s.modPair n f).collMsgs = s.collMsgs := rfl
@[simp] theorem State.modPair_walkCfg (n : Nat) (f : Pair → Pair) : (s.modPair n f).walkCfg = s.walkCfg := rfl
@[simp] theorem State.modPair_walkCode (n : Nat) (f : Pair → Pair) : (s.modPair n f).walkCode = s.walkCode := rfl
@[simp] theorem State.modPair_shootBusy (n : Nat) (f : Pair → Pair) : (s.modPair n f).shootBusy = s.shootBusy := rfl
@[simp] theorem State.modPair_shoot (n : Nat) (f : Pair → Pair) : (s.modPair n f).shoot = s.shoot := rfl
@[simp] theorem State.modPair_hintBase (n : Nat) (f : Pair → Pair) : (s.modPair n f).hintBase = s.hintBase := rfl
@[simp] theorem State.modPair_hintDrop (n : Nat) (f : Pair → Pair) : (s.modPair n f).hintDrop = s.hintDrop := rfl
@[simp] theorem State.modPair_hintHead (n : Nat) (f : Pair → Pair) : (s.modPair n f).hintHead = s.hintHead := rfl
@[simp] theorem State.modPair_hintTail (n : Nat) (f : Pair → Pair) : (s.modPair n f).hintTail = s.hintTail := rfl
@[simp] theorem State.modPair_swapThr (n : Nat) (f : Pair → Pair) : (s.modPair n f).swapThr = s.swapThr := rfl
@[simp] theorem State.modPair_dies (n : Nat) (f : Pair → Pair) : (s.modPair n f).dies = s.dies := rfl
@[simp] theorem State.modPair_segments (n : Nat) (f : Pair → Pair) : (s.modPair n f).segments = s.segments := rfl
@[simp] theorem State.modPair_nextSegment (n : Nat) (f : Pair → Pair) : (s.modPair n f).nextSegment = s.nextSegment := rfl
@[simp] theorem State.modPair_seqNums (n : Nat) (f : Pair → Pair) : (s.modPair n f).seqNums = s.seqNums := rfl
@[simp] theorem State.modPair_regions (n : Nat) (f : Pair → Pair) : (s.modPair n f).regions = s.regions := rfl
@[simp] theorem State.modPair_flowStat (n : Nat) (f : Pair → Pair) : (s.modPair n f).flowStat = s.flowStat := rfl
@[simp] theorem State.modPair_heldReds (n : Nat) (f : Pair → Pair) : (s.modPair n f).heldReds = s.heldReds := rfl
@[simp] theorem State.modPair_vacate (n : Nat) (f : Pair → Pair) : (s.modPair n f).vacate = s.vacate := rfl
@[simp] theorem State.modPair_preempt (n : Nat) (f : Pair → Pair) : (s.modPair n f).preempt = s.preempt := rfl
@[simp] theorem State.modPair_callBusy (n : Nat) (f : Pair → Pair) : (s.modPair n f).callBusy = s.callBusy := rfl
@[simp] theorem State.modPair_callErr (n : Nat) (f : Pair → Pair) : (s.modPair n f).callErr = s.callErr := rfl
@[simp] theorem State.modPair_call (n : Nat) (f : Pair → Pair) : (s.modPair n f).call = s.call := rfl
@[simp] theorem State.modPair_focusTeam (n : Nat) (f : Pair → Pair) : (s.modPair n f).focusTeam = s.focusTeam := rfl
@[simp] theorem State.modPair_focusTid (n : Nat) (f : Pair → Pair) : (s.modPair n f).focusTid = s.focusTid := rfl
@[simp] theorem State.modPair_signer (n : Nat) (f : Pair → Pair) : (s.modPair n f).signer = s.signer := rfl
@[simp] theorem State.modPair_islands (n : Nat) (f : Pair → Pair) : (s.modPair n f).islands = s.islands := rfl
@[simp] theorem State.modPair_slewLim (n : Nat) (f : Pair → Pair) : (s.modPair n f).slewLim = s.slewLim := rfl
@[simp] theorem State.modPair_boot (n : Nat) (f : Pair → Pair) : (s.modPair n f).boot = s.boot := rfl
@[simp] theorem State.modPair_coord (n : Nat) (f : Pair → Pair) : (s.modPair n f).coord = s.coord := rfl
@[simp] theorem State.modPair_frozen (n : Nat) (f : Pair → Pair) : (s.modPair n f).frozen = s.frozen := rfl
@[simp] theorem State.modPair_powered (n : Nat) (f : Pair → Pair) : (s.modPair n f).powered = s.powered := rfl
@[simp] theorem State.modPair_silent (n : Nat) (f : Pair → Pair) : (s.modPair n f).silent = s.silent := rfl
@[simp] theorem State.modPair_ticks (n : Nat) (f : Pair → Pair) : (s.modPair n f).ticks = s.ticks := rfl
@[simp] theorem State.modPair_eighth (n : Nat) (f : Pair → Pair) : (s.modPair n f).eighth = s.eighth := rfl
@[simp] theorem State.modPair_agenda (n : Nat) (f : Pair → Pair) : (s.modPair n f).agenda = s.agenda := rfl
@[simp] theorem State.modPair_free (n : Nat) (f : Pair → Pair) : (s.modPair n f).free = s.free := rfl

/-! ## modCtx -/

@[simp] theorem State.modCtx_mem (n : Nat) (f : Ctx → Ctx) : (s.modCtx n f).mem = s.mem := rfl
@[simp] theorem State.modCtx_descs (n : Nat) (f : Ctx → Ctx) : (s.modCtx n f).descs = s.descs := rfl
@[simp] theorem State.modCtx_poison (n : Nat) (f : Ctx → Ctx) : (s.modCtx n f).poison = s.poison := rfl
@[simp] theorem State.modCtx_peerMem (n : Nat) (f : Ctx → Ctx) : (s.modCtx n f).peerMem = s.peerMem := rfl
@[simp] theorem State.modCtx_peerDescs (n : Nat) (f : Ctx → Ctx) : (s.modCtx n f).peerDescs = s.peerDescs := rfl
@[simp] theorem State.modCtx_peerPoison (n : Nat) (f : Ctx → Ctx) : (s.modCtx n f).peerPoison = s.peerPoison := rfl
@[simp] theorem State.modCtx_portCap (n : Nat) (f : Ctx → Ctx) : (s.modCtx n f).portCap = s.portCap := rfl
@[simp] theorem State.modCtx_teams (n : Nat) (f : Ctx → Ctx) : (s.modCtx n f).teams = s.teams := rfl
@[simp] theorem State.modCtx_bundles (n : Nat) (f : Ctx → Ctx) : (s.modCtx n f).bundles = s.bundles := rfl
@[simp] theorem State.modCtx_nextBundle (n : Nat) (f : Ctx → Ctx) : (s.modCtx n f).nextBundle = s.nextBundle := rfl
@[simp] theorem State.modCtx_focus (n : Nat) (f : Ctx → Ctx) : (s.modCtx n f).focus = s.focus := rfl
@[simp] theorem State.modCtx_icache (n : Nat) (f : Ctx → Ctx) : (s.modCtx n f).icache = s.icache := rfl
@[simp] theorem State.modCtx_cores (n : Nat) (f : Ctx → Ctx) : (s.modCtx n f).cores = s.cores := rfl
@[simp] theorem State.modCtx_pairs (n : Nat) (f : Ctx → Ctx) : (s.modCtx n f).pairs = s.pairs := rfl
@[simp] theorem State.modCtx_board (n : Nat) (f : Ctx → Ctx) : (s.modCtx n f).board = s.board := rfl
@[simp] theorem State.modCtx_moves (n : Nat) (f : Ctx → Ctx) : (s.modCtx n f).moves = s.moves := rfl
@[simp] theorem State.modCtx_nextOp (n : Nat) (f : Ctx → Ctx) : (s.modCtx n f).nextOp = s.nextOp := rfl
@[simp] theorem State.modCtx_derived (n : Nat) (f : Ctx → Ctx) : (s.modCtx n f).derived = s.derived := rfl
@[simp] theorem State.modCtx_queues (n : Nat) (f : Ctx → Ctx) : (s.modCtx n f).queues = s.queues := rfl
@[simp] theorem State.modCtx_packets (n : Nat) (f : Ctx → Ctx) : (s.modCtx n f).packets = s.packets := rfl
@[simp] theorem State.modCtx_pods (n : Nat) (f : Ctx → Ctx) : (s.modCtx n f).pods = s.pods := rfl
@[simp] theorem State.modCtx_launches (n : Nat) (f : Ctx → Ctx) : (s.modCtx n f).launches = s.launches := rfl
@[simp] theorem State.modCtx_reuse (n : Nat) (f : Ctx → Ctx) : (s.modCtx n f).reuse = s.reuse := rfl
@[simp] theorem State.modCtx_digests (n : Nat) (f : Ctx → Ctx) : (s.modCtx n f).digests = s.digests := rfl
@[simp] theorem State.modCtx_served (n : Nat) (f : Ctx → Ctx) : (s.modCtx n f).served = s.served := rfl
@[simp] theorem State.modCtx_mxFetches (n : Nat) (f : Ctx → Ctx) : (s.modCtx n f).mxFetches = s.mxFetches := rfl
@[simp] theorem State.modCtx_spawnServed (n : Nat) (f : Ctx → Ctx) : (s.modCtx n f).spawnServed = s.spawnServed := rfl
@[simp] theorem State.modCtx_events (n : Nat) (f : Ctx → Ctx) : (s.modCtx n f).events = s.events := rfl
@[simp] theorem State.modCtx_deferred (n : Nat) (f : Ctx → Ctx) : (s.modCtx n f).deferred = s.deferred := rfl
@[simp] theorem State.modCtx_groups (n : Nat) (f : Ctx → Ctx) : (s.modCtx n f).groups = s.groups := rfl
@[simp] theorem State.modCtx_nextGroup (n : Nat) (f : Ctx → Ctx) : (s.modCtx n f).nextGroup = s.nextGroup := rfl
@[simp] theorem State.modCtx_faultBase (n : Nat) (f : Ctx → Ctx) : (s.modCtx n f).faultBase = s.faultBase := rfl
@[simp] theorem State.modCtx_faultFree (n : Nat) (f : Ctx → Ctx) : (s.modCtx n f).faultFree = s.faultFree := rfl
@[simp] theorem State.modCtx_faultSlot (n : Nat) (f : Ctx → Ctx) : (s.modCtx n f).faultSlot = s.faultSlot := rfl
@[simp] theorem State.modCtx_handles (n : Nat) (f : Ctx → Ctx) : (s.modCtx n f).handles = s.handles := rfl
@[simp] theorem State.modCtx_imageFiles (n : Nat) (f : Ctx → Ctx) : (s.modCtx n f).imageFiles = s.imageFiles := rfl
@[simp] theorem State.modCtx_msix (n : Nat) (f : Ctx → Ctx) : (s.modCtx n f).msix = s.msix := rfl
@[simp] theorem State.modCtx_msixTable (n : Nat) (f : Ctx → Ctx) : (s.modCtx n f).msixTable = s.msixTable := rfl
@[simp] theorem State.modCtx_window (n : Nat) (f : Ctx → Ctx) : (s.modCtx n f).window = s.window := rfl
@[simp] theorem State.modCtx_collMsgs (n : Nat) (f : Ctx → Ctx) : (s.modCtx n f).collMsgs = s.collMsgs := rfl
@[simp] theorem State.modCtx_walkCfg (n : Nat) (f : Ctx → Ctx) : (s.modCtx n f).walkCfg = s.walkCfg := rfl
@[simp] theorem State.modCtx_walkCode (n : Nat) (f : Ctx → Ctx) : (s.modCtx n f).walkCode = s.walkCode := rfl
@[simp] theorem State.modCtx_shootBusy (n : Nat) (f : Ctx → Ctx) : (s.modCtx n f).shootBusy = s.shootBusy := rfl
@[simp] theorem State.modCtx_shoot (n : Nat) (f : Ctx → Ctx) : (s.modCtx n f).shoot = s.shoot := rfl
@[simp] theorem State.modCtx_hintBase (n : Nat) (f : Ctx → Ctx) : (s.modCtx n f).hintBase = s.hintBase := rfl
@[simp] theorem State.modCtx_hintDrop (n : Nat) (f : Ctx → Ctx) : (s.modCtx n f).hintDrop = s.hintDrop := rfl
@[simp] theorem State.modCtx_hintHead (n : Nat) (f : Ctx → Ctx) : (s.modCtx n f).hintHead = s.hintHead := rfl
@[simp] theorem State.modCtx_hintTail (n : Nat) (f : Ctx → Ctx) : (s.modCtx n f).hintTail = s.hintTail := rfl
@[simp] theorem State.modCtx_swapThr (n : Nat) (f : Ctx → Ctx) : (s.modCtx n f).swapThr = s.swapThr := rfl
@[simp] theorem State.modCtx_dies (n : Nat) (f : Ctx → Ctx) : (s.modCtx n f).dies = s.dies := rfl
@[simp] theorem State.modCtx_segments (n : Nat) (f : Ctx → Ctx) : (s.modCtx n f).segments = s.segments := rfl
@[simp] theorem State.modCtx_nextSegment (n : Nat) (f : Ctx → Ctx) : (s.modCtx n f).nextSegment = s.nextSegment := rfl
@[simp] theorem State.modCtx_seqNums (n : Nat) (f : Ctx → Ctx) : (s.modCtx n f).seqNums = s.seqNums := rfl
@[simp] theorem State.modCtx_regions (n : Nat) (f : Ctx → Ctx) : (s.modCtx n f).regions = s.regions := rfl
@[simp] theorem State.modCtx_flowStat (n : Nat) (f : Ctx → Ctx) : (s.modCtx n f).flowStat = s.flowStat := rfl
@[simp] theorem State.modCtx_heldReds (n : Nat) (f : Ctx → Ctx) : (s.modCtx n f).heldReds = s.heldReds := rfl
@[simp] theorem State.modCtx_vacate (n : Nat) (f : Ctx → Ctx) : (s.modCtx n f).vacate = s.vacate := rfl
@[simp] theorem State.modCtx_preempt (n : Nat) (f : Ctx → Ctx) : (s.modCtx n f).preempt = s.preempt := rfl
@[simp] theorem State.modCtx_callBusy (n : Nat) (f : Ctx → Ctx) : (s.modCtx n f).callBusy = s.callBusy := rfl
@[simp] theorem State.modCtx_callErr (n : Nat) (f : Ctx → Ctx) : (s.modCtx n f).callErr = s.callErr := rfl
@[simp] theorem State.modCtx_call (n : Nat) (f : Ctx → Ctx) : (s.modCtx n f).call = s.call := rfl
@[simp] theorem State.modCtx_focusTeam (n : Nat) (f : Ctx → Ctx) : (s.modCtx n f).focusTeam = s.focusTeam := rfl
@[simp] theorem State.modCtx_focusTid (n : Nat) (f : Ctx → Ctx) : (s.modCtx n f).focusTid = s.focusTid := rfl
@[simp] theorem State.modCtx_signer (n : Nat) (f : Ctx → Ctx) : (s.modCtx n f).signer = s.signer := rfl
@[simp] theorem State.modCtx_islands (n : Nat) (f : Ctx → Ctx) : (s.modCtx n f).islands = s.islands := rfl
@[simp] theorem State.modCtx_slewLim (n : Nat) (f : Ctx → Ctx) : (s.modCtx n f).slewLim = s.slewLim := rfl
@[simp] theorem State.modCtx_boot (n : Nat) (f : Ctx → Ctx) : (s.modCtx n f).boot = s.boot := rfl
@[simp] theorem State.modCtx_coord (n : Nat) (f : Ctx → Ctx) : (s.modCtx n f).coord = s.coord := rfl
@[simp] theorem State.modCtx_frozen (n : Nat) (f : Ctx → Ctx) : (s.modCtx n f).frozen = s.frozen := rfl
@[simp] theorem State.modCtx_powered (n : Nat) (f : Ctx → Ctx) : (s.modCtx n f).powered = s.powered := rfl
@[simp] theorem State.modCtx_silent (n : Nat) (f : Ctx → Ctx) : (s.modCtx n f).silent = s.silent := rfl
@[simp] theorem State.modCtx_ticks (n : Nat) (f : Ctx → Ctx) : (s.modCtx n f).ticks = s.ticks := rfl
@[simp] theorem State.modCtx_eighth (n : Nat) (f : Ctx → Ctx) : (s.modCtx n f).eighth = s.eighth := rfl
@[simp] theorem State.modCtx_agenda (n : Nat) (f : Ctx → Ctx) : (s.modCtx n f).agenda = s.agenda := rfl
@[simp] theorem State.modCtx_free (n : Nat) (f : Ctx → Ctx) : (s.modCtx n f).free = s.free := rfl

/-! ## modQueue -/

@[simp] theorem State.modQueue_mem (n : Nat) (f : Queue → Queue) : (s.modQueue n f).mem = s.mem := rfl
@[simp] theorem State.modQueue_descs (n : Nat) (f : Queue → Queue) : (s.modQueue n f).descs = s.descs := rfl
@[simp] theorem State.modQueue_poison (n : Nat) (f : Queue → Queue) : (s.modQueue n f).poison = s.poison := rfl
@[simp] theorem State.modQueue_peerMem (n : Nat) (f : Queue → Queue) : (s.modQueue n f).peerMem = s.peerMem := rfl
@[simp] theorem State.modQueue_peerDescs (n : Nat) (f : Queue → Queue) : (s.modQueue n f).peerDescs = s.peerDescs := rfl
@[simp] theorem State.modQueue_peerPoison (n : Nat) (f : Queue → Queue) : (s.modQueue n f).peerPoison = s.peerPoison := rfl
@[simp] theorem State.modQueue_portCap (n : Nat) (f : Queue → Queue) : (s.modQueue n f).portCap = s.portCap := rfl
@[simp] theorem State.modQueue_teams (n : Nat) (f : Queue → Queue) : (s.modQueue n f).teams = s.teams := rfl
@[simp] theorem State.modQueue_bundles (n : Nat) (f : Queue → Queue) : (s.modQueue n f).bundles = s.bundles := rfl
@[simp] theorem State.modQueue_nextBundle (n : Nat) (f : Queue → Queue) : (s.modQueue n f).nextBundle = s.nextBundle := rfl
@[simp] theorem State.modQueue_focus (n : Nat) (f : Queue → Queue) : (s.modQueue n f).focus = s.focus := rfl
@[simp] theorem State.modQueue_icache (n : Nat) (f : Queue → Queue) : (s.modQueue n f).icache = s.icache := rfl
@[simp] theorem State.modQueue_cores (n : Nat) (f : Queue → Queue) : (s.modQueue n f).cores = s.cores := rfl
@[simp] theorem State.modQueue_pairs (n : Nat) (f : Queue → Queue) : (s.modQueue n f).pairs = s.pairs := rfl
@[simp] theorem State.modQueue_board (n : Nat) (f : Queue → Queue) : (s.modQueue n f).board = s.board := rfl
@[simp] theorem State.modQueue_moves (n : Nat) (f : Queue → Queue) : (s.modQueue n f).moves = s.moves := rfl
@[simp] theorem State.modQueue_nextOp (n : Nat) (f : Queue → Queue) : (s.modQueue n f).nextOp = s.nextOp := rfl
@[simp] theorem State.modQueue_derived (n : Nat) (f : Queue → Queue) : (s.modQueue n f).derived = s.derived := rfl
@[simp] theorem State.modQueue_ctxs (n : Nat) (f : Queue → Queue) : (s.modQueue n f).ctxs = s.ctxs := rfl
@[simp] theorem State.modQueue_packets (n : Nat) (f : Queue → Queue) : (s.modQueue n f).packets = s.packets := rfl
@[simp] theorem State.modQueue_pods (n : Nat) (f : Queue → Queue) : (s.modQueue n f).pods = s.pods := rfl
@[simp] theorem State.modQueue_launches (n : Nat) (f : Queue → Queue) : (s.modQueue n f).launches = s.launches := rfl
@[simp] theorem State.modQueue_reuse (n : Nat) (f : Queue → Queue) : (s.modQueue n f).reuse = s.reuse := rfl
@[simp] theorem State.modQueue_digests (n : Nat) (f : Queue → Queue) : (s.modQueue n f).digests = s.digests := rfl
@[simp] theorem State.modQueue_served (n : Nat) (f : Queue → Queue) : (s.modQueue n f).served = s.served := rfl
@[simp] theorem State.modQueue_mxFetches (n : Nat) (f : Queue → Queue) : (s.modQueue n f).mxFetches = s.mxFetches := rfl
@[simp] theorem State.modQueue_spawnServed (n : Nat) (f : Queue → Queue) : (s.modQueue n f).spawnServed = s.spawnServed := rfl
@[simp] theorem State.modQueue_events (n : Nat) (f : Queue → Queue) : (s.modQueue n f).events = s.events := rfl
@[simp] theorem State.modQueue_deferred (n : Nat) (f : Queue → Queue) : (s.modQueue n f).deferred = s.deferred := rfl
@[simp] theorem State.modQueue_groups (n : Nat) (f : Queue → Queue) : (s.modQueue n f).groups = s.groups := rfl
@[simp] theorem State.modQueue_nextGroup (n : Nat) (f : Queue → Queue) : (s.modQueue n f).nextGroup = s.nextGroup := rfl
@[simp] theorem State.modQueue_faultBase (n : Nat) (f : Queue → Queue) : (s.modQueue n f).faultBase = s.faultBase := rfl
@[simp] theorem State.modQueue_faultFree (n : Nat) (f : Queue → Queue) : (s.modQueue n f).faultFree = s.faultFree := rfl
@[simp] theorem State.modQueue_faultSlot (n : Nat) (f : Queue → Queue) : (s.modQueue n f).faultSlot = s.faultSlot := rfl
@[simp] theorem State.modQueue_handles (n : Nat) (f : Queue → Queue) : (s.modQueue n f).handles = s.handles := rfl
@[simp] theorem State.modQueue_imageFiles (n : Nat) (f : Queue → Queue) : (s.modQueue n f).imageFiles = s.imageFiles := rfl
@[simp] theorem State.modQueue_msix (n : Nat) (f : Queue → Queue) : (s.modQueue n f).msix = s.msix := rfl
@[simp] theorem State.modQueue_msixTable (n : Nat) (f : Queue → Queue) : (s.modQueue n f).msixTable = s.msixTable := rfl
@[simp] theorem State.modQueue_window (n : Nat) (f : Queue → Queue) : (s.modQueue n f).window = s.window := rfl
@[simp] theorem State.modQueue_collMsgs (n : Nat) (f : Queue → Queue) : (s.modQueue n f).collMsgs = s.collMsgs := rfl
@[simp] theorem State.modQueue_walkCfg (n : Nat) (f : Queue → Queue) : (s.modQueue n f).walkCfg = s.walkCfg := rfl
@[simp] theorem State.modQueue_walkCode (n : Nat) (f : Queue → Queue) : (s.modQueue n f).walkCode = s.walkCode := rfl
@[simp] theorem State.modQueue_shootBusy (n : Nat) (f : Queue → Queue) : (s.modQueue n f).shootBusy = s.shootBusy := rfl
@[simp] theorem State.modQueue_shoot (n : Nat) (f : Queue → Queue) : (s.modQueue n f).shoot = s.shoot := rfl
@[simp] theorem State.modQueue_hintBase (n : Nat) (f : Queue → Queue) : (s.modQueue n f).hintBase = s.hintBase := rfl
@[simp] theorem State.modQueue_hintDrop (n : Nat) (f : Queue → Queue) : (s.modQueue n f).hintDrop = s.hintDrop := rfl
@[simp] theorem State.modQueue_hintHead (n : Nat) (f : Queue → Queue) : (s.modQueue n f).hintHead = s.hintHead := rfl
@[simp] theorem State.modQueue_hintTail (n : Nat) (f : Queue → Queue) : (s.modQueue n f).hintTail = s.hintTail := rfl
@[simp] theorem State.modQueue_swapThr (n : Nat) (f : Queue → Queue) : (s.modQueue n f).swapThr = s.swapThr := rfl
@[simp] theorem State.modQueue_dies (n : Nat) (f : Queue → Queue) : (s.modQueue n f).dies = s.dies := rfl
@[simp] theorem State.modQueue_segments (n : Nat) (f : Queue → Queue) : (s.modQueue n f).segments = s.segments := rfl
@[simp] theorem State.modQueue_nextSegment (n : Nat) (f : Queue → Queue) : (s.modQueue n f).nextSegment = s.nextSegment := rfl
@[simp] theorem State.modQueue_seqNums (n : Nat) (f : Queue → Queue) : (s.modQueue n f).seqNums = s.seqNums := rfl
@[simp] theorem State.modQueue_regions (n : Nat) (f : Queue → Queue) : (s.modQueue n f).regions = s.regions := rfl
@[simp] theorem State.modQueue_flowStat (n : Nat) (f : Queue → Queue) : (s.modQueue n f).flowStat = s.flowStat := rfl
@[simp] theorem State.modQueue_heldReds (n : Nat) (f : Queue → Queue) : (s.modQueue n f).heldReds = s.heldReds := rfl
@[simp] theorem State.modQueue_vacate (n : Nat) (f : Queue → Queue) : (s.modQueue n f).vacate = s.vacate := rfl
@[simp] theorem State.modQueue_preempt (n : Nat) (f : Queue → Queue) : (s.modQueue n f).preempt = s.preempt := rfl
@[simp] theorem State.modQueue_callBusy (n : Nat) (f : Queue → Queue) : (s.modQueue n f).callBusy = s.callBusy := rfl
@[simp] theorem State.modQueue_callErr (n : Nat) (f : Queue → Queue) : (s.modQueue n f).callErr = s.callErr := rfl
@[simp] theorem State.modQueue_call (n : Nat) (f : Queue → Queue) : (s.modQueue n f).call = s.call := rfl
@[simp] theorem State.modQueue_focusTeam (n : Nat) (f : Queue → Queue) : (s.modQueue n f).focusTeam = s.focusTeam := rfl
@[simp] theorem State.modQueue_focusTid (n : Nat) (f : Queue → Queue) : (s.modQueue n f).focusTid = s.focusTid := rfl
@[simp] theorem State.modQueue_signer (n : Nat) (f : Queue → Queue) : (s.modQueue n f).signer = s.signer := rfl
@[simp] theorem State.modQueue_islands (n : Nat) (f : Queue → Queue) : (s.modQueue n f).islands = s.islands := rfl
@[simp] theorem State.modQueue_slewLim (n : Nat) (f : Queue → Queue) : (s.modQueue n f).slewLim = s.slewLim := rfl
@[simp] theorem State.modQueue_boot (n : Nat) (f : Queue → Queue) : (s.modQueue n f).boot = s.boot := rfl
@[simp] theorem State.modQueue_coord (n : Nat) (f : Queue → Queue) : (s.modQueue n f).coord = s.coord := rfl
@[simp] theorem State.modQueue_frozen (n : Nat) (f : Queue → Queue) : (s.modQueue n f).frozen = s.frozen := rfl
@[simp] theorem State.modQueue_powered (n : Nat) (f : Queue → Queue) : (s.modQueue n f).powered = s.powered := rfl
@[simp] theorem State.modQueue_silent (n : Nat) (f : Queue → Queue) : (s.modQueue n f).silent = s.silent := rfl
@[simp] theorem State.modQueue_ticks (n : Nat) (f : Queue → Queue) : (s.modQueue n f).ticks = s.ticks := rfl
@[simp] theorem State.modQueue_eighth (n : Nat) (f : Queue → Queue) : (s.modQueue n f).eighth = s.eighth := rfl
@[simp] theorem State.modQueue_agenda (n : Nat) (f : Queue → Queue) : (s.modQueue n f).agenda = s.agenda := rfl
@[simp] theorem State.modQueue_free (n : Nat) (f : Queue → Queue) : (s.modQueue n f).free = s.free := rfl

/-! ## modIsland -/

@[simp] theorem State.modIsland_mem (n : Nat) (f : Island → Island) : (s.modIsland n f).mem = s.mem := rfl
@[simp] theorem State.modIsland_descs (n : Nat) (f : Island → Island) : (s.modIsland n f).descs = s.descs := rfl
@[simp] theorem State.modIsland_poison (n : Nat) (f : Island → Island) : (s.modIsland n f).poison = s.poison := rfl
@[simp] theorem State.modIsland_peerMem (n : Nat) (f : Island → Island) : (s.modIsland n f).peerMem = s.peerMem := rfl
@[simp] theorem State.modIsland_peerDescs (n : Nat) (f : Island → Island) : (s.modIsland n f).peerDescs = s.peerDescs := rfl
@[simp] theorem State.modIsland_peerPoison (n : Nat) (f : Island → Island) : (s.modIsland n f).peerPoison = s.peerPoison := rfl
@[simp] theorem State.modIsland_portCap (n : Nat) (f : Island → Island) : (s.modIsland n f).portCap = s.portCap := rfl
@[simp] theorem State.modIsland_teams (n : Nat) (f : Island → Island) : (s.modIsland n f).teams = s.teams := rfl
@[simp] theorem State.modIsland_bundles (n : Nat) (f : Island → Island) : (s.modIsland n f).bundles = s.bundles := rfl
@[simp] theorem State.modIsland_nextBundle (n : Nat) (f : Island → Island) : (s.modIsland n f).nextBundle = s.nextBundle := rfl
@[simp] theorem State.modIsland_focus (n : Nat) (f : Island → Island) : (s.modIsland n f).focus = s.focus := rfl
@[simp] theorem State.modIsland_icache (n : Nat) (f : Island → Island) : (s.modIsland n f).icache = s.icache := rfl
@[simp] theorem State.modIsland_cores (n : Nat) (f : Island → Island) : (s.modIsland n f).cores = s.cores := rfl
@[simp] theorem State.modIsland_pairs (n : Nat) (f : Island → Island) : (s.modIsland n f).pairs = s.pairs := rfl
@[simp] theorem State.modIsland_board (n : Nat) (f : Island → Island) : (s.modIsland n f).board = s.board := rfl
@[simp] theorem State.modIsland_moves (n : Nat) (f : Island → Island) : (s.modIsland n f).moves = s.moves := rfl
@[simp] theorem State.modIsland_nextOp (n : Nat) (f : Island → Island) : (s.modIsland n f).nextOp = s.nextOp := rfl
@[simp] theorem State.modIsland_derived (n : Nat) (f : Island → Island) : (s.modIsland n f).derived = s.derived := rfl
@[simp] theorem State.modIsland_queues (n : Nat) (f : Island → Island) : (s.modIsland n f).queues = s.queues := rfl
@[simp] theorem State.modIsland_ctxs (n : Nat) (f : Island → Island) : (s.modIsland n f).ctxs = s.ctxs := rfl
@[simp] theorem State.modIsland_packets (n : Nat) (f : Island → Island) : (s.modIsland n f).packets = s.packets := rfl
@[simp] theorem State.modIsland_pods (n : Nat) (f : Island → Island) : (s.modIsland n f).pods = s.pods := rfl
@[simp] theorem State.modIsland_launches (n : Nat) (f : Island → Island) : (s.modIsland n f).launches = s.launches := rfl
@[simp] theorem State.modIsland_reuse (n : Nat) (f : Island → Island) : (s.modIsland n f).reuse = s.reuse := rfl
@[simp] theorem State.modIsland_digests (n : Nat) (f : Island → Island) : (s.modIsland n f).digests = s.digests := rfl
@[simp] theorem State.modIsland_served (n : Nat) (f : Island → Island) : (s.modIsland n f).served = s.served := rfl
@[simp] theorem State.modIsland_mxFetches (n : Nat) (f : Island → Island) : (s.modIsland n f).mxFetches = s.mxFetches := rfl
@[simp] theorem State.modIsland_spawnServed (n : Nat) (f : Island → Island) : (s.modIsland n f).spawnServed = s.spawnServed := rfl
@[simp] theorem State.modIsland_events (n : Nat) (f : Island → Island) : (s.modIsland n f).events = s.events := rfl
@[simp] theorem State.modIsland_deferred (n : Nat) (f : Island → Island) : (s.modIsland n f).deferred = s.deferred := rfl
@[simp] theorem State.modIsland_groups (n : Nat) (f : Island → Island) : (s.modIsland n f).groups = s.groups := rfl
@[simp] theorem State.modIsland_nextGroup (n : Nat) (f : Island → Island) : (s.modIsland n f).nextGroup = s.nextGroup := rfl
@[simp] theorem State.modIsland_faultBase (n : Nat) (f : Island → Island) : (s.modIsland n f).faultBase = s.faultBase := rfl
@[simp] theorem State.modIsland_faultFree (n : Nat) (f : Island → Island) : (s.modIsland n f).faultFree = s.faultFree := rfl
@[simp] theorem State.modIsland_faultSlot (n : Nat) (f : Island → Island) : (s.modIsland n f).faultSlot = s.faultSlot := rfl
@[simp] theorem State.modIsland_handles (n : Nat) (f : Island → Island) : (s.modIsland n f).handles = s.handles := rfl
@[simp] theorem State.modIsland_imageFiles (n : Nat) (f : Island → Island) : (s.modIsland n f).imageFiles = s.imageFiles := rfl
@[simp] theorem State.modIsland_msix (n : Nat) (f : Island → Island) : (s.modIsland n f).msix = s.msix := rfl
@[simp] theorem State.modIsland_msixTable (n : Nat) (f : Island → Island) : (s.modIsland n f).msixTable = s.msixTable := rfl
@[simp] theorem State.modIsland_window (n : Nat) (f : Island → Island) : (s.modIsland n f).window = s.window := rfl
@[simp] theorem State.modIsland_collMsgs (n : Nat) (f : Island → Island) : (s.modIsland n f).collMsgs = s.collMsgs := rfl
@[simp] theorem State.modIsland_walkCfg (n : Nat) (f : Island → Island) : (s.modIsland n f).walkCfg = s.walkCfg := rfl
@[simp] theorem State.modIsland_walkCode (n : Nat) (f : Island → Island) : (s.modIsland n f).walkCode = s.walkCode := rfl
@[simp] theorem State.modIsland_shootBusy (n : Nat) (f : Island → Island) : (s.modIsland n f).shootBusy = s.shootBusy := rfl
@[simp] theorem State.modIsland_shoot (n : Nat) (f : Island → Island) : (s.modIsland n f).shoot = s.shoot := rfl
@[simp] theorem State.modIsland_hintBase (n : Nat) (f : Island → Island) : (s.modIsland n f).hintBase = s.hintBase := rfl
@[simp] theorem State.modIsland_hintDrop (n : Nat) (f : Island → Island) : (s.modIsland n f).hintDrop = s.hintDrop := rfl
@[simp] theorem State.modIsland_hintHead (n : Nat) (f : Island → Island) : (s.modIsland n f).hintHead = s.hintHead := rfl
@[simp] theorem State.modIsland_hintTail (n : Nat) (f : Island → Island) : (s.modIsland n f).hintTail = s.hintTail := rfl
@[simp] theorem State.modIsland_swapThr (n : Nat) (f : Island → Island) : (s.modIsland n f).swapThr = s.swapThr := rfl
@[simp] theorem State.modIsland_dies (n : Nat) (f : Island → Island) : (s.modIsland n f).dies = s.dies := rfl
@[simp] theorem State.modIsland_segments (n : Nat) (f : Island → Island) : (s.modIsland n f).segments = s.segments := rfl
@[simp] theorem State.modIsland_nextSegment (n : Nat) (f : Island → Island) : (s.modIsland n f).nextSegment = s.nextSegment := rfl
@[simp] theorem State.modIsland_seqNums (n : Nat) (f : Island → Island) : (s.modIsland n f).seqNums = s.seqNums := rfl
@[simp] theorem State.modIsland_regions (n : Nat) (f : Island → Island) : (s.modIsland n f).regions = s.regions := rfl
@[simp] theorem State.modIsland_flowStat (n : Nat) (f : Island → Island) : (s.modIsland n f).flowStat = s.flowStat := rfl
@[simp] theorem State.modIsland_heldReds (n : Nat) (f : Island → Island) : (s.modIsland n f).heldReds = s.heldReds := rfl
@[simp] theorem State.modIsland_vacate (n : Nat) (f : Island → Island) : (s.modIsland n f).vacate = s.vacate := rfl
@[simp] theorem State.modIsland_preempt (n : Nat) (f : Island → Island) : (s.modIsland n f).preempt = s.preempt := rfl
@[simp] theorem State.modIsland_callBusy (n : Nat) (f : Island → Island) : (s.modIsland n f).callBusy = s.callBusy := rfl
@[simp] theorem State.modIsland_callErr (n : Nat) (f : Island → Island) : (s.modIsland n f).callErr = s.callErr := rfl
@[simp] theorem State.modIsland_call (n : Nat) (f : Island → Island) : (s.modIsland n f).call = s.call := rfl
@[simp] theorem State.modIsland_focusTeam (n : Nat) (f : Island → Island) : (s.modIsland n f).focusTeam = s.focusTeam := rfl
@[simp] theorem State.modIsland_focusTid (n : Nat) (f : Island → Island) : (s.modIsland n f).focusTid = s.focusTid := rfl
@[simp] theorem State.modIsland_signer (n : Nat) (f : Island → Island) : (s.modIsland n f).signer = s.signer := rfl
@[simp] theorem State.modIsland_slewLim (n : Nat) (f : Island → Island) : (s.modIsland n f).slewLim = s.slewLim := rfl
@[simp] theorem State.modIsland_boot (n : Nat) (f : Island → Island) : (s.modIsland n f).boot = s.boot := rfl
@[simp] theorem State.modIsland_coord (n : Nat) (f : Island → Island) : (s.modIsland n f).coord = s.coord := rfl
@[simp] theorem State.modIsland_frozen (n : Nat) (f : Island → Island) : (s.modIsland n f).frozen = s.frozen := rfl
@[simp] theorem State.modIsland_powered (n : Nat) (f : Island → Island) : (s.modIsland n f).powered = s.powered := rfl
@[simp] theorem State.modIsland_silent (n : Nat) (f : Island → Island) : (s.modIsland n f).silent = s.silent := rfl
@[simp] theorem State.modIsland_ticks (n : Nat) (f : Island → Island) : (s.modIsland n f).ticks = s.ticks := rfl
@[simp] theorem State.modIsland_eighth (n : Nat) (f : Island → Island) : (s.modIsland n f).eighth = s.eighth := rfl
@[simp] theorem State.modIsland_agenda (n : Nat) (f : Island → Island) : (s.modIsland n f).agenda = s.agenda := rfl
@[simp] theorem State.modIsland_free (n : Nat) (f : Island → Island) : (s.modIsland n f).free = s.free := rfl

/-! ## modDie -/

@[simp] theorem State.modDie_mem (n : Nat) (f : Die → Die) : (s.modDie n f).mem = s.mem := rfl
@[simp] theorem State.modDie_descs (n : Nat) (f : Die → Die) : (s.modDie n f).descs = s.descs := rfl
@[simp] theorem State.modDie_poison (n : Nat) (f : Die → Die) : (s.modDie n f).poison = s.poison := rfl
@[simp] theorem State.modDie_peerMem (n : Nat) (f : Die → Die) : (s.modDie n f).peerMem = s.peerMem := rfl
@[simp] theorem State.modDie_peerDescs (n : Nat) (f : Die → Die) : (s.modDie n f).peerDescs = s.peerDescs := rfl
@[simp] theorem State.modDie_peerPoison (n : Nat) (f : Die → Die) : (s.modDie n f).peerPoison = s.peerPoison := rfl
@[simp] theorem State.modDie_portCap (n : Nat) (f : Die → Die) : (s.modDie n f).portCap = s.portCap := rfl
@[simp] theorem State.modDie_teams (n : Nat) (f : Die → Die) : (s.modDie n f).teams = s.teams := rfl
@[simp] theorem State.modDie_bundles (n : Nat) (f : Die → Die) : (s.modDie n f).bundles = s.bundles := rfl
@[simp] theorem State.modDie_nextBundle (n : Nat) (f : Die → Die) : (s.modDie n f).nextBundle = s.nextBundle := rfl
@[simp] theorem State.modDie_focus (n : Nat) (f : Die → Die) : (s.modDie n f).focus = s.focus := rfl
@[simp] theorem State.modDie_icache (n : Nat) (f : Die → Die) : (s.modDie n f).icache = s.icache := rfl
@[simp] theorem State.modDie_cores (n : Nat) (f : Die → Die) : (s.modDie n f).cores = s.cores := rfl
@[simp] theorem State.modDie_pairs (n : Nat) (f : Die → Die) : (s.modDie n f).pairs = s.pairs := rfl
@[simp] theorem State.modDie_board (n : Nat) (f : Die → Die) : (s.modDie n f).board = s.board := rfl
@[simp] theorem State.modDie_moves (n : Nat) (f : Die → Die) : (s.modDie n f).moves = s.moves := rfl
@[simp] theorem State.modDie_nextOp (n : Nat) (f : Die → Die) : (s.modDie n f).nextOp = s.nextOp := rfl
@[simp] theorem State.modDie_derived (n : Nat) (f : Die → Die) : (s.modDie n f).derived = s.derived := rfl
@[simp] theorem State.modDie_queues (n : Nat) (f : Die → Die) : (s.modDie n f).queues = s.queues := rfl
@[simp] theorem State.modDie_ctxs (n : Nat) (f : Die → Die) : (s.modDie n f).ctxs = s.ctxs := rfl
@[simp] theorem State.modDie_packets (n : Nat) (f : Die → Die) : (s.modDie n f).packets = s.packets := rfl
@[simp] theorem State.modDie_pods (n : Nat) (f : Die → Die) : (s.modDie n f).pods = s.pods := rfl
@[simp] theorem State.modDie_launches (n : Nat) (f : Die → Die) : (s.modDie n f).launches = s.launches := rfl
@[simp] theorem State.modDie_reuse (n : Nat) (f : Die → Die) : (s.modDie n f).reuse = s.reuse := rfl
@[simp] theorem State.modDie_digests (n : Nat) (f : Die → Die) : (s.modDie n f).digests = s.digests := rfl
@[simp] theorem State.modDie_served (n : Nat) (f : Die → Die) : (s.modDie n f).served = s.served := rfl
@[simp] theorem State.modDie_mxFetches (n : Nat) (f : Die → Die) : (s.modDie n f).mxFetches = s.mxFetches := rfl
@[simp] theorem State.modDie_spawnServed (n : Nat) (f : Die → Die) : (s.modDie n f).spawnServed = s.spawnServed := rfl
@[simp] theorem State.modDie_events (n : Nat) (f : Die → Die) : (s.modDie n f).events = s.events := rfl
@[simp] theorem State.modDie_deferred (n : Nat) (f : Die → Die) : (s.modDie n f).deferred = s.deferred := rfl
@[simp] theorem State.modDie_groups (n : Nat) (f : Die → Die) : (s.modDie n f).groups = s.groups := rfl
@[simp] theorem State.modDie_nextGroup (n : Nat) (f : Die → Die) : (s.modDie n f).nextGroup = s.nextGroup := rfl
@[simp] theorem State.modDie_faultBase (n : Nat) (f : Die → Die) : (s.modDie n f).faultBase = s.faultBase := rfl
@[simp] theorem State.modDie_faultFree (n : Nat) (f : Die → Die) : (s.modDie n f).faultFree = s.faultFree := rfl
@[simp] theorem State.modDie_faultSlot (n : Nat) (f : Die → Die) : (s.modDie n f).faultSlot = s.faultSlot := rfl
@[simp] theorem State.modDie_handles (n : Nat) (f : Die → Die) : (s.modDie n f).handles = s.handles := rfl
@[simp] theorem State.modDie_imageFiles (n : Nat) (f : Die → Die) : (s.modDie n f).imageFiles = s.imageFiles := rfl
@[simp] theorem State.modDie_msix (n : Nat) (f : Die → Die) : (s.modDie n f).msix = s.msix := rfl
@[simp] theorem State.modDie_msixTable (n : Nat) (f : Die → Die) : (s.modDie n f).msixTable = s.msixTable := rfl
@[simp] theorem State.modDie_window (n : Nat) (f : Die → Die) : (s.modDie n f).window = s.window := rfl
@[simp] theorem State.modDie_collMsgs (n : Nat) (f : Die → Die) : (s.modDie n f).collMsgs = s.collMsgs := rfl
@[simp] theorem State.modDie_walkCfg (n : Nat) (f : Die → Die) : (s.modDie n f).walkCfg = s.walkCfg := rfl
@[simp] theorem State.modDie_walkCode (n : Nat) (f : Die → Die) : (s.modDie n f).walkCode = s.walkCode := rfl
@[simp] theorem State.modDie_shootBusy (n : Nat) (f : Die → Die) : (s.modDie n f).shootBusy = s.shootBusy := rfl
@[simp] theorem State.modDie_shoot (n : Nat) (f : Die → Die) : (s.modDie n f).shoot = s.shoot := rfl
@[simp] theorem State.modDie_hintBase (n : Nat) (f : Die → Die) : (s.modDie n f).hintBase = s.hintBase := rfl
@[simp] theorem State.modDie_hintDrop (n : Nat) (f : Die → Die) : (s.modDie n f).hintDrop = s.hintDrop := rfl
@[simp] theorem State.modDie_hintHead (n : Nat) (f : Die → Die) : (s.modDie n f).hintHead = s.hintHead := rfl
@[simp] theorem State.modDie_hintTail (n : Nat) (f : Die → Die) : (s.modDie n f).hintTail = s.hintTail := rfl
@[simp] theorem State.modDie_swapThr (n : Nat) (f : Die → Die) : (s.modDie n f).swapThr = s.swapThr := rfl
@[simp] theorem State.modDie_segments (n : Nat) (f : Die → Die) : (s.modDie n f).segments = s.segments := rfl
@[simp] theorem State.modDie_nextSegment (n : Nat) (f : Die → Die) : (s.modDie n f).nextSegment = s.nextSegment := rfl
@[simp] theorem State.modDie_seqNums (n : Nat) (f : Die → Die) : (s.modDie n f).seqNums = s.seqNums := rfl
@[simp] theorem State.modDie_regions (n : Nat) (f : Die → Die) : (s.modDie n f).regions = s.regions := rfl
@[simp] theorem State.modDie_flowStat (n : Nat) (f : Die → Die) : (s.modDie n f).flowStat = s.flowStat := rfl
@[simp] theorem State.modDie_heldReds (n : Nat) (f : Die → Die) : (s.modDie n f).heldReds = s.heldReds := rfl
@[simp] theorem State.modDie_vacate (n : Nat) (f : Die → Die) : (s.modDie n f).vacate = s.vacate := rfl
@[simp] theorem State.modDie_preempt (n : Nat) (f : Die → Die) : (s.modDie n f).preempt = s.preempt := rfl
@[simp] theorem State.modDie_callBusy (n : Nat) (f : Die → Die) : (s.modDie n f).callBusy = s.callBusy := rfl
@[simp] theorem State.modDie_callErr (n : Nat) (f : Die → Die) : (s.modDie n f).callErr = s.callErr := rfl
@[simp] theorem State.modDie_call (n : Nat) (f : Die → Die) : (s.modDie n f).call = s.call := rfl
@[simp] theorem State.modDie_focusTeam (n : Nat) (f : Die → Die) : (s.modDie n f).focusTeam = s.focusTeam := rfl
@[simp] theorem State.modDie_focusTid (n : Nat) (f : Die → Die) : (s.modDie n f).focusTid = s.focusTid := rfl
@[simp] theorem State.modDie_signer (n : Nat) (f : Die → Die) : (s.modDie n f).signer = s.signer := rfl
@[simp] theorem State.modDie_islands (n : Nat) (f : Die → Die) : (s.modDie n f).islands = s.islands := rfl
@[simp] theorem State.modDie_slewLim (n : Nat) (f : Die → Die) : (s.modDie n f).slewLim = s.slewLim := rfl
@[simp] theorem State.modDie_boot (n : Nat) (f : Die → Die) : (s.modDie n f).boot = s.boot := rfl
@[simp] theorem State.modDie_coord (n : Nat) (f : Die → Die) : (s.modDie n f).coord = s.coord := rfl
@[simp] theorem State.modDie_frozen (n : Nat) (f : Die → Die) : (s.modDie n f).frozen = s.frozen := rfl
@[simp] theorem State.modDie_powered (n : Nat) (f : Die → Die) : (s.modDie n f).powered = s.powered := rfl
@[simp] theorem State.modDie_silent (n : Nat) (f : Die → Die) : (s.modDie n f).silent = s.silent := rfl
@[simp] theorem State.modDie_ticks (n : Nat) (f : Die → Die) : (s.modDie n f).ticks = s.ticks := rfl
@[simp] theorem State.modDie_eighth (n : Nat) (f : Die → Die) : (s.modDie n f).eighth = s.eighth := rfl
@[simp] theorem State.modDie_agenda (n : Nat) (f : Die → Die) : (s.modDie n f).agenda = s.agenda := rfl
@[simp] theorem State.modDie_free (n : Nat) (f : Die → Die) : (s.modDie n f).free = s.free := rfl

/-! ## modDerived -/

@[simp] theorem State.modDerived_mem (n : Nat) (f : Derived → Derived) : (s.modDerived n f).mem = s.mem := rfl
@[simp] theorem State.modDerived_descs (n : Nat) (f : Derived → Derived) : (s.modDerived n f).descs = s.descs := rfl
@[simp] theorem State.modDerived_poison (n : Nat) (f : Derived → Derived) : (s.modDerived n f).poison = s.poison := rfl
@[simp] theorem State.modDerived_peerMem (n : Nat) (f : Derived → Derived) : (s.modDerived n f).peerMem = s.peerMem := rfl
@[simp] theorem State.modDerived_peerDescs (n : Nat) (f : Derived → Derived) : (s.modDerived n f).peerDescs = s.peerDescs := rfl
@[simp] theorem State.modDerived_peerPoison (n : Nat) (f : Derived → Derived) : (s.modDerived n f).peerPoison = s.peerPoison := rfl
@[simp] theorem State.modDerived_portCap (n : Nat) (f : Derived → Derived) : (s.modDerived n f).portCap = s.portCap := rfl
@[simp] theorem State.modDerived_teams (n : Nat) (f : Derived → Derived) : (s.modDerived n f).teams = s.teams := rfl
@[simp] theorem State.modDerived_bundles (n : Nat) (f : Derived → Derived) : (s.modDerived n f).bundles = s.bundles := rfl
@[simp] theorem State.modDerived_nextBundle (n : Nat) (f : Derived → Derived) : (s.modDerived n f).nextBundle = s.nextBundle := rfl
@[simp] theorem State.modDerived_focus (n : Nat) (f : Derived → Derived) : (s.modDerived n f).focus = s.focus := rfl
@[simp] theorem State.modDerived_icache (n : Nat) (f : Derived → Derived) : (s.modDerived n f).icache = s.icache := rfl
@[simp] theorem State.modDerived_cores (n : Nat) (f : Derived → Derived) : (s.modDerived n f).cores = s.cores := rfl
@[simp] theorem State.modDerived_pairs (n : Nat) (f : Derived → Derived) : (s.modDerived n f).pairs = s.pairs := rfl
@[simp] theorem State.modDerived_board (n : Nat) (f : Derived → Derived) : (s.modDerived n f).board = s.board := rfl
@[simp] theorem State.modDerived_moves (n : Nat) (f : Derived → Derived) : (s.modDerived n f).moves = s.moves := rfl
@[simp] theorem State.modDerived_nextOp (n : Nat) (f : Derived → Derived) : (s.modDerived n f).nextOp = s.nextOp := rfl
@[simp] theorem State.modDerived_queues (n : Nat) (f : Derived → Derived) : (s.modDerived n f).queues = s.queues := rfl
@[simp] theorem State.modDerived_ctxs (n : Nat) (f : Derived → Derived) : (s.modDerived n f).ctxs = s.ctxs := rfl
@[simp] theorem State.modDerived_packets (n : Nat) (f : Derived → Derived) : (s.modDerived n f).packets = s.packets := rfl
@[simp] theorem State.modDerived_pods (n : Nat) (f : Derived → Derived) : (s.modDerived n f).pods = s.pods := rfl
@[simp] theorem State.modDerived_launches (n : Nat) (f : Derived → Derived) : (s.modDerived n f).launches = s.launches := rfl
@[simp] theorem State.modDerived_reuse (n : Nat) (f : Derived → Derived) : (s.modDerived n f).reuse = s.reuse := rfl
@[simp] theorem State.modDerived_digests (n : Nat) (f : Derived → Derived) : (s.modDerived n f).digests = s.digests := rfl
@[simp] theorem State.modDerived_served (n : Nat) (f : Derived → Derived) : (s.modDerived n f).served = s.served := rfl
@[simp] theorem State.modDerived_mxFetches (n : Nat) (f : Derived → Derived) : (s.modDerived n f).mxFetches = s.mxFetches := rfl
@[simp] theorem State.modDerived_spawnServed (n : Nat) (f : Derived → Derived) : (s.modDerived n f).spawnServed = s.spawnServed := rfl
@[simp] theorem State.modDerived_events (n : Nat) (f : Derived → Derived) : (s.modDerived n f).events = s.events := rfl
@[simp] theorem State.modDerived_deferred (n : Nat) (f : Derived → Derived) : (s.modDerived n f).deferred = s.deferred := rfl
@[simp] theorem State.modDerived_groups (n : Nat) (f : Derived → Derived) : (s.modDerived n f).groups = s.groups := rfl
@[simp] theorem State.modDerived_nextGroup (n : Nat) (f : Derived → Derived) : (s.modDerived n f).nextGroup = s.nextGroup := rfl
@[simp] theorem State.modDerived_faultBase (n : Nat) (f : Derived → Derived) : (s.modDerived n f).faultBase = s.faultBase := rfl
@[simp] theorem State.modDerived_faultFree (n : Nat) (f : Derived → Derived) : (s.modDerived n f).faultFree = s.faultFree := rfl
@[simp] theorem State.modDerived_faultSlot (n : Nat) (f : Derived → Derived) : (s.modDerived n f).faultSlot = s.faultSlot := rfl
@[simp] theorem State.modDerived_handles (n : Nat) (f : Derived → Derived) : (s.modDerived n f).handles = s.handles := rfl
@[simp] theorem State.modDerived_imageFiles (n : Nat) (f : Derived → Derived) : (s.modDerived n f).imageFiles = s.imageFiles := rfl
@[simp] theorem State.modDerived_msix (n : Nat) (f : Derived → Derived) : (s.modDerived n f).msix = s.msix := rfl
@[simp] theorem State.modDerived_msixTable (n : Nat) (f : Derived → Derived) : (s.modDerived n f).msixTable = s.msixTable := rfl
@[simp] theorem State.modDerived_window (n : Nat) (f : Derived → Derived) : (s.modDerived n f).window = s.window := rfl
@[simp] theorem State.modDerived_collMsgs (n : Nat) (f : Derived → Derived) : (s.modDerived n f).collMsgs = s.collMsgs := rfl
@[simp] theorem State.modDerived_walkCfg (n : Nat) (f : Derived → Derived) : (s.modDerived n f).walkCfg = s.walkCfg := rfl
@[simp] theorem State.modDerived_walkCode (n : Nat) (f : Derived → Derived) : (s.modDerived n f).walkCode = s.walkCode := rfl
@[simp] theorem State.modDerived_shootBusy (n : Nat) (f : Derived → Derived) : (s.modDerived n f).shootBusy = s.shootBusy := rfl
@[simp] theorem State.modDerived_shoot (n : Nat) (f : Derived → Derived) : (s.modDerived n f).shoot = s.shoot := rfl
@[simp] theorem State.modDerived_hintBase (n : Nat) (f : Derived → Derived) : (s.modDerived n f).hintBase = s.hintBase := rfl
@[simp] theorem State.modDerived_hintDrop (n : Nat) (f : Derived → Derived) : (s.modDerived n f).hintDrop = s.hintDrop := rfl
@[simp] theorem State.modDerived_hintHead (n : Nat) (f : Derived → Derived) : (s.modDerived n f).hintHead = s.hintHead := rfl
@[simp] theorem State.modDerived_hintTail (n : Nat) (f : Derived → Derived) : (s.modDerived n f).hintTail = s.hintTail := rfl
@[simp] theorem State.modDerived_swapThr (n : Nat) (f : Derived → Derived) : (s.modDerived n f).swapThr = s.swapThr := rfl
@[simp] theorem State.modDerived_dies (n : Nat) (f : Derived → Derived) : (s.modDerived n f).dies = s.dies := rfl
@[simp] theorem State.modDerived_segments (n : Nat) (f : Derived → Derived) : (s.modDerived n f).segments = s.segments := rfl
@[simp] theorem State.modDerived_nextSegment (n : Nat) (f : Derived → Derived) : (s.modDerived n f).nextSegment = s.nextSegment := rfl
@[simp] theorem State.modDerived_seqNums (n : Nat) (f : Derived → Derived) : (s.modDerived n f).seqNums = s.seqNums := rfl
@[simp] theorem State.modDerived_regions (n : Nat) (f : Derived → Derived) : (s.modDerived n f).regions = s.regions := rfl
@[simp] theorem State.modDerived_flowStat (n : Nat) (f : Derived → Derived) : (s.modDerived n f).flowStat = s.flowStat := rfl
@[simp] theorem State.modDerived_heldReds (n : Nat) (f : Derived → Derived) : (s.modDerived n f).heldReds = s.heldReds := rfl
@[simp] theorem State.modDerived_vacate (n : Nat) (f : Derived → Derived) : (s.modDerived n f).vacate = s.vacate := rfl
@[simp] theorem State.modDerived_preempt (n : Nat) (f : Derived → Derived) : (s.modDerived n f).preempt = s.preempt := rfl
@[simp] theorem State.modDerived_callBusy (n : Nat) (f : Derived → Derived) : (s.modDerived n f).callBusy = s.callBusy := rfl
@[simp] theorem State.modDerived_callErr (n : Nat) (f : Derived → Derived) : (s.modDerived n f).callErr = s.callErr := rfl
@[simp] theorem State.modDerived_call (n : Nat) (f : Derived → Derived) : (s.modDerived n f).call = s.call := rfl
@[simp] theorem State.modDerived_focusTeam (n : Nat) (f : Derived → Derived) : (s.modDerived n f).focusTeam = s.focusTeam := rfl
@[simp] theorem State.modDerived_focusTid (n : Nat) (f : Derived → Derived) : (s.modDerived n f).focusTid = s.focusTid := rfl
@[simp] theorem State.modDerived_signer (n : Nat) (f : Derived → Derived) : (s.modDerived n f).signer = s.signer := rfl
@[simp] theorem State.modDerived_islands (n : Nat) (f : Derived → Derived) : (s.modDerived n f).islands = s.islands := rfl
@[simp] theorem State.modDerived_slewLim (n : Nat) (f : Derived → Derived) : (s.modDerived n f).slewLim = s.slewLim := rfl
@[simp] theorem State.modDerived_boot (n : Nat) (f : Derived → Derived) : (s.modDerived n f).boot = s.boot := rfl
@[simp] theorem State.modDerived_coord (n : Nat) (f : Derived → Derived) : (s.modDerived n f).coord = s.coord := rfl
@[simp] theorem State.modDerived_frozen (n : Nat) (f : Derived → Derived) : (s.modDerived n f).frozen = s.frozen := rfl
@[simp] theorem State.modDerived_powered (n : Nat) (f : Derived → Derived) : (s.modDerived n f).powered = s.powered := rfl
@[simp] theorem State.modDerived_silent (n : Nat) (f : Derived → Derived) : (s.modDerived n f).silent = s.silent := rfl
@[simp] theorem State.modDerived_ticks (n : Nat) (f : Derived → Derived) : (s.modDerived n f).ticks = s.ticks := rfl
@[simp] theorem State.modDerived_eighth (n : Nat) (f : Derived → Derived) : (s.modDerived n f).eighth = s.eighth := rfl
@[simp] theorem State.modDerived_agenda (n : Nat) (f : Derived → Derived) : (s.modDerived n f).agenda = s.agenda := rfl
@[simp] theorem State.modDerived_free (n : Nat) (f : Derived → Derived) : (s.modDerived n f).free = s.free := rfl

/-! ## modTeam -/

@[simp] theorem State.modTeam_mem (k : TeamKey) (f : Team → Team) : (s.modTeam k f).mem = s.mem := rfl
@[simp] theorem State.modTeam_descs (k : TeamKey) (f : Team → Team) : (s.modTeam k f).descs = s.descs := rfl
@[simp] theorem State.modTeam_poison (k : TeamKey) (f : Team → Team) : (s.modTeam k f).poison = s.poison := rfl
@[simp] theorem State.modTeam_peerMem (k : TeamKey) (f : Team → Team) : (s.modTeam k f).peerMem = s.peerMem := rfl
@[simp] theorem State.modTeam_peerDescs (k : TeamKey) (f : Team → Team) : (s.modTeam k f).peerDescs = s.peerDescs := rfl
@[simp] theorem State.modTeam_peerPoison (k : TeamKey) (f : Team → Team) : (s.modTeam k f).peerPoison = s.peerPoison := rfl
@[simp] theorem State.modTeam_portCap (k : TeamKey) (f : Team → Team) : (s.modTeam k f).portCap = s.portCap := rfl
@[simp] theorem State.modTeam_bundles (k : TeamKey) (f : Team → Team) : (s.modTeam k f).bundles = s.bundles := rfl
@[simp] theorem State.modTeam_nextBundle (k : TeamKey) (f : Team → Team) : (s.modTeam k f).nextBundle = s.nextBundle := rfl
@[simp] theorem State.modTeam_focus (k : TeamKey) (f : Team → Team) : (s.modTeam k f).focus = s.focus := rfl
@[simp] theorem State.modTeam_icache (k : TeamKey) (f : Team → Team) : (s.modTeam k f).icache = s.icache := rfl
@[simp] theorem State.modTeam_cores (k : TeamKey) (f : Team → Team) : (s.modTeam k f).cores = s.cores := rfl
@[simp] theorem State.modTeam_pairs (k : TeamKey) (f : Team → Team) : (s.modTeam k f).pairs = s.pairs := rfl
@[simp] theorem State.modTeam_board (k : TeamKey) (f : Team → Team) : (s.modTeam k f).board = s.board := rfl
@[simp] theorem State.modTeam_moves (k : TeamKey) (f : Team → Team) : (s.modTeam k f).moves = s.moves := rfl
@[simp] theorem State.modTeam_nextOp (k : TeamKey) (f : Team → Team) : (s.modTeam k f).nextOp = s.nextOp := rfl
@[simp] theorem State.modTeam_derived (k : TeamKey) (f : Team → Team) : (s.modTeam k f).derived = s.derived := rfl
@[simp] theorem State.modTeam_queues (k : TeamKey) (f : Team → Team) : (s.modTeam k f).queues = s.queues := rfl
@[simp] theorem State.modTeam_ctxs (k : TeamKey) (f : Team → Team) : (s.modTeam k f).ctxs = s.ctxs := rfl
@[simp] theorem State.modTeam_packets (k : TeamKey) (f : Team → Team) : (s.modTeam k f).packets = s.packets := rfl
@[simp] theorem State.modTeam_pods (k : TeamKey) (f : Team → Team) : (s.modTeam k f).pods = s.pods := rfl
@[simp] theorem State.modTeam_launches (k : TeamKey) (f : Team → Team) : (s.modTeam k f).launches = s.launches := rfl
@[simp] theorem State.modTeam_reuse (k : TeamKey) (f : Team → Team) : (s.modTeam k f).reuse = s.reuse := rfl
@[simp] theorem State.modTeam_digests (k : TeamKey) (f : Team → Team) : (s.modTeam k f).digests = s.digests := rfl
@[simp] theorem State.modTeam_served (k : TeamKey) (f : Team → Team) : (s.modTeam k f).served = s.served := rfl
@[simp] theorem State.modTeam_mxFetches (k : TeamKey) (f : Team → Team) : (s.modTeam k f).mxFetches = s.mxFetches := rfl
@[simp] theorem State.modTeam_spawnServed (k : TeamKey) (f : Team → Team) : (s.modTeam k f).spawnServed = s.spawnServed := rfl
@[simp] theorem State.modTeam_events (k : TeamKey) (f : Team → Team) : (s.modTeam k f).events = s.events := rfl
@[simp] theorem State.modTeam_deferred (k : TeamKey) (f : Team → Team) : (s.modTeam k f).deferred = s.deferred := rfl
@[simp] theorem State.modTeam_groups (k : TeamKey) (f : Team → Team) : (s.modTeam k f).groups = s.groups := rfl
@[simp] theorem State.modTeam_nextGroup (k : TeamKey) (f : Team → Team) : (s.modTeam k f).nextGroup = s.nextGroup := rfl
@[simp] theorem State.modTeam_faultBase (k : TeamKey) (f : Team → Team) : (s.modTeam k f).faultBase = s.faultBase := rfl
@[simp] theorem State.modTeam_faultFree (k : TeamKey) (f : Team → Team) : (s.modTeam k f).faultFree = s.faultFree := rfl
@[simp] theorem State.modTeam_faultSlot (k : TeamKey) (f : Team → Team) : (s.modTeam k f).faultSlot = s.faultSlot := rfl
@[simp] theorem State.modTeam_handles (k : TeamKey) (f : Team → Team) : (s.modTeam k f).handles = s.handles := rfl
@[simp] theorem State.modTeam_imageFiles (k : TeamKey) (f : Team → Team) : (s.modTeam k f).imageFiles = s.imageFiles := rfl
@[simp] theorem State.modTeam_msix (k : TeamKey) (f : Team → Team) : (s.modTeam k f).msix = s.msix := rfl
@[simp] theorem State.modTeam_msixTable (k : TeamKey) (f : Team → Team) : (s.modTeam k f).msixTable = s.msixTable := rfl
@[simp] theorem State.modTeam_window (k : TeamKey) (f : Team → Team) : (s.modTeam k f).window = s.window := rfl
@[simp] theorem State.modTeam_collMsgs (k : TeamKey) (f : Team → Team) : (s.modTeam k f).collMsgs = s.collMsgs := rfl
@[simp] theorem State.modTeam_walkCfg (k : TeamKey) (f : Team → Team) : (s.modTeam k f).walkCfg = s.walkCfg := rfl
@[simp] theorem State.modTeam_walkCode (k : TeamKey) (f : Team → Team) : (s.modTeam k f).walkCode = s.walkCode := rfl
@[simp] theorem State.modTeam_shootBusy (k : TeamKey) (f : Team → Team) : (s.modTeam k f).shootBusy = s.shootBusy := rfl
@[simp] theorem State.modTeam_shoot (k : TeamKey) (f : Team → Team) : (s.modTeam k f).shoot = s.shoot := rfl
@[simp] theorem State.modTeam_hintBase (k : TeamKey) (f : Team → Team) : (s.modTeam k f).hintBase = s.hintBase := rfl
@[simp] theorem State.modTeam_hintDrop (k : TeamKey) (f : Team → Team) : (s.modTeam k f).hintDrop = s.hintDrop := rfl
@[simp] theorem State.modTeam_hintHead (k : TeamKey) (f : Team → Team) : (s.modTeam k f).hintHead = s.hintHead := rfl
@[simp] theorem State.modTeam_hintTail (k : TeamKey) (f : Team → Team) : (s.modTeam k f).hintTail = s.hintTail := rfl
@[simp] theorem State.modTeam_swapThr (k : TeamKey) (f : Team → Team) : (s.modTeam k f).swapThr = s.swapThr := rfl
@[simp] theorem State.modTeam_dies (k : TeamKey) (f : Team → Team) : (s.modTeam k f).dies = s.dies := rfl
@[simp] theorem State.modTeam_segments (k : TeamKey) (f : Team → Team) : (s.modTeam k f).segments = s.segments := rfl
@[simp] theorem State.modTeam_nextSegment (k : TeamKey) (f : Team → Team) : (s.modTeam k f).nextSegment = s.nextSegment := rfl
@[simp] theorem State.modTeam_seqNums (k : TeamKey) (f : Team → Team) : (s.modTeam k f).seqNums = s.seqNums := rfl
@[simp] theorem State.modTeam_regions (k : TeamKey) (f : Team → Team) : (s.modTeam k f).regions = s.regions := rfl
@[simp] theorem State.modTeam_flowStat (k : TeamKey) (f : Team → Team) : (s.modTeam k f).flowStat = s.flowStat := rfl
@[simp] theorem State.modTeam_heldReds (k : TeamKey) (f : Team → Team) : (s.modTeam k f).heldReds = s.heldReds := rfl
@[simp] theorem State.modTeam_vacate (k : TeamKey) (f : Team → Team) : (s.modTeam k f).vacate = s.vacate := rfl
@[simp] theorem State.modTeam_preempt (k : TeamKey) (f : Team → Team) : (s.modTeam k f).preempt = s.preempt := rfl
@[simp] theorem State.modTeam_callBusy (k : TeamKey) (f : Team → Team) : (s.modTeam k f).callBusy = s.callBusy := rfl
@[simp] theorem State.modTeam_callErr (k : TeamKey) (f : Team → Team) : (s.modTeam k f).callErr = s.callErr := rfl
@[simp] theorem State.modTeam_call (k : TeamKey) (f : Team → Team) : (s.modTeam k f).call = s.call := rfl
@[simp] theorem State.modTeam_focusTeam (k : TeamKey) (f : Team → Team) : (s.modTeam k f).focusTeam = s.focusTeam := rfl
@[simp] theorem State.modTeam_focusTid (k : TeamKey) (f : Team → Team) : (s.modTeam k f).focusTid = s.focusTid := rfl
@[simp] theorem State.modTeam_signer (k : TeamKey) (f : Team → Team) : (s.modTeam k f).signer = s.signer := rfl
@[simp] theorem State.modTeam_islands (k : TeamKey) (f : Team → Team) : (s.modTeam k f).islands = s.islands := rfl
@[simp] theorem State.modTeam_slewLim (k : TeamKey) (f : Team → Team) : (s.modTeam k f).slewLim = s.slewLim := rfl
@[simp] theorem State.modTeam_boot (k : TeamKey) (f : Team → Team) : (s.modTeam k f).boot = s.boot := rfl
@[simp] theorem State.modTeam_coord (k : TeamKey) (f : Team → Team) : (s.modTeam k f).coord = s.coord := rfl
@[simp] theorem State.modTeam_frozen (k : TeamKey) (f : Team → Team) : (s.modTeam k f).frozen = s.frozen := rfl
@[simp] theorem State.modTeam_powered (k : TeamKey) (f : Team → Team) : (s.modTeam k f).powered = s.powered := rfl
@[simp] theorem State.modTeam_silent (k : TeamKey) (f : Team → Team) : (s.modTeam k f).silent = s.silent := rfl
@[simp] theorem State.modTeam_ticks (k : TeamKey) (f : Team → Team) : (s.modTeam k f).ticks = s.ticks := rfl
@[simp] theorem State.modTeam_eighth (k : TeamKey) (f : Team → Team) : (s.modTeam k f).eighth = s.eighth := rfl
@[simp] theorem State.modTeam_agenda (k : TeamKey) (f : Team → Team) : (s.modTeam k f).agenda = s.agenda := rfl
@[simp] theorem State.modTeam_free (k : TeamKey) (f : Team → Team) : (s.modTeam k f).free = s.free := rfl

/-! ## modThread -/

@[simp] theorem State.modThread_mem (k : TeamKey) (i : Nat) (f : Thread → Thread) : (s.modThread k i f).mem = s.mem := rfl
@[simp] theorem State.modThread_descs (k : TeamKey) (i : Nat) (f : Thread → Thread) : (s.modThread k i f).descs = s.descs := rfl
@[simp] theorem State.modThread_poison (k : TeamKey) (i : Nat) (f : Thread → Thread) : (s.modThread k i f).poison = s.poison := rfl
@[simp] theorem State.modThread_peerMem (k : TeamKey) (i : Nat) (f : Thread → Thread) : (s.modThread k i f).peerMem = s.peerMem := rfl
@[simp] theorem State.modThread_peerDescs (k : TeamKey) (i : Nat) (f : Thread → Thread) : (s.modThread k i f).peerDescs = s.peerDescs := rfl
@[simp] theorem State.modThread_peerPoison (k : TeamKey) (i : Nat) (f : Thread → Thread) : (s.modThread k i f).peerPoison = s.peerPoison := rfl
@[simp] theorem State.modThread_portCap (k : TeamKey) (i : Nat) (f : Thread → Thread) : (s.modThread k i f).portCap = s.portCap := rfl
@[simp] theorem State.modThread_bundles (k : TeamKey) (i : Nat) (f : Thread → Thread) : (s.modThread k i f).bundles = s.bundles := rfl
@[simp] theorem State.modThread_nextBundle (k : TeamKey) (i : Nat) (f : Thread → Thread) : (s.modThread k i f).nextBundle = s.nextBundle := rfl
@[simp] theorem State.modThread_focus (k : TeamKey) (i : Nat) (f : Thread → Thread) : (s.modThread k i f).focus = s.focus := rfl
@[simp] theorem State.modThread_icache (k : TeamKey) (i : Nat) (f : Thread → Thread) : (s.modThread k i f).icache = s.icache := rfl
@[simp] theorem State.modThread_cores (k : TeamKey) (i : Nat) (f : Thread → Thread) : (s.modThread k i f).cores = s.cores := rfl
@[simp] theorem State.modThread_pairs (k : TeamKey) (i : Nat) (f : Thread → Thread) : (s.modThread k i f).pairs = s.pairs := rfl
@[simp] theorem State.modThread_board (k : TeamKey) (i : Nat) (f : Thread → Thread) : (s.modThread k i f).board = s.board := rfl
@[simp] theorem State.modThread_moves (k : TeamKey) (i : Nat) (f : Thread → Thread) : (s.modThread k i f).moves = s.moves := rfl
@[simp] theorem State.modThread_nextOp (k : TeamKey) (i : Nat) (f : Thread → Thread) : (s.modThread k i f).nextOp = s.nextOp := rfl
@[simp] theorem State.modThread_derived (k : TeamKey) (i : Nat) (f : Thread → Thread) : (s.modThread k i f).derived = s.derived := rfl
@[simp] theorem State.modThread_queues (k : TeamKey) (i : Nat) (f : Thread → Thread) : (s.modThread k i f).queues = s.queues := rfl
@[simp] theorem State.modThread_ctxs (k : TeamKey) (i : Nat) (f : Thread → Thread) : (s.modThread k i f).ctxs = s.ctxs := rfl
@[simp] theorem State.modThread_packets (k : TeamKey) (i : Nat) (f : Thread → Thread) : (s.modThread k i f).packets = s.packets := rfl
@[simp] theorem State.modThread_pods (k : TeamKey) (i : Nat) (f : Thread → Thread) : (s.modThread k i f).pods = s.pods := rfl
@[simp] theorem State.modThread_launches (k : TeamKey) (i : Nat) (f : Thread → Thread) : (s.modThread k i f).launches = s.launches := rfl
@[simp] theorem State.modThread_reuse (k : TeamKey) (i : Nat) (f : Thread → Thread) : (s.modThread k i f).reuse = s.reuse := rfl
@[simp] theorem State.modThread_digests (k : TeamKey) (i : Nat) (f : Thread → Thread) : (s.modThread k i f).digests = s.digests := rfl
@[simp] theorem State.modThread_served (k : TeamKey) (i : Nat) (f : Thread → Thread) : (s.modThread k i f).served = s.served := rfl
@[simp] theorem State.modThread_mxFetches (k : TeamKey) (i : Nat) (f : Thread → Thread) : (s.modThread k i f).mxFetches = s.mxFetches := rfl
@[simp] theorem State.modThread_spawnServed (k : TeamKey) (i : Nat) (f : Thread → Thread) : (s.modThread k i f).spawnServed = s.spawnServed := rfl
@[simp] theorem State.modThread_events (k : TeamKey) (i : Nat) (f : Thread → Thread) : (s.modThread k i f).events = s.events := rfl
@[simp] theorem State.modThread_deferred (k : TeamKey) (i : Nat) (f : Thread → Thread) : (s.modThread k i f).deferred = s.deferred := rfl
@[simp] theorem State.modThread_groups (k : TeamKey) (i : Nat) (f : Thread → Thread) : (s.modThread k i f).groups = s.groups := rfl
@[simp] theorem State.modThread_nextGroup (k : TeamKey) (i : Nat) (f : Thread → Thread) : (s.modThread k i f).nextGroup = s.nextGroup := rfl
@[simp] theorem State.modThread_faultBase (k : TeamKey) (i : Nat) (f : Thread → Thread) : (s.modThread k i f).faultBase = s.faultBase := rfl
@[simp] theorem State.modThread_faultFree (k : TeamKey) (i : Nat) (f : Thread → Thread) : (s.modThread k i f).faultFree = s.faultFree := rfl
@[simp] theorem State.modThread_faultSlot (k : TeamKey) (i : Nat) (f : Thread → Thread) : (s.modThread k i f).faultSlot = s.faultSlot := rfl
@[simp] theorem State.modThread_handles (k : TeamKey) (i : Nat) (f : Thread → Thread) : (s.modThread k i f).handles = s.handles := rfl
@[simp] theorem State.modThread_imageFiles (k : TeamKey) (i : Nat) (f : Thread → Thread) : (s.modThread k i f).imageFiles = s.imageFiles := rfl
@[simp] theorem State.modThread_msix (k : TeamKey) (i : Nat) (f : Thread → Thread) : (s.modThread k i f).msix = s.msix := rfl
@[simp] theorem State.modThread_msixTable (k : TeamKey) (i : Nat) (f : Thread → Thread) : (s.modThread k i f).msixTable = s.msixTable := rfl
@[simp] theorem State.modThread_window (k : TeamKey) (i : Nat) (f : Thread → Thread) : (s.modThread k i f).window = s.window := rfl
@[simp] theorem State.modThread_collMsgs (k : TeamKey) (i : Nat) (f : Thread → Thread) : (s.modThread k i f).collMsgs = s.collMsgs := rfl
@[simp] theorem State.modThread_walkCfg (k : TeamKey) (i : Nat) (f : Thread → Thread) : (s.modThread k i f).walkCfg = s.walkCfg := rfl
@[simp] theorem State.modThread_walkCode (k : TeamKey) (i : Nat) (f : Thread → Thread) : (s.modThread k i f).walkCode = s.walkCode := rfl
@[simp] theorem State.modThread_shootBusy (k : TeamKey) (i : Nat) (f : Thread → Thread) : (s.modThread k i f).shootBusy = s.shootBusy := rfl
@[simp] theorem State.modThread_shoot (k : TeamKey) (i : Nat) (f : Thread → Thread) : (s.modThread k i f).shoot = s.shoot := rfl
@[simp] theorem State.modThread_hintBase (k : TeamKey) (i : Nat) (f : Thread → Thread) : (s.modThread k i f).hintBase = s.hintBase := rfl
@[simp] theorem State.modThread_hintDrop (k : TeamKey) (i : Nat) (f : Thread → Thread) : (s.modThread k i f).hintDrop = s.hintDrop := rfl
@[simp] theorem State.modThread_hintHead (k : TeamKey) (i : Nat) (f : Thread → Thread) : (s.modThread k i f).hintHead = s.hintHead := rfl
@[simp] theorem State.modThread_hintTail (k : TeamKey) (i : Nat) (f : Thread → Thread) : (s.modThread k i f).hintTail = s.hintTail := rfl
@[simp] theorem State.modThread_swapThr (k : TeamKey) (i : Nat) (f : Thread → Thread) : (s.modThread k i f).swapThr = s.swapThr := rfl
@[simp] theorem State.modThread_dies (k : TeamKey) (i : Nat) (f : Thread → Thread) : (s.modThread k i f).dies = s.dies := rfl
@[simp] theorem State.modThread_segments (k : TeamKey) (i : Nat) (f : Thread → Thread) : (s.modThread k i f).segments = s.segments := rfl
@[simp] theorem State.modThread_nextSegment (k : TeamKey) (i : Nat) (f : Thread → Thread) : (s.modThread k i f).nextSegment = s.nextSegment := rfl
@[simp] theorem State.modThread_seqNums (k : TeamKey) (i : Nat) (f : Thread → Thread) : (s.modThread k i f).seqNums = s.seqNums := rfl
@[simp] theorem State.modThread_regions (k : TeamKey) (i : Nat) (f : Thread → Thread) : (s.modThread k i f).regions = s.regions := rfl
@[simp] theorem State.modThread_flowStat (k : TeamKey) (i : Nat) (f : Thread → Thread) : (s.modThread k i f).flowStat = s.flowStat := rfl
@[simp] theorem State.modThread_heldReds (k : TeamKey) (i : Nat) (f : Thread → Thread) : (s.modThread k i f).heldReds = s.heldReds := rfl
@[simp] theorem State.modThread_vacate (k : TeamKey) (i : Nat) (f : Thread → Thread) : (s.modThread k i f).vacate = s.vacate := rfl
@[simp] theorem State.modThread_preempt (k : TeamKey) (i : Nat) (f : Thread → Thread) : (s.modThread k i f).preempt = s.preempt := rfl
@[simp] theorem State.modThread_callBusy (k : TeamKey) (i : Nat) (f : Thread → Thread) : (s.modThread k i f).callBusy = s.callBusy := rfl
@[simp] theorem State.modThread_callErr (k : TeamKey) (i : Nat) (f : Thread → Thread) : (s.modThread k i f).callErr = s.callErr := rfl
@[simp] theorem State.modThread_call (k : TeamKey) (i : Nat) (f : Thread → Thread) : (s.modThread k i f).call = s.call := rfl
@[simp] theorem State.modThread_focusTeam (k : TeamKey) (i : Nat) (f : Thread → Thread) : (s.modThread k i f).focusTeam = s.focusTeam := rfl
@[simp] theorem State.modThread_focusTid (k : TeamKey) (i : Nat) (f : Thread → Thread) : (s.modThread k i f).focusTid = s.focusTid := rfl
@[simp] theorem State.modThread_signer (k : TeamKey) (i : Nat) (f : Thread → Thread) : (s.modThread k i f).signer = s.signer := rfl
@[simp] theorem State.modThread_islands (k : TeamKey) (i : Nat) (f : Thread → Thread) : (s.modThread k i f).islands = s.islands := rfl
@[simp] theorem State.modThread_slewLim (k : TeamKey) (i : Nat) (f : Thread → Thread) : (s.modThread k i f).slewLim = s.slewLim := rfl
@[simp] theorem State.modThread_boot (k : TeamKey) (i : Nat) (f : Thread → Thread) : (s.modThread k i f).boot = s.boot := rfl
@[simp] theorem State.modThread_coord (k : TeamKey) (i : Nat) (f : Thread → Thread) : (s.modThread k i f).coord = s.coord := rfl
@[simp] theorem State.modThread_frozen (k : TeamKey) (i : Nat) (f : Thread → Thread) : (s.modThread k i f).frozen = s.frozen := rfl
@[simp] theorem State.modThread_powered (k : TeamKey) (i : Nat) (f : Thread → Thread) : (s.modThread k i f).powered = s.powered := rfl
@[simp] theorem State.modThread_silent (k : TeamKey) (i : Nat) (f : Thread → Thread) : (s.modThread k i f).silent = s.silent := rfl
@[simp] theorem State.modThread_ticks (k : TeamKey) (i : Nat) (f : Thread → Thread) : (s.modThread k i f).ticks = s.ticks := rfl
@[simp] theorem State.modThread_eighth (k : TeamKey) (i : Nat) (f : Thread → Thread) : (s.modThread k i f).eighth = s.eighth := rfl
@[simp] theorem State.modThread_agenda (k : TeamKey) (i : Nat) (f : Thread → Thread) : (s.modThread k i f).agenda = s.agenda := rfl
@[simp] theorem State.modThread_free (k : TeamKey) (i : Nat) (f : Thread → Thread) : (s.modThread k i f).free = s.free := rfl

/-! ## modBundle -/

@[simp] theorem State.modBundle_mem (n : Nat) (f : Bundle → Bundle) : (s.modBundle n f).mem = s.mem := rfl
@[simp] theorem State.modBundle_descs (n : Nat) (f : Bundle → Bundle) : (s.modBundle n f).descs = s.descs := rfl
@[simp] theorem State.modBundle_poison (n : Nat) (f : Bundle → Bundle) : (s.modBundle n f).poison = s.poison := rfl
@[simp] theorem State.modBundle_peerMem (n : Nat) (f : Bundle → Bundle) : (s.modBundle n f).peerMem = s.peerMem := rfl
@[simp] theorem State.modBundle_peerDescs (n : Nat) (f : Bundle → Bundle) : (s.modBundle n f).peerDescs = s.peerDescs := rfl
@[simp] theorem State.modBundle_peerPoison (n : Nat) (f : Bundle → Bundle) : (s.modBundle n f).peerPoison = s.peerPoison := rfl
@[simp] theorem State.modBundle_portCap (n : Nat) (f : Bundle → Bundle) : (s.modBundle n f).portCap = s.portCap := rfl
@[simp] theorem State.modBundle_teams (n : Nat) (f : Bundle → Bundle) : (s.modBundle n f).teams = s.teams := rfl
@[simp] theorem State.modBundle_nextBundle (n : Nat) (f : Bundle → Bundle) : (s.modBundle n f).nextBundle = s.nextBundle := rfl
@[simp] theorem State.modBundle_focus (n : Nat) (f : Bundle → Bundle) : (s.modBundle n f).focus = s.focus := rfl
@[simp] theorem State.modBundle_icache (n : Nat) (f : Bundle → Bundle) : (s.modBundle n f).icache = s.icache := rfl
@[simp] theorem State.modBundle_cores (n : Nat) (f : Bundle → Bundle) : (s.modBundle n f).cores = s.cores := rfl
@[simp] theorem State.modBundle_pairs (n : Nat) (f : Bundle → Bundle) : (s.modBundle n f).pairs = s.pairs := rfl
@[simp] theorem State.modBundle_board (n : Nat) (f : Bundle → Bundle) : (s.modBundle n f).board = s.board := rfl
@[simp] theorem State.modBundle_moves (n : Nat) (f : Bundle → Bundle) : (s.modBundle n f).moves = s.moves := rfl
@[simp] theorem State.modBundle_nextOp (n : Nat) (f : Bundle → Bundle) : (s.modBundle n f).nextOp = s.nextOp := rfl
@[simp] theorem State.modBundle_derived (n : Nat) (f : Bundle → Bundle) : (s.modBundle n f).derived = s.derived := rfl
@[simp] theorem State.modBundle_queues (n : Nat) (f : Bundle → Bundle) : (s.modBundle n f).queues = s.queues := rfl
@[simp] theorem State.modBundle_ctxs (n : Nat) (f : Bundle → Bundle) : (s.modBundle n f).ctxs = s.ctxs := rfl
@[simp] theorem State.modBundle_packets (n : Nat) (f : Bundle → Bundle) : (s.modBundle n f).packets = s.packets := rfl
@[simp] theorem State.modBundle_pods (n : Nat) (f : Bundle → Bundle) : (s.modBundle n f).pods = s.pods := rfl
@[simp] theorem State.modBundle_launches (n : Nat) (f : Bundle → Bundle) : (s.modBundle n f).launches = s.launches := rfl
@[simp] theorem State.modBundle_reuse (n : Nat) (f : Bundle → Bundle) : (s.modBundle n f).reuse = s.reuse := rfl
@[simp] theorem State.modBundle_digests (n : Nat) (f : Bundle → Bundle) : (s.modBundle n f).digests = s.digests := rfl
@[simp] theorem State.modBundle_served (n : Nat) (f : Bundle → Bundle) : (s.modBundle n f).served = s.served := rfl
@[simp] theorem State.modBundle_mxFetches (n : Nat) (f : Bundle → Bundle) : (s.modBundle n f).mxFetches = s.mxFetches := rfl
@[simp] theorem State.modBundle_spawnServed (n : Nat) (f : Bundle → Bundle) : (s.modBundle n f).spawnServed = s.spawnServed := rfl
@[simp] theorem State.modBundle_events (n : Nat) (f : Bundle → Bundle) : (s.modBundle n f).events = s.events := rfl
@[simp] theorem State.modBundle_deferred (n : Nat) (f : Bundle → Bundle) : (s.modBundle n f).deferred = s.deferred := rfl
@[simp] theorem State.modBundle_groups (n : Nat) (f : Bundle → Bundle) : (s.modBundle n f).groups = s.groups := rfl
@[simp] theorem State.modBundle_nextGroup (n : Nat) (f : Bundle → Bundle) : (s.modBundle n f).nextGroup = s.nextGroup := rfl
@[simp] theorem State.modBundle_faultBase (n : Nat) (f : Bundle → Bundle) : (s.modBundle n f).faultBase = s.faultBase := rfl
@[simp] theorem State.modBundle_faultFree (n : Nat) (f : Bundle → Bundle) : (s.modBundle n f).faultFree = s.faultFree := rfl
@[simp] theorem State.modBundle_faultSlot (n : Nat) (f : Bundle → Bundle) : (s.modBundle n f).faultSlot = s.faultSlot := rfl
@[simp] theorem State.modBundle_handles (n : Nat) (f : Bundle → Bundle) : (s.modBundle n f).handles = s.handles := rfl
@[simp] theorem State.modBundle_imageFiles (n : Nat) (f : Bundle → Bundle) : (s.modBundle n f).imageFiles = s.imageFiles := rfl
@[simp] theorem State.modBundle_msix (n : Nat) (f : Bundle → Bundle) : (s.modBundle n f).msix = s.msix := rfl
@[simp] theorem State.modBundle_msixTable (n : Nat) (f : Bundle → Bundle) : (s.modBundle n f).msixTable = s.msixTable := rfl
@[simp] theorem State.modBundle_window (n : Nat) (f : Bundle → Bundle) : (s.modBundle n f).window = s.window := rfl
@[simp] theorem State.modBundle_collMsgs (n : Nat) (f : Bundle → Bundle) : (s.modBundle n f).collMsgs = s.collMsgs := rfl
@[simp] theorem State.modBundle_walkCfg (n : Nat) (f : Bundle → Bundle) : (s.modBundle n f).walkCfg = s.walkCfg := rfl
@[simp] theorem State.modBundle_walkCode (n : Nat) (f : Bundle → Bundle) : (s.modBundle n f).walkCode = s.walkCode := rfl
@[simp] theorem State.modBundle_shootBusy (n : Nat) (f : Bundle → Bundle) : (s.modBundle n f).shootBusy = s.shootBusy := rfl
@[simp] theorem State.modBundle_shoot (n : Nat) (f : Bundle → Bundle) : (s.modBundle n f).shoot = s.shoot := rfl
@[simp] theorem State.modBundle_hintBase (n : Nat) (f : Bundle → Bundle) : (s.modBundle n f).hintBase = s.hintBase := rfl
@[simp] theorem State.modBundle_hintDrop (n : Nat) (f : Bundle → Bundle) : (s.modBundle n f).hintDrop = s.hintDrop := rfl
@[simp] theorem State.modBundle_hintHead (n : Nat) (f : Bundle → Bundle) : (s.modBundle n f).hintHead = s.hintHead := rfl
@[simp] theorem State.modBundle_hintTail (n : Nat) (f : Bundle → Bundle) : (s.modBundle n f).hintTail = s.hintTail := rfl
@[simp] theorem State.modBundle_swapThr (n : Nat) (f : Bundle → Bundle) : (s.modBundle n f).swapThr = s.swapThr := rfl
@[simp] theorem State.modBundle_dies (n : Nat) (f : Bundle → Bundle) : (s.modBundle n f).dies = s.dies := rfl
@[simp] theorem State.modBundle_segments (n : Nat) (f : Bundle → Bundle) : (s.modBundle n f).segments = s.segments := rfl
@[simp] theorem State.modBundle_nextSegment (n : Nat) (f : Bundle → Bundle) : (s.modBundle n f).nextSegment = s.nextSegment := rfl
@[simp] theorem State.modBundle_seqNums (n : Nat) (f : Bundle → Bundle) : (s.modBundle n f).seqNums = s.seqNums := rfl
@[simp] theorem State.modBundle_regions (n : Nat) (f : Bundle → Bundle) : (s.modBundle n f).regions = s.regions := rfl
@[simp] theorem State.modBundle_flowStat (n : Nat) (f : Bundle → Bundle) : (s.modBundle n f).flowStat = s.flowStat := rfl
@[simp] theorem State.modBundle_heldReds (n : Nat) (f : Bundle → Bundle) : (s.modBundle n f).heldReds = s.heldReds := rfl
@[simp] theorem State.modBundle_vacate (n : Nat) (f : Bundle → Bundle) : (s.modBundle n f).vacate = s.vacate := rfl
@[simp] theorem State.modBundle_preempt (n : Nat) (f : Bundle → Bundle) : (s.modBundle n f).preempt = s.preempt := rfl
@[simp] theorem State.modBundle_callBusy (n : Nat) (f : Bundle → Bundle) : (s.modBundle n f).callBusy = s.callBusy := rfl
@[simp] theorem State.modBundle_callErr (n : Nat) (f : Bundle → Bundle) : (s.modBundle n f).callErr = s.callErr := rfl
@[simp] theorem State.modBundle_call (n : Nat) (f : Bundle → Bundle) : (s.modBundle n f).call = s.call := rfl
@[simp] theorem State.modBundle_focusTeam (n : Nat) (f : Bundle → Bundle) : (s.modBundle n f).focusTeam = s.focusTeam := rfl
@[simp] theorem State.modBundle_focusTid (n : Nat) (f : Bundle → Bundle) : (s.modBundle n f).focusTid = s.focusTid := rfl
@[simp] theorem State.modBundle_signer (n : Nat) (f : Bundle → Bundle) : (s.modBundle n f).signer = s.signer := rfl
@[simp] theorem State.modBundle_islands (n : Nat) (f : Bundle → Bundle) : (s.modBundle n f).islands = s.islands := rfl
@[simp] theorem State.modBundle_slewLim (n : Nat) (f : Bundle → Bundle) : (s.modBundle n f).slewLim = s.slewLim := rfl
@[simp] theorem State.modBundle_boot (n : Nat) (f : Bundle → Bundle) : (s.modBundle n f).boot = s.boot := rfl
@[simp] theorem State.modBundle_coord (n : Nat) (f : Bundle → Bundle) : (s.modBundle n f).coord = s.coord := rfl
@[simp] theorem State.modBundle_frozen (n : Nat) (f : Bundle → Bundle) : (s.modBundle n f).frozen = s.frozen := rfl
@[simp] theorem State.modBundle_powered (n : Nat) (f : Bundle → Bundle) : (s.modBundle n f).powered = s.powered := rfl
@[simp] theorem State.modBundle_silent (n : Nat) (f : Bundle → Bundle) : (s.modBundle n f).silent = s.silent := rfl
@[simp] theorem State.modBundle_ticks (n : Nat) (f : Bundle → Bundle) : (s.modBundle n f).ticks = s.ticks := rfl
@[simp] theorem State.modBundle_eighth (n : Nat) (f : Bundle → Bundle) : (s.modBundle n f).eighth = s.eighth := rfl
@[simp] theorem State.modBundle_agenda (n : Nat) (f : Bundle → Bundle) : (s.modBundle n f).agenda = s.agenda := rfl
@[simp] theorem State.modBundle_free (n : Nat) (f : Bundle → Bundle) : (s.modBundle n f).free = s.free := rfl

/-! ## leaveBundle -/

@[simp] theorem State.leaveBundle_mem (n : Nat) (l : List Nat) : (s.leaveBundle n l).mem = s.mem := rfl
@[simp] theorem State.leaveBundle_descs (n : Nat) (l : List Nat) : (s.leaveBundle n l).descs = s.descs := rfl
@[simp] theorem State.leaveBundle_poison (n : Nat) (l : List Nat) : (s.leaveBundle n l).poison = s.poison := rfl
@[simp] theorem State.leaveBundle_peerMem (n : Nat) (l : List Nat) : (s.leaveBundle n l).peerMem = s.peerMem := rfl
@[simp] theorem State.leaveBundle_peerDescs (n : Nat) (l : List Nat) : (s.leaveBundle n l).peerDescs = s.peerDescs := rfl
@[simp] theorem State.leaveBundle_peerPoison (n : Nat) (l : List Nat) : (s.leaveBundle n l).peerPoison = s.peerPoison := rfl
@[simp] theorem State.leaveBundle_portCap (n : Nat) (l : List Nat) : (s.leaveBundle n l).portCap = s.portCap := rfl
@[simp] theorem State.leaveBundle_teams (n : Nat) (l : List Nat) : (s.leaveBundle n l).teams = s.teams := rfl
@[simp] theorem State.leaveBundle_nextBundle (n : Nat) (l : List Nat) : (s.leaveBundle n l).nextBundle = s.nextBundle := rfl
@[simp] theorem State.leaveBundle_focus (n : Nat) (l : List Nat) : (s.leaveBundle n l).focus = s.focus := rfl
@[simp] theorem State.leaveBundle_icache (n : Nat) (l : List Nat) : (s.leaveBundle n l).icache = s.icache := rfl
@[simp] theorem State.leaveBundle_cores (n : Nat) (l : List Nat) : (s.leaveBundle n l).cores = s.cores := rfl
@[simp] theorem State.leaveBundle_pairs (n : Nat) (l : List Nat) : (s.leaveBundle n l).pairs = s.pairs := rfl
@[simp] theorem State.leaveBundle_board (n : Nat) (l : List Nat) : (s.leaveBundle n l).board = s.board := rfl
@[simp] theorem State.leaveBundle_moves (n : Nat) (l : List Nat) : (s.leaveBundle n l).moves = s.moves := rfl
@[simp] theorem State.leaveBundle_nextOp (n : Nat) (l : List Nat) : (s.leaveBundle n l).nextOp = s.nextOp := rfl
@[simp] theorem State.leaveBundle_derived (n : Nat) (l : List Nat) : (s.leaveBundle n l).derived = s.derived := rfl
@[simp] theorem State.leaveBundle_queues (n : Nat) (l : List Nat) : (s.leaveBundle n l).queues = s.queues := rfl
@[simp] theorem State.leaveBundle_ctxs (n : Nat) (l : List Nat) : (s.leaveBundle n l).ctxs = s.ctxs := rfl
@[simp] theorem State.leaveBundle_packets (n : Nat) (l : List Nat) : (s.leaveBundle n l).packets = s.packets := rfl
@[simp] theorem State.leaveBundle_pods (n : Nat) (l : List Nat) : (s.leaveBundle n l).pods = s.pods := rfl
@[simp] theorem State.leaveBundle_launches (n : Nat) (l : List Nat) : (s.leaveBundle n l).launches = s.launches := rfl
@[simp] theorem State.leaveBundle_reuse (n : Nat) (l : List Nat) : (s.leaveBundle n l).reuse = s.reuse := rfl
@[simp] theorem State.leaveBundle_digests (n : Nat) (l : List Nat) : (s.leaveBundle n l).digests = s.digests := rfl
@[simp] theorem State.leaveBundle_served (n : Nat) (l : List Nat) : (s.leaveBundle n l).served = s.served := rfl
@[simp] theorem State.leaveBundle_mxFetches (n : Nat) (l : List Nat) : (s.leaveBundle n l).mxFetches = s.mxFetches := rfl
@[simp] theorem State.leaveBundle_spawnServed (n : Nat) (l : List Nat) : (s.leaveBundle n l).spawnServed = s.spawnServed := rfl
@[simp] theorem State.leaveBundle_events (n : Nat) (l : List Nat) : (s.leaveBundle n l).events = s.events := rfl
@[simp] theorem State.leaveBundle_deferred (n : Nat) (l : List Nat) : (s.leaveBundle n l).deferred = s.deferred := rfl
@[simp] theorem State.leaveBundle_groups (n : Nat) (l : List Nat) : (s.leaveBundle n l).groups = s.groups := rfl
@[simp] theorem State.leaveBundle_nextGroup (n : Nat) (l : List Nat) : (s.leaveBundle n l).nextGroup = s.nextGroup := rfl
@[simp] theorem State.leaveBundle_faultBase (n : Nat) (l : List Nat) : (s.leaveBundle n l).faultBase = s.faultBase := rfl
@[simp] theorem State.leaveBundle_faultFree (n : Nat) (l : List Nat) : (s.leaveBundle n l).faultFree = s.faultFree := rfl
@[simp] theorem State.leaveBundle_faultSlot (n : Nat) (l : List Nat) : (s.leaveBundle n l).faultSlot = s.faultSlot := rfl
@[simp] theorem State.leaveBundle_handles (n : Nat) (l : List Nat) : (s.leaveBundle n l).handles = s.handles := rfl
@[simp] theorem State.leaveBundle_imageFiles (n : Nat) (l : List Nat) : (s.leaveBundle n l).imageFiles = s.imageFiles := rfl
@[simp] theorem State.leaveBundle_msix (n : Nat) (l : List Nat) : (s.leaveBundle n l).msix = s.msix := rfl
@[simp] theorem State.leaveBundle_msixTable (n : Nat) (l : List Nat) : (s.leaveBundle n l).msixTable = s.msixTable := rfl
@[simp] theorem State.leaveBundle_window (n : Nat) (l : List Nat) : (s.leaveBundle n l).window = s.window := rfl
@[simp] theorem State.leaveBundle_collMsgs (n : Nat) (l : List Nat) : (s.leaveBundle n l).collMsgs = s.collMsgs := rfl
@[simp] theorem State.leaveBundle_walkCfg (n : Nat) (l : List Nat) : (s.leaveBundle n l).walkCfg = s.walkCfg := rfl
@[simp] theorem State.leaveBundle_walkCode (n : Nat) (l : List Nat) : (s.leaveBundle n l).walkCode = s.walkCode := rfl
@[simp] theorem State.leaveBundle_shootBusy (n : Nat) (l : List Nat) : (s.leaveBundle n l).shootBusy = s.shootBusy := rfl
@[simp] theorem State.leaveBundle_shoot (n : Nat) (l : List Nat) : (s.leaveBundle n l).shoot = s.shoot := rfl
@[simp] theorem State.leaveBundle_hintBase (n : Nat) (l : List Nat) : (s.leaveBundle n l).hintBase = s.hintBase := rfl
@[simp] theorem State.leaveBundle_hintDrop (n : Nat) (l : List Nat) : (s.leaveBundle n l).hintDrop = s.hintDrop := rfl
@[simp] theorem State.leaveBundle_hintHead (n : Nat) (l : List Nat) : (s.leaveBundle n l).hintHead = s.hintHead := rfl
@[simp] theorem State.leaveBundle_hintTail (n : Nat) (l : List Nat) : (s.leaveBundle n l).hintTail = s.hintTail := rfl
@[simp] theorem State.leaveBundle_swapThr (n : Nat) (l : List Nat) : (s.leaveBundle n l).swapThr = s.swapThr := rfl
@[simp] theorem State.leaveBundle_dies (n : Nat) (l : List Nat) : (s.leaveBundle n l).dies = s.dies := rfl
@[simp] theorem State.leaveBundle_segments (n : Nat) (l : List Nat) : (s.leaveBundle n l).segments = s.segments := rfl
@[simp] theorem State.leaveBundle_nextSegment (n : Nat) (l : List Nat) : (s.leaveBundle n l).nextSegment = s.nextSegment := rfl
@[simp] theorem State.leaveBundle_seqNums (n : Nat) (l : List Nat) : (s.leaveBundle n l).seqNums = s.seqNums := rfl
@[simp] theorem State.leaveBundle_regions (n : Nat) (l : List Nat) : (s.leaveBundle n l).regions = s.regions := rfl
@[simp] theorem State.leaveBundle_flowStat (n : Nat) (l : List Nat) : (s.leaveBundle n l).flowStat = s.flowStat := rfl
@[simp] theorem State.leaveBundle_heldReds (n : Nat) (l : List Nat) : (s.leaveBundle n l).heldReds = s.heldReds := rfl
@[simp] theorem State.leaveBundle_vacate (n : Nat) (l : List Nat) : (s.leaveBundle n l).vacate = s.vacate := rfl
@[simp] theorem State.leaveBundle_preempt (n : Nat) (l : List Nat) : (s.leaveBundle n l).preempt = s.preempt := rfl
@[simp] theorem State.leaveBundle_callBusy (n : Nat) (l : List Nat) : (s.leaveBundle n l).callBusy = s.callBusy := rfl
@[simp] theorem State.leaveBundle_callErr (n : Nat) (l : List Nat) : (s.leaveBundle n l).callErr = s.callErr := rfl
@[simp] theorem State.leaveBundle_call (n : Nat) (l : List Nat) : (s.leaveBundle n l).call = s.call := rfl
@[simp] theorem State.leaveBundle_focusTeam (n : Nat) (l : List Nat) : (s.leaveBundle n l).focusTeam = s.focusTeam := rfl
@[simp] theorem State.leaveBundle_focusTid (n : Nat) (l : List Nat) : (s.leaveBundle n l).focusTid = s.focusTid := rfl
@[simp] theorem State.leaveBundle_signer (n : Nat) (l : List Nat) : (s.leaveBundle n l).signer = s.signer := rfl
@[simp] theorem State.leaveBundle_islands (n : Nat) (l : List Nat) : (s.leaveBundle n l).islands = s.islands := rfl
@[simp] theorem State.leaveBundle_slewLim (n : Nat) (l : List Nat) : (s.leaveBundle n l).slewLim = s.slewLim := rfl
@[simp] theorem State.leaveBundle_boot (n : Nat) (l : List Nat) : (s.leaveBundle n l).boot = s.boot := rfl
@[simp] theorem State.leaveBundle_coord (n : Nat) (l : List Nat) : (s.leaveBundle n l).coord = s.coord := rfl
@[simp] theorem State.leaveBundle_frozen (n : Nat) (l : List Nat) : (s.leaveBundle n l).frozen = s.frozen := rfl
@[simp] theorem State.leaveBundle_powered (n : Nat) (l : List Nat) : (s.leaveBundle n l).powered = s.powered := rfl
@[simp] theorem State.leaveBundle_silent (n : Nat) (l : List Nat) : (s.leaveBundle n l).silent = s.silent := rfl
@[simp] theorem State.leaveBundle_ticks (n : Nat) (l : List Nat) : (s.leaveBundle n l).ticks = s.ticks := rfl
@[simp] theorem State.leaveBundle_eighth (n : Nat) (l : List Nat) : (s.leaveBundle n l).eighth = s.eighth := rfl
@[simp] theorem State.leaveBundle_agenda (n : Nat) (l : List Nat) : (s.leaveBundle n l).agenda = s.agenda := rfl
@[simp] theorem State.leaveBundle_free (n : Nat) (l : List Nat) : (s.leaveBundle n l).free = s.free := rfl

/-! ## modLaunch -/

@[simp] theorem State.modLaunch_mem (c n : Nat) (f : Launch → Launch) : (s.modLaunch c n f).mem = s.mem := rfl
@[simp] theorem State.modLaunch_descs (c n : Nat) (f : Launch → Launch) : (s.modLaunch c n f).descs = s.descs := rfl
@[simp] theorem State.modLaunch_poison (c n : Nat) (f : Launch → Launch) : (s.modLaunch c n f).poison = s.poison := rfl
@[simp] theorem State.modLaunch_peerMem (c n : Nat) (f : Launch → Launch) : (s.modLaunch c n f).peerMem = s.peerMem := rfl
@[simp] theorem State.modLaunch_peerDescs (c n : Nat) (f : Launch → Launch) : (s.modLaunch c n f).peerDescs = s.peerDescs := rfl
@[simp] theorem State.modLaunch_peerPoison (c n : Nat) (f : Launch → Launch) : (s.modLaunch c n f).peerPoison = s.peerPoison := rfl
@[simp] theorem State.modLaunch_portCap (c n : Nat) (f : Launch → Launch) : (s.modLaunch c n f).portCap = s.portCap := rfl
@[simp] theorem State.modLaunch_teams (c n : Nat) (f : Launch → Launch) : (s.modLaunch c n f).teams = s.teams := rfl
@[simp] theorem State.modLaunch_bundles (c n : Nat) (f : Launch → Launch) : (s.modLaunch c n f).bundles = s.bundles := rfl
@[simp] theorem State.modLaunch_nextBundle (c n : Nat) (f : Launch → Launch) : (s.modLaunch c n f).nextBundle = s.nextBundle := rfl
@[simp] theorem State.modLaunch_focus (c n : Nat) (f : Launch → Launch) : (s.modLaunch c n f).focus = s.focus := rfl
@[simp] theorem State.modLaunch_icache (c n : Nat) (f : Launch → Launch) : (s.modLaunch c n f).icache = s.icache := rfl
@[simp] theorem State.modLaunch_cores (c n : Nat) (f : Launch → Launch) : (s.modLaunch c n f).cores = s.cores := rfl
@[simp] theorem State.modLaunch_pairs (c n : Nat) (f : Launch → Launch) : (s.modLaunch c n f).pairs = s.pairs := rfl
@[simp] theorem State.modLaunch_board (c n : Nat) (f : Launch → Launch) : (s.modLaunch c n f).board = s.board := rfl
@[simp] theorem State.modLaunch_moves (c n : Nat) (f : Launch → Launch) : (s.modLaunch c n f).moves = s.moves := rfl
@[simp] theorem State.modLaunch_nextOp (c n : Nat) (f : Launch → Launch) : (s.modLaunch c n f).nextOp = s.nextOp := rfl
@[simp] theorem State.modLaunch_derived (c n : Nat) (f : Launch → Launch) : (s.modLaunch c n f).derived = s.derived := rfl
@[simp] theorem State.modLaunch_queues (c n : Nat) (f : Launch → Launch) : (s.modLaunch c n f).queues = s.queues := rfl
@[simp] theorem State.modLaunch_ctxs (c n : Nat) (f : Launch → Launch) : (s.modLaunch c n f).ctxs = s.ctxs := rfl
@[simp] theorem State.modLaunch_packets (c n : Nat) (f : Launch → Launch) : (s.modLaunch c n f).packets = s.packets := rfl
@[simp] theorem State.modLaunch_pods (c n : Nat) (f : Launch → Launch) : (s.modLaunch c n f).pods = s.pods := rfl
@[simp] theorem State.modLaunch_reuse (c n : Nat) (f : Launch → Launch) : (s.modLaunch c n f).reuse = s.reuse := rfl
@[simp] theorem State.modLaunch_digests (c n : Nat) (f : Launch → Launch) : (s.modLaunch c n f).digests = s.digests := rfl
@[simp] theorem State.modLaunch_served (c n : Nat) (f : Launch → Launch) : (s.modLaunch c n f).served = s.served := rfl
@[simp] theorem State.modLaunch_mxFetches (c n : Nat) (f : Launch → Launch) : (s.modLaunch c n f).mxFetches = s.mxFetches := rfl
@[simp] theorem State.modLaunch_spawnServed (c n : Nat) (f : Launch → Launch) : (s.modLaunch c n f).spawnServed = s.spawnServed := rfl
@[simp] theorem State.modLaunch_events (c n : Nat) (f : Launch → Launch) : (s.modLaunch c n f).events = s.events := rfl
@[simp] theorem State.modLaunch_deferred (c n : Nat) (f : Launch → Launch) : (s.modLaunch c n f).deferred = s.deferred := rfl
@[simp] theorem State.modLaunch_groups (c n : Nat) (f : Launch → Launch) : (s.modLaunch c n f).groups = s.groups := rfl
@[simp] theorem State.modLaunch_nextGroup (c n : Nat) (f : Launch → Launch) : (s.modLaunch c n f).nextGroup = s.nextGroup := rfl
@[simp] theorem State.modLaunch_faultBase (c n : Nat) (f : Launch → Launch) : (s.modLaunch c n f).faultBase = s.faultBase := rfl
@[simp] theorem State.modLaunch_faultFree (c n : Nat) (f : Launch → Launch) : (s.modLaunch c n f).faultFree = s.faultFree := rfl
@[simp] theorem State.modLaunch_faultSlot (c n : Nat) (f : Launch → Launch) : (s.modLaunch c n f).faultSlot = s.faultSlot := rfl
@[simp] theorem State.modLaunch_handles (c n : Nat) (f : Launch → Launch) : (s.modLaunch c n f).handles = s.handles := rfl
@[simp] theorem State.modLaunch_imageFiles (c n : Nat) (f : Launch → Launch) : (s.modLaunch c n f).imageFiles = s.imageFiles := rfl
@[simp] theorem State.modLaunch_msix (c n : Nat) (f : Launch → Launch) : (s.modLaunch c n f).msix = s.msix := rfl
@[simp] theorem State.modLaunch_msixTable (c n : Nat) (f : Launch → Launch) : (s.modLaunch c n f).msixTable = s.msixTable := rfl
@[simp] theorem State.modLaunch_window (c n : Nat) (f : Launch → Launch) : (s.modLaunch c n f).window = s.window := rfl
@[simp] theorem State.modLaunch_collMsgs (c n : Nat) (f : Launch → Launch) : (s.modLaunch c n f).collMsgs = s.collMsgs := rfl
@[simp] theorem State.modLaunch_walkCfg (c n : Nat) (f : Launch → Launch) : (s.modLaunch c n f).walkCfg = s.walkCfg := rfl
@[simp] theorem State.modLaunch_walkCode (c n : Nat) (f : Launch → Launch) : (s.modLaunch c n f).walkCode = s.walkCode := rfl
@[simp] theorem State.modLaunch_shootBusy (c n : Nat) (f : Launch → Launch) : (s.modLaunch c n f).shootBusy = s.shootBusy := rfl
@[simp] theorem State.modLaunch_shoot (c n : Nat) (f : Launch → Launch) : (s.modLaunch c n f).shoot = s.shoot := rfl
@[simp] theorem State.modLaunch_hintBase (c n : Nat) (f : Launch → Launch) : (s.modLaunch c n f).hintBase = s.hintBase := rfl
@[simp] theorem State.modLaunch_hintDrop (c n : Nat) (f : Launch → Launch) : (s.modLaunch c n f).hintDrop = s.hintDrop := rfl
@[simp] theorem State.modLaunch_hintHead (c n : Nat) (f : Launch → Launch) : (s.modLaunch c n f).hintHead = s.hintHead := rfl
@[simp] theorem State.modLaunch_hintTail (c n : Nat) (f : Launch → Launch) : (s.modLaunch c n f).hintTail = s.hintTail := rfl
@[simp] theorem State.modLaunch_swapThr (c n : Nat) (f : Launch → Launch) : (s.modLaunch c n f).swapThr = s.swapThr := rfl
@[simp] theorem State.modLaunch_dies (c n : Nat) (f : Launch → Launch) : (s.modLaunch c n f).dies = s.dies := rfl
@[simp] theorem State.modLaunch_segments (c n : Nat) (f : Launch → Launch) : (s.modLaunch c n f).segments = s.segments := rfl
@[simp] theorem State.modLaunch_nextSegment (c n : Nat) (f : Launch → Launch) : (s.modLaunch c n f).nextSegment = s.nextSegment := rfl
@[simp] theorem State.modLaunch_seqNums (c n : Nat) (f : Launch → Launch) : (s.modLaunch c n f).seqNums = s.seqNums := rfl
@[simp] theorem State.modLaunch_regions (c n : Nat) (f : Launch → Launch) : (s.modLaunch c n f).regions = s.regions := rfl
@[simp] theorem State.modLaunch_flowStat (c n : Nat) (f : Launch → Launch) : (s.modLaunch c n f).flowStat = s.flowStat := rfl
@[simp] theorem State.modLaunch_heldReds (c n : Nat) (f : Launch → Launch) : (s.modLaunch c n f).heldReds = s.heldReds := rfl
@[simp] theorem State.modLaunch_vacate (c n : Nat) (f : Launch → Launch) : (s.modLaunch c n f).vacate = s.vacate := rfl
@[simp] theorem State.modLaunch_preempt (c n : Nat) (f : Launch → Launch) : (s.modLaunch c n f).preempt = s.preempt := rfl
@[simp] theorem State.modLaunch_callBusy (c n : Nat) (f : Launch → Launch) : (s.modLaunch c n f).callBusy = s.callBusy := rfl
@[simp] theorem State.modLaunch_callErr (c n : Nat) (f : Launch → Launch) : (s.modLaunch c n f).callErr = s.callErr := rfl
@[simp] theorem State.modLaunch_call (c n : Nat) (f : Launch → Launch) : (s.modLaunch c n f).call = s.call := rfl
@[simp] theorem State.modLaunch_focusTeam (c n : Nat) (f : Launch → Launch) : (s.modLaunch c n f).focusTeam = s.focusTeam := rfl
@[simp] theorem State.modLaunch_focusTid (c n : Nat) (f : Launch → Launch) : (s.modLaunch c n f).focusTid = s.focusTid := rfl
@[simp] theorem State.modLaunch_signer (c n : Nat) (f : Launch → Launch) : (s.modLaunch c n f).signer = s.signer := rfl
@[simp] theorem State.modLaunch_islands (c n : Nat) (f : Launch → Launch) : (s.modLaunch c n f).islands = s.islands := rfl
@[simp] theorem State.modLaunch_slewLim (c n : Nat) (f : Launch → Launch) : (s.modLaunch c n f).slewLim = s.slewLim := rfl
@[simp] theorem State.modLaunch_boot (c n : Nat) (f : Launch → Launch) : (s.modLaunch c n f).boot = s.boot := rfl
@[simp] theorem State.modLaunch_coord (c n : Nat) (f : Launch → Launch) : (s.modLaunch c n f).coord = s.coord := rfl
@[simp] theorem State.modLaunch_frozen (c n : Nat) (f : Launch → Launch) : (s.modLaunch c n f).frozen = s.frozen := rfl
@[simp] theorem State.modLaunch_powered (c n : Nat) (f : Launch → Launch) : (s.modLaunch c n f).powered = s.powered := rfl
@[simp] theorem State.modLaunch_silent (c n : Nat) (f : Launch → Launch) : (s.modLaunch c n f).silent = s.silent := rfl
@[simp] theorem State.modLaunch_ticks (c n : Nat) (f : Launch → Launch) : (s.modLaunch c n f).ticks = s.ticks := rfl
@[simp] theorem State.modLaunch_eighth (c n : Nat) (f : Launch → Launch) : (s.modLaunch c n f).eighth = s.eighth := rfl
@[simp] theorem State.modLaunch_agenda (c n : Nat) (f : Launch → Launch) : (s.modLaunch c n f).agenda = s.agenda := rfl
@[simp] theorem State.modLaunch_free (c n : Nat) (f : Launch → Launch) : (s.modLaunch c n f).free = s.free := rfl

/-! ## modPacket -/

@[simp] theorem State.modPacket_mem (p : PktName) (f : Packet → Packet) : (s.modPacket p f).mem = s.mem := rfl
@[simp] theorem State.modPacket_descs (p : PktName) (f : Packet → Packet) : (s.modPacket p f).descs = s.descs := rfl
@[simp] theorem State.modPacket_poison (p : PktName) (f : Packet → Packet) : (s.modPacket p f).poison = s.poison := rfl
@[simp] theorem State.modPacket_peerMem (p : PktName) (f : Packet → Packet) : (s.modPacket p f).peerMem = s.peerMem := rfl
@[simp] theorem State.modPacket_peerDescs (p : PktName) (f : Packet → Packet) : (s.modPacket p f).peerDescs = s.peerDescs := rfl
@[simp] theorem State.modPacket_peerPoison (p : PktName) (f : Packet → Packet) : (s.modPacket p f).peerPoison = s.peerPoison := rfl
@[simp] theorem State.modPacket_portCap (p : PktName) (f : Packet → Packet) : (s.modPacket p f).portCap = s.portCap := rfl
@[simp] theorem State.modPacket_teams (p : PktName) (f : Packet → Packet) : (s.modPacket p f).teams = s.teams := rfl
@[simp] theorem State.modPacket_bundles (p : PktName) (f : Packet → Packet) : (s.modPacket p f).bundles = s.bundles := rfl
@[simp] theorem State.modPacket_nextBundle (p : PktName) (f : Packet → Packet) : (s.modPacket p f).nextBundle = s.nextBundle := rfl
@[simp] theorem State.modPacket_focus (p : PktName) (f : Packet → Packet) : (s.modPacket p f).focus = s.focus := rfl
@[simp] theorem State.modPacket_icache (p : PktName) (f : Packet → Packet) : (s.modPacket p f).icache = s.icache := rfl
@[simp] theorem State.modPacket_cores (p : PktName) (f : Packet → Packet) : (s.modPacket p f).cores = s.cores := rfl
@[simp] theorem State.modPacket_pairs (p : PktName) (f : Packet → Packet) : (s.modPacket p f).pairs = s.pairs := rfl
@[simp] theorem State.modPacket_board (p : PktName) (f : Packet → Packet) : (s.modPacket p f).board = s.board := rfl
@[simp] theorem State.modPacket_moves (p : PktName) (f : Packet → Packet) : (s.modPacket p f).moves = s.moves := rfl
@[simp] theorem State.modPacket_nextOp (p : PktName) (f : Packet → Packet) : (s.modPacket p f).nextOp = s.nextOp := rfl
@[simp] theorem State.modPacket_derived (p : PktName) (f : Packet → Packet) : (s.modPacket p f).derived = s.derived := rfl
@[simp] theorem State.modPacket_queues (p : PktName) (f : Packet → Packet) : (s.modPacket p f).queues = s.queues := rfl
@[simp] theorem State.modPacket_ctxs (p : PktName) (f : Packet → Packet) : (s.modPacket p f).ctxs = s.ctxs := rfl
@[simp] theorem State.modPacket_pods (p : PktName) (f : Packet → Packet) : (s.modPacket p f).pods = s.pods := rfl
@[simp] theorem State.modPacket_launches (p : PktName) (f : Packet → Packet) : (s.modPacket p f).launches = s.launches := rfl
@[simp] theorem State.modPacket_reuse (p : PktName) (f : Packet → Packet) : (s.modPacket p f).reuse = s.reuse := rfl
@[simp] theorem State.modPacket_digests (p : PktName) (f : Packet → Packet) : (s.modPacket p f).digests = s.digests := rfl
@[simp] theorem State.modPacket_served (p : PktName) (f : Packet → Packet) : (s.modPacket p f).served = s.served := rfl
@[simp] theorem State.modPacket_mxFetches (p : PktName) (f : Packet → Packet) : (s.modPacket p f).mxFetches = s.mxFetches := rfl
@[simp] theorem State.modPacket_spawnServed (p : PktName) (f : Packet → Packet) : (s.modPacket p f).spawnServed = s.spawnServed := rfl
@[simp] theorem State.modPacket_events (p : PktName) (f : Packet → Packet) : (s.modPacket p f).events = s.events := rfl
@[simp] theorem State.modPacket_deferred (p : PktName) (f : Packet → Packet) : (s.modPacket p f).deferred = s.deferred := rfl
@[simp] theorem State.modPacket_groups (p : PktName) (f : Packet → Packet) : (s.modPacket p f).groups = s.groups := rfl
@[simp] theorem State.modPacket_nextGroup (p : PktName) (f : Packet → Packet) : (s.modPacket p f).nextGroup = s.nextGroup := rfl
@[simp] theorem State.modPacket_faultBase (p : PktName) (f : Packet → Packet) : (s.modPacket p f).faultBase = s.faultBase := rfl
@[simp] theorem State.modPacket_faultFree (p : PktName) (f : Packet → Packet) : (s.modPacket p f).faultFree = s.faultFree := rfl
@[simp] theorem State.modPacket_faultSlot (p : PktName) (f : Packet → Packet) : (s.modPacket p f).faultSlot = s.faultSlot := rfl
@[simp] theorem State.modPacket_handles (p : PktName) (f : Packet → Packet) : (s.modPacket p f).handles = s.handles := rfl
@[simp] theorem State.modPacket_imageFiles (p : PktName) (f : Packet → Packet) : (s.modPacket p f).imageFiles = s.imageFiles := rfl
@[simp] theorem State.modPacket_msix (p : PktName) (f : Packet → Packet) : (s.modPacket p f).msix = s.msix := rfl
@[simp] theorem State.modPacket_msixTable (p : PktName) (f : Packet → Packet) : (s.modPacket p f).msixTable = s.msixTable := rfl
@[simp] theorem State.modPacket_window (p : PktName) (f : Packet → Packet) : (s.modPacket p f).window = s.window := rfl
@[simp] theorem State.modPacket_collMsgs (p : PktName) (f : Packet → Packet) : (s.modPacket p f).collMsgs = s.collMsgs := rfl
@[simp] theorem State.modPacket_walkCfg (p : PktName) (f : Packet → Packet) : (s.modPacket p f).walkCfg = s.walkCfg := rfl
@[simp] theorem State.modPacket_walkCode (p : PktName) (f : Packet → Packet) : (s.modPacket p f).walkCode = s.walkCode := rfl
@[simp] theorem State.modPacket_shootBusy (p : PktName) (f : Packet → Packet) : (s.modPacket p f).shootBusy = s.shootBusy := rfl
@[simp] theorem State.modPacket_shoot (p : PktName) (f : Packet → Packet) : (s.modPacket p f).shoot = s.shoot := rfl
@[simp] theorem State.modPacket_hintBase (p : PktName) (f : Packet → Packet) : (s.modPacket p f).hintBase = s.hintBase := rfl
@[simp] theorem State.modPacket_hintDrop (p : PktName) (f : Packet → Packet) : (s.modPacket p f).hintDrop = s.hintDrop := rfl
@[simp] theorem State.modPacket_hintHead (p : PktName) (f : Packet → Packet) : (s.modPacket p f).hintHead = s.hintHead := rfl
@[simp] theorem State.modPacket_hintTail (p : PktName) (f : Packet → Packet) : (s.modPacket p f).hintTail = s.hintTail := rfl
@[simp] theorem State.modPacket_swapThr (p : PktName) (f : Packet → Packet) : (s.modPacket p f).swapThr = s.swapThr := rfl
@[simp] theorem State.modPacket_dies (p : PktName) (f : Packet → Packet) : (s.modPacket p f).dies = s.dies := rfl
@[simp] theorem State.modPacket_segments (p : PktName) (f : Packet → Packet) : (s.modPacket p f).segments = s.segments := rfl
@[simp] theorem State.modPacket_nextSegment (p : PktName) (f : Packet → Packet) : (s.modPacket p f).nextSegment = s.nextSegment := rfl
@[simp] theorem State.modPacket_seqNums (p : PktName) (f : Packet → Packet) : (s.modPacket p f).seqNums = s.seqNums := rfl
@[simp] theorem State.modPacket_regions (p : PktName) (f : Packet → Packet) : (s.modPacket p f).regions = s.regions := rfl
@[simp] theorem State.modPacket_flowStat (p : PktName) (f : Packet → Packet) : (s.modPacket p f).flowStat = s.flowStat := rfl
@[simp] theorem State.modPacket_heldReds (p : PktName) (f : Packet → Packet) : (s.modPacket p f).heldReds = s.heldReds := rfl
@[simp] theorem State.modPacket_vacate (p : PktName) (f : Packet → Packet) : (s.modPacket p f).vacate = s.vacate := rfl
@[simp] theorem State.modPacket_preempt (p : PktName) (f : Packet → Packet) : (s.modPacket p f).preempt = s.preempt := rfl
@[simp] theorem State.modPacket_callBusy (p : PktName) (f : Packet → Packet) : (s.modPacket p f).callBusy = s.callBusy := rfl
@[simp] theorem State.modPacket_callErr (p : PktName) (f : Packet → Packet) : (s.modPacket p f).callErr = s.callErr := rfl
@[simp] theorem State.modPacket_call (p : PktName) (f : Packet → Packet) : (s.modPacket p f).call = s.call := rfl
@[simp] theorem State.modPacket_focusTeam (p : PktName) (f : Packet → Packet) : (s.modPacket p f).focusTeam = s.focusTeam := rfl
@[simp] theorem State.modPacket_focusTid (p : PktName) (f : Packet → Packet) : (s.modPacket p f).focusTid = s.focusTid := rfl
@[simp] theorem State.modPacket_signer (p : PktName) (f : Packet → Packet) : (s.modPacket p f).signer = s.signer := rfl
@[simp] theorem State.modPacket_islands (p : PktName) (f : Packet → Packet) : (s.modPacket p f).islands = s.islands := rfl
@[simp] theorem State.modPacket_slewLim (p : PktName) (f : Packet → Packet) : (s.modPacket p f).slewLim = s.slewLim := rfl
@[simp] theorem State.modPacket_boot (p : PktName) (f : Packet → Packet) : (s.modPacket p f).boot = s.boot := rfl
@[simp] theorem State.modPacket_coord (p : PktName) (f : Packet → Packet) : (s.modPacket p f).coord = s.coord := rfl
@[simp] theorem State.modPacket_frozen (p : PktName) (f : Packet → Packet) : (s.modPacket p f).frozen = s.frozen := rfl
@[simp] theorem State.modPacket_powered (p : PktName) (f : Packet → Packet) : (s.modPacket p f).powered = s.powered := rfl
@[simp] theorem State.modPacket_silent (p : PktName) (f : Packet → Packet) : (s.modPacket p f).silent = s.silent := rfl
@[simp] theorem State.modPacket_ticks (p : PktName) (f : Packet → Packet) : (s.modPacket p f).ticks = s.ticks := rfl
@[simp] theorem State.modPacket_eighth (p : PktName) (f : Packet → Packet) : (s.modPacket p f).eighth = s.eighth := rfl
@[simp] theorem State.modPacket_agenda (p : PktName) (f : Packet → Packet) : (s.modPacket p f).agenda = s.agenda := rfl
@[simp] theorem State.modPacket_free (p : PktName) (f : Packet → Packet) : (s.modPacket p f).free = s.free := rfl

/-! ## modGroup -/

@[simp] theorem State.modGroup_mem (n : Nat) (f : Group → Group) : (s.modGroup n f).mem = s.mem := rfl
@[simp] theorem State.modGroup_descs (n : Nat) (f : Group → Group) : (s.modGroup n f).descs = s.descs := rfl
@[simp] theorem State.modGroup_poison (n : Nat) (f : Group → Group) : (s.modGroup n f).poison = s.poison := rfl
@[simp] theorem State.modGroup_peerMem (n : Nat) (f : Group → Group) : (s.modGroup n f).peerMem = s.peerMem := rfl
@[simp] theorem State.modGroup_peerDescs (n : Nat) (f : Group → Group) : (s.modGroup n f).peerDescs = s.peerDescs := rfl
@[simp] theorem State.modGroup_peerPoison (n : Nat) (f : Group → Group) : (s.modGroup n f).peerPoison = s.peerPoison := rfl
@[simp] theorem State.modGroup_portCap (n : Nat) (f : Group → Group) : (s.modGroup n f).portCap = s.portCap := rfl
@[simp] theorem State.modGroup_teams (n : Nat) (f : Group → Group) : (s.modGroup n f).teams = s.teams := rfl
@[simp] theorem State.modGroup_bundles (n : Nat) (f : Group → Group) : (s.modGroup n f).bundles = s.bundles := rfl
@[simp] theorem State.modGroup_nextBundle (n : Nat) (f : Group → Group) : (s.modGroup n f).nextBundle = s.nextBundle := rfl
@[simp] theorem State.modGroup_focus (n : Nat) (f : Group → Group) : (s.modGroup n f).focus = s.focus := rfl
@[simp] theorem State.modGroup_icache (n : Nat) (f : Group → Group) : (s.modGroup n f).icache = s.icache := rfl
@[simp] theorem State.modGroup_cores (n : Nat) (f : Group → Group) : (s.modGroup n f).cores = s.cores := rfl
@[simp] theorem State.modGroup_pairs (n : Nat) (f : Group → Group) : (s.modGroup n f).pairs = s.pairs := rfl
@[simp] theorem State.modGroup_board (n : Nat) (f : Group → Group) : (s.modGroup n f).board = s.board := rfl
@[simp] theorem State.modGroup_moves (n : Nat) (f : Group → Group) : (s.modGroup n f).moves = s.moves := rfl
@[simp] theorem State.modGroup_nextOp (n : Nat) (f : Group → Group) : (s.modGroup n f).nextOp = s.nextOp := rfl
@[simp] theorem State.modGroup_derived (n : Nat) (f : Group → Group) : (s.modGroup n f).derived = s.derived := rfl
@[simp] theorem State.modGroup_queues (n : Nat) (f : Group → Group) : (s.modGroup n f).queues = s.queues := rfl
@[simp] theorem State.modGroup_ctxs (n : Nat) (f : Group → Group) : (s.modGroup n f).ctxs = s.ctxs := rfl
@[simp] theorem State.modGroup_packets (n : Nat) (f : Group → Group) : (s.modGroup n f).packets = s.packets := rfl
@[simp] theorem State.modGroup_pods (n : Nat) (f : Group → Group) : (s.modGroup n f).pods = s.pods := rfl
@[simp] theorem State.modGroup_launches (n : Nat) (f : Group → Group) : (s.modGroup n f).launches = s.launches := rfl
@[simp] theorem State.modGroup_reuse (n : Nat) (f : Group → Group) : (s.modGroup n f).reuse = s.reuse := rfl
@[simp] theorem State.modGroup_digests (n : Nat) (f : Group → Group) : (s.modGroup n f).digests = s.digests := rfl
@[simp] theorem State.modGroup_served (n : Nat) (f : Group → Group) : (s.modGroup n f).served = s.served := rfl
@[simp] theorem State.modGroup_mxFetches (n : Nat) (f : Group → Group) : (s.modGroup n f).mxFetches = s.mxFetches := rfl
@[simp] theorem State.modGroup_spawnServed (n : Nat) (f : Group → Group) : (s.modGroup n f).spawnServed = s.spawnServed := rfl
@[simp] theorem State.modGroup_events (n : Nat) (f : Group → Group) : (s.modGroup n f).events = s.events := rfl
@[simp] theorem State.modGroup_deferred (n : Nat) (f : Group → Group) : (s.modGroup n f).deferred = s.deferred := rfl
@[simp] theorem State.modGroup_nextGroup (n : Nat) (f : Group → Group) : (s.modGroup n f).nextGroup = s.nextGroup := rfl
@[simp] theorem State.modGroup_faultBase (n : Nat) (f : Group → Group) : (s.modGroup n f).faultBase = s.faultBase := rfl
@[simp] theorem State.modGroup_faultFree (n : Nat) (f : Group → Group) : (s.modGroup n f).faultFree = s.faultFree := rfl
@[simp] theorem State.modGroup_faultSlot (n : Nat) (f : Group → Group) : (s.modGroup n f).faultSlot = s.faultSlot := rfl
@[simp] theorem State.modGroup_handles (n : Nat) (f : Group → Group) : (s.modGroup n f).handles = s.handles := rfl
@[simp] theorem State.modGroup_imageFiles (n : Nat) (f : Group → Group) : (s.modGroup n f).imageFiles = s.imageFiles := rfl
@[simp] theorem State.modGroup_msix (n : Nat) (f : Group → Group) : (s.modGroup n f).msix = s.msix := rfl
@[simp] theorem State.modGroup_msixTable (n : Nat) (f : Group → Group) : (s.modGroup n f).msixTable = s.msixTable := rfl
@[simp] theorem State.modGroup_window (n : Nat) (f : Group → Group) : (s.modGroup n f).window = s.window := rfl
@[simp] theorem State.modGroup_collMsgs (n : Nat) (f : Group → Group) : (s.modGroup n f).collMsgs = s.collMsgs := rfl
@[simp] theorem State.modGroup_walkCfg (n : Nat) (f : Group → Group) : (s.modGroup n f).walkCfg = s.walkCfg := rfl
@[simp] theorem State.modGroup_walkCode (n : Nat) (f : Group → Group) : (s.modGroup n f).walkCode = s.walkCode := rfl
@[simp] theorem State.modGroup_shootBusy (n : Nat) (f : Group → Group) : (s.modGroup n f).shootBusy = s.shootBusy := rfl
@[simp] theorem State.modGroup_shoot (n : Nat) (f : Group → Group) : (s.modGroup n f).shoot = s.shoot := rfl
@[simp] theorem State.modGroup_hintBase (n : Nat) (f : Group → Group) : (s.modGroup n f).hintBase = s.hintBase := rfl
@[simp] theorem State.modGroup_hintDrop (n : Nat) (f : Group → Group) : (s.modGroup n f).hintDrop = s.hintDrop := rfl
@[simp] theorem State.modGroup_hintHead (n : Nat) (f : Group → Group) : (s.modGroup n f).hintHead = s.hintHead := rfl
@[simp] theorem State.modGroup_hintTail (n : Nat) (f : Group → Group) : (s.modGroup n f).hintTail = s.hintTail := rfl
@[simp] theorem State.modGroup_swapThr (n : Nat) (f : Group → Group) : (s.modGroup n f).swapThr = s.swapThr := rfl
@[simp] theorem State.modGroup_dies (n : Nat) (f : Group → Group) : (s.modGroup n f).dies = s.dies := rfl
@[simp] theorem State.modGroup_segments (n : Nat) (f : Group → Group) : (s.modGroup n f).segments = s.segments := rfl
@[simp] theorem State.modGroup_nextSegment (n : Nat) (f : Group → Group) : (s.modGroup n f).nextSegment = s.nextSegment := rfl
@[simp] theorem State.modGroup_seqNums (n : Nat) (f : Group → Group) : (s.modGroup n f).seqNums = s.seqNums := rfl
@[simp] theorem State.modGroup_regions (n : Nat) (f : Group → Group) : (s.modGroup n f).regions = s.regions := rfl
@[simp] theorem State.modGroup_flowStat (n : Nat) (f : Group → Group) : (s.modGroup n f).flowStat = s.flowStat := rfl
@[simp] theorem State.modGroup_heldReds (n : Nat) (f : Group → Group) : (s.modGroup n f).heldReds = s.heldReds := rfl
@[simp] theorem State.modGroup_vacate (n : Nat) (f : Group → Group) : (s.modGroup n f).vacate = s.vacate := rfl
@[simp] theorem State.modGroup_preempt (n : Nat) (f : Group → Group) : (s.modGroup n f).preempt = s.preempt := rfl
@[simp] theorem State.modGroup_callBusy (n : Nat) (f : Group → Group) : (s.modGroup n f).callBusy = s.callBusy := rfl
@[simp] theorem State.modGroup_callErr (n : Nat) (f : Group → Group) : (s.modGroup n f).callErr = s.callErr := rfl
@[simp] theorem State.modGroup_call (n : Nat) (f : Group → Group) : (s.modGroup n f).call = s.call := rfl
@[simp] theorem State.modGroup_focusTeam (n : Nat) (f : Group → Group) : (s.modGroup n f).focusTeam = s.focusTeam := rfl
@[simp] theorem State.modGroup_focusTid (n : Nat) (f : Group → Group) : (s.modGroup n f).focusTid = s.focusTid := rfl
@[simp] theorem State.modGroup_signer (n : Nat) (f : Group → Group) : (s.modGroup n f).signer = s.signer := rfl
@[simp] theorem State.modGroup_islands (n : Nat) (f : Group → Group) : (s.modGroup n f).islands = s.islands := rfl
@[simp] theorem State.modGroup_slewLim (n : Nat) (f : Group → Group) : (s.modGroup n f).slewLim = s.slewLim := rfl
@[simp] theorem State.modGroup_boot (n : Nat) (f : Group → Group) : (s.modGroup n f).boot = s.boot := rfl
@[simp] theorem State.modGroup_coord (n : Nat) (f : Group → Group) : (s.modGroup n f).coord = s.coord := rfl
@[simp] theorem State.modGroup_frozen (n : Nat) (f : Group → Group) : (s.modGroup n f).frozen = s.frozen := rfl
@[simp] theorem State.modGroup_powered (n : Nat) (f : Group → Group) : (s.modGroup n f).powered = s.powered := rfl
@[simp] theorem State.modGroup_silent (n : Nat) (f : Group → Group) : (s.modGroup n f).silent = s.silent := rfl
@[simp] theorem State.modGroup_ticks (n : Nat) (f : Group → Group) : (s.modGroup n f).ticks = s.ticks := rfl
@[simp] theorem State.modGroup_eighth (n : Nat) (f : Group → Group) : (s.modGroup n f).eighth = s.eighth := rfl
@[simp] theorem State.modGroup_agenda (n : Nat) (f : Group → Group) : (s.modGroup n f).agenda = s.agenda := rfl
@[simp] theorem State.modGroup_free (n : Nat) (f : Group → Group) : (s.modGroup n f).free = s.free := rfl

/-! ## modMove -/

@[simp] theorem State.modMove_mem (n : Nat) (f : Move → Move) : (s.modMove n f).mem = s.mem := rfl
@[simp] theorem State.modMove_descs (n : Nat) (f : Move → Move) : (s.modMove n f).descs = s.descs := rfl
@[simp] theorem State.modMove_poison (n : Nat) (f : Move → Move) : (s.modMove n f).poison = s.poison := rfl
@[simp] theorem State.modMove_peerMem (n : Nat) (f : Move → Move) : (s.modMove n f).peerMem = s.peerMem := rfl
@[simp] theorem State.modMove_peerDescs (n : Nat) (f : Move → Move) : (s.modMove n f).peerDescs = s.peerDescs := rfl
@[simp] theorem State.modMove_peerPoison (n : Nat) (f : Move → Move) : (s.modMove n f).peerPoison = s.peerPoison := rfl
@[simp] theorem State.modMove_portCap (n : Nat) (f : Move → Move) : (s.modMove n f).portCap = s.portCap := rfl
@[simp] theorem State.modMove_teams (n : Nat) (f : Move → Move) : (s.modMove n f).teams = s.teams := rfl
@[simp] theorem State.modMove_bundles (n : Nat) (f : Move → Move) : (s.modMove n f).bundles = s.bundles := rfl
@[simp] theorem State.modMove_nextBundle (n : Nat) (f : Move → Move) : (s.modMove n f).nextBundle = s.nextBundle := rfl
@[simp] theorem State.modMove_focus (n : Nat) (f : Move → Move) : (s.modMove n f).focus = s.focus := rfl
@[simp] theorem State.modMove_icache (n : Nat) (f : Move → Move) : (s.modMove n f).icache = s.icache := rfl
@[simp] theorem State.modMove_cores (n : Nat) (f : Move → Move) : (s.modMove n f).cores = s.cores := rfl
@[simp] theorem State.modMove_pairs (n : Nat) (f : Move → Move) : (s.modMove n f).pairs = s.pairs := rfl
@[simp] theorem State.modMove_board (n : Nat) (f : Move → Move) : (s.modMove n f).board = s.board := rfl
@[simp] theorem State.modMove_nextOp (n : Nat) (f : Move → Move) : (s.modMove n f).nextOp = s.nextOp := rfl
@[simp] theorem State.modMove_derived (n : Nat) (f : Move → Move) : (s.modMove n f).derived = s.derived := rfl
@[simp] theorem State.modMove_queues (n : Nat) (f : Move → Move) : (s.modMove n f).queues = s.queues := rfl
@[simp] theorem State.modMove_ctxs (n : Nat) (f : Move → Move) : (s.modMove n f).ctxs = s.ctxs := rfl
@[simp] theorem State.modMove_packets (n : Nat) (f : Move → Move) : (s.modMove n f).packets = s.packets := rfl
@[simp] theorem State.modMove_pods (n : Nat) (f : Move → Move) : (s.modMove n f).pods = s.pods := rfl
@[simp] theorem State.modMove_launches (n : Nat) (f : Move → Move) : (s.modMove n f).launches = s.launches := rfl
@[simp] theorem State.modMove_reuse (n : Nat) (f : Move → Move) : (s.modMove n f).reuse = s.reuse := rfl
@[simp] theorem State.modMove_digests (n : Nat) (f : Move → Move) : (s.modMove n f).digests = s.digests := rfl
@[simp] theorem State.modMove_served (n : Nat) (f : Move → Move) : (s.modMove n f).served = s.served := rfl
@[simp] theorem State.modMove_mxFetches (n : Nat) (f : Move → Move) : (s.modMove n f).mxFetches = s.mxFetches := rfl
@[simp] theorem State.modMove_spawnServed (n : Nat) (f : Move → Move) : (s.modMove n f).spawnServed = s.spawnServed := rfl
@[simp] theorem State.modMove_events (n : Nat) (f : Move → Move) : (s.modMove n f).events = s.events := rfl
@[simp] theorem State.modMove_deferred (n : Nat) (f : Move → Move) : (s.modMove n f).deferred = s.deferred := rfl
@[simp] theorem State.modMove_groups (n : Nat) (f : Move → Move) : (s.modMove n f).groups = s.groups := rfl
@[simp] theorem State.modMove_nextGroup (n : Nat) (f : Move → Move) : (s.modMove n f).nextGroup = s.nextGroup := rfl
@[simp] theorem State.modMove_faultBase (n : Nat) (f : Move → Move) : (s.modMove n f).faultBase = s.faultBase := rfl
@[simp] theorem State.modMove_faultFree (n : Nat) (f : Move → Move) : (s.modMove n f).faultFree = s.faultFree := rfl
@[simp] theorem State.modMove_faultSlot (n : Nat) (f : Move → Move) : (s.modMove n f).faultSlot = s.faultSlot := rfl
@[simp] theorem State.modMove_handles (n : Nat) (f : Move → Move) : (s.modMove n f).handles = s.handles := rfl
@[simp] theorem State.modMove_imageFiles (n : Nat) (f : Move → Move) : (s.modMove n f).imageFiles = s.imageFiles := rfl
@[simp] theorem State.modMove_msix (n : Nat) (f : Move → Move) : (s.modMove n f).msix = s.msix := rfl
@[simp] theorem State.modMove_msixTable (n : Nat) (f : Move → Move) : (s.modMove n f).msixTable = s.msixTable := rfl
@[simp] theorem State.modMove_window (n : Nat) (f : Move → Move) : (s.modMove n f).window = s.window := rfl
@[simp] theorem State.modMove_collMsgs (n : Nat) (f : Move → Move) : (s.modMove n f).collMsgs = s.collMsgs := rfl
@[simp] theorem State.modMove_walkCfg (n : Nat) (f : Move → Move) : (s.modMove n f).walkCfg = s.walkCfg := rfl
@[simp] theorem State.modMove_walkCode (n : Nat) (f : Move → Move) : (s.modMove n f).walkCode = s.walkCode := rfl
@[simp] theorem State.modMove_shootBusy (n : Nat) (f : Move → Move) : (s.modMove n f).shootBusy = s.shootBusy := rfl
@[simp] theorem State.modMove_shoot (n : Nat) (f : Move → Move) : (s.modMove n f).shoot = s.shoot := rfl
@[simp] theorem State.modMove_hintBase (n : Nat) (f : Move → Move) : (s.modMove n f).hintBase = s.hintBase := rfl
@[simp] theorem State.modMove_hintDrop (n : Nat) (f : Move → Move) : (s.modMove n f).hintDrop = s.hintDrop := rfl
@[simp] theorem State.modMove_hintHead (n : Nat) (f : Move → Move) : (s.modMove n f).hintHead = s.hintHead := rfl
@[simp] theorem State.modMove_hintTail (n : Nat) (f : Move → Move) : (s.modMove n f).hintTail = s.hintTail := rfl
@[simp] theorem State.modMove_swapThr (n : Nat) (f : Move → Move) : (s.modMove n f).swapThr = s.swapThr := rfl
@[simp] theorem State.modMove_dies (n : Nat) (f : Move → Move) : (s.modMove n f).dies = s.dies := rfl
@[simp] theorem State.modMove_segments (n : Nat) (f : Move → Move) : (s.modMove n f).segments = s.segments := rfl
@[simp] theorem State.modMove_nextSegment (n : Nat) (f : Move → Move) : (s.modMove n f).nextSegment = s.nextSegment := rfl
@[simp] theorem State.modMove_seqNums (n : Nat) (f : Move → Move) : (s.modMove n f).seqNums = s.seqNums := rfl
@[simp] theorem State.modMove_regions (n : Nat) (f : Move → Move) : (s.modMove n f).regions = s.regions := rfl
@[simp] theorem State.modMove_flowStat (n : Nat) (f : Move → Move) : (s.modMove n f).flowStat = s.flowStat := rfl
@[simp] theorem State.modMove_heldReds (n : Nat) (f : Move → Move) : (s.modMove n f).heldReds = s.heldReds := rfl
@[simp] theorem State.modMove_vacate (n : Nat) (f : Move → Move) : (s.modMove n f).vacate = s.vacate := rfl
@[simp] theorem State.modMove_preempt (n : Nat) (f : Move → Move) : (s.modMove n f).preempt = s.preempt := rfl
@[simp] theorem State.modMove_callBusy (n : Nat) (f : Move → Move) : (s.modMove n f).callBusy = s.callBusy := rfl
@[simp] theorem State.modMove_callErr (n : Nat) (f : Move → Move) : (s.modMove n f).callErr = s.callErr := rfl
@[simp] theorem State.modMove_call (n : Nat) (f : Move → Move) : (s.modMove n f).call = s.call := rfl
@[simp] theorem State.modMove_focusTeam (n : Nat) (f : Move → Move) : (s.modMove n f).focusTeam = s.focusTeam := rfl
@[simp] theorem State.modMove_focusTid (n : Nat) (f : Move → Move) : (s.modMove n f).focusTid = s.focusTid := rfl
@[simp] theorem State.modMove_signer (n : Nat) (f : Move → Move) : (s.modMove n f).signer = s.signer := rfl
@[simp] theorem State.modMove_islands (n : Nat) (f : Move → Move) : (s.modMove n f).islands = s.islands := rfl
@[simp] theorem State.modMove_slewLim (n : Nat) (f : Move → Move) : (s.modMove n f).slewLim = s.slewLim := rfl
@[simp] theorem State.modMove_boot (n : Nat) (f : Move → Move) : (s.modMove n f).boot = s.boot := rfl
@[simp] theorem State.modMove_coord (n : Nat) (f : Move → Move) : (s.modMove n f).coord = s.coord := rfl
@[simp] theorem State.modMove_frozen (n : Nat) (f : Move → Move) : (s.modMove n f).frozen = s.frozen := rfl
@[simp] theorem State.modMove_powered (n : Nat) (f : Move → Move) : (s.modMove n f).powered = s.powered := rfl
@[simp] theorem State.modMove_silent (n : Nat) (f : Move → Move) : (s.modMove n f).silent = s.silent := rfl
@[simp] theorem State.modMove_ticks (n : Nat) (f : Move → Move) : (s.modMove n f).ticks = s.ticks := rfl
@[simp] theorem State.modMove_eighth (n : Nat) (f : Move → Move) : (s.modMove n f).eighth = s.eighth := rfl
@[simp] theorem State.modMove_agenda (n : Nat) (f : Move → Move) : (s.modMove n f).agenda = s.agenda := rfl
@[simp] theorem State.modMove_free (n : Nat) (f : Move → Move) : (s.modMove n f).free = s.free := rfl

/-! ## wake -/

@[simp] theorem State.wake_mem : s.wake.mem = s.mem := rfl
@[simp] theorem State.wake_descs : s.wake.descs = s.descs := rfl
@[simp] theorem State.wake_poison : s.wake.poison = s.poison := rfl
@[simp] theorem State.wake_peerMem : s.wake.peerMem = s.peerMem := rfl
@[simp] theorem State.wake_peerDescs : s.wake.peerDescs = s.peerDescs := rfl
@[simp] theorem State.wake_peerPoison : s.wake.peerPoison = s.peerPoison := rfl
@[simp] theorem State.wake_portCap : s.wake.portCap = s.portCap := rfl
@[simp] theorem State.wake_teams : s.wake.teams = s.teams := rfl
@[simp] theorem State.wake_nextBundle : s.wake.nextBundle = s.nextBundle := rfl
@[simp] theorem State.wake_focus : s.wake.focus = s.focus := rfl
@[simp] theorem State.wake_icache : s.wake.icache = s.icache := rfl
@[simp] theorem State.wake_cores : s.wake.cores = s.cores := rfl
@[simp] theorem State.wake_pairs : s.wake.pairs = s.pairs := rfl
@[simp] theorem State.wake_board : s.wake.board = s.board := rfl
@[simp] theorem State.wake_moves : s.wake.moves = s.moves := rfl
@[simp] theorem State.wake_nextOp : s.wake.nextOp = s.nextOp := rfl
@[simp] theorem State.wake_derived : s.wake.derived = s.derived := rfl
@[simp] theorem State.wake_queues : s.wake.queues = s.queues := rfl
@[simp] theorem State.wake_ctxs : s.wake.ctxs = s.ctxs := rfl
@[simp] theorem State.wake_packets : s.wake.packets = s.packets := rfl
@[simp] theorem State.wake_pods : s.wake.pods = s.pods := rfl
@[simp] theorem State.wake_launches : s.wake.launches = s.launches := rfl
@[simp] theorem State.wake_reuse : s.wake.reuse = s.reuse := rfl
@[simp] theorem State.wake_digests : s.wake.digests = s.digests := rfl
@[simp] theorem State.wake_served : s.wake.served = s.served := rfl
@[simp] theorem State.wake_mxFetches : s.wake.mxFetches = s.mxFetches := rfl
@[simp] theorem State.wake_spawnServed : s.wake.spawnServed = s.spawnServed := rfl
@[simp] theorem State.wake_events : s.wake.events = s.events := rfl
@[simp] theorem State.wake_deferred : s.wake.deferred = s.deferred := rfl
@[simp] theorem State.wake_groups : s.wake.groups = s.groups := rfl
@[simp] theorem State.wake_nextGroup : s.wake.nextGroup = s.nextGroup := rfl
@[simp] theorem State.wake_faultBase : s.wake.faultBase = s.faultBase := rfl
@[simp] theorem State.wake_faultFree : s.wake.faultFree = s.faultFree := rfl
@[simp] theorem State.wake_faultSlot : s.wake.faultSlot = s.faultSlot := rfl
@[simp] theorem State.wake_handles : s.wake.handles = s.handles := rfl
@[simp] theorem State.wake_imageFiles : s.wake.imageFiles = s.imageFiles := rfl
@[simp] theorem State.wake_msix : s.wake.msix = s.msix := rfl
@[simp] theorem State.wake_msixTable : s.wake.msixTable = s.msixTable := rfl
@[simp] theorem State.wake_window : s.wake.window = s.window := rfl
@[simp] theorem State.wake_collMsgs : s.wake.collMsgs = s.collMsgs := rfl
@[simp] theorem State.wake_walkCfg : s.wake.walkCfg = s.walkCfg := rfl
@[simp] theorem State.wake_walkCode : s.wake.walkCode = s.walkCode := rfl
@[simp] theorem State.wake_shootBusy : s.wake.shootBusy = s.shootBusy := rfl
@[simp] theorem State.wake_shoot : s.wake.shoot = s.shoot := rfl
@[simp] theorem State.wake_hintBase : s.wake.hintBase = s.hintBase := rfl
@[simp] theorem State.wake_hintDrop : s.wake.hintDrop = s.hintDrop := rfl
@[simp] theorem State.wake_hintHead : s.wake.hintHead = s.hintHead := rfl
@[simp] theorem State.wake_hintTail : s.wake.hintTail = s.hintTail := rfl
@[simp] theorem State.wake_swapThr : s.wake.swapThr = s.swapThr := rfl
@[simp] theorem State.wake_dies : s.wake.dies = s.dies := rfl
@[simp] theorem State.wake_segments : s.wake.segments = s.segments := rfl
@[simp] theorem State.wake_nextSegment : s.wake.nextSegment = s.nextSegment := rfl
@[simp] theorem State.wake_seqNums : s.wake.seqNums = s.seqNums := rfl
@[simp] theorem State.wake_regions : s.wake.regions = s.regions := rfl
@[simp] theorem State.wake_flowStat : s.wake.flowStat = s.flowStat := rfl
@[simp] theorem State.wake_heldReds : s.wake.heldReds = s.heldReds := rfl
@[simp] theorem State.wake_vacate : s.wake.vacate = s.vacate := rfl
@[simp] theorem State.wake_preempt : s.wake.preempt = s.preempt := rfl
@[simp] theorem State.wake_callBusy : s.wake.callBusy = s.callBusy := rfl
@[simp] theorem State.wake_callErr : s.wake.callErr = s.callErr := rfl
@[simp] theorem State.wake_call : s.wake.call = s.call := rfl
@[simp] theorem State.wake_focusTeam : s.wake.focusTeam = s.focusTeam := rfl
@[simp] theorem State.wake_focusTid : s.wake.focusTid = s.focusTid := rfl
@[simp] theorem State.wake_signer : s.wake.signer = s.signer := rfl
@[simp] theorem State.wake_islands : s.wake.islands = s.islands := rfl
@[simp] theorem State.wake_slewLim : s.wake.slewLim = s.slewLim := rfl
@[simp] theorem State.wake_boot : s.wake.boot = s.boot := rfl
@[simp] theorem State.wake_coord : s.wake.coord = s.coord := rfl
@[simp] theorem State.wake_frozen : s.wake.frozen = s.frozen := rfl
@[simp] theorem State.wake_powered : s.wake.powered = s.powered := rfl
@[simp] theorem State.wake_silent : s.wake.silent = s.silent := rfl
@[simp] theorem State.wake_ticks : s.wake.ticks = s.ticks := rfl
@[simp] theorem State.wake_eighth : s.wake.eighth = s.eighth := rfl
@[simp] theorem State.wake_agenda : s.wake.agenda = s.agenda := rfl
@[simp] theorem State.wake_free : s.wake.free = s.free := rfl

end Sys2Proof.Machine
end

