-- ==== Sys2Proof/Laws/Sched.lean ====
section
/-! SUPPORT. Sched.lean: what the scheduling of a team may change: where its threads stand and which bundles there are,
never what a thread, a memory or a unit holds (R112 to R117, R123, R124, R375). -/

namespace Sys2Proof.Machine

/-! ## Lists -/

theorem find?_modWhere {α : Type} (p q : α → Bool) (f : α → α) (hf : ∀ x, q (f x) = q x) (l : List α) :
    (modWhere p f l).find? q = (l.find? q).map fun x => if p x then f x else x := by
  induction l with
  | nil => rfl
  | cons x t ih =>
    have hx : q (if p x = true then f x else x) = q x := by split <;> simp [hf]
    simp only [modWhere, List.map_cons, List.find?_cons] at ih ⊢
    rw [hx]
    cases h : q x
    · simpa using ih
    · simp

theorem find?_of_map {α β : Type} (g : α → β) (q : α → Bool) (r : β → Bool) (hr : ∀ x, r (g x) = q x) (l : List α) :
    (l.map g).find? r = (l.find? q).map g := by
  induction l with
  | nil => rfl
  | cons x t ih =>
    simp only [List.map_cons, List.find?_cons, hr]
    cases h : q x
    · simpa using ih
    · simp

theorem map_modWhere {α β : Type} (p : α → Bool) (f : α → α) (g : α → β) (h : ∀ x, p x = true → g (f x) = g x) (l : List α) :
    (modWhere p f l).map g = l.map g := by
  induction l with
  | nil => rfl
  | cons x t ih =>
    simp only [modWhere, List.map_cons] at ih ⊢
    rw [ih]
    by_cases hp : p x = true
    · simp [hp, h x hp]
    · simp [hp]

/-! ## Finding teams and threads -/

theorem Team.thread?_modThread (t : Team) (i j : Nat) (f : Thread → Thread) (hf : ∀ x, (f x).tid = x.tid) :
    (t.modThread i f).thread? j = if j = i then (t.thread? j).map f else t.thread? j := by
  unfold Team.modThread Team.thread?
  simp only
  rw [find?_modWhere _ _ _ (by intro x; simp [hf])]
  by_cases h : j = i
  · subst h
    simp only [if_true]
    cases hx : t.threads.find? fun x => x.tid == j with
    | none => rfl
    | some x =>
      have := List.find?_some hx
      simp only [Option.map_some, this, if_true]
  · simp only [if_neg h]
    cases hx : t.threads.find? fun x => x.tid == j with
    | none => rfl
    | some x =>
      have := List.find?_some hx
      simp only [beq_iff_eq] at this
      simp [this, h]

theorem State.team?_modTeam (s : State) (k k' : TeamKey) (f : Team → Team) (hf : ∀ t, (f t).key = t.key) :
    (s.modTeam k f).team? k' = if k' = k then (s.team? k').map f else s.team? k' := by
  unfold State.modTeam State.team?
  simp only
  rw [find?_modWhere _ _ _ (by intro x; simp [hf])]
  by_cases h : k' = k
  · subst h
    simp only [if_true]
    cases hx : s.teams.find? fun t => t.key == k' with
    | none => rfl
    | some x =>
      have := List.find?_some hx
      simp only [Option.map_some, this, if_true]
  · simp only [if_neg h]
    cases hx : s.teams.find? fun t => t.key == k' with
    | none => rfl
    | some x =>
      have := List.find?_some hx
      simp only [beq_iff_eq] at this
      simp [this, h]

theorem State.team?_modThread (s : State) (k k' : TeamKey) (i : Nat) (f : Thread → Thread) :
    (s.modThread k i f).team? k' = if k' = k then (s.team? k').map (·.modThread i f) else s.team? k' :=
  s.team?_modTeam k k' _ fun _ => rfl

theorem State.thread?_modThread (s : State) (k k' : TeamKey) (i j : Nat) (f : Thread → Thread) (hf : ∀ x, (f x).tid = x.tid) :
    (s.modThread k i f).thread? k' j = if k' = k ∧ j = i then (s.thread? k' j).map f else s.thread? k' j := by
  unfold State.thread?
  rw [State.team?_modThread]
  by_cases h : k' = k
  · subst h
    simp only [if_true, true_and]
    cases s.team? k' with
    | none => simp
    | some t =>
      simp only [Option.map_some, Option.bind_some]
      rw [Team.thread?_modThread _ _ _ _ hf]
  · simp [h]

theorem State.team?_key {s : State} {k : TeamKey} {t : Team} (h : s.team? k = some t) : t.key = k := by
  have := List.find?_some h
  simpa using this

theorem Team.thread?_tid {t : Team} {i : Nat} {x : Thread} (h : t.thread? i = some x) : x.tid = i := by
  have := List.find?_some h
  simpa using this

@[simp] theorem Thread.data_tid (x : Thread) : x.data.tid = x.tid := rfl
@[simp] theorem Team.data_key (t : Team) : t.data.key = t.key := rfl
@[simp] theorem Team.rest_key (t : Team) : t.rest.key = t.key := rfl

/-! ## Scheduling -/

/-- Every live thread of s is live in t. -/
def Alive (s t : State) : Prop :=
  ∀ k j x, s.thread? k j = some x → x.live = true → ∃ y, t.thread? k j = some y ∧ y.live = true

theorem Alive.refl (s : State) : Alive s s := fun _ _ x h h' => ⟨x, h, h'⟩
theorem Alive.trans {s t u : State} (h : Alive s t) (h' : Alive t u) : Alive s u := fun k j x hx hl => by
  obtain ⟨y, hy, hl'⟩ := h k j x hx hl
  exact h' k j y hy hl'
theorem Alive.of_teams {s t : State} (h : t.teams = s.teams) : Alive s t := fun k j x hx hl => by
  refine ⟨x, ?_, hl⟩
  unfold State.thread? State.team? at *
  rwa [h]
theorem Alive.modThread (s : State) (k : TeamKey) (i : Nat) (f : Thread → Thread) (hf : ∀ x, (f x).tid = x.tid)
    (hl : ∀ x, x.live = true → (f x).live = true) : Alive s (s.modThread k i f) := fun k' j x hx h => by
  rw [State.thread?_modThread _ _ _ _ _ _ hf]
  split
  · exact ⟨f x, by rw [hx]; rfl, hl x h⟩
  · exact ⟨x, hx, h⟩
theorem Alive.modTeam (s : State) (k : TeamKey) (f : Team → Team) (hk : ∀ t, (f t).key = t.key)
    (ht : ∀ t, (f t).threads = t.threads) : Alive s (s.modTeam k f) := fun k' j x hx h => by
  refine ⟨x, ?_, h⟩
  unfold State.thread? at *
  rw [State.team?_modTeam _ _ _ _ hk]
  split
  · cases hs : s.team? k' with
    | none => rw [hs] at hx; exact hx
    | some t =>
      rw [hs] at hx
      simp only [Option.map_some, Option.bind_some] at hx ⊢
      unfold Team.thread? at *
      rwa [ht]
  · exact hx

/-- From s to t only scheduling has happened: the teams are the same but for where their threads stand, and of the cores
only the regroup bins have changed. -/
structure Sched (s t : State) : Prop where
  frame : t = { s with teams := t.teams, bundles := t.bundles, nextBundle := t.nextBundle, cores := t.cores }
  teams : t.teams.map Team.data = s.teams.map Team.data
  cores : swf Core.fresh s.cores = true → swf Core.fresh t.cores = true ∧ ∀ n, (t.core n).rest = (s.core n).rest
  alive : Alive s t

/-- Bundles are only added. -/
def Grows (s t : State) : Prop := ∃ more, t.bundles = s.bundles ++ more

/-- Scheduling that forms bundles and changes none. -/
def SchedGrow (s t : State) : Prop := Sched s t ∧ Grows s t

theorem Sched.refl (s : State) : Sched s s := ⟨rfl, rfl, fun h => ⟨h, fun _ => rfl⟩, .refl s⟩
theorem SchedGrow.refl (s : State) : SchedGrow s s := ⟨.refl s, [], by simp⟩

theorem Sched.trans {s t u : State} (h : Sched s t) (h' : Sched t u) : Sched s u where
  frame := by rw [h'.frame]; conv_lhs => rw [h.frame]
  teams := h'.teams.trans h.teams
  cores hs := ⟨(h'.cores (h.cores hs).1).1, fun n => ((h'.cores (h.cores hs).1).2 n).trans ((h.cores hs).2 n)⟩
  alive := h.alive.trans h'.alive

theorem SchedGrow.trans {s t u : State} (h : SchedGrow s t) (h' : SchedGrow t u) : SchedGrow s u := by
  refine ⟨h.1.trans h'.1, ?_⟩
  obtain ⟨m, hm⟩ := h.2
  obtain ⟨n, hn⟩ := h'.2
  exact ⟨m ++ n, by rw [hn, hm, List.append_assoc]⟩

theorem SchedGrow.foldl {α : Type} (f : State → α → State) (h : ∀ s x, SchedGrow s (f s x)) (l : List α) :
    ∀ s, SchedGrow s (l.foldl f s) := by
  induction l with
  | nil => exact SchedGrow.refl
  | cons x t ih => exact fun s => (h s x).trans (ih _)

/-- The team of a key after scheduling. -/
theorem Sched.team?_data {s t : State} (h : Sched s t) (k : TeamKey) :
    (t.team? k).map Team.data = (s.team? k).map Team.data := by
  unfold State.team?
  rw [← find?_of_map Team.data (fun t => t.key == k) (fun t => t.key == k) (fun _ => rfl),
    ← find?_of_map Team.data (fun t => t.key == k) (fun t => t.key == k) (fun _ => rfl), h.teams]

theorem Team.thread?_data (t : Team) (i : Nat) : t.data.thread? i = (t.thread? i).map Thread.data := by
  unfold Team.thread? Team.data
  exact find?_of_map Thread.data _ _ (fun _ => rfl) _

/-- A thread's data after scheduling. -/
theorem Sched.thread?_data {s t : State} (h : Sched s t) (k : TeamKey) (i : Nat) :
    (t.thread? k i).map Thread.data = (s.thread? k i).map Thread.data := by
  have := h.team?_data k
  unfold State.thread?
  revert this
  cases t.team? k <;> cases s.team? k <;> intro this <;> simp only [Option.map_some, Option.map_none, reduceCtorEq] at this
  · rfl
  · simp only [Option.bind_some]
    rw [← Team.thread?_data, ← Team.thread?_data]
    simp only [Option.some.injEq] at this
    rw [this]

/-- A team's other fields after scheduling. -/
theorem Sched.team?_rest {s t : State} (h : Sched s t) (k : TeamKey) :
    (t.team? k).map Team.rest = (s.team? k).map Team.rest := by
  have := congrArg (Option.map Team.rest) (h.team?_data k)
  rw [Option.map_map, Option.map_map] at this
  exact this

theorem Sched.coreOf {s t : State} (h : Sched s t) (k : TeamKey) : t.coreOf k = s.coreOf k := by
  have := congrArg (Option.map Team.core) (h.team?_rest k)
  simp only [Option.map_map, Function.comp_def, Team.rest] at this
  unfold State.coreOf
  revert this
  cases t.team? k <;> cases s.team? k <;> simp

theorem Sched.cycle {s t : State} (h : Sched s t) (n : Nat) : t.cycle n = s.cycle n := by
  rw [h.frame]; rfl

/-! ## What schedules -/

theorem SchedGrow.modThread (s : State) (k : TeamKey) (i : Nat) (f : Thread → Thread) (hf : ∀ x, (f x).data = x.data)
    (hl : ∀ x, x.live = true → (f x).live = true) : SchedGrow s (s.modThread k i f) := by
  refine ⟨⟨rfl, ?_, fun h => ⟨h, fun _ => rfl⟩, .modThread _ _ _ _ (fun x => (congrArg Thread.tid (hf x) : (f x).data.tid = x.data.tid)) hl⟩, [], by simp⟩
  refine map_modWhere _ _ _ (fun t _ => ?_) _
  unfold Team.data Team.modThread Team.rest
  simp only [Team.mk.injEq, true_and, and_true]
  exact map_modWhere _ _ _ (fun x _ => hf x) _

theorem SchedGrow.modTeam (s : State) (k : TeamKey) (f : Team → Team) (hf : ∀ t, (f t).data = t.data)
    (ht : ∀ t, (f t).threads = t.threads) : SchedGrow s (s.modTeam k f) :=
  ⟨⟨rfl, map_modWhere _ _ _ (fun t _ => hf t) _, fun h => ⟨h, fun _ => rfl⟩,
    .modTeam _ _ _ (fun t => (congrArg Team.key (hf t) : (f t).data.key = t.data.key)) ht⟩, [], by simp⟩

theorem State.core_modCore {s : State} (h : swf Core.fresh s.cores = true) (m n : Nat) (f : Core → Core) :
    (s.modCore m f).core n = if n = m then f (s.core n) else s.core n := by
  unfold State.modCore State.setCore State.core
  by_cases hn : n = m
  · subst hn
    rw [if_pos rfl]
    exact sget_sset_same _ _ _ _ h
  · rw [if_neg hn]
    exact sget_sset_ne _ _ _ h hn

theorem SchedGrow.modCore (s : State) (n : Nat) (f : Core → Core) (hf : ∀ c, (f c).rest = c.rest) :
    SchedGrow s (s.modCore n f) := by
  refine ⟨⟨rfl, rfl, fun h => ⟨swf_sset _ _ _ _ h, fun m => ?_⟩, .of_teams rfl⟩, [], by simp⟩
  rw [State.core_modCore h]
  split
  · exact hf _
  · rfl

theorem SchedGrow.mkBundle (s : State) (k : TeamKey) (tids : List Nat) (pc : Nat) (cl : Option Clause) (met single : Bool) :
    SchedGrow s (s.mkBundle k tids pc cl met single) := by
  unfold State.mkBundle
  split
  · exact .refl s
  · refine (SchedGrow.foldl _ (fun s t =>
      .modThread s k t (fun x => { x with stat := .running, clause := none }) (fun x => rfl) fun x _ => rfl) tids.eraseDups s).trans ?_
    refine (SchedGrow.modTeam _ k (fun t => { t with parkedSince := none }) (fun t => rfl) fun t => rfl).trans ?_
    exact ⟨⟨rfl, rfl, fun h => ⟨h, fun _ => rfl⟩, .of_teams rfl⟩, _, rfl⟩

theorem SchedGrow.coreThread (s : State) (n : Nat) (f : Core → Core) (k : TeamKey) (i : Nat) (g : Thread → Thread)
    (hf : ∀ c, (f c).rest = c.rest) (hg : ∀ x, (g x).data = x.data) (hl : ∀ x, x.live = true → (g x).live = true) :
    SchedGrow s ((s.modCore n f).modThread k i g) :=
  (SchedGrow.modCore s n f hf).trans (.modThread _ k i g hg hl)

theorem SchedGrow.drawBin (s : State) (core : Nat) (b : Bin) : SchedGrow s (s.drawBin core b) := by
  unfold State.drawBin
  simp only
  refine SchedGrow.trans ?_ (.mkBundle _ _ _ _ _ _ _)
  refine SchedGrow.trans ?a (.foldl _ ?b _ _)
  case b => exact fun s t => .modThread _ _ _ _ (fun _ => rfl) fun _ _ => rfl
  exact .modCore _ _ _ fun c => rfl

theorem SchedGrow.fileThread (s : State) (k : TeamKey) (tid pc : Nat) : SchedGrow s (s.fileThread k tid pc) := by
  unfold State.fileThread
  simp only
  split
  · split
    · refine SchedGrow.trans ?_ (.drawBin _ _ _)
      exact .coreThread _ _ _ _ _ _ (fun _ => rfl) (fun _ => rfl) fun _ _ => rfl
    · exact .coreThread _ _ _ _ _ _ (fun _ => rfl) (fun _ => rfl) fun _ _ => rfl
  · have h : SchedGrow s (match freeBin (s.core (s.coreOf k)).bins with
      | some _ => s
      | none => match leastBy (fun a b => decide (a.filed < b.filed)) (s.core (s.coreOf k)).bins with
        | some b => s.drawBin (s.coreOf k) b
        | none => s) := by
      split
      · exact .refl s
      · split
        · exact .drawBin _ _ _
        · exact .refl s
    split
    · exact h
    · refine SchedGrow.trans h ?_
      exact .coreThread _ _ _ _ _ _ (fun _ => rfl) (fun _ => rfl) fun _ _ => rfl

theorem SchedGrow.endThread (s : State) (k : TeamKey) (c : Clause) (tid : Nat) : SchedGrow s (s.endThread k c tid).1 := by
  unfold State.endThread
  split
  · exact .refl s
  · split
    · exact .modThread _ _ _ _ (fun x => rfl) fun x _ => rfl
    · split
      · exact .fileThread _ _ _ _
      · split
        · exact .modThread _ _ _ _ (fun x => rfl) fun x _ => rfl
        · exact .refl s

theorem SchedGrow.endThreads (s : State) (k : TeamKey) (c : Clause) (tids : List Nat) :
    SchedGrow s (s.endThreads k c tids).1 := by
  unfold State.endThreads
  suffices ∀ (l : List Nat) (acc : State × List Nat), SchedGrow s acc.1 → SchedGrow s (l.foldl (fun acc t =>
      ((acc.1.endThread k c t).1, if (acc.1.endThread k c t).2 = true then acc.2 ++ [t] else acc.2)) acc).1 from
    this tids (s, []) (.refl s)
  intro l
  induction l with
  | nil => exact fun acc h => h
  | cons x t ih => exact fun acc h => ih _ (h.trans (.endThread _ _ _ _))

theorem SchedGrow.regroup (s : State) (k : TeamKey) (tids : List Nat) (met single : Bool) :
    SchedGrow s (s.regroup k tids met single) := by
  unfold State.regroup
  refine SchedGrow.foldl _ (fun s part => ?_) _ s
  split
  · exact .refl s
  · simp only
    split
    · exact .mkBundle _ _ _ _ _ _ _
    · split
      · exact (SchedGrow.endThreads _ _ _ _).trans (.mkBundle _ _ _ _ _ _ _)
      · exact .mkBundle _ _ _ _ _ _ _

/-- Releasing parked threads is scheduling. -/
theorem SchedGrow.release (s : State) (k : TeamKey) (tids : List Nat) (back met : Bool) :
    SchedGrow s (s.release k tids back met) := by
  unfold State.release
  simp only
  split
  · exact SchedGrow.trans (.regroup _ _ _ _ _) (.regroup _ _ _ _ _)
  · refine SchedGrow.trans ?a (.foldl _ ?b _ _)
    case b => exact fun s t => .modThread _ _ _ _ (fun _ => rfl) fun _ _ => rfl
    exact .regroup _ _ _ _ _

theorem SchedGrow.releaseRows (s : State) (k : TeamKey) : SchedGrow s (s.releaseRows k) := by
  unfold State.releaseRows
  split
  · exact .refl s
  · refine SchedGrow.foldl _ (fun s row => ?_) _ s
    simp only
    split
    · exact .refl s
    · exact (SchedGrow.release _ _ _ _ _).trans (.release _ _ _ _ _)

theorem SchedGrow.drawFull (s : State) (k : TeamKey) : SchedGrow s (s.drawFull k) := by
  unfold State.drawFull
  split
  · exact .refl s
  · exact SchedGrow.foldl _ (fun s b => .drawBin s _ b) _ s

theorem SchedGrow.retryHeld (s : State) (k : TeamKey) : SchedGrow s (s.retryHeld k) := by
  unfold State.retryHeld
  split
  · exact .refl s
  · split
    · exact .release _ _ _ _ _
    · exact .refl s

theorem SchedGrow.retryArrive (s : State) (k : TeamKey) : SchedGrow s (s.retryArrive k) := .release _ _ _ _ _

/-- Some live thread of the team has not arrived at its team barrier. -/
def Team.Open (t : Team) : Prop := ∃ j x, t.thread? j = some x ∧ x.live = true ∧ ∀ a ∈ t.tbarIn, a.1 ≠ j

/-- While a live thread has not arrived, the team barrier's phase does not complete (R288). -/
theorem State.tbarEvent_open (s : State) (k : TeamKey) (h : ∀ t, s.team? k = some t → t.Open) : s.tbarEvent k = s := by
  unfold State.tbarEvent
  cases ht : s.team? k with
  | none => rfl
  | some t =>
    obtain ⟨j, x, hx, hl, hn⟩ := h t ht
    have hj : x.tid = j := Team.thread?_tid hx
    have hm : j ∈ t.liveTids := by
      unfold Team.liveTids
      exact List.mem_map.mpr ⟨x, List.mem_filter.mpr ⟨List.mem_of_find?_eq_some hx, hl⟩, hj⟩
    have ha : (t.liveTids.all fun x => t.tbarIn.any fun a => a.1 == x) = false := by
      rw [List.all_eq_false]
      refine ⟨j, hm, ?_⟩
      simp only [List.any_eq_true, beq_iff_eq, not_exists, not_and]
      exact fun a ha h => hn a ha h
    simp only [ha, Bool.not_false, Bool.or_true, if_true]

/-- What a team does on its own account, while its team barrier is open, is scheduling. -/
theorem SchedGrow.settle (s : State) (k : TeamKey) (h : ∀ t, s.team? k = some t → t.Open) :
    SchedGrow s (s.settle k) := by
  unfold State.settle
  rw [State.tbarEvent_open s k h]
  exact (((SchedGrow.retryHeld s k).trans (.retryArrive _ k)).trans (.releaseRows _ k)).trans (.drawFull _ k)

/-- Scheduling leaves a team barrier open. -/
theorem Sched.isOpen {s t : State} (h : Sched s t) (k : TeamKey) (ho : ∀ u, s.team? k = some u → u.Open) :
    ∀ u, t.team? k = some u → u.Open := by
  intro u hu
  have hr := h.team?_rest k
  rw [hu] at hr
  cases hs : s.team? k with
  | none => rw [hs] at hr; simp at hr
  | some v =>
    rw [hs] at hr
    simp only [Option.map_some, Option.some.injEq] at hr
    have hb : u.tbarIn = v.tbarIn := by
      have h1 : u.tbarIn = u.rest.tbarIn := rfl
      rw [h1, hr]; rfl
    obtain ⟨j, x, hx, hl, hn⟩ := ho v hs
    have hx' : s.thread? k j = some x := by unfold State.thread?; rw [hs]; exact hx
    obtain ⟨y, hy, hl'⟩ := h.alive k j x hx' hl
    unfold State.thread? at hy
    rw [hu] at hy
    exact ⟨j, y, hy, hl', hb ▸ hn⟩

theorem Sched.modBundle (s : State) (id : Nat) (f : Bundle → Bundle) : Sched s (s.modBundle id f) :=
  ⟨rfl, rfl, fun h => ⟨h, fun _ => rfl⟩, .of_teams rfl⟩

/-- The end of a clause is scheduling. -/
theorem Sched.endClause (s : State) (id : Nat) (c : Clause) : Sched s (s.endClause id c) := by
  unfold State.endClause
  split
  · exact .refl s
  · rename_i b hb
    simp only
    have h := (SchedGrow.endThreads s b.key c b.tids).1
    split
    · exact h.trans ⟨rfl, rfl, fun h => ⟨h, fun _ => rfl⟩, .of_teams rfl⟩
    · refine h.trans (Sched.trans ?a (SchedGrow.foldl _ ?b _ _).1)
      case b => exact fun s p => .mkBundle _ _ _ _ _ _ _
      exact .modBundle _ _ _

theorem SchedGrow.eachThread (k : TeamKey) (f : Thread → Thread) (hf : ∀ x, (f x).data = x.data)
    (hl : ∀ x, x.live = true → (f x).live = true) (tids : List Nat) (s : State) : SchedGrow s (tids.foldl (fun s t => s.modThread k t f) s) :=
  .foldl _ (fun _ _ => .modThread _ _ _ _ hf hl) _ _

theorem Sched.endSingle (s : State) (id : Nat) (c : Clause) : Sched s (s.endSingle id c) := by
  unfold State.endSingle
  split
  · exact .refl s
  · rename_i b hb
    simp only
    split
    · refine Sched.trans ?_ (.endClause _ _ _)
      exact (SchedGrow.eachThread b.key (fun x => { x with stopNext := true }) (fun _ => rfl) (fun _ h => h) b.tids s).1
    · refine Sched.trans (SchedGrow.eachThread b.key (fun x => { x with stopNext := true }) (fun _ => rfl) (fun _ h => h) b.tids s).1 ?_
      refine Sched.trans (SchedGrow.eachThread b.key (fun x => { x with stat := .stopped, stopNext := false, clause := some c })
        (fun _ => rfl) (fun _ _ => rfl) b.tids _).1 ?_
      exact ⟨rfl, rfl, fun h => ⟨h, fun _ => rfl⟩, .of_teams rfl⟩

/-- Going on to the next word is scheduling. -/
theorem Sched.nextWord (s : State) (site : Site) (next : Clause) : Sched s (s.nextWord site next) := by
  unfold State.nextWord
  simp only
  split
  · exact Sched.trans (.modBundle _ _ _) (.endSingle _ _ _)
  · split
    · exact Sched.trans (.modBundle _ _ _) (.endClause _ _ _)
    · exact .modBundle _ _ _

end Sys2Proof.Machine
end

