-- ==== Sys2Proof/Laws/Issue.lean ====
section
/-! SUPPORT. Issue.lean: what the issue of a word does, said once (R85 to R106): where no thread traps, waits or leaves, the
word's effect is committed to the threads it acts on. -/

namespace Sys2Proof.Machine

/-! ## Threads -/

theorem Thread.setDest_data (t : Thread) (d : Dest) (v : W64) :
    t.setDest d v = { t with regs := (t.setDest d v).regs, preds := (t.setDest d v).preds } := by
  cases d <;> rfl

theorem Thread.advance_eq (t : Thread) (k : Nat) :
    t.advance k = { t with regs := (t.advance k).regs, preds := (t.advance k).preds, win := (t.advance k).win } := by
  unfold Thread.advance
  simp only
  generalize (List.range (k + 1)).flatMap _ = due
  suffices ∀ (l : List WinEntry) (u : Thread), l.foldl (fun t e => t.setDest e.dest e.value) u =
      { u with regs := (l.foldl (fun t e => t.setDest e.dest e.value) u).regs,
               preds := (l.foldl (fun t e => t.setDest e.dest e.value) u).preds } by
    rw [this due]
  intro l
  induction l with
  | nil => intro u; rfl
  | cons e l ih =>
    intro u
    simp only [List.foldl_cons]
    refine (ih _).trans ?_
    generalize l.foldl (fun t e => t.setDest e.dest e.value) (u.setDest e.dest e.value) = z
    rw [Thread.setDest_data]

@[simp] theorem Thread.issued_tid (x : Thread) (d : Done) (st pc now : Nat) : (x.issued d st pc now).tid = x.tid := by
  unfold Thread.issued
  simp only
  rw [Thread.advance_eq]
  simp only
  split <;> split <;> rfl

/-! ## Threads one after another -/

/-- Each thread of a list takes its part of a word's effect. -/
def State.issueEach (s : State) (k : TeamKey) (st pc now : Nat) (l : List (Nat × Done)) : State :=
  l.foldl (fun s a => s.modThread k a.1 fun x => x.issued a.2 st pc now) s

theorem State.issueEach_frame (k : TeamKey) (st pc now : Nat) (l : List (Nat × Done)) :
    ∀ s : State, s.issueEach k st pc now l = { s with teams := (s.issueEach k st pc now l).teams } := by
  induction l with
  | nil => intro s; rfl
  | cons a l ih =>
    intro s
    have : s.issueEach k st pc now (a :: l) = (s.modThread k a.1 fun x => x.issued a.2 st pc now).issueEach k st pc now l := rfl
    rw [this]
    conv_lhs => rw [ih]
    rfl

theorem State.issueEach_append (s : State) (k : TeamKey) (st pc now : Nat) (l m : List (Nat × Done)) :
    s.issueEach k st pc now (l ++ m) = (s.issueEach k st pc now l).issueEach k st pc now m := by
  unfold State.issueEach; rw [List.foldl_append]

theorem State.issueEach_team?_ne (k k' : TeamKey) (h : k' ≠ k) (st pc now : Nat) (l : List (Nat × Done)) :
    ∀ s : State, (s.issueEach k st pc now l).team? k' = s.team? k' := by
  induction l with
  | nil => intro s; rfl
  | cons a l ih =>
    intro s
    refine (ih _).trans ?_
    rw [State.team?_modThread, if_neg h]

theorem State.issueEach_rest (k : TeamKey) (st pc now : Nat) (l : List (Nat × Done)) :
    ∀ s : State, ((s.issueEach k st pc now l).team? k).map Team.rest = (s.team? k).map Team.rest := by
  induction l with
  | nil => intro s; rfl
  | cons a l ih =>
    intro s
    refine (ih _).trans ?_
    rw [State.team?_modThread, if_pos rfl]
    cases s.team? k <;> rfl

theorem State.issueEach_thread?_other (k : TeamKey) (st pc now i : Nat) (l : List (Nat × Done)) (h : ∀ a ∈ l, a.1 ≠ i) :
    ∀ s : State, (s.issueEach k st pc now l).thread? k i = s.thread? k i := by
  induction l with
  | nil => intro s; rfl
  | cons a l ih =>
    intro s
    refine (ih (fun b hb => h b (List.mem_cons_of_mem _ hb)) _).trans ?_
    rw [State.thread?_modThread _ _ _ _ _ _ (by simp)]
    rw [if_neg]
    rintro ⟨-, h'⟩
    exact h a List.mem_cons_self h'.symm

theorem State.issueEach_thread? (k : TeamKey) (st pc now : Nat) (l : List (Nat × Done)) (hl : (l.map Prod.fst).Nodup)
    (a : Nat × Done) (ha : a ∈ l) :
    ∀ s : State, (s.issueEach k st pc now l).thread? k a.1 = (s.thread? k a.1).map fun x => x.issued a.2 st pc now := by
  induction l with
  | nil => cases ha
  | cons b l ih =>
    intro s
    simp only [List.map_cons, List.nodup_cons, List.mem_map, not_exists, not_and] at hl
    rcases List.mem_cons.mp ha with rfl | ha
    · refine (State.issueEach_thread?_other k st pc now a.1 l (fun c hc h => hl.1 c hc h) _).trans ?_
      rw [State.thread?_modThread _ _ _ _ _ _ (by simp), if_pos ⟨rfl, rfl⟩]
    · refine (ih hl.2 ha _).trans ?_
      rw [State.thread?_modThread _ _ _ _ _ _ (by simp), if_neg]
      rintro ⟨-, h'⟩
      exact hl.1 a ha h'

/-! ## The commit of a word -/

/-- A word's effect on a thread that goes on after it. -/
def Done.plain (d : Done) : Prop := d.exits = false ∧ d.park = none

/-- Acts of threads that all go on. -/
def actsOf (l : List (Nat × Done)) : List (Nat × Act) := l.map fun a => (a.1, .done a.2)

theorem trapsOf_actsOf (l : List (Nat × Done)) : trapsOf (actsOf l) = [] := by
  simp [trapsOf, actsOf, List.filterMap_map]

theorem stopsOf_actsOf (l : List (Nat × Done)) : stopsOf (actsOf l) = [] := by
  simp [stopsOf, actsOf, List.filterMap_map]

theorem gone_actsOf (l : List (Nat × Done)) (h : ∀ a ∈ l, a.2.plain) :
    ((actsOf l).filter fun x => !x.2.stays).map (·.1) = [] := by
  rw [List.map_eq_nil_iff, List.filter_eq_nil_iff]
  intro x hx
  obtain ⟨a, ha, rfl⟩ := List.mem_map.mp hx
  obtain ⟨h1, h2⟩ := h a ha
  simp [Act.stays, h1, h2]

theorem State.applyActs (site : Site) (next : Clause) (st now : Nat) (l : List (Nat × Done)) (h : ∀ a ∈ l, a.2.plain) :
    ∀ s : State, (actsOf l).foldl (fun s x => s.applyAct site next st now x.1 x.2) s =
      s.issueEach site.key st next.wordPc now l := by
  induction l with
  | nil => intro s; rfl
  | cons a l ih =>
    intro s
    obtain ⟨h1, h2⟩ := h a List.mem_cons_self
    have : s.applyAct site next st now a.1 (.done a.2) = s.modThread site.key a.1 fun x => x.issued a.2 st next.wordPc now := by
      simp [State.applyAct, h1, h2]
    simp only [actsOf, List.map_cons, List.foldl_cons]
    rw [this]
    exact ih (fun b hb => h b (List.mem_cons_of_mem _ hb)) _

theorem State.idleEach (k : TeamKey) (st pc now : Nat) (l : List Nat) :
    ∀ s : State, l.foldl (fun s t => s.modThread k t fun x => x.issued {} st pc now) s
      = s.issueEach k st pc now (l.map fun t => (t, {})) := by
  induction l with
  | nil => intro s; rfl
  | cons a l ih => intro s; exact ih _

/-- Nobody leaves: the bundles that name somebody stay as they are. -/
theorem State.leaveBundle_nil (s : State) (id : Nat) :
    s.leaveBundle id [] = { s with bundles := s.bundles.filter fun b => !b.tids.isEmpty } := by
  unfold State.leaveBundle
  congr 2
  induction s.bundles with
  | nil => rfl
  | cons b l ih =>
    simp only [modWhere, List.map_cons] at ih ⊢
    rw [ih]
    split
    · simp
    · rfl

theorem State.bundle?_filter {s : State} {id : Nat} {b : Bundle} (h : s.bundle? id = some b) (hb : b.tids ≠ []) :
    (s.bundles.filter fun b => !b.tids.isEmpty).find? (fun b => b.id == id) = some b := by
  unfold State.bundle? at h
  revert h
  induction s.bundles with
  | nil => intro h; cases h
  | cons c l ih =>
    intro h
    simp only [List.find?_cons] at h
    by_cases hc : (c.id == id) = true
    · rw [hc] at h
      simp only [Option.some.injEq] at h
      subst h
      have : (!c.tids.isEmpty) = true := by simpa using hb
      simp [this, hc]
    · simp only [Bool.not_eq_true] at hc
      rw [hc] at h
      simp only [List.filter_cons]
      split
      · simp only [List.find?_cons, hc]; exact ih h
      · exact ih h

theorem State.bundle?_modBundle (s : State) (id : Nat) (f : Bundle → Bundle) (hf : ∀ b, (f b).id = b.id) :
    (s.modBundle id f).bundle? id = (s.bundle? id).map f := by
  unfold State.modBundle State.bundle?
  simp only
  rw [find?_modWhere _ _ _ (by intro x; simp [hf])]
  cases h : s.bundles.find? fun b => b.id == id with
  | none => rfl
  | some b =>
    have := List.find?_some h
    simp only [Option.map_some, this, if_true]

theorem Grows.bundle? {s t : State} (h : Grows s t) {id : Nat} {b : Bundle} (hb : s.bundle? id = some b) :
    t.bundle? id = some b := by
  obtain ⟨m, hm⟩ := h
  unfold State.bundle? at hb ⊢
  rw [hm, List.find?_append, hb]
  rfl

/-- The note of an issue is kept by the core and its island. -/
theorem noteIssue_frame (s : State) (site : Site) :
    s.noteIssue site = { s with cores := (s.noteIssue site).cores, islands := (s.noteIssue site).islands } := by
  unfold State.noteIssue
  simp only
  split <;> rfl

theorem noteIssue_cores (s : State) (site : Site) (h : swf Core.fresh s.cores = true) :
    swf Core.fresh (s.noteIssue site).cores = true ∧ ∀ n, ((s.noteIssue site).core n).rest = (s.core n).rest := by
  unfold State.noteIssue
  simp only
  have hs : ∀ (u : State) (f : Core → List (Nat × Slot)), swf Core.fresh u.cores = true →
      (∀ n, (u.core n).rest = (s.core n).rest) →
      swf Core.fresh (u.modCore site.core fun c => { c with slots := f c }).cores = true
        ∧ ∀ n, ((u.modCore site.core fun c => { c with slots := f c }).core n).rest = (s.core n).rest := by
    intro u f hu hn
    refine ⟨swf_sset _ _ _ _ hu, fun n => ?_⟩
    rw [State.core_modCore hu]
    split
    · exact hn _
    · exact hn n
  split
  · exact ⟨h, fun n => rfl⟩
  · next i _ =>
      have h1 := hs s (fun c => [0, 1, 2, 3, 4].foldl (fun l i =>
        let x := sget .fresh l i
        if x.bundle == some site.b.id then sset .fresh l i { x with bundle := none } else l) c.slots) h (fun _ => rfl)
      exact hs _ (fun c => sset .fresh c.slots i
        { bundle := some site.b.id, freeAt := s.cycle site.core + 1,
          last := some (site.key, site.b.tids.foldl Nat.min (site.b.tids.headD 0), site.pc, s.cycle site.core) }) h1.1 h1.2

theorem Thread.issued_stat (x : Thread) (d : Done) (st pc now : Nat) : (x.issued d st pc now).stat = x.stat := by
  unfold Thread.issued
  simp only
  rw [Thread.advance_eq]
  cases d.pend <;> cases d.write <;> rfl

theorem State.issueEach_alive (k : TeamKey) (st pc now : Nat) (l : List (Nat × Done)) : ∀ s : State,
    Alive s (s.issueEach k st pc now l) := by
  induction l with
  | nil => intro s; exact .refl s
  | cons a l ih =>
    intro s
    refine Alive.trans (.modThread s k a.1 (fun x => x.issued a.2 st pc now) (fun x => by simp) ?_) (ih _)
    intro x h
    unfold Thread.live
    rw [Thread.issued_stat]
    exact h

/-- A word whose threads all go on leaves its team barrier open. -/
theorem State.issueEach_open (k : TeamKey) (st pc now : Nat) (l : List (Nat × Done)) (s : State)
    (h : ∀ t, s.team? k = some t → t.Open) : ∀ t, (s.issueEach k st pc now l).team? k = some t → t.Open := by
  intro t ht
  have hr := State.issueEach_rest k st pc now l s
  rw [ht] at hr
  cases hs : s.team? k with
  | none => rw [hs] at hr; simp at hr
  | some v =>
    rw [hs] at hr
    simp only [Option.map_some, Option.some.injEq] at hr
    have hb : t.tbarIn = v.tbarIn := by
      have h1 : t.tbarIn = t.rest.tbarIn := rfl
      rw [h1, hr]; rfl
    obtain ⟨j, x, hx, hl, hn⟩ := h v hs
    have hx' : s.thread? k j = some x := by unfold State.thread?; rw [hs]; exact hx
    obtain ⟨y, hy, hl'⟩ := State.issueEach_alive k st pc now l s k j x hx' hl
    unfold State.thread? at hy
    rw [ht] at hy
    exact ⟨j, y, hy, hl', hb ▸ hn⟩

/-- A bundle without what walks have told it. -/
def Bundle.untold (b : Bundle) : Bundle := { b with notes := [] }

/-- THE COMMIT OF A WORD whose threads all go on. -/
theorem Issued.commit (s : State) (i : Issuer) (w : OpWord) (reg : Clause → Clause) (rep : Report) (site : Site)
    (acts : List (Nat × Done)) (hk : site.key = i.b.key) (hcl : site.cl = { i.cl with begun := true })
    (hb : site.b = i.b) (hcore : site.core = i.t.core)
    (hplain : ∀ a ∈ acts, a.2.plain) (hnodup : (acts.map Prod.fst).Nodup) (hsub : ∀ a ∈ acts, a.1 ∈ i.b.tids)
    (htids : i.b.tids ≠ [] ∧ i.b.tids.Nodup)
    (hbun : (s.bundle? i.b.id).map Bundle.untold = some ({ i.b with clause := some { i.cl with begun := true } } : Bundle).untold)
    (hbar : ∀ t, s.team? i.b.key = some t → t.Open) :
    Issued s (s.commit w site reg rep (actsOf acts)) i w reg acts := by
  have hnext : (reg { site.cl with idx := site.cl.idx + 1, grouped := site.cl.grouped || w.regroup }) = i.next w reg := by
    rw [hcl]; rfl
  have hidle : (i.b.tids.filter fun t => !(actsOf acts).any fun x => x.1 == t)
      = i.b.tids.filter fun t => !acts.any fun x => x.1 == t := by
    congr 1
    funext t
    simp [actsOf, List.any_map, Function.comp_def]
  -- the list of everything that threads take
  let all : List (Nat × Done) := acts ++ (i.b.tids.filter fun t => !acts.any fun x => x.1 == t).map fun t => (t, ({} : Done))
  have hall : (all.map Prod.fst).Nodup := by
    simp only [all, List.map_append, List.map_map]
    have : (Prod.fst ∘ fun t : Nat => (t, ({} : Done))) = id := rfl
    rw [this, List.map_id]
    rw [List.nodup_append]
    refine ⟨hnodup, htids.2.filter _, ?_⟩
    intro a ha b hb' hab
    subst hab
    simp only [List.mem_filter, Bool.not_eq_true', List.any_eq_false, beq_iff_eq] at hb'
    obtain ⟨x, hx, rfl⟩ := List.mem_map.mp ha
    exact hb'.2 x hx rfl
  let s3 : State := (s.noteIssue site).issueEach i.b.key w.c.st.toNat (i.next w reg).wordPc (s.cycle i.t.core) all
  let s4 : State := s3.leaveBundle i.b.id []
  let s5 : State := s4.nextWord site (i.next w reg)
  have hcommit : s.commit w site reg rep (actsOf acts) =
      s5.settle i.b.key := by
    have e1 : (actsOf acts).foldl (fun u x => u.applyAct site (i.next w reg) w.c.st.toNat (s.cycle i.t.core) x.1 x.2) (s.noteIssue site)
        = (s.noteIssue site).issueEach i.b.key w.c.st.toNat (i.next w reg).wordPc (s.cycle i.t.core) acts := by
      rw [State.applyActs _ _ _ _ _ hplain, hk]
    have e3 : s3 = (i.b.tids.filter fun t => !acts.any fun x => x.1 == t).foldl
        (fun u t => u.modThread i.b.key t fun x => x.issued {} w.c.st.toNat (i.next w reg).wordPc (s.cycle i.t.core))
        ((s.noteIssue site).issueEach i.b.key w.c.st.toNat (i.next w reg).wordPc (s.cycle i.t.core) acts) := by
      rw [State.idleEach, ← State.issueEach_append]
    have hpart : ∀ p : Trap → Bool, List.partition p [] = ([], []) := fun _ => rfl
    unfold State.commit
    simp only [hnext, hcore, e1, hidle, trapsOf_actsOf, stopsOf_actsOf acts, gone_actsOf acts hplain,
      hk, hb, hpart, List.isEmpty_nil, Bool.true_or, if_true, List.foldl_nil, ite_self]
    rw [← e3]
    cases i.b.key <;> rfl
  -- what holds up to the settling
  have f3 : s3 = { s with teams := s3.teams, cores := (s.noteIssue site).cores, islands := (s.noteIssue site).islands } :=
    (State.issueEach_frame _ _ _ _ _ _).trans (congrArg (fun u : State => { u with teams := s3.teams }) (noteIssue_frame s site))
  have f4 : s4 = { s with teams := s3.teams, bundles := s4.bundles, cores := (s.noteIssue site).cores,
                          islands := (s.noteIssue site).islands } := by
    show s3.leaveBundle i.b.id [] = _
    rw [State.leaveBundle_nil]
    conv_lhs => rw [f3]
    show _ = { s with teams := s3.teams, bundles := (s3.leaveBundle i.b.id []).bundles, cores := _, islands := _ }
    rw [State.leaveBundle_nil]
    conv_rhs => rw [f3]
  have h45 : Sched s4 s5 := Sched.nextWord _ _ _
  have t4 : s4.teams = s3.teams := rfl
  have team4 : ∀ k, s4.team? k = s3.team? k := fun k => rfl
  have thread4 : ∀ k j, s4.thread? k j = s3.thread? k j := fun k j => rfl
  have team0 : ∀ k, (s.noteIssue site).team? k = s.team? k := fun k => by rw [noteIssue_frame]; rfl
  have thread0 : ∀ k j, (s.noteIssue site).thread? k j = s.thread? k j := fun k j => by rw [noteIssue_frame]; rfl
  have rest3 : (s3.team? i.b.key).map Team.rest = (s.team? i.b.key).map Team.rest := by
    rw [← team0]; exact State.issueEach_rest _ _ _ _ _ _
  have open3 : ∀ t, s3.team? i.b.key = some t → t.Open :=
    State.issueEach_open _ _ _ _ _ _ fun t ht => hbar t (by rwa [team0] at ht)
  have bar5 : ∀ t, s5.team? i.b.key = some t → t.Open := h45.isOpen _ open3
  have hend : SchedGrow s5 (s.commit w site reg rep (actsOf acts)) := by
    rw [hcommit]
    exact .settle _ _ bar5
  have h4 : Sched s4 (s.commit w site reg rep (actsOf acts)) := h45.trans hend.1
  generalize s.commit w site reg rep (actsOf acts) = t at *
  constructor
  · have e1 := h4.frame
    rw [f4] at e1
    rw [e1]
  · intro a ha x hx
    rw [h4.thread?_data, thread4]
    have := State.issueEach_thread? i.b.key w.c.st.toNat (i.next w reg).wordPc (s.cycle i.t.core) all hall a
      (List.mem_append_left _ ha) (s.noteIssue site)
    rw [show s3.thread? i.b.key a.1 = _ from this, thread0, hx]
    rfl
  · intro tid htid hno x hx
    rw [h4.thread?_data, thread4]
    have hmem : ((tid, ({} : Done)) : Nat × Done) ∈ all := by
      refine List.mem_append_right _ (List.mem_map.mpr ⟨tid, ?_, rfl⟩)
      rw [List.mem_filter]
      refine ⟨htid, ?_⟩
      simp only [Bool.not_eq_true', List.any_eq_false, beq_iff_eq]
      exact hno
    have := State.issueEach_thread? i.b.key w.c.st.toNat (i.next w reg).wordPc (s.cycle i.t.core) all hall _ hmem (s.noteIssue site)
    rw [show s3.thread? i.b.key tid = _ from this, thread0, hx]
    rfl
  · intro tid htid
    rw [h4.thread?_data, thread4]
    have : s3.thread? i.b.key tid = (s.noteIssue site).thread? i.b.key tid := by
      refine State.issueEach_thread?_other _ _ _ _ _ _ ?_ _
      intro a ha h
      rcases List.mem_append.mp ha with ha | ha
      · exact htid (h ▸ hsub a ha)
      · obtain ⟨j, hj, rfl⟩ := List.mem_map.mp ha
        exact htid (h ▸ (List.mem_filter.mp hj).1)
    rw [this, thread0]
  · rw [h4.team?_rest, team4]
    exact rest3
  · intro k hk'
    rw [h4.team?_data, team4]
    rw [show s3.team? k = _ from State.issueEach_team?_ne _ _ hk' _ _ _ _ _, team0]
  · intro hs n
    have hn := noteIssue_cores s site hs
    have c4 : s4.cores = (s.noteIssue site).cores := by rw [f4]
    have h1 := h4.cores (by rw [c4]; exact hn.1)
    rw [h1.2 n]
    rw [show s4.core n = (s.noteIssue site).core n by unfold State.core; rw [c4]]
    exact hn.2 n
  · intro hnot hsingle
    refine hend.2.bundle? ?_
    obtain ⟨b', hb', e'⟩ := Option.map_eq_some_iff.mp hbun
    have htids' : b'.tids = i.b.tids := by
      have := congrArg (fun b : Bundle => b.tids) e'
      exact this
    have b4 : s4.bundle? i.b.id = some b' := by
      unfold State.bundle?
      show (s3.leaveBundle i.b.id []).bundles.find? _ = _
      rw [State.leaveBundle_nil]
      have e : s3.bundles = s.bundles := by rw [f3]
      show (s3.bundles.filter _).find? _ = _
      rw [e]
      exact State.bundle?_filter hb' (htids' ▸ htids.1)
    show (s4.nextWord site (i.next w reg)).bundle? i.b.id = _
    unfold State.nextWord
    simp only [hb, hsingle, hnot, Bool.false_eq_true, if_false]
    rw [State.bundle?_modBundle s4 i.b.id _ ?hf, b4]
    case hf => intro; rfl
    have := congrArg (fun b : Bundle =>
      ({ b with clause := some (i.next w reg), held := false, waits := [], notes := [], met := false } : Bundle)) e'
    simpa only [Option.map_some, Bundle.untold, Option.some.injEq, hsingle] using this

end Sys2Proof.Machine
end

