-- ==== Sys2Proof/Laws/InvUnits.lean ====
section
/-! SUPPORT. InvUnits.lean: what words do to the units of the machine keeps the invariant: memory accesses, atomics,
copies and transfers, waits, matrix operations, the walker and the trace. -/

namespace Sys2Proof.Machine

/-! ## Global memory -/

theorem State.gate_inv {s : State} (h : s.Inv) (site : Site) (tid : Nat) (g : GAcc) : (s.gate site tid g).1.Inv := by
  have ha := State.access_inv (State.flushAcquires_inv h site.key tid) site.key site.core tid g.va g.n g.accs g.pu site.b.notes
  unfold State.gate
  simp only
  split <;> exact ha

theorem State.gateRace_inv {s : State} (h : s.Inv) (site : Site) (tid : Nat) (g : GAcc) (w : Bool) :
    (s.gateRace site tid g w).1.Inv := by
  have hg := State.gate_inv h site tid g
  unfold State.gateRace
  simp only
  split
  · exact hg
  · split <;> exact State.raceCheck_inv hg _ _ _ _ _ _ _ _ _

theorem State.readAt_inv {s : State} (h : s.Inv) (site : Site) (tid : Nat) (p : Place) (sc : Scope) (na data : Bool) :
    (s.readAt site tid p sc na data).1.Inv := by
  have hl := State.loadFor_inv h site.core site.key tid sc na p
  unfold State.readAt
  simp only
  split
  · exact hl
  · split
    · exact hl
    · split <;> exact hl

theorem State.loadAct_inv {s : State} (h : s.Inv) (site : Site) (tid va : Nat) (z : MSize) (sc : Scope) (race na sx : Bool)
    (d : Reg) : (s.loadAct site tid va z sc race na sx d).1.Inv := by
  have hg : (if race then s.gateRace site tid (GAcc.load va z.bytes sc) false
      else s.gate site tid (GAcc.load va z.bytes sc)).1.Inv := by
    split
    · exact State.gateRace_inv h _ _ _ _
    · exact State.gate_inv h _ _ _
  unfold State.loadAct
  simp only
  split
  · exact hg
  · split <;> exact State.readAt_inv hg _ _ _ _ _ _

theorem State.descrLoad_inv {s : State} (h : s.Inv) (site : Site) (tid va : Nat) (sc : Scope) (d : Reg) :
    (s.descrLoad site tid va sc d).1.Inv := by
  have hg := State.gateRace_inv h site tid (GAcc.load va 1 sc) false
  unfold State.descrLoad
  simp only
  split
  · exact hg
  · split <;> exact State.readAt_inv hg _ _ _ _ _ _

theorem State.descrStore_inv {s : State} (h : s.Inv) (site : Site) (tid va : Nat) (sc : Scope) (v : Descr) :
    (s.descrStore site tid va sc v).1.Inv := by
  have hg := State.gateRace_inv h site tid (GAcc.store va 1 sc) (!fmtReserved (fmtOf v))
  unfold State.descrStore
  simp only
  split
  · exact hg
  · split
    · exact hg
    · exact State.pushStore_inv hg _ _

theorem State.prefetch_inv {s : State} (h : s.Inv) (site : Site) (tid va : Nat) (line : Bool) :
    (s.prefetch site tid va line).1.Inv := by
  have ha := State.access_inv h site.key site.core tid va 1 [.read] .read site.b.notes
  unfold State.prefetch
  simp only
  split
  · exact ha
  · exact ha
  · split
    · exact ha
    · split
      · exact ha
      · dsimp only
        exact State.modCore_inv ha _ _

theorem State.putHint_inv {s : State} (h : s.Inv) (page asid die dir : Nat) : (s.putHint page asid die dir).Inv := by
  unfold State.putHint
  split
  · exact h.same rfl rfl rfl
  · exact (State.writeBytes_inv h (.here (s.hintBase + 16 * s.hintTail)) _).same rfl rfl rfl

theorem State.bufferAtom_inv {s : State} (h : s.Inv) (site : Site) (x : Thread) (o : AtomOp) (d : Option Reg) :
    (s.bufferAtom site x o d).1.Inv := by
  unfold State.bufferAtom
  exact State.modThread_inv (State.modCore_inv h _ _) _ _ _ fun _ hx => hx

theorem State.atomAct_inv {s : State} (h : s.Inv) (site : Site) (x : Thread) (o : AtomOp) (d : Option Reg) :
    (s.atomAct site x o d).1.Inv := by
  have hg := State.gate_inv h site x.tid o.acc
  unfold State.atomAct
  split
  rename_i s1 r e1
  have h1 : s1.Inv := State.Inv.fst e1 hg
  split
  · exact h1
  · extract_lets o' det
    split
    · exact h1
    · split
      rename_i s2 bad e2
      have h2 : s2.Inv := State.Inv.fst e2 (State.raceCheck_inv h1 _ _ _ _ _ _ _ _ _)
      split
      · exact h2
      · extract_lets s3
        have h3 : s3.Inv := ite_inv h2 (State.drain_inv h2 _)
        split
        · exact h3
        · split
          · exact State.bufferAtom_inv h3 _ _ _ _
          · split
            rename_i s4 v e4
            have h4 : s4.Inv := State.Inv.fst e4 (State.performAtom_inv h3 _ _)
            split
            · exact h4
            · exact State.atomDone_inv h4 _ _ _ _

/-! ## Scratchpad -/

/-- A team that changes what is not its threads. -/
theorem Team.RegsWf.same {t u : Team} (h : t.RegsWf) (e : u.threads = t.threads) : u.RegsWf := by
  unfold Team.RegsWf; rw [e]; exact h

@[simp] theorem Team.spWrite_threads (t : Team) (off : Nat) (bs : List Byte) : (t.spWrite off bs).threads = t.threads := by
  unfold Team.spWrite; split <;> rfl
@[simp] theorem Team.spDescr_threads (t : Team) (off : Nat) (d : Descr) : (t.spDescr off d).threads = t.threads := rfl
@[simp] theorem Team.spLand_threads (t : Team) (off : Nat) (b : Block) : (t.spLand off b).threads = t.threads := by
  unfold Team.spLand; simp
@[simp] theorem Team.setBar_threads (t : Team) (n : Nat) (b : BarReg) : (t.setBar n b).threads = t.threads := rfl
@[simp] theorem Team.tagOp_threads (t : Team) (o : TagOp) (tag : W64) : (t.tagOp o tag).1.threads = t.threads := by
  cases o <;> unfold Team.tagOp <;> simp only <;> (try split) <;> (try split) <;> rfl
@[simp] theorem Team.landBlock_threads (t : Team) (lay : Layout) (off : Nat) (b : TileBlock) (src : Block) :
    (t.landBlock lay off b src).threads = t.threads := by
  unfold Team.landBlock
  simp only
  split <;> split <;> simp
@[simp] theorem Team.spFill_threads (t : Team) (off : Nat) (bs : List Byte) (d : Descr) :
    (t.spFill off bs d).threads = t.threads := by
  unfold Team.spFill
  generalize List.range (bs.length / 64) = l
  induction l generalizing t with
  | nil => rfl
  | cons j l ih => rw [List.foldl_cons, ih]; simp
@[simp] theorem Team.receive_threads (t : Team) (p : Pair) (o : MatOp) : (t.receive p o).threads = t.threads := by
  unfold Team.receive
  split
  · split <;> simp
  · simp
  all_goals rfl

theorem State.modTeam_rest_inv {s : State} (h : s.Inv) (k : TeamKey) (f : Team → Team) (hf : ∀ t, (f t).threads = t.threads) :
    (s.modTeam k f).Inv := State.modTeam_inv h k f fun t ht => ht.same (hf t)

/-! ## Copies, tile stores and transfers -/

theorem State.moveRace_inv {s : State} (h : s.Inv) (site : Site) (tid : Nat) (lay : Layout) (cs : List Int) (w : Bool) (sc : Scope) :
    (s.moveRace site tid lay cs w sc).1.Inv := by
  unfold State.moveRace
  extract_lets iv r
  have hr : r.1.Inv := State.Inv.foldlFst _ _ (fun a b ha => ite_fst_inv ha (State.raceCheck_inv ha _ _ _ _ _ _ _ _ _)) h
  refine ite_fst_inv hr ?_
  dsimp only
  exact State.Inv.foldl _ _ (fun s b h => State.raceMark_inv h _ _ _ _ _ _ _) hr

theorem State.startMove_inv {s : State} (h : s.Inv) (m : Move) : (s.startMove m).Inv := by
  unfold State.startMove
  extract_lets e s1 s2
  have h1 : s1.Inv := by
    unfold s1
    split
    · exact State.modTeam_rest_inv h _ _ fun _ => rfl
    · exact h
  have h2 : s2.Inv := State.modThread_inv h1 _ _ _ fun _ hx => hx
  exact h2.same rfl rfl rfl

theorem State.moveAct_inv {s : State} (h : s.Inv) (site : Site) (x : Thread) (kind : MoveKind) (d a b : Reg)
    (bn : Option (BitVec 4)) (sc : Scope) (extra : State → Layout → List Int → Bool) (scopeOf : Layout → Scope)
    (go : State → Move → State) (hgo : ∀ s m, s.Inv → (go s m).Inv) :
    (s.moveAct site x kind d a b bn sc extra scopeOf go).1.Inv := by
  unfold State.moveAct
  extract_lets bad off rva cs bar
  split
  · exact h
  · split
    · exact h
    · have hg := State.gateRace_inv h site x.tid (GAcc.load rva 64 sc) false
      split
      rename_i s1 g e1
      have h1 : s1.Inv := State.Inv.fst e1 hg
      split
      · exact h1
      · split
        rename_i s2 blk e2
        have h2 : s2.Inv := State.Inv.fst e2 (State.readAt_inv h1 _ _ _ _ _ _)
        split
        · exact h2
        · extract_lets lay lay' len lo n
          refine ite_fst_inv h2 (ite_fst_inv h2 (ite_fst_inv h2 (ite_fst_inv h2 (ite_fst_inv h2 (ite_fst_inv h2 ?_)))))
          split
          rename_i s3 race e3
          have h3 : s3.Inv := State.Inv.fst e3 (ite_fst_inv h2 (State.moveRace_inv h2 _ _ _ _ _ _))
          exact ite_fst_inv h3 (hgo _ _ (State.startMove_inv h3 _))

theorem State.wakeCopies_inv {s : State} (h : s.Inv) (core : Nat) : (s.wakeCopies core).Inv := by
  unfold State.wakeCopies
  exact State.wake_inv (State.Inv.foldl _ _ (fun s t h => State.release_inv h _ _ _ _) h)

theorem State.extraArrival_inv {s : State} (h : s.Inv) (k : TeamKey) (n : Nat) : (s.extraArrival k n).Inv :=
  State.barEvent_inv (State.modTeam_rest_inv h _ _ (by intro _; rfl)) _ _

theorem State.retireMove_inv {s : State} (h : s.Inv) (m : Move) : (s.retireMove m).Inv := by
  unfold State.retireMove
  extract_lets s1 s2 s3
  have h1 : s1.Inv := h.same rfl rfl rfl
  have h2 : s2.Inv := State.modThread_inv h1 _ _ _ fun _ hx => hx
  have h3 : s3.Inv := by
    unfold s3
    split
    · exact State.extraArrival_inv h2 _ _
    · exact h2
  exact State.settle_inv (State.wakeCopies_inv h3 _) _

theorem scatter_inv (parts : List (Place × Nat)) (bytes : List Byte) (f : State → Place → List Byte → State)
    (hf : ∀ s p b, s.Inv → (f s p b).Inv) {s : State} (h : s.Inv) : (scatter parts bytes f s).Inv := by
  unfold scatter
  refine State.Inv.foldlFst _ _ ?_ h
  exact fun a x ha => hf _ _ _ ha

theorem State.dropLine_inv {s : State} (h : s.Inv) (core : Nat) (p : Place) : (s.dropLine core p).Inv := State.modCore_inv h _ _

theorem State.putTile_inv {s : State} (h : s.Inv) (core : Nat) (parts : List (Place × Nat)) (b : TileBlock) (src : Block) :
    (s.putTile core parts b src).Inv := by
  unfold State.putTile
  exact scatter_inv _ _ _ (fun s p b h => State.dropLine_inv (State.writePart_inv h _ _ _ _ _) _ _) h

theorem State.putReduced_inv {s : State} (h : s.Inv) (core reduce fmt : Nat) (parts : List (Place × Nat)) (bytes : List Byte)
    (mark : Option Cause) : (s.putReduced core reduce fmt parts bytes mark).Inv := by
  unfold State.putReduced
  refine scatter_inv _ _ _ (fun s p b h => State.dropLine_inv ?_ _ _) h
  exact ite_inv (State.writePoison_inv (State.writeBytes_inv h _ _) _ _) (State.writeBytes_inv h _ _)

theorem State.putRank_inv {s : State} (h : s.Inv) (m : Move) (src : Coord) (parts : List (Place × Nat)) (b : TileBlock)
    (data : Block) : (s.putRank m src parts b data).Inv := by
  unfold State.putRank
  refine ite_inv (State.putTile_inv h _ _ _ _) (ite_inv ?_ (State.putReduced_inv h _ _ _ _ _ _))
  exact h.same rfl rfl rfl

theorem State.applyHeld_inv {s : State} (h : s.Inv) (ctx launch grid : Nat) : (s.applyHeld ctx launch grid).Inv := by
  unfold State.applyHeld
  refine State.Inv.foldl _ _ (fun s x h => State.putReduced_inv h _ _ _ _ _ _) ?_
  exact h.same rfl rfl rfl

theorem State.moveBlock_inv {s : State} (h : s.Inv) (m : Move) (c : Nat) : (s.moveBlock m c).Inv := by
  unfold State.moveBlock
  extract_lets b off s'
  have h' : OptInv s' := by
    unfold s'
    split
    · exact .some (ite_inv (State.modTeam_rest_inv h _ _ fun _ => by simp) h)
    · split
      · exact .none
      · split
        · intro t e
          obtain ⟨src, -, rfl⟩ := Option.map_eq_some_iff.mp e
          exact State.modTeam_rest_inv h _ _ fun _ => by simp
        · intro t e
          obtain ⟨src, -, rfl⟩ := Option.map_eq_some_iff.mp e
          exact State.putRank_inv h _ _ _ _ _
  generalize s' = o at h'
  cases o with
  | none => exact h
  | some u => exact State.modMove_inv (h' u rfl) _ _

/-! ## Flows -/

theorem State.put16_inv {s : State} (h : s.Inv) (p : Place) (v : Nat) : (s.put16 p v).Inv := State.writeBytes_inv h _ _
theorem State.clearTags_inv {s : State} (h : s.Inv) (f : Flow) : (s.clearTags f).Inv := by
  unfold State.clearTags
  exact State.Inv.foldl _ _ (fun s b h => State.put16_inv h _ _) h
theorem State.bumpGen_inv {s : State} (h : s.Inv) (ctx : Nat) (f : Flow) (key : Nat) : (s.bumpGen ctx f key).Inv := by
  unfold State.bumpGen
  refine ite_inv (State.put16_inv h _ _) (State.put16_inv (State.Inv.foldl _ _ (fun s r h => ?_) h) _ _)
  split
  · exact State.clearTags_inv h _
  · exact h
theorem State.recordLine_inv {s : State} (h : s.Inv) (p : Place) (b : Block) : (s.recordLine p b).Inv :=
  State.writePart_inv h _ _ _ _ _

theorem State.takeSeq_inv {s : State} (h : s.Inv) (ctx key : Nat) (src dst : Coord) : (s.takeSeq ctx key src dst).1.Inv := by
  unfold State.takeSeq
  simp only
  split <;> exact h.same rfl rfl rfl

theorem State.sendSegment_inv {s : State} (h : s.Inv) (ctx key : Nat) (src : Coord) (rs : List Receiver) (single : Bool)
    (reduce : Nat) (move : Option Nat) (items : List FlowItem) :
    (s.sendSegment ctx key src rs single reduce move items).Inv := by
  unfold State.sendSegment
  extract_lets f gen first str lastElems s1
  have h1 : s1.Inv := by
    unfold s1
    clear_value f gen
    split
    · exact h
    · exact State.Inv.foldl _ _ (fun s x h => State.put16_inv (State.recordLine_inv h _ _) _ _) h
  refine State.Inv.foldl _ _ (fun s r h => ?_) h1
  exact (State.takeSeq_inv h ctx key src r.1.rank).same rfl rfl rfl

theorem State.sendAll_inv {s : State} (h : s.Inv) (ctx key : Nat) (src : Coord) (rs : List Receiver) (single : Bool)
    (reduce : Nat) (move : Option Nat) (items : List FlowItem) : (s.sendAll ctx key src rs single reduce move items).Inv := by
  unfold State.sendAll
  exact State.Inv.foldl _ _ (fun s g h => State.sendSegment_inv h _ _ _ _ _ _ _ _) h

theorem State.sendMove_inv {s : State} (h : s.Inv) (m : Move) : (s.sendMove m).Inv := by
  unfold State.sendMove
  extract_lets own cross left s1 s2 single
  have h1 : s1.Inv := State.modMove_inv h _ _
  refine ite_inv (State.modMove_inv h1 _ _) (ite_inv (State.failLaunchOf_inv h1 _ _ _) ?_)
  split
  · exact State.takeReport_inv (State.modMove_inv h1 _ _) _ _ _ _
  · exact State.failLaunchOf_inv h1 _ _ _
  · split
    · exact State.failLaunchOf_inv h1 _ _ _
    · exact ite_inv (State.sendAll_inv (State.modMove_inv h1 _ _) _ _ _ _ _ _ _ _)
        (State.sendAll_inv (State.modMove_inv h1 _ _) _ _ _ _ _ _ _ _)

/-! ## Waits, spawns -/

theorem State.monitorWait_inv {s : State} (h : s.Inv) (core : Nat) (w : MemWait) : (s.monitorWait core w).1.Inv := by
  unfold State.monitorWait
  refine ite_fst_inv h (ite_fst_inv ?_ h)
  dsimp only
  exact State.modCore_inv h _ _

theorem State.waitAct_inv {s : State} (h : s.Inv) (site : Site) (x : Thread) (w : MemWait) : (s.waitAct site x w).1.Inv := by
  unfold State.waitAct
  split
  rename_i s1 g e1
  have h1 : s1.Inv := State.Inv.fst e1 (State.gateRace_inv h _ _ _ _)
  split
  · exact h1
  · split
    rename_i s2 b e2
    have h2 : s2.Inv := State.Inv.fst e2 (State.readAt_inv h1 _ _ _ _ _ _)
    split
    · exact h2
    · extract_lets v
      exact ite_fst_inv (State.acquire_inv h2 _ _) (State.monitorWait_inv h2 _ _)

theorem State.trimMonitor_inv {s : State} (h : s.Inv) (core : Nat) : (s.trimMonitor core).Inv := by
  unfold State.trimMonitor
  exact State.modCore_inv h _ _

theorem State.finishWait_inv {s : State} (h : s.Inv) (k : TeamKey) (core : Nat) (x : Thread) (w : MemWait) (b : Block) :
    (s.finishWait k core x w b).1.Inv := by
  unfold State.finishWait
  split
  · exact State.takeGroup_inv h _ _ _ _ _ _ _
  · refine State.pastWord_inv (State.acquire_inv ?_ _ _) _ _ _
    split
    · exact State.freshLine_inv h _ _ _
    · exact h

theorem State.endWaits_inv {s : State} (h : s.Inv) (t : Team) (due : Thread → Bool) : (s.endWaits t due).Inv := by
  unfold State.endWaits
  split
  rename_i s1 go e1
  have h1 : s1.Inv := State.Inv.fst e1 (State.Inv.foldlFst _ _ (fun a x ha => by
    split
    · split
      · exact State.finishWait_inv ha _ _ _ _ _
      · exact ha
    · exact ha) h)
  exact State.settle_inv (State.trimMonitor_inv (State.release_inv h1 _ _ _ _) _) _

theorem State.spawnRead_inv {s : State} (h : s.Inv) (site : Site) (tid va : Nat) (pu : Purity) :
    (s.spawnRead site tid va pu).1.Inv := by
  unfold State.spawnRead
  split
  rename_i s1 g e1
  have h1 : s1.Inv := State.Inv.fst e1 (State.gateRace_inv h _ _ _ _)
  split
  · exact h1
  · split
    rename_i s2 b e2
    have h2 : s2.Inv := State.Inv.fst e2 (State.readAt_inv h1 _ _ _ _ _ _)
    split <;> exact h2

theorem State.spawnGo_inv {s : State} (h : s.Inv) (site : Site) (t : Team) (tid va : Nat) : (s.spawnGo site t tid va).1.Inv := by
  unfold State.spawnGo
  extract_lets isPure made
  split
  rename_i s1 r e1
  have h1 : s1.Inv := State.Inv.fst e1 (State.spawnRead_inv h _ _ _ _)
  split
  · exact h1
  · extract_lets rec'
    split
    rename_i s2 bad e2
    have h2 : s2.Inv := State.Inv.fst e2 (by
      refine ite_fst_inv ?_ h1
      split
      rename_i s3 d e3
      have h3 : s3.Inv := State.Inv.fst e3 (State.spawnRead_inv h1 _ _ _ _)
      split <;> exact h3)
    split
    · exact h2
    · exact ite_fst_inv h2 (State.enterSpawn_inv h2 _ _ _)

/-! ## Matrix operations -/

theorem State.queueMat_inv {s : State} (h : s.Inv) (site : Site) (f : MatForm) (o : MatOp) : (s.queueMat site f o).Inv := by
  unfold State.queueMat
  extract_lets p s1 s2 s3
  have h1 : s1.Inv := by
    unfold s1
    split
    · exact h
    · exact h.same rfl rfl rfl
  have h2 : s2.Inv := State.modPair_inv h1 _ _
  exact (State.modThread_inv h2 site.key o.tid (fun x => { x with unsealed := x.unsealed ++ [o.id] }) fun _ hx => hx).same rfl rfl rfl

theorem State.matAct_inv {s : State} (h : s.Inv) (site : Site) (x : Thread) (c : XCtl) (f : MatForm) :
    (s.matAct site x c f).1.Inv := by
  unfold State.matAct
  extract_lets bad
  split
  · exact h
  · split
    · exact h
    · refine ite_fst_inv h (ite_fst_inv h (ite_fst_inv h (ite_fst_inv h (ite_fst_inv h (ite_fst_inv h ?_)))))
      split
      · exact h
      · dsimp only
        generalize MatKind.blocksBad _ _ _ = r
        cases r with
        | some c => exact h
        | none => exact State.queueMat_inv h _ _ _

theorem State.leaveMat_inv {s : State} (h : s.Inv) (pair : Nat) (o : MatOp) : (s.leaveMat pair o).Inv := by
  unfold State.leaveMat
  extract_lets s1 s2
  have h1 : s1.Inv := State.modPair_inv h _ _
  have h2 : s2.Inv := h1.same rfl rfl rfl
  refine State.wakeCopies_inv (State.modThread_inv h2 _ _ _ ?_) _
  exact fun _ hx => hx

/-! ## The walker's words, releases, the trace and the registers of a core -/

theorem State.invalidate_inv {s : State} (h : s.Inv) (core : Nat) (i : Inval) : (s.invalidate core i).Inv := by
  unfold State.invalidate
  extract_lets s1 e fg
  have h1 : s1.Inv := State.modCore_inv h _ _
  have hf : ∀ b, (fg b).tids = b.tids := fun b => by
    simp only [fg]
    split <;> rfl
  refine State.setTeams_inv (State.mapBundles_inv h1 fg hf) _ fun t ht => ?_
  obtain ⟨x, hx, rfl | rfl⟩ := mem_modWhere ht
  · refine Team.mapThreads_regs (h1.regs x hx) _ fun y hy => ?_
    unfold e
    split
    · split <;> exact hy
    · exact hy
  · exact h1.regs _ hx

theorem State.releaseAll_inv {s : State} (h : s.Inv) (k : TeamKey) (tid upTo : Nat) : (s.releaseAll k tid upTo).Inv := by
  unfold State.releaseAll
  exact State.drain_inv (ite_inv (State.flushThread_inv h _ _ _) h) _

theorem State.putLost_inv {s : State} (h : s.Inv) (core : Nat) (x : Stream) : (s.putLost core x).1.Inv := by
  unfold State.putLost
  split
  · rename_i s' e
    exact (State.sysWrite_inv h _ _ _).get e
  · exact h

theorem State.putTrace_inv {s : State} (h : s.Inv) (core : Nat) (x : Stream) (bytes : List Byte) :
    (s.putTrace core x bytes).1.Inv := by
  unfold State.putTrace
  extract_lets c at0 n tail full lose write
  have hl : ∀ x, (lose x).1.Inv := fun x => by
    unfold lose
    dsimp only
    exact State.putLost_inv h _ _
  have hw : ∀ x, (write x).1.Inv := fun x => by
    unfold write
    dsimp only
    split
    · exact h
    · rename_i s' e
      have h1 := (State.sysWrite_inv h _ _ _).get e
      split
      · exact h1
      · rename_i s'' e
        exact (State.sysWrite_inv h1 _ _ _).get e
  refine ite_fst_inv (hw _) ?_
  split
  · exact h
  · exact ite_fst_inv (hl _) (hw _)

theorem State.traceRecord_inv {s : State} (h : s.Inv) (core ctx : Nat) (r : TraceRec) : (s.traceRecord core ctx r).Inv := by
  unfold State.traceRecord
  extract_lets x keep
  have hk : ∀ {u : State}, u.Inv → ∀ y, (keep u y).Inv := fun hu y => State.modCore_inv hu _ _
  refine ite_inv (hk h _) ?_
  split
  rename_i s1 y e1
  have h1 : s1.Inv := by
    revert e1
    split
    · exact fun e1 => State.Inv.fst e1 (State.putLost_inv h _ _)
    · intro e1
      simp only [Prod.mk.injEq] at e1
      exact e1.1 ▸ h
  split
  rename_i s2 z ok e2
  have h2 : s2.Inv := by
    revert e2
    split
    · intro e2
      simp only [Prod.mk.injEq] at e2
      exact e2.1 ▸ h1
    · split
      · intro e2
        simp only [Prod.mk.injEq] at e2
        exact e2.1 ▸ h1
      · extract_lets rs
        split
        rename_i s3 y3 ok3 e3
        have h3 : s3.Inv := State.Inv.fst e3 (State.putTrace_inv h1 _ _ _)
        intro e2
        simp only [Prod.mk.injEq] at e2
        exact e2.1 ▸ h3
  refine ite_inv (hk h2 _) (ite_inv ?_ ?_)
  · exact hk (State.putLost_inv h2 core z.lose) _
  · split
    rename_i s4 y4 ok4 e4
    exact hk (State.Inv.fst e4 (State.putTrace_inv h2 _ _ _)) _

theorem State.traceTeam_inv {s : State} (h : s.Inv) (t : Team) (type : Nat) : (s.traceTeam t type).Inv := by
  unfold State.traceTeam
  split
  · exact h
  · exact ite_inv (State.traceRecord_inv h _ _ _) h

theorem State.resyncPair_inv {s : State} (h : s.Inv) (p why : Nat) : (s.resyncPair p why).Inv := by
  unfold State.resyncPair
  exact State.Inv.foldl _ _ (fun s c h => State.modCore_inv h _ _) h

theorem State.setTrace_inv {s : State} (h : s.Inv) (ctx : Nat) (v : W64) : (s.setTrace ctx v).Inv := by
  unfold State.setTrace
  exact State.Inv.foldl _ _ (fun s c h => State.modCore_inv h _ _) (State.modCtx_inv h _ _)

theorem State.setShape_inv {s : State} (h : s.Inv) (isl : Nat) (v : W64) : (s.setShape isl v).Inv := by
  unfold State.setShape
  exact ite_inv h (State.modIsland_inv h _ _)

theorem State.setCoreReg_inv {s : State} (h : s.Inv) (core : Nat) (r : CReg) (v : W64) : (s.setCoreReg core r v).Inv := by
  unfold State.setCoreReg
  split
  · exact ite_inv h (State.modCore_inv h _ _)
  · exact State.modPair_inv h _ _
  · exact State.setShape_inv (State.wakeIsland_inv h _) _ _

end Sys2Proof.Machine
end

