-- ==== Sys2Proof/Laws/InvFront.lean ====
section
/-! SUPPORT. InvFront.lean: the invariant through clause fetch, packets, launches, reuse and spawns, the ends of teams, grids and
launches, core images, contexts and page moves. -/

namespace Sys2Proof.Machine

/-! ## Clause fetch -/

theorem State.putCode_inv {s : State} (h : s.Inv) (l : CodeLine) : (s.putCode l).Inv := h.same rfl rfl rfl
theorem State.dropCode_inv {s : State} (h : s.Inv) (core : Nat) (p : Place) : (s.dropCode core p).Inv := h.same rfl rfl rfl

theorem State.fetchAt_inv {s : State} (h : s.Inv) (core : Nat) (p : Place) (na : Bool) : (s.fetchAt core p na).1.Inv := by
  unfold State.fetchAt
  extract_lets word fill
  have hf : ∀ {u : State}, u.Inv → (fill u).1.Inv := fun hu => by
    unfold fill
    split
    · exact hu
    · exact ite_fst_inv hu (ite_inv hu (State.putCode_inv hu _))
  clear_value fill
  split
  · exact hf h
  · split
    rename_i s1 parity e
    have h1 : s1.Inv := State.Inv.fst e (State.freeBit_inv h)
    exact ite_fst_inv (hf (State.dropCode_inv h1 _ _)) (State.putCode_inv h1 _)

theorem State.fetchWord_inv {s : State} (h : s.Inv) (b : Bundle) (core pc : Nat) (na : Bool) : (s.fetchWord b core pc na).1.Inv := by
  unfold State.fetchWord
  split
  · exact ite_fst_inv h (ite_fst_inv (State.fetchAt_inv h _ _ _) h)
  · split
    rename_i s1 r e
    have h1 : s1.Inv := State.Inv.fst e (State.access_inv h _ _ _ _ _ _ _ _)
    split
    · exact State.fetchAt_inv h1 _ _ _
    · exact h1
    · exact h1

theorem State.fetchWords_inv (n : Nat) : ∀ {s : State} (_ : s.Inv) (b : Bundle) (core pc : Nat) (na : Bool) (acc : List W64),
    (s.fetchWords b core pc na n acc).1.Inv := by
  induction n with
  | zero => exact fun h _ _ _ _ _ => h
  | succ n ih =>
    intro s h b core pc na acc
    unfold State.fetchWords
    split
    · rename_i s1 w e
      exact ih (State.Inv.fst e (State.fetchWord_inv h _ _ _ _)) _ _ _ _ _
    · rename_i s1 r _ e
      exact State.Inv.fst e (State.fetchWord_inv h _ _ _ _)

theorem State.fetchFault_inv {s : State} (h : s.Inv) (b : Bundle) (c : Cause) (addr : Option Nat) : (s.fetchFault b c addr).Inv := by
  unfold State.fetchFault
  split
  · exact State.endWalk_inv h _ _ _
  · exact State.settle_inv (State.takeGroup_inv (State.filterBundles_inv h _) _ _ _ _ _ _ _) _

theorem State.prefetchClause_inv {s : State} (h : s.Inv) (b : Bundle) (core pc : Nat) : (s.prefetchClause b core pc).Inv := by
  unfold State.prefetchClause
  split
  · rename_i s1 w e
    exact State.fetchWords_inv _ (State.Inv.fst e (State.fetchWord_inv h _ _ _ _)) _ _ _ _ _
  · exact h

theorem State.fetchClause_inv {s : State} (h : s.Inv) (b : Bundle) : (s.fetchClause b).Inv := by
  unfold State.fetchClause
  extract_lets core wait
  have hw : ∀ s pc, s.Inv → (wait s pc).Inv := fun s pc h => State.holdForWalks_inv h _ _ _
  have hf := State.fetchWord_inv h b core b.pc true
  split
  · rename_i s1 e
    exact hw _ _ (State.Inv.fst e hf)
  · rename_i s1 c e
    exact State.fetchFault_inv (State.Inv.fst e hf) _ _ _
  · rename_i s1 w e
    have h1 : s1.Inv := State.Inv.fst e hf
    refine ite_inv (State.fetchFault_inv h1 _ _ _) ?_
    have hg := State.fetchWords_inv (headWords w + 1) h1 b core b.pc (headNoAlloc w) []
    split
    · rename_i s2 ws e2
      exact hw _ _ (State.Inv.fst e2 hg)
    · rename_i s2 c ws e2
      exact State.fetchFault_inv (State.Inv.fst e2 hg) _ _ _
    · rename_i s2 z ws e2
      have h2 := State.Inv.fst e2 hg
      refine State.modBundle_inv ?_ _ _ (by intro _; rfl)
      exact State.standThreads_inv (ite_inv (State.prefetchClause_inv h2 _ _ _) h2) _ _ (by intro _; rfl) _

/-! ## Packets -/

theorem State.feStore_inv {s : State} (h : s.Inv) (ctx va : Nat) (bs : List Byte) : ExcInv (s.feStore ctx va bs) := by
  unfold State.feStore
  split
  · exact .error _
  · exact State.sysWrite_inv h _ _ _

theorem State.addDone_inv {s : State} (h : s.Inv) (ctx va : Nat) : ExcInv (s.addDone ctx va) := by
  unfold State.addDone
  split
  · exact .error _
  · exact State.feStore_inv h _ _ _

theorem State.haltAt_inv {s : State} (h : s.Inv) (n : PktName) : (s.haltAt n).Inv := State.modQueue_inv h _ _

theorem State.advanceCidx_inv (n : Nat) : ∀ {s : State} (_ : s.Inv) (q : Nat), (s.advanceCidx q n).Inv := by
  induction n with
  | zero => exact fun h _ => h
  | succ n ih =>
    intro s h q
    unfold State.advanceCidx
    extract_lets x here s1
    split
    · exact h
    · refine ite_inv h (ih (State.modQueue_inv ?_ _ _) _)
      exact h.same rfl rfl rfl

theorem ExcInv.orElse {s : State} (h : s.Inv) {r : Except Cause State} :
    ExcInv r → (match r with | .ok s => s | .error _ => s : State).Inv := by
  cases r with
  | ok t => exact fun hr => hr t rfl
  | error c => exact fun _ => h

theorem State.completePacket_inv {s : State} (h : s.Inv) (p : Packet) (e : PktEnd) : OptInv (s.completePacket p e) := by
  unfold State.completePacket
  split
  · exact .none
  · rename_i e' _
    extract_lets st
    have hst : ExcInv st := State.feStore_inv h _ _ _
    clear_value st
    split
    · exact .none
    · extract_lets bad s1 s2 s3 s4 s5
      have h1 : s1.Inv := ExcInv.orElse h hst
      have h2 : s2.Inv := ite_inv (ExcInv.orElse h1 (State.feStore_inv h1 _ _ _)) h1
      have h3 : s3.Inv := ite_inv (h2.same rfl rfl rfl) h2
      have h4 : s4.Inv := State.modPacket_inv h3 _ _
      have h5 : s5.Inv := State.advanceCidx_inv _ h4 _
      exact .some (ite_inv (State.haltAt_inv h5 _) h5)

theorem OptInv.getD {o : Option State} (h : OptInv o) {s : State} (hs : s.Inv) : (o.getD s).Inv := by
  cases o with
  | none => exact hs
  | some t => exact h t rfl

theorem State.endPacket_inv {s : State} (h : s.Inv) (p : Packet) (e : PktEnd) : (s.endPacket p e).Inv :=
  (State.completePacket_inv h p e).getD (State.modPacket_inv h _ _)

theorem State.orEnding_inv {s go : State} (h : s.Inv) (hg : go.Inv) (n : PktName) : (s.orEnding n go).Inv := by
  unfold State.orEnding
  split
  · exact State.endPacket_inv h _ _
  · exact hg

theorem State.begin?_inv {s : State} (h : s.Inv) {n : PktName} {kind : Nat} {r : State × Packet} (e : s.begin? n kind = some r) :
    r.1.Inv := by
  unfold State.begin? at e
  obtain ⟨p, -, rfl⟩ := Option.map_eq_some_iff.mp e
  exact ite_fst_inv h (State.modPacket_inv h _ _)

/-! ## Launches -/

theorem State.promote_inv (n : Nat) : ∀ {s : State} (_ : s.Inv) (ctx : Nat), (s.promote ctx n).Inv := by
  induction n with
  | zero => exact fun h _ => h
  | succ n ih =>
    intro s h ctx
    unfold State.promote
    split
    · exact h
    · exact ite_inv (ih (State.modPacket_inv h _ _) _) h

theorem State.acceptLaunch_inv {s : State} (h : s.Inv) (p : Packet) (r : LRec) (d : KDesc) (ivs : List Interval) (args : List Byte) :
    (s.acceptLaunch p r d ivs args).Inv := by
  unfold State.acceptLaunch
  extract_lets id s1
  have h1 : s1.Inv := State.modCtx_inv h _ _
  split
  rename_i s2 due e
  have h2 : s2.Inv := by
    revert e
    have hs := State.feStore_inv h1 p.ctx (p.slot + 0x3C) (bytesOfNat 4 id)
    split
    · rename_i u e1
      intro e
      simp only [Prod.mk.injEq] at e
      exact e.1 ▸ hs.get e1
    · intro e
      simp only [Prod.mk.injEq] at e
      exact e.1 ▸ h1
  extract_lets l s3
  have h3 : s3.Inv := State.modPacket_inv h2 _ _
  refine State.promote_inv _ ?_ _
  exact h3.same rfl rfl rfl

theorem State.writeId_inv {s : State} (h : s.Inv) (p : Packet) : (s.writeId p).Inv := by
  unfold State.writeId
  split
  · rename_i u e
    exact State.modPacket_inv ((State.feStore_inv h _ _ _).get e) _ _
  · exact h
  · exact State.modPacket_inv h _ _

theorem State.placeSeed_inv {s : State} (h : s.Inv) (ctx id : Nat) : (s.placeSeed ctx id).Inv := by
  unfold State.placeSeed
  split
  · exact h
  · extract_lets r s1
    have h1 : s1.Inv := State.modPacket_inv h _ _
    split
    · exact State.failLaunch_inv h1 _ _ _ _
    · exact State.modLaunch_inv h1 _ _ _

theorem State.putDigest_inv {s : State} (h : s.Inv) (page : Nat) (d : List Byte) : (s.putDigest page d).Inv := by
  unfold State.putDigest
  exact ite_inv (h.same rfl rfl rfl) (h.same rfl rfl rfl)

theorem State.hashPart_inv {s : State} (h : s.Inv) (ctx va n : Nat) : (s.hashPart ctx va n).1.Inv := by
  unfold State.hashPart
  extract_lets page
  split
  · exact h
  · split
    · exact State.putDigest_inv h _ _
    · exact h

theorem hashEach_inv {α : Type} (f : State → α → State × Except Cause (List Byte)) (hf : ∀ s x, s.Inv → (f s x).1.Inv)
    {s : State} (h : s.Inv) (l : List α) : (hashEach f s l).1.Inv := by
  unfold hashEach
  refine State.Inv.foldlFst _ _ (fun a x ha => ?_) h
  split
  · exact ha
  · exact hf _ _ ha

theorem State.hashInterval_inv {s : State} (h : s.Inv) (ctx : Nat) (v : Interval) : (s.hashInterval ctx v).1.Inv :=
  hashEach_inv _ (fun _ _ h => State.hashPart_inv h _ _ _) h _
theorem State.hashIntervals_inv {s : State} (h : s.Inv) (ctx : Nat) (vs : List Interval) : (s.hashIntervals ctx vs).1.Inv :=
  hashEach_inv _ (fun _ _ h => State.hashInterval_inv h _ _) h _

theorem State.appendMeasure_inv {s : State} (h : s.Inv) (l : Launch) : (s.appendMeasure l).Inv := by
  unfold State.appendMeasure
  exact State.modLaunch_inv (State.modCtx_inv h _ _) _ _ _

theorem State.appendCompletion_inv {s : State} (h : s.Inv) (l : Launch) (state cause : Nat) (reused : Bool) (ds : List (List Byte)) :
    (s.appendCompletion l state cause reused ds).Inv := by
  unfold State.appendCompletion
  exact State.modLaunch_inv (State.modCtx_inv h _ _) _ _ _

theorem State.touchReuse_inv {s : State} (h : s.Inv) (r : Reuse) : (s.touchReuse r).Inv := h.same rfl rfl rfl

theorem State.measureAndPlace_inv {s : State} (h : s.Inv) (l : Launch) : (s.measureAndPlace l).Inv := by
  unfold State.measureAndPlace
  have h1 := State.appendMeasure_inv h l
  refine ite_inv (State.placeSeed_inv h1 _ _) ?_
  split
  · exact State.placeSeed_inv h1 _ _
  · exact State.modPacket_inv (State.modLaunch_inv (State.touchReuse_inv h1 _) _ _ _) _ _

theorem State.acceptSpawn_inv {s : State} (h : s.Inv) (l : Launch) (t : Team) (r : LRec) (d : KDesc) (args : List Byte) :
    (s.acceptSpawn l t r d args).Inv := by
  unfold State.acceptSpawn
  exact State.modTeam_rest_inv (State.modLaunch_inv h _ _ _) _ _ (by intro _; rfl)

theorem State.failSpawn_inv {s : State} (h : s.Inv) (t : Team) (e : PendingLaunch) (c : Cause) : (s.failSpawn t e c).Inv := by
  unfold State.failSpawn
  exact State.failLaunchOf_inv (State.modTeam_rest_inv (State.takeReport_inv h _ _ _ _) _ _ (by intro _; rfl)) _ _ _

theorem State.accountPut_inv {s : State} (h : s.Inv) (ctx : Nat) (bs : List Byte) : (s.accountPut ctx bs).Inv := State.ringPut_inv h _ _ _ _ _

theorem State.accountTeam_inv {s : State} (h : s.Inv) (t : Team) (halted : Bool) : (s.accountTeam t halted).Inv := by
  unfold State.accountTeam
  split
  · exact h
  · exact State.accountPut_inv h _ _

theorem State.oweEntry_inv {s : State} (h : s.Inv) (t : Team) (halted : Bool) : (s.oweEntry t halted).Inv := by
  unfold State.oweEntry
  split
  · exact h
  · exact State.modLaunch_inv h _ _ _

theorem State.payEntries_inv {s : State} (h : s.Inv) (ctx id : Nat) (who : Nat → Bool) : (s.payEntries ctx id who).Inv := by
  unfold State.payEntries
  split
  · exact h
  · exact State.modLaunch_inv (State.Inv.foldl _ _ (fun _ _ h => State.accountPut_inv h _ _) h) _ _ _

theorem State.accountRetired_inv {s : State} (h : s.Inv) (t : Team) : (s.accountRetired t).Inv := by
  unfold State.accountRetired
  exact ite_inv (State.oweEntry_inv h _ _) (State.accountTeam_inv (ite_inv (State.payEntries_inv h _ _ _) h) _ _)

theorem State.scrubPair_inv {s : State} (h : s.Inv) (t : Team) : (s.scrubPair t).Inv := by
  unfold State.scrubPair
  exact ite_inv (State.modPair_inv h _ _) h

theorem State.removeTeam_inv {s : State} (h : s.Inv) (t : Team) : (s.removeTeam t).Inv := by
  unfold State.removeTeam
  refine State.wakeCopies_inv (State.scrubPair_inv (State.trimMonitor_inv (State.modCore_inv ?_ _ _) _) _) _
  exact (State.filterBundles_inv (State.filterTeams_inv h fun u => u.key != t.key) fun b => b.key != t.key).same rfl rfl rfl

theorem State.publishLaunch_inv {s : State} (h : s.Inv) (ctx id : Nat) : (s.publishLaunch ctx id).Inv := by
  unfold State.publishLaunch
  exact State.Inv.foldl _ _ (fun s c h => State.performFifo_inv _ h _) h

theorem State.completeGrid_inv {s : State} (h : s.Inv) (l : Launch) (g : Grid) : OptInv (s.completeGrid l g) := by
  unfold State.completeGrid
  extract_lets s1 s2
  have h1 : s1.Inv := State.applyHeld_inv (State.publishLaunch_inv h _ _) _ _ _
  have h2 : s2.Inv := State.modLaunch_inv h1 _ _ _
  split
  · exact .some h2
  · split
    · exact .none
    · exact .some (State.failLaunch_inv h2 _ _ _ _)
    · rename_i s3 e
      exact .some ((State.addDone_inv h2 _ _).get e)

theorem State.evictReuse_inv {s : State} (h : s.Inv) (ctx quota : Nat) : (s.evictReuse ctx quota).Inv := h.same rfl rfl rfl

theorem State.makeReuse_inv {s : State} (h : s.Inv) (l : Launch) (ds : List (List Byte)) : (s.makeReuse l ds).Inv := by
  unfold State.makeReuse
  exact ite_inv h (h.same rfl rfl rfl)

theorem State.finishLaunch_inv {s : State} (h : s.Inv) (l : Launch) (e : PktEnd) (reused : Bool) (ds : List (List Byte)) :
    OptInv (s.finishLaunch l e reused ds) := by
  unfold State.finishLaunch
  split
  · exact .none
  · extract_lets s1 l' s2 s3
    have h1 : s1.Inv := ite_inv h (State.appendCompletion_inv h _ _ _ _ _)
    have h2 : s2.Inv := ite_inv (State.makeReuse_inv h1 _ _) h1
    have h3 : s3.Inv := State.accountPut_inv h2 _ _
    refine OptInv.map (State.completePacket_inv h3 _ _) fun s h => ?_
    refine State.promote_inv _ ?_ _
    exact h.same rfl rfl rfl

theorem State.lastDone_inv {s : State} (h : s.Inv) (l : Launch) : ExcInv (s.lastDone l) := by
  unfold State.lastDone
  split
  · exact .ok h
  · exact State.addDone_inv h _ _

theorem State.completeLaunch_inv {s : State} (h : s.Inv) (l : Launch) : OptInv (s.completeLaunch l) := by
  unfold State.completeLaunch
  extract_lets s1
  have h1 : s1.Inv := State.publishLaunch_inv h _ _
  split
  · exact .none
  · exact State.finishLaunch_inv h1 _ _ _ _
  · rename_i s2 e2
    have h2 := (State.lastDone_inv h1 _).get e2
    split
    · exact .some (State.failLaunch_inv h2 _ _ _ _)
    · split
      · exact .none
      · split
        · exact State.finishLaunch_inv h2 _ _ _ _
        · split
          rename_i s3 r e3
          have h3 : s3.Inv := State.Inv.fst e3 (State.hashIntervals_inv h2 _ _)
          split
          · exact .none
          · exact .some (State.failLaunch_inv h3 _ _ _ _)
          · exact State.finishLaunch_inv h3 _ _ _ _

theorem State.dropOps_inv {s : State} (h : s.Inv) (mine : TeamKey → Bool) : (s.dropOps mine).Inv := by
  unfold State.dropOps
  exact State.Inv.foldl _ _ (fun s n h => State.modPair_inv h _ _) h

theorem State.scrubLaunch_inv {s : State} (h : s.Inv) (l : Launch) : (s.scrubLaunch l).Inv := by
  unfold State.scrubLaunch
  extract_lets mine ts s1 s1' s2 s2' s3 s4
  have h1 : s1.Inv := State.Inv.foldl _ _ (fun s t h => State.accountTeam_inv (State.traceTeam_inv h _ _) _ _)
    (State.payEntries_inv h _ _ _)
  have h1' : s1'.Inv := State.Inv.foldl _ _ (fun s g h => State.dropGroup_inv h g) h1
  have h2 : s2.Inv := h1'.same rfl rfl rfl
  have h2' : s2'.Inv := State.dropOps_inv h2 _
  have h3 : s3.Inv := State.Inv.foldl _ _ (fun s t h => State.removeTeam_inv h _) h2'
  have h4 : s4.Inv := State.Inv.foldl _ _ (fun s c h => State.modCore_inv h _ _) h3
  exact State.Inv.foldl _ _ (fun s c h => State.modDie_inv h _ _) h4

theorem State.writeNotes_inv (ns : List (List Byte)) : ∀ {s : State} (_ : s.Inv) (ctx va last : Nat) (r : State × Nat),
    s.writeNotes ctx va last ns = some r → r.1.Inv := by
  induction ns with
  | nil =>
    intro s h ctx va last r e
    unfold State.writeNotes at e
    simp only [Option.some.injEq] at e
    exact e ▸ h
  | cons n ns ih =>
    intro s h ctx va last r e
    unfold State.writeNotes at e
    split at e
    · simp only [Option.some.injEq] at e
      exact e ▸ h
    · split at e
      · simp at e
      · simp only [Option.some.injEq] at e
        exact e ▸ h
      · rename_i s1 e1
        exact ih ((State.sysWrite_inv h _ _ _).get e1) _ _ _ _ e

theorem State.coreImage_inv {s : State} (h : s.Inv) (l : Launch) (c : Cause) : OptInv (s.coreImage l c) := by
  unfold State.coreImage
  extract_lets v log hd notes file base
  split
  · exact .some h
  · split
    · exact .some (ite_inv (h.same rfl rfl rfl) h)
    · split
      · exact .none
      · rename_i s1 stop e
        have h1 : s1.Inv := State.writeNotes_inv _ h _ _ _ _ e
        split
        · exact .none
        · exact .some h1
        · rename_i s2 e2
          exact .some ((State.sysWrite_inv h1 _ _ _).get e2)

theorem State.endFailed_inv {s : State} (h : s.Inv) (l : Launch) (c : Cause) : OptInv (s.endFailed l c) := by
  unfold State.endFailed
  extract_lets s1
  have h1 : s1.Inv := State.publishLaunch_inv h _ _
  split
  · exact .none
  · rename_i s2 e
    exact State.finishLaunch_inv (State.scrubLaunch_inv ((State.coreImage_inv h1 _ _).get e) _) _ _ _ _

theorem State.copyResult_inv {s : State} (h : s.Inv) (ctx : Nat) (src dst : Interval) : (s.copyResult ctx src dst).1.Inv := by
  unfold State.copyResult
  refine ite_fst_inv h (State.Inv.foldlFst _ _ (fun a x ha => ?_) h)
  split
  · exact ha
  · split
    · exact ite_fst_inv ha (State.writePart_inv ha _ _ _ _ _)
    · exact ha
    · exact ha

theorem State.copyResults_inv {s : State} (h : s.Inv) (l : Launch) (r : Reuse) : (s.copyResults l r).1.Inv := by
  unfold State.copyResults
  refine State.Inv.foldlFst _ _ (fun a x ha => ?_) h
  split
  · exact ha
  · exact State.copyResult_inv ha _ _ _

/-! ## Contexts -/

theorem State.zeroFlows_inv {s : State} (h : s.Inv) (ctx : Nat) : (s.zeroFlows ctx).Inv := by
  unfold State.zeroFlows
  refine State.Inv.foldl _ _ (fun s r h => State.Inv.foldl _ _ (fun s i h => ?_) h) h
  exact State.writeBytes_inv (State.Inv.foldl _ _ (fun s b h => State.writeBytes_inv h _ _) h) _ _

theorem State.endPackets_inv {s : State} (h : s.Inv) (ctx : Nat) : (s.endPackets ctx).Inv := by
  unfold State.endPackets
  exact State.Inv.foldl _ _ (fun s p h => State.endPacket_inv h _ _) h

theorem State.teardown_inv {s : State} (h : s.Inv) (ctx : Nat) : (s.teardown ctx).Inv := by
  unfold State.teardown
  extract_lets s0 mine s1 s2 s3
  have h0 : s0.Inv := State.endPackets_inv (State.modCtx_inv h _ _) ctx
  have h1 : s1.Inv := State.Inv.foldl _ _ (fun s l h => State.appendCompletion_inv (State.failLaunch_inv h _ _ _ _) _ _ _ _ _) h0
  have h2 : s2.Inv := h1.same rfl rfl rfl
  have h3 : s3.Inv := State.zeroFlows_inv h2 _
  exact State.wake_inv (State.modCtx_inv h3 _ _)

theorem State.invalidateAll_inv {s : State} (h : s.Inv) (i : Inval) : (s.invalidateAll i).Inv := by
  unfold State.invalidateAll
  exact State.Inv.foldl _ _ (fun s c h => State.invalidate_inv h _ _) h

theorem State.tlbshoot_inv {s : State} (h : s.Inv) (v : W64) (kind : Nat) : (s.tlbshoot v kind).Inv := by
  unfold State.tlbshoot
  refine ite_inv h ?_
  split
  · exact h
  · rename_i j _
    refine ite_inv h (ite_inv (h.same rfl rfl rfl) ?_)
    clear * - h
    exact State.invalidateAll_inv (s := { s with shoot := shootFields v, shootBusy := true }) (h.same rfl rfl rfl) j

theorem State.touchWindow_inv {s : State} (h : s.Inv) (d : Derived) : (s.touchWindow d).Inv := h.same rfl rfl rfl

theorem State.copyPage_inv {s : State} (h : s.Inv) (old new : Nat) : (s.copyPage old new).Inv := by
  unfold State.copyPage
  generalize List.range 1024 = l
  refine State.Inv.foldl _ _ (fun s i h => ?_) h
  generalize (s.readBlock (.here (old + 64 * i))).getD (s.storedBlock (old + 64 * i)) = b
  obtain ⟨h1, h2, h3, h4⟩ := h.memory
  refine h.stored ?_ ?_ ?_ ⟨swf_ssetMany 0 _ _ _ h1, swf_sset _ _ _ _ h2, h3, h4⟩ <;> rfl

theorem State.rekeyPage_inv {s : State} (h : s.Inv) (old new : Nat) : (s.rekeyPage old new).Inv := by
  unfold State.rekeyPage
  extract_lets pg line code digest s1 s2 s'
  have h1 : s1.Inv := h.same rfl rfl rfl
  have h2 : s2.Inv := by
    unfold s2
    clear_value digest
    cases digest with
    | some d => exact State.putDigest_inv h1 _ _
    | none => exact h1
  have h' : s'.Inv := by
    clear_value pg s2
    exact h2.same rfl rfl rfl
  clear_value s'
  exact State.Inv.foldl _ _ (fun s c h => State.modCore_inv h _ _) h'

end Sys2Proof.Machine
end

