-- ==== Sys2Proof/Laws/InvPlace.lean ====
section
/-! SUPPORT. InvPlace.lean: the invariant through placing, starting, saving and restoring teams. -/

namespace Sys2Proof.Machine

theorem State.endReservations_inv {s : State} (h : s.Inv) : s.endReservations.Inv := by
  unfold State.endReservations
  exact State.Inv.foldl _ _ (fun s n h => State.modDie_inv h _ _) h

theorem State.loseCores_inv {s : State} (h : s.Inv) (lost : Launch → List Nat) : (s.loseCores lost).Inv := by
  unfold State.loseCores
  exact State.endReservations_inv (h.same rfl rfl rfl)

theorem State.failStuck_inv {s : State} (h : s.Inv) (ctx : Nat) : (s.failStuck ctx).Inv := by
  unfold State.failStuck
  exact State.Inv.foldl _ _ (fun s l h => State.failLaunch_inv h _ _ _ _) h

theorem State.loseVacated_inv {s : State} (h : s.Inv) (ts : List Team) (cores : List Nat) : (s.loseVacated ts cores).Inv :=
  State.loseCores_inv h _

theorem State.startBundles_inv {s : State} (h : s.Inv) (t : Team) : (s.startBundles t).Inv := by
  unfold State.startBundles
  exact State.Inv.foldl _ _ (fun s p h => State.mkBundle_inv h _ _ _ _ _ _) h

theorem State.startTeam_inv {s : State} (h : s.Inv) (l : Launch) (g : Grid) (index swarmIdx core relaunches : Nat) :
    (s.startTeam l g index swarmIdx core relaunches).Inv := by
  unfold State.startTeam
  extract_lets k t t' s1 s2 s3 s4
  have ht : t'.RegsWf := Team.start_regs k core g.id index swarmIdx g.depth g.desc (scalarsOf g.desc.scalars g.args)
  have h1 : s1.Inv := State.acquire_inv h _ _
  have h2 : s2.Inv := State.addTeam_inv h1 _ ht
  have h3 : s3.Inv := State.startBundles_inv h2 _
  have h4 : s4.Inv := State.traceTeam_inv h3 _ _
  exact ite_inv (State.stopLaunch_inv h4 _ _) h4

theorem State.startSwarm_inv {s : State} (h : s.Inv) (l : Launch) (g : Grid) (x : Swarm) (n w relaunches : Nat) :
    (s.startSwarm l g x n w relaunches).Inv := by
  unfold State.startSwarm
  extract_lets s1 s2 s3 s4
  have h1 : s1.Inv := ite_inv (State.modPair_inv h _ _) h
  have h2 : s2.Inv := State.Inv.foldl _ _ (fun s i h => State.startTeam_inv h _ _ _ _ _ _) h1
  have h3 : s3.Inv := State.modLaunch_inv h2 _ _ _
  have h4 : s4.Inv := State.Inv.foldl _ _ (fun _ _ h => State.modDie_inv h _ _) h3
  exact State.modDie_inv h4 _ _

theorem State.boardTo_inv {s : State} (h : s.Inv) (k : TeamKey) (core : Nat) : (s.boardTo k core).Inv := h.same rfl rfl rfl

theorem State.saveTeam_inv {s : State} (h : s.Inv) (k : TeamKey) (held swapped : Bool) : (s.saveTeam k held swapped).Inv := by
  unfold State.saveTeam
  split
  · exact h
  · rename_i t e
    extract_lets s1 lead p s2 s3 s4 s5 s6 s7
    have h1 : s1.Inv := State.drain_inv (State.flushTeam_inv h _) _
    have h2 : s2.Inv := by
      refine State.Inv.foldl _ _ (fun s b h => ?_) h1
      exact State.standThreads_inv h _ _ (by intro _; rfl) _
    have h3 : s3.Inv := State.modTeam_inv h2 _ _ fun t ht => Team.mapThreads_regs ht _ fun _ hx => hx
    have h4 : s4.Inv := ite_inv (State.modPair_inv h3 _ _) h3
    have h5 : s5.Inv := State.filterBundles_inv h4 _
    have h6 : s6.Inv := State.boardTo_inv h5 _ _
    have h7 : s7.Inv := State.modCore_inv h6 _ _
    exact State.wakeCopies_inv (State.trimMonitor_inv h7 _) _

theorem State.saveSwarm_inv {s : State} (h : s.Inv) (t : Team) : (s.saveSwarm t).Inv := by
  unfold State.saveSwarm
  exact State.Inv.foldl _ _ (fun s k h => State.saveTeam_inv h _ _ _) h

theorem State.reissueMove_inv {s : State} (h : s.Inv) (core : Nat) (m : Move) : (s.reissueMove core m).Inv := by
  unfold State.reissueMove
  extract_lets n m1 s1 m2 go
  have h1 : s1.Inv := h.same rfl rfl rfl
  have hg : ∀ s, s.Inv → (go s).Inv := fun s h =>
    ite_inv (State.sendMove_inv (State.modMove_inv h _ _) _) (State.modMove_inv h _ _)
  clear_value go s1
  split
  · exact hg _ h1
  · split
    · exact State.rejoinGroup_inv (State.modMove_inv h1 _ _) _ _ _ _
    · exact hg _ (ite_inv (State.dropGroup_inv h1 _) h1)

theorem State.reissueStream_inv {s : State} (h : s.Inv) (pair : Nat) (o : MatOp) : (s.reissueStream pair o).Inv := by
  unfold State.reissueStream
  extract_lets put o1 s1
  have h1 : s1.Inv := h.same rfl rfl rfl
  have hp : ∀ (s : State) o, s.Inv → (put s o).Inv := fun s o h => State.modPair_inv h _ _
  clear_value put s1
  split
  · exact hp _ _ h1
  · split
    · exact hp _ _ h1
    · refine ite_inv (State.dropGroup_inv (hp _ _ h1) _) ?_
      split
      · exact State.rejoinGroup_inv (State.modGroup_inv (hp _ _ h1) _ _) _ _ _ _
      · exact State.modGroup_inv (hp _ _ h1) _ _

theorem State.restorePair_inv {s : State} (h : s.Inv) (core : Nat) (p : Pair) : (s.restorePair core p).Inv := by
  unfold State.restorePair
  exact State.Inv.foldl _ _ (fun s o h => State.reissueStream_inv h _ _) (State.modPair_inv h _ _)

theorem State.restoreGroup_inv {s : State} (h : s.Inv) (g : Group) : (s.restoreGroup g).Inv := by
  unfold State.restoreGroup
  split
  · refine ite_inv (State.replayGroup_inv h _) (ite_inv ?_ h)
    exact State.release_inv (State.modGroup_inv (State.standThreads_inv h _ _ (by intro _; rfl) _) _ _) _ _ _ _
  · exact ite_inv (State.releaseGroup_inv h _) h
  · exact ite_inv (State.releaseGroup_inv h _) h
  all_goals exact h

theorem State.restoreWaits_inv {s : State} (h : s.Inv) (k : TeamKey) (core : Nat) (ts : List Thread) :
    (s.restoreWaits k core ts).Inv := by
  unfold State.restoreWaits
  extract_lets s1
  have h1 : s1.Inv := by
    refine State.Inv.foldl _ _ (fun s x h => ?_) h
    split
    · split
      rename_i e
      exact State.modThread_inv (State.Inv.fst e (State.monitorWait_inv h _ _)) _ _ _ fun _ hx => hx
    · exact h
  clear_value s1
  split
  · exact h1
  · exact State.endWaits_inv h1 _ _

theorem State.restoreTeam_inv {s : State} (h : s.Inv) (k : TeamKey) (core : Nat) : (s.restoreTeam k core).Inv := by
  unfold State.restoreTeam
  split
  · exact h
  · rename_i t e
    extract_lets s1 s2 s3 s4 s5 s6 s6' s7 s8 s9
    have h1 : s1.Inv := State.modTeam_inv h _ _ fun t ht => Team.mapThreads_regs ht _ fun _ hx => hx
    have h2 : s2.Inv := State.boardTo_inv (State.acquire_inv h1 _ _) _ _
    have h3 : s3.Inv := by
      unfold s3
      split
      · exact State.restorePair_inv h2 _ _
      · exact h2
    have h4 : s4.Inv := State.Inv.foldl _ _ (fun s m h => State.reissueMove_inv h _ _) h3
    have h5 : s5.Inv := State.Inv.foldl _ _ (fun s x h => State.fileThread_inv h _ _ _) h4
    have h6 : s6.Inv := State.regroup_inv h5 _ _ _ _
    have h6' : s6'.Inv := State.regroup_inv h6 _ _ _ _
    have h7 : s7.Inv := State.release_inv h6' _ _ _ _
    have h8 : s8.Inv := State.restoreWaits_inv h7 _ _ _
    have h9 : s9.Inv := State.Inv.foldl _ _ (fun s g h => State.restoreGroup_inv h g) h8
    exact State.wake_inv (State.settle_inv (State.enterHeld_inv h9 _) _)

theorem State.restoreSwarm_inv {s : State} (h : s.Inv) (ts : List Team) (w : Nat) : (s.restoreSwarm ts w).Inv := by
  unfold State.restoreSwarm
  exact State.Inv.foldl _ _ (fun s t h => State.restoreTeam_inv h _ _) h

theorem State.startWork_inv {s : State} (h : s.Inv) (x : Work) (w : Nat) : (s.startWork x w).Inv := by
  unfold State.startWork
  exact State.modLaunch_inv (State.startSwarm_inv h _ _ _ _ _ _) _ _ _

theorem State.noteWaiting_inv {s : State} (h : s.Inv) (die : Nat) (x : Work) : (s.noteWaiting die x).Inv := by
  unfold State.noteWaiting
  exact ite_inv h (State.modDie_inv h _ _)

theorem State.startOrWait_inv {s : State} (h : s.Inv) (die : Nat) (x : Work) : (s.startOrWait die x).Inv := by
  unfold State.startOrWait
  split
  · exact State.startWork_inv h _ _
  · exact State.noteWaiting_inv h _ _

theorem State.modWaiting_inv {s : State} (h : s.Inv) (die : Nat) (y : Waiting) (f : Waiting → Waiting) :
    (s.modWaiting die y f).Inv := State.modDie_inv h _ _

theorem State.migrate_inv {s : State} (h : s.Inv) (k : TeamKey) (clearing : List Nat) : OptInv (s.migrate k clearing) := by
  unfold State.migrate
  split
  · exact .none
  · extract_lets ctx die x op fixed s1 target
    have h1 : s1.Inv := State.loseVacated_inv h _ _
    clear_value target
    cases target with
    | none => exact .none
    | some c => exact .some (State.modDie_inv (State.restoreTeam_inv (State.saveTeam_inv h1 _ _ _) _ _) _ _)

theorem State.readmit_inv {s : State} (h : s.Inv) (t : Team) (die : Nat) : (s.readmit t die).Inv := by
  unfold State.readmit
  split
  · exact h
  · exact State.modDie_inv (State.restoreSwarm_inv h _ _) _ _

end Sys2Proof.Machine
end

