-- ==== Sys2Proof/Laws/InvHive.lean ====
section
/-! SUPPORT. InvHive.lean: the invariant through collectives, segments, the debugger, killed swarms, the hive, registers, resets
and time. -/

namespace Sys2Proof.Machine

/-! ## Collectives -/

theorem State.collSend_inv {s : State} (h : s.Inv) (p : Packet) (c : Coll) (step : Nat) : ExcInv (s.collSend p c step) := by
  unfold State.collSend
  extract_lets l reduce
  refine ExcInv.foldl _ _ (fun o x ho => ?_) (.ok h)
  split
  · exact .error _
  · rename_i s1
    have h1 := ho.get rfl
    extract_lets ranks
    split
    · exact .error _
    · split
      · exact .error _
      · exact .ok (State.sendAll_inv h1 _ _ _ _ _ _ _ _)

theorem State.collReduce_inv {s : State} (h : s.Inv) (reduce fmt : Nat) (old src : List Byte) :
    (s.collReduce reduce fmt old src).1.Inv := by
  unfold State.collReduce
  exact ite_fst_inv (h.same rfl rfl rfl) h

theorem State.collWrite_inv {s : State} (h : s.Inv) (parts : List (Place × Nat)) (bytes : List Byte) (mark : Option Cause) :
    (s.collWrite parts bytes mark).Inv := by
  unfold State.collWrite
  refine scatter_inv _ _ _ (fun s p b h => ?_) h
  exact ite_inv (State.writePoison_inv (State.writeBytes_inv h _ _) _ _) (State.writeBytes_inv h _ _)

theorem State.collCopy_inv {s : State} (h : s.Inv) (parts : List (Place × Nat)) (b : Block) : (s.collCopy parts b).Inv := by
  unfold State.collCopy
  exact scatter_inv _ _ _ (fun s p b h => State.writePart_inv h _ _ _ _ _) h

theorem State.collLand_inv {s : State} (h : s.Inv) (p : Packet) (step src blk : Nat) (parts : List (Place × Nat)) (reduce : Nat)
    (b : Block) : (s.collLand p step src blk parts reduce b).Inv := by
  unfold State.collLand
  split
  · exact h
  · refine State.modPacket_inv (ite_inv h (ite_inv ?_ (State.collCopy_inv h _ _))) _ _
    exact State.collWrite_inv (State.collReduce_inv h _ _ _ _) _ _ _

theorem State.collLandPeer_inv {s : State} (h : s.Inv) (p : Packet) (step : Nat) (parts : List (Place × Nat)) (reduce : Nat)
    (b : Block) : (s.collLandPeer p step parts reduce b).Inv := by
  unfold State.collLandPeer
  split
  · exact h
  · refine ite_inv h (ite_inv ?_ (State.collCopy_inv h _ _))
    exact State.collWrite_inv (State.collReduce_inv h _ _ _ _) _ _ _

theorem State.modColl_inv {s : State} (h : s.Inv) (n : PktName) (f : Coll → Coll) : (s.modColl n f).Inv := State.modPacket_inv h _ _

theorem State.collMismatch_inv {s : State} (h : s.Inv) (p : Packet) (c : Coll) : (s.collMismatch p c).Inv := by
  unfold State.collMismatch
  exact State.Inv.foldl _ _ (fun s x h => State.endPacket_inv h _ _) h

theorem State.collStart_inv {s : State} (h : s.Inv) (p : Packet) (c : Coll) (step : Nat) : OptInv (s.collStart p c step) := by
  unfold State.collStart
  split
  · exact .none
  · exact .some (State.endPacket_inv h _ _)
  · rename_i s1 e
    exact .some ((State.collSend_inv h _ _ _).get e)

theorem State.collCombine_inv {s : State} (h : s.Inv) (p : Packet) (c : Coll) : ExcInv (s.collCombine p c) := by
  unfold State.collCombine
  extract_lets l full shape
  split
  · exact .ok h
  · refine ExcInv.foldl _ _ (fun o x ho => ?_) (.ok h)
    split
    · exact .error _
    · rename_i s1
      have h1 := ho.get rfl
      split
      · exact .error _
      · extract_lets part first r
        have hr : r.1.Inv := by
          refine State.Inv.foldlFst _ _ (fun a j ha => ?_) h1
          exact State.collReduce_inv ha _ _ _ _
        exact .ok (State.collWrite_inv hr _ _ _)

theorem State.modFlow_inv {s : State} (h : s.Inv) (die : Nat) (f : Nat × Nat × Nat → Nat × Nat × Nat) : (s.modFlow die f).Inv :=
  h.same rfl rfl rfl

theorem State.countLateBar_inv {s : State} (h : s.Inv) : s.countLateBar.Inv := by
  unfold State.countLateBar
  exact State.Inv.foldl _ _ (fun s d h => State.modFlow_inv h _ _) h

/-! ## Segments -/

theorem State.advanceSeq_inv {s : State} (h : s.Inv) (g : Segment) : (s.advanceSeq g).Inv := by
  unfold State.advanceSeq
  exact ite_inv (h.same rfl rfl rfl) (h.same rfl rfl rfl)

theorem State.updateRecv_inv {s : State} (h : s.Inv) (g : Segment) (bs : List Block) : (s.updateRecv g bs).Inv := by
  unfold State.updateRecv
  split
  · exact h
  · exact State.Inv.foldl _ _ (fun s x h => State.put16_inv (State.put16_inv (State.recordLine_inv h _ _) _ _) _ _) h

theorem Team.landBlock_regs {t : Team} (h : t.RegsWf) (l : Layout) (off : Nat) (b : TileBlock) (src : Block) :
    (t.landBlock l off b src).RegsWf := by
  have hw : ((t.spWrite off (b.landed src.bytes))).RegsWf := by
    unfold Team.spWrite
    split <;> exact h
  unfold Team.landBlock
  extract_lets mark u
  have hu : u.RegsWf := hw
  clear_value u mark
  split <;> exact hu

theorem State.landMove_inv {s : State} (h : s.Inv) (m : Move) (src : Coord) (code : Nat) (parts : List (Place × Nat)) (b : Block) :
    (s.landMove m src code parts b).Inv := by
  unfold State.landMove
  extract_lets t s1
  have h1 : s1.Inv := ite_inv (State.modTeam_inv h _ _ fun u hu => Team.landBlock_regs hu _ _ _ _) (State.putRank_inv h _ _ _ _ _)
  exact State.modMove_inv h1 _ _

theorem State.landColl_inv {s : State} (h : s.Inv) (g : Segment) (r : CollRef) (peer : Bool) (x : SegBlock) (b : Block) :
    OptInv (s.landColl g r peer x b) := by
  unfold State.landColl
  split
  · exact .some h
  · split
    · exact .some (ite_inv h (State.collLandPeer_inv h _ _ _ _ _))
    · split
      · exact .some (State.collLand_inv h _ _ _ _ _ _ _)
      · split
        · exact .none
        · exact .some (State.endPacket_inv h _ _)
        · exact .some (State.collLand_inv h _ _ _ _ _ _ _)

theorem State.applySegment_inv {s : State} (h : s.Inv) (g : Segment) (peer : Bool) (bs : List Block) :
    OptInv (s.applySegment g peer bs) := by
  unfold State.applySegment
  extract_lets s1 xs done
  have h1 : s1.Inv := State.updateRecv_inv h _ _
  have hd : OptInv done := by
    unfold done
    split
    · split
      · exact .some h1
      · exact .some (State.Inv.foldl _ _ (fun s x h => State.landMove_inv h _ _ _ _ _) h1)
    · exact OptInv.foldl _ _ (fun o x ho => ho.bind fun s h => State.landColl_inv h _ _ _ _ _) (.some h1)
    · exact .some h1
  refine hd.map fun s h => State.advanceSeq_inv ?_ _
  exact h.same rfl rfl rfl

theorem State.countFlow_inv {s : State} (h : s.Inv) (g : Segment) (desync : Bool) : (s.countFlow g desync).Inv := by
  unfold State.countFlow
  exact ite_inv h (State.modFlow_inv h _ _)

theorem State.failCrc_inv {s : State} (h : s.Inv) (g : Segment) : (s.failCrc g).Inv := by
  unfold State.failCrc
  have h1 := State.countFlow_inv h g true
  simp only
  split
  · exact State.clearTags_inv h1 _
  · exact h1

theorem State.nakSegment_inv {s : State} (h : s.Inv) (g : Segment) (crc : Bool) : (s.nakSegment g crc).Inv := h.same rfl rfl rfl

/-! ## The debugger -/

theorem State.goOn_inv {s : State} (h : s.Inv) (k : TeamKey) (tids : List Nat) (single : Bool) : (s.goOn k tids single).Inv := by
  unfold State.goOn
  split
  · exact h
  · have h1 := State.standThreads_inv h k (fun x => { x with stopNext := single }) (by intro _; rfl) tids
    exact ite_inv (State.regroup_inv h1 _ _ _ _) (State.standThreads_inv h1 _ _ (by intro _; rfl) _)

theorem State.resumeLaunch_inv {s : State} (h : s.Inv) (ctx launch : Nat) : (s.resumeLaunch ctx launch).Inv := by
  unfold State.resumeLaunch
  extract_lets ts s1 s2 s3 isStop
  have h1 : s1.Inv := by
    refine State.Inv.foldl _ _ (fun s t h => ?_) h
    refine State.settle_inv (State.goOn_inv ?_ _ _ _) _
    refine State.modTeam_inv h _ _ fun t ht => ?_
    exact Team.mapThreads_regs ht _ fun _ hx => hx
  clear_value s1
  have h2 : s2.Inv := State.modLaunch_inv h1 _ _ _
  have h3 : s3.Inv := State.setBundles_inv h2 _ fun b hb => by
    obtain ⟨x, hx, rfl | rfl⟩ := mem_modWhere hb
    · exact h2.bundles x hx
    · exact h2.bundles _ hx
  clear_value s3
  exact State.wake_inv (State.Inv.foldl _ _ (fun s g h => State.dropGroup_inv h _) h3)

theorem State.stepGroup_inv {s : State} (h : s.Inv) (k : TeamKey) (tids : List Nat) : (s.stepGroup k tids).Inv := by
  unfold State.stepGroup
  exact State.goOn_inv h _ _ _

/-! ## Killed swarms -/

theorem State.stopSwarm_inv {s : State} (h : s.Inv) (t : Team) (c : Cause) : (s.stopSwarm t c).Inv := by
  unfold State.stopSwarm
  extract_lets ks mine s1
  have h0 : ({ s with teams := modWhere (fun u => mine u.key) (fun u => { u with killed := some c }) s.teams } : State).Inv :=
    State.setTeams_inv h _ fun u hu => by
      obtain ⟨x, hx, rfl | rfl⟩ := mem_modWhere hu
      · exact h.regs x hx
      · exact h.regs _ hx
  have h1 : s1.Inv := State.filterBundles_inv h0 _
  clear_value s1
  exact State.Inv.foldl _ _ (fun s p h => State.modPair_inv h _ _) h1

theorem State.scrubKilled_inv {s : State} (h : s.Inv) (t : Team) : (s.scrubKilled t).Inv := by
  unfold State.scrubKilled
  extract_lets mine gs s1 s2 s3
  have h1 : s1.Inv := State.Inv.foldl _ _ (fun s g h => State.dropGroup_inv h _) h
  have h2 : s2.Inv := h1.same rfl rfl rfl
  have h3 : s3.Inv := State.Inv.foldl _ _ (fun s c h => State.modCore_inv h _ _) h2
  exact State.removeTeam_inv h3 _

theorem State.endKill_inv {s : State} (h : s.Inv) (t : Team) (c : Cause) : (s.endKill t c).Inv := by
  unfold State.endKill
  extract_lets ts die again s1 s2
  refine ite_inv h ?_
  have h1 : s1.Inv := State.Inv.foldl _ _ (fun s u h => by
    have ht := State.traceTeam_inv h u 4
    exact ite_inv (State.oweEntry_inv ht _ _) (State.accountTeam_inv ht _ _)) h
  have h2 : s2.Inv := State.Inv.foldl _ _ (fun s u h => State.scrubKilled_inv h _) h1
  exact State.wake_inv (ite_inv (State.failStuck_inv (State.modLaunch_inv h2 _ _ _) _) (State.failLaunchOf_inv h2 _ _ _))

theorem State.killSwarm_inv {s : State} (h : s.Inv) (t : Team) (c : Cause) : (s.killSwarm t c).Inv := by
  exact State.endKill_inv (State.stopSwarm_inv h _ _) _ _

theorem State.recordFetch_inv {s : State} (h : s.Inv) (o : MatOp) (why : MxWhy) : (s.recordFetch o why).Inv := by
  unfold State.recordFetch
  extract_lets r put
  split
  pick_goal 3
  · split <;> exact h.same rfl rfl rfl
  all_goals exact h.same rfl rfl rfl

/-! ## The hive -/

theorem State.recordAck_inv {s : State} (h : s.Inv) (g : Group) : (s.recordAck g).Inv :=
  (State.modGroup_inv h g.id (fun g => { g with ack := some 1, slots := 0 })).same rfl rfl rfl

theorem State.deliverResults_inv {s : State} (h : s.Inv) (g : Group) : (s.deliverResults g).Inv := by
  unfold State.deliverResults
  exact State.Inv.foldl _ _ (fun s r h => State.modThread_inv h _ _ _ fun _ hx => Thread.landWords_regs hx _ _) h

theorem State.replayMove_inv {s : State} (h : s.Inv) (g : Group) (op : Nat) : (s.replayMove g op).Inv := by
  unfold State.replayMove
  extract_lets s1
  have h1 : s1.Inv := State.dropGroup_inv (State.modMove_inv h _ _) _
  split
  · exact ite_inv h1 (State.sendMove_inv h1 _)
  · exact h1

theorem State.replayStream_inv {s : State} (h : s.Inv) (g : Group) (pair op : Nat) : (s.replayStream g pair op).Inv :=
  State.dropGroup_inv (State.modPair_inv h _ _) _

theorem State.failGroup_inv {s : State} (h : s.Inv) (g : Group) (c : Cause) : (s.failGroup g c).Inv := by
  unfold State.failGroup
  extract_lets s1
  have h1 : s1.Inv := State.modGroup_inv (State.failLaunch_inv h g.ctx g.launch c g.id) _ _
  exact State.wake_inv (h1.same rfl rfl rfl)

theorem State.cancelGroup_inv {s : State} (h : s.Inv) (g : Group) : (s.cancelGroup g).Inv := by
  unfold State.cancelGroup
  split
  · exact State.wake_inv (State.dropGroup_inv h _)
  all_goals exact State.failGroup_inv h _ _

theorem State.replayOrRelease_inv {s : State} (h : s.Inv) (g : Group) : (s.replayOrRelease g).Inv := by
  unfold State.replayOrRelease
  extract_lets saved core go
  have hgo : ∀ f : State → State, (∀ s, s.Inv → (f s).Inv) → (go f).Inv := fun f hf =>
    ite_inv (State.recordAck_inv h _) (State.settle_inv (hf _ h) _)
  clear_value go
  have hrel : ∀ s : State, s.Inv → (((s.acquire core .sys).releaseGroup g).settle g.key).Inv := fun s h =>
    State.settle_inv (State.releaseGroup_inv (State.acquire_inv h _ _) _) _
  split
  · exact ite_inv (hgo _ fun s h => State.replayGroup_inv h _) (State.failGroup_inv h _ _)
  · exact ite_inv (hgo _ fun s h => State.wake_inv (State.replayMove_inv h _ _)) (State.failGroup_inv h _ _)
  · exact ite_inv (hgo _ fun s h => State.wake_inv (State.replayStream_inv h _ _ _)) (State.failGroup_inv h _ _)
  · have h1 := State.deliverResults_inv h g
    exact ite_inv (State.recordAck_inv h1 _) (hrel _ h1)
  · exact ite_inv (ite_inv (State.recordAck_inv h _) (hrel _ h)) (State.failGroup_inv h _ _)
  all_goals exact State.failGroup_inv h _ _

theorem State.svcPerform_inv {s : State} (h : s.Inv) (ctx : Nat) (r : FaultRec) (p : SvcReply) : (s.svcPerform ctx r p).1.Inv := by
  unfold State.svcPerform
  extract_lets a bs
  repeat' apply ite_fst_inv
  all_goals first
    | exact h
    | exact h.same rfl rfl rfl
    | split
      · rename_i s1 e
        exact (State.sysWrite_inv h _ _ _).get e
      · exact h

theorem State.serve_inv (rs : List FaultRec) : ∀ {s : State} (_ : s.Inv) (ctx : Nat) (reps : List SvcReply) (r : State × List FaultRec),
    s.serve ctx rs reps = some r → r.1.Inv := by
  induction rs with
  | nil =>
    intro s h ctx reps r e
    cases reps with
    | nil =>
      unfold State.serve at e
      simp only [Option.some.injEq] at e
      exact e ▸ h
    | cons p ps =>
      unfold State.serve at e
      simp at e
  | cons x rs ih =>
    intro s h ctx reps r e
    unfold State.serve at e
    split at e
    · simp at e
    · obtain ⟨y, hy, rfl⟩ := Option.map_eq_some_iff.mp e
      exact ih h _ _ y hy
    · split at e
      · simp at e
      · split at e
        rename_i e1
        obtain ⟨y, hy, rfl⟩ := Option.map_eq_some_iff.mp e
        exact ih (State.Inv.fst e1 (State.svcPerform_inv h _ _ _)) _ _ y hy

theorem State.runSyscall_inv {s : State} (h : s.Inv) (id : Nat) (reps : List SvcReply) : OptInv (s.runSyscall id reps) := by
  unfold State.runSyscall
  split
  · split
    · exact .some h
    · exact .none
  · intro t e
    obtain ⟨x, hx, rfl⟩ := Option.map_eq_some_iff.mp e
    have hs := State.serve_inv _ h _ _ x hx
    refine State.replayOrRelease_inv ?_ _
    split
    · exact State.putRecords_inv (State.modGroup_inv hs _ _) _ _
    · exact State.modGroup_inv hs _ _

theorem State.trapRing_inv {s : State} (h : s.Inv) (g : Group) : (s.trapRing g).Inv := by
  unfold State.trapRing
  exact State.Inv.foldl _ _ (fun s x h => State.ringPut_inv h _ _ _ _ _) h

theorem State.runFault_inv {s : State} (h : s.Inv) (id : Nat) : (s.runFault id).Inv := by
  unfold State.runFault
  split
  · exact h
  · split
    · exact ite_inv h (State.failGroup_inv h _ _)
    · exact ite_inv h (State.failGroup_inv h _ _)
    · exact ite_inv h (State.failGroup_inv h _ _)
    · exact ite_inv (State.replayOrRelease_inv (State.trapRing_inv h _) _) (State.failGroup_inv h _ _)
    · exact h
    · exact State.failGroup_inv h _ _
    · exact h

theorem State.runCancel_inv {s : State} (h : s.Inv) (p : Packet) : (s.runCancel p).Inv := by
  unfold State.runCancel
  exact State.endPacket_inv (State.Inv.foldl _ _ (fun s g h => State.cancelGroup_inv h _) h) _ _

theorem State.runSeal_inv {s : State} (h : s.Inv) (p : Packet) (x : Seal) (signer : Nat) : OptInv (s.runSeal p x signer) := by
  unfold State.runSeal
  extract_lets q body used
  have hu : ∀ {u : State}, u.Inv → (used u).Inv := fun h => State.setSigner_inv h _ _
  clear_value used
  split
  · exact .none
  · split
    · exact .some (State.endPacket_inv h _ _)
    · split
      · exact .none
      · exact .some (State.endPacket_inv (hu h) _ _)
      · rename_i s1 e
        have h1 := (State.sysWrite_inv h _ _ _).get e
        exact .some (State.endPacket_inv (State.modCtx_inv (hu h1) _ _) _ _)

theorem State.runPacket_inv {s : State} (h : s.Inv) (ctx seq signer : Nat) : OptInv (s.runPacket ctx seq signer) := by
  unfold State.runPacket
  split
  · exact .some h
  · split
    · exact State.runSeal_inv h _ _ _
    · exact .some (State.runCancel_inv h _)

theorem State.runEvent_inv {s : State} (h : s.Inv) (e : HiveEvent) (signer : Nat) (reps : List SvcReply) :
    OptInv (s.runEvent e signer reps) := by
  unfold State.runEvent
  split
  · exact State.runSyscall_inv h _ _
  · split
    · exact .some (State.runFault_inv h _)
    · exact .none
  · split
    · exact State.runPacket_inv h _ _ _
    · exact .none
  · split
    · exact .some h
    · exact .none

theorem State.takeEvent_inv {s : State} (h : s.Inv) (signer : Nat) (reps : List SvcReply) (l : List HiveEvent) :
    ∀ before, OptInv (s.takeEvent signer reps before l) := by
  induction l with
  | nil => exact fun _ => .none
  | cons e rest ih =>
    intro before
    unfold State.takeEvent
    split
    · rename_i s1 e1
      have h0 : ({ s with events := before ++ rest } : State).Inv := h.same rfl rfl rfl
      exact .some ((State.runEvent_inv h0 _ _ _).get e1)
    · exact ih _

/-! ## Registers, resets and time -/

theorem State.writeQueue_inv {s : State} (h : s.Inv) (q off : Nat) (v : W64) : (s.writeQueue q off v).Inv := by
  unfold State.writeQueue
  exact ite_inv (State.modQueue_inv h _ _) (ite_inv (State.modQueue_inv h _ _) h)

theorem State.clearFlow_inv {s : State} (h : s.Inv) (die : Nat) (v : W64) : (s.clearFlow die v).Inv := State.modFlow_inv h _ _

theorem State.writeSingle_inv {s : State} (h : s.Inv) (who : Writer) (a : Nat) (v : W64) : (s.writeSingle who a v).Inv := by
  unfold State.writeSingle
  repeat' apply ite_inv
  all_goals exact h.same rfl rfl rfl

theorem findSome_inv {l : List (Option State)} (hl : ∀ o ∈ l, OptInv o) : OptInv (l.findSome? id) := fun t e => by
  obtain ⟨o, ho, e⟩ := List.exists_of_findSome?_eq_some e
  exact hl o ho t e

theorem map_inv {α : Type} (o : Option α) (f : α → State) (hf : ∀ x, (f x).Inv) : OptInv (o.map f) := fun t e => by
  obtain ⟨x, _, rfl⟩ := Option.map_eq_some_iff.mp e
  exact hf x

theorem State.writeReg_inv {s : State} (h : s.Inv) (who : Writer) (a : Nat) (v : W64) : (s.writeReg who a v).Inv := by
  unfold State.writeReg
  extract_lets r
  refine OptInv.getD (findSome_inv fun o ho => ?_) (State.writeSingle_inv h _ _ _)
  simp only [List.mem_cons, List.not_mem_nil, or_false] at ho
  rcases ho with rfl | rfl | rfl | rfl | rfl | rfl | rfl | rfl | rfl <;> refine map_inv _ _ fun x => ?_
  · exact State.writeQueue_inv h _ _ _
  · exact ite_inv (State.modCtx_inv h _ _) h
  · exact State.modDerived_inv h _ _
  · exact State.modCtx_inv h _ _
  · exact ite_inv (State.clearFlow_inv h _ _) h
  · exact State.modCtx_inv h _ _
  · exact State.modCtx_inv h _ _
  · exact State.modCtx_inv h _ _
  · exact ite_inv (State.modCtx_inv h _ _) h

/-- A memory, and the table of the signers; everything else as after a reset. -/
theorem State.reset_with_inv {s t : State} (h : s.Inv)
    (e : (t.cores, t.pairs, t.ctxs, t.queues, t.islands, t.dies, t.derived)
      = (State.reset.cores, State.reset.pairs, State.reset.ctxs, State.reset.queues, State.reset.islands, State.reset.dies,
         State.reset.derived))
    (es : t.signer = s.signer) (b : t.bundles = []) (m : t.teams = []) (k : t.MemoryWf) : t.Inv := by
  simp only [Prod.mk.injEq] at e
  obtain ⟨e1, e2, e3, e4, e5, e6, e7⟩ := e
  exact {
    memory := k
    tables := {
      cores := by rw [e1]; rfl
      pairs := by rw [e2]; rfl
      ctxs := by rw [e3]; rfl
      queues := by rw [e4]; rfl
      islands := by rw [e5]; rfl
      dies := by rw [e6]; rfl
      derived := by rw [e7]; rfl
      signer := es ▸ h.tables.signer }
    bundles := by unfold State.BundlesWf; rw [b]; simp
    regs := by unfold State.RegsWf; rw [m]; simp }

theorem State.afterReset_inv {s : State} (h : s.Inv) : s.afterReset.Inv :=
  State.reset_with_inv h rfl rfl rfl rfl h.memory

theorem swfFrom_map {α : Type} [DecidableEq α] {d : α} (f : Nat × α → Nat × α) (hk : ∀ p, (f p).1 = p.1)
    (hd : ∀ p, p.2 ≠ d → (f p).2 ≠ d) (l : List (Nat × α)) : ∀ lo, swfFrom d lo l = true → swfFrom d lo (l.map f) = true := by
  induction l with
  | nil => exact fun _ h => h
  | cons x t ih =>
    intro lo h
    obtain ⟨k, v⟩ := x
    have e : f (k, v) = (k, (f (k, v)).2) := Prod.ext (hk _) rfl
    rw [List.map_cons, e]
    unfold swfFrom at h ⊢
    simp only [Bool.and_eq_true, decide_eq_true_eq, ne_eq] at h ⊢
    exact ⟨⟨h.1.1, hd _ h.1.2⟩, ih _ h.2⟩

theorem State.elapse_inv {s : State} (h : s.Inv) (e : Nat) : (s.elapse e).Inv := by
  unfold State.elapse
  extract_lets later n
  have h1 : later.Inv := h.same rfl rfl rfl
  have h2 : ({ later with teams := s.teams.map s.noteTeam } : State).Inv :=
    State.setTeams_inv h1 _ fun t ht => by
      obtain ⟨x, hx, rfl⟩ := List.mem_map.mp ht
      exact h.regs x hx
  refine h2.units rfl rfl rfl { h2.tables with pairs := ?_ }
  show swfFrom _ 0 (List.map _ s.pairs) = true
  refine swfFrom_map _ ?_ ?_ _ _ h.tables.pairs
  · exact fun p => rfl
  intro p hp
  simp only
  split
  · rename_i hs
    intro e2
    have hq : p.2.queue = [] := congrArg Pair.queue e2
    unfold State.starved at hs
    simp [Pair.nextOp?, hq] at hs
  · exact hp

theorem State.tick_inv {s : State} (h : s.Inv) (n : Nat) : (s.tick n).Inv := State.elapse_inv h _

end Sys2Proof.Machine
end

