-- ==== Sys2Proof/Laws/Words.lean ====
section
/-! SUPPORT. Words.lean: a word of a bundle that may issue it (Safety.lean, MayIssue) issues: the general case, a word whose
effect on each thread is that thread's own, and a word that acts on one thread. -/

namespace Sys2Proof.Machine

/-! ## The issuer -/

/-- What the issuer of a state is. -/
theorem State.issuer?_spec {s : State} {i : Issuer} (h : s.issuer? = some i) :
    s.focus = some i.b.id ∧ s.bundle? i.b.id = some i.b ∧ i.b.clause = some i.cl ∧ s.team? i.b.key = some i.t
      ∧ i.cl.atEnd = false ∧ i.ts = i.b.tids.filterMap i.t.thread? := by
  unfold State.issuer? at h
  simp only [Option.bind_eq_bind, Option.bind_eq_some_iff] at h
  obtain ⟨id, hf, b, hb, cl, hcl, t, ht, h⟩ := h
  split at h
  · cases h
  · rename_i hend
    cases h
    have hid : b.id = id := by
      have := List.find?_some hb
      simpa using this
    refine ⟨by rw [hf, hid], by simpa [hid] using hb, hcl, ht, by simpa using hend, rfl⟩

theorem Thread.bumpWps (l : List Nat) : ∀ x : Thread, l.foldl Thread.bumpWp x = { x with wp := (l.foldl Thread.bumpWp x).wp } := by
  induction l with
  | nil => intro x; rfl
  | cons n l ih => intro x; refine (ih _).trans ?_; rfl

/-- Beginning a clause changes a thread's counts of waits alone. -/
theorem Issuer.begin_eq (i : Issuer) (x : Thread) : i.begin x = { x with wp := (i.begin x).wp } := by
  unfold Issuer.begin
  split
  · rfl
  · exact Thread.bumpWps _ _

@[simp] theorem Issuer.begin_tid (i : Issuer) (x : Thread) : (i.begin x).tid = x.tid := by rw [Issuer.begin_eq]
@[simp] theorem Issuer.begin_regs (i : Issuer) (x : Thread) : (i.begin x).regs = x.regs := by rw [Issuer.begin_eq]
@[simp] theorem Issuer.begin_preds (i : Issuer) (x : Thread) : (i.begin x).preds = x.preds := by rw [Issuer.begin_eq]
@[simp] theorem Issuer.begin_pend (i : Issuer) (x : Thread) : (i.begin x).pend = x.pend := by rw [Issuer.begin_eq]
@[simp] theorem Issuer.begin_win (i : Issuer) (x : Thread) : (i.begin x).win = x.win := by rw [Issuer.begin_eq]
@[simp] theorem Issuer.begin_lpr (i : Issuer) (x : Thread) : (i.begin x).lpr = x.lpr := by rw [Issuer.begin_eq]
@[simp] theorem Issuer.begin_atomSeq (i : Issuer) (x : Thread) : (i.begin x).atomSeq = x.atomSeq := by rw [Issuer.begin_eq]
@[simp] theorem Issuer.begin_arr (i : Issuer) (x : Thread) : (i.begin x).arr = x.arr := by rw [Issuer.begin_eq]
@[simp] theorem Issuer.begin_batches (i : Issuer) (x : Thread) : (i.begin x).batches = x.batches := by rw [Issuer.begin_eq]
@[simp] theorem Issuer.begin_unsealed (i : Issuer) (x : Thread) : (i.begin x).unsealed = x.unsealed := by rw [Issuer.begin_eq]
@[simp] theorem Issuer.begin_reg (i : Issuer) (x : Thread) (r : Nat) : (i.begin x).reg r = x.reg r := by
  unfold Thread.reg; rw [Issuer.begin_regs]
@[simp] theorem Issuer.begin_pair (i : Issuer) (x : Thread) (r : Nat) : (i.begin x).pair r = x.pair r := by
  unfold Thread.pair; rw [Issuer.begin_reg, Issuer.begin_reg]
@[simp] theorem Issuer.begin_pred (i : Issuer) (x : Thread) (k : Nat) : (i.begin x).pred k = x.pred k := by
  unfold Thread.pred; rw [Issuer.begin_preds]

theorem Issuer.selects_begin (i : Issuer) (c : Ctl) (x : Thread) : selects c (i.begin x) = selects c x := by
  unfold selects; rw [Issuer.begin_pred]

/-! ## The clause begins -/

/-- Several threads of a team change one after another. -/
theorem State.foldThreads_thread? (k : TeamKey) (f : Thread → Thread) (hf : ∀ x, (f x).tid = x.tid) (l : List Thread)
    (hl : (l.map (·.tid)).Nodup) (j : Nat) : ∀ s : State,
    (l.foldl (fun s x => s.modThread k x.tid f) s).thread? k j
      = if j ∈ l.map (·.tid) then (s.thread? k j).map f else s.thread? k j := by
  induction l with
  | nil => intro s; simp
  | cons x l ih =>
    intro s
    simp only [List.map_cons, List.nodup_cons] at hl
    simp only [List.foldl_cons]
    rw [ih hl.2, State.thread?_modThread _ _ _ _ _ _ hf]
    by_cases h : j = x.tid
    · subst h
      rw [if_neg hl.1, if_pos ⟨rfl, rfl⟩, if_pos (by simp)]
    · simp [h]

theorem State.foldThreads_frame (k : TeamKey) (f : Thread → Thread) (l : List Thread) : ∀ s : State,
    l.foldl (fun s x => s.modThread k x.tid f) s
      = { s with teams := (l.foldl (fun s x => s.modThread k x.tid f) s).teams } := by
  induction l with
  | nil => intro s; rfl
  | cons x l ih => intro s; refine (ih _).trans ?_; rfl

theorem State.foldThreads_rest (k k' : TeamKey) (f : Thread → Thread) (l : List Thread) : ∀ s : State,
    ((l.foldl (fun s x => s.modThread k x.tid f) s).team? k').map Team.rest = (s.team? k').map Team.rest := by
  induction l with
  | nil => intro s; rfl
  | cons x l ih =>
    intro s
    refine (ih _).trans ?_
    rw [State.team?_modThread]
    split
    · cases s.team? k' <;> rfl
    · rfl

/-- The threads of the issuer, each named once. -/
theorem Issuer.tids_nodup {s : State} {i : Issuer} (h : s.issuer? = some i) (hn : i.b.tids.Nodup) :
    (i.ts.map (·.tid)).Nodup := by
  obtain ⟨-, -, -, -, -, hts⟩ := State.issuer?_spec h
  rw [hts]
  have : (i.b.tids.filterMap i.t.thread?).map (·.tid) = i.b.tids.filter fun j => (i.t.thread? j).isSome := by
    clear hn hts
    induction i.b.tids with
    | nil => rfl
    | cons j l ih =>
      cases hj : i.t.thread? j with
      | none => simp [hj, ih]
      | some x =>
        have := Team.thread?_tid hj
        simp [hj, ih, this]
  rw [this]
  exact hn.filter _

theorem Issuer.mem_ts {s : State} {i : Issuer} (h : s.issuer? = some i) {x : Thread} (hx : x ∈ i.ts) :
    s.thread? i.b.key x.tid = some x ∧ x.tid ∈ i.b.tids := by
  obtain ⟨-, -, -, ht, -, hts⟩ := State.issuer?_spec h
  rw [hts, List.mem_filterMap] at hx
  obtain ⟨j, hj, hx⟩ := hx
  have := Team.thread?_tid hx
  subst this
  exact ⟨by unfold State.thread?; rw [ht]; exact hx, hj⟩

theorem State.beginClause_spec {s : State} {i : Issuer} (h : s.issuer? = some i) (hn : i.b.tids.Nodup) :
    (s.beginClause i).bundle? i.b.id = some { i.b with clause := some { i.cl with begun := true } }
      ∧ (∀ x ∈ i.ts, (s.beginClause i).thread? i.b.key x.tid = some (i.begin x))
      ∧ (∀ k, ((s.beginClause i).team? k).map Team.rest = (s.team? k).map Team.rest)
      ∧ s.beginClause i = { s with teams := (s.beginClause i).teams, bundles := (s.beginClause i).bundles } := by
  obtain ⟨-, hb, hcl, ht, hend, hts⟩ := State.issuer?_spec h
  have hbf : ∀ x, (Thread.bumpWp x 0).tid = x.tid := fun _ => rfl
  have htid : ∀ x : Thread, ((bitsOf i.cl.bwait).foldl Thread.bumpWp x).tid = x.tid := by
    intro x; rw [Thread.bumpWps]
  by_cases hbeg : i.cl.begun = true
  · have e : s.beginClause i = s := by unfold State.beginClause; simp [hbeg]
    rw [e]
    refine ⟨?_, ?_, fun _ => rfl, rfl⟩
    · have hb' : i.b = { i.b with clause := some { i.cl with begun := true } } := by
        have : i.cl = { i.cl with begun := true } := by
          conv_lhs => rw [show i.cl = { i.cl with begun := i.cl.begun } from rfl, hbeg]
        conv_lhs => rw [show i.b = { i.b with clause := i.b.clause } from rfl, hcl, this]
      rw [hb, ← hb']
    · intro x hx
      have : i.begin x = x := by unfold Issuer.begin; simp [hbeg]
      rw [this]
      exact (Issuer.mem_ts h hx).1
  · have e : s.beginClause i = (i.ts.foldl (fun s x => s.modThread i.b.key x.tid fun x =>
        (bitsOf i.cl.bwait).foldl Thread.bumpWp x) s).modBundle i.b.id fun b =>
          { b with clause := some { i.cl with begun := true } } := by
      unfold State.beginClause; simp [hbeg]
    have fr := State.foldThreads_frame i.b.key (fun x => (bitsOf i.cl.bwait).foldl Thread.bumpWp x) i.ts s
    refine ⟨?_, ?_, ?_, ?_⟩
    · rw [e, State.bundle?_modBundle _ _ _ ?hf, fr]
      case hf => intro; rfl
      show (s.bundle? i.b.id).map _ = _
      rw [hb]; rfl
    · intro x hx
      rw [e]
      show (i.ts.foldl _ s).thread? i.b.key x.tid = _
      rw [State.foldThreads_thread? _ _ htid _ (Issuer.tids_nodup h hn), if_pos (List.mem_map_of_mem hx),
        (Issuer.mem_ts h hx).1]
      have : i.begin x = (bitsOf i.cl.bwait).foldl Thread.bumpWp x := by unfold Issuer.begin; simp [hbeg]
      rw [this]; rfl
    · intro k
      rw [e]
      exact State.foldThreads_rest _ _ _ _ _
    · rw [e]
      generalize (i.ts.foldl (fun s x => s.modThread i.b.key x.tid fun x =>
        (bitsOf i.cl.bwait).foldl Thread.bumpWp x) s).teams = ts at fr
      rw [fr]
      rfl

theorem State.siteOf_begin {s : State} {i : Issuer} (h : s.issuer? = some i) (hn : i.b.tids.Nodup) (w : OpWord) :
    (s.beginClause i).siteOf w i = i.site w := by
  unfold State.siteOf Issuer.site Issuer.on
  congr 1
  have e : i.ts.map (fun x => ((s.beginClause i).thread? i.b.key x.tid).getD x) = i.ts.map i.begin := by
    apply List.map_congr_left
    intro x hx
    rw [(State.beginClause_spec h hn).2.1 x hx]; rfl
  rw [e]
  clear e
  induction i.ts with
  | nil => rfl
  | cons x l ih =>
    simp only [List.map_cons, List.filter_cons, Issuer.selects_begin, ih]
    split <;> rfl

/-! ## Issue -/

theorem State.mustWait_pend (s : State) (k : TeamKey) (l : List Nat) {x y : Thread} (h : x.pend = y.pend) :
    s.mustWait k l x = s.mustWait k l y := by
  unfold State.mustWait State.fpHolds Thread.waitsFor; rw [h]

theorem State.fptrap_begin {s : State} {i : Issuer} (h : s.issuer? = some i) (hn : i.b.tids.Nodup) (k : TeamKey) :
    (s.beginClause i).fptrap k = s.fptrap k := by
  rw [(State.beginClause_spec h hn).2.2.2]; rfl

/-- A thread that waits for nothing has nothing to flush. -/
theorem State.flushFor_ready (s : State) (k : TeamKey) (tid : Nat) (l : List Nat)
    (h : ∀ x, s.thread? k tid = some x → x.waitsFor l = false) : s.flushFor k tid l = s := by
  unfold State.flushFor
  cases hx : s.thread? k tid with
  | none => rfl
  | some x =>
    have h0 : x.pend.filter (fun p => p.value.isNone && meets p.slots l) = [] := by
      rw [List.filter_eq_nil_iff]
      intro p hp
      have := h x hx
      unfold Thread.waitsFor at this
      rw [List.any_eq_false] at this
      simp [this p hp]
    simp only [h0]
    rw [if_pos]
    rw [List.isEmpty_iff, List.filter_eq_nil_iff]
    intro e _
    cases e.pend <;> simp

/-- A WORD ISSUES: where it may, and the effects of its threads leave a state and acts that all go on, the word is
committed there. -/
theorem issueWith_done {s : State} {i : Issuer} {w : OpWord} (h : MayIssue s i w)
    (ill : State → Site → Thread → Bool) (reg : Site → Clause → Clause) (rep : Report)
    (before : State → Site → Option State) (eff : State → Site → Thread → State × Act)
    (hbefore : before (s.beginClause i) (i.site w) = none) (s2 : State) (acts : List (Nat × Done))
    (hrun : ((s.beginClause i).runThreads (i.site w) fun s t =>
      s.threadAct w (i.site w) false (ill s (i.site w)) eff t) = (s2, actsOf acts)) :
    issueWith w ill reg rep before eff s = .next (s2.commit w (i.site w) (reg (i.site w)) rep (actsOf acts)) := by
  have hi := h.issuer
  have hn := h.bundle.2
  have hdrain : s.drainAtoms i = s := by
    unfold State.drainAtoms
    split
    · rfl
    · rename_i hc
      simp only [Bool.or_eq_true, Bool.not_eq_true', not_or, Bool.not_eq_true, Bool.not_eq_false] at hc
      have hr := h.header.resolve_left (by simp [hc.1])
      unfold State.headerReady at hr
      simp only [hc.2, Bool.not_true, Bool.false_or, Bool.and_eq_true, List.all_eq_true] at hr
      have : (i.ts.filter fun x => x.pend.any fun p => p.value.isNone) = [] := by
        rw [List.filter_eq_nil_iff]
        intro x hx
        have := hr.2 x hx
        rw [List.isEmpty_iff] at this
        simp [this]
      rw [this]; rfl
  have hready : (!i.cl.begun && !s.headerReady i.t i.ts i.cl) = false := by
    rcases h.header with hb | hb <;> simp [hb]
  have hsite := State.siteOf_begin hi hn w
  have hflush : (i.site w).on.foldl (fun s t => s.flushFor (i.site w).key t.tid w.slots) (s.beginClause i)
      = s.beginClause i := by
    suffices ∀ l : List Thread, (∀ x ∈ l, x ∈ (i.site w).on) →
        l.foldl (fun s t => s.flushFor (i.site w).key t.tid w.slots) (s.beginClause i) = s.beginClause i from
      this _ fun _ hx => hx
    intro l
    induction l with
    | nil => intro _; rfl
    | cons x l ih =>
      intro hl
      simp only [List.foldl_cons]
      rw [State.flushFor_ready]
      · exact ih fun y hy => hl y (List.mem_cons_of_mem _ hy)
      · intro y hy
        obtain ⟨z, hz, rfl⟩ := List.mem_map.mp (hl x List.mem_cons_self)
        have hzts : z ∈ i.ts := (List.mem_filter.mp hz).1
        rw [Issuer.begin_tid] at hy
        have := (State.beginClause_spec hi hn).2.1 z hzts
        rw [show (i.site w).key = i.b.key from rfl, this] at hy
        cases hy
        have hw := h.free z hz
        unfold State.mustWait at hw
        simp only [Bool.or_eq_false_iff] at hw
        unfold Thread.waitsFor at hw ⊢
        rw [Issuer.begin_pend]
        exact hw.1
  have hwait : ((i.site w).on.any ((s.beginClause i).mustWait (i.site w).key w.slots)) = false := by
    rw [List.any_eq_false]
    intro x hx
    obtain ⟨z, hz, rfl⟩ := List.mem_map.mp hx
    have hw := h.free z hz
    have e : (s.beginClause i).mustWait (i.site w).key w.slots (i.begin z) = s.mustWait i.b.key w.slots z := by
      unfold State.mustWait State.fpHolds Thread.waitsFor
      rw [Issuer.begin_pend, show (i.site w).key = i.b.key from rfl, State.fptrap_begin hi hn]
    rw [e, hw]; simp
  have hpast : (i.ts.any ((s.beginClause i).fpHolds (i.site w).key)) = false := by
    rw [List.any_eq_false]
    intro x hx
    have hp := h.past x hx
    unfold State.fpHolds at hp ⊢
    rw [show (i.site w).key = i.b.key from rfl, State.fptrap_begin hi hn, hp]; simp
  have hmiss : missesOf (actsOf acts) = [] := by simp [missesOf, actsOf, List.filterMap_map]
  have hnowait : ((actsOf acts).any fun x => x.2 == .wait) = false := by
    rw [List.any_eq_false]
    intro x hx
    obtain ⟨a, ha, rfl⟩ := List.mem_map.mp hx
    simp
  unfold issueWith
  simp only [hi, hdrain, Option.getD_some, hready, Bool.false_eq_true, if_false, h.legal, hsite, hbefore, hflush, hwait,
    hpast, Bool.or_self, Bool.not_false, Bool.and_false, hrun, hmiss, hnowait, List.isEmpty_nil, Bool.not_true]

/-- What a thread's act is where its word is legal and breaks no scoreboard. -/
theorem State.threadAct_eff (s : State) (w : OpWord) (site : Site) (ill : Thread → Bool)
    (eff : State → Site → Thread → State × Act) (t : Thread) (hill : ill t = false)
    (hshort : s.checking site.key site.cl = true → t.short (w.guard ++ w.slots) = false) :
    s.threadAct w site false ill eff t = eff s site t := by
  unfold State.threadAct
  simp only [hill, Bool.or_false, Bool.false_eq_true, if_false]
  rw [if_neg]
  simp only [Bool.and_eq_true, not_and, Bool.not_eq_true]
  exact hshort

theorem MayIssue.short_begin {s : State} {i : Issuer} {w : OpWord} (h : MayIssue s i w) {x : Thread} (hx : x ∈ i.on w) :
    (s.beginClause i).checking (i.site w).key (i.site w).cl = true → (i.begin x).short (w.guard ++ w.slots) = false := by
  intro hc
  unfold Thread.short
  rw [Issuer.begin_win]
  refine h.long x hx ?_
  rw [← hc]
  unfold State.checking
  rw [(State.beginClause_spec h.issuer h.bundle.2).2.2.2]
  rfl

/-- The acts of a word whose effect on each thread leaves the state alone. -/
theorem State.runThreads_pure (s : State) (site : Site) (f : State → Thread → State × Act) (g : Thread → Done)
    (hon : ∀ x ∈ site.on, s.thread? site.key x.tid = some x) (hf : ∀ x ∈ site.on, f s x = (s, .done (g x))) :
    s.runThreads site f = (s, actsOf (site.on.map fun x => (x.tid, g x))) := by
  unfold State.runThreads
  suffices ∀ (l : List Thread) (acc : List (Nat × Act)), (∀ x ∈ l, x ∈ site.on) →
      l.foldl (fun (acc : State × List (Nat × Act)) t =>
        ((f acc.1 ((acc.1.thread? site.key t.tid).getD t)).1,
          acc.2 ++ [(t.tid, (f acc.1 ((acc.1.thread? site.key t.tid).getD t)).2)])) (s, acc)
        = (s, acc ++ actsOf (l.map fun x => (x.tid, g x))) by
    have := this site.on [] fun _ h => h
    simpa using this
  intro l
  induction l with
  | nil => intro acc _; simp [actsOf]
  | cons x l ih =>
    intro acc hl
    have hx := hl x List.mem_cons_self
    simp only [List.foldl_cons]
    rw [hon x hx]
    simp only [Option.getD_some, hf x hx]
    rw [ih _ fun y hy => hl y (List.mem_cons_of_mem _ hy)]
    simp [actsOf]

theorem MayIssue.bar {s : State} {i : Issuer} {w : OpWord} (h : MayIssue s i w) {u : State}
    (hu : (u.team? i.b.key).map Team.tbarIn = (s.team? i.b.key).map Team.tbarIn)
    (hal : ∀ x ∈ i.ts, x.live = true → ∃ y, u.thread? i.b.key x.tid = some y ∧ y.live = true) :
    ∀ t, u.team? i.b.key = some t → t.Open := by
  intro t ht
  obtain ⟨-, -, -, hteam, -, -⟩ := State.issuer?_spec h.issuer
  rw [ht, hteam] at hu
  simp only [Option.map_some, Option.some.injEq] at hu
  obtain ⟨x, hx, hl, hn⟩ := h.running
  obtain ⟨y, hy, hl'⟩ := hal x hx hl
  unfold State.thread? at hy
  rw [ht] at hy
  exact ⟨x.tid, y, hy, hl', hu ▸ hn⟩

/-- Beginning a clause keeps its threads live. -/
theorem MayIssue.alive {s : State} {i : Issuer} {w : OpWord} (h : MayIssue s i w) :
    ∀ x ∈ i.ts, x.live = true → ∃ y, (s.beginClause i).thread? i.b.key x.tid = some y ∧ y.live = true := by
  intro x hx hl
  refine ⟨_, (State.beginClause_spec h.issuer h.bundle.2).2.1 x hx, ?_⟩
  rw [Issuer.begin_eq]; exact hl

theorem State.begin_tbarIn {s : State} {i : Issuer} (h : s.issuer? = some i) (hn : i.b.tids.Nodup) :
    ((s.beginClause i).team? i.b.key).map Team.tbarIn = (s.team? i.b.key).map Team.tbarIn := by
  have := congrArg (Option.map Team.tbarIn) ((State.beginClause_spec h hn).2.2.1 i.b.key)
  rw [Option.map_map, Option.map_map] at this
  exact this

theorem Issuer.on_tids {s : State} {i : Issuer} (h : s.issuer? = some i) (hn : i.b.tids.Nodup) (w : OpWord) (f : Thread → Done) :
    (((i.on w).map fun x => (x.tid, f x)).map Prod.fst).Nodup := by
  rw [List.map_map]
  have : (Prod.fst ∘ fun x : Thread => (x.tid, f x)) = (·.tid) := rfl
  rw [this]
  exact (Issuer.tids_nodup h hn).sublist (List.filter_sublist.map _)

/-- A WORD OF EACH THREAD'S OWN issues. -/
theorem issueWith_each {s : State} {i : Issuer} {w : OpWord} (h : MayIssue s i w)
    (ill : State → Site → Thread → Bool) (reg : Site → Clause → Clause) (rep : Report)
    (before : State → Site → Option State) (eff : State → Site → Thread → State × Act) (f : Thread → Done)
    (hbefore : before (s.beginClause i) (i.site w) = none)
    (hill : ∀ x ∈ i.on w, ill (s.beginClause i) (i.site w) (i.begin x) = false)
    (heff : ∀ x ∈ i.on w, eff (s.beginClause i) (i.site w) (i.begin x) = (s.beginClause i, .done (f (i.begin x))))
    (hf : ∀ x, (f x).plain) :
    ∃ t, issueWith w ill reg rep before eff s = .next t
      ∧ Issued (s.beginClause i) t i w (reg (i.site w)) ((i.on w).map fun x => (x.tid, f (i.begin x))) := by
  have hspec := State.beginClause_spec h.issuer h.bundle.2
  have hrun := State.runThreads_pure (s.beginClause i) (i.site w)
    (fun s t => s.threadAct w (i.site w) false (ill s (i.site w)) eff t) f
    (by
      intro x hx
      obtain ⟨z, hz, rfl⟩ := List.mem_map.mp hx
      rw [Issuer.begin_tid]
      exact hspec.2.1 z (List.mem_filter.mp hz).1)
    (by
      intro x hx
      obtain ⟨z, hz, rfl⟩ := List.mem_map.mp hx
      rw [State.threadAct_eff _ _ _ _ _ _ (hill z hz) (h.short_begin hz)]
      exact heff z hz)
  have hacts : (i.site w).on.map (fun x => (x.tid, f x)) = (i.on w).map fun x => (x.tid, f (i.begin x)) := by
    show ((i.on w).map i.begin).map _ = _
    rw [List.map_map]
    apply List.map_congr_left
    intro x _
    simp
  rw [hacts] at hrun
  refine ⟨_, issueWith_done h ill reg rep before eff hbefore _ _ hrun, ?_⟩
  refine Issued.commit _ i w _ rep _ _ rfl rfl rfl rfl ?_ ?_ ?_ h.bundle (by rw [hspec.1]; rfl) ?_
  · intro a ha
    obtain ⟨x, -, rfl⟩ := List.mem_map.mp ha
    exact hf _
  · exact Issuer.on_tids h.issuer h.bundle.2 w fun x => f (i.begin x)
  · intro a ha
    obtain ⟨x, hx, rfl⟩ := List.mem_map.mp ha
    exact (Issuer.mem_ts h.issuer (List.mem_filter.mp hx).1).2
  · exact h.bar (State.begin_tbarIn h.issuer h.bundle.2) h.alive

/-- A WORD THAT ACTS ON ONE THREAD issues: u is the state its effect leaves, which keeps the issuing bundle, the team barrier
and live threads as they were. -/
theorem issueWith_one {s : State} {i : Issuer} {w : OpWord} {x : Thread} (h : MayIssueOne s i w x)
    (ill : State → Site → Thread → Bool) (reg : Site → Clause → Clause) (rep : Report)
    (before : State → Site → Option State) (eff : State → Site → Thread → State × Act) (u : State) (d : Done)
    (hbefore : before (s.beginClause i) (i.site w) = none)
    (hill : ill (s.beginClause i) (i.site w) (i.begin x) = false)
    (heff : eff (s.beginClause i) (i.site w) (i.begin x) = (u, .done d)) (hd : d.plain)
    (hbun : (u.bundle? i.b.id).map Bundle.untold = ((s.beginClause i).bundle? i.b.id).map Bundle.untold)
    (hbar : (u.team? i.b.key).map Team.tbarIn = ((s.beginClause i).team? i.b.key).map Team.tbarIn)
    (hal : Alive (s.beginClause i) u) :
    ∃ t, issueWith w ill reg rep before eff s = .next t ∧ Issued u t i w (reg (i.site w)) [(x.tid, d)] := by
  have hm := h.toMayIssue
  have hspec := State.beginClause_spec hm.issuer hm.bundle.2
  have hx : x ∈ i.on w := by rw [h.one]; simp
  have hon : (i.site w).on = [i.begin x] := by
    show (i.on w).map i.begin = _
    rw [h.one]; rfl
  have hrun : ((s.beginClause i).runThreads (i.site w) fun s t =>
      s.threadAct w (i.site w) false (ill s (i.site w)) eff t) = (u, actsOf [(x.tid, d)]) := by
    unfold State.runThreads
    rw [hon]
    simp only [List.foldl_cons, List.foldl_nil, Issuer.begin_tid]
    rw [show (i.site w).key = i.b.key from rfl, hspec.2.1 x (List.mem_filter.mp hx).1]
    simp only [Option.getD_some]
    rw [State.threadAct_eff _ _ _ _ _ _ hill (hm.short_begin hx), heff]
    rfl
  refine ⟨_, issueWith_done hm ill reg rep before eff hbefore _ _ hrun, ?_⟩
  refine Issued.commit _ i w _ rep _ _ rfl rfl rfl rfl ?_ (by simp) ?_ hm.bundle (hbun.trans (by rw [hspec.1]; rfl)) ?_
  · intro a ha
    rw [List.mem_singleton] at ha
    subst ha; exact hd
  · intro a ha
    rw [List.mem_singleton] at ha
    subst ha
    exact (Issuer.mem_ts hm.issuer (List.mem_filter.mp hx).1).2
  · refine hm.bar (hbar.trans (State.begin_tbarIn hm.issuer hm.bundle.2)) fun x hx hl => ?_
    obtain ⟨y, hy, hl'⟩ := hm.alive x hx hl
    exact hal _ _ y hy hl'

/-! ## The three shapes of a word of each thread's own -/

/-- A word with no special rule, whose effect on a thread depends on that thread alone. -/
theorem issue_each {s : State} {i : Issuer} {w : OpWord} {n : Instr} (eff : State → Site → Thread → State × Act)
    (f : Thread → Done) (he : exec n s = issue w eff s)
    (heff : ∀ x, eff (s.beginClause i) (i.site w) (i.begin x) = (s.beginClause i, .done (f (i.begin x))))
    (hf : ∀ x, (f x).plain) : IssuesEach s i w n f := by
  intro h
  obtain ⟨t, ht, hi⟩ := issueWith_each h (fun _ _ _ => false) (fun _ c => c) {} (fun _ _ => none) eff f rfl
    (fun _ _ => rfl) (fun x _ => heff x) hf
  exact ⟨t, he.trans ht, hi⟩

/-- A fixed-latency write. -/
theorem issueFixed_each {s : State} {i : Issuer} {w : OpWord} {n : Instr} (d : Dest) (lat : Nat) (g f : Thread → W64)
    (he : exec n s = issueFixed w d lat g s) (hfg : ∀ x, g x = f x) :
    IssuesEach s i w n fun x => Done.writes d (f x) lat := by
  obtain rfl : g = f := funext hfg
  exact issue_each _ _ he (fun _ => rfl) fun _ => ⟨rfl, rfl⟩

/-- A variable-latency result. -/
theorem issueVar_each {s : State} {i : Issuer} {w : OpWord} {n : Instr} (r : Reg) (k : PendKind) (g f : Thread → List W32)
    (he : exec n s = issue w (fun s _ t => (s, .pend r.toNat (g t) k)) s) (hfg : ∀ x, g x = f x) :
    IssuesEach s i w n fun x => Done.brings r (f x) k := by
  obtain rfl : g = f := funext hfg
  exact issue_each _ _ he (fun _ => rfl) fun _ => ⟨rfl, rfl⟩

end Sys2Proof.Machine
end

