-- ==== Sys2Proof/Laws/Keeps.lean ====
section
/-! SUPPORT. Keeps.lean: operations that leave the bundles, the teams' team barriers and where each thread stands as they were, so
that a word whose effect is made of them issues (issueWith_one). -/

namespace Sys2Proof.Machine

/-- Where the threads of a team stand, and who has arrived at its team barrier. -/
def Team.stand (t : Team) := (t.key, t.tbarIn, t.threads.map fun x => (x.tid, x.stat))

/-- The same bundles but for what walks have told them, and every thread stands as it did. -/
structure Keeps (s t : State) : Prop where
  bundles : t.bundles.map Bundle.untold = s.bundles.map Bundle.untold
  teams : t.teams.map Team.stand = s.teams.map Team.stand

theorem Keeps.refl (s : State) : Keeps s s := ⟨rfl, rfl⟩
theorem Keeps.trans {s t u : State} (h : Keeps s t) (h' : Keeps t u) : Keeps s u :=
  ⟨h'.bundles.trans h.bundles, h'.teams.trans h.teams⟩
/-- Other fields have changed. -/
theorem Keeps.of {s t : State} (b : t.bundles = s.bundles) (m : t.teams = s.teams) : Keeps s t := ⟨by rw [b], by rw [m]⟩
/-- Other fields change further. -/
theorem Keeps.other {s t u : State} (h : Keeps s t) (b : u.bundles = t.bundles) (m : u.teams = t.teams) : Keeps s u := h.trans (.of b m)
theorem Keeps.ite {s t u : State} {c : Prop} [Decidable c] (h : Keeps s t) (h' : Keeps s u) : Keeps s (if c then t else u) := by
  split
  · exact h
  · exact h'
theorem Keeps.iteFst {α : Type} {s : State} {p q : State × α} {c : Prop} [Decidable c] (h : Keeps s p.1) (h' : Keeps s q.1) :
    Keeps s (if c then p else q).1 := by
  split
  · exact h
  · exact h'
theorem Keeps.foldl {α : Type} {s0 : State} (f : State → α → State) (l : List α) (hf : ∀ s x, Keeps s0 s → Keeps s0 (f s x)) :
    ∀ {s : State}, Keeps s0 s → Keeps s0 (l.foldl f s) := by
  induction l with
  | nil => exact fun h => h
  | cons x l ih => exact fun h => ih (hf _ x h)
theorem Keeps.foldlFst {α β : Type} {s0 : State} (f : State × β → α → State × β) (l : List α)
    (hf : ∀ a x, Keeps s0 a.1 → Keeps s0 (f a x).1) : ∀ {a : State × β}, Keeps s0 a.1 → Keeps s0 (l.foldl f a).1 := by
  induction l with
  | nil => exact fun h => h
  | cons x l ih => exact fun h => ih (hf _ x h)
theorem Keeps.fst {α : Type} {s t : State} {p : State × α} {a : α} (e : p = (t, a)) (h : Keeps s p.1) : Keeps s t := by
  rw [e] at h; exact h

/-- What the teams show through their standing. -/
theorem Keeps.team? {s t : State} (h : Keeps s t) (k : TeamKey) :
    (t.team? k).map Team.stand = (s.team? k).map Team.stand := by
  have go : ∀ l : List Team, (l.find? fun t => t.key == k).map Team.stand = (l.map Team.stand).find? fun x => x.1 == k := by
    intro l
    induction l with
    | nil => rfl
    | cons x l ih =>
      simp only [List.find?_cons, List.map_cons]
      have : (x.stand.1 == k) = (x.key == k) := rfl
      rw [this]
      cases x.key == k
      · exact ih
      · rfl
  unfold State.team?
  rw [go, go, h.teams]

theorem Keeps.bar {s t : State} (h : Keeps s t) (k : TeamKey) :
    (t.team? k).map Team.tbarIn = (s.team? k).map Team.tbarIn := by
  have := congrArg (Option.map fun x : TeamKey × List (Nat × Scope) × List (Nat × TStat) => x.2.1) (h.team? k)
  rw [Option.map_map, Option.map_map] at this
  exact this

theorem Team.thread?_stand (t : Team) (j : Nat) :
    (t.thread? j).map (fun x => (x.tid, x.stat)) = (t.stand.2.2).find? fun e => e.1 == j := by
  unfold Team.thread? Team.stand
  induction t.threads with
  | nil => rfl
  | cons x l ih =>
    simp only [List.find?_cons, List.map_cons]
    cases x.tid == j
    · exact ih
    · rfl

theorem Keeps.thread? {s t : State} (h : Keeps s t) (k : TeamKey) (j : Nat) :
    (t.thread? k j).map (fun x => (x.tid, x.stat)) = (s.thread? k j).map fun x => (x.tid, x.stat) := by
  have := h.team? k
  unfold State.thread?
  cases ht : t.team? k with
  | none =>
    rw [ht] at this
    cases hs : s.team? k with
    | none => rfl
    | some a => rw [hs] at this; simp at this
  | some b =>
    rw [ht] at this
    cases hs : s.team? k with
    | none => rw [hs] at this; simp at this
    | some a =>
      rw [hs] at this
      simp only [Option.map_some, Option.some.injEq] at this
      simp only [Option.bind_some, Team.thread?_stand, this]

theorem Keeps.alive {s t : State} (h : Keeps s t) : Alive s t := fun k j x hx hl => by
  have := h.thread? k j
  rw [hx] at this
  cases ht : t.thread? k j with
  | none => rw [ht] at this; simp at this
  | some y =>
    rw [ht] at this
    simp only [Option.map_some, Option.some.injEq, Prod.mk.injEq] at this
    refine ⟨y, rfl, ?_⟩
    unfold Thread.live at hl ⊢
    rw [this.2]; exact hl

theorem Keeps.bundle? {s t : State} (h : Keeps s t) (id : Nat) :
    (t.bundle? id).map Bundle.untold = (s.bundle? id).map Bundle.untold := by
  have go : ∀ l : List Bundle, (l.find? fun b => b.id == id).map Bundle.untold = (l.map Bundle.untold).find? fun b => b.id == id := by
    intro l
    rw [List.find?_map]
    rfl
  unfold State.bundle?
  rw [go, go, h.bundles]

/-! ## Words that act on one thread -/

/-- A word that acts on one thread, and whose effect keeps where the threads stand, issues. -/
theorem issueWith_keeps {s : State} {i : Issuer} {w : OpWord} {x : Thread} {n : Instr}
    (ill : State → Site → Thread → Bool) (rep : Report) (eff : State → Site → Thread → State × Act) (u : State) (d : Done)
    (he : exec n s = issueWith w ill (fun _ c => c) rep (fun _ _ => none) eff s)
    (hill : MayIssueOne s i w x → ill (s.beginClause i) (i.site w) (i.begin x) = false)
    (heff : MayIssueOne s i w x → eff (s.beginClause i) (i.site w) (i.begin x) = (u, .done d)) (hd : d.plain)
    (hk : Keeps (s.beginClause i) u) : IssuesOne s i w x n u d := fun h => by
  obtain ⟨t, ht, hi⟩ := issueWith_one h ill (fun _ c => c) rep (fun _ _ => none) eff u d rfl (hill h) (heff h) hd
    (hk.bundle? _) (hk.bar _) hk.alive
  exact ⟨t, he.trans ht, hi⟩

/-- The same of a word with no rule of its own. -/
theorem issue_keeps {s : State} {i : Issuer} {w : OpWord} {x : Thread} {n : Instr} (eff : State → Site → Thread → State × Act)
    (u : State) (d : Done) (he : exec n s = issue w eff s)
    (heff : MayIssueOne s i w x → eff (s.beginClause i) (i.site w) (i.begin x) = (u, .done d)) (hd : d.plain)
    (hk : Keeps (s.beginClause i) u) : IssuesOne s i w x n u d :=
  issueWith_keeps _ _ eff u d he (fun _ => rfl) heff hd hk

/-! ## Teams and threads -/

theorem modWhere_map_stand (p : Team → Bool) (f : Team → Team) (hf : ∀ t, p t = true → (f t).stand = t.stand) (l : List Team) :
    (modWhere p f l).map Team.stand = l.map Team.stand := by
  unfold modWhere
  rw [List.map_map]
  refine List.map_congr_left fun t _ => ?_
  simp only [Function.comp]
  split
  · rename_i hp; exact hf t hp
  · rfl

theorem State.modTeam_keeps {s0 s : State} (h : Keeps s0 s) (k : TeamKey) (f : Team → Team) (hf : ∀ t, (f t).stand = t.stand) :
    Keeps s0 (s.modTeam k f) := h.trans ⟨rfl, modWhere_map_stand _ _ (fun t _ => hf t) _⟩

theorem Team.modThread_stand (t : Team) (j : Nat) (f : Thread → Thread) (hf : ∀ x, (f x).tid = x.tid ∧ (f x).stat = x.stat) :
    (t.modThread j f).stand = t.stand := by
  unfold Team.stand Team.modThread modWhere
  simp only [List.map_map, Prod.mk.injEq, true_and]
  refine List.map_congr_left fun x _ => ?_
  simp only [Function.comp]
  split
  · rw [(hf x).1, (hf x).2]
  · rfl

theorem State.modThread_keeps {s0 s : State} (h : Keeps s0 s) (k : TeamKey) (j : Nat) (f : Thread → Thread)
    (hf : ∀ x, (f x).tid = x.tid ∧ (f x).stat = x.stat) : Keeps s0 (s.modThread k j f) :=
  State.modTeam_keeps h _ _ fun t => Team.modThread_stand t j f hf

/-! ## Memory and units -/

theorem State.writeBytes_keeps {s0 s : State} (h : Keeps s0 s) (p : Place) (bs : List Byte) : Keeps s0 (s.writeBytes p bs) := by
  cases p <;> unfold State.writeBytes <;> simp only <;> (try split) <;> exact h.other rfl rfl
theorem State.writeDescr_keeps {s0 s : State} (h : Keeps s0 s) (p : Place) (d : Descr) : Keeps s0 (s.writeDescr p d) := by
  cases p <;> unfold State.writeDescr <;> simp only <;> (try split) <;> exact h.other rfl rfl
theorem State.writePoison_keeps {s0 s : State} (h : Keeps s0 s) (p : Place) (m : Option Cause) : Keeps s0 (s.writePoison p m) := by
  cases p <;> exact h.other rfl rfl
theorem State.modCore_keeps {s0 s : State} (h : Keeps s0 s) (n : Nat) (f : Core → Core) : Keeps s0 (s.modCore n f) := h.other rfl rfl
theorem State.modPair_keeps {s0 s : State} (h : Keeps s0 s) (n : Nat) (f : Pair → Pair) : Keeps s0 (s.modPair n f) := h.other rfl rfl
theorem State.modCtx_keeps {s0 s : State} (h : Keeps s0 s) (n : Nat) (f : Ctx → Ctx) : Keeps s0 (s.modCtx n f) := h.other rfl rfl
theorem State.modIsland_keeps {s0 s : State} (h : Keeps s0 s) (n : Nat) (f : Island → Island) : Keeps s0 (s.modIsland n f) :=
  h.other rfl rfl
theorem State.modLaunch_keeps {s0 s : State} (h : Keeps s0 s) (c n : Nat) (f : Launch → Launch) : Keeps s0 (s.modLaunch c n f) :=
  h.other rfl rfl
theorem State.modMove_keeps {s0 s : State} (h : Keeps s0 s) (n : Nat) (f : Move → Move) : Keeps s0 (s.modMove n f) := h.other rfl rfl
theorem State.failLaunchOf_keeps {s0 s : State} (h : Keeps s0 s) (k : TeamKey) (c : Cause) (g : Nat) :
    Keeps s0 (s.failLaunchOf k c g) := by
  cases k with
  | user _ _ _ => exact h.other rfl rfl
  | walker _ _ => exact h

theorem State.writePart_keeps {s0 s : State} (h : Keeps s0 s) (p : Place) (off : Nat) (bs : List Byte) (d : Descr)
    (m : Option Cause) : Keeps s0 (s.writePart p off bs d m) := by
  unfold State.writePart
  simp only
  split
  · exact State.writePoison_keeps (State.writeDescr_keeps (State.writeBytes_keeps h _ _) _ _) _ _
  · exact State.writeDescr_keeps (State.writeBytes_keeps h _ _) _ _

theorem State.sysWrite_keeps {s0 s t : State} (h : Keeps s0 s) {ctx va : Nat} {bs : List Byte} (e : s.sysWrite ctx va bs = .ok t) :
    Keeps s0 t := by
  unfold State.sysWrite at e
  split at e
  · simp at e
  · simp only [Except.ok.injEq] at e
    rw [← e]
    refine Keeps.foldl _ _ (fun s x h => ?_) h
    split
    · exact h
    · exact State.writeBytes_keeps h _ _

/-! ## Stores, acquires, loads and the race detector -/

theorem State.performEntry_keeps {s0 s : State} (h : Keeps s0 s) (core : Nat) (e : StoreEntry) : Keeps s0 (s.performEntry core e) := by
  unfold State.performEntry
  simp only
  refine State.modCore_keeps ?_ _ _
  have h1 : Keeps s0 (if s.answers e.place then s else s.failLaunchOf e.key .machine 0) := .ite h (State.failLaunchOf_keeps h _ _ _)
  split
  · exact State.writeDescr_keeps h1 _ _
  · exact State.writeBytes_keeps h1 _ _

theorem State.performFifo_keeps {s0 : State} (n : Nat) : ∀ {s : State} (_ : Keeps s0 s) (core : Nat), Keeps s0 (s.performFifo core n) := by
  induction n with
  | zero => exact fun h _ => h
  | succ n ih =>
    intro s h core
    unfold State.performFifo
    split
    · exact h
    · exact ih (State.performEntry_keeps (State.modCore_keeps h _ _) _ _) _

theorem State.drain_keeps {s0 s : State} (h : Keeps s0 s) (k : TeamKey) : Keeps s0 (s.drain k) := State.performFifo_keeps _ h _

theorem State.acquire_keeps {s0 s : State} (h : Keeps s0 s) (core : Nat) (sc : Scope) : Keeps s0 (s.acquire core sc) := by
  unfold State.acquire
  exact .ite h (State.modCore_keeps h _ _)

theorem State.loadBlock_keeps {s0 s : State} (h : Keeps s0 s) (core : Nat) (sc : Scope) (na : Bool) (p : Place) :
    Keeps s0 (s.loadBlock core sc na p).1 := by
  have hm : ∀ (u : State) (_ : Keeps s0 u) (c : Bool) (key : Nat), Keeps s0 (match u.readBlock p with
      | none => (u, none)
      | some b => if c = true then (u.modCore core fun c => { c with l1 := putLine c.l1 key b }, some b)
        else (u, some b) : State × Option Block).1 := by
    intro u hu c key
    split
    · exact hu
    · split
      · dsimp only
        exact State.modCore_keeps hu _ _
      · exact hu
  unfold State.loadBlock
  simp only
  have hf : Keeps s0 s.freeBit.1 := h.other rfl rfl
  split
  · split
    · split
      · exact hf
      · exact hm _ hf _ _
    · exact hm _ h _ _
  · exact hm _ h _ _

theorem State.loadFor_keeps {s0 s : State} (h : Keeps s0 s) (core : Nat) (k : TeamKey) (tid : Nat) (sc : Scope) (na : Bool)
    (p : Place) : Keeps s0 (s.loadFor core k tid sc na p).1 := State.loadBlock_keeps h _ _ _ _

theorem State.ringPut_keeps {s0 s : State} (h : Keeps s0 s) (ctx : Nat) (get : Ctx → Ring) (set : Ctx → Ring → Ctx) (unit : Nat)
    (bytes : List Byte) : Keeps s0 (s.ringPut ctx get set unit bytes).1 := by
  unfold State.ringPut
  simp only
  split
  · dsimp only
    exact State.modCtx_keeps h _ _
  · split
    · dsimp only
      exact State.modCtx_keeps h _ _
    · rename_i e
      dsimp only
      exact State.modCtx_keeps (State.sysWrite_keeps h e) _ _

theorem State.raceMark_keeps {s0 s : State} (h : Keeps s0 s) (k : TeamKey) (tid va n : Nat) (sc : Scope) (atomic : Bool)
    (ival : W32) : Keeps s0 (s.raceMark k tid va n sc atomic ival) := by
  unfold State.raceMark
  split
  · exact h
  · exact .ite (State.modLaunch_keeps h _ _ _) h

theorem State.raceCheck_keeps {s0 s : State} (h : Keeps s0 s) (k : TeamKey) (tid va n pc kind : Nat) (sc : Scope) (writes : Bool)
    (ival : W32) : Keeps s0 (s.raceCheck k tid va n pc kind sc writes ival).1 := by
  unfold State.raceCheck
  split
  · exact h
  · split
    · exact h
    · split
      · exact h
      · simp only
        split
        · exact h
        · rename_i l _ _ _
          have h1 : ∀ (m : List (Nat × Shadow)) (g : State → Nat × Shadow → List Byte) (c : Nat), Keeps s0 (m.foldl (fun s x =>
              (s.ringPut c (·.race) (fun c r => { c with race := r }) 64 (g s x)).1) s) := fun m g c =>
            Keeps.foldl _ _ (fun s x h => State.ringPut_keeps h _ _ _ _ _) h
          split
          · dsimp only
            exact State.raceMark_keeps (h1 _ _ _) _ _ _ _ _ _ _
          · dsimp only
            exact h1 _ _ _

theorem State.bumpInterval_keeps {s0 s : State} (h : Keeps s0 s) (k : TeamKey) (tid : Nat) : Keeps s0 (s.bumpInterval k tid) := by
  unfold State.bumpInterval
  exact .ite (State.modThread_keeps h _ _ _ fun _ => ⟨rfl, rfl⟩) h

theorem State.translate_keeps {s0 s : State} (h : Keeps s0 s) (k : TeamKey) (core tid va : Nat) (notes : List WalkNote) :
    Keeps s0 (s.translate k core tid va notes).1 := by
  have hg : ∀ hit, Keeps s0 (State.translate.go k core tid va notes s hit).1 := fun hit => by
    unfold State.translate.go
    split
    · exact State.modThread_keeps (State.modCore_keeps h _ _) _ _ _ fun _ => ⟨rfl, rfl⟩
    · split
      · exact h
      · exact h
  unfold State.translate
  simp only
  split
  · split
    · exact h
    · exact hg _
  · exact hg _

theorem State.access_keeps {s0 s : State} (h : Keeps s0 s) (k : TeamKey) (core tid va n : Nat) (accs : List Acc) (pu : Purity)
    (notes : List WalkNote) : Keeps s0 (s.access k core tid va n accs pu notes).1 := by
  have ht := State.translate_keeps h k core tid va notes
  unfold State.access
  split
  · exact h
  · split
    · exact h
    · split
      · exact h
      · simp only
        split
        · exact ht
        · exact ht
        · split
          · exact ht
          · split
            · split <;> exact ht
            · split <;> exact ht

/-! ## Atomics -/

theorem State.atomDrain_keeps {s0 s : State} (h : Keeps s0 s) (k : TeamKey) (o : AtomOp) : Keeps s0 (s.atomDrain k o) := by
  unfold State.atomDrain
  exact .ite (State.performFifo_keeps _ (State.drain_keeps h k) _) (State.drain_keeps h k)

theorem State.freshLine_keeps {s0 s : State} (h : Keeps s0 s) (core : Nat) (p : Place) (b : Block) : Keeps s0 (s.freshLine core p b) :=
  State.modCore_keeps h _ _

theorem State.performAtom_keeps {s0 s : State} (h : Keeps s0 s) (k : TeamKey) (o : AtomOp) : Keeps s0 (s.performAtom k o).1 := by
  have hd := State.atomDrain_keeps h k o
  unfold State.performAtom
  simp only
  split
  · exact hd
  · split
    · exact hd
    · dsimp only
      have he : ∀ b : Block, ∀ v : Option W64, ∀ f : W64 → StoreEntry, Keeps s0 (match v with
          | none => (s.atomDrain k o).freshLine (s.coreOf k) o.place b
          | some v => ((s.atomDrain k o).freshLine (s.coreOf k) o.place b).performEntry (s.coreOf k) (f v)) := fun b v f => by
        have hl := State.freshLine_keeps hd (s.coreOf k) o.place b
        split
        · exact hl
        · exact State.performEntry_keeps hl _ _
      split
      · exact State.acquire_keeps (he _ _ _) _ _
      · exact he _ _ _

theorem State.atomDone_keeps {s0 s : State} (h : Keeps s0 s) (k : TeamKey) (tid : Nat) (o : AtomOp) (old : W64) :
    Keeps s0 (s.atomDone k tid o old) := by
  unfold State.atomDone
  extract_lets iv s1
  have h1 : Keeps s0 s1 := .ite (State.raceMark_keeps h _ _ _ _ _ _ _) h
  exact .ite (State.bumpInterval_keeps h1 _ _) h1

theorem Thread.setDest_stand (x : Thread) (d : Dest) (v : W64) : (x.setDest d v).tid = x.tid ∧ (x.setDest d v).stat = x.stat := by
  cases d <;> exact ⟨rfl, rfl⟩

theorem Thread.landWords_stand (x : Thread) (p : Pend) (ws : List W32) :
    (x.landWords p ws).tid = x.tid ∧ (x.landWords p ws).stat = x.stat := by
  unfold Thread.landWords
  have : ∀ (l : List (W32 × Nat)) (y : Thread), (l.foldl (fun (t : Thread) x => t.setReg (p.reg + x.2) x.1) y).tid = y.tid
      ∧ (l.foldl (fun (t : Thread) x => t.setReg (p.reg + x.2) x.1) y).stat = y.stat := by
    intro l
    induction l with
    | nil => exact fun _ => ⟨rfl, rfl⟩
    | cons a l ih => exact fun y => ⟨(ih _).1.trans rfl, (ih _).2.trans rfl⟩
  exact this _ _

theorem State.applyEntry_keeps {s0 s : State} (h : Keeps s0 s) (e : AtomEntry) : Keeps s0 (s.applyEntry e) := by
  unfold State.applyEntry
  split
  rename_i s1 r e1
  have h1 := Keeps.fst e1 (State.performAtom_keeps h _ _)
  split
  · exact State.failLaunchOf_keeps h1 _ _ _
  · have h2 := State.atomDone_keeps h1 e.key e.tid e.op
    simp only
    split
    · exact h2 _
    · refine State.modThread_keeps (h2 _) _ _ _ fun t => ?_
      split
      · exact Thread.landWords_stand _ _ _
      · exact ⟨rfl, rfl⟩

theorem State.flushAtoms_keeps {s0 s : State} (h : Keeps s0 s) (core : Nat) (p : AtomEntry → Bool) : Keeps s0 (s.flushAtoms core p) := by
  unfold State.flushAtoms
  exact Keeps.foldl _ _ (fun s e h => State.applyEntry_keeps h e) (State.modCore_keeps h _ _)

theorem State.flushThread_keeps {s0 s : State} (h : Keeps s0 s) (k : TeamKey) (tid upTo : Nat) : Keeps s0 (s.flushThread k tid upTo) :=
  State.flushAtoms_keeps h _ _

theorem State.flushAcquires_keeps {s0 s : State} (h : Keeps s0 s) (k : TeamKey) (tid : Nat) : Keeps s0 (s.flushAcquires k tid) := by
  unfold State.flushAcquires
  simp only
  split
  · exact h
  · exact State.flushThread_keeps h _ _ _

theorem State.releaseAll_keeps {s0 s : State} (h : Keeps s0 s) (k : TeamKey) (tid upTo : Nat) : Keeps s0 (s.releaseAll k tid upTo) := by
  unfold State.releaseAll
  exact State.drain_keeps (.ite (State.flushThread_keeps h _ _ _) h) _

/-! ## The gates of R197 -/

theorem State.gate_keeps {s0 s : State} (h : Keeps s0 s) (site : Site) (tid : Nat) (g : GAcc) : Keeps s0 (s.gate site tid g).1 := by
  unfold State.gate
  simp only
  have h1 := State.access_keeps (State.flushAcquires_keeps h site.key tid) site.key site.core tid g.va g.n g.accs g.pu site.b.notes
  split <;> exact h1

theorem State.gateRace_keeps {s0 s : State} (h : Keeps s0 s) (site : Site) (tid : Nat) (g : GAcc) (w : Bool) :
    Keeps s0 (s.gateRace site tid g w).1 := by
  unfold State.gateRace
  simp only
  have h1 := State.gate_keeps h site tid g
  split
  · exact h1
  · split
    · exact State.raceCheck_keeps h1 _ _ _ _ _ _ _ _ _
    · exact State.raceCheck_keeps h1 _ _ _ _ _ _ _ _ _

theorem State.readAt_keeps {s0 s : State} (h : Keeps s0 s) (site : Site) (tid : Nat) (p : Place) (sc : Scope) (na data : Bool) :
    Keeps s0 (s.readAt site tid p sc na data).1 := by
  have h1 := State.loadFor_keeps h site.core site.key tid sc na p
  unfold State.readAt
  simp only
  split
  · exact h1
  · split
    · exact h1
    · split <;> exact h1

/-! ## Copies, flows and the matrix engine -/

theorem State.moveRace_keeps {s0 s : State} (h : Keeps s0 s) (site : Site) (tid : Nat) (lay : Layout) (cs : List Int) (w : Bool)
    (sc : Scope) : Keeps s0 (s.moveRace site tid lay cs w sc).1 := by
  unfold State.moveRace
  extract_lets iv r
  have hr : Keeps s0 r.1 := Keeps.foldlFst _ _ (fun a b ha => .iteFst ha (State.raceCheck_keeps ha _ _ _ _ _ _ _ _ _)) h
  refine .iteFst hr ?_
  dsimp only
  exact Keeps.foldl _ _ (fun s b h => State.raceMark_keeps h _ _ _ _ _ _ _) hr

theorem State.startMove_keeps {s0 s : State} (h : Keeps s0 s) (m : Move) : Keeps s0 (s.startMove m) := by
  unfold State.startMove
  extract_lets e s1 s2
  have h1 : Keeps s0 s1 := by
    unfold s1
    split
    · exact State.modTeam_keeps h _ _ fun _ => rfl
    · exact h
  have h2 : Keeps s0 s2 := State.modThread_keeps h1 _ _ _ fun _ => ⟨rfl, rfl⟩
  exact h2.other rfl rfl

theorem State.put16_keeps {s0 s : State} (h : Keeps s0 s) (p : Place) (v : Nat) : Keeps s0 (s.put16 p v) := State.writeBytes_keeps h _ _
theorem State.clearTags_keeps {s0 s : State} (h : Keeps s0 s) (f : Flow) : Keeps s0 (s.clearTags f) := by
  unfold State.clearTags
  exact Keeps.foldl _ _ (fun s b h => State.put16_keeps h _ _) h
theorem State.bumpGen_keeps {s0 s : State} (h : Keeps s0 s) (ctx : Nat) (f : Flow) (key : Nat) : Keeps s0 (s.bumpGen ctx f key) := by
  unfold State.bumpGen
  refine .ite (State.put16_keeps h _ _) (State.put16_keeps (Keeps.foldl _ _ (fun s r h => ?_) h) _ _)
  split
  · exact State.clearTags_keeps h _
  · exact h

theorem State.takeSeq_keeps {s0 s : State} (h : Keeps s0 s) (ctx key : Nat) (src dst : Coord) :
    Keeps s0 (s.takeSeq ctx key src dst).1 := by
  unfold State.takeSeq
  simp only
  split <;> exact h.other rfl rfl

theorem State.sendSegment_keeps {s0 s : State} (h : Keeps s0 s) (ctx key : Nat) (src : Coord) (rs : List Receiver) (single : Bool)
    (reduce : Nat) (move : Option Nat) (items : List FlowItem) :
    Keeps s0 (s.sendSegment ctx key src rs single reduce move items) := by
  unfold State.sendSegment
  extract_lets f gen first str lastElems s1
  have h1 : Keeps s0 s1 := by
    unfold s1
    clear_value f gen
    split
    · exact h
    · exact Keeps.foldl _ _ (fun s x h => State.put16_keeps (State.writePart_keeps h _ _ _ _ _) _ _) h
  refine Keeps.foldl _ _ (fun s r h => ?_) h1
  exact (State.takeSeq_keeps h ctx key src r.1.rank).other rfl rfl

theorem State.sendAll_keeps {s0 s : State} (h : Keeps s0 s) (ctx key : Nat) (src : Coord) (rs : List Receiver) (single : Bool)
    (reduce : Nat) (move : Option Nat) (items : List FlowItem) : Keeps s0 (s.sendAll ctx key src rs single reduce move items) := by
  unfold State.sendAll
  exact Keeps.foldl _ _ (fun s g h => State.sendSegment_keeps h _ _ _ _ _ _ _ _) h

theorem State.queueMat_keeps {s0 s : State} (h : Keeps s0 s) (site : Site) (f : MatForm) (o : MatOp) : Keeps s0 (s.queueMat site f o) := by
  unfold State.queueMat
  extract_lets p s1 s2 s3
  have h1 : Keeps s0 s1 := by
    unfold s1
    split
    · exact h
    · exact h.other rfl rfl
  have h2 : Keeps s0 s2 := State.modPair_keeps h1 _ _
  have h3 : Keeps s0 s3 := State.modThread_keeps h2 _ _ _ fun _ => ⟨rfl, rfl⟩
  exact h3.other rfl rfl

/-! ## Waits, hints, the walker, the trace and the registers of a core -/

theorem State.monitorWait_keeps {s0 s : State} (h : Keeps s0 s) (core : Nat) (w : MemWait) : Keeps s0 (s.monitorWait core w).1 := by
  unfold State.monitorWait
  refine .iteFst h (.iteFst ?_ h)
  dsimp only
  exact State.modCore_keeps h _ _

theorem State.putHint_keeps {s0 s : State} (h : Keeps s0 s) (page asid die dir : Nat) : Keeps s0 (s.putHint page asid die dir) := by
  unfold State.putHint
  exact .ite (h.other rfl rfl) ((State.writeBytes_keeps h (.here (s.hintBase + 16 * s.hintTail)) _).other rfl rfl)

theorem State.spawnRead_keeps {s0 s : State} (h : Keeps s0 s) (site : Site) (tid va : Nat) (pu : Purity) :
    Keeps s0 (s.spawnRead site tid va pu).1 := by
  unfold State.spawnRead
  split
  rename_i s1 g e1
  have h1 : Keeps s0 s1 := Keeps.fst e1 (State.gateRace_keeps h _ _ _ _)
  split
  · exact h1
  · split
    rename_i s2 b e2
    have h2 : Keeps s0 s2 := Keeps.fst e2 (State.readAt_keeps h1 _ _ _ _ _ _)
    split <;> exact h2

theorem State.invalidate_keeps {s0 s : State} (h : Keeps s0 s) (core : Nat) (i : Inval) : Keeps s0 (s.invalidate core i) := by
  unfold State.invalidate
  extract_lets s1 e fg
  have h1 : Keeps s0 s1 := State.modCore_keeps h _ _
  have hf : ∀ b, (fg b).untold = b.untold := fun b => by
    simp only [fg]
    split <;> rfl
  refine h1.trans ⟨by simp [List.map_map, Function.comp_def, hf], modWhere_map_stand _ _ (fun t _ => ?_) _⟩
  unfold Team.stand
  simp only [List.map_map, Prod.mk.injEq, true_and]
  refine List.map_congr_left fun x _ => ?_
  simp only [Function.comp, e]
  split
  · split <;> rfl
  · rfl

theorem State.putLost_keeps {s0 s : State} (h : Keeps s0 s) (core : Nat) (x : Stream) : Keeps s0 (s.putLost core x).1 := by
  unfold State.putLost
  split
  · rename_i s' e
    exact State.sysWrite_keeps h e
  · exact h

theorem State.putTrace_keeps {s0 s : State} (h : Keeps s0 s) (core : Nat) (x : Stream) (bytes : List Byte) :
    Keeps s0 (s.putTrace core x bytes).1 := by
  unfold State.putTrace
  extract_lets c at0 n tail full lose write
  have hl : ∀ x, Keeps s0 (lose x).1 := fun x => by
    exact State.putLost_keeps h _ _
  have hw : ∀ x, Keeps s0 (write x).1 := fun x => by
    unfold write
    dsimp only
    split
    · exact h
    · rename_i s' e
      have h1 := State.sysWrite_keeps h e
      split
      · exact h1
      · rename_i s'' e
        exact State.sysWrite_keeps h1 e
  refine .iteFst (hw _) ?_
  split
  · exact h
  · exact .iteFst (hl _) (hw _)

theorem State.traceRecord_keeps {s0 s : State} (h : Keeps s0 s) (core ctx : Nat) (r : TraceRec) : Keeps s0 (s.traceRecord core ctx r) := by
  unfold State.traceRecord
  extract_lets x keep
  have hk : ∀ {u : State}, Keeps s0 u → ∀ y, Keeps s0 (keep u y) := fun hu y => State.modCore_keeps hu _ _
  refine .ite (hk h _) ?_
  split
  rename_i s1 y e1
  have h1 : Keeps s0 s1 := by
    revert e1
    split
    · exact fun e1 => Keeps.fst e1 (State.putLost_keeps h _ _)
    · intro e1
      simp only [Prod.mk.injEq] at e1
      exact e1.1 ▸ h
  split
  rename_i s2 z ok e2
  have h2 : Keeps s0 s2 := by
    revert e2
    split
    · intro e2
      simp only [Prod.mk.injEq] at e2
      exact e2.1 ▸ h1
    · split
      · intro e2
        simp only [Prod.mk.injEq] at e2
        exact e2.1 ▸ h1
      · extract_lets rs
        split
        rename_i s3 y3 ok3 e3
        have h3 : Keeps s0 s3 := Keeps.fst e3 (State.putTrace_keeps h1 _ _ _)
        intro e2
        simp only [Prod.mk.injEq] at e2
        exact e2.1 ▸ h3
  refine .ite (hk h2 _) (.ite ?_ ?_)
  · exact hk (State.putLost_keeps h2 core z.lose) _
  · split
    rename_i s4 y4 ok4 e4
    exact hk (Keeps.fst e4 (State.putTrace_keeps h2 _ _ _)) _

theorem State.setShape_keeps {s0 s : State} (h : Keeps s0 s) (isl : Nat) (v : W64) : Keeps s0 (s.setShape isl v) := by
  unfold State.setShape
  exact .ite h (State.modIsland_keeps h _ _)

end Sys2Proof.Machine
end

