-- ==== Sys2Proof/Tests/Slice0.lean ====
section
/-! SUPPORT. Slice0.lean: tests of decoding, of WellFormed and of single steps, with expected results from the spec's own
words and tables; and witnesses, which meet the hypotheses of the statements of Obligations.lean. -/

namespace Sys2Proof.Tests
open Sys2Proof Sys2Proof.Machine Sys2Proof.Claims

/-! ## Decoding: words of the spec's chapters, by family -/

/-- The word is the one that the spec gives for the instruction: it decodes to it, and its encoding is it. -/
def reads (w : W64) (i : Instr) : Bool := decode w == some i && encode i == some w

/-- Always, no stall. -/
def c0 : Ctl := { pr := 31, pn := false, st := 0 }
/-- Always, with a stall count. -/
def cs (st : BitVec 4) : Ctl := { pr := 31, pn := false, st := st }
/-- Where a predicate holds. -/
def cp (pr : BitVec 5) : Ctl := { pr := pr, pn := false, st := 0 }

-- chapter 04, its two example kernels; chapter 05, the edge handling; chapter 14, L34
theorem test_decode_exit : reads 0x050F800000000000 (.exit c0) = true := by decide
theorem test_decode_bra : reads 0x0100400000000004 (.bra { pr := 0, pn := true, st := 0 } 4) = true := by decide
theorem test_decode_bra_back : reads 0x0100000003FFFFEC (.bra (cp 0) (-20)) = true := by decide
theorem test_decode_rejoin : reads 0x070F800000000000 (.rejoin c0) = true := by decide
theorem test_decode_ballot : reads 0x730F8C1000000000 (.ballot (cs 3) 4 0 false) = true := by decide
-- integer and moves: chapters 04, 07, 10, 20
theorem test_decode_sread : reads 0x3E0F8C0000000000 (.sread (cs 3) 0 .tidX) = true := by decide
theorem test_decode_sread_swarm : reads 0x3E0F8C6C003C0000 (.sread (cs 3) 27 .swarm) = true := by decide
theorem test_decode_movi : reads 0x3D0F8C1C0000BF40 (.movi (cs 3) 7 0xBF40) = true := by decide
theorem test_decode_addI : reads 0x201F800C07FFFFFB (.addI c0 3 1 (-5)) = true := by decide
theorem test_decode_lea : reads 0x3A0F941820000840 (.lea (cs 5) 6 8 0 2 .n32) = true := by decide
theorem test_decode_movS : reads 0x3C1F8C28080000C0 (.movS (cs 3) 10 2 .n64) = true := by decide
theorem test_decode_shlI : reads 0x2F1F805484000006 (.shlI c0 21 33 6) = true := by decide
-- conversions and descriptors: chapters 07, 16
theorem test_decode_cvt :
    reads 0x600F943C34306200 (.cvt (cs 5) 15 13 .f32 .f32 .rn .sat false (some 12)) = true := by decide
theorem test_decode_blkdRd : reads 0x640F803028000080 (.blkdRd c0 12 10 0 .global .team) = true := by decide
theorem test_decode_blkdSet : reads 0x641F8018000000A0 (.blkdSet c0 6 0 0 .scratch .team) = true := by decide
-- memory: chapters 08, 14, 16, 18
theorem test_decode_ld : reads 0x800F804028000100 (.ld c0 16 10 0 .b32 .team false false) = true := by decide
theorem test_decode_ld_b128 : reads 0x800F803008004200 (.ld c0 12 2 16 .b128 .team false false) = true := by decide
theorem test_decode_st : reads 0x810F80281000C180 (.st c0 10 4 48 .b64 .team) = true := by decide
theorem test_decode_pmig : reads 0x840F8000B0000000 (.pmigComb c0 44 0 .team) = true := by decide
-- scratchpad, barriers and copies: chapters 09, 11, 13, 16
theorem test_decode_lds : reads 0xB00F804408000120 (.lds c0 17 2 0 .b32 false) = true := by decide
theorem test_decode_sts : reads 0xB10F8004000018A0 (.sts c0 1 0 6 .b16) = true := by decide
theorem test_decode_tcopy : reads 0xB300805048500040 (.tcopy (cp 1) 20 18 20 (some 1) .team) = true := by decide
theorem test_decode_tstore : reads 0xB400005C50800400 (.tstore (cp 0) 23 20 32 none .team) = true := by decide
theorem test_decode_cseal : reads 0xB500000000000000 (.cseal (cp 0) 0) = true := by decide
theorem test_decode_cwait : reads 0xB600000000000000 (.cwait (cp 0) 0) = true := by decide
theorem test_decode_barArrive : reads 0xB71F800000000040 (.barArrive c0 1 false) = true := by decide
theorem test_decode_barWait : reads 0xB72F800000000040 (.barWait c0 1) = true := by decide
-- matrix: chapters 10, 11
theorem test_decode_mms : reads 0xC201802050700200 (.mms (cp 3) { acc := 0, set := some 0, wait := 0 } 20 28
    { kind := .ts, asg := false, bsg := false, af16 := false, bf16 := false, sat := false }) = true := by decide
theorem test_decode_mmag : reads 0xC100002428200448 (.mmag (cp 0) { acc := 0, set := some 1, wait := 1 } 10 8
    { kind := .i8, asg := false, bsg := true, af16 := false, bf16 := false, sat := true }) = true := by decide
theorem test_decode_accld : reads 0xC40000200C000000 (.accld (cp 0) { acc := 0, set := some 0, wait := 0 } 3) = true := by decide
theorem test_decode_accst :
    reads 0xC50180007C000402 (.accst (cp 3) { acc := 0, set := none, wait := 1 } 31 true false) = true := by decide
theorem test_decode_drain :
    reads 0xC60000005C240980 (.drain (cp 0) { acc := 0, set := none, wait := 2 } 23 9 .s8 .rn .sat false) = true := by decide
-- atomics: chapters 12, 13
theorem test_decode_atom : reads 0xA00F801420180052 (.atom c0 .add .n32 .rel .die 5 8 6) = true := by decide
theorem test_decode_red : reads 0xA202800090E80054 (.red (cp 5) .add .n32 .rel .pkg 36 58) = true := by decide
-- waiting, spawning, links: chapters 13, 14, 15
theorem test_decode_waita : reads 0xD00F802810180802 (.waita c0 10 4 6 true false .pkg) = true := by decide
theorem test_decode_spawn : reads 0xD10F800010000000 (.spawn c0 4) = true := by decide
theorem test_decode_join : reads 0xD20F800028580003 (.join c0 10 22 .sys) = true := by decide
theorem test_decode_tbar : reads 0xD40F800000000002 (.tbar c0 .pkg) = true := by decide
theorem test_decode_txfer : reads 0xD501807C98A80402 (.txfer (cp 3) 31 38 42 none false .pkg) = true := by decide
theorem test_decode_flowReset : reads 0xD60F800000040400 (.flowReset c0 0x0101) = true := by decide
-- system: chapters 17, 19
theorem test_decode_syscall : reads 0xE00F805020000C00 (.syscall c0 20 8 3) = true := by decide
theorem test_decode_trap : reads 0xE10F800014010800 (.trap c0 5 0x42 false) = true := by decide
theorem test_decode_brk : reads 0xE20F800000001C00 (.brk c0 7) = true := by decide
theorem test_decode_mark : reads 0xE30F800010008400 (.mark c0 4 0x21 false) = true := by decide
theorem test_decode_crd : reads 0xE40F801800000800 (.crd c0 6 .mxpstall) = true := by decide
theorem test_decode_cwr : reads 0xE50F800020000800 (.cwr c0 8 .mxpstall) = true := by decide

/-! Words of the families that no chapter gives a word for, bit by bit from R89, R92 to R94 and R96: op, sub, pr, pn, st,
then the fields of the format. -/

-- fma w1, w2, w3, w4 in f32, rz, ftz: op 0x43, format A, m = type 8, rounding 1, overflow 0, ftz 1
theorem test_decode_fma :
    reads (0x43#8 ++ 0#4 ++ 31#5 ++ 0#1 ++ 0#4 ++ 1#8 ++ 2#8 ++ 3#8 ++ 4#8 ++ 8#4 ++ 1#3 ++ 0#2 ++ 1#1)
      (.fma c0 1 2 3 4 .f32 .rz true) = true := by decide
-- (k2) fence scope=sys: op 0x85, format M, m = size 0, space 0, SB 0, scope 3, fam 0
theorem test_decode_fence :
    reads (0x85#8 ++ 0#4 ++ 2#5 ++ 0#1 ++ 0#4 ++ 0#8 ++ 0#8 ++ 0#16 ++ 0#3 ++ 0#2 ++ 0#1 ++ 3#2 ++ 0#2)
      (.fence (cp 2) .sys) = true := by decide
-- cas.n64 w2:w3, g[w4:w5], w6:w7, w8:w9 scope=team: op 0xA1, format A, m = type 3, order 0, scope 0
theorem test_decode_cas :
    reads (0xA1#8 ++ 0#4 ++ 31#5 ++ 0#1 ++ 0#4 ++ 2#8 ++ 4#8 ++ 6#8 ++ 8#8 ++ 3#4 ++ 0#6)
      (.cas c0 .n64 .rlx .team 2 4 6 8) = true := by decide

/-! ## WellFormed refuses what breaks each of its checks -/

/-- A predicate field 24 to 30 (R90); pn with pr 31 (R90). -/
theorem test_wf_predicate : (Instr.nop { pr := 24, pn := false, st := 0 }).wf = false := by decide
theorem test_wf_never : (Instr.nop { pr := 31, pn := true, st := 0 }).wf = false := by decide
/-- An odd pair (R91). -/
theorem test_wf_pair : (Instr.brx c0 3).wf = false := by decide
/-- A 128-bit operand that is no multiple of four (R91). -/
theorem test_wf_quad : (Instr.ld c0 2 0 0 .b128 .team false false).wf = false := by decide
/-- A predicate register of 24 or more (R91). -/
theorem test_wf_predReg : (Instr.plog c0 .and 24 0 0 false).wf = false := by decide
/-- A team scalar of 32 or more (R91). -/
theorem test_wf_scalar : (Instr.movS c0 0 32 .n32).wf = false := by decide
/-- An odd pair of a 64-bit comparison (R91). -/
theorem test_wf_wide : (Instr.icmp c0 .eq 0 1 2 .s64).wf = false := by decide
/-- A shift literal of 32 or more (R166). -/
theorem test_wf_shift : (Instr.shlI c0 1 2 32).wf = false := by decide
/-- A bit field of no bits, and one past bit 31 (R166). -/
theorem test_wf_field_empty : (Instr.bfe c0 1 2 0 0 .n32).wf = false := by decide
theorem test_wf_field_end : (Instr.bfe c0 1 2 1 32 .n32).wf = false := by decide
/-- A sign-extending load of 32 bits (R212). -/
theorem test_wf_signExtend : (Instr.ld c0 1 2 0 .b32 .team false true).wf = false := by decide
/-- A matrix word that names the signs of a kind without them (R240). -/
theorem test_wf_mx : (Instr.mma c0 { acc := 0, set := none, wait := 0 } 0 4
    { kind := .h16, asg := true, bsg := false, af16 := false, bf16 := false, sat := false }).wf = false := by decide
/-- Flow key 0 (R321). -/
theorem test_wf_key : (Instr.flowReset c0 0).wf = false := by decide
/-- A context, a core or a walker place, a queue, an island that does not exist. -/
theorem test_wf_context : (Instr.ctxEnable 64 0).wf = false := by decide
theorem test_wf_team : (Instr.swapOut (.walker 320 0)).wf = false := by decide
theorem test_wf_queue : (Instr.launchPacket { q := 256, idx := 0 }).wf = false := by decide
theorem test_wf_island : (Instr.issueshapeWrite 160 0).wf = false := by decide
/-- What WellFormed refuses, the decoder refuses: pr 24; an odd pair of brx; a shift literal of 32 (R90, R91, R166). -/
theorem test_decode_refuses : (decode 0x000C000000000000, decode 0x020F80000C000000, decode 0x2F1F800408000020)
    = (none, none, none) := by decide
/-- Reserved ops, a reserved sub value and a set reserved bit raise ILL (R97): op 0x09, op 0xFF, add with sub 2, exit with
bit 0. -/
theorem test_decode_reserved : ([0x090F800000000000, 0xFF0F800000000000, 0x202F800000000000, 0x050F800000000001].map decode)
    = [none, none, none, none] := by decide

theorem witness_EncodingsAgree : (Instr.exit c0).wf = true ∧ encode (.exit c0) = some 0x050F800000000000
    ∧ decode 0x050F800000000000 = some (.exit c0) := by decide
theorem test_wf_matched_bits : (Instr.lea c0 2 4 6 8 .s32).wf = false := by decide
theorem test_wf_longSpecial : (Instr.sread c0 3 .time).wf = false := by decide
/-- cvt to ts8, pack of a type that rounds nothing, an unaligned pack source, an element past the register (R183, R186). -/
theorem test_wf_cvt : (Instr.cvt c0 1 2 .ts8 .f32 .rn .sat false none).wf = false := by decide
theorem test_wf_pack : (Instr.pack c0 1 4 .s8 .rz .sat false).wf = false := by decide
theorem test_wf_packSource : (Instr.pack c0 1 2 .s8 .rn .sat false).wf = false := by decide
theorem test_wf_unpack : (Instr.unpack c0 1 2 4 .s8).wf = false := by decide
/-- A pair base of a global descriptor (R94); rounding of an integer redux (R133); f32 atomics but for add (R276). -/
theorem test_wf_blkdBase : (Instr.blkdRd c0 1 3 0 .global .team).wf = false := by decide
theorem test_wf_redux : (Instr.redux c0 .add .s32 1 2 .rz false).wf = false := by decide
theorem test_wf_atom : (Instr.atom c0 .min .f32 .rlx .team 1 2 3).wf = false := by decide
theorem test_wf_red : (Instr.red c0 .min .f32 .rlx .team 2 3).wf = false := by decide
theorem test_wf_cas : (Instr.cas c0 .f32 .rlx .team 1 2 3 4).wf = false := by decide
/-- drain with policy trp (R252); a 64-bit waita and mark with odd pairs (R285, R370). -/
theorem test_wf_drain : (Instr.drain c0 { acc := 0, set := none, wait := 0 } 1 2 .s8 .rn .trp false).wf = false := by decide
theorem test_wf_waita : (Instr.waita c0 1 2 4 true true .team).wf = false := by decide
theorem test_wf_mark : (Instr.mark c0 3 0 true).wf = false := by decide
/-- A die, a pair, a bin, a grant word, a derived region that does not exist. -/
theorem test_wf_die : (Instr.dispatchStart 8).wf = false := by decide
theorem test_wf_enginePair : (Instr.matrixOpBegin 160).wf = false := by decide
theorem test_wf_bin : (Instr.regroupAgeExpiry 0 64).wf = false := by decide
theorem test_wf_grantWord : (Instr.ctxcoreWrite 0 5 0).wf = false := by decide
theorem test_wf_derived : (Instr.derivedRegionValidate 256 0).wf = false := by decide
theorem test_wf_walk : (Instr.walkLimitExpiry 0 4).wf = false := by decide

/-! ## States to test in -/

/-- A word of a team of one thread is about to issue; f sets up the team. -/
def ready (w : W64) (f : Team → Team := id) : State :=
  let s := State.reset.placeWord w
  { s with focus := some 0, teams := s.teams.map f }

/-- A register of the thread. -/
def reg (r : Nat) (v : W32) (t : Team) : Team := t.modThread 0 fun x => { x with regs := sset 0 x.regs r v }

/-- The thread's last-page register holds a page that permits data accesses: VA 0x10000 lies at 0x20000. -/
def page (t : Team) : Team := t.modThread 0 fun x =>
  { x with lpr := some { asid := 0, va := 0x10000, size := 65536, place := .here 0x20000, r := true, w := true, x := false,
                         derived := false, rdok := true, wrok := true, edge := false } }

/-- The thread of the team. -/
def after (r : Result) : Option Thread := match r with
  | .next t => (t.teams.head?).bind (·.thread? 0)
  | .fault _ => none
  | .refused _ => none

/-- What a register holds once its result has landed: the pending one if there is one, else the write in the window. -/
def result (r : Result) (d : Nat) : Option W32 :=
  (after r).bind fun x => match x.pend.find? fun p => p.reg ≤ d && d < p.reg + p.count with
    | some p => p.value.bind fun ws => ws[d - p.reg]?
    | none => some ((x.advance 16).reg d)

/-! ## Witnesses: states and operands that meet the hypotheses of a statement together -/

/-- The checks of MayIssue. -/
def may (s : State) (w : OpWord) (i : Issuer) : Bool :=
  !i.b.tids.isEmpty && decide i.b.tids.Nodup && (i.cl.begun || s.headerReady i.t i.ts i.cl)
    && !w.illegal i.cl i.t.desc.wregs && ((i.on w).all fun x => !s.mustWait i.b.key w.slots x)
    && (i.ts.all fun x => !s.fpHolds i.b.key x) && !s.checking i.b.key i.cl && i.ts.any fun x => x.live && i.t.tbarIn.all fun a => a.1 != x.tid

theorem may_spec {s : State} {w : OpWord} {i : Issuer} (h : s.issuer? = some i) (h' : may s w i = true) : MayIssue s i w := by
  simp only [may, Bool.and_eq_true, Bool.or_eq_true, Bool.not_eq_true', decide_eq_true_eq, List.all_eq_true, List.any_eq_true,
    bne_iff_ne, ne_eq, List.isEmpty_eq_false_iff] at h'
  obtain ⟨⟨⟨⟨⟨⟨⟨a, b⟩, c⟩, d⟩, e⟩, j⟩, f⟩, x, hx, g, k⟩ := h'
  exact ⟨h, ⟨a, b⟩, c, d, e, j, fun y _ hc => by simp [f] at hc, x, hx, g, k⟩

/-- The issuer may issue the word and has a property. -/
def meets (s : State) (w : OpWord) (p : Issuer → Bool) : Bool :=
  match s.issuer? with | some i => may s w i && p i | none => false

theorem witness {s : State} {w : OpWord} {p : Issuer → Bool} (h : meets s w p = true) : ∃ i, MayIssue s i w ∧ p i = true := by
  unfold meets at h
  split at h
  · next i hi =>
    simp only [Bool.and_eq_true] at h
    exact ⟨i, may_spec hi h.1, h.2⟩
  · exact absurd h (by simp)

/-- The same for a word that acts on one thread. -/
def meetsOne (s : State) (w : OpWord) (p : Issuer → Thread → Bool) : Bool :=
  match s.issuer? with
  | some i => match i.on w with | [x] => may s w i && p i x | _ => false
  | none => false

theorem witnessOne {s : State} {w : OpWord} {p : Issuer → Thread → Bool} (h : meetsOne s w p = true) :
    ∃ i x, MayIssueOne s i w x ∧ p i x = true := by
  unfold meetsOne at h
  split at h
  · next i hi =>
    split at h
    · next x hx =>
      simp only [Bool.and_eq_true] at h
      exact ⟨i, x, ⟨may_spec hi h.1, hx⟩, h.2⟩
    · exact absurd h (by simp)
  · exact absurd h (by simp)

/-- Whether the checks of an access let it go on. -/
def goesOn (r : State × Gate) : Bool := match r.2 with | .go _ _ => true | .stop _ => false
/-- Whether they let it go on to a place that a read then brings. -/
def brings (r : State × Gate) (read : State → Place → Scope → State × Except Cause Block) : Bool :=
  match r with
  | (u, .go p sc) => (match (read u p sc).2 with | .ok _ => true | .error _ => false)
  | (_, .stop _) => false

end Sys2Proof.Tests
end

