-- ==== Sys2Proof/Tests/WitnessWords.lean ====
section
/-! SUPPORT. WitnessWords.lean: states that meet the hypotheses of the statements about instruction words. -/

namespace Sys2Proof.Tests
open Sys2Proof Sys2Proof.Machine Sys2Proof.Claims
set_option Elab.async false

theorem witnessP {s : State} {w : OpWord} (P : Issuer → Prop) [∀ i, Decidable (P i)]
    (h : meets s w (fun i => decide (P i)) = true) : ∃ i, MayIssue s i w ∧ P i :=
  (witness h).imp fun _ h => ⟨h.1, of_decide_eq_true h.2⟩

theorem witnessOneP {s : State} {w : OpWord} (P : Issuer → Thread → Prop) [∀ i x, Decidable (P i x)]
    (h : meetsOne s w (fun i x => decide (P i x)) = true) : ∃ i x, MayIssueOne s i w x ∧ P i x := by
  obtain ⟨i, x, a, b⟩ := witnessOne h
  exact ⟨i, x, a, of_decide_eq_true b⟩

theorem goes {r : State × Gate} (h : goesOn r = true) : ∃ u p sc, r = (u, .go p sc) := by
  obtain ⟨u, p | p⟩ := r
  · exact ⟨u, p, _, rfl⟩
  · simp [goesOn] at h

theorem bringsIt {r : State × Gate} {read : State → Place → Scope → State × Except Cause Block} (h : brings r read = true) :
    ∃ u p sc u' b, r = (u, .go p sc) ∧ read u p sc = (u', .ok b) := by
  obtain ⟨u, p | p⟩ := r
  · simp only [brings] at h
    split at h
    · next b hb => exact ⟨u, p, _, _, b, rfl, Prod.ext rfl hb⟩
    · simp at h
  · simp [brings] at h

/-! Words that need no more than to be free to issue: the statements' other conditions are of operands. -/

theorem witness_IntegerArithmetic :
    ∃ i, MayIssue (ready 0x200F8004080C0000) i (vecWord c0 [2, 3, 4] [1]) ∧ True := witnessP (fun _ => True) (by decide)
theorem witness_IntegerDivision :
    ∃ i, MayIssue (ready 0x230F8004080C0000) i (vecWord c0 [2, 3] [1]) ∧ True := witnessP (fun _ => True) (by decide)
/-- A bit field of the whole register, and one of its last bit. -/
theorem witness_LogicShiftsBits : ∃ i, MayIssue (ready 0x360F800408000800) i (vecWord c0 [2] [1]) ∧ True :=
  witnessP (fun _ => True) (by decide)
theorem witness_bitFields : (1 ≤ (32 : BitVec 8).toNat ∧ (0 : BitVec 8).toNat + (32 : BitVec 8).toNat ≤ 32)
    ∧ 1 ≤ (1 : BitVec 8).toNat ∧ (31 : BitVec 8).toNat + (1 : BitVec 8).toNat ≤ 32 := by decide
theorem witness_SelectAndCompare :
    ∃ i, MayIssue (ready 0x380F8004080C0000) i (vecWord c0 [2, 3, predSlot 0] [1]) ∧ True := witnessP (fun _ => True) (by decide)
theorem witness_AddressArithmetic : ∃ i, MayIssue (ready 0x3A0F941820000840) i (vecWord c0 [8, 9, 0] [6, 7]) ∧ True :=
  witnessP (fun _ => True) (by decide)
theorem witness_IntegerDot : ∃ i, MayIssue (ready 0x530F8004080C1000) i (vecWord c0 [2, 3, 4] [1]) ∧ True :=
  witnessP (fun _ => True) (by decide)
theorem witness_PredicateMoves : ∃ i, MayIssue (ready 0x720F800400000000) i (vecWord c0 ((List.range 24).map predSlot) [1]) ∧ True :=
  witnessP (fun _ => True) (by decide)
theorem witness_MovesAndSpecials : ∃ i x, MayIssueOne (ready 0x3E0F8C0000000000) i (vecWord c0 [] [0]) x ∧
    ∃ l g, (ready 0x3E0F8C0000000000).launchOf? i.b.key = some l ∧ (ready 0x3E0F8C0000000000).gridOf i.t = some g
      ∧ l.id = i.b.key.launchId ∧ (l.pure = true → SReg.tidX ∉ runSpecific) ∧ x.tid = 0 := by
  obtain ⟨i, x, a, b⟩ := witnessOne (s := ready 0x3E0F8C0000000000) (w := vecWord c0 [] [0]) (p := fun i x =>
    ((ready 0x3E0F8C0000000000).launchOf? i.b.key).any (fun l => l.id == i.b.key.launchId) &&
    ((ready 0x3E0F8C0000000000).gridOf i.t).isSome && x.tid == 0) (by decide)
  simp only [Bool.and_eq_true, Option.any_eq_true, Option.isSome_iff_exists, beq_iff_eq] at b
  obtain ⟨⟨⟨l, h, e⟩, g, k⟩, z⟩ := b
  exact ⟨i, x, a, l, g, h, k, e, fun _ => by decide, z⟩

/-! Float words: 1.5 + 0.25 raises no flag, and no flag traps. -/

def floats : State := ready 0x400F8004080C0200 fun t => reg 2 0x3FC00000 (reg 3 0x3E800000 t)
theorem witness_FloatResults : ∃ i, MayIssue floats i (vecWord c0 [2, 3] [1]) ∧
    noFlag floats i (vecWord c0 [2, 3] [1]) (fun x => (FFmt.f32.add .rn false (x.reg 2).toNat (x.reg 3).toNat).fl) :=
  witnessP (fun i => noFlag floats i (vecWord c0 [2, 3] [1]) (fun x => (FFmt.f32.add .rn false (x.reg 2).toNat (x.reg 3).toNat).fl))
    (by decide)
theorem witness_PackedHalvesAndDots : ∃ i, MayIssue floats i (vecWord c0 [2, 3] [1]) ∧
    noFlag floats i (vecWord c0 [2, 3] [1]) (fun x =>
      (FFmt.bf16.add .rn false (half (x.reg 2) 0) (half (x.reg 3) 0)).fl.or (FFmt.bf16.add .rn false (half (x.reg 2) 1) (half (x.reg 3) 1)).fl) :=
  witnessP (fun i => noFlag floats i (vecWord c0 [2, 3] [1]) (fun x =>
      (FFmt.bf16.add .rn false (half (x.reg 2) 0) (half (x.reg 3) 0)).fl.or (FFmt.bf16.add .rn false (half (x.reg 2) 1) (half (x.reg 3) 1)).fl))
    (by decide)
/-- cvt of 1.5 from f32 to s32 gives 2 under rn, with a value for every thread. -/
theorem witness_Conversions : ∃ i, MayIssue floats i (vecWord c0 [2] [1]) ∧
    (∀ x ∈ i.on (vecWord c0 [2] [1]), convert (.int true 32) .rn .sat false false false ((kindOfCTy .f32).value false (x.reg 2).toNat) =
      some (2, { inx := true })) ∧ noFlag floats i (vecWord c0 [2] [1]) (fun _ => { inx := true }) :=
  witnessP (fun i => (∀ x ∈ i.on (vecWord c0 [2] [1]), convert (.int true 32) .rn .sat false false false ((kindOfCTy .f32).value false (x.reg 2).toNat) =
      some (2, { inx := true })) ∧ noFlag floats i (vecWord c0 [2] [1]) (fun _ => { inx := true })) (by decide)

/-- A lane word at a row meeting that is over. -/
theorem witness_LaneInstructions : ∃ i, MayIssueLane (ready 0x730F8C1000000000) i (vecWord c0 [predSlot 0] [4]) := by
  obtain ⟨i, a, b⟩ := witnessP (s := ready 0x730F8C1000000000) (w := vecWord c0 [predSlot 0] [4]) (fun i => i.b.met = true) (by decide)
  exact ⟨i, ⟨a, b⟩⟩

/-! Control words: a branch back to the code's first byte and one that is misaligned. -/

theorem witness_BranchesAndCalls : ∃ i, MayIssue (ready 0x010F800000000000) i (branchWord c0 [] []) ∧
    goodTarget (ready 0x010F800000000000) i (target i 0) :=
  witnessP (fun i => goodTarget (ready 0x010F800000000000) i (target i 0)) (by decide)
theorem witness_TrapsOfWords : ∃ i x, MayIssueOne (ready 0x010F800002000000) i (branchWord c0 [] []) x ∧
    (i.b.key.isWalker = false ∧ x.reissue = none ∧ i.b.single = false ∧ ((ready 0x010F800002000000).core i.t.core).bins = []
      ∧ swf Core.fresh (ready 0x010F800002000000).cores = true ∧ ¬ goodTarget (ready 0x010F800002000000) i (target i 0x2000000)) :=
  witnessOneP (fun i x => i.b.key.isWalker = false ∧ x.reissue = none ∧ i.b.single = false
    ∧ ((ready 0x010F800002000000).core i.t.core).bins = []
      ∧ swf Core.fresh (ready 0x010F800002000000).cores = true ∧ ¬ goodTarget (ready 0x010F800002000000) i (target i 0x2000000)) (by decide)
/-- A call, a computed branch and a return to a target that is no code. -/
theorem witness_TrapsOfWords_calls : (∃ i x, MayIssueOne (ready 0x010F800002000000) i (branchWord c0 [] [4, 5]) x ∧
      (i.b.key.isWalker = false ∧ ¬ goodTarget (ready 0x010F800002000000) i (target i 0x2000000)))
    ∧ ∃ i x, MayIssueOne (ready 0x010F800002000000) i (branchWord c0 [4, 5] []) x ∧
      (i.b.key.isWalker = false ∧ ¬ goodTarget (ready 0x010F800002000000) i (x.pair 4).toNat) :=
  ⟨witnessOneP (fun i _ => i.b.key.isWalker = false ∧ ¬ goodTarget (ready 0x010F800002000000) i (target i 0x2000000)) (by decide),
    witnessOneP (fun i x => i.b.key.isWalker = false ∧ ¬ goodTarget (ready 0x010F800002000000) i (x.pair 4).toNat) (by decide)⟩
theorem witness_Exits : ∃ i, MayIssue (ready 0x050F800000000000) i (branchWord c0 [] []) ∧
    ((∀ b ∈ ((ready 0x050F800000000000).core i.t.core).bins, b.key ≠ i.b.key) ∧ swf Core.fresh (ready 0x050F800000000000).cores = true) :=
  witnessP (fun i => (∀ b ∈ ((ready 0x050F800000000000).core i.t.core).bins, b.key ≠ i.b.key) ∧ swf Core.fresh (ready 0x050F800000000000).cores = true)
    (by decide)

/-! Words that access memory, through the thread's last-page register. -/

/-- The hypothesis of a store: its access goes on. -/
def storeGoes (s : State) (w : OpWord) (i : Issuer) (x : Thread) (g : GAcc) : Bool :=
  goesOn ((s.beginClause i).gateRace (i.site w) x.tid g true)
/-- The hypotheses of a load: its access goes on, and the read brings a block. -/
def loadBrings (s : State) (w : OpWord) (i : Issuer) (x : Thread) (g : GAcc) (na data : Bool) : Bool :=
  brings ((s.beginClause i).gateRace (i.site w) x.tid g false) fun u p sc => u.readAt (i.site w) x.tid p sc na data

def memory : State := ready 0x800F804028000100 fun t => page (reg 10 0x10000 t)

/-- The clauses of AccessChecks: a misaligned address, one of 2^56, a walker's address, a page that forbids a fetch, and one
that goes on. -/
theorem witness_AccessChecks : ∃ i x, MayIssueOne memory i (memWord c0 [10, 11] [16]) x ∧
    ((∀ e ∈ (memory.core (memory.coreOf i.b.key)).atoms, e.key = i.b.key → e.tid = x.tid → e.op.order.acquires = false)
      ∧ i.b.key.isWalker = false
      ∧ (∃ p l, x.lpr = some p ∧ p.asid = (memory.ctx i.b.key.ctxId).asid ∧ p.va ≤ 0x10000 ∧ 0x1FFFF < p.va + p.size
        ∧ memory.launchOf? i.b.key = some l ∧ [Acc.read].all p.permits = true ∧ [Acc.exec].all p.permits = false
        ∧ l.purityOk p .read 0x10000 4 = true ∧ memory.launchHas i.b.key (·.race) = false)) := by
  obtain ⟨i, x, a, b⟩ := witnessOneP (s := memory) (w := memWord c0 [10, 11] [16]) (fun i x =>
    (∀ e ∈ (memory.core (memory.coreOf i.b.key)).atoms, e.key = i.b.key → e.tid = x.tid → e.op.order.acquires = false)
      ∧ i.b.key.isWalker = false ∧ (x.lpr.any fun p => decide (p.asid = (memory.ctx i.b.key.ctxId).asid ∧ p.va ≤ 0x10000
        ∧ 0x1FFFF < p.va + p.size ∧ [Acc.read].all p.permits = true ∧ [Acc.exec].all p.permits = false)
        && ((memory.launchOf? i.b.key).any fun l => l.purityOk p .read 0x10000 4)
        && !memory.launchHas i.b.key (·.race)) = true) (by decide)
  obtain ⟨c, d, e⟩ := b
  simp only [Option.any_eq_true, Bool.and_eq_true, decide_eq_true_eq, Bool.not_eq_true'] at e
  obtain ⟨p, hp, ⟨⟨q1, q2, q3, q4, q5⟩, l, hl, q6⟩, q7⟩ := e
  exact ⟨i, x, a, c, d, p, l, hp, q1, q2, q3, hl, q4, q5, q6, q7⟩
/-- A walker's access: its address is physical. -/
def walking : State := ready 0x860F800000000000
theorem witness_AccessChecks_walker : ∃ i x, MayIssueOne walking i (memWord c0 [] []) x ∧
    i.b.key.isWalker = true ∧ walking.answers (.here 0) = true ∧ walking.answers (.here (2 ^ 40)) = false
      ∧ walking.populated windowBase = true ∧ walking.answers (.here windowBase) = false :=
  witnessOneP (fun i _ => i.b.key.isWalker = true ∧ walking.answers (.here 0) = true ∧ walking.answers (.here (2 ^ 40)) = false
    ∧ walking.populated windowBase = true ∧ walking.answers (.here windowBase) = false) (by decide)
/-- A load and a store of a misaligned address do not go on. -/
def askew : State := ready 0x800F804028000100 fun t => page (reg 10 0x10001 t)
def stopsOne (w : OpWord) (i : Issuer) (x : Thread) (g : GAcc) (writes : Bool) : Bool :=
  match ((askew.beginClause i).gateRace (i.site w) x.tid g writes).2 with
  | .stop (.trap t) => t == Trap.at x.tid .align g.recKind (x.pair 10).toNat
  | _ => false
theorem witness_TrapsOfWords_accesses : ∃ i x, MayIssueOne askew i (memWord c0 [10, 11] [16]) x ∧
    (stopsOne (memWord c0 [10, 11] [16]) i x (.load (x.pair 10).toNat 4 .team) false = true
      ∧ (GAcc.load (x.pair 10).toNat 4 .team).recKind = 0 ∧ i.b.key.isWalker = false) :=
  witnessOneP (fun i x => stopsOne (memWord c0 [10, 11] [16]) i x (.load (x.pair 10).toNat 4 .team) false = true
    ∧ (GAcc.load (x.pair 10).toNat 4 .team).recKind = 0 ∧ i.b.key.isWalker = false) (by decide)
theorem witness_TrapsOfWords_stores : ∃ i x, MayIssueOne askew i (memWord c0 [10, 11, 16] []) x ∧
    (stopsOne (memWord c0 [10, 11, 16] []) i x (.store (x.pair 10).toNat 4 .team) true = true
      ∧ (GAcc.store (x.pair 10).toNat 4 .team).recKind = 1 ∧ i.b.key.isWalker = false) :=
  witnessOneP (fun i x => stopsOne (memWord c0 [10, 11, 16] []) i x (.store (x.pair 10).toNat 4 .team) true = true
    ∧ (GAcc.store (x.pair 10).toNat 4 .team).recKind = 1 ∧ i.b.key.isWalker = false) (by decide)
theorem witness_LoadsRead : ∃ b, memory.readBlock (.here 0x20000) = some b
    ∧ (memory.core 0).l1.any (fun y => y.1 == (Place.here 0x20000).blockKey) = false := ⟨_, rfl, by decide⟩
theorem witness_Loads : ∃ i x, MayIssueOne memory i (memWord c0 [10, 11] [16]) x ∧
    loadBrings memory (memWord c0 [10, 11] [16]) i x (.load (x.pair 10).toNat 4 .team) false true = true :=
  witnessOneP (fun i x => loadBrings memory (memWord c0 [10, 11] [16]) i x (.load (x.pair 10).toNat 4 .team) false true = true) (by decide)
theorem witness_Stores : ∃ i x, MayIssueOne memory i (memWord c0 [10, 11, 16] []) x ∧
    (storeGoes memory (memWord c0 [10, 11, 16] []) i x (.store (x.pair 10).toNat 4 .team) = true
      ∧ fmtReserved (fmtOf ((x.reg 16).extractLsb' 0 16)) = false) :=
  witnessOneP (fun i x => storeGoes memory (memWord c0 [10, 11, 16] []) i x (.store (x.pair 10).toNat 4 .team) = true
      ∧ fmtReserved (fmtOf ((x.reg 16).extractLsb' 0 16)) = false) (by decide)
theorem witness_PrefetchesAndHints : ∃ i x, MayIssueOne memory i (memWord c0 [10, 11] []) x ∧
    (match ((memory.beginClause i).access i.b.key i.t.core x.tid (x.pair 10).toNat 1 [.read] .read i.b.notes).2 with
      | .ok p _ => (memory.readBlock p).isSome | _ => false) = true :=
  witnessOneP (fun i x => (match ((memory.beginClause i).access i.b.key i.t.core x.tid (x.pair 10).toNat 1 [.read] .read i.b.notes).2 with
      | .ok p _ => (memory.readBlock p).isSome | _ => false) = true) (by decide)
theorem witness_Fences : (∃ i x, MayIssueOne memory i (memWord c0 [] []) x ∧ True) ∧ swf Core.fresh memory.cores = true :=
  ⟨witnessOneP (fun _ _ => True) (by decide), by decide⟩

/-! Scratchpad words: the last four bytes of the allocation, and the first past it. -/

def scratch : State := ready 0xB00F804408000120 fun t => reg 2 0xFFFC { t with sectors := sset false t.sectors 2047 true }
theorem witness_ScratchpadAccesses : ∃ i x, MayIssueOne scratch i (memWord c0 [2] [17]) x ∧
    ((x.reg 2).toNat % 4 = 0 ∧ (x.reg 2).toNat + 4 ≤ i.t.desc.scratch ∧ scratch.board = []
      ∧ (∀ k ∈ sectorsOf (x.reg 2).toNat 4, sget false i.t.sectors k = true) ∧ markAt i.t.poison ((x.reg 2).toNat / 64) = none
      ∧ fmtReserved (fmtOf ((x.reg 1).extractLsb' 0 16)) = false) :=
  witnessOneP (fun i x => (x.reg 2).toNat % 4 = 0 ∧ (x.reg 2).toNat + 4 ≤ i.t.desc.scratch ∧ scratch.board = []
      ∧ (∀ k ∈ sectorsOf (x.reg 2).toNat 4, sget false i.t.sectors k = true) ∧ markAt i.t.poison ((x.reg 2).toNat / 64) = none
      ∧ fmtReserved (fmtOf ((x.reg 1).extractLsb' 0 16)) = false) (by decide)
def pastEnd : State := ready 0xB00F804408000120 (reg 2 0x10000)
theorem witness_ScratchpadViolations : ∃ i x, MayIssueOne pastEnd i (memWord c0 [2] [17]) x ∧
    ((∀ b ∈ (pastEnd.core i.t.core).bins, b.key ≠ i.b.key) ∧ swf Core.fresh pastEnd.cores = true ∧ i.b.single = false ∧ (x.reg 2).toNat % 4 = 0
      ∧ i.t.desc.scratch < (x.reg 2).toNat + 4) :=
  witnessOneP (fun i x => (∀ b ∈ (pastEnd.core i.t.core).bins, b.key ≠ i.b.key) ∧ swf Core.fresh pastEnd.cores = true ∧ i.b.single = false ∧ (x.reg 2).toNat % 4 = 0
      ∧ i.t.desc.scratch < (x.reg 2).toNat + 4) (by decide)
theorem witness_ScratchTags : ∃ i x, MayIssueOne scratch i (memWord c0 [2, 3] [17]) x ∧
    ((scratch.beginClause i).team? i.b.key).isSome = true :=
  witnessOneP (fun i _ => ((scratch.beginClause i).team? i.b.key).isSome = true) (by decide)

/-! Atomics. -/

/-- atom.add.n32 of the word at VA 0x10000. -/
def addOp (p : Place) (x : Thread) : AtomOp :=
  { op := .add, cas := false, ty := .n32, order := .rlx, scope := .team, va := (x.pair 10).toNat, place := p, b := 1, c := 0,
    returns := true }
theorem witness_AtomicSteps : ∀ x, (addOp (.here 0x20000) x).place = .here 0x20000 ∧ 0x20000 % (addOp (.here 0x20000) x).ty.bytes = 0
    ∧ memory.MemoryWf ∧ (memory.drain (.user 0 1 0)).populated 0x20000 = true ∧ inWindows 0x20000 = false
    ∧ ((memory.drain (.user 0 1 0)).readBlock (.here 0x20000)).any (fun b => b.poison.isNone) = true := fun _ =>
  ⟨rfl, (by decide : 0x20000 % 4 = 0), by decide, by decide, by decide, by decide⟩
/-- An atomic whose access goes on: performed at once, or, in a deterministic launch, buffered. -/
def atomGoes (s : State) (det : Bool) (i : Issuer) (x : Thread) : Bool :=
  let w := memWord c0 [10, 11, 8] [5]
  match (s.beginClause i).gate (i.site w) x.tid (addOp (.here 0) x).acc with
  | (u, .go p sc') =>
    let r := u.raceCheck i.b.key x.tid (x.pair 10).toNat 4 i.cl.wordPc 2 sc' false (u.ivalOf i.b.key x.tid)
    !r.2 && (u.launchHas i.b.key (·.det) == det) && (r.1.launchHas i.b.key (·.det) == det) &&
      (if det then decide (u.quotaUsed i.b.key < 128) && (r.1.atomBlocked p).isNone
       else ((r.1.drain i.b.key).atomBlocked p).isNone
         && (match ((r.1.drain i.b.key).performAtom i.b.key { addOp p x with scope := sc' }).2 with | .ok _ => true | .error _ => false))
  | (_, .stop _) => false
theorem witness_Atomics : ∃ i x, MayIssueOne memory i (memWord c0 [10, 11, 8] [5]) x ∧ atomGoes memory false i x = true :=
  witnessOneP (fun i x => atomGoes memory false i x = true) (by decide)
def determined : State := { memory with launches := memory.launches.map fun l => { l with flags := 2 } }
theorem witness_Atomics_buffered :
    ∃ i x, MayIssueOne determined i (memWord c0 [10, 11, 8] [5]) x ∧ atomGoes determined true i x = true :=
  witnessOneP (fun i x => atomGoes determined true i x = true) (by decide)

/-! Barriers: b1 expects one arrival from outside, and phase 1 past the thread's count has completed, or none. -/

def barred (ph : BitVec 16) (arrived : BitVec 16) : State := ready 0xB71F800000000040 fun t =>
  ({ t with bars := [(1, { BarReg.fresh with xexp := 5, phase := ph })] } : Team).modThread 0 fun x => { x with arr := arrived }
theorem witness_BarrierWords : ∃ i x, MayIssueOne (barred 1 0) i (syncWord c0 [] []) x ∧
    (let u := ((barred 1 0).beginClause i).drain i.b.key
     let got := (u.modTeam i.b.key fun t => t.setBar 1 { i.t.bar 1 with xgot := (i.t.bar 1).xgot + 1 }).bumpInterval i.b.key x.tid
     let own := (u.modThread i.b.key x.tid fun y => { y with arr := y.arr ||| (1 <<< 1) }).bumpInterval i.b.key x.tid
     ((got.team? i.b.key).all fun T => !T.phaseReady 1) = true ∧ ((own.team? i.b.key).all fun T => !T.phaseReady 1) = true
      ∧ (i.t.bar 1).tm = true ∧ x.arr.getLsbD 1 = false ∧ ((i.t.bar 1).phase - sget 0 (i.begin x).wp 1).toNat = 1) :=
  witnessOneP (fun i x => let u := ((barred 1 0).beginClause i).drain i.b.key
     let got := (u.modTeam i.b.key fun t => t.setBar 1 { i.t.bar 1 with xgot := (i.t.bar 1).xgot + 1 }).bumpInterval i.b.key x.tid
     let own := (u.modThread i.b.key x.tid fun y => { y with arr := y.arr ||| (1 <<< 1) }).bumpInterval i.b.key x.tid
     ((got.team? i.b.key).all fun T => !T.phaseReady 1) = true ∧ ((own.team? i.b.key).all fun T => !T.phaseReady 1) = true
      ∧ (i.t.bar 1).tm = true ∧ x.arr.getLsbD 1 = false ∧ ((i.t.bar 1).phase - sget 0 (i.begin x).wp 1).toNat = 1) (by decide)
/-- A second arrival of the phase, and a wait for a phase that has not completed, park; so does one 32,768 ahead. -/
theorem witness_BarrierWords_parks : ∀ ph ∈ [(0 : BitVec 16), 0x8000], ∃ i x, MayIssueOne (barred ph 2) i (syncWord c0 [] []) x ∧
    (i.b.single = false ∧ ((barred ph 2).core i.t.core).bins = [] ∧ swf Core.fresh (barred ph 2).cores = true
      ∧ (i.t.bar 1).tm = true ∧ (∀ y ∈ i.t.threads, y.tid = x.tid → y.arr.getLsbD 1 = true)
      ∧ (((i.t.bar 1).phase - sget 0 (i.begin x).wp 1).toNat = 0 ∨ 32767 < ((i.t.bar 1).phase - sget 0 (i.begin x).wp 1).toNat)) := by
  intro ph h
  simp only [List.mem_cons, List.mem_nil_iff, or_false] at h
  obtain rfl | rfl := h
  · exact witnessOneP (fun i x => i.b.single = false ∧ ((barred 0 2).core i.t.core).bins = [] ∧ swf Core.fresh (barred 0 2).cores = true
      ∧ (i.t.bar 1).tm = true ∧ (∀ y ∈ i.t.threads, y.tid = x.tid → y.arr.getLsbD 1 = true)
      ∧ (((i.t.bar 1).phase - sget 0 (i.begin x).wp 1).toNat = 0 ∨ 32767 < ((i.t.bar 1).phase - sget 0 (i.begin x).wp 1).toNat)) (by decide)
  · exact witnessOneP (fun i x => i.b.single = false ∧ ((barred 0x8000 2).core i.t.core).bins = [] ∧ swf Core.fresh (barred 0x8000 2).cores = true
      ∧ (i.t.bar 1).tm = true ∧ (∀ y ∈ i.t.threads, y.tid = x.tid → y.arr.getLsbD 1 = true)
      ∧ (((i.t.bar 1).phase - sget 0 (i.begin x).wp 1).toNat = 0 ∨ 32767 < ((i.t.bar 1).phase - sget 0 (i.begin x).wp 1).toNat)) (by decide)
/-- A phase that completes: the thread has arrived, and as many arrivals from outside as are expected. -/
theorem witness_BarrierPhases : ∃ T, (barred 0 2).team? (.user 0 1 0) = some T ∧ swf BarReg.fresh T.bars = true
    ∧ swf 0 T.visible = true ∧ T.threads.filter (·.live) ≠ [] ∧ (∀ y ∈ T.threads.filter (·.live), y.arr.getLsbD 1 = true)
    ∧ (T.bar 1).xexp.toNat + (T.bar 1).xadd.toNat ≤ 5 := ⟨_, rfl, by decide⟩

/-! Copies and transfers: a one-row, 64-byte tile whose layout record lies at VA 0x10000. -/

/-- The record: base 0x11000, size 64, one dimension, box 64, format n8; for a transfer, to this package's die 0. -/
def record : List Host.Cell := [(0x20001, 0x10), (0x20002, 0x01), (0x20008, 64), (0x2002D, 1), (0x2002E, 64)]
def copying (w : W64) : State :=
  let s := ready w fun t => page (reg 20 0x10000 { t with sectors := [(0, true), (1, true)] })
  { s with mem := record }
/-- All the hypotheses of a copy or transfer word. -/
def copyGoes (s : State) (w : OpWord) (kind : MoveKind) (i : Issuer) (x : Thread) : Bool :=
  let s1 := s.beginClause i
  match s1.team? i.b.key, s1.gateRace (i.site w) x.tid (.load 0x10000 64 .team) false with
  | some T, (u, .go p sc') =>
    (match u.readAt (i.site w) x.tid p sc' false true with
      | (u1, .ok blk) =>
        let raw := Layout.ofBytes blk.bytes
        let lay := if kind.isXfer then raw else { raw with rep := 0, reduce := 0, key := 0 }
        let cs := [0, 0, 0, 0, (0 : Int)]
        lay.contentOk blk.bytes && lay.aligned cs kind.isXfer && decide (lay.tileBytes ≤ T.desc.scratch)
          && ((u1.launchOf? i.b.key).all fun l => l.movePure lay cs kind) && (kind.inbound || T.written? 0 lay.tileBytes)
          && !u1.moveWaits (i.site w) T 0 lay.tileBytes none
          && (if kind.isXfer then !u1.xferBad i.b.key.ctxId (i.t.core / 40) (kind == .pull) lay cs
              else !(u1.moveRace (i.site w) x.tid lay cs (!kind.inbound) .team).2)
      | (_, .error _) => false)
  | _, _ => false
theorem witness_CopiesStart : ∃ i x, MayIssueOne (copying 0xB300805048500040) i (syncWord c0 [18, 20, 21, 22, 23, 24, 25, 26] []) x ∧
    (∀ k ∈ [MoveKind.tcopy, .tstore, .push, .pull],
      copyGoes (copying 0xB300805048500040) (syncWord c0 [18, 20, 21, 22, 23, 24, 25, 26] []) k i x = true) :=
  witnessOneP (fun i x => ∀ k ∈ [MoveKind.tcopy, .tstore, .push, .pull],
      copyGoes (copying 0xB300805048500040) (syncWord c0 [18, 20, 21, 22, 23, 24, 25, 26] []) k i x = true) (by decide)
/-- A batch that is empty, and one that is not. -/
theorem witness_SealsAndFlows : ∃ i x, MayIssueOne (ready 0xB500000000000000 fun t =>
      t.modThread 0 fun x => { x with batches := [(1, [7])] }) i (syncWord c0 [] []) x ∧
    (sget [] x.batches 0 = [] ∧ sget [] x.batches 1 ≠ []) :=
  witnessOneP (fun _ x => sget [] x.batches 0 = [] ∧ sget [] x.batches 1 ≠ []) (by decide)

/-! Matrix words: a team of swarm index 0, whose first 4 KiB of scratchpad are written, in blocks of s4. -/

def swarmed (w : W64) : State := ready w fun t => { t with
  sectors := (List.range 128).map fun n => (n, true), descs := (List.range 64).map fun n => (n, 0x8003) }
/-- The hypotheses of a matrix word. -/
def matGoes (s : State) (i : Issuer) (f : MatForm) : Bool :=
  let s1 := s.beginClause i
  match s1.team? i.b.key with
  | some T =>
    let reads := f.reads ++ f.gathered T
    T.swarmIdx == 0 && f.aligned.all (· % 64 == 0) && T.holds (reads ++ f.writes) && !s1.matWaits (i.site (mxWord c0 [])) f reads
      && reads.all (fun r => T.written? r.1 r.2) && (T.markIn reads).isNone
      && (f.kind.blocksBad (T.latchA f) (T.latchB f)).isNone
  | none => false
/-- mma and mms of s4, accz, accst of the flags to the last word and of a tile to the upper half, and a drain. -/
def forms : List MatForm :=
  let i4 : MMods := { kind := .i4, asg := true, bsg := true, af16 := false, bf16 := false, sat := false }
  let f (k : MatKind) (al : List Nat) (r w : List (Nat × Nat)) (a : Nat) : MatForm :=
    { kind := k, aligned := al, reads := r, writes := w, aOff := a, bOff := 0, stride := 64 }
  [f (.mma i4) [0, 0] [(0, 4096), (0, 2048)] [] 0, f (.mms i4) [0] [(0, 4096)] [] 0, f .accz [] [] [] 0,
   f (.accst false true) [] [] [(0xFFFC, 4)] 0xFFFC, f (.accst false false) [0x8000] [] [(0x8000, 32768)] 0x8000,
   f (.drain .s8 .rn .sat false) [0x1000, 0] [(0, 1024)] [(0x1000, 8192)] 0x1000]
theorem witness_MatrixWordsQueue : ∃ i, MayIssue (swarmed 0xC300000000000000) i (mxWord c0 []) ∧
    forms.all (matGoes (swarmed 0xC300000000000000) i) = true :=
  witnessP (fun i => forms.all (matGoes (swarmed 0xC300000000000000) i) = true) (by decide +kernel)

/-! Waits, spawns and team barriers. -/

def wanting (v : W32) : State := ready 0xD00F802810180802 fun t => page (reg 10 0x10000 (reg 6 v t))
/-- A wait whose word, zero, equals the value wanted, and one whose word is not above it. -/
theorem witness_MemoryWaits : ∃ i x, MayIssueOne (wanting 0) i (syncWord c0 [10, 11, 6] [4]) x ∧
    (loadBrings (wanting 0) (syncWord c0 [10, 11, 6] [4]) i x (.load 0x10000 4 .team) false true = true
      ∧ ((wanting 0).readBlock (.here 0x20000)).any (fun b => natOfBytes (b.bytes.take 4) == (x.reg 6).toNat) = true) :=
  witnessOneP (fun i x => loadBrings (wanting 0) (syncWord c0 [10, 11, 6] [4]) i x (.load 0x10000 4 .team) false true = true
      ∧ ((wanting 0).readBlock (.here 0x20000)).any (fun b => natOfBytes (b.bytes.take 4) == (x.reg 6).toNat) = true) (by decide)

theorem witness_MemoryWaits_parks : ∃ i x, MayIssueOne (wanting 1) i (syncWord c0 [10, 11, 6, 7] []) x ∧
    (loadBrings (wanting 1) (syncWord c0 [10, 11, 6, 7] []) i x (.load 0x10000 8 .team) false true = true
      ∧ ((wanting 1).readBlock (.here 0x20000)).any (fun b => decide (natOfBytes (b.bytes.take 8) < (x.pair 6).toNat)) = true
      ∧ i.b.single = false ∧ ((wanting 1).core i.t.core).bins = [] ∧ swf Core.fresh (wanting 1).cores = true) :=
  witnessOneP (fun i x => loadBrings (wanting 1) (syncWord c0 [10, 11, 6, 7] []) i x (.load 0x10000 8 .team) false true = true
      ∧ ((wanting 1).readBlock (.here 0x20000)).any (fun b => decide (natOfBytes (b.bytes.take 8) < (x.pair 6).toNat)) = true
      ∧ i.b.single = false ∧ ((wanting 1).core i.t.core).bins = [] ∧ swf Core.fresh (wanting 1).cores = true) (by decide)
def spawning (depth pending : Nat) : State := ready 0xD10F800010000000 fun t => page (reg 4 0x10000 { t with
  depth := depth, spawns := (List.range pending).map fun n => { slot := n, bytes := [], order := n, pc := 0 } })
/-- A leader's spawn with three entries taken, with four, and at depth 10. -/
def spawnBrings (s : State) (pending : Nat) (i : Issuer) (x : Thread) : Bool :=
  let s1 := s.beginClause i
  x.tid == 0 && !s.launchHas i.b.key (·.det) && !s.launchHas i.b.key (·.pure)
    && (s1.team? i.b.key).any (fun T => T.depth != 10 && T.spawns.length == pending
      && (match (s1.spawnRead (i.site (syncWord c0 [4, 5] [])) 0 0x10000
            (if T.key.teamId = 0 ∧ T.desc.isSeed = true then .exempt else .read)).2 with | .ok _ => true | .error _ => false))
theorem witness_Spawns : (∃ i x, MayIssueOne (spawning 9 3) i (syncWord c0 [4, 5] []) x ∧ spawnBrings (spawning 9 3) 3 i x = true)
    ∧ (∃ i x, MayIssueOne (spawning 9 4) i (syncWord c0 [4, 5] []) x ∧ spawnBrings (spawning 9 4) 4 i x = true)
    ∧ ∃ i x, MayIssueOne (spawning 10 0) i (syncWord c0 [4, 5] []) x ∧
      (x.tid = 0 ∧ ((spawning 10 0).beginClause i).team? i.b.key ≠ none ∧ i.t.depth = 10) :=
  ⟨witnessOneP (fun i x => spawnBrings (spawning 9 3) 3 i x = true) (by decide),
    witnessOneP (fun i x => spawnBrings (spawning 9 4) 4 i x = true) (by decide),
    witnessOneP (fun i x => x.tid = 0 ∧ ((spawning 10 0).beginClause i).team? i.b.key ≠ none ∧ i.t.depth = 10) (by decide)⟩
/-- A team of two threads, of which the bundle has one. -/
def twoThreads : State := ready 0xD40F800000000002 fun t => { t with threads := t.threads ++ t.threads.map fun x => { x with tid := 1 } }
theorem witness_FlushesAndTeamBarriers : ∃ i x, MayIssueOne twoThreads i (syncWord c0 [] []) x ∧
    (i.b.single = false ∧ (twoThreads.core i.t.core).bins = [] ∧ swf Core.fresh twoThreads.cores = true
      ∧ ∃ y ∈ i.t.threads, y.tid ≠ x.tid ∧ y.live = true ∧ i.t.thread? y.tid = some y ∧ ∀ e ∈ i.t.tbarIn, e.1 ≠ y.tid) :=
  witnessOneP (fun i x => i.b.single = false ∧ (twoThreads.core i.t.core).bins = [] ∧ swf Core.fresh twoThreads.cores = true
      ∧ ∃ y ∈ i.t.threads, y.tid ≠ x.tid ∧ y.live = true ∧ i.t.thread? y.tid = some y ∧ ∀ e ∈ i.t.tbarIn, e.1 ≠ y.tid) (by decide)

/-! System words. -/

def calling : State := ready 0xE00F805020000C00
theorem witness_CallsAndTraps : ∃ i x, MayIssueOne calling i (ctlWord c0 ((List.range 8).map (8 + ·)) [20, 21]) x ∧
    (let u := (calling.beginClause i).releaseAll i.b.key x.tid x.atomSeq
     i.b.key.isWalker = false ∧ i.b.single = false ∧ (calling.core i.t.core).bins = [] ∧ swf Core.fresh calling.cores = true
      ∧ (u.thread? i.b.key x.tid).all (fun z => z.reissue.isNone) = true ∧ calling.launchHas i.b.key (·.pure) = false) :=
  witnessOneP (fun i x => let u := (calling.beginClause i).releaseAll i.b.key x.tid x.atomSeq
     i.b.key.isWalker = false ∧ i.b.single = false ∧ (calling.core i.t.core).bins = [] ∧ swf Core.fresh calling.cores = true
      ∧ (u.thread? i.b.key x.tid).all (fun z => z.reissue.isNone) = true ∧ calling.launchHas i.b.key (·.pure) = false) (by decide)
/-- A pure launch. -/
def pureCall : State := { calling with launches := calling.launches.map fun l => { l with flags := 1 } }
theorem witness_CallsAndTraps_pure : ∃ i x, MayIssueOne pureCall i (ctlWord c0 ((List.range 8).map (8 + ·)) [20, 21]) x ∧
    pureCall.launchHas i.b.key (·.pure) = true :=
  witnessOneP (fun i _ => pureCall.launchHas i.b.key (·.pure) = true) (by decide)
/-- A debugged context whose cores trace marks, and one that is neither. -/
def debugged : State := { calling with ctxs := [(0, { Ctx.fresh with debug := true, trace := 5 })] }
theorem witness_BreaksAndMarks : (∃ i x, MayIssueOne debugged i (ctlWord c0 [] []) x ∧
      (i.b.key = .user 0 1 0 ∧ (debugged.ctx 0).debug = true ∧ x.brkDone = false ∧ (debugged.core i.t.core).bins = []
      ∧ swf Core.fresh debugged.cores = true ∧ i.b.single = false
      ∧ ∀ k ∈ debugged.bundles, k.id ≠ i.b.id → k.key = i.b.key → x.tid ∉ k.tids))
    ∧ ∃ i x, MayIssueOne calling i (ctlWord c0 [] []) x ∧ (i.b.key = .user 0 1 0 ∧ (calling.ctx 0).debug = false) :=
  ⟨witnessOneP (fun i x => i.b.key = .user 0 1 0 ∧ (debugged.ctx 0).debug = true ∧ x.brkDone = false ∧ (debugged.core i.t.core).bins = []
      ∧ swf Core.fresh debugged.cores = true ∧ i.b.single = false
      ∧ ∀ k ∈ debugged.bundles, k.id ≠ i.b.id → k.key = i.b.key → x.tid ∉ k.tids)
      (by decide), witnessOneP (fun i _ => i.b.key = .user 0 1 0 ∧ (calling.ctx 0).debug = false) (by decide)⟩
/-- A thread that brk has stopped and that goes on. -/
def resumed : State := { debugged with teams := debugged.teams.map fun t => t.modThread 0 fun x => { x with brkDone := true } }
theorem witness_BreaksAndMarks_again : ∃ i x, MayIssueOne resumed i (ctlWord c0 [] []) x ∧
    (i.b.key = .user 0 1 0 ∧ (resumed.ctx 0).debug = true ∧ x.brkDone = true) :=
  witnessOneP (fun i x => i.b.key = .user 0 1 0 ∧ (resumed.ctx 0).debug = true ∧ x.brkDone = true) (by decide)
/-- The page tables of a context whose root is 0x40000: VA 0x10000 lies at PA 0x20000, readable, writable and executable. -/
def tables : List Host.Cell := [(0x40000, 0x01), (0x40002, 0x04), (0x40008, 0x2F), (0x4000A, 0x02)]
def rooted : List (Nat × Ctx) := [(0, { Ctx.fresh with root := 0x40000 })]
/-- Whether a core's stream, and the memory it is written to, take a record of 32 bytes at its tail. -/
def takesRecord (s : State) (core ctx : Nat) (rec' : List Byte) : Bool :=
  let y := (s.core core).stream ctx
  let n := 4096 / 32 - 2
  let seg := ((s.ctx ctx).trace.extractLsb' 16 40).toNat * 65536 + core * 4096
  let tail := y.tail % n
  (s.ctx ctx).trace.extractLsb' 8 4 == 0 && y.started && !y.suspended && y.resync.isNone && decide (s.ticks - y.last < 2 ^ 32)
    && (tail + 1) % n != y.headSeen % n
    && (match s.sysWrite ctx (seg + 64 + 32 * tail) rec' with
      | .ok u => (match u.sysWrite ctx seg (bytesOfNat 8 ((tail + 1) % n)) with | .ok _ => true | .error _ => false)
      | .error _ => false)
/-- A context that traces into a mapped page, its stream on core 0 begun. -/
def traced : State :=
  { calling with mem := tables, ctxs := rooted.map fun c => (c.1, { c.2 with trace := 0x10007 }), ticks := 640
                 cores := [(0, { Core.fresh with streams := [{ Stream.fresh 0 with started := true }] })] }
theorem witness_BreaksAndMarks_record : (∃ i x, MayIssueOne traced i (ctlWord c0 [12] []) x ∧
    (i.b.key = .user 0 1 0 ∧ i.t.core = 0)) ∧ takesRecord traced 0 0 (List.replicate 32 0) = true :=
  ⟨witnessOneP (fun i _ => i.b.key = .user 0 1 0 ∧ i.t.core = 0) (by decide), by decide +kernel⟩
def walkCtl : State := { walking with bundles := walking.bundles.map fun b =>
  { b with clause := b.clause.map fun c => { c with head := 0x4000000000000000 } } }
/-- A walker thread's cwr, with both bounds of REGROUPAGE; a user thread's. -/
theorem witness_ControlRegisters : (∃ i x, MayIssueOne walkCtl i (ctlWord c0 [6, 7] []) x ∧ i.b.key.isWalker = true)
    ∧ (∃ i x, MayIssueOne calling i (ctlWord c0 [6, 7] []) x ∧
      (i.b.key.isWalker = false ∧ calling.launchHas i.b.key (·.pure) = false))
    ∧ ∃ i x, MayIssueOne pureCall i (ctlWord c0 [] [6, 7]) x ∧ pureCall.launchHas i.b.key (·.pure) = true :=
  ⟨witnessOneP (fun i _ => i.b.key.isWalker = true) (by decide),
    witnessOneP (fun i _ => i.b.key.isWalker = false ∧ calling.launchHas i.b.key (·.pure) = false) (by decide),
    witnessOneP (fun i _ => pureCall.launchHas i.b.key (·.pure) = true) (by decide)⟩
/-- A walker thread whose walk is for a page, and a leaf entry for it; a user thread. -/
theorem witness_WalkerWords : (∃ i x, MayIssueOne walking i (memWord c0 [2, 3, 4, 5] []) x ∧
      (i.b.key = .walker 0 0 ∧ (walking.core 0).walks.find? (fun k => k.slot == 0)
        = some { slot := 0, what := .page 0 0 0 false, started := 0, failed := false, region := 0, pages := 0, invals := [] }
        ∧ (match walking.fillOf 0 0 3 with | .entry _ => true | _ => false) = true ∧ swf Core.fresh walking.cores = true))
    ∧ ∃ i x, MayIssueOne memory i (memWord c0 [] []) x ∧ i.b.key.isWalker = false :=
  ⟨witnessOneP (fun i _ => i.b.key = .walker 0 0 ∧ (walking.core 0).walks.find? (fun k => k.slot == 0)
        = some { slot := 0, what := .page 0 0 0 false, started := 0, failed := false, region := 0, pages := 0, invals := [] }
        ∧ (match walking.fillOf 0 0 3 with | .entry _ => true | _ => false) = true ∧ swf Core.fresh walking.cores = true) (by decide),
    witnessOneP (fun i _ => i.b.key.isWalker = false) (by decide)⟩

end Sys2Proof.Tests
end

