-- ==== Sys2Proof/Tests/WitnessUnits.lean ====
section
/-! SUPPORT. WitnessUnits.lean: states that meet the hypotheses of the statements about a core's units, the front end and launches. -/

namespace Sys2Proof.Tests
open Sys2Proof Sys2Proof.Machine Sys2Proof.Claims
set_option Elab.async false

/-! ## Events: small states around a team of one thread -/

/-- Bytes at VA 0x10000. -/
def at' (bytes : List Byte) : List Host.Cell := (((List.range bytes.length).map fun i => (0x20000 + i, bytes.getD i 0)).filter fun e => e.2 != 0) ++ tables
def key0 : TeamKey := .user 0 1 0

/-- A team that stands before a clause. The header's COUNT and class, and the word after it. -/
def fetching (head : List Byte) : State :=
  let s := ready 0x000F800000000000 fun t => t.modThread 0 fun x =>
    { x with lpr := some { asid := 0, va := 0x10000, size := 65536, place := .here 0x20000, r := true, w := true, x := true,
                           derived := false, rdok := true, wrok := true, edge := false } }
  { s with mem := at' head, bundles := s.bundles.map fun b => { b with clause := none } }
/-- The bundle and the team of a state, if there are just one each. -/
def only (s : State) (p : Bundle → Team → Bool) : Bool :=
  match s.bundles, s.teams with
  | [b], [t] => s.bundle? b.id == some b && s.team? b.key == some t && p b t
  | _, _ => false
/-- A header of class 4 and COUNT 0, with NOALLOC, whose word comes; a header of class 5; a bundle that holds a clause. -/
theorem witness_ClauseFetches :
    only (fetching [0, 0, 0, 0x40, 0, 0, 0, 0x40]) (fun b t => b.clause.isNone && (fetching [0, 0, 0, 0x40, 0, 0, 0, 0x40]).mayBegin t
        && !(fetching [0, 0, 0, 0x40, 0, 0, 0, 0x40]).breaks b
        && (match (fetching [0, 0, 0, 0x40, 0, 0, 0, 0x40]).fetchWord b 0 b.pc true with
          | (u, .word h) => h == 0x4000000040000000 && (match u.fetchWords b 0 b.pc true 2 [] with
            | (_, .word _, ws) => ws.length == 2 | _ => false)
          | _ => false)) = true
      ∧ only (fetching [0, 0, 0, 0, 0, 0, 0, 0x50]) (fun b t => b.clause.isNone && (fetching [0, 0, 0, 0, 0, 0, 0, 0x50]).mayBegin t
        && !b.key.isWalker && (t.thread? 0).all (fun x => x.reissue.isNone)
        && (match (fetching [0, 0, 0, 0, 0, 0, 0, 0x50]).fetchWord b 0 b.pc true with
          | (_, .word h) => decide (4 < (h.extractLsb' 60 4).toNat) | _ => false)) = true
      ∧ only (ready 0x000F800000000000) (fun b _ => b.clause.isSome) = true := by decide +kernel

/-! Cores: a state with one of each that an event of a core acts on. -/

def store1 : StoreEntry := { key := key0, tid := 0, place := .here 0x20000, bytes := [1, 2], descr := none, scope := .team }
def bin3 : Bin := { idx := 3, key := key0, pc := 0x10000, tids := [0], filed := 0, age := 64 }
def walk0 : Walk := { slot := 0, what := .page 0 0 0x10000 false, started := 0, failed := false, region := 0, pages := 0, invals := [] }
/-- At a cycle of core 0. -/
def cored (ticks : Nat) : State :=
  let s := ready 0x000F800000000000 fun t => t.modThread 0 fun x =>
    { x with pend := [{ id := 0, reg := 4, count := 1, value := some [7], kind := .arith }] }
  { s with ticks := ticks, cores := sset .fresh [] 0 { Core.fresh with fifo := [store1], bins := [bin3], walks := [walk0] } }
/-- A result that lands, a store that is performed, and a bin and a walk, an age and a limit away and past them. -/
theorem witness_CoreEvents : swf Core.fresh (cored 0).cores = true
    ∧ (((cored 0).thread? key0 0).any fun x => x.pend.any (fun p => p.value.isSome) && swf 0 x.regs) = true
    ∧ ((cored 0).core 0).fifo = [store1] ∧ (cored 0).populated 0x20000 = true ∧ inWindows 0x20000 = false ∧ (cored 0).MemoryWf
    ∧ ((cored 0).core 0).bins = [bin3] ∧ bin3.tids ≠ [] ∧ (∀ y ∈ ((cored 0).thread? key0 0).toList, y.stopNext = false)
    ∧ (cored 0).cycle 0 < bin3.filed + bin3.age ∧ bin3.filed + bin3.age ≤ (cored 40).cycle 0
    ∧ (cored 0).cycle 0 < walk0.started + walkLimit (cored 0).walkCfg ∧ walk0.started + walkLimit (cored 0).walkCfg ≤ (cored 100000).cycle 0
    ∧ (cored 0).callBusy = false ∧ walk0.what ≠ .call
    ∧ (cored 0).starves (Team.start key0 0 0 0 0 0 probeDesc []) = false := by decide +kernel
/-- An island after more than 1,600 cycles without an issue, and after 1,600; at 1.6 cycles a tick, no tick lies between. -/
theorem witness_CoreEvents_islands :
    max (State.reset.island 0).lastIssue (State.reset.island 0).c0 + 1600 < ({ State.reset with ticks := 1001 } : State).islandCycle 0
      ∧ ({ State.reset with ticks := 1000 } : State).islandCycle 0 ≤ max (State.reset.island 0).lastIssue (State.reset.island 0).c0 + 1600 := by
  decide +kernel
/-- A breakpoint at the word; a team whose buffered atomics fill its quota while its thread is parked. -/
def broken : State :=
  { ready 0x000F800000000000 with ctxs := [(0, { Ctx.fresh with
      debug := true, bps := [(0, { Breakpoint.fresh with ctl := 0x8000000000010008 })] })] }
def starving : State :=
  let s := ready 0x000F800000000000 fun t => t.modThread 0 fun x => { x with stat := .parked .quota }
  { s with cores := [(0, { Core.fresh with atoms := (List.range 128).map fun n =>
      { key := key0, tid := 0, seq := n, op := (addOp (.here 0) (Thread.start 0 0)), pend := none } })] }
theorem witness_CoreEvents_stops :
    (match broken.bundles.find? (fun b => b.key == key0 && (broken.breaking b 0).contains 0), broken.team? key0 with
      | some b, some T => b.key == key0 && T.core == 0 && T.tbarIn.isEmpty && (broken.core 0).bins.isEmpty
          && broken.bundles.all (fun k => k.id == b.id || k.key != b.key || k.tids.all fun j => !b.tids.contains j)
      | _, _ => false) = true
    ∧ ((starving.team? key0).any fun T => starving.starves T && T.core == 0) = true := by decide +kernel

/-! Units: a wait, a copy, and a pair's engine. -/

/-- The page that tables maps, found by the walk of R192. -/
structure Mapped (s : State) : Prop where
  root : (s.ctx 0).root = 0x40000
  up : s.storedNat 0x40000 8 = 0x40001
  leaf : s.storedNat 0x40008 8 = 0x2002F
  clean : s.poison = []
theorem Mapped.walks {s : State} (m : Mapped s) {k : Nat} {acc : Acc} (h : k < 65536) :
    s.sysPlace 0 (0x10000 + k) acc = .ok (.here (0x20000 + k)) := by
  have p (a : Nat) (h : a < 2 ^ 32) : s.populated a = true := by unfold State.populated; rw [decide_eq_true h]; rfl
  have p0 := p 0x40000 (by decide)
  have p1 := p 0x40008 (by decide)
  have p2 := p 0x20000 (by decide)
  have n0 : inWindows 0x40000 = false := by decide
  have n1 : inWindows 0x40008 = false := by decide
  have hi : (0x10000 + k) / 65536 = 1 := by omega
  have i0 (n : Nat) (hn : 0x20000 ≤ n) : (0x10000 + k) / n % 1024 = 0 := by rw [Nat.div_eq_of_lt (by omega)]
  have w1 : s.walkTables 0 (0x10000 + k) = .leaf (leafOf 0x2002F (0x10000 + k) 0) := by
    unfold State.walkTables
    rw [m.root]
    simp only [State.walkFrom, m.clean, i0 _ (by decide : 0x20000 ≤ 65536 * 1024 ^ 3), i0 _ (by decide : 0x20000 ≤ 65536 * 1024 ^ 2),
      i0 _ (by decide : 0x20000 ≤ 65536 * 1024 ^ 1), Nat.mul_zero, Nat.add_zero]
    simp [markAt, bitAt, hi, m.up, m.leaf, p0, p1, p2, n0, n1]
  have w2 : inWindows (0x20000 + k) = false := by unfold inWindows windowBase; simp; omega
  unfold State.sysPlace
  rw [w1, if_neg (by omega)]
  cases acc <;> simp [leafOf, bitAt, Place.add, pageBytes, hi, State.answers, w2, p _ (by omega : 0x20000 + k < 2 ^ 32)]

theorem mapped {s : State} (hm : s.mem = tables) (hp : s.poison = []) (hr : s.ctxs = rooted) : Mapped s where
  root := by unfold State.ctx; rw [hr]; rfl
  up := by unfold State.storedNat; rw [hm]; decide
  leaf := by unfold State.storedNat; rw [hm]; decide
  clean := hp

/-- A wait for the value v; a polled one is to be reread at cycle 5. -/
def memWait (v : W64) (polled : Bool) : MemWait :=
  { va := 0x10000, place := .here 0x20000, val := v, wide := false, eq := true, join := false, scope := .team, dest := 4,
    polled := polled, nextPoll := 5 }
/-- A thread parked at a wait, in memory that holds 0. -/
def parkedWait (v : W64) (polled : Bool) (ticks : Nat) : State :=
  let s := ready 0xD00F802810180802 fun t => t.modThread 0 fun x =>
    { x with stat := .parked (.memory (memWait v polled)), clause := some (Clause.start 0x10000 0x3000000000000000 [0xD00F802810180802]) }
  { s with mem := tables, ctxs := rooted, bundles := [], ticks := ticks }
theorem waiting_block (v : W64) (p : Bool) (n : Nat) : (parkedWait v p n).waitBlock key0 (memWait v p)
    = some { bytes := List.replicate 64 0, descr := plainDescr, poison := none } := by
  have h : (parkedWait v p n).waitPlace key0 (memWait v p) = some (.here 0x20000) := by
    unfold State.waitPlace
    simp only [key0, memWait]
    rw [show (65536 : Nat) = 0x10000 + 0 from rfl, Mapped.walks (k := 0) (mapped rfl rfl rfl) (by decide)]
  unfold State.waitBlock
  rw [h]
  rfl
theorem waiting_reads (v : W64) (p : Bool) (n : Nat) : (parkedWait v p n).waitOver key0 (memWait v p) = ((memWait v p).holds 0) := by
  unfold State.waitOver
  rw [waiting_block]
  have w : (memWait v p).word { bytes := List.replicate 64 0, descr := plainDescr, poison := none } = 0 := by
    rw [show (memWait v p).word = (memWait 0 false).word from rfl]
    decide
  simp only [w, Option.isSome_none, Bool.false_or]
/-- The other hypotheses of a parked wait: the thread is its team's only one, so that its block is the only one reread. -/
def parkedRight (v : W64) (p : Bool) (n : Nat) : Bool :=
  match (parkedWait v p n).team? key0, (parkedWait v p n).thread? key0 0 with
  | some T, some x => x.stat == .parked (.memory (memWait v p)) && x.clause.any (fun c => !c.atEnd) && T.isResident
      && T.tbarIn.isEmpty && swf Core.fresh (parkedWait v p n).cores && ((parkedWait v p n).core T.core).bins.isEmpty
      && !(parkedWait v p n).podHolds { key := key0, tid := 0 } && T.threads == [x] && !x.stopNext
  | _, _ => false
theorem witness_UnitEvents_waits : (parkedWait 0 false 0).waitOver key0 (memWait 0 false) = true
    ∧ (parkedWait 1 false 0).waitOver key0 (memWait 1 false) = false
    ∧ (parkedWait 0 true 4).waitOver key0 (memWait 0 true) = true ∧ (parkedWait 1 true 4).waitOver key0 (memWait 1 true) = false
    ∧ (memWait 0 true).nextPoll ≤ (parkedWait 0 true 4).cycle 0 ∧ (parkedWait 0 true 3).cycle 0 < (memWait 0 true).nextPoll
    ∧ parkedRight 0 false 0 = true ∧ parkedRight 1 false 0 = true ∧ parkedRight 0 true 4 = true ∧ parkedRight 1 true 4 = true
    ∧ parkedRight 0 true 3 = true
    ∧ ∀ v p n b, (parkedWait v p n).waitBlock key0 (memWait v p) = some b → b.poison = none := by
  rw [waiting_reads, waiting_reads, waiting_reads, waiting_reads]
  refine ⟨by decide, by decide, by decide, by decide, by decide +kernel, by decide +kernel, by decide +kernel, by decide +kernel,
    by decide +kernel, by decide +kernel, by decide +kernel, fun v p n b h => ?_⟩
  rw [waiting_block] at h
  cases h
  rfl
/-- A copy of the one-block tile of record, whose block has landed or not, in a context that maps its page or none. -/
def tile1 : Layout :=
  { base := 0x10000, sizes := [64, 0, 0, 0, 0], strides := [0, 0, 0, 0], format := 1, ndims := 1, box := [64, 0, 0, 0, 0],
    coord := 0, rep := 0, reduce := 0, key := 0 }
def move1 (left : List Nat) (kind : MoveKind) : Move :=
  { id := 5, order := 5, key := key0, tid := 0, pc := 0x10000, kind := kind, lay := tile1, coords := [0, 0, 0, 0, 0], off := 0, len := 64,
    bar := none, scope := .team, left := left, sent := true, stopped := none, interval := 0, core := 0 }
def moving (left : List Nat) (ctxs : List (Nat × Ctx)) (kind : MoveKind) : State :=
  { ready 0xB300805048500040 with mem := tables, ctxs := ctxs, moves := [move1 left kind] }
theorem moving_parts : (moving [0] rooted .tcopy).moveParts (move1 [0] .tcopy) 0 = .ok [(.here 0x20000, 64)] := by
  have h : (moving [0] rooted .tcopy).sysPlace 0 0x10000 .read = .ok (.here 0x20000) := Mapped.walks (k := 0) (mapped rfl rfl rfl) (by decide)
  have b : blockParts ((move1 [0] .tcopy).block 0).va ((move1 [0] .tcopy).lay.memBytes ((move1 [0] .tcopy).block 0)) = [(0x10000, 64)] := by
    decide +kernel
  have r : ((moving [0] rooted .tcopy).readBlock (.here 0x20000)).isNone = false := by decide +kernel
  unfold State.moveParts State.placesOf
  simp only [b, List.foldl]
  show (match (moving [0] rooted .tcopy).sysPlace 0 0x10000 .read with
      | .error c => Except.error c
      | .ok p => if ((moving [0] rooted .tcopy).readBlock p).isNone then .error .machine else .ok ([] ++ [(p, 64)])) = _
  rw [h]
  simp [r]
theorem witness_UnitEvents_copies : (moving [0] rooted .tcopy).move? 5 = some (move1 [0] .tcopy)
    ∧ (moving [0] rooted .tcopy).blockReady (move1 [0] .tcopy) 0 = true ∧ ((move1 [0] .tcopy).block 0).nibs ≠ 0
    ∧ (moving [0] rooted .tcopy).moveParts (move1 [0] .tcopy) 0 = .ok [(.here 0x20000, 64)]
    ∧ ((moving [0] rooted .tcopy).readBlock (.here 0x20000)).isSome = true ∧ ((moving [0] rooted .tcopy).team? key0).isSome = true
    ∧ (move1 [0] .tcopy).kind.isXfer = false
    ∧ (match (moving [0] [] .tcopy).moveParts (move1 [0] .tcopy) 0 with | .error .pageNp => true | _ => false) = true
    ∧ (moving [] rooted .push).move? 5 = some (move1 [] .push) ∧ (move1 [] .push).left = [] ∧ (move1 [] .push).sent = true :=
  by and_intros <;> first | exact moving_parts | decide +kernel
def s4 : MMods := { kind := .i4, asg := true, bsg := true, af16 := false, bf16 := false, sat := false }
def engineOp (k : MatKind) (begun : Bool) : MatOp :=
  { id := 9, order := 9, key := key0, tid := 0, pc := 0x10000, kind := k, acc := 0, a := [], index := [], b := [], dest := 0, bAddr := 0x10000,
    bStride := 64, streamed := [], set := none, waits := [], begun := begun, stopped := none }
def engine (k : MatKind) (begun : Bool) (ctxs : List (Nat × Ctx)) : State :=
  { ready 0xC300000000000000 with
    mem := tables, ctxs := ctxs, pairs := [(0, { Pair.fresh with queue := [engineOp k begun] })]
    descs := (List.range 64).map fun n => (0x800 + n, 0x8003) }
def zeros : Block := { bytes := List.replicate 64 0, descr := 0x8003, poison := none }
theorem stream_comes : ∃ bs, (engine (.mms s4) false rooted).readStream (engineOp (.mms s4) false) = .ok bs
    ∧ (engineOp (.mms s4) false).streamBad bs = none := by
  generalize hs : engine (.mms s4) false rooted = s
  have rd : ∀ n < 64, s.readBlock (.here (0x20000 + 64 * n)) = some zeros := by subst hs; decide +kernel
  have go : ∀ (ns : List Nat), (∀ n ∈ ns, n < 64) → ∀ acc : List (Nat × Block),
      (ns.map fun n => (n, 0x10000 + 64 * n)).foldl (init := (Except.ok acc : Except (Cause × Nat) (List (Nat × Block))))
        (fun acc x => match acc with
          | .error e => .error e
          | .ok bs => match s.sysPlace 0 x.2 .read with
            | .error c => .error (c, x.2)
            | .ok p => match s.readBlock p with
              | none => .error (.machine, x.2)
              | some b => .ok (bs ++ [(x.1, b)])) = .ok (acc ++ ns.map fun n => (n, zeros)) := by
    intro ns
    induction ns with
    | nil => intro _ acc; simp
    | cons n ns ih =>
      intro h acc
      have hn : n < 64 := h n (by simp)
      have w : s.sysPlace 0 (0x10000 + 64 * n) .read = .ok (.here (0x20000 + 64 * n)) := by
        subst hs; exact Mapped.walks (mapped rfl rfl rfl) (by omega)
      simp only [List.map_cons, List.foldl_cons, w, rd n hn]
      rw [ih (fun m hm => h m (by simp [hm]))]
      simp
  refine ⟨(List.range 64).map fun n => (n, zeros), ?_, by decide +kernel⟩
  have e : (engineOp (.mms s4) false).streams = (List.range 64).map fun n => (n, 0x10000 + 64 * n) := by decide +kernel
  unfold State.readStream
  rw [e]
  exact go _ (by simp) []
/-- An operation that may begin, one that may retire; a stream whose page does not come; a latch error of a team that cannot
start again. -/
theorem witness_UnitEvents_engine :
    ((engine .accz false []).pair 0).nextOp? = some (engineOp .accz false) ∧ (engineOp .accz false).isStream = false
    ∧ ((engine .accz true []).pair 0).queue = [engineOp .accz true] ∧ swf Pair.fresh (engine .accz true []).pairs = true
    ∧ ((engine (.mms s4) false rooted).pair 0).queue = [engineOp (.mms s4) false] ∧ (engineOp (.mms s4) false).isStream = true
    ∧ ((engine (.mms s4) false rooted).landing 0).contains 9 = true
    ∧ (match (engine (.mms s4) false []).readStream (engineOp (.mms s4) false) with
      | .error (.pageNp, _) => true | _ => false) = true
    ∧ (engine .accz true []).fetchFails (engineOp .accz true) .latchError = true
    ∧ ((engine .accz true []).team? key0).any (fun T => !(engine .accz true []).relaunchable T) = true
    ∧ ((engine .accz true []).launch? 0 1).any (fun L => L.stat == .begun) = true ∧ (engine .accz true []).moves = [] :=
  by and_intros <;> decide +kernel
/-- A failed fetch while a copy of the team is in flight; one of a stream whose page forbids it. -/
def midCopy : State := { engine .accz true [] with moves := [move1 [0] .tcopy] }
theorem witness_UnitEvents_kills : midCopy.fetchFails (engineOp .accz true) .latchError = true
    ∧ (midCopy.pair 0).queue.find? (fun o => o.id == 9) = some (engineOp .accz true)
    ∧ (midCopy.team? key0).any (fun T => T.key == key0) = true ∧ (midCopy.launch? 0 1).any (fun L => L.stat == .begun) = true
    ∧ (∃ m ∈ midCopy.moves, m.key = key0 ∧ m.stopped = none)
    ∧ (match ({ engine (.mms s4) false rooted with mem := [(0x40000, 0x01), (0x40002, 0x04), (0x40008, 0x2D), (0x4000A, 0x02)] } : State).readStream (engineOp (.mms s4) false) with
      | .error (.pageProt, _) => true | _ => false) = true :=
  by and_intros <;> first | exact ⟨move1 [0] .tcopy, by decide⟩ | decide +kernel

/-! The front end: queue 0 of context 0, whose ring lies at VA 0x10000, and packets that have been fetched. -/

/-- A packet that a queue's slot holds: its type, then given bytes at an offset. -/
def pktBytes (kind : Nat) (fs : List (Nat × Nat)) : List Byte :=
  (List.range 128).map fun i => if i = 0 then BitVec.ofNat 8 kind else match fs.find? (fun f => f.1 == i) with
    | some f => BitVec.ofNat 8 f.2 | none => 0
def queued : State :=
  let s := State.reset
  let q : Queue := { Queue.fresh with base := 0x10000, log2slots := 4, en := true, widx := 1 }
  { s with mem := at' (pktBytes 5 []), queues := [(0, q)], boot := { s.boot with done := true }
           ctxs := [(0, { Ctx.fresh with root := 0x40000, en := true })] }
/-- A read of one block's bytes. -/
theorem Mapped.reads {s : State} (m : Mapped s) {k : Nat} {b : Block} (h : k < 65536)
    (hb : s.readBlock (.here (0x20000 + k)) = some b) : s.sysBlock 0 (0x10000 + k) = .ok b := by
  unfold State.sysBlock
  rw [m.walks h]
  simp only [hb]
theorem queued_reads : queued.sysRead 0 0x10000 128 = .ok (pktBytes 5 []) := by
  have m : Mapped queued := ⟨rfl, by decide +kernel, by decide +kernel, rfl⟩
  have b0 : queued.sysBlock 0 0x10000 = .ok { bytes := (pktBytes 5 []).take 64, descr := plainDescr, poison := none } :=
    m.reads (k := 0) (by decide) (by decide +kernel)
  have b1 : queued.sysBlock 0 0x10040 = .ok { bytes := (pktBytes 5 []).drop 64, descr := plainDescr, poison := none } :=
    m.reads (k := 64) (by decide) (by decide +kernel)
  unfold State.sysRead
  have e : blockParts 0x10000 128 = [(0x10000, 64), (0x10040, 64)] := by decide +kernel
  simp only [e, List.foldl, b0, b1]
  decide +kernel
theorem witness_QueueEvents : queued.nextQueue = some 0
    ∧ queued.sysRead 0 ((queued.queue 0).base + 128 * ((queued.queue 0).fidx.toNat % 2 ^ (queued.queue 0).log2slots)) 128
      = .ok (pktBytes 5 []) ∧ State.reset.nextQueue = none ∧ (queued.queue 0).en = true ∧ (queued.queue 1).en = false
      ∧ queued.queueActive 1 = false :=
  ⟨by decide +kernel, queued_reads, by and_intros <;> decide +kernel⟩

/-- Packet 0 of queue 0, at a stage. Its slot lies where no write is made, so that its end needs no page. -/
def packet (kind : Nat) (fs : List (Nat × Nat)) (stage : PktStage) : Packet :=
  { name := { q := 0, idx := 0 }, ctx := 0, prio := 0, seq := 0, slot := 2 ^ 56, bytes := pktBytes kind fs, submit := 0, stage := stage,
    launch := 1, began := 0, coll := none, sealed := none, idDue := false, ending := none }
def fronted (p : Packet) (ticks : Nat) : State :=
  let s := State.reset
  { s with mem := tables, boot := { s.boot with done := true }, ctxs := rooted, ticks := ticks, packets := [p]
           queues := [(0, { Queue.fresh with en := true, widx := 1, fidx := 1 })] }
/-- A store of one block's bytes by the front end. -/
theorem Mapped.stores {s : State} (m : Mapped s) {k : Nat} {bytes : List Byte} {b : Block} (h : k < 65536)
    (e : blockParts (0x10000 + k) bytes.length = [(0x10000 + k, bytes.length)])
    (hb : s.readBlock (.here (0x20000 + k)) = some b) (hp : b.poison = none) : ∃ u, s.feStore 0 (0x10000 + k) bytes = .ok u := by
  have c : s.sysCanWrite 0 (0x10000 + k) bytes.length = .ok () := by
    unfold State.sysCanWrite
    simp only [e, List.foldl, m.walks h]
  have f : s.feCan 0 (0x10000 + k) bytes.length = .ok () := by
    unfold State.feCan
    simp only [c, e, List.foldl, m.walks h, hb, hp]
  unfold State.feStore State.sysWrite
  simp only [f, c]
  exact ⟨_, rfl⟩
theorem witness_QueueEvents_packet : (packet 5 [] .fetched).headOk = true ∧ (packet 5 [] .fetched).bodyOk = true := by decide +kernel
def p0 : PktName := { q := 0, idx := 0 }
/-- WRITE of 8 bytes to VA 0x10000. -/
def writePkt : Packet := packet 3 [(0x42, 1), (0x50, 8)] .fetched
/-- A packet begins. -/
def started (s : State) (p : Packet) : State :=
  { s with packets := s.packets.map fun y => if y.name = p.name then { y with stage := .begun, began := s.ticks } else y }
/-- One that has been fetched may begin; a begun one is as it was; one that a teardown has ended. -/
theorem witness_PacketEvents_write : (fronted writePkt 0).packet? p0 = some writePkt ∧ writePkt.kind = 3 ∧ writePkt.ending = none
    ∧ (fronted writePkt 0).mayStart writePkt = true
    ∧ (∃ u, (started (fronted writePkt 0) writePkt).feStore writePkt.ctx (writePkt.field 0x40 8)
        (bytesOfNat (writePkt.field 0x50 1) (writePkt.field 0x48 8)) = .ok u)
    ∧ ((fronted writePkt 0).completePacket writePkt { state := 1 }).isSome = true
    ∧ (fronted { writePkt with stage := .begun } 0).packet? p0 = some { writePkt with stage := .begun }
    ∧ (fronted { writePkt with ending := some { state := 6 } } 0).packet? p0 = some { writePkt with ending := some { state := 6 } }
    ∧ ((fronted { writePkt with ending := some { state := 6 } } 0).completePacket { writePkt with ending := some { state := 6 } }
        { state := 6 }).isSome = true := by
  refine ⟨by decide +kernel, rfl, rfl, by decide +kernel, ?_, by decide +kernel, by decide +kernel, by decide +kernel, by decide +kernel⟩
  have a : writePkt.field 0x40 8 = 0x10000 := by decide +kernel
  have b : bytesOfNat (writePkt.field 0x50 1) (writePkt.field 0x48 8) = List.replicate 8 0 := by decide +kernel
  rw [a, b]
  exact (mapped (s := started (fronted writePkt 0) writePkt) rfl rfl rfl).stores (k := 0) (by decide) (by decide +kernel)
    (b := { bytes := List.replicate 64 0, descr := plainDescr, poison := none }) (by decide +kernel) rfl
/-- WAITV of 8 bytes at VA 0x10000 for equality with 0 (OP 0) or not (OP 1), with a timeout of 5 ns. -/
def waitPkt (op : Nat) : Packet := packet 4 [(0x42, 1), (0x50, 255), (0x58, 8), (0x59, op), (0x60, 5)] .begun
theorem witness_PacketEvents_waitv : (fronted (waitPkt 0) 4).packet? p0 = some (waitPkt 0) ∧ (waitPkt 0).kind = 4
    ∧ (waitPkt 0).stage = .begun ∧ (waitPkt 0).ending = none ∧ (fronted (waitPkt 0) 4).waitRead (waitPkt 0) = .ok 0 ∧ (waitPkt 0).field 0x59 1 = 0
    ∧ (waitPkt 0).field 0x48 8 = 0 ∧ (waitPkt 1).field 0x59 1 = 1
    ∧ (fronted (waitPkt 0) 4).waitLate (waitPkt 0) = false ∧ (fronted (waitPkt 0) 5).waitLate (waitPkt 0) = true
    ∧ ((fronted (waitPkt 0) 5).completePacket (waitPkt 0) { state := 5 }).isSome = true
    ∧ (waitPkt 0).signals = false := by
  suffices r : (fronted (waitPkt 0) 4).waitRead (waitPkt 0) = .ok 0 by
    and_intros <;> first | exact r | decide +kernel
  have a : (waitPkt 0).field 0x40 8 = 0x10000 := by decide +kernel
  have b : (waitPkt 0).field 0x58 1 = 8 := by decide +kernel
  have e : blockParts 0x10000 8 = [(0x10000, 8)] := by decide +kernel
  have r : (fronted (waitPkt 0) 4).sysBlock 0 0x10000 = .ok { bytes := List.replicate 64 0, descr := plainDescr, poison := none } :=
    (mapped (s := fronted (waitPkt 0) 4) rfl rfl rfl).reads (k := 0) (by decide) (by decide +kernel)
  unfold State.waitRead State.sysRead
  rw [a, b]
  show (match ((blockParts 0x10000 8).foldl (init := Except.ok []) fun acc x => match acc with
    | .error c => Except.error c
    | .ok bs => match (fronted (waitPkt 0) 4).sysBlock 0 x.1 with
      | .error c => .error c
      | .ok b => match b.poison with
        | some c => .error c
        | none => .ok (bs ++ (b.bytes.drop (x.1 % 64)).take x.2)) with | .error c => Except.error c | .ok b => .ok (natOfBytes b)) = _
  simp only [e, List.foldl, r]
  decide +kernel
/-- A FENCE that may complete, and one behind an earlier packet of its context. -/
def earlier : Packet := { packet 3 [] .fetched with name := { q := 1, idx := 0 } }
def fencePkt : Packet := { packet 5 [(0x40, 1)] .fetched with seq := 1 }
theorem witness_PacketEvents_fence : (started (fronted fencePkt 0) fencePkt).fenceReady fencePkt = true
    ∧ (fronted fencePkt 0).packet? p0 = some fencePkt ∧ fencePkt.kind = 5 ∧ (fronted fencePkt 0).mayStart fencePkt = true
    ∧ ({ fronted fencePkt 0 with packets := [earlier, fencePkt] } : State).mayStart fencePkt = true
    ∧ (started { fronted fencePkt 0 with packets := [earlier, fencePkt] } fencePkt).fenceReady fencePkt = false
    ∧ ((fronted fencePkt 0).completePacket fencePkt { state := 1 }).isSome = true := by decide +kernel
/-- A CANCEL; a SEAL whose buffer has the 3,748 bytes of a receipt with no entry. -/
def sealPkt : Packet := packet 6 [(0x42, 1), (0x48, 0xA4), (0x49, 0x0E)] .fetched
theorem witness_PacketEvents_hive : (fronted (packet 7 [] .fetched) 0).starting? p0 7 = some (packet 7 [] .fetched)
    ∧ (fronted sealPkt 0).starting? p0 6 = some sealPkt ∧ ((fronted sealPkt 0).ctx 0).frozen = false
    ∧ sealPkt.zero 0x4C 4 = true ∧ sealPkt.zero 0x70 16 = true ∧ sealPkt.field 0x40 8 % 64 = 0 ∧ 3748 ≤ sealPkt.field 0x48 4
    ∧ (fronted sealPkt 0).events.length < 4096 ∧ (fronted sealPkt 0).deferred = [] := by decide +kernel
/-- A pod barrier of this package and the one at x = 1; a COLL with no members. -/
def podPkt : Packet := packet 2 [(0x40, 5), (0x42, 2), (0x52, 1), (0x5A, 1)] .fetched
theorem witness_PacketEvents_coll : (fronted podPkt 0).starting? p0 2 = some podPkt ∧ (fronted podPkt 0).collFieldsOk podPkt = true
    ∧ podPkt.isPod = true ∧ (fronted podPkt 0).packet? p0 = some podPkt
    ∧ (fronted (packet 2 [] .fetched) 0).collFieldsOk (packet 2 [] .fetched) = false
    ∧ ((fronted (packet 2 [] .fetched) 0).completePacket (packet 2 [] .fetched) { state := 3, check := 16 }).isSome = true := by
  decide +kernel

/-! Launches: a LAUNCH packet whose descriptor lies at VA 0x10000, with 8 bytes of code at VA 0x10040. -/

/-- The descriptor's fields, and SHA-256 of eight zero bytes. -/
def descBytes : List Byte :=
  [0x40, 0, 1, 0, 0, 0, 0, 0, 8, 0, 0, 0, 1, 0, 1, 0, 1, 0, 8, 0, 0, 0, 0, 0, 1, 0, 0, 0, 0, 0, 0, 0,
   175, 85, 112, 245, 161, 129, 11, 122, 247, 140, 175, 75, 199, 10, 102, 15,
   13, 245, 30, 66, 186, 249, 29, 77, 229, 178, 50, 141, 224, 232, 61, 252]
/-- The packet: its record names the kernel and a grid of one team. -/
def launchPkt (stage : PktStage) : Packet := packet 1 [(0x42, 1), (0x58, 1), (0x5C, 1), (0x5E, 1)] stage
/-- A team of a launch that has begun, with one pending spawn of a record's bytes. -/
def spawner (bytes : List Byte) : Team :=
  { Team.start key0 0 0 0 0 0 probeDesc [] with spawns := [{ slot := 0, bytes := bytes, order := 0, pc := 0x10008 }] }
def launching (p : Packet) (l : Launch) (bytes : List Byte) : State :=
  { fronted p 0 with mem := at' descBytes, launches := [l], teams := [spawner bytes]
                     ctxs := [(0, { Ctx.fresh with root := 0x40000, cores := 1, ivQuota := 16 })] }
def recBytes : List Byte := (launchPkt .fetched).bytes.drop 0x40
theorem checkRead_ok {s : State} {ctx va n : Nat} {b : List Byte} {f : List Byte → Verdict} (h : s.sysRead ctx va n = .ok b) :
    s.checkRead ctx va n f = f b := by unfold State.checkRead; rw [h]
def accepting : State := launching (launchPkt .fetched) (probeLaunch 0 1) recBytes
/-- The record passes its checks, as a LAUNCH's and as a spawn's. -/
theorem record_passes : ∀ spawn, accepting.checkLaunch 0 (LRec.ofBytes recBytes) spawn false = .ok (KDesc.ofBytes descBytes) [] [] := by
  generalize hs : accepting = s
  have m : Mapped s := by subst hs; exact ⟨rfl, by decide +kernel, by decide +kernel, rfl⟩
  have b0 : s.sysBlock 0 0x10000 = .ok { bytes := descBytes, descr := plainDescr, poison := none } :=
    m.reads (k := 0) (by decide) (by subst hs; decide +kernel)
  have b1 : s.sysBlock 0 0x10040 = .ok { bytes := List.replicate 64 0, descr := plainDescr, poison := none } :=
    m.reads (k := 64) (by decide) (by subst hs; decide +kernel)
  have r0 : s.sysRead 0 0x10000 64 = .ok descBytes := by
    have e : blockParts 0x10000 64 = [(0x10000, 64)] := by decide +kernel
    unfold State.sysRead
    simp only [e, List.foldl, b0]
    decide +kernel
  have r1 : s.sysRead 0 0x10040 8 = .ok (List.replicate 8 0) := by
    have e : blockParts 0x10040 8 = [(0x10040, 8)] := by decide +kernel
    unfold State.sysRead
    simp only [e, List.foldl, b1]
    decide +kernel
  have rz : s.sysRead 0 0 0 = .ok [] := rfl
  have sw : s.swarmPossible 0 false 0 (KDesc.ofBytes descBytes) = true := by subst hs; decide +kernel
  intro spawn
  generalize hr : LRec.ofBytes recBytes = r
  have k : r.kernel = 0x10000 := by subst hr; decide +kernel
  unfold State.checkLaunch
  rw [if_neg (by rw [k]; decide), k, checkRead_ok r0]
  have cs : ((KDesc.ofBytes descBytes).shapeOk = true) ∧ (r.teams == 0 || decide (r.teams ≥ 2 ^ 32) || r.teams % (KDesc.ofBytes descBytes).swarm != 0) = false
      ∧ (!spawn && (r.teams != 1 || decide ((KDesc.ofBytes descBytes).threads > 32))) = false
      ∧ (decide (r.flags ≥ 1024) = false ∧ r.flag 0 = false ∧ r.flag 4 = false)
      ∧ r.flag 1 = false ∧ r.lcores = 0 ∧ r.inputs = 0 ∧ r.outputs = 0 ∧ r.intervals = 0 ∧ r.argbytes = 0 ∧ r.args = 0
      ∧ (KDesc.ofBytes descBytes).scalars = 0 ∧ r.batch = 0 ∧ r.reservedOk = true ∧ r.done = 0
      ∧ (KDesc.ofBytes descBytes).entry = 0x10040 ∧ (KDesc.ofBytes descBytes).codeBytes = 8
      ∧ sha256 (List.replicate 8 0) = (KDesc.ofBytes descBytes).digest := by subst hr; cases spawn <;> decide +kernel
  obtain ⟨c1, c2, c3, ⟨c4, c4a, c4b⟩, c5, c6, c7, c8, c9, c10, c11, c12, c13, c14, c15, c16, c17, c18⟩ := cs
  simp only [c1, c2, c3, c4, c4a, c4b, c5, c6, State.checkIntervals, State.checkRest, c7, c8, c9, c10, c11, c12, c13, c14, c15, c16, c17,
    checkRead_ok rz, checkRead_ok r1, c18, sw]
  cases spawn <;> simp [intervalsOk]
theorem witness_LaunchEvents_packet : accepting.packet? p0 = some (launchPkt .fetched) ∧ (launchPkt .fetched).name = p0
    ∧ (launchPkt .fetched).isLaunch = true ∧ (launchPkt .fetched).stage = .fetched
    ∧ accepting.checkLaunch 0 (LRec.ofBytes ((launchPkt .fetched).bytes.drop 0x40)) false false = .ok (KDesc.ofBytes descBytes) [] []
    ∧ accepting.checkLaunch 0 (LRec.ofBytes ((packet 1 [(0x40, 1)] .fetched).bytes.drop 0x40)) false false = .fail 2
    ∧ (accepting.completePacket (launchPkt .fetched) { state := 3, check := 2 }).isSome = true :=
  ⟨by decide +kernel, rfl, by decide +kernel, rfl, record_passes false, by decide +kernel, by decide +kernel⟩
theorem turn_one {s : State} {t : Team} (h : s.teams = [t]) (hr : s.spawnReady t = true) (hn : s.spawnServed = none) :
    s.spawnTurn? = some t.key := by
  unfold State.spawnTurn?
  rw [h, hn]
  simp [hr, sortBy, insertBy]
theorem ready_of {s : State} {t : Team} {l : Launch} {e : PendingLaunch} {v : Verdict} (hl : s.launchOf? t.key = some l)
    (he : t.nextSpawn = some e) (hb : l.running = true)
    (hc : s.checkLaunch l.ctx (LRec.ofBytes e.bytes) true (l.spawnDiffers (LRec.ofBytes e.bytes)) = v) (hv : v ≠ .wait) :
    s.spawnReady t = true := by
  unfold State.spawnReady
  rw [hl, he]
  dsimp only
  rw [hc, hb]
  cases v <;> simp_all
/-- A spawn record that passes, and one whose kernel is misaligned; another team's turn has not come. -/
theorem witness_LaunchEvents_spawn :
    (∃ T l e, accepting.team? key0 = some T ∧ accepting.launchOf? key0 = some l ∧ T.nextSpawn = some e ∧ l.stat = .begun ∧ l.pure = false
      ∧ accepting.checkLaunch l.ctx (LRec.ofBytes e.bytes) true (l.spawnDiffers (LRec.ofBytes e.bytes)) = .ok (KDesc.ofBytes descBytes) [] []
      ∧ accepting.spawnTurn? = some key0)
    ∧ ∃ T l e, (launching (launchPkt .fetched) (probeLaunch 0 1) [1]).team? key0 = some T
      ∧ (launching (launchPkt .fetched) (probeLaunch 0 1) [1]).launchOf? key0 = some l ∧ T.nextSpawn = some e ∧ l.stat = .begun
      ∧ ringApart (launching (launchPkt .fetched) (probeLaunch 0 1) [1]) l
      ∧ (launching (launchPkt .fetched) (probeLaunch 0 1) [1]).checkLaunch l.ctx (LRec.ofBytes e.bytes) true
          (l.spawnDiffers (LRec.ofBytes e.bytes)) = .fail 2
      ∧ (launching (launchPkt .fetched) (probeLaunch 0 1) [1]).spawnTurn? = some key0 := by
  have passes : accepting.checkLaunch (probeLaunch 0 1).ctx (LRec.ofBytes recBytes) true
      ((probeLaunch 0 1).spawnDiffers (LRec.ofBytes recBytes)) = .ok (KDesc.ofBytes descBytes) [] [] := by
    have : (probeLaunch 0 1).spawnDiffers (LRec.ofBytes recBytes) = false := by decide +kernel
    rw [this]
    exact record_passes true
  have fails : (launching (launchPkt .fetched) (probeLaunch 0 1) [1]).checkLaunch (probeLaunch 0 1).ctx (LRec.ofBytes [1]) true
      ((probeLaunch 0 1).spawnDiffers (LRec.ofBytes [1])) = .fail 2 := by decide +kernel
  refine ⟨⟨spawner recBytes, probeLaunch 0 1, _, rfl, rfl, rfl, rfl, rfl, passes, ?_⟩,
    spawner [1], probeLaunch 0 1, _, rfl, rfl, rfl, rfl, ?_, fails, ?_⟩
  · exact turn_one (t := spawner recBytes) rfl (ready_of (l := probeLaunch 0 1) rfl rfl rfl passes (by simp)) rfl
  · intro _ _ _ p hp
    cases hp
  · exact turn_one (t := spawner [1]) rfl (ready_of (l := probeLaunch 0 1) rfl rfl rfl fails (by simp)) rfl
/-- Two teams whose entries wait: the turn is the first one's. -/
def spawners : State :=
  { launching (launchPkt .fetched) (probeLaunch 0 1) [1] with teams := [spawner [1], { spawner [1] with key := .user 0 1 5 }] }
theorem witness_LaunchEvents_spawn_idle : ∃ T l e, spawners.team? (.user 0 1 5) = some T ∧ spawners.launchOf? (.user 0 1 5) = some l
    ∧ T.nextSpawn = some e ∧ l.stat = .begun ∧ spawners.spawnTurn? ≠ some (.user 0 1 5) :=
  ⟨{ spawner [1] with key := .user 0 1 5 }, probeLaunch 0 1, _, rfl, rfl, rfl, rfl, by decide +kernel⟩
/-- A packet whose launch id is still to be written, and one behind which another of its context is still to be accepted. -/
def owing : Packet := { launchPkt .waiting with idDue := true, slot := 0x10000 }
theorem witness_LaunchEvents_id : owing.idDue = true ∧ owing.ending = none ∧ (fronted owing 0).packet? p0 = some owing
    ∧ (∃ u, (fronted owing 0).feStore owing.ctx (owing.slot + 0x3C) (bytesOfNat 4 owing.launch) = .ok u)
    ∧ (launchPkt .waiting).idDue = false ∧ (launchPkt .waiting).stage ≠ .fetched
    ∧ ({ fronted { launchPkt .fetched with seq := 1 } 0 with
        packets := [{ launchPkt .fetched with name := { q := 1, idx := 0 } }, { launchPkt .fetched with seq := 1 }] } : State).packets.all
      (fun x => !(x.ctx == 0 && x.isLaunch && x.stage == .fetched && decide (x.seq < 1))) = false := by
  refine ⟨rfl, rfl, by decide +kernel, ?_, rfl, by decide, by decide +kernel⟩
  exact (mapped (s := fronted owing 0) rfl rfl rfl).stores (k := 0x3C) (by decide) (by decide +kernel)
    (b := { bytes := List.replicate 64 0, descr := plainDescr, poison := none }) (by decide +kernel) rfl
/-- A launch that may begin; one that is to be copied from a result, whose entry is gone, or there. -/
def beginning (l : Launch) (rs : List Reuse) : State :=
  { launching (launchPkt .waiting) { l with stat := l.stat } [] with reuse := rs }
def waitingLaunch : Launch := { probeLaunch 0 1 with stat := .waiting, desc := KDesc.ofBytes descBytes }
def reusing : Launch := { probeLaunch 0 1 with stat := .reusing }
def result1 : Reuse := { ctx := 0, key := [], outs := [], digests := [], pages := [], hit := 0 }
theorem witness_LaunchEvents_begin :
    (beginning waitingLaunch []).packet? p0 = some (launchPkt .waiting)
    ∧ (beginning waitingLaunch []).launch? 0 (launchPkt .waiting).launch = some waitingLaunch
    ∧ (beginning waitingLaunch []).mayLaunch (launchPkt .waiting) waitingLaunch = true ∧ waitingLaunch.pure = false
    ∧ (match ({ beginning waitingLaunch [] with packets := (beginning waitingLaunch []).packets.map fun x =>
          if x.name = p0 then { x with stage := .begun } else x } : State).hashIntervals 0 waitingLaunch.inputs with
      | (_, .ok ds) => ds.isEmpty | _ => false) = true
    ∧ (match (beginning waitingLaunch []).seedGrid 0 waitingLaunch.desc with | .ok _ => true | .error _ => false) = true
    ∧ (beginning waitingLaunch []).homeDie 0 = some 0 ∧ (beginning reusing []).mayLaunch (launchPkt .waiting) reusing = false
    ∧ (beginning reusing []).launch? 0 1 = some reusing ∧ reusing.stat = .reusing ∧ (beginning reusing []).reuseHit reusing = none
    ∧ (beginning reusing [result1]).reuseHit reusing = some result1 ∧ result1.outs = reusing.outputs ∧ reusing.done = 0
    ∧ (match (beginning reusing [result1]).launchEnd reusing { state := 2 } with | some e => e.state == 2 | none => false) = true
    ∧ ((beginning reusing [result1]).finishLaunch reusing { state := 2 } true result1.digests).isSome = true := by decide +kernel
/-- A launch whose tree has come to its end, and one that failed, whose threads have halted or have not. -/
def ended : Launch := { probeLaunch 0 1 with tree := 0 }
def failing : Launch := { probeLaunch 0 1 with stat := .failed .ill }
def ending (l : Launch) : State := { launching (launchPkt .begun) l [] with teams := [] }
theorem witness_LaunchEvents_complete :
    (ending ended).launch? 0 1 = some ended ∧ ended.stat = .begun ∧ ended.tree = 0 ∧ ended.grids ≠ []
    ∧ ((ending ended).completeLaunch ended).isSome = true ∧ (ending failing).launch? 0 1 = some failing
    ∧ (ending failing).halted failing = true ∧ ((ending failing).endFailed failing .ill).isSome = true
    ∧ (({ ending failing with bundles := (ready 0x000F800000000000).bundles } : State).halted failing) = false
    ∧ (probeLaunch 0 1).tree ≠ 0 := by decide +kernel

end Sys2Proof.Tests
end

