-- ==== Sys2Proof/Tests/WitnessHive.lean ====
section
/-! SUPPORT. WitnessHive.lean: states that meet the hypotheses of the statements about dies, contexts, calls, the debugger and collectives. -/

namespace Sys2Proof.Tests
open Sys2Proof Sys2Proof.Machine Sys2Proof.Claims
set_option Elab.async false

/-! Dies: a launch of priority 1 with a grid of 20 teams, each of which fills a core, under a grant of core 0. -/

def bigDesc : KDesc := { probeDesc with scratch := 524288, swarm := 1, wregs := 8, flags := 0 }
def bigGrid (owned : List Owned) (retired : Nat) : Grid :=
  { id := 1, depth := 1, gx := 20, gy := 1, gz := 1, desc := bigDesc, args := [], done := 0, firstTeam := 1,
    counter := 0, owned := owned, started := [], retired := retired, complete := false, accepted := 0 }
def bigLaunch (owned : List Owned) : Launch := { probeLaunch 0 1 with prio := 1, grids := [probeGrid, bigGrid owned 0] }
def own0 : List Owned := [{ die := 0, next := 0, last := 7 }]
def dies (owned : List Owned) (ts : List Team) (ws : List Waiting) (cores : BitVec 320) : State :=
  { State.reset with
    launches := [bigLaunch owned, { probeLaunch 0 2 with seq := 1 }], teams := ts, ctxs := [(0, { Ctx.fresh with cores := cores })]
    dies := [(0, { Die.fresh with waiting := ws })], ticks := 100000 }
/-- A team of launch 2, of priority 0, or of grid 1, on core 0. -/
def other : Team := Team.start (.user 0 2 0) 0 0 0 0 0 bigDesc []
def mine (f : Thread → Thread) : Team :=
  let t := Team.start (.user 0 1 1) 0 1 0 0 1 bigDesc []
  { t with threads := t.threads.map f }
def waits (givenUp : Bool) : Waiting :=
  { ctx := 0, launch := 1, grid := 1, index := 0, count := 1, attempts := 2, firstTry := some 0, givenUp := givenUp, preempted := false,
    window := none, victims := [],
    clearing := 0 }
def work0 : Work := { l := bigLaunch own0, g := bigGrid own0 0, index := 0, count := 1 }
/-- A killed team that starts again where there is room, or none. -/
def again (ts : List Team) : State :=
  { dies [] ts [] 1 with launches := [{ bigLaunch [] with restarts := [{ grid := 1, index := 0, count := 1, die := 0 }] }] }
theorem witness_DispatchEvents_batch : (dies [] [] [] 1).launch? 0 1 = some (bigLaunch []) ∧ (bigLaunch []).grid? 1 = some (bigGrid [] 0)
    ∧ (dies [] [] [] 1).takesBatch (bigLaunch []) (bigGrid [] 0) 0 = true
    ∧ (dies own0 [] [] 1).takesBatch (bigLaunch own0) (bigGrid own0 0) 0 = false := by decide +kernel
theorem witness_DispatchEvents_start : firstWork ((dies own0 [] [] 1).restartsOn 0) = none
    ∧ (firstWork ((again []).restartsOn 0)).any (fun x => (again []).findWindow x.l x.swarm x.desc 0 == some 0) = true
    ∧ (firstWork ((again [other]).restartsOn 0)).any (fun x => ((again [other]).findWindow x.l x.swarm x.desc 0).isNone) = true
    ∧ (dies own0 [] [] 1).reservedReady 0 = none ∧ (dies own0 [] [] 1).readmitting 0 = false
    ∧ (dies own0 [] [] 1).nextWork 0 = some work0 ∧ (dies own0 [] [] 1).findWindow work0.l work0.swarm work0.desc 0 = some 0
    ∧ (dies own0 [other] [] 1).findWindow work0.l work0.swarm work0.desc 0 = none
    ∧ (dies own0 [] [{ waits true with window := some 0 }] 1).reservedReady 0 = some (work0, 0)
    ∧ (dies own0 [other] [] 1).nextWork 0 = some work0 ∧ (dies [] [] [] 1).nextWork 0 = none := by decide +kernel
theorem witness_DispatchEvents_migrate :
    (dies own0 [other] [waits false] 1).pursued 0 (fun y => !y.givenUp && ((dies own0 [other] [waits false] 1).reservedCores 0 y).isEmpty)
      = some (waits false, work0)
    ∧ (dies own0 [other] [waits false] 1).cheapest work0 0 = some (0, [.user 0 2 0])
    ∧ (dies own0 [other] [waits false] 1).movable (.user 0 2 0) = true
    ∧ (dies own0 [other] [waits false] 0).pursued 0 (fun y => !y.givenUp && ((dies own0 [other] [waits false] 0).reservedCores 0 y).isEmpty)
      = some (waits false, work0)
    ∧ (dies own0 [other] [waits false] 0).cheapest work0 0 = none
    ∧ (dies own0 [] [] 1).pursued 0 (fun y => !y.givenUp && ((dies own0 [] [] 1).reservedCores 0 y).isEmpty) = none
    ∧ ((dies own0 [other] [waits false] 1).die 0).waiting.find? (fun y => !y.givenUp && (match y.firstTry with
      | some t => decide (t + 100000 ≤ (dies own0 [other] [waits false] 1).ticks) | none => false)) = some (waits false) := by
  decide +kernel
theorem witness_DispatchEvents_clear :
    (dies own0 [other] [waits true] 1).pursued 0 (fun y => y.givenUp && !y.preempted
      && ((dies own0 [other] [waits true] 1).reservedCores 0 y).isEmpty) = some (waits true, work0)
    ∧ (dies own0 [other] [waits true] 1).preemptTarget work0 0 = some (0, [.user 0 2 0])
    ∧ (dies own0 [mine id] [waits true] 1).pursued 0 (fun y => y.givenUp
      && ((dies own0 [mine id] [waits true] 1).reservedCores 0 y).isEmpty && y.victims.isEmpty) = some (waits true, work0)
    ∧ (dies own0 [mine id] [{ waits true with preempted := true }] 1).pursued 0 (fun y => y.givenUp
      && ((dies own0 [mine id] [{ waits true with preempted := true }] 1).reservedCores 0 y).isEmpty && y.victims.isEmpty)
      = some ({ waits true with preempted := true }, work0)
    ∧ (dies own0 [mine id] [waits true] 1).preemptTarget work0 0 = none
    ∧ (dies own0 [mine id] [waits true] 1).cheapest work0 0 = some (0, [.user 0 1 1]) := by decide +kernel
/-- A parked team that has been parked for SWAPTHR, and one that is saved and can come back, here, elsewhere, or nowhere. -/
def parked : Team := { mine fun x => { x with stat := .parked .quota } with parkedSince := some 0 }
def saved : Team := { mine id with place := .saved 0 false true, readySince := some 0 }
theorem witness_DispatchEvents_swap : (dies own0 [parked] [waits true] 1).team? (.user 0 1 1) = some parked
    ∧ (dies own0 [parked] [waits true] 1).swapThr ≠ 0 ∧ (dies own0 [parked] [waits true] 1).needsRoom parked = true
    ∧ parked.desc.swarm ≤ 1 ∧ (dies own0 [parked] [waits true] 1).swappable parked = true
    ∧ (dies own0 [parked] [waits true] 1).canReadmit parked = false ∧ (dies own0 [saved] [] 0).canReadmit saved = true
    ∧ (dies own0 [saved] [] 0).launchOf? (.user 0 1 1) = some (bigLaunch own0) ∧ (dies own0 [saved] [] 0).roomLeft saved = false
    ∧ (dies own0 [saved] [] 1).roomLeft saved = true ∧ (dies own0 [saved] [] 1).readmitDie saved = some 0 ∧ (dies own0 [saved] [] 1).canReadmit saved = true ∧ (dies own0 [saved] [] 1).readmitWindow saved 0 = some 0
    ∧ (dies own0 [saved] [] (1 <<< 40)).readmitWindow saved 1 = some 40 ∧ saved.swarmIdx = 0
    ∧ (dies own0 [saved] [] (1 <<< 40)).canReadmit saved = true
    ∧ (dies own0 [saved] [] (1 <<< 40)).launchHas (.user 0 1 1) (·.det) = false := by decide +kernel
def exited : Team := mine fun x => { x with stat := .exited }
theorem witness_DispatchEvents_retire : (dies own0 [exited] [] 1).retires (bigLaunch own0) exited = true
    ∧ (bigLaunch own0).grid? exited.grid = some (bigGrid own0 0) ∧ (bigGrid own0 0).retired + 1 < (bigGrid own0 0).teams
    ∧ (dies own0 [mine id] [] 1).retires (bigLaunch own0) (mine id) = false
    ∧ (bigGrid own0 18).retired + 1 < (bigGrid own0 18).teams := by decide +kernel

/-! The hive: contexts, grants, windows and pages. -/

def otherCtx : Ctx := { Ctx.fresh with en := true, ivQuota := 1008, asid := 1, reuseQuota := 65536, cores := 1 }
def hive (en : Bool) : State :=
  { State.reset with boot := { State.reset.boot with done := true }
                     ctxs := [(0, { Ctx.fresh with en := en, root := 0x40000 }), (1, otherCtx)] }
/-- The least quota that fits beside 1,008 entries of another context, with EN, and one fewer; an ASID that is taken. -/
def least : W64 := 0x8010000000000000
theorem witness_ContextEvents_enable : (hive false).boot.done = true ∧ least.getLsbD 63 = true ∧ ((hive false).ctx 0).en = false
    ∧ swf Ctx.fresh (hive false).ctxs = true ∧ swf Core.fresh (hive false).cores = true
    ∧ (16 ≤ (least.extractLsb' 48 11).toNat ∧ (least.extractLsb' 48 11).toNat + (((hive false).othersEnabled 0).map (·.ivQuota)).sum ≤ 1024
      ∧ (least.extractLsb' 31 17).toNat + (((hive false).othersEnabled 0).map (·.reuseQuota)).sum ≤ 65536)
    ∧ (∀ o ∈ (hive false).othersEnabled 0, o.asid ≠ (least.extractLsb' 0 16).toNat)
    ∧ (∃ o ∈ (hive false).othersEnabled 0, o.asid = ((least ||| 1).extractLsb' 0 16).toNat)
    ∧ ¬ 16 ≤ ((0x800F000000000000 : W64).extractLsb' 48 11).toNat ∧ State.reset.boot.done = false := by decide +kernel
theorem witness_ContextEvents_others : ((hive true).ctx 0).en = true ∧ (0 : W64).getLsbD 63 = false
    ∧ (hive true).coreTaken 0 0 = true ∧ (hive true).coreTaken 0 63 = false := by decide +kernel
def shooting (op : Nat) : W64 := BitVec.ofNat 64 (2 ^ 63 + op * 2 ^ 61)
theorem witness_TranslationEvents_shoot : (hive true).shootBusy = false ∧ (0 : W64).getLsbD 63 = false ∧ (0 : W64).extractLsb' 61 2 = 0
    ∧ (∀ op ∈ [0, 1, 2], (shooting op).getLsbD 63 = true
      ∧ ((shooting op).extractLsb' 61 2).toNat = op)
    ∧ ({ hive true with shootBusy := true } : State).oldAccesses (some 0) = false
    ∧ ({ hive true with shootBusy := true, cores := [(0, { Core.fresh with fifo := [store1] })] } : State).oldAccesses (some 0) = true := by
  decide +kernel
/-- A descriptor of one page of port 0, at the first window address, and one whose length is no multiple of a page. -/
def region1 : Derived :=
  { Derived.fresh with window := 0x0005000000000000, length := 65536, base := 0x0004000000000000, index := 0x0004000000000000,
                       stream := 0x0004000000000000, bytes := 64 }
def regioned (d : Derived) : State := { State.reset with derived := [(0, d)] }
theorem witness_TranslationEvents_derived : (0x1000000 : W64).getLsbD 24 = true ∧ (0x1000000 : W64).extractLsb' 26 38 = 0
    ∧ ((regioned region1).derivedAt 0).v = false ∧ swf Derived.fresh (regioned region1).derived = true
    ∧ (regioned region1).derivedOk 0 { region1 with asid := 0, port := 0 } = true
    ∧ (regioned { region1 with length := 4096 }).derivedOk 0 { region1 with length := 4096 } = false
    ∧ ((regioned { region1 with v := true }).derivedAt 0).v = true ∧ (0 : W64).getLsbD 24 = false := by decide +kernel
/-- The page at 0x20000 moves to 0x30000. -/
def paged : State := { hive true with mem := tables }
theorem paged_leaf : paged.leafFrom 0x10000 (paged.ctx 0).root 4 = some (0x40008, 0x2002F) := by
  have e0 : paged.storedNat 0x40000 8 = 0x40001 := by decide +kernel
  have e1 : paged.storedNat 0x40008 8 = 0x2002F := by decide +kernel
  have p0 : paged.populated 0x40000 = true := by decide +kernel
  have p1 : paged.populated 0x40008 = true := by decide +kernel
  have n0 : inWindows 0x40000 = false := by decide
  have n1 : inWindows 0x40008 = false := by decide
  show paged.leafFrom 0x10000 0x40000 4 = _
  simp only [State.leafFrom]
  simp [bitAt, e0, e1, p0, p1, n0, n1]
theorem witness_TranslationEvents_page : paged.leafFrom 0x10000 (paged.ctx 0).root 4 = some (0x40008, 0x2002F) ∧ paged.MemoryWf
    ∧ (∀ k ∈ paged.cores, k.2.fifo = []) ∧ 0x2002F / 65536 % 2 ^ 36 * 65536 = 0x20000 ∧ 0x30000 % 65536 = 0
    ∧ paged.populated 0x20000 = true ∧ paged.populated 0x30000 = true ∧ inWindows 0x20000 = false ∧ inWindows 0x30000 = false
    ∧ paged.regions = [] ∧ pageOf 0x40008 ≠ pageOf 0x20000 ∧ pageOf 0x40008 ≠ pageOf 0x30000 :=
  ⟨paged_leaf, by decide +kernel, by decide +kernel, by decide, by decide, by decide +kernel, by decide +kernel, by decide, by decide, rfl,
    by decide, by decide⟩
theorem witness_TranslationEvents_hints : State.reset.hintHead % 1024 = State.reset.hintTail % 1024
    ∧ ({ State.reset with hintTail := 1 } : State).hintHead % 1024 ≠ ({ State.reset with hintTail := 1 } : State).hintTail % 1024 := by decide

/-! The hive: events and groups. -/

def record1 (c : Cause) (code : Nat) : FaultRec :=
  { cause := c, kind := 0, reissue := true, addr := 0x10000, pc := 0x10008, team := 0, tid := 0, count := 1, flags := 0, code := code,
    fpCount := 0, stamp := 0, value := 0, args := [0, 0, 0, 0], result := 0 }
def group1 (k : GroupKind) (c : Cause) (code : Nat) : Group :=
  { id := 1, ctx := 0, launch := 1, key := key0, kind := k, pc := 0x10008, dest := 4, records := [record1 c code],
    members := [0], slot := some 0, slots := 1, ack := none }
/-- A team whose thread is parked in a group, at the first word of a clause of two. -/
def grouped (g : Group) (ev : List HiveEvent) : State :=
  let s := ready 0x000F800000000000 fun t => t.modThread 0 fun x =>
    { x with stat := .parked (.group 1), pc := 0x10008, clause := some { Clause.start 0x10000 0 [0, 0] with begun := true } }
  { s with bundles := [], groups := [g], events := ev, ctxs := rooted, mem := tables }
theorem witness_FaultEvents_syscall :
    (grouped (group1 .syscall .syscall 0x77) [(group1 .syscall .syscall 0x77).event]).events = [(group1 .syscall .syscall 0x77).event]
    ∧ (grouped (group1 .syscall .syscall 0x77) [(group1 .syscall .syscall 0x77).event]).group? 1 = some (group1 .syscall .syscall 0x77)
    ∧ (group1 .syscall .syscall 0x77).records = [record1 .syscall 0x77]
    ∧ (record1 .syscall 0x77).code ∉ [0x01, 0x02, 0x03, 0x04, 0x05, 0x06, 0x10, 0x11, 0x12, 0x13, 0x14, 0x15]
    ∧ (match (grouped (group1 .syscall .syscall 0x77) [(group1 .syscall .syscall 0x77).event]).team? key0,
        (grouped (group1 .syscall .syscall 0x77) [(group1 .syscall .syscall 0x77).event]).thread? key0 0 with
      | some T, some x => T.isResident && T.tbarIn.isEmpty && T.threads.any (·.live) && x.stat == .parked (.group 1) && x.win.isEmpty
          && x.clause.any (fun b => decide (b.idx + 1 < b.words.length)) && swf 0 x.regs
      | _, _ => false) = true
    ∧ swf Core.fresh (grouped (group1 .syscall .syscall 0x77) [(group1 .syscall .syscall 0x77).event]).cores = true
    ∧ ((grouped (group1 .syscall .syscall 0x77) [(group1 .syscall .syscall 0x77).event]).core 0).bins = [] := by decide +kernel
theorem witness_FaultEvents_queue : State.reset.events = [] ∧ State.reset.deferred = []
    ∧ ({ State.reset with deferred := [.timer 1] } : State).events.length < 4096
    ∧ (4096 ≤ ({ State.reset with deferred := [.timer 1], events := List.replicate 4096 (.timer 0) } : State).events.length) :=
  ⟨by decide, by decide, by decide, by rw [List.length_replicate]⟩
/-- A CANCEL and a SEAL that the hive has. -/
def hivePkt (kind : Nat) (fs : List (Nat × Nat)) (j : Option Seal) : Packet := { packet kind fs .hive with sealed := j }
def seal1 : Seal := { chain := List.replicate 32 0, launches := 0, completions := 0, entries := [], stamp := 0 }
def hived (p : Packet) : State := { fronted p 0 with events := [.packet p] }
/-- The packet that a PACKET event names. -/
def named (s : State) (p : Packet) : Option Packet :=
  s.packets.find? fun q => q.ctx == p.ctx && q.seq == p.seq && q.open && q.ending.isNone
theorem witness_FaultEvents_cancel : named (hived (hivePkt 7 [] none)) (hivePkt 7 [] none) = some (hivePkt 7 [] none)
    ∧ (hived (hivePkt 7 [] none)).groups = []
    ∧ ({ hived (hivePkt 7 [] none) with groups := [group1 (.stream 0 9) .pageNp 0] } : State).groups.filter (fun g => g.ctx == 0 && g.ack.isNone
        && ((hivePkt 7 [] none).field 0x40 4 == 0 || g.launch == (hivePkt 7 [] none).field 0x40 4)
        && ((hivePkt 7 [] none).field 0x48 8 == 0 || g.id == (hivePkt 7 [] none).field 0x48 8)) = [group1 (.stream 0 9) .pageNp 0]
    ∧ ((({ hived (hivePkt 7 [] none) with events := [], groups := [group1 (.stream 0 9) .pageNp 0] } : State).cancelGroup
        (group1 (.stream 0 9) .pageNp 0)).completePacket (hivePkt 7 [] none) { state := 1 }).isSome = true
    ∧ (({ hived (hivePkt 7 [] none) with events := [] } : State).completePacket (hivePkt 7 [] none) { state := 1 }).isSome = true := by
  decide +kernel
/-- A packet whose slot lies where no write is made ends in any state. -/
theorem ends {s : State} {p : Packet} {e : PktEnd} (h : p.slot = 2 ^ 56) (h' : p.stores = false) (hd : p.idDue = false) :
    (s.completePacket p e).isSome = true := by
  have hl : ∀ n, (bytesOfNat 4 n).length = 4 := fun n => by simp [bytesOfNat]
  have hb : blockParts (2 ^ 56 + 0x38) 4 = [(2 ^ 56 + 0x38, 4)] := by decide +kernel
  unfold State.completePacket State.endOf
  simp only [h', Bool.not_false, if_true, h]
  have f : ∀ bytes : List Byte, bytes.length = 4 → s.feStore p.ctx (2 ^ 56 + 0x38) bytes = .error .pageProt := by
    intro bytes hn
    unfold State.feStore State.feCan State.sysCanWrite
    rw [hn, hb]
    simp [State.sysPlace]
  simp only [hd, if_neg Bool.false_ne_true, List.append_nil]
  rw [f _ (hl _)]
  rfl
theorem Mapped.storesMany {s : State} (m : Mapped s) {va : Nat} {bytes : List Byte}
    (h : ∀ x ∈ blockParts va bytes.length, ∃ k, k < 65536 ∧ x.1 = 0x10000 + k) : ∃ u, s.sysWrite 0 va bytes = .ok u := by
  have can : ∀ l : List (Nat × Nat), (∀ x ∈ l, x ∈ blockParts va bytes.length) →
      (l.foldl (init := (Except.ok () : Except Cause Unit)) fun acc x => match acc with
        | .error c => .error c
        | .ok () => match s.sysPlace 0 x.1 .write with | .error c => .error c | .ok _ => .ok ()) = .ok () := by
    intro l
    induction l with
    | nil => intro _; rfl
    | cons x l ih =>
      intro hl
      obtain ⟨k, hk, hx⟩ := h x (hl x (by simp))
      simp only [List.foldl_cons, hx, m.walks hk]
      exact ih fun y hy => hl y (by simp [hy])
  have c : s.sysCanWrite 0 va bytes.length = .ok () := can _ fun _ h => h
  unfold State.sysWrite
  simp only [c]
  exact ⟨_, rfl⟩
def sealing : Packet := hivePkt 6 [(0x42, 1), (0x48, 0xA4), (0x49, 0x0E)] (some seal1)
theorem signature_length (k q : Nat) (body : List Byte) : (signature k q body).length = 3604 := by
  unfold signature
  rw [List.length_map, List.length_range]
  rfl
/-- A SEAL whose buffer lies where no write is made; a signer that has used every index. -/
def unsealable : Packet := hivePkt 6 [(0x47, 1), (0x48, 0xA4), (0x49, 0x0E)] (some seal1)
theorem witness_FaultEvents_unsealed : named (hived unsealable) unsealable = some unsealable ∧ unsealable.sealed = some seal1
    ∧ (∀ bytes : List Byte, bytes.length = 3748 → (hived unsealable).sysWrite unsealable.ctx (unsealable.field 0x40 8) bytes = .error .pageProt)
    ∧ ((hived unsealable).island 226).gate = false
    ∧ (({ hived sealing with islands := sset .fresh [] 226 { Island.fresh with gate := true } } : State).island 226).gate = true
    ∧ (∀ s : State, (s.completePacket unsealable { state := 3, check := 13 }).isSome = true)
    ∧ 2 ^ 40 ≤ sget 0 ({ hived sealing with signer := [(0, 2 ^ 40)] } : State).signer 0
    ∧ (∀ s : State, (s.completePacket sealing { state := 3, check := 18 }).isSome = true) := by
  have a : unsealable.field 0x40 8 = 2 ^ 56 := by decide +kernel
  refine ⟨by decide +kernel, rfl, fun bytes n => ?_, by decide +kernel, by decide +kernel, fun s => ends rfl (by decide +kernel) rfl, by decide, fun s => ends rfl (by decide +kernel) rfl⟩
  have e : blockParts (2 ^ 56) 3748 = (2 ^ 56, 64) :: (blockParts (2 ^ 56) 3748).tail := by decide +kernel
  have stuck : ∀ l : List (Nat × Nat), l.foldl (init := (Except.error Cause.pageProt : Except Cause Unit)) (fun acc x => match acc with
      | .error c => .error c
      | .ok () => match (hived unsealable).sysPlace 0 x.1 .write with | .error c => .error c | .ok _ => .ok ()) = .error .pageProt := by
    intro l
    induction l with
    | nil => rfl
    | cons x l ih => exact ih
  have c : (hived unsealable).sysCanWrite 0 (2 ^ 56) 3748 = .error .pageProt := by
    unfold State.sysCanWrite
    rw [e, List.foldl_cons]
    exact stuck _
  unfold State.sysWrite
  rw [a, n, show unsealable.ctx = 0 from rfl, c]
theorem witness_FaultEvents_seal : named (hived sealing) sealing = some sealing ∧ sealing.sealed = some seal1
    ∧ sget 0 (hived sealing).signer 0 < 2 ^ 40
    ∧ ((hived sealing).island 226).gate = false ∧ ∃ u, ({ hived sealing with events := [] } : State).sysWrite sealing.ctx (sealing.field 0x40 8)
        (({ hived sealing with events := [] } : State).receiptBody sealing seal1 0 0
          ++ signature 0 0 (({ hived sealing with events := [] } : State).receiptBody sealing seal1 0 0)) = .ok u
      ∧ ∀ (s : State), (s.completePacket sealing { state := 1 }).isSome = true := by
  have a : sealing.field 0x40 8 = 0x10000 := by decide +kernel
  have n : (({ hived sealing with events := [] } : State).receiptBody sealing seal1 0 0).length = 144 := by decide +kernel
  have m : Mapped ({ hived sealing with events := [] } : State) := mapped rfl rfl rfl
  have parts : ∀ x ∈ blockParts 0x10000 3748, 0x10000 ≤ x.1 ∧ x.1 < 0x20000 := by decide +kernel
  generalize ({ hived sealing with events := [] } : State).receiptBody sealing seal1 0 0 = body at n
  have len : (body ++ signature 0 0 body).length = 3748 := by
    rw [List.length_append, n, signature_length]
  generalize body ++ signature 0 0 body = bytes at len
  obtain ⟨u, hu⟩ := m.storesMany (va := 0x10000) (bytes := bytes) (by
    intro x hx
    rw [len] at hx
    obtain ⟨h1, h2⟩ := parts x hx
    exact ⟨x.1 - 0x10000, by omega, by omega⟩)
  refine ⟨by decide +kernel, rfl, by decide, by decide +kernel, u, ?_, fun s => ends rfl (by decide +kernel) rfl⟩
  have c : sealing.ctx = 0 := rfl
  rw [a, c]
  exact hu
/-- A group that waits for a slot, of which there is one. -/
def unfiled : Group := { group1 .fault .pageNp 0 with slot := none }
theorem witness_FaultEvents_deferred : ({ State.reset with groups := [unfiled], faultFree := 1 } : State).groups.find?
      (fun g => g.slot.isNone && g.ack.isNone && decide (g.records.length ≤ 1)) = some unfiled
    ∧ ({ State.reset with groups := [unfiled], faultFree := 1 } : State).group? 1 = some unfiled
    ∧ (∀ j, j < 1 → unfiled.holdsSlot ((0 + j) % 4096) = false)
    ∧ (∀ g ∈ ({ State.reset with groups := [unfiled], faultFree := 0 } : State).groups,
      g.slot.isSome = true ∨ g.ack.isSome = true ∨ 0 < g.records.length) := by decide +kernel
/-- A group of a page, whose team is resident or saved. -/
def faulted (place : Place2) : State :=
  let s := grouped (group1 .fault .pageNp 0) []
  { s with teams := s.teams.map fun t => { t with place := place } }
theorem witness_FaultEvents_ack : (faulted .resident).group? 1 = some (group1 .fault .pageNp 0)
    ∧ (group1 .fault .pageNp 0).ack = none ∧ (∀ r ∈ (group1 .fault .pageNp 0).records, r.cause = .pageNp ∨ r.cause = .pageProt)
    ∧ ((faulted .resident).team? key0).any (fun T => T.tbarIn.isEmpty && T.threads.any (·.live) && T.isResident) = true
    ∧ ((faulted (.saved 0 false false)).team? key0).any (fun T => T.tbarIn.isEmpty && T.threads.any (·.live) && !T.isResident) = true
    ∧ swf Core.fresh (faulted .resident).cores = true ∧ ((faulted .resident).core 0).bins = []
    ∧ ((faulted .resident).launch? 0 1).any (fun l => l.stat == .begun) = true ∧ State.reset.group? 1 = none
    ∧ (group1 (.stream 0 9) .pageNp 0).kind = .stream 0 9
    ∧ (grouped (group1 (.stream 0 9) .pageNp 0) []).group? 1 = some (group1 (.stream 0 9) .pageNp 0) := by decide +kernel
/-- Events that an idle core takes first: a call that waits for storage or network, before a timer; a stop; a fatal trap. -/
def openCall : Group := group1 .syscall .syscall 0x10
theorem witness_FaultEvents_taken :
    (({ grouped openCall [] with events := [.timer 7] } : State).runEvent openCall.event 0 []).isNone = true
    ∧ (grouped (group1 .stop .brk 0) [(group1 .stop .brk 0).event]).group? 1 = some (group1 .stop .brk 0)
    ∧ (grouped (group1 (.trap false) .trap 0x42) [(group1 (.trap false) .trap 0x42).event]).group? 1 = some (group1 (.trap false) .trap 0x42)
    ∧ ((grouped (group1 (.trap false) .trap 0x42) []).launch? 0 1).any (fun l => l.stat == .begun) = true := by decide +kernel
/-- A window of a trap of INV, at its 256th cycle (160 ns at 1.6 GHz) and before. -/
def window1 : FpWindow :=
  { ctx := 0, launch := 1, opened := 0, closed := false,
    traps := [{ key := key0, tid := 0, pc := 0x10008, cycle := 0, stamp := 0, flags := 1 }] }
def windowed (ticks : Nat) : State :=
  { grouped (group1 .fault .fpInv 0) [] with ticks := ticks, cores := [(0, { Core.fresh with windows := [window1] })] }
theorem witness_FaultEvents_window :
    ((windowed 160).core 0).windows.find? (fun w => w.ctx == 0 && w.launch == 1) = some window1 ∧ window1.closed = false
    ∧ window1.opened + 256 ≤ (windowed 160).cycle 0 ∧ (windowed 159).cycle 0 < window1.opened + 256 ∧ window1.first.isSome = true
    ∧ ((windowed 160).launch? 0 1).any (fun l => l.stat == .begun && l.codePages.isEmpty) = true := by decide +kernel

/-! Preemption, calls and the debugger. -/

/-- PREEMPT of all 320 cores, and one past them; CTXRESUME; CORECALL of core 319 and of core 320. -/
def vacateAll (count : Nat) : W64 := BitVec.ofNat 64 (2 ^ 63 + count * 512)
def vacating (t : Team) : State :=
  { State.reset with teams := [t], vacate := some { ctx := 0, first := 0, count := 320, hold := true }
                     bundles := [{ id := 0, key := t.key, tids := [0], pc := 0, stamp := 0, clause := none, held := false, waits := [],
                                   notes := [], met := true, single := false }] }
theorem witness_PreemptAndDebugEvents_preempt : State.reset.vacate = none ∧ (vacateAll 320).getLsbD 63 = true
    ∧ ((vacateAll 320).extractLsb' 0 9).toNat + ((vacateAll 320).extractLsb' 9 9).toNat = 320
    ∧ 320 < ((vacateAll 321).extractLsb' 0 9).toNat + ((vacateAll 321).extractLsb' 9 9).toNat
    ∧ (vacating (mine id)).quiet (mine id) = true ∧ (vacating (mine id)).vacating (mine id) = true
    ∧ (vacating { mine id with killed := some .machine }).quiet { mine id with killed := some .machine } = false
    ∧ (∃ T ∈ (dies own0 [{ saved with place := .saved 0 true false }] [] 1).teams, T.key.ctx? = some 0 ∧ T.place = .saved 0 true false)
    ∧ (BitVec.ofNat 64 (2 ^ 63 + 319 * 2 ^ 52) : W64).getLsbD 63 = true
    ∧ ((BitVec.ofNat 64 (2 ^ 63 + 319 * 2 ^ 52) : W64).extractLsb' 52 9).toNat = 319
    ∧ 320 ≤ ((BitVec.ofNat 64 (2 ^ 63 + 320 * 2 ^ 52) : W64).extractLsb' 52 9).toNat
    ∧ State.reset.callBusy = false ∧ State.reset.freeWalker 319 = some 0 ∧ (State.reset.core 319).walks = []
    ∧ (512 : W64).getLsbD 63 = false ∧ ((512 : W64).extractLsb' 9 9).toNat = 1
    ∧ ({ State.reset with cores := [(319, { Core.fresh with walks := (List.range 4).map fun n => { walk0 with slot := n } })] }
        : State).freeWalker 319 = none := by
  refine ⟨rfl, ?_, ?_, ?_, ?_, ?_, ?_, ⟨_, List.mem_singleton.mpr rfl, rfl, rfl⟩, ?_, ?_, ?_, rfl, ?_, ?_, ?_, ?_, ?_⟩ <;> decide +kernel
/-- A launch of a debugged context, with one stopped thread. -/
def stopped : State :=
  let s := ready 0x000F800000000000 fun t => t.modThread 0 fun x => { x with stat := .stopped }
  { s with ctxs := [(0, { Ctx.fresh with debug := true })], bundles := [], focusTeam := 0, focusTid := 0 }
def standing : State :=
  { stopped with
    teams := [Team.start key0 0 0 0 0 0 probeDesc []]
    bundles := [{ id := 0, key := key0, tids := [0], pc := 0, stamp := 0, clause := none, held := false, waits := [], notes := [],
                  met := true, single := false }] }
/-- The same launch once it has failed. -/
def failedOne : State := { stopped with launches := stopped.launches.map fun l => { l with stat := .failed .align } }
theorem witness_PreemptAndDebugEvents_debug : stopped.debuggable 0 1 = true ∧ (stopped.launch? 0 1).isSome = true
    ∧ (failedOne.launch? 0 1).isSome = true ∧ failedOne.debuggable 0 1 = false
    ∧ ((stopped.team? (.user 0 1 stopped.focusTeam.toNat)).any fun T =>
        (stopped.subgroups T).find? (fun g => g.contains stopped.focusTid.toNat) == some [0] && stopped.subgroups T == [[0]]
          && stopped.launchTeams 0 1 == [T]) = true
    ∧ ({ stopped with focusTeam := 1 } : State).team? (.user 0 1 1) = none ∧ standing.debuggable 0 1 = true
    ∧ (∀ T ∈ standing.teams, T.tbarIn = [] ∧ (standing.core T.core).bins = [] ∧ ∀ x ∈ T.threads, x.parkedAs = none)
    ∧ swf Core.fresh standing.cores = true ∧ (∃ b ∈ standing.bundles, b.clause = none ∧ b.tids = [0])
    ∧ (∀ l ∈ stopped.launches, l.ctx = 0 → l.stopped = false) := by decide +kernel

/-! Power and trace. -/

/-- An island whose clock is to change, and one whose clock is not; a core whose context samples, in its second period. -/
def changing (f : Nat) : State := { State.reset with islands := sset .fresh [] 0 { Island.fresh with nextFreq := f } }
def sampling (ticks : Nat) : State :=
  { ready 0x000F800000000000 with ctxs := [(0, { Ctx.fresh with trace := 3 })], ticks := ticks }
theorem witness_PowerAndTraceEvents : ((changing 400).island 0).freq ≠ ((changing 400).island 0).nextFreq
    ∧ swf Island.fresh (changing 400).islands = true ∧ ((changing 1600).island 0).freq = ((changing 1600).island 0).nextFreq
    ∧ (sampling 640).sampleDue 0 0 = true ∧ (sampling 639).sampleDue 0 0 = false ∧ (State.reset.queue 0).en = false
    ∧ (queued.queue 0).en = true ∧ (State.reset.ctx 0).en = false ∧ (queued.ctx 0).en = true
    ∧ ((regioned { region1 with v := true }).derivedAt 0).v = true
    ∧ swf Derived.fresh (regioned { region1 with v := true }).derived = true ∧ swf Core.fresh (sampling 640).cores = true := by
  decide +kernel

/-- A stream whose sample is due, and the record that it takes. -/
theorem witness_PowerAndTraceEvents_sample : traced.sampleDue 0 0 = true ∧ takesRecord traced 0 0 (List.replicate 32 0) = true
    ∧ swf Core.fresh traced.cores = true := by decide +kernel

/-! Links: a keyless segment of one block. -/

def block1 : Block := { bytes := (List.range 64).map fun i => BitVec.ofNat 8 i, descr := plainDescr, poison := none }
def seg1 (kind : SegKind) (fails : Nat) : Segment :=
  { id := 3, kind := kind, ctx := 0, asid := 0, key := 0, gen := 0, first := true, src := 0, dst := 0, index := 0, last := 0,
    payload := (codeBlocks [(block1, noPrediction)] true).bits, bits := (codeBlocks [(block1, noPrediction)] true).len,
    crc := blocksCrc [block1], seq := 0, reduce := 0, crcErr := false, move := none, coll := none, single := true,
    blocks := [{ code := 0, parts := [], data := block1 }], fails := fails }
def linked (g : Segment) : State := { State.reset with segments := [g] }
theorem witness_LinkEvents_segments : (linked (seg1 .data 0)).segment? (.sent 3) = some (seg1 .data 0)
    ∧ (linked (seg1 .data 0)).segmentReady (seg1 .data 0) = true
    ∧ (match (linked (seg1 .data 0)).checkSegment (seg1 .data 0) [] with
      | .pass bs => ((linked (seg1 .data 0)).applySegment (seg1 .data 0) false bs).isSome | _ => false) = true
    ∧ (match (linked (seg1 .data 0)).checkSegment (seg1 .data 0) [5] with | .bad => true | _ => false) = true
    ∧ (linked (seg1 .nak 7)).segments.find? (fun g => g.id == 3) = some (seg1 .nak 7) ∧ (seg1 .nak 7).fails < 8
    ∧ 8 ≤ (seg1 .nak 8).fails ∧ ({ linked { seg1 .data 0 with seq := 1 } with ticks := 0 } : State).segmentReady { seg1 .data 0 with seq := 1 } = false := by
  decide +kernel

/-- A segment of a flow whose receive tags name no generation: it lags. -/
def keyed : Segment := { seg1 .data 0 with key := 1, gen := 1, first := false }
def flowing : State :=
  { State.reset with segments := [keyed], regions := [{ ctx := 0, die := 0, place := .here 0x20000, flows := 1, size := 4096 }]
                     mem := [(0x20000, 1), (0x20004, 1), (0x20008, 64)] }
theorem witness_LinkEvents_lags : flowing.segment? (.sent 3) = some keyed ∧ flowing.segmentReady keyed = true
    ∧ (match flowing.checkSegment keyed [] with | .lags => true | _ => false) = true := by decide +kernel
/-- A multicast of one block whose root is member 1, of this package's dies 0 and 1: at the match, and at its one step's end. -/
def tileRecord : List Byte :=
  [0, 0, 1, 0, 0, 0, 0, 0, 64, 0, 0, 0, 0, 0, 0, 0, 0, 0, 0, 0, 0, 0, 0, 0, 0, 0, 0, 0, 0, 0, 0, 0,
   0, 0, 0, 0, 0, 0, 0, 0, 0, 0, 0, 0, 1, 1, 64, 0, 0, 0, 0, 0, 0, 0, 0, 0, 0, 0, 0, 0, 0, 0, 0, 0]
def coll1 (running : Bool) (got : List (Nat × Nat × Nat)) : Coll :=
  { number := 1, record := tileRecord, step := 0, steps := 1, running := running, matched := [0], got := got, held := [],
    stamps := [(0, 0)], release := none, late := false }
def collPkt (op : Nat) (c : Coll) : Packet :=
  { packet 2 [(0x40, op), (0x42, 2), (0x44, 1), (0x52, 1), (0x5B, 16), (0x78, 100)] .begun with coll := some c }
/-- What member 1 sends: the packet's bytes but for its own place. -/
def msg1 : List Byte := let m := (collPkt 4 (coll1 false [])).matchMsg (coll1 false []); m.take 11 ++ [1] ++ m.drop 12
/-- Its state, with the message of member 1 on its way, or on a package where member 1 is a peer's. -/
def collSent (away : Bool) : State :=
  if away then { fronted (collPkt 4 (coll1 false [])) 0 with coord := 1 }
  else { fronted (collPkt 4 (coll1 false [])) 0 with collMsgs := [keptMsg 0 1 msg1] }
theorem witness_LinkEvents_match :
    (fronted (collPkt 4 (coll1 false [])) 0).coll? p0 = some (collPkt 4 (coll1 false []), coll1 false [])
    ∧ (1 : Nat) ∉ (coll1 false []).matched ∧ 1 < (collPkt 4 (coll1 false [])).members ∧ natOfBytes (msg1.take 8) = 1
    ∧ (collSent false).sentMatch? (collPkt 4 (coll1 false [])) 1 1 = some msg1
    ∧ (collSent true).sentMatch? (collPkt 4 (coll1 false [])) 1 1 = none ∧ (collSent true).isOurs ((collPkt 4 (coll1 false [])).rank 1) = false
    ∧ (fronted (packet 2 [(0x42, 2), (0x5B, 16), (0x5A, 1)] .fetched) 0).coll? p0 = none
    ∧ withoutMe msg1 = withoutMe ((collPkt 4 (coll1 false [])).matchMsg (coll1 false [])) ∧ msg1.getD 11 0 = BitVec.ofNat 8 1
    ∧ (coll1 false []).matched.length + 1 = (collPkt 4 (coll1 false [])).members
    ∧ ((fronted { collPkt 4 (coll1 false []) with coll := some { coll1 true [] with matched := [0, 1] } } 0).collStart
        (collPkt 4 (coll1 false [])) (coll1 false []) 0).isSome = true
    ∧ withoutMe (msg1.set 8 5) ≠ withoutMe ((collPkt 4 (coll1 false [])).matchMsg (coll1 false []))
    ∧ (fronted (collPkt 4 (coll1 false [])) 100).collLate (collPkt 4 (coll1 false [])) (coll1 false []) = true
    ∧ (fronted (collPkt 4 (coll1 false [])) 99).collLate (collPkt 4 (coll1 false [])) (coll1 false []) = false := by decide +kernel
def stepping : Packet := collPkt 4 (coll1 true [(0, 1, 0)])
theorem witness_LinkEvents_step : (fronted stepping 0).coll? p0 = some (stepping, coll1 true [(0, 1, 0)]) ∧ stepping.isPod = false
    ∧ (fronted stepping 0).collDone stepping (coll1 true [(0, 1, 0)]) = true
    ∧ (fronted stepping 0).collDone stepping (coll1 true []) = false
    ∧ (coll1 true [(0, 1, 0)]).step + 1 = (coll1 true [(0, 1, 0)]).steps
    ∧ (∃ u w, (fronted stepping 0).collCombine stepping (coll1 true [(0, 1, 0)]) = .ok u
      ∧ u.feStore stepping.ctx (stepping.flagBase + 8 * (coll1 true [(0, 1, 0)]).step) (bytesOfNat 8 (coll1 true [(0, 1, 0)]).number) = .ok w
      ∧ (w.completePacket stepping { state := 1 }).isSome = true) := by
  refine ⟨by decide +kernel, by decide +kernel, by decide +kernel, by decide +kernel, by decide, ?_⟩
  have d : stepping.collDet = false := by decide +kernel
  have a : stepping.flagBase + 8 * (coll1 true [(0, 1, 0)]).step = 0x10000 := by decide +kernel
  have c : (fronted stepping 0).collCombine stepping (coll1 true [(0, 1, 0)]) = .ok (fronted stepping 0) := by
    unfold State.collCombine
    simp only [d, Bool.not_false, Bool.true_or, if_true]
  obtain ⟨w, hw⟩ := (mapped (s := fronted stepping 0) rfl rfl rfl).stores (k := 0) (bytes := bytesOfNat 8 1) (by decide)
    (by decide +kernel) (b := { bytes := List.replicate 64 0, descr := plainDescr, poison := none }) (by decide +kernel) rfl
  exact ⟨_, w, c, by rw [a]; exact hw, ends rfl (by decide +kernel) rfl⟩
/-- A pod barrier whose last arrival comes, and one at its release instant and a tick before; its core groups. -/
def podColl (release : Option Nat) : Coll := { coll1 true [] with stamps := [(0, 0)], release := release }
def podded (release : Option Nat) : Packet := collPkt 5 (podColl release)
/-- A pod barrier whose other member's stamp may come before its packet begins; and the same with a package gone silent. -/
def unbegunPod : Packet := { podded none with coll := none, stage := .fetched }
theorem witness_LinkEvents_early : (fronted unbegunPod 0).coll? p0 = none ∧ (fronted unbegunPod 0).packet? p0 = some unbegunPod
    ∧ unbegunPod.kind = 2 ∧ unbegunPod.open = true ∧ unbegunPod.ending = none ∧ 1 < unbegunPod.members ∧ unbegunPod.isPod = true
    ∧ (∀ y ∈ (fronted unbegunPod 0).packets, y.early = []) ∧ (fronted (podded none) 0).collGone (podded none) = false
    ∧ ({ fronted (podded none) 0 with silent := [(podded none).rank 1 % 4096] } : State).collGone (podded none) = true := by
  decide +kernel
theorem witness_LinkEvents_pod : (fronted (podded none) 0).coll? p0 = some (podded none, podColl none) ∧ (podded none).isPod = true
    ∧ 1 < (podded none).members ∧ (∀ e ∈ (podColl none).stamps, e.1 ≠ 1) ∧ (fronted (podded (some 4096)) 4096).ticks = 4096
    ∧ (podColl (some 4096)).release = some 4096 ∧ (podColl (some 4096)).running = true
    ∧ (fronted (podded (some 4096)) 4096).coll? p0 = some (podded (some 4096), podColl (some 4096))
    ∧ (∃ u, (fronted (podded (some 4096)) 4096).feStore (podded (some 4096)).ctx (podded (some 4096)).flagBase
        (bytesOfNat 8 (podColl (some 4096)).number) = .ok u ∧ (u.completePacket (podded (some 4096)) { state := 1 }).isSome = true) := by
  refine ⟨by decide +kernel, by decide +kernel, by decide +kernel, by decide, rfl, rfl, rfl, by decide +kernel, ?_⟩
  have a : (podded (some 4096)).flagBase = 0x10000 := by decide +kernel
  obtain ⟨w, hw⟩ := (mapped (s := fronted (podded (some 4096)) 4096) rfl rfl rfl).stores (k := 0) (bytes := bytesOfNat 8 1) (by decide)
    (by decide +kernel) (b := { bytes := List.replicate 64 0, descr := plainDescr, poison := none }) (by decide +kernel) rfl
  exact ⟨w, by rw [a]; exact hw, ends rfl (by decide +kernel) rfl⟩
def pod1 : Pod := { pkt := p0, ctx := 0, flag := 0x10000, release := 4096, stagger := 10, filed := [0] }
theorem witness_LinkEvents_groups : ({ State.reset with pods := [pod1], ticks := 4246 } : State).pods.find? (fun d => d.pkt == p0) = some pod1
    ∧ (15 : Nat) ∉ pod1.filed ∧ pod1.release + 15 * pod1.stagger = 4246 ∧ pod1.filed.length < 15 := by decide +kernel

/-! Errors, boots and power. -/

/-- A team of a launch that is pure, and may start again, and of one that is not. -/
def restartable (flags : Nat) : State :=
  let s := ready 0x000F800000000000 fun t => { t with desc := { t.desc with swarm := 1, flags := 0 } }
  { s with launches := s.launches.map fun l => { l with flags := flags } }
theorem witness_ErrorEvents_teams : ((restartable 3).team? key0).any (fun T => T.killed.isNone && T.desc.swarm == 1
      && (restartable 3).relaunchable T) = true ∧ (restartable 3).moves = []
    ∧ ((restartable 0).team? key0).any (fun T => T.killed.isNone && !(restartable 0).relaunchable T) = true
    ∧ ((restartable 0).launchOf? key0).any (fun l => l.stat == .begun) = true ∧ key0.isWalker = false := by decide +kernel
theorem witness_ErrorEvents_memory : State.reset.populated 0x20000 = true ∧ inWindows 0x20000 = false
    ∧ ((hive true).ctx 0).en = true ∧ ((hive false).ctx 0).en = false
    ∧ (match State.reset.sysWrite 0 0x10000 [1] with | .error _ => true | .ok _ => false) = true := by decide +kernel
theorem witness_ErrorEvents_host : ∃ u, (fronted writePkt 0).sysWrite 0 0x10000 [1] = .ok u := by
  have m := mapped (s := fronted writePkt 0) rfl rfl rfl
  have e : blockParts 0x10000 1 = [(0x10000, 1)] := by decide +kernel
  have c : (fronted writePkt 0).sysCanWrite 0 0x10000 1 = .ok () := by
    unfold State.sysCanWrite
    simp only [e, List.foldl, m.walks (k := 0) (by decide)]
  unfold State.sysWrite
  rw [show ([1] : List Byte).length = 1 from rfl, c]
  exact ⟨_, rfl⟩
/-- Recovery is waited for, and the length is the most that fits; a frozen package. -/
def recovering : State := { State.reset with boot := { State.reset.boot with waitRec := true, recovLen := 0x4000000 } }
theorem witness_ErrorEvents_boot : State.reset.boot.waitRec = false ∧ State.reset.boot.rom = true ∧ recovering.boot.waitRec = true
    ∧ recovering.boot.recovLen.toNat = 67108864 ∧ State.reset.boot.stage = .test
    ∧ (∀ g : BootStage, ({ State.reset with boot := { State.reset.boot with stage := g } } : State).boot.stage = g)
    ∧ ({ State.reset with frozen := true } : State).frozen = true
    ∧ ({ State.reset with frozen := true } : State).agenda = [] ∧ State.reset.coord.toNat ≠ 1
    ∧ 115 * 256 ≤ (0x7300 : BitVec 16).toInt ∧ (0x72FF : BitVec 16).toInt < 115 * 256 := by
  refine ⟨by decide, by decide, by decide, by decide, by decide, fun _ => rfl, by decide, by decide, by decide, by decide, by decide⟩
theorem witness_ErrorEvents_timer : State.reset.deferred = [] ∧ State.reset.events.length < 4096
    ∧ ({ State.reset with deferred := [.timer 1] } : State).deferred ≠ [] := by decide

/-! The whole machine. -/

/-- A word that the agenda names; one that the stamp rule chooses, with no event due; a reserved word. -/
def stepped (agenda : List Turn) (w : W64) : State := 
  { ready w with agenda := agenda, islands := [(0, { Island.fresh with idle := false })] }
theorem witness_StepRunsDecoded : (stepped [.issue 0] 0x000F800000000000).bundles.all (fun b => b.id == 0
      && (stepped [.issue 0] 0x000F800000000000).bundle? 0 == some b && (stepped [.issue 0] 0x000F800000000000).canIssue b
      && b.clause.any fun c => (decode (c.words.getD c.idx 0)).isSome) = true
    ∧ (stepped [.issue 0] 0x000F800000000000).frozen = false ∧ (stepped [.issue 0] 0x000F800000000000).powered = true
    ∧ firstDue (stepped [] 0x000F800000000000) (stepped [] 0x000F800000000000).candidates = none
    ∧ (stepped [] 0x000F800000000000).readyBundle.isSome = true := by decide +kernel
theorem witness_ReservedWordsTrap : ∃ i x, MayIssueOne (ready 0x090F800000000000) i { c := c0, cls := none, reads := [], writes := [] } x ∧
    (i.cl.words.getD i.cl.idx 0 = 0x090F800000000000 ∧ decode 0x090F800000000000 = none ∧ c0 = Ctl.of (Fields.ofWord 0x090F800000000000)
      ∧ c0.valid = true ∧ i.b.key.isWalker = false ∧ i.b.single = false ∧ ((ready 0x090F800000000000).core i.t.core).bins = []
      ∧ swf Core.fresh (ready 0x090F800000000000).cores = true ∧ x.reissue = none) :=
  witnessOneP (fun i x => i.cl.words.getD i.cl.idx 0 = 0x090F800000000000 ∧ decode 0x090F800000000000 = none
      ∧ c0 = Ctl.of (Fields.ofWord 0x090F800000000000)
      ∧ c0.valid = true ∧ i.b.key.isWalker = false ∧ i.b.single = false ∧ ((ready 0x090F800000000000).core i.t.core).bins = []
      ∧ swf Core.fresh (ready 0x090F800000000000).cores = true ∧ x.reissue = none) (by decide +kernel)
/-- A regroup word; the end of a clause that asked for rejoin, for reform, and for nothing. -/
theorem witness_Regrouping : (∃ i, MayIssue (ready 0x060F800000000000) i { c := c0, cls := some 4, reads := [], writes := [], regroup := true } ∧ True)
    ∧ ((calling.thread? key0 0).any fun x => x.tid == 0 && !x.stopNext) = true ∧ (calling.core (calling.coreOf key0)).bins = []
    ∧ swf Core.fresh calling.cores = true :=
  ⟨witnessP (fun _ => True) (by decide +kernel), by decide +kernel, by decide +kernel, by decide +kernel⟩
theorem witness_InvariantKept : State.reset.Inv ∧ ∃ t, step State.reset = .next t := by
  refine ⟨{ memory := by decide, tables := ?_, bundles := (by intro b hb; cases hb), regs := (by intro t ht; cases ht) }, _, rfl⟩
  constructor <;> decide

end Sys2Proof.Tests
end

