-- ==== Sys2Proof/Tests/Steps.lean ====
section
/-! SUPPORT. Steps.lean: single steps, with results from the spec's own examples and rules. -/

namespace Sys2Proof.Tests
open Sys2Proof Sys2Proof.Machine Sys2Proof.Claims
set_option Elab.async false

/-! ## Single steps: results that the spec's own examples and rules give -/

/-- A class-0 word run by a thread that f sets up. -/
def vec (n : Instr) (f : Team → Team := id) : Result := exec n (ready 0x200F800000000000 f)
/-- Two source registers. -/
def two (a b : W32) (t : Team) : Team := reg 2 a (reg 3 b t)
def three (a b c : W32) (t : Team) : Team := two a b (reg 4 c t)

-- R167: without .sat the sum wraps, with it the sum clamps
theorem test_add_wraps : result (vec (.add c0 1 2 3 .n32 false) (two 0xFFFFFFFF 2)) 1 = some 1 := by decide
theorem test_add_clamps : result (vec (.add c0 1 2 3 .s32 true) (two 0x7FFFFFFF 1)) 1 = some 0x7FFFFFFF := by decide
theorem test_sub_clamps : result (vec (.sub c0 1 2 3 .n32 true) (two 1 2)) 1 = some 0 := by decide
theorem test_mulhi_signed : result (vec (.mulhi c0 1 2 3 .s32) (two 0xFFFFFFFF 2)) 1 = some 0xFFFFFFFF := by decide
theorem test_source_is_destination : result (vec (.mad c0 2 2 2 2 .n32 false) (two 5 0)) 2 = some 30 := by decide
-- R168: division by zero, and the most negative number by −1; rem takes the sign of the dividend
theorem test_div_by_zero : result (vec (.div c0 1 2 3 .n32) (two 7 0)) 1 = some 0xFFFFFFFF := by decide
theorem test_div_overflow : result (vec (.div c0 1 2 3 .s32) (two 0x80000000 0xFFFFFFFF)) 1 = some 0x80000000 := by decide
theorem test_rem_sign : result (vec (.rem c0 1 2 3 .s32) (two 0xFFFFFFF9 2)) 1 = some 0xFFFFFFFF := by decide
theorem test_rem_by_zero : result (vec (.rem c0 1 2 3 .s32) (two 7 0)) 1 = some 7 := by decide
-- R169: shifts by the width; rot modulo 32; the fields
theorem test_shl_width : result (vec (.shl c0 1 2 3) (two 0xFFFFFFFF 32)) 1 = some 0 := by decide
theorem test_sar_width : result (vec (.sar c0 1 2 3) (two 0x80000000 40)) 1 = some 0xFFFFFFFF := by decide
theorem test_rot : result (vec (.rot c0 1 2 3) (two 0x80000001 33)) 1 = some 3 := by decide
theorem test_clz_zero : result (vec (.clz c0 1 2) (two 0 0)) 1 = some 32 := by decide
theorem test_bfe_sign : result (vec (.bfe c0 1 2 4 4 .s32) (two 0x80 0)) 1 = some 0xFFFFFFF8 := by decide
theorem test_bfi : result (vec (.bfi c0 1 2 28 4) fun t => reg 1 0x12345678 (two 0xF5 0 t)) 1 = some 0x52345678 := by decide
-- R171: an address wraps
theorem test_lea_wraps : result (vec (.lea c0 4 2 6 4 .s32) fun t => reg 6 0xFFFFFFFF (two 0 0 t)) 5 = some 0xFFFFFFFF := by decide
-- chapter 06's example of R160, and chapter 07's of R181
theorem test_dot4_sat : result (vec (.dot4 c0 1 2 3 4 false true true) (three 0x01010101 0xFB00FB14 0x7FFFFFF6)) 1 = some 0x7FFFFFF5 := by
  decide
theorem test_dot4_mixed : result (vec (.dot4 c0 1 2 3 4 false true false) (three 0xFFFFFFFF 0x80808080 0)) 1 = some 0xFFFE0200 := by
  decide
-- chapter 06: frcp(3.0), fsinp(0.5)
theorem test_frcp : result (vec (.frcp c0 1 2 false) (two 0x40400000 0)) 1 = some 0x3EAAB000 := by decide +kernel
theorem test_fsinp : result (vec (.fsinp c0 1 2 false) (two 0x3F000000 0)) 1 = some 0x3F800000 := by decide +kernel
-- chapter 07: cvtts of 0.4, 0.375 and −0.5; pack.bf16
theorem test_cvtts : result (vec (.cvtts c0 1 2 .f32 false) (two 0x3ECCCCCD 0)) 1 = some 0x23 := by decide +kernel
theorem test_cvtts_negative : result (vec (.cvtts c0 1 2 .f32 false) (two 0xBF000000 0)) 1 = some 0x97 := by decide +kernel
theorem test_pack : result (vec (.pack c0 9 2 .bf16 .rn .inf false) (two 0x3F808000 0xBF808000)) 9 = some 0xBF803F80 := by decide +kernel
-- R165, R170: the signed and the unsigned order
theorem test_icmp_signed : (after (vec (.icmp c0 .lt 0 2 3 .s32) (two 0xFFFFFFFF 0))).map (fun x => (x.advance 16).pred 0) = some true := by
  decide
theorem test_icmp_unsigned : (after (vec (.icmp c0 .lt 0 2 3 .n32) (two 0xFFFFFFFF 0))).map (fun x => (x.advance 16).pred 0) = some false := by
  decide
-- R101 to R103: a result of latency 4 has not landed at the next word
theorem test_add_late : (after (vec (.add c0 1 2 3 .n32 false) (two 1 2))).map (·.reg 1) = some 0 := by decide
-- chapter 00: the example of byte order
theorem test_store_bytes : (match exec (.st c0 4 10 0 .b64 .team) (ready 0x810F80281000C180 fun t =>
      page (reg 10 0x10000 (reg 4 0x80000000 (reg 5 1 t)))) with
    | .next t => (t.core 0).fifo.map (·.bytes) == [[0, 0, 0, 0x80, 1, 0, 0, 0]] | _ => false) = true := by decide +kernel
-- R174: the pending copy is written, and the visible one stays
theorem test_swrite : (match vec (.swrite c0 3 2 .n32) (two 7 0) with
    | .next t => t.teams.map (fun T => (sget 0 T.pending 3, sget 0 T.visible 3)) == [(7, 0)] | _ => false) = true := by decide +kernel
-- R122, R276, R131, R212: an exit, an atomic's old value, a ballot of one thread, a sign-extended byte
theorem test_exit : (after (exec (.exit c0) (ready 0x050F800000000000))).map (·.stat) = some .exited := by decide +kernel
theorem test_atom : (match exec (.atom c0 .add .n32 .rlx .team 5 10 8) { ready 0xA00F801420180052 fun t => page (reg 10 0x10000 (reg 8 3 t)) with
      mem := [(0x20000, 4)] } with
    | .next t => sget 0 t.mem 0x20000 == 7 && result (.next t) 5 == some 4 | _ => false) = true := by decide +kernel
theorem test_ballot : result (exec (.ballot c0 4 0 true) (ready 0x200F800000000000)) 4 = some 1 := by decide +kernel
theorem test_lds_sign : result (exec (.lds c0 17 2 0 .b8 true) (ready 0xB00F804408000120 fun t =>
    { t with bytes := [(0, 0x80)], sectors := [(0, true)] })) 17 = some 0xFFFFFF80 := by decide +kernel
-- R218: the last byte of the allocation is in it, the next one switches the thread off
theorem test_sts_past_end : (after (exec (.sts c0 1 2 0 .b8) (ready 0xB10F8004000018A0 (reg 2 0x10000)))).map (·.stat) = some .off := by
  decide +kernel
-- R37, R43: a doorbell past the ring's 16 slots sets OVERRUN and leaves WIDX
theorem test_doorbell_overrun : (match exec (.qwptrDoorbell 0 17) queued with
    | .next t => (t.queue 0).overrun && (t.queue 0).widx == 1 | _ => false) = true := by decide +kernel
-- R339: a PREEMPT of 320 cores from core 0 is taken, of 321 it is not
theorem test_preempt : (match exec (.preemptVacate (vacateAll 320)) State.reset, exec (.preemptVacate (vacateAll 321)) State.reset with
    | .next t, .next u => t.vacate.isSome && u.vacate.isNone | _, _ => false) = true := by decide +kernel

end Sys2Proof.Tests
end

section
/-! SUPPORT. PredicateMoves: the predicate moves (R129). The values their meanings write are those of the rule, and each
word then issues as a fixed-latency write of each thread's own. -/

namespace Sys2Proof.Claims
open Sys2Proof Sys2Proof.Machine

/-! ## The values that the moves write -/

/-- The meanings invert by `!=` where the rule has ` ^ NOT`. -/
theorem ite_bne_eq_truth (v inv : Bool) : (if v != inv then (1 : W64) else 0) = truth (xor inv v) := by
  rw [Bool.xor_comm]; rfl

theorem plogVal_eq (op : POp) (p q : Bool) :
    plogVal op p q = match op with
      | .and => p && q | .or => p || q | .xor => xor p q | .andn => p && !q := by
  cases op <;> rfl

/-- The low bits of a number, each at its place, make up its rest modulo a power of two. -/
theorem sum_testBit_mul_two_pow (n w : Nat) :
    ((List.range w).map fun k => (n.testBit k).toNat * 2 ^ k).sum = n % 2 ^ w := by
  induction w with
  | zero => simp [Nat.mod_one]
  | succ w ih =>
    have top : (n.testBit w).toNat * 2 ^ w = 2 ^ w * (n / 2 ^ w % 2) := by
      rw [Nat.toNat_testBit, Nat.mul_comm]
    rw [List.range_succ, List.map_append, List.sum_append, ih, Nat.mod_pow_succ, List.map_singleton,
      List.sum_singleton, top]

/-- A thread's predicate bits as one number. -/
theorem sum_pred_mul_two_pow (x : Thread) :
    ((List.range 24).map fun k => (x.pred k).toNat * 2 ^ k).sum = x.preds.toNat :=
  (sum_testBit_mul_two_pow x.preds.toNat 24).trans (Nat.mod_eq_of_lt x.preds.isLt)

/-! ## The four words -/

section
variable (s : State) (i : Issuer) (c : Ctl) (d a b : Reg) (inv : Bool)

theorem issuesEach_plog (op : POp) :
    IssuesEach s i (vecWord c [predSlot a.toNat, predSlot b.toNat] [predSlot d.toNat]) (.plog c op d a b inv) fun x =>
      .writes (.pred d.toNat) (truth (xor inv (match op with
        | .and => x.pred a.toNat && x.pred b.toNat
        | .or => x.pred a.toNat || x.pred b.toNat
        | .xor => xor (x.pred a.toNat) (x.pred b.toNat)
        | .andn => x.pred a.toNat && !x.pred b.toNat))) 4 := by
  refine issueFixed_each _ _ _ _ rfl fun x => ?_
  rw [ite_bne_eq_truth, plogVal_eq]

theorem issuesEach_pmov :
    IssuesEach s i (vecWord c [predSlot a.toNat] [predSlot d.toNat]) (.pmov c d a inv) fun x =>
      .writes (.pred d.toNat) (truth (xor inv (x.pred a.toNat))) 4 :=
  issueFixed_each _ _ _ _ rfl fun x => ite_bne_eq_truth (x.pred a.toNat) inv

theorem issuesEach_pmovTow :
    IssuesEach s i (vecWord c ((List.range 24).map predSlot) [d.toNat]) (.pmovTow c d) fun x =>
      .writes (.reg d.toNat) (BitVec.ofNat 64 ((List.range 24).map fun k => (x.pred k).toNat * 2 ^ k).sum) 4 := by
  refine issueFixed_each _ _ _ _ rfl fun x => ?_
  rw [sum_pred_mul_two_pow, BitVec.ofNat_toNat]

theorem issuesEach_pmovFromw :
    IssuesEach s i (vecWord c [a.toNat] ((List.range 24).map predSlot)) (.pmovFromw c a) fun x =>
      .writes .preds ((x.reg a.toNat).setWidth 64) 4 :=
  issueFixed_each _ _ _ _ rfl fun _ => rfl

end

/-- Settles O11: each of the four moves issues as a fixed-latency write of the rule's value. -/
theorem predicateMoves : Obligations.PredicateMoves := fun s i c op d a b inv =>
  ⟨issuesEach_plog s i c d a b inv op, issuesEach_pmov s i c d a inv, issuesEach_pmovTow s i c d,
    issuesEach_pmovFromw s i c a⟩

end Sys2Proof.Claims
end

section
/-! SUPPORT. IntegerWords: the integer, logic, address and dot words (R167 to R171, R181). Each value lemma says that a
formula of the model is the rule's; the words then issue as writes, or pending results, of each thread's own. -/

namespace Sys2Proof.Claims
open Sys2Proof Sys2Proof.Machine

/-- A fixed-latency write of what the rule says as it stands. -/
theorem issueFixed_self {s : State} {i : Issuer} {w : OpWord} {n : Instr} {d : Dest} {lat : Nat} {f : Thread → W64}
    (he : exec n s = issueFixed w d lat f s) : IssuesEach s i w n fun x => .writes d (f x) lat :=
  issueFixed_each _ _ _ _ he fun _ => rfl

/-! ## Arithmetic (R167) -/

theorem ival_eq_v (t : ITy) (x : W32) : ival t x = v t x := by cases t <;> rfl

theorem clampInt_eq_max_min {lo hi : Int} (h : lo ≤ hi) (x : Int) : clampInt lo hi x = max lo (min hi x) := by
  unfold clampInt
  split
  · omega
  · split <;> omega

theorem ifin_eq_fin (t : ITy) (sat : Bool) (x : Int) : ifin t sat x = fin t sat x := by
  unfold ifin fin
  simp only [clampInt_eq_max_min (show (-2 ^ 31 : Int) ≤ 2 ^ 31 - 1 by decide),
    clampInt_eq_max_min (show (0 : Int) ≤ 2 ^ 32 - 1 by decide)]
  cases t <;> rfl

/-- Bits 63 to 32 of a product in two's complement. -/
theorem extractLsb'_ofInt_high (p : Int) : (BitVec.ofInt 64 p).extractLsb' 32 32 = BitVec.ofInt 32 (p / 2 ^ 32) := by
  apply BitVec.eq_of_toNat_eq
  simp only [BitVec.extractLsb'_toNat, BitVec.toNat_ofInt, Nat.shiftRight_eq_div_pow]
  omega

/-- A word is its own value modulo 2^w. -/
theorem ofInt_toNat_cast {w : Nat} (x : BitVec w) : BitVec.ofInt w (x.toNat : Int) = x := by
  rw [BitVec.ofInt_natCast, BitVec.ofNat_toNat, BitVec.setWidth_eq]

theorem add_signExtend_eq_ofInt {w k : Nat} (x : BitVec w) (imm : BitVec k) :
    x + imm.signExtend w = BitVec.ofInt w (x.toNat + imm.toInt) := by
  rw [BitVec.ofInt_add, ofInt_toNat_cast]; rfl

theorem mul_signExtend_eq_ofInt {w k : Nat} (x : BitVec w) (imm : BitVec k) :
    x * imm.signExtend w = BitVec.ofInt w (x.toNat * imm.toInt) := by
  rw [BitVec.ofInt_mul, ofInt_toNat_cast]; rfl

/-- Settles O1: fin, the high half of a product and the sign-extended immediate are the rule's. -/
theorem integerArithmetic : Obligations.IntegerArithmetic := by
  intro s i c d a b e t sat imm
  refine ⟨issueFixed_each _ _ _ _ rfl fun x => ?add, issueFixed_each _ _ _ _ rfl fun x => ?sub,
    issueFixed_each _ _ _ _ rfl fun x => ?mul, issueFixed_each _ _ _ _ rfl fun x => ?mad,
    issueFixed_each _ _ _ _ rfl fun x => ?mulhi, issueFixed_each _ _ _ _ rfl fun x => ?min,
    issueFixed_each _ _ _ _ rfl fun x => ?max, issueFixed_each _ _ _ _ rfl fun x => ?abs,
    issueFixed_each _ _ _ _ rfl fun x => ?neg, issueFixed_each _ _ _ _ rfl fun x => ?addI,
    issueFixed_each _ _ _ _ rfl fun x => ?mulI⟩
  case add | sub | mul | mad | neg => simp only [ifin_eq_fin, ival_eq_v]
  case mulhi => simp only [extractLsb'_ofInt_high, ival_eq_v]
  case min | max => simp only [ival_eq_v, ← not_lt, ite_not]
  case abs => simp only [ifin_eq_fin, ival_eq_v, Int.natCast_natAbs]
  case addI => simp only [add_signExtend_eq_ofInt]
  case mulI => simp only [mul_signExtend_eq_ofInt]

/-! ## Division (R168) -/

/-- div and rem take the same three cases as the rule. -/
theorem idiv_eq (t : ITy) (a b : W32) : idiv t a b = (quotient t a b, rest t a b) := by
  unfold idiv quotient rest
  by_cases hb : b = 0
  · simp [hb]
  · by_cases ho : t = .s32 ∧ a = 0x80000000 ∧ b = 0xFFFFFFFF
    · obtain ⟨rfl, rfl, rfl⟩ := ho
      rfl
    · have ho' : (t == .s32 && a == 0x80000000 && b == 0xFFFFFFFF) = false := by
        simpa [and_assoc] using ho
      simp only [beq_iff_eq, hb, ho, ho', if_false, Bool.false_eq_true, ival_eq_v]

/-- Settles O2: each brings its half of the rule's pair. -/
theorem integerDivision : Obligations.IntegerDivision := fun _ _ _ _ _ _ t =>
  ⟨issueVar_each _ _ _ _ rfl fun _ => by simp only [idiv_eq], issueVar_each _ _ _ _ rfl fun _ => by simp only [idiv_eq]⟩

/-! ## Shifts (R169) -/

theorem shiftL_eq_shl (x : W32) (n : Nat) : shiftL x n = shl x n := by
  unfold shiftL shl
  simp only [← not_lt, ite_not]

theorem shiftR_eq_shr (x : W32) (n : Nat) : shiftR x n = shr x n := by
  unfold shiftR shr
  simp only [← not_lt, ite_not]

/-- At 31 places each bit is a copy of the sign. -/
theorem sshiftRight_thirtyOne (x : W32) : x.sshiftRight 31 = if x.msb then BitVec.allOnes 32 else 0 := by
  ext k hk
  have bit : (x.sshiftRight 31)[k] = x.msb := by
    rw [BitVec.getElem_sshiftRight]
    split
    · obtain rfl : k = 0 := by omega
      rw [BitVec.msb_eq_getLsbD_last]; rfl
    · rfl
  rw [bit]
  cases x.msb
  · simp
  · exact (BitVec.getElem_allOnes _ hk).symm

theorem shiftS_eq_sar (x : W32) (n : Nat) : shiftS x n = sar x n := by
  unfold shiftS sar
  split
  next h => rw [show Nat.min n 31 = 31 from Nat.min_eq_right (by omega), sshiftRight_thirtyOne]
  next h => rw [show Nat.min n 31 = n from Nat.min_eq_left (by omega)]

/-! ## Counts and orders of bits (R169) -/

/-- On the numbers below n, a property that holds up to m and fails there holds of the first m. -/
theorem length_takeWhile_range {p : Nat → Bool} {m n : Nat} (hmn : m < n) (hp : ∀ k < m, p k = true)
    (hm : p m = false) : ((List.range n).takeWhile p).length = m := by
  have first : (List.range n).findIdx (fun k => !p k) = m := by
    rw [List.findIdx_eq (by simpa using hmn)]
    simpa [hm] using hp
  rw [List.takeWhile_eq_take_findIdx_not, first, List.length_take, List.length_range, Nat.min_eq_left hmn.le]

theorem clz32_eq_length_takeWhile (x : W32) :
    clz32 x = ((List.range 32).takeWhile fun k => !x.getLsbD (31 - k)).length := by
  by_cases hx : x = 0
  · subst hx
    decide
  · have hn : x.toNat ≠ 0 := fun h => hx (BitVec.eq_of_toNat_eq h)
    have hlog : x.toNat.log2 < 32 := (Nat.log2_lt hn).mpr x.isLt
    have top : x.getLsbD x.toNat.log2 = true := Nat.testBit_log2 hn
    have above : ∀ k < 31 - x.toNat.log2, x.getLsbD (31 - k) = false := fun k hk =>
      Nat.testBit_lt_two_pow (Nat.lt_of_lt_of_le Nat.lt_log2_self (Nat.pow_le_pow_right (by decide) (by omega)))
    rw [length_takeWhile_range (m := 31 - x.toNat.log2) (by omega)]
    · unfold clz32
      rw [if_neg (by simpa using hx)]
    · intro k hk
      simp [above k hk]
    · rw [show 31 - (31 - x.toNat.log2) = x.toNat.log2 by omega, top]; rfl

theorem length_filter_eq_sum_toNat {α : Type} (p : α → Bool) (l : List α) :
    (l.filter p).length = (l.map fun y => (p y).toNat).sum := by
  induction l with
  | nil => rfl
  | cons y l ih => cases hp : p y <;> simp [hp, ih, Nat.add_comm]

theorem popc32_eq_sum (x : W32) : popc32 x = ((List.range 32).map fun k => (x.getLsbD k).toNat).sum :=
  length_filter_eq_sum_toNat _ _

/-- The word whose bits are given one by one. -/
theorem ofNat_sum_getLsbD {w : Nat} (x : BitVec w) (f : Nat → Bool) (hf : ∀ k < w, x.getLsbD k = f k) :
    BitVec.ofNat w ((List.range w).map fun k => (f k).toNat * 2 ^ k).sum = x := by
  have bits : ((List.range w).map fun k => (f k).toNat * 2 ^ k)
      = (List.range w).map fun k => (x.toNat.testBit k).toNat * 2 ^ k :=
    List.map_congr_left fun k hk => by rw [← hf k (List.mem_range.mp hk)]; rfl
  rw [bits, sum_testBit_mul_two_pow, Nat.mod_eq_of_lt x.isLt, BitVec.ofNat_toNat, BitVec.setWidth_eq]

theorem brev32_eq_ofNat_sum (x : W32) :
    brev32 x = BitVec.ofNat 32 ((List.range 32).map fun k => (x.getLsbD (31 - k)).toNat * 2 ^ k).sum := by
  refine (ofNat_sum_getLsbD (brev32 x) _ fun k hk => ?_).symm
  unfold brev32
  rw [BitVec.getLsbD_reverse, BitVec.getMsbD]
  simp [hk]

/-! ## Bit fields (R169) -/

/-- Shifting a field up to the top of the word and down again extends it. -/
theorem bitExtract_eq_bfe (t : ITy) (x : W32) {pos len : Nat} (h1 : 1 ≤ len) (h2 : pos + len ≤ 32) :
    bitExtract t x pos len = bfe t x pos len := by
  have place (k : Nat) : 32 - len + k - (32 - (pos + len)) = pos + k := by omega
  have above (k : Nat) : ¬32 - len + k < 32 - (pos + len) := by omega
  have within (k : Nat) : 32 - len + k < 32 ↔ k < len := by omega
  unfold bitExtract bfe
  cases t with
  | n32 =>
    refine BitVec.eq_of_getLsbD_eq fun k hk => ?_
    simp [hk, place, above, within]
  | s32 =>
    refine BitVec.eq_of_getLsbD_eq fun k hk => ?_
    rw [BitVec.getLsbD_sshiftRight, BitVec.getLsbD_signExtend]
    simp [BitVec.msb_shiftLeft, BitVec.msb_extractLsb', hk, place, above, within, h2, show 0 < len from h1]

/-- A run of len ones from bit pos. -/
theorem testBit_ones_mul_two_pow (pos len k : Nat) :
    ((2 ^ len - 1) * 2 ^ pos).testBit k = decide (pos ≤ k ∧ k < pos + len) := by
  rw [Nat.testBit_mul_two_pow, Nat.testBit_two_pow_sub_one, ← Bool.decide_and, decide_eq_decide]
  omega

theorem getLsbD_bitInsert (old x : W32) (pos len : Nat) {k : Nat} (hk : k < 32) :
    (bitInsert old x pos len).getLsbD k =
      if pos ≤ k ∧ k < pos + len then x.getLsbD (k - pos) else old.getLsbD k := by
  unfold bitInsert
  rw [BitVec.getLsbD_or, BitVec.getLsbD_and, BitVec.getLsbD_and, BitVec.getLsbD_not, BitVec.getLsbD_shiftLeft,
    BitVec.getLsbD_ofNat, testBit_ones_mul_two_pow]
  by_cases h : pos ≤ k ∧ k < pos + len <;> simp [h, hk]

theorem toNat_mul_eq_ite (b : Bool) (n : Nat) : b.toNat * n = if b then n else 0 := by
  cases b <;> simp

theorem bitInsert_eq_bfi (old x : W32) (pos len : Nat) : bitInsert old x pos len = bfi old x pos len := by
  unfold bfi
  simp only [← toNat_mul_eq_ite]
  exact (ofNat_sum_getLsbD _ _ fun k hk => getLsbD_bitInsert old x pos len hk).symm

/-- Settles O3: the shifts, the counts and the bit fields are the rule's; the other words write what the rule writes as it
stands. -/
theorem logicShiftsBits : Obligations.LogicShiftsBits := by
  intro s i c d a b t imm pos len
  refine ⟨issueFixed_self rfl, issueFixed_self rfl, issueFixed_self rfl, issueFixed_self rfl, issueFixed_self rfl,
    issueFixed_self rfl, issueFixed_self rfl, issueFixed_each _ _ _ _ rfl fun x => ?shl,
    issueFixed_each _ _ _ _ rfl fun x => ?shr, issueFixed_each _ _ _ _ rfl fun x => ?sar, issueFixed_self rfl,
    issueFixed_each _ _ _ _ rfl fun x => ?shlI, issueFixed_each _ _ _ _ rfl fun x => ?shrI,
    issueFixed_each _ _ _ _ rfl fun x => ?sarI, issueFixed_self rfl, issueFixed_each _ _ _ _ rfl fun x => ?clz,
    issueFixed_each _ _ _ _ rfl fun x => ?popc, issueFixed_each _ _ _ _ rfl fun x => ?brev,
    fun h1 h2 => ⟨issueFixed_each _ _ _ _ rfl fun x => ?bfe, issueFixed_each _ _ _ _ rfl fun x => ?bfi⟩⟩
  case shl | shlI => simp only [shiftL_eq_shl]
  case shr | shrI => simp only [shiftR_eq_shr]
  case sar | sarI => simp only [shiftS_eq_sar]
  case clz => simp only [clz32_eq_length_takeWhile]
  case popc => simp only [popc32_eq_sum]
  case brev => simp only [brev32_eq_ofNat_sum]
  case bfe => simp only [bitExtract_eq_bfe t _ h1 h2]
  case bfi => simp only [bitInsert_eq_bfi]

/-! ## Selection and comparison (R170) -/

theorem irel_eq_holds (r : IRel) (p q : Int) : irel r p q = holds r p q := by
  cases r with
  | eq | lt | le | gt | ge => rfl
  | ne => rw [Bool.eq_iff_iff]; simp [irel, holds]

theorem extractLsb'_setWidth_low (x : W32) : (x.setWidth 64).extractLsb' 0 32 = x := by
  rw [BitVec.extractLsb'_setWidth_of_le (by decide), BitVec.extractLsb'_eq_self]

/-- A comparison reads the registers or pairs that the width of its type names. -/
theorem wval_wide_eq_v64 (t : WTy) (x : Thread) (r : Reg) : wval t (x.wide t.is64 r) = v64 t x r := by
  cases t with
  | s64 | n64 => rfl
  | s32 => exact congrArg BitVec.toInt (extractLsb'_setWidth_low _)
  | n32 => exact congrArg (fun y : W32 => (y.toNat : Int)) (extractLsb'_setWidth_low _)

/-- Settles O4: the comparison is that of the rule's two values. -/
theorem selectAndCompare : Obligations.SelectAndCompare := fun _ _ _ _ _ _ _ rel t =>
  ⟨issueFixed_self rfl,
    issueFixed_each _ _ _ _ rfl fun _ => by rw [irel_eq_holds, wval_wide_eq_v64, wval_wide_eq_v64]; rfl⟩

/-! ## Addresses (R171) -/

theorem ofInt_two_pow (w n : Nat) : BitVec.ofInt w (2 ^ n) = BitVec.twoPow w n := by
  apply BitVec.eq_of_toNat_eq
  rw [show (2 ^ n : Int) = ((2 ^ n : Nat) : Int) by norm_cast, BitVec.ofInt_natCast, BitVec.toNat_ofNat, BitVec.toNat_twoPow]

theorem ofInt_shiftLeft {w : Nat} (p : Int) (n : Nat) : BitVec.ofInt w p <<< n = BitVec.ofInt w (p * 2 ^ n) := by
  rw [BitVec.shiftLeft_eq_mul_twoPow, BitVec.ofInt_mul, ofInt_two_pow]

/-- Settles O5: each sum wraps, since its parts are taken modulo 2^64. -/
theorem addressArithmetic : Obligations.AddressArithmetic := by
  intro s i c d a b sh t imm
  refine ⟨issueFixed_each _ _ _ _ rfl fun x => ?lea, issueFixed_each _ _ _ _ rfl fun x => ?add64,
    issueFixed_each _ _ _ _ rfl fun x => ?add64I⟩
  case lea => simp only [BitVec.ofInt_add, ofInt_toNat_cast, ofInt_shiftLeft, ival_eq_v]
  case add64 => simp only [BitVec.ofInt_add, ofInt_toNat_cast]
  case add64I => simp only [add_signExtend_eq_ofInt]

/-! ## dot4 (R181) -/

theorem byteAt_eq_toNat (x : W32) (k : Nat) : byteAt x k = (x.extractLsb' (8 * k) 8).toNat := by
  rw [BitVec.extractLsb'_toNat, Nat.shiftRight_eq_div_pow, Nat.pow_mul]
  rfl

theorem byteVal_toNat (signed : Bool) (y : BitVec 8) :
    byteVal signed y.toNat = if signed then y.toInt else (y.toNat : Int) := by
  cases signed with
  | false => rfl
  | true =>
    unfold byteVal
    simp only [Bool.true_and, decide_eq_true_eq, if_true, BitVec.toInt_eq_toNat_cond]
    split <;> split <;> omega

theorem byteVal_byteAt_eq_byteInt (signed : Bool) (x : W32) (k : Nat) :
    byteVal signed (byteAt x k) = byteInt signed x k := by
  rw [byteAt_eq_toNat, byteVal_toNat]
  rfl

theorem abs_byteInt_le (signed : Bool) (x : W32) (k : Nat) : |byteInt signed x k| ≤ 255 := by
  unfold byteInt
  rw [abs_le]
  cases signed with
  | false => simp only [Bool.false_eq_true, if_false]; omega
  | true => simp only [if_true, BitVec.toInt_eq_toNat_cond]; omega

/-- An exact product of two bytes lies within s32: adding 0 to it neither wraps nor clamps. -/
theorem addS32_zero_of_abs_le (sat : Bool) {p : Int} (h : |p| ≤ 255 * 255) : addS32 sat p 0 = p := by
  obtain ⟨lo, hi⟩ := abs_le.mp h
  unfold addS32
  cases sat with
  | true => simp only [if_true]; omega
  | false =>
    simp only [Bool.false_eq_true, if_false, Int.add_zero, BitVec.toInt_ofInt]
    exact Int.bmod_eq_of_le (by omega) (by omega)

/-- The two chains of R160 over four products. -/
theorem sumS32_four (sat : Bool) (e p0 p1 p2 p3 : Int) (h : |p1| ≤ 255 * 255) :
    sumS32 sat e [p0, p1, p2, p3] = add32 sat (add32 sat (add32 sat e p0) p2) (add32 sat p1 p3) := by
  show addS32 sat (addS32 sat (addS32 sat e p0) p2) (addS32 sat (addS32 sat p1 0) p3) = _
  rw [addS32_zero_of_abs_le sat h]
  rfl

/-- Settles O9: the products are the rule's, and each lies within s32, so the odd chain may start from its first one. -/
theorem integerDot : Obligations.IntegerDot := fun _ _ _ _ a b _ asg bsg _ =>
  issueFixed_each _ _ _ _ rfl fun x => by
    have product : |byteInt asg (x.reg a.toNat) 1 * byteInt bsg (x.reg b.toNat) 1| ≤ 255 * 255 := by
      rw [abs_mul]
      exact mul_le_mul (abs_byteInt_le _ _ _) (abs_byteInt_le _ _ _) (abs_nonneg _) (by decide)
    simp only [byteVal_byteAt_eq_byteInt, sumS32_four _ _ _ _ _ _ product]

end Sys2Proof.Claims
end

section
/-! SUPPORT. Steps: what one step of the machine does (R97, R99), and the invariant of Safety.lean under it. -/

namespace Sys2Proof.Claims
open Sys2Proof Sys2Proof.Machine

/-! ## Steps -/

theorem canIssue_agenda (s : State) (rest : List Turn) (b : Bundle) : ({ s with agenda := rest } : State).canIssue b = s.canIssue b := rfl

theorem bundleTurn_of_decode {s : State} {b : Bundle} {cl : Clause} {i : Instr} (hc : b.clause = some cl)
    (hi : decode (cl.words.getD cl.idx 0) = some i) : bundleTurn s b = exec i { s with focus := some b.id } := by
  unfold bundleTurn issueWord
  simp only [hc, hi]

theorem step_of_turn {s : State} {t : Turn} {rest : List Turn} (hf : s.frozen = false) (hp : s.powered = true)
    (ha : s.agenda = t :: rest) : step s = takeTurn t { s with agenda := rest } := by
  unfold step
  simp [ha, hf, hp]

theorem step_of_readyBundle {s : State} {b : Bundle} (hf : s.frozen = false) (hp : s.powered = true) (ha : s.agenda = [])
    (hd : firstDue s s.candidates = none) (hb : s.readyBundle = some b) : step s = bundleTurn s b := by
  unfold step
  simp [ha, hf, hp, hd, hb]

/-- Settles O55: a turn of the agenda, or the ready bundle's, is the next word of the bundle's clause. -/
theorem stepRunsDecoded : Obligations.StepRunsDecoded := by
  intro s rest hf hp
  refine ⟨fun b cl i hb hc hi => ⟨fun ha hcan => ?_, fun ha hd hr => ?_⟩, fun i ha => step_of_turn hf hp ha⟩
  · have hb' : ({ s with agenda := rest } : State).bundle? b.id = some b := hb
    rw [step_of_turn hf hp ha]
    unfold takeTurn
    simp only [hb', canIssue_agenda, hcan, if_true]
    exact bundleTurn_of_decode hc hi
  · rw [step_of_readyBundle hf hp ha hd hr, bundleTurn_of_decode hc hi]

/-! ## The invariant -/

/-- Settles O58: every table and memory of the reset state is empty. -/
theorem invariantAtReset : Obligations.InvariantAtReset where
  memory := State.reset_memoryWf
  tables := { cores := rfl, pairs := rfl, ctxs := rfl, queues := rfl, islands := rfl, dies := rfl, derived := rfl, signer := rfl }
  bundles := fun _ h => absurd h List.not_mem_nil
  regs := fun _ h => absurd h List.not_mem_nil

/-- The package at the last but one step of its boot, with one island whose only difference from a fresh one is the frequency
that it is to take up. -/
def trainingState : State :=
  { State.reset with
    islands := [(0, { Island.fresh with nextFreq := 400 })]
    boot := { State.reset.boot with stage := .train }
    agenda := [.event (.boot .train)] }

/-- What training leaves of it: the island reads as a fresh one, and its entry stays in the table. -/
def trainedState : State :=
  { trainingState with
    islands := [(0, Island.fresh)]
    boot := { State.reset.boot with stage := .last }
    agenda := [] }

theorem trainingState_inv : trainingState.Inv where
  memory := State.reset_memoryWf
  tables := { invariantAtReset.tables with islands := by decide }
  bundles := invariantAtReset.bundles
  regs := invariantAtReset.regs

theorem step_trainingState : step trainingState = .next trainedState := rfl

/-- Refutes O57: training writes an island back to its reset values (R383) and leaves it listed, so that equal contents are
no longer equal data. -/
theorem not_invariantKept : ¬ Obligations.InvariantKept := fun h =>
  absurd (h _ _ trainingState_inv step_trainingState).tables.islands (by decide)

end Sys2Proof.Claims
end

section
/-! SUPPORT. Registers: what a read of a package register gives, by the group that its address lies in (R37, R382), and the
words that the chapters give. -/

namespace Sys2Proof.Claims
open Sys2Proof Sys2Proof.Machine

/-! ## Register groups -/

theorem groupAt_inside {base stride count k o : Nat} (hk : k < count) (ho : o < stride) :
    groupAt base stride count (base + stride * k + o) = some (k, o) := by
  have pos : 0 < stride := by omega
  have le : stride * (k + 1) ≤ stride * count := Nat.mul_le_mul_left _ hk
  have lt : base ≤ base + stride * k + o ∧ base + stride * k + o < base + stride * count := by
    rw [Nat.mul_succ] at le; omega
  have off : base + stride * k + o - base = o + stride * k := by omega
  unfold groupAt
  rw [if_pos (by simpa only [Bool.and_eq_true, decide_eq_true_eq] using lt), off, Nat.add_mul_div_left _ _ pos,
    Nat.div_eq_of_lt ho, Nat.add_mul_mod_self_left, Nat.mod_eq_of_lt ho, Nat.zero_add]

theorem groupAt_first {base stride count k : Nat} (hk : k < count) (hs : 0 < stride) :
    groupAt base stride count (base + stride * k) = some (k, 0) := groupAt_inside hk hs

theorem groupAt_above {base stride count a : Nat} (h : base + stride * count ≤ a) : groupAt base stride count a = none := by
  unfold groupAt
  rw [if_neg (by simp [Nat.not_lt.mpr h])]

theorem findSome?_none_cons {α : Type} (l : List (Option α)) : List.findSome? id (none :: l) = List.findSome? id l := by simp
theorem findSome?_some_cons {α : Type} (x : α) (l : List (Option α)) : List.findSome? id (some x :: l) = some x := by simp

theorem readReg_queue (s : State) {q o : Nat} (hq : q < 256) (ho : o < 0x40) :
    s.readReg (0x00100000 + 0x40 * q + o) = BitVec.ofNat 64 (s.readQueue q o) := by
  unfold State.readReg
  rw [groupAt_inside (count := queueCount) hq ho]
  rfl

theorem readReg_ctxcfg (s : State) {c o : Nat} (hc : c < 64) (ho : o < 0x10) :
    s.readReg (0x00110000 + 0x10 * c + o) = BitVec.ofNat 64
      (if o == 0 then (s.ctx c).cfgWord else if o == 8 then (s.ctx c).root else 0) := by
  unfold State.readReg
  rw [groupAt_above (count := queueCount) (by unfold queueCount; omega), groupAt_inside (count := ctxCount) hc ho]
  rfl

theorem readReg_ctxcore (s : State) {c o : Nat} (hc : c < 64) (ho : o < 0x40) :
    s.readReg (0x00120000 + 0x40 * c + o) = BitVec.ofNat 64 ((s.ctx c).cores.extractLsb' (8 * o) 64).toNat := by
  unfold State.readReg
  rw [groupAt_above (count := queueCount) (by unfold queueCount; omega), groupAt_above (stride := 0x10) (count := ctxCount) (by unfold ctxCount; omega),
    groupAt_inside (count := ctxCount) hc ho]
  rfl

theorem readReg_shape (s : State) {p : Nat} (hp : p < 160) : s.readReg (0x001F0100 + 8 * p) = (s.island p).shapeWord := by
  have e := groupAt_first (base := 0x001F0100) (stride := 8) (count := pairIslands) hp (by decide)
  unfold State.readReg
  simp (disch := (simp only [queueCount, ctxCount, derivedCount, dieCount]; omega)) only [groupAt_above, e]
  rw [groupAt_above (stride := 0x1000) (count := 2) (by omega)]
  simp only [Option.map_none, findSome?_none_cons]
  rw [Option.map_some, findSome?_some_cons, Option.getD_some, BitVec.ofNat_toNat, BitVec.setWidth_eq]

theorem readReg_islctl (s : State) {i : Nat} (hi : i < 256) :
    s.readReg (0x001F1000 + 8 * i) = BitVec.ofNat 64 (s.island i).ctlWord := by
  have e := groupAt_first (base := 0x001F1000) (stride := 8) (count := islandCount) hi (by decide)
  unfold State.readReg
  simp (disch := (simp only [queueCount, ctxCount, derivedCount, dieCount, pairIslands]; omega)) only [groupAt_above, e]
  rw [groupAt_above (stride := 0x1000) (count := 2) (by omega)]
  simp only [Option.map_none, Option.map_some, findSome?_none_cons, findSome?_some_cons, Option.getD_some]

/-! ## The registers at reset -/

theorem readQueue_reset (q off : Nat) : State.reset.readQueue q off = 0 := by
  have fresh : State.reset.queue q = Queue.fresh := rfl
  have quiet : State.reset.queueActive q = false := rfl
  unfold State.readQueue
  simp [fresh, quiet, Queue.fresh, Queue.cfgWord, flagBit]

theorem cfgWord_fresh : Ctx.fresh.cfgWord = 0 := rfl

/-- Settles O59: every table of the reset state is empty, so each of its registers reads as a fresh unit's. -/
theorem resetValues : Obligations.ResetValues := by
  have ctx (c : Nat) : State.reset.ctx c = Ctx.fresh := rfl
  have island (k : Nat) : State.reset.island k = Island.fresh := rfl
  refine ⟨fun q o hq ho => ?queue, fun c o hc ho => ?cfg, fun c j hc hj => ?cores, rfl, rfl, rfl, rfl, rfl, rfl, rfl, rfl,
    rfl, rfl, rfl, fun p hp => ?shape, fun i hi => ?ctl, fun k _ => ⟨rfl, rfl⟩, fun _ => rfl, rfl, rfl, fun _ => rfl, rfl, rfl⟩
  case queue => rw [readReg_queue _ hq (by omega), readQueue_reset]; rfl
  case cfg =>
    rw [readReg_ctxcfg _ hc ho, ctx]
    have root : Ctx.fresh.root = 0 := rfl
    simp [cfgWord_fresh, root]
  case cores =>
    rw [readReg_ctxcore _ hc (by omega), ctx]
    have none : Ctx.fresh.cores = 0 := rfl
    simp [none]
  case shape => rw [readReg_shape _ hp, island]; rfl
  case ctl => rw [readReg_islctl _ hi, island]; rfl

/-- Settles O54: each word by evaluation of the decoder on it. -/
theorem specWordsDecode : Obligations.SpecWordsDecode := by
  unfold Obligations.SpecWordsDecode
  repeat' apply And.intro
  all_goals rfl

end Sys2Proof.Claims
end

section
/-! SUPPORT. Formats: each format and each m field reads back what it writes (R89, R92 to R94). -/

namespace Sys2Proof.Claims
open Sys2Proof

/-- A field above the last one of a concatenation. -/
theorem extract_above {v w s n : Nat} {x : BitVec v} {y : BitVec w} {z : BitVec n} (h : w ≤ s)
    (e : x.extractLsb' (s - w) n = z) : (x ++ y).extractLsb' s n = z :=
  (BitVec.extractLsb'_append_eq_of_le h).trans e

/-- A concatenation of adjacent fields of one word. -/
theorem append_extract {k m n : Nat} (s : Nat) {x : BitVec k} {y : BitVec m} (e : y = x.extractLsb' (s + n) m) :
    y ++ x.extractLsb' s n = x.extractLsb' s (m + n) := by
  rw [e]
  exact BitVec.extractLsb'_append_extractLsb'_eq_extractLsb' rfl

@[simp] theorem Fields.ofWord_toWord (x : Fields) : Fields.ofWord x.toWord = x := by
  obtain ⟨op, sub, pr, pn, st, low⟩ := x
  exact (Fields.mk.injEq ..).mpr
    ⟨extract_above (by decide) (extract_above (by decide) (extract_above (by decide) (extract_above (by decide)
      (extract_above (by decide) BitVec.extractLsb'_eq_self)))),
     extract_above (by decide) (extract_above (by decide) (extract_above (by decide)
       (extract_above (by decide) BitVec.extractLsb'_append_eq_right))),
     extract_above (by decide) (extract_above (by decide) (extract_above (by decide) BitVec.extractLsb'_append_eq_right)),
     extract_above (by decide) (extract_above (by decide) BitVec.extractLsb'_append_eq_right),
     extract_above (by decide) BitVec.extractLsb'_append_eq_right,
     BitVec.extractLsb'_append_eq_right⟩

theorem Fields.toWord_ofWord (w : W64) : (Fields.ofWord w).toWord = w := by
  have h : w.extractLsb' 56 8 ++ w.extractLsb' 52 4 ++ w.extractLsb' 47 5 ++ w.extractLsb' 46 1 ++ w.extractLsb' 42 4
    ++ w.extractLsb' 0 42 = w.extractLsb' 0 64 :=
    append_extract 0 (append_extract 42 (append_extract 46 (append_extract 47 (append_extract 52 rfl))))
  exact h.trans BitVec.extractLsb'_eq_self

@[simp] theorem FmtA.ofLow_toLow (x : FmtA) : FmtA.ofLow x.toLow = x := by
  obtain ⟨d, a, b, c, m⟩ := x
  exact (FmtA.mk.injEq ..).mpr
    ⟨extract_above (by decide) (extract_above (by decide) (extract_above (by decide)
      (extract_above (by decide) BitVec.extractLsb'_eq_self))),
     extract_above (by decide) (extract_above (by decide) (extract_above (by decide) BitVec.extractLsb'_append_eq_right)),
     extract_above (by decide) (extract_above (by decide) BitVec.extractLsb'_append_eq_right),
     extract_above (by decide) BitVec.extractLsb'_append_eq_right,
     BitVec.extractLsb'_append_eq_right⟩

theorem FmtA.toLow_ofLow (w : BitVec 42) : (FmtA.ofLow w).toLow = w := by
  have h : w.extractLsb' 34 8 ++ w.extractLsb' 26 8 ++ w.extractLsb' 18 8 ++ w.extractLsb' 10 8
    ++ w.extractLsb' 0 10 = w.extractLsb' 0 42 :=
    append_extract 0 (append_extract 10 (append_extract 18 (append_extract 26 rfl)))
  exact h.trans BitVec.extractLsb'_eq_self

theorem FmtA.toLow_eq_iff {d a b c m} {w : BitVec 42} :
    FmtA.toLow { d := d, a := a, b := b, c := c, m := m } = w ↔
    (FmtA.ofLow w).d = d ∧ (FmtA.ofLow w).a = a ∧ (FmtA.ofLow w).b = b ∧ (FmtA.ofLow w).c = c ∧ (FmtA.ofLow w).m = m := by
  constructor
  · rintro rfl
    simp only [FmtA.ofLow_toLow, and_self]
  · rintro ⟨rfl, rfl, rfl, rfl, rfl⟩
    exact FmtA.toLow_ofLow w

@[simp] theorem FmtI.ofLow_toLow (x : FmtI) : FmtI.ofLow x.toLow = x := by
  obtain ⟨d, a, imm⟩ := x
  exact (FmtI.mk.injEq ..).mpr
    ⟨extract_above (by decide) (extract_above (by decide) BitVec.extractLsb'_eq_self),
     extract_above (by decide) BitVec.extractLsb'_append_eq_right,
     BitVec.extractLsb'_append_eq_right⟩

theorem FmtI.toLow_ofLow (w : BitVec 42) : (FmtI.ofLow w).toLow = w := by
  have h : w.extractLsb' 34 8 ++ w.extractLsb' 26 8 ++ w.extractLsb' 0 26 = w.extractLsb' 0 42 :=
    append_extract 0 (append_extract 26 rfl)
  exact h.trans BitVec.extractLsb'_eq_self

theorem FmtI.toLow_eq_iff {d a imm} {w : BitVec 42} :
    FmtI.toLow { d := d, a := a, imm := imm } = w ↔
    (FmtI.ofLow w).d = d ∧ (FmtI.ofLow w).a = a ∧ (FmtI.ofLow w).imm = imm := by
  constructor
  · rintro rfl
    simp only [FmtI.ofLow_toLow, and_self]
  · rintro ⟨rfl, rfl, rfl⟩
    exact FmtI.toLow_ofLow w

@[simp] theorem FmtL.ofLow_toLow (x : FmtL) : FmtL.ofLow x.toLow = x := by
  obtain ⟨d, rsv, imm⟩ := x
  exact (FmtL.mk.injEq ..).mpr
    ⟨extract_above (by decide) (extract_above (by decide) BitVec.extractLsb'_eq_self),
     extract_above (by decide) BitVec.extractLsb'_append_eq_right,
     BitVec.extractLsb'_append_eq_right⟩

theorem FmtL.toLow_ofLow (w : BitVec 42) : (FmtL.ofLow w).toLow = w := by
  have h : w.extractLsb' 34 8 ++ w.extractLsb' 32 2 ++ w.extractLsb' 0 32 = w.extractLsb' 0 42 :=
    append_extract 0 (append_extract 32 rfl)
  exact h.trans BitVec.extractLsb'_eq_self

theorem FmtL.toLow_eq_iff {d rsv imm} {w : BitVec 42} :
    FmtL.toLow { d := d, rsv := rsv, imm := imm } = w ↔
    (FmtL.ofLow w).d = d ∧ (FmtL.ofLow w).rsv = rsv ∧ (FmtL.ofLow w).imm = imm := by
  constructor
  · rintro rfl
    simp only [FmtL.ofLow_toLow, and_self]
  · rintro ⟨rfl, rfl, rfl⟩
    exact FmtL.toLow_ofLow w

@[simp] theorem FmtM.ofLow_toLow (x : FmtM) : FmtM.ofLow x.toLow = x := by
  obtain ⟨d, a, off, m⟩ := x
  exact (FmtM.mk.injEq ..).mpr
    ⟨extract_above (by decide) (extract_above (by decide) (extract_above (by decide) BitVec.extractLsb'_eq_self)),
     extract_above (by decide) (extract_above (by decide) BitVec.extractLsb'_append_eq_right),
     extract_above (by decide) BitVec.extractLsb'_append_eq_right,
     BitVec.extractLsb'_append_eq_right⟩

theorem FmtM.toLow_ofLow (w : BitVec 42) : (FmtM.ofLow w).toLow = w := by
  have h : w.extractLsb' 34 8 ++ w.extractLsb' 26 8 ++ w.extractLsb' 10 16 ++ w.extractLsb' 0 10 = w.extractLsb' 0 42 :=
    append_extract 0 (append_extract 10 (append_extract 26 rfl))
  exact h.trans BitVec.extractLsb'_eq_self

theorem FmtM.toLow_eq_iff {d a off m} {w : BitVec 42} :
    FmtM.toLow { d := d, a := a, off := off, m := m } = w ↔
    (FmtM.ofLow w).d = d ∧ (FmtM.ofLow w).a = a ∧ (FmtM.ofLow w).off = off ∧ (FmtM.ofLow w).m = m := by
  constructor
  · rintro rfl
    simp only [FmtM.ofLow_toLow, and_self]
  · rintro ⟨rfl, rfl, rfl, rfl⟩
    exact FmtM.toLow_ofLow w

@[simp] theorem FmtX.ofLow_toLow (x : FmtX) : FmtX.ofLow x.toLow = x := by
  obtain ⟨acc, setv, set, a, b, wait, m⟩ := x
  exact (FmtX.mk.injEq ..).mpr
    ⟨extract_above (by decide) (extract_above (by decide) (extract_above (by decide) (extract_above (by decide)
      (extract_above (by decide) (extract_above (by decide) BitVec.extractLsb'_eq_self))))),
     extract_above (by decide) (extract_above (by decide) (extract_above (by decide) (extract_above (by decide)
       (extract_above (by decide) BitVec.extractLsb'_append_eq_right)))),
     extract_above (by decide) (extract_above (by decide) (extract_above (by decide)
       (extract_above (by decide) BitVec.extractLsb'_append_eq_right))),
     extract_above (by decide) (extract_above (by decide) (extract_above (by decide) BitVec.extractLsb'_append_eq_right)),
     extract_above (by decide) (extract_above (by decide) BitVec.extractLsb'_append_eq_right),
     extract_above (by decide) BitVec.extractLsb'_append_eq_right,
     BitVec.extractLsb'_append_eq_right⟩

theorem FmtX.toLow_ofLow (w : BitVec 42) : (FmtX.ofLow w).toLow = w := by
  have h : w.extractLsb' 38 4 ++ w.extractLsb' 37 1 ++ w.extractLsb' 34 3 ++ w.extractLsb' 26 8 ++ w.extractLsb' 18 8
    ++ w.extractLsb' 10 8 ++ w.extractLsb' 0 10 = w.extractLsb' 0 42 :=
    append_extract 0 (append_extract 10 (append_extract 18 (append_extract 26 (append_extract 34 (append_extract 37 rfl)))))
  exact h.trans BitVec.extractLsb'_eq_self

@[simp] theorem FmtT.ofLow_toLow (x : FmtT) : FmtT.ofLow x.toLow = x := by
  obtain ⟨d, a, b, c, bn, batch, scope⟩ := x
  exact (FmtT.mk.injEq ..).mpr
    ⟨extract_above (by decide) (extract_above (by decide) (extract_above (by decide) (extract_above (by decide)
      (extract_above (by decide) (extract_above (by decide) BitVec.extractLsb'_eq_self))))),
     extract_above (by decide) (extract_above (by decide) (extract_above (by decide) (extract_above (by decide)
       (extract_above (by decide) BitVec.extractLsb'_append_eq_right)))),
     extract_above (by decide) (extract_above (by decide) (extract_above (by decide)
       (extract_above (by decide) BitVec.extractLsb'_append_eq_right))),
     extract_above (by decide) (extract_above (by decide) (extract_above (by decide) BitVec.extractLsb'_append_eq_right)),
     extract_above (by decide) (extract_above (by decide) BitVec.extractLsb'_append_eq_right),
     extract_above (by decide) BitVec.extractLsb'_append_eq_right,
     BitVec.extractLsb'_append_eq_right⟩

theorem FmtT.toLow_ofLow (w : BitVec 42) : (FmtT.ofLow w).toLow = w := by
  have h : w.extractLsb' 34 8 ++ w.extractLsb' 26 8 ++ w.extractLsb' 18 8 ++ w.extractLsb' 10 8 ++ w.extractLsb' 6 4
    ++ w.extractLsb' 2 4 ++ w.extractLsb' 0 2 = w.extractLsb' 0 42 :=
    append_extract 0 (append_extract 2 (append_extract 6 (append_extract 10 (append_extract 18 (append_extract 26 rfl)))))
  exact h.trans BitVec.extractLsb'_eq_self

theorem FmtT.toLow_eq_iff {d a b c bn batch scope} {w : BitVec 42} :
    FmtT.toLow { d := d, a := a, b := b, c := c, bn := bn, batch := batch, scope := scope } = w ↔
    (FmtT.ofLow w).d = d ∧ (FmtT.ofLow w).a = a ∧ (FmtT.ofLow w).b = b ∧ (FmtT.ofLow w).c = c ∧ (FmtT.ofLow w).bn = bn
      ∧ (FmtT.ofLow w).batch = batch ∧ (FmtT.ofLow w).scope = scope := by
  constructor
  · rintro rfl
    simp only [FmtT.ofLow_toLow, and_self]
  · rintro ⟨rfl, rfl, rfl, rfl, rfl, rfl, rfl⟩
    exact FmtT.toLow_ofLow w

@[simp] theorem MA.of_bits (x : MA) : MA.of x.bits = x := by
  obtain ⟨ty, rnd, ovf, lo⟩ := x
  exact (MA.mk.injEq ..).mpr
    ⟨extract_above (by decide) (extract_above (by decide) (extract_above (by decide) BitVec.extractLsb'_eq_self)),
     extract_above (by decide) (extract_above (by decide) BitVec.extractLsb'_append_eq_right),
     extract_above (by decide) BitVec.extractLsb'_append_eq_right,
     BitVec.extractLsb'_append_eq_right⟩

theorem MA.bits_of (w : BitVec 10) : (MA.of w).bits = w := by
  have h : w.extractLsb' 6 4 ++ w.extractLsb' 3 3 ++ w.extractLsb' 1 2 ++ w.extractLsb' 0 1 = w.extractLsb' 0 10 :=
    append_extract 0 (append_extract 1 (append_extract 3 rfl))
  exact h.trans BitVec.extractLsb'_eq_self

theorem MA.eq_bits_iff {ty rnd ovf lo} {w : BitVec 10} :
    w = MA.bits { ty := ty, rnd := rnd, ovf := ovf, lo := lo } ↔
    (MA.of w).ty = ty ∧ (MA.of w).rnd = rnd ∧ (MA.of w).ovf = ovf ∧ (MA.of w).lo = lo := by
  constructor
  · rintro rfl
    simp only [MA.of_bits, and_self]
  · rintro ⟨rfl, rfl, rfl, rfl⟩
    exact (MA.bits_of w).symm

@[simp] theorem MM.of_bits (x : MM) : MM.of x.bits = x := by
  obtain ⟨size, space, sb, scope, fam1, fam0⟩ := x
  exact (MM.mk.injEq ..).mpr
    ⟨extract_above (by decide) (extract_above (by decide) (extract_above (by decide) (extract_above (by decide)
      (extract_above (by decide) BitVec.extractLsb'_eq_self)))),
     extract_above (by decide) (extract_above (by decide) (extract_above (by decide)
       (extract_above (by decide) BitVec.extractLsb'_append_eq_right))),
     extract_above (by decide) (extract_above (by decide) (extract_above (by decide) BitVec.extractLsb'_append_eq_right)),
     extract_above (by decide) (extract_above (by decide) BitVec.extractLsb'_append_eq_right),
     extract_above (by decide) BitVec.extractLsb'_append_eq_right,
     BitVec.extractLsb'_append_eq_right⟩

theorem MM.bits_of (w : BitVec 10) : (MM.of w).bits = w := by
  have h : w.extractLsb' 7 3 ++ w.extractLsb' 5 2 ++ w.extractLsb' 4 1 ++ w.extractLsb' 2 2 ++ w.extractLsb' 1 1
    ++ w.extractLsb' 0 1 = w.extractLsb' 0 10 :=
    append_extract 0 (append_extract 1 (append_extract 2 (append_extract 4 (append_extract 5 rfl))))
  exact h.trans BitVec.extractLsb'_eq_self

theorem MM.eq_bits_iff {size space sb scope fam1 fam0} {w : BitVec 10} :
    w = MM.bits { size := size, space := space, sb := sb, scope := scope, fam1 := fam1, fam0 := fam0 } ↔
    (MM.of w).size = size ∧ (MM.of w).space = space ∧ (MM.of w).sb = sb ∧ (MM.of w).scope = scope ∧ (MM.of w).fam1 = fam1
      ∧ (MM.of w).fam0 = fam0 := by
  constructor
  · rintro rfl
    simp only [MM.of_bits, and_self]
  · rintro ⟨rfl, rfl, rfl, rfl, rfl, rfl⟩
    exact (MM.bits_of w).symm

@[simp] theorem MX.of_bits (x : MX) : MX.of x.bits = x := by
  obtain ⟨kind, asg, bsg, af16, bf16, sat, rsv⟩ := x
  exact (MX.mk.injEq ..).mpr
    ⟨extract_above (by decide) (extract_above (by decide) (extract_above (by decide) (extract_above (by decide)
      (extract_above (by decide) (extract_above (by decide) BitVec.extractLsb'_eq_self))))),
     extract_above (by decide) (extract_above (by decide) (extract_above (by decide) (extract_above (by decide)
       (extract_above (by decide) BitVec.extractLsb'_append_eq_right)))),
     extract_above (by decide) (extract_above (by decide) (extract_above (by decide)
       (extract_above (by decide) BitVec.extractLsb'_append_eq_right))),
     extract_above (by decide) (extract_above (by decide) (extract_above (by decide) BitVec.extractLsb'_append_eq_right)),
     extract_above (by decide) (extract_above (by decide) BitVec.extractLsb'_append_eq_right),
     extract_above (by decide) BitVec.extractLsb'_append_eq_right,
     BitVec.extractLsb'_append_eq_right⟩

theorem MX.bits_of (w : BitVec 10) : (MX.of w).bits = w := by
  have h : w.extractLsb' 8 2 ++ w.extractLsb' 7 1 ++ w.extractLsb' 6 1 ++ w.extractLsb' 5 1 ++ w.extractLsb' 4 1
    ++ w.extractLsb' 3 1 ++ w.extractLsb' 0 3 = w.extractLsb' 0 10 :=
    append_extract 0 (append_extract 3 (append_extract 4 (append_extract 5 (append_extract 6 (append_extract 7 rfl)))))
  exact h.trans BitVec.extractLsb'_eq_self

theorem MX.eq_bits_iff {kind asg bsg af16 bf16 sat rsv} {w : BitVec 10} :
    w = MX.bits { kind := kind, asg := asg, bsg := bsg, af16 := af16, bf16 := bf16, sat := sat, rsv := rsv } ↔
    (MX.of w).kind = kind ∧ (MX.of w).asg = asg ∧ (MX.of w).bsg = bsg ∧ (MX.of w).af16 = af16 ∧ (MX.of w).bf16 = bf16
      ∧ (MX.of w).sat = sat ∧ (MX.of w).rsv = rsv := by
  constructor
  · rintro rfl
    simp only [MX.of_bits, and_self]
  · rintro ⟨rfl, rfl, rfl, rfl, rfl, rfl, rfl⟩
    exact (MX.bits_of w).symm

@[simp] theorem MT.of_bits (x : MT) : MT.of x.bits = x := by
  obtain ⟨ty, order, scope, rsv⟩ := x
  exact (MT.mk.injEq ..).mpr
    ⟨extract_above (by decide) (extract_above (by decide) (extract_above (by decide) BitVec.extractLsb'_eq_self)),
     extract_above (by decide) (extract_above (by decide) BitVec.extractLsb'_append_eq_right),
     extract_above (by decide) BitVec.extractLsb'_append_eq_right,
     BitVec.extractLsb'_append_eq_right⟩

theorem MT.bits_of (w : BitVec 10) : (MT.of w).bits = w := by
  have h : w.extractLsb' 6 4 ++ w.extractLsb' 3 3 ++ w.extractLsb' 1 2 ++ w.extractLsb' 0 1 = w.extractLsb' 0 10 :=
    append_extract 0 (append_extract 1 (append_extract 3 rfl))
  exact h.trans BitVec.extractLsb'_eq_self

theorem MT.eq_bits_iff {ty order scope rsv} {w : BitVec 10} :
    w = MT.bits { ty := ty, order := order, scope := scope, rsv := rsv } ↔
    (MT.of w).ty = ty ∧ (MT.of w).order = order ∧ (MT.of w).scope = scope ∧ (MT.of w).rsv = rsv := by
  constructor
  · rintro rfl
    simp only [MT.of_bits, and_self]
  · rintro ⟨rfl, rfl, rfl, rfl⟩
    exact (MT.bits_of w).symm

@[simp] theorem MB.of_bits (x : MB) : MB.of x.bits = x := by
  obtain ⟨rsv, b1, b0⟩ := x
  exact (MB.mk.injEq ..).mpr
    ⟨extract_above (by decide) (extract_above (by decide) BitVec.extractLsb'_eq_self),
     extract_above (by decide) BitVec.extractLsb'_append_eq_right,
     BitVec.extractLsb'_append_eq_right⟩

theorem MB.bits_of (w : BitVec 10) : (MB.of w).bits = w := by
  have h : w.extractLsb' 2 8 ++ w.extractLsb' 1 1 ++ w.extractLsb' 0 1 = w.extractLsb' 0 10 :=
    append_extract 0 (append_extract 1 rfl)
  exact h.trans BitVec.extractLsb'_eq_self

theorem MB.eq_bits_iff {rsv b1 b0} {w : BitVec 10} :
    w = MB.bits { rsv := rsv, b1 := b1, b0 := b0 } ↔
    (MB.of w).rsv = rsv ∧ (MB.of w).b1 = b1 ∧ (MB.of w).b0 = b0 := by
  constructor
  · rintro rfl
    simp only [MB.of_bits, and_self]
  · rintro ⟨rfl, rfl, rfl⟩
    exact (MB.bits_of w).symm

@[simp] theorem MD.of_bits (x : MD) : MD.of x.bits = x := by
  obtain ⟨asg, bsg, rsv, sat⟩ := x
  exact (MD.mk.injEq ..).mpr
    ⟨extract_above (by decide) (extract_above (by decide) (extract_above (by decide) BitVec.extractLsb'_eq_self)),
     extract_above (by decide) (extract_above (by decide) BitVec.extractLsb'_append_eq_right),
     extract_above (by decide) BitVec.extractLsb'_append_eq_right,
     BitVec.extractLsb'_append_eq_right⟩

theorem MD.bits_of (w : BitVec 10) : (MD.of w).bits = w := by
  have h : w.extractLsb' 9 1 ++ w.extractLsb' 8 1 ++ w.extractLsb' 1 7 ++ w.extractLsb' 0 1 = w.extractLsb' 0 10 :=
    append_extract 0 (append_extract 1 (append_extract 8 rfl))
  exact h.trans BitVec.extractLsb'_eq_self

theorem MD.eq_bits_iff {asg bsg rsv sat} {w : BitVec 10} :
    w = MD.bits { asg := asg, bsg := bsg, rsv := rsv, sat := sat } ↔
    (MD.of w).asg = asg ∧ (MD.of w).bsg = bsg ∧ (MD.of w).rsv = rsv ∧ (MD.of w).sat = sat := by
  constructor
  · rintro rfl
    simp only [MD.of_bits, and_self]
  · rintro ⟨rfl, rfl, rfl, rfl⟩
    exact (MD.bits_of w).symm

@[simp] theorem CB.of_bits (x : CB) : CB.of x.bits = x := by
  obtain ⟨rsv, b1, b0⟩ := x
  exact (CB.mk.injEq ..).mpr
    ⟨extract_above (by decide) (extract_above (by decide) BitVec.extractLsb'_eq_self),
     extract_above (by decide) BitVec.extractLsb'_append_eq_right,
     BitVec.extractLsb'_append_eq_right⟩

theorem CB.bits_of (w : Reg) : (CB.of w).bits = w := by
  have h : w.extractLsb' 2 6 ++ w.extractLsb' 1 1 ++ w.extractLsb' 0 1 = w.extractLsb' 0 8 :=
    append_extract 0 (append_extract 1 rfl)
  exact h.trans BitVec.extractLsb'_eq_self

theorem CB.eq_bits_iff {rsv b1 b0} {w : Reg} :
    w = CB.bits { rsv := rsv, b1 := b1, b0 := b0 } ↔
    (CB.of w).rsv = rsv ∧ (CB.of w).b1 = b1 ∧ (CB.of w).b0 = b0 := by
  constructor
  · rintro rfl
    simp only [CB.of_bits, and_self]
  · rintro ⟨rfl, rfl, rfl⟩
    exact (CB.bits_of w).symm

@[simp] theorem CvtC.of_bits (x : CvtC) : CvtC.of x.bits = x := by
  obtain ⟨rsv, sc, s⟩ := x
  exact (CvtC.mk.injEq ..).mpr
    ⟨extract_above (by decide) (extract_above (by decide) BitVec.extractLsb'_eq_self),
     extract_above (by decide) BitVec.extractLsb'_append_eq_right,
     BitVec.extractLsb'_append_eq_right⟩

theorem CvtC.bits_of (w : Reg) : (CvtC.of w).bits = w := by
  have h : w.extractLsb' 5 3 ++ w.extractLsb' 4 1 ++ w.extractLsb' 0 4 = w.extractLsb' 0 8 :=
    append_extract 0 (append_extract 4 rfl)
  exact h.trans BitVec.extractLsb'_eq_self

theorem CvtC.eq_bits_iff {rsv sc s} {w : Reg} :
    w = CvtC.bits { rsv := rsv, sc := sc, s := s } ↔
    (CvtC.of w).rsv = rsv ∧ (CvtC.of w).sc = sc ∧ (CvtC.of w).s = s := by
  constructor
  · rintro rfl
    simp only [CvtC.of_bits, and_self]
  · rintro ⟨rfl, rfl, rfl⟩
    exact (CvtC.bits_of w).symm

end Sys2Proof.Claims
end

section
/-! SUPPORT. Codes: each table of codes reads back what it writes, and the small fields of several codes (R91 to R97). -/

namespace Sys2Proof.Claims
open Sys2Proof

/-! These theorems are checked one at a time: the kernel's evaluations for them, side by side, would take the memory that the whole
text has. -/
set_option Elab.async false

theorem ITy.ofCode_eq_some_iff {n : BitVec 4} {t : ITy} : ITy.ofCode n = some t ↔ n = t.code := by
  constructor
  · unfold ITy.ofCode
    split <;> intro h <;> cases h
    all_goals exact BitVec.eq_of_toNat_eq ‹_›
  · rintro rfl
    cases t <;> rfl

theorem WTy.ofCode_eq_some_iff {n : BitVec 4} {t : WTy} : WTy.ofCode n = some t ↔ n = t.code := by
  constructor
  · unfold WTy.ofCode
    split <;> intro h <;> cases h
    all_goals exact BitVec.eq_of_toNat_eq ‹_›
  · rintro rfl
    cases t <;> rfl

theorem FTy.ofCode_eq_some_iff {n : BitVec 4} {t : FTy} : FTy.ofCode n = some t ↔ n = t.code := by
  constructor
  · unfold FTy.ofCode
    split <;> intro h <;> cases h
    all_goals exact BitVec.eq_of_toNat_eq ‹_›
  · rintro rfl
    cases t <;> rfl

theorem PTy.ofCode_eq_some_iff {n : BitVec 4} {t : PTy} : PTy.ofCode n = some t ↔ n = t.code := by
  constructor
  · unfold PTy.ofCode
    split <;> intro h <;> cases h
    all_goals exact BitVec.eq_of_toNat_eq ‹_›
  · rintro rfl
    cases t <;> rfl

theorem CTy.ofCode_eq_some_iff {n : BitVec 4} {t : CTy} : CTy.ofCode n = some t ↔ n = t.code := by
  constructor
  · unfold CTy.ofCode
    split <;> intro h <;> cases h
    all_goals exact BitVec.eq_of_toNat_eq ‹_›
  · rintro rfl
    cases t <;> rfl

theorem KTy.ofCode_eq_some_iff {n : BitVec 4} {t : KTy} : KTy.ofCode n = some t ↔ n = t.code := by
  constructor
  · unfold KTy.ofCode
    split <;> intro h <;> cases h
    all_goals exact BitVec.eq_of_toNat_eq ‹_›
  · rintro rfl
    cases t <;> rfl

theorem DTy.ofCode_eq_some_iff {n : BitVec 4} {t : DTy} : DTy.ofCode n = some t ↔ n = t.code := by
  constructor
  · unfold DTy.ofCode
    split <;> intro h <;> cases h
    all_goals exact BitVec.eq_of_toNat_eq ‹_›
  · rintro rfl
    cases t <;> rfl

theorem RTy.ofCode_eq_some_iff {n : BitVec 4} {t : RTy} : RTy.ofCode n = some t ↔ n = t.code := by
  constructor
  · unfold RTy.ofCode
    split <;> intro h <;> cases h
    all_goals exact BitVec.eq_of_toNat_eq ‹_›
  · rintro rfl
    cases t <;> rfl

theorem ATy.ofCode_eq_some_iff {n : BitVec 4} {t : ATy} : ATy.ofCode n = some t ↔ n = t.code := by
  constructor
  · unfold ATy.ofCode
    split <;> intro h <;> cases h
    all_goals exact BitVec.eq_of_toNat_eq ‹_›
  · rintro rfl
    cases t <;> rfl

theorem Rnd.ofCode_eq_some_iff {n : BitVec 3} {t : Rnd} : Rnd.ofCode n = some t ↔ n = t.code := by
  constructor
  · unfold Rnd.ofCode
    split <;> intro h <;> cases h
    all_goals exact BitVec.eq_of_toNat_eq ‹_›
  · rintro rfl
    cases t <;> rfl

theorem Ovf.ofCode_eq_some_iff {n : BitVec 2} {t : Ovf} : Ovf.ofCode n = some t ↔ n = t.code := by
  constructor
  · unfold Ovf.ofCode
    split <;> intro h <;> cases h
    all_goals exact BitVec.eq_of_toNat_eq ‹_›
  · rintro rfl
    cases t <;> rfl

theorem IRel.ofCode_eq_some_iff {n : BitVec 4} {t : IRel} : IRel.ofCode n = some t ↔ n = t.code := by
  constructor
  · unfold IRel.ofCode
    split <;> intro h <;> cases h
    all_goals exact BitVec.eq_of_toNat_eq ‹_›
  · rintro rfl
    cases t <;> rfl

theorem FRel.ofCode_eq_some_iff {n : BitVec 4} {t : FRel} : FRel.ofCode n = some t ↔ n = t.code := by
  constructor
  · unfold FRel.ofCode
    split <;> intro h <;> cases h
    all_goals exact BitVec.eq_of_toNat_eq ‹_›
  · rintro rfl
    cases t <;> rfl

theorem POp.ofCode_eq_some_iff {n : BitVec 4} {t : POp} : POp.ofCode n = some t ↔ n = t.code := by
  constructor
  · unfold POp.ofCode
    split <;> intro h <;> cases h
    all_goals exact BitVec.eq_of_toNat_eq ‹_›
  · rintro rfl
    cases t <;> rfl

theorem VoteOp.ofCode_eq_some_iff {n : BitVec 4} {t : VoteOp} : VoteOp.ofCode n = some t ↔ n = t.code := by
  constructor
  · unfold VoteOp.ofCode
    split <;> intro h <;> cases h
    all_goals exact BitVec.eq_of_toNat_eq ‹_›
  · rintro rfl
    cases t <;> rfl

theorem ShflOp.ofCode_eq_some_iff {n : BitVec 4} {t : ShflOp} : ShflOp.ofCode n = some t ↔ n = t.code := by
  constructor
  · unfold ShflOp.ofCode
    split <;> intro h <;> cases h
    all_goals exact BitVec.eq_of_toNat_eq ‹_›
  · rintro rfl
    cases t <;> rfl

theorem ReduxOp.ofCode_eq_some_iff {n : BitVec 4} {t : ReduxOp} : ReduxOp.ofCode n = some t ↔ n = t.code := by
  constructor
  · unfold ReduxOp.ofCode
    split <;> intro h <;> cases h
    all_goals exact BitVec.eq_of_toNat_eq ‹_›
  · rintro rfl
    cases t <;> rfl

theorem AOp.ofCode_eq_some_iff {n : BitVec 4} {t : AOp} : AOp.ofCode n = some t ↔ n = t.code := by
  constructor
  · unfold AOp.ofCode
    split <;> intro h <;> cases h
    all_goals exact BitVec.eq_of_toNat_eq ‹_›
  · rintro rfl
    cases t <;> rfl

theorem RedOp.ofCode_eq_some_iff {n : BitVec 4} {t : RedOp} : RedOp.ofCode n = some t ↔ n = t.code := by
  constructor
  · unfold RedOp.ofCode
    split <;> intro h <;> cases h
    all_goals exact BitVec.eq_of_toNat_eq ‹_›
  · rintro rfl
    cases t <;> rfl

theorem Order.ofCode_eq_some_iff {n : BitVec 3} {t : Order} : Order.ofCode n = some t ↔ n = t.code := by
  constructor
  · unfold Order.ofCode
    split <;> intro h <;> cases h
    all_goals exact BitVec.eq_of_toNat_eq ‹_›
  · rintro rfl
    cases t <;> rfl

theorem RedOrder.ofCode_eq_some_iff {n : BitVec 3} {t : RedOrder} : RedOrder.ofCode n = some t ↔ n = t.code := by
  constructor
  · unfold RedOrder.ofCode
    split <;> intro h <;> cases h
    all_goals exact BitVec.eq_of_toNat_eq ‹_›
  · rintro rfl
    cases t <;> rfl

theorem Scope.ofCode_eq_some_iff {n : BitVec 2} {t : Scope} : Scope.ofCode n = some t ↔ n = t.code := by
  constructor
  · unfold Scope.ofCode
    split <;> intro h <;> cases h
    all_goals exact BitVec.eq_of_toNat_eq ‹_›
  · rintro rfl
    cases t <;> rfl

theorem MSize.ofCode_eq_some_iff {n : BitVec 3} {t : MSize} : MSize.ofCode n = some t ↔ n = t.code := by
  constructor
  · unfold MSize.ofCode
    split <;> intro h <;> cases h
    all_goals exact BitVec.eq_of_toNat_eq ‹_›
  · rintro rfl
    cases t <;> rfl

theorem Space.ofCode_eq_some_iff {n : BitVec 2} {t : Space} : Space.ofCode n = some t ↔ n = t.code := by
  constructor
  · unfold Space.ofCode
    split <;> intro h <;> cases h
    all_goals exact BitVec.eq_of_toNat_eq ‹_›
  · rintro rfl
    cases t <;> rfl

theorem MKind.ofCode_eq_some_iff {n : BitVec 2} {t : MKind} : MKind.ofCode n = some t ↔ n = t.code := by
  constructor
  · unfold MKind.ofCode
    split <;> intro h <;> cases h
    all_goals exact BitVec.eq_of_toNat_eq ‹_›
  · rintro rfl
    cases t <;> rfl

theorem SReg.ofCode_eq_some_iff {n : BitVec 8} {t : SReg} : SReg.ofCode n = some t ↔ n = t.code := by
  constructor
  · unfold SReg.ofCode
    split <;> intro h <;> cases h
    all_goals exact BitVec.eq_of_toNat_eq ‹_›
  · rintro rfl
    cases t <;> rfl

theorem CReg.ofCode_eq_some_iff {n : BitVec 16} {t : CReg} : CReg.ofCode n = some t ↔ n = t.code := by
  constructor
  · unfold CReg.ofCode
    split <;> intro h <;> cases h
    all_goals exact BitVec.eq_of_toNat_eq ‹_›
  · rintro rfl
    cases t <;> rfl

theorem need_eq_some_iff {α : Type} {ok : Bool} {x : Option α} {y : α} : need ok x = some y ↔ ok = true ∧ x = some y := by
  unfold need
  split <;> simp_all

theorem flag_bit (b : Bool) : flag (bit b) = b := by cases b <;> rfl

theorem bit_flag (b : BitVec 1) : bit (flag b) = b := by
  revert b
  decide

theorem flag_eq_iff {b : BitVec 1} {x : Bool} : flag b = x ↔ b = bit x :=
  ⟨fun h => h ▸ (bit_flag b).symm, fun h => h ▸ flag_bit x⟩

theorem flag_eq_true {b : BitVec 1} : flag b = true ↔ b = 1 := flag_eq_iff

theorem XCtl.ofFmt_toFmt (x : XCtl) (a b : Reg) (m : BitVec 10) : XCtl.ofFmt (x.toFmt a b m) = some x := by
  obtain ⟨acc, set, wait⟩ := x
  cases set <;> rfl

theorem XCtl.toFmt_a (x : XCtl) (a b : Reg) (m : BitVec 10) : (x.toFmt a b m).a = a := by
  unfold XCtl.toFmt
  split <;> rfl
theorem XCtl.toFmt_b (x : XCtl) (a b : Reg) (m : BitVec 10) : (x.toFmt a b m).b = b := by
  unfold XCtl.toFmt
  split <;> rfl
theorem XCtl.toFmt_m (x : XCtl) (a b : Reg) (m : BitVec 10) : (x.toFmt a b m).m = m := by
  unfold XCtl.toFmt
  split <;> rfl

theorem XCtl.toFmt_of_ofFmt {f : FmtX} {x : XCtl} (h : XCtl.ofFmt f = some x) : x.toFmt f.a f.b f.m = f := by
  unfold XCtl.ofFmt at h
  split at h
  · next hs =>
    cases h
    rw [flag_eq_true] at hs
    simp only [XCtl.toFmt, ← hs]
  · next hs =>
    obtain ⟨h0, he⟩ := need_eq_some_iff.mp h
    cases he
    have hv : f.setv = bit false := flag_eq_iff.mp (Bool.not_eq_true _ ▸ hs)
    have h1 : f.set = 0 := eq_of_beq h0
    obtain ⟨acc, setv, set, a, b, wait, m⟩ := f
    cases hv
    cases h1
    rfl

theorem MMods.ofBits_eq_some_iff {m : BitVec 10} {x : MMods} : MMods.ofBits m = some x ↔ m = x.bits := by
  obtain ⟨k, asg, bsg, af, bf, sat⟩ := x
  unfold MMods.ofBits MMods.bits
  rw [MX.eq_bits_iff]
  simp only [← MKind.ofCode_eq_some_iff]
  cases hk : MKind.ofCode (MX.of m).kind with
  | none => simp
  | some k' => simp only [need_eq_some_iff, Option.some.injEq, MMods.mk.injEq, flag_eq_iff, beq_iff_eq]; tauto

theorem bnOf_eq_some_iff {nob : Bool} {bn : BitVec 4} {y : Option (BitVec 4)} :
    bnOf nob bn = some y ↔ nob = nobBit y ∧ bn = bnBits y := by
  cases nob <;> cases y <;> simp [bnOf, need_eq_some_iff, nobBit, bnBits]

theorem cvtScale_eq_some_iff {sc : Bool} {b : Reg} {y : Option Reg} :
    cvtScale sc b = some y ↔ sc = y.isSome ∧ b = y.getD 0 := by
  cases sc <;> cases y <;> simp [cvtScale, need_eq_some_iff]

theorem extract_shflBits (t : BitVec 4) (i : BitVec 1) (n : BitVec 5) : (t ++ i ++ n).extractLsb' 6 4 = t
    ∧ (t ++ i ++ n).extractLsb' 5 1 = i ∧ (t ++ i ++ n).extractLsb' 0 5 = n :=
  ⟨extract_above (by decide) (extract_above (by decide) BitVec.extractLsb'_eq_self),
   extract_above (by decide) BitVec.extractLsb'_append_eq_right, BitVec.extractLsb'_append_eq_right⟩

theorem shflBits_extract (m : BitVec 10) : m.extractLsb' 6 4 ++ m.extractLsb' 5 1 ++ m.extractLsb' 0 5 = m := by
  have h : m.extractLsb' 6 4 ++ m.extractLsb' 5 1 ++ m.extractLsb' 0 5 = m.extractLsb' 0 10 :=
    append_extract 0 (append_extract 5 rfl)
  exact h.trans BitVec.extractLsb'_eq_self

theorem ShflSel.m_reg (b : Reg) : (ShflSel.reg b).m = (0 : BitVec 4) ++ (0 : BitVec 1) ++ (0 : BitVec 5) :=
  (by decide : (0 : BitVec 10) = (0 : BitVec 4) ++ (0 : BitVec 1) ++ (0 : BitVec 5))

theorem ShflSel.of_b_m (x : ShflSel) : ShflSel.of x.b x.m = some x := by
  unfold ShflSel.of
  cases x with
  | reg b =>
    simp [ShflSel.m, need, ShflSel.b]
  | imm n =>
    obtain ⟨h0, h1, h2⟩ := extract_shflBits 0 1 n
    simp only [ShflSel.m, ShflSel.b, h0, h1, h2]
    rfl

theorem ShflSel.eq_b_m_of {b : Reg} {m : BitVec 10} {x : ShflSel} (h : ShflSel.of b m = some x) : b = x.b ∧ m = x.m := by
  unfold ShflSel.of at h
  have hm := shflBits_extract m
  split at h
  · cases h
  next h0 =>
  rw [Bool.not_eq_true, bne_eq_false_iff_eq] at h0
  split at h <;> rw [need_eq_some_iff, beq_iff_eq] at h <;> obtain ⟨hb, hx⟩ := h <;> cases hx
  · next h1 =>
    rw [h0, eq_of_beq h1] at hm
    exact ⟨hb, hm.symm⟩
  · next h1 =>
    have h1 : m.extractLsb' 5 1 = 0 := by
      have : ∀ b : BitVec 1, ¬ (b == 1) = true → b = 0 := by decide
      exact this _ h1
    rw [h0, h1, hb] at hm
    exact ⟨rfl, ((ShflSel.m_reg b).trans hm).symm⟩

theorem ShflSel.of_eq_some_iff {b : Reg} {m : BitVec 10} {x : ShflSel} : ShflSel.of b m = some x ↔ b = x.b ∧ m = x.m :=
  ⟨ShflSel.eq_b_m_of, fun ⟨hb, hm⟩ => hb ▸ hm ▸ ShflSel.of_b_m x⟩

theorem frame_eq_toWord_iff {f : Fields} {op : BitVec 8} {sub : BitVec 4} {c : Ctl} {low : BitVec 42} :
    frame op sub c low = f.toWord ↔ f.op.toNat = op.toNat ∧ f.sub.toNat = sub.toNat ∧ Ctl.of f = c ∧ low = f.low := by
  unfold frame
  constructor
  · intro h
    have h' := congrArg Fields.ofWord h
    rw [Fields.ofWord_toWord, Fields.ofWord_toWord] at h'
    rw [← h']
    exact ⟨rfl, rfl, by simp only [Ctl.of, flag_bit], rfl⟩
  · rintro ⟨ho, hs, rfl, rfl⟩
    rw [← BitVec.eq_of_toNat_eq ho, ← BitVec.eq_of_toNat_eq hs]
    simp only [Ctl.of, bit_flag]

theorem FmtX.toLow_toFmt_iff {x : XCtl} {a b : Reg} {m : BitVec 10} {low : BitVec 42} : (x.toFmt a b m).toLow = low ↔
    XCtl.ofFmt (FmtX.ofLow low) = some x ∧ (FmtX.ofLow low).a = a ∧ (FmtX.ofLow low).b = b ∧ (FmtX.ofLow low).m = m := by
  constructor
  · rintro rfl
    rw [FmtX.ofLow_toLow]
    exact ⟨XCtl.ofFmt_toFmt .., XCtl.toFmt_a .., XCtl.toFmt_b .., XCtl.toFmt_m ..⟩
  · rintro ⟨h, rfl, rfl, rfl⟩
    rw [XCtl.toFmt_of_ofFmt h, FmtX.toLow_ofLow]

theorem bit_cases (b : BitVec 1) : b = 0 ∨ b = 1 := by
  revert b
  decide

theorem MB.eq_zero_iff {m : BitVec 10} : m = 0 ↔ (MB.of m).rsv = 0 ∧ (MB.of m).b1 = 0 ∧ (MB.of m).b0 = 0 :=
  MB.eq_bits_iff (rsv := 0) (b1 := 0) (b0 := 0)

theorem MB.of_zero : MB.of 0#10 = { rsv := 0, b1 := 0, b0 := 0 } := by decide

theorem flag_zero : flag 0#1 = false := rfl
theorem flag_one : flag 1#1 = true := rfl

theorem Scope.code_inj {x y : Scope} : x.code = y.code ↔ x = y :=
  Scope.ofCode_eq_some_iff.symm.trans ((Scope.ofCode_eq_some_iff.mpr rfl : Scope.ofCode x.code = some x) ▸ Option.some_inj)

end Sys2Proof.Claims
end

section
/-! SUPPORT. Rows: each row of the opcode map, from a word to its instruction and back (R96, R97). -/

namespace Sys2Proof.Claims
open Sys2Proof

/-! These theorems are checked one at a time: the kernel's evaluations for them, side by side, would take the memory that the whole
text has. -/
set_option Elab.async false

theorem encode_of_decodeControl (f : Fields) (i : Instr) : decodeControl f (Ctl.of f) = some i → encode i = some f.toWord := by
  revert i
  unfold decodeControl
  split <;> simp only [need_eq_some_iff, Bool.and_eq_true, beq_iff_eq, Option.some.injEq, and_imp,
    reduceCtorEq, false_imp_iff, implies_true]
  all_goals
    intros
    subst_vars
    simp_all [encode, frame_eq_toWord_iff, FmtI.toLow_eq_iff]

theorem encode_of_decodeIntegerLow (f : Fields) (i : Instr) : decodeIntegerLow f (Ctl.of f) = some i →
  encode i = some f.toWord := by
  revert i
  unfold decodeIntegerLow
  split <;> simp only [need_eq_some_iff, Option.bind_eq_some_iff, forall_exists_index, Bool.and_eq_true, beq_iff_eq,
    Option.some.injEq, and_imp,
    reduceCtorEq, false_imp_iff, implies_true, ITy.ofCode_eq_some_iff]
  all_goals
    intros
    subst_vars
    simp_all [encode, frame_eq_toWord_iff, FmtI.toLow_eq_iff, FmtA.toLow_eq_iff, MA.eq_bits_iff, bit_flag]

theorem encode_of_decodeIntegerHigh (f : Fields) (i : Instr) : decodeIntegerHigh f (Ctl.of f) = some i →
  encode i = some f.toWord := by
  revert i
  unfold decodeIntegerHigh
  split <;> simp only [need_eq_some_iff, Option.bind_eq_some_iff, forall_exists_index, Bool.and_eq_true, beq_iff_eq,
    Option.some.injEq, and_imp,
    reduceCtorEq, false_imp_iff, implies_true, ITy.ofCode_eq_some_iff, WTy.ofCode_eq_some_iff, IRel.ofCode_eq_some_iff,
      SReg.ofCode_eq_some_iff]
  all_goals
    intros
    subst_vars
    simp_all [encode, frame_eq_toWord_iff, FmtI.toLow_eq_iff, FmtA.toLow_eq_iff, FmtL.toLow_eq_iff, MA.eq_bits_iff]

theorem encode_of_decodeFloat (f : Fields) (i : Instr) : decodeFloat f (Ctl.of f) = some i → encode i = some f.toWord := by
  revert i
  unfold decodeFloat
  split <;> simp only [need_eq_some_iff, Option.bind_eq_some_iff, forall_exists_index, Bool.and_eq_true, beq_iff_eq,
    Option.some.injEq, and_imp,
    reduceCtorEq, false_imp_iff, implies_true, FTy.ofCode_eq_some_iff, PTy.ofCode_eq_some_iff, Rnd.ofCode_eq_some_iff,
      FRel.ofCode_eq_some_iff]
  all_goals
    intros
    subst_vars
    simp_all [encode, frame_eq_toWord_iff, FmtA.toLow_eq_iff, MA.eq_bits_iff, MD.eq_bits_iff, bit_flag]

theorem encode_of_decodeConvert (f : Fields) (i : Instr) : decodeConvert f (Ctl.of f) = some i → encode i = some f.toWord := by
  revert i
  unfold decodeConvert
  split <;> simp only [need_eq_some_iff, Option.bind_eq_some_iff, forall_exists_index, Bool.and_eq_true, beq_iff_eq,
    Option.some.injEq, and_imp,
    reduceCtorEq, false_imp_iff, implies_true, CTy.ofCode_eq_some_iff, FTy.ofCode_eq_some_iff, KTy.ofCode_eq_some_iff,
      Rnd.ofCode_eq_some_iff, Ovf.ofCode_eq_some_iff, Space.ofCode_eq_some_iff, Scope.ofCode_eq_some_iff, cvtScale_eq_some_iff]
  all_goals
    intros
    subst_vars
    simp_all [encode, frame_eq_toWord_iff, FmtA.toLow_eq_iff, FmtM.toLow_eq_iff, MA.eq_bits_iff, MM.eq_bits_iff,
      CvtC.eq_bits_iff, bit_flag, flag_eq_iff]

theorem encode_of_decodeLane (f : Fields) (i : Instr) : decodeLane f (Ctl.of f) = some i → encode i = some f.toWord := by
  revert i
  unfold decodeLane
  split <;> simp only [need_eq_some_iff, Option.bind_eq_some_iff, forall_exists_index, Bool.and_eq_true, beq_iff_eq,
    Option.some.injEq, and_imp,
    reduceCtorEq, false_imp_iff, implies_true, POp.ofCode_eq_some_iff, VoteOp.ofCode_eq_some_iff, ShflOp.ofCode_eq_some_iff,
      ReduxOp.ofCode_eq_some_iff, RTy.ofCode_eq_some_iff, Rnd.ofCode_eq_some_iff, ShflSel.of_eq_some_iff]
  all_goals
    intros
    subst_vars
    simp_all [encode, frame_eq_toWord_iff, FmtA.toLow_eq_iff, MA.eq_bits_iff, MB.eq_bits_iff, bit_flag]

theorem encode_of_decodeMemory (f : Fields) (i : Instr) : decodeMemory f (Ctl.of f) = some i → encode i = some f.toWord := by
  revert i
  unfold decodeMemory
  split <;> simp only [need_eq_some_iff, Option.bind_eq_some_iff, forall_exists_index, Bool.and_eq_true, beq_iff_eq,
    Option.some.injEq, and_imp,
    reduceCtorEq, false_imp_iff, implies_true, MSize.ofCode_eq_some_iff, Scope.ofCode_eq_some_iff]
  case h_4 | h_5 =>
    intros
    subst_vars
    cases hf : flag (MM.of (FmtM.ofLow f.low).m).fam0 <;>
      simp_all [encode, frame_eq_toWord_iff, FmtM.toLow_eq_iff, MM.eq_bits_iff, flag_eq_iff, bit]
  case h_8 =>
    intro i hd hb hc hr h
    rcases bit_cases (MB.of (FmtA.ofLow f.low).m).b1 with h1 | h1 <;>
      rcases bit_cases (MB.of (FmtA.ofLow f.low).m).b0 with h0 | h0 <;>
      simp [h1, h0, need_eq_some_iff] at h
    · subst h
      simp_all [encode, frame_eq_toWord_iff, FmtA.toLow_eq_iff, MB.eq_zero_iff.mpr ⟨hr, h1, h0⟩]
    · obtain ⟨ha, rfl⟩ := h
      simp_all [encode, frame_eq_toWord_iff, FmtA.toLow_eq_iff, MB.eq_bits_iff]
    · obtain ⟨ha, rfl⟩ := h
      simp_all [encode, frame_eq_toWord_iff, FmtA.toLow_eq_iff, MB.eq_bits_iff]
  all_goals
    intros
    subst_vars
    simp_all [encode, frame_eq_toWord_iff, FmtA.toLow_eq_iff, FmtM.toLow_eq_iff, MM.eq_bits_iff, bit_flag]

theorem encode_of_decodeAtomic (f : Fields) (i : Instr) : decodeAtomic f (Ctl.of f) = some i → encode i = some f.toWord := by
  revert i
  unfold decodeAtomic
  split <;> simp only [need_eq_some_iff, Option.bind_eq_some_iff, forall_exists_index, Bool.and_eq_true, beq_iff_eq,
    Option.some.injEq, and_imp,
    reduceCtorEq, false_imp_iff, implies_true, AOp.ofCode_eq_some_iff, RedOp.ofCode_eq_some_iff, ATy.ofCode_eq_some_iff,
      Order.ofCode_eq_some_iff, RedOrder.ofCode_eq_some_iff, Scope.ofCode_eq_some_iff]
  all_goals
    intros
    subst_vars
    simp_all [encode, frame_eq_toWord_iff, FmtA.toLow_eq_iff, MT.eq_bits_iff]

theorem encode_of_decodeScratch (f : Fields) (i : Instr) : decodeScratch f (Ctl.of f) = some i → encode i = some f.toWord := by
  revert i
  unfold decodeScratch
  split <;> simp only [need_eq_some_iff, Option.bind_eq_some_iff, forall_exists_index, Bool.and_eq_true, beq_iff_eq,
    Option.some.injEq, and_imp,
    reduceCtorEq, false_imp_iff, implies_true, MSize.ofCode_eq_some_iff, Scope.ofCode_eq_some_iff, bnOf_eq_some_iff]
  all_goals
    intros
    subst_vars
    simp_all [encode, frame_eq_toWord_iff, FmtM.toLow_eq_iff, FmtA.toLow_eq_iff, FmtT.toLow_eq_iff, MM.eq_bits_iff,
      CB.eq_bits_iff, bit_flag, flag_eq_iff]

theorem encode_of_decodeMatrix (f : Fields) (i : Instr) : decodeMatrix f (Ctl.of f) = some i → encode i = some f.toWord := by
  revert i
  unfold decodeMatrix
  split <;> simp only [need_eq_some_iff, Option.bind_eq_some_iff, forall_exists_index, Bool.and_eq_true, beq_iff_eq,
    Option.some.injEq, and_imp,
    reduceCtorEq, false_imp_iff, implies_true, DTy.ofCode_eq_some_iff, Rnd.ofCode_eq_some_iff, Ovf.ofCode_eq_some_iff,
      MMods.ofBits_eq_some_iff]
  all_goals
    intros
    subst_vars
    simp_all [encode, frame_eq_toWord_iff, MB.eq_bits_iff, MA.eq_bits_iff, FmtX.toLow_toFmt_iff, bit_flag]

theorem encode_of_decodeSync (f : Fields) (i : Instr) : decodeSync f (Ctl.of f) = some i → encode i = some f.toWord := by
  revert i
  unfold decodeSync
  split <;> simp only [need_eq_some_iff, Option.bind_eq_some_iff, forall_exists_index, Bool.and_eq_true, beq_iff_eq,
    Option.some.injEq, and_imp,
    reduceCtorEq, false_imp_iff, implies_true, Scope.ofCode_eq_some_iff, bnOf_eq_some_iff]
  all_goals
    intros
    subst_vars
    simp_all [encode, frame_eq_toWord_iff, FmtT.toLow_eq_iff, FmtM.toLow_eq_iff, CB.eq_bits_iff, bit_flag, flag_eq_iff]

theorem encode_of_decodeSystem (f : Fields) (i : Instr) : decodeSystem f (Ctl.of f) = some i → encode i = some f.toWord := by
  revert i
  unfold decodeSystem
  split <;> simp only [need_eq_some_iff, Option.bind_eq_some_iff, forall_exists_index, Bool.and_eq_true, beq_iff_eq,
    Option.some.injEq, and_imp,
    reduceCtorEq, false_imp_iff, implies_true, CReg.ofCode_eq_some_iff]
  all_goals
    intros
    subst_vars
    simp_all [encode, frame_eq_toWord_iff, FmtM.toLow_eq_iff, MB.eq_bits_iff, bit_flag]

theorem decodeControl_of_encode (f : Fields) (i : Instr) (h : encode i = some f.toWord) (hg : f.op.toNat / 16 = 0) :
    decodeControl f (Ctl.of f) = some i := by
  cases i
  all_goals
    simp only [encode, Option.some.injEq, frame_eq_toWord_iff, reduceCtorEq, BitVec.ofNat_eq_ofNat, BitVec.reduceToNat] at h
  all_goals obtain ⟨hop, hsub, hc, hl⟩ := h
  all_goals simp only [hop, Nat.reduceDiv, OfNat.ofNat_ne_zero] at hg
  all_goals
    unfold decodeControl
    rw [hop, hsub]
    dsimp only
    simp [hc, ← hl, FmtI.ofLow_toLow, need_eq_some_iff]

theorem decodeIntegerLow_of_encode (f : Fields) (i : Instr) (h : encode i = some f.toWord) (hg : f.op.toNat / 16 = 2) :
    decodeIntegerLow f (Ctl.of f) = some i := by
  cases i
  all_goals
    simp only [encode, Option.some.injEq, frame_eq_toWord_iff, reduceCtorEq, BitVec.ofNat_eq_ofNat, BitVec.reduceToNat] at h
  all_goals obtain ⟨hop, hsub, hc, hl⟩ := h
  all_goals simp only [hop, Nat.reduceDiv, Nat.reduceEqDiff, OfNat.zero_ne_ofNat] at hg
  all_goals
    unfold decodeIntegerLow
    rw [hop, hsub]
    dsimp only
    simp [hc, ← hl, FmtI.ofLow_toLow, FmtA.ofLow_toLow, MA.of_bits, ITy.ofCode_eq_some_iff, flag_bit, need_eq_some_iff,
      Option.bind_eq_some_iff]

theorem decodeIntegerHigh_of_encode (f : Fields) (i : Instr) (h : encode i = some f.toWord) (hg : f.op.toNat / 16 = 3) :
    decodeIntegerHigh f (Ctl.of f) = some i := by
  cases i
  all_goals
    simp only [encode, Option.some.injEq, frame_eq_toWord_iff, reduceCtorEq, BitVec.ofNat_eq_ofNat, BitVec.reduceToNat] at h
  all_goals obtain ⟨hop, hsub, hc, hl⟩ := h
  all_goals simp only [hop, Nat.reduceDiv, Nat.reduceEqDiff, OfNat.zero_ne_ofNat] at hg
  all_goals
    unfold decodeIntegerHigh
    rw [hop, hsub]
    dsimp only
    simp [hc, ← hl, FmtI.ofLow_toLow, FmtA.ofLow_toLow, FmtL.ofLow_toLow, MA.of_bits, ITy.ofCode_eq_some_iff,
      WTy.ofCode_eq_some_iff, IRel.ofCode_eq_some_iff, SReg.ofCode_eq_some_iff, need_eq_some_iff, Option.bind_eq_some_iff]
  all_goals exact BitVec.eq_of_toNat_eq hsub

theorem decodeFloat_of_encode (f : Fields) (i : Instr) (h : encode i = some f.toWord) (hg : f.op.toNat / 16 = 4
  ∨ f.op.toNat / 16 = 5) :
    decodeFloat f (Ctl.of f) = some i := by
  cases i
  all_goals
    simp only [encode, Option.some.injEq, frame_eq_toWord_iff, reduceCtorEq, BitVec.ofNat_eq_ofNat, BitVec.reduceToNat] at h
  all_goals obtain ⟨hop, hsub, hc, hl⟩ := h
  all_goals simp only [hop, Nat.reduceDiv, Nat.reduceEqDiff, OfNat.zero_ne_ofNat, or_self, or_true, true_or] at hg
  all_goals
    unfold decodeFloat
    rw [hop, hsub]
    dsimp only
    simp [hc, ← hl, FmtA.ofLow_toLow, MA.of_bits, MD.of_bits, FTy.ofCode_eq_some_iff, PTy.ofCode_eq_some_iff,
      Rnd.ofCode_eq_some_iff, FRel.ofCode_eq_some_iff, flag_bit, need_eq_some_iff, Option.bind_eq_some_iff]
  all_goals exact BitVec.eq_of_toNat_eq hsub

theorem decodeConvert_of_encode (f : Fields) (i : Instr) (h : encode i = some f.toWord) (hg : f.op.toNat / 16 = 6) :
    decodeConvert f (Ctl.of f) = some i := by
  cases i
  all_goals
    simp only [encode, Option.some.injEq, frame_eq_toWord_iff, reduceCtorEq, BitVec.ofNat_eq_ofNat, BitVec.reduceToNat] at h
  all_goals obtain ⟨hop, hsub, hc, hl⟩ := h
  all_goals simp only [hop, Nat.reduceDiv, Nat.reduceEqDiff, OfNat.zero_ne_ofNat] at hg
  all_goals
    unfold decodeConvert
    rw [hop, hsub]
    dsimp only
    simp [hc, ← hl, FmtA.ofLow_toLow, FmtM.ofLow_toLow, MA.of_bits, MM.of_bits, CvtC.of_bits, CTy.ofCode_eq_some_iff,
      FTy.ofCode_eq_some_iff, KTy.ofCode_eq_some_iff, Rnd.ofCode_eq_some_iff, Ovf.ofCode_eq_some_iff, Space.ofCode_eq_some_iff,
      Scope.ofCode_eq_some_iff, cvtScale_eq_some_iff, flag_bit, need_eq_some_iff, Option.bind_eq_some_iff]

theorem decodeLane_of_encode (f : Fields) (i : Instr) (h : encode i = some f.toWord) (hg : f.op.toNat / 16 = 7) :
    decodeLane f (Ctl.of f) = some i := by
  cases i
  all_goals
    simp only [encode, Option.some.injEq, frame_eq_toWord_iff, reduceCtorEq, BitVec.ofNat_eq_ofNat, BitVec.reduceToNat] at h
  all_goals obtain ⟨hop, hsub, hc, hl⟩ := h
  all_goals simp only [hop, Nat.reduceDiv, Nat.reduceEqDiff, OfNat.zero_ne_ofNat] at hg
  all_goals
    unfold decodeLane
    rw [hop, hsub]
    dsimp only
    simp [hc, ← hl, FmtA.ofLow_toLow, MA.of_bits, MB.of_bits, POp.ofCode_eq_some_iff, VoteOp.ofCode_eq_some_iff,
      ShflOp.ofCode_eq_some_iff, ReduxOp.ofCode_eq_some_iff, RTy.ofCode_eq_some_iff, Rnd.ofCode_eq_some_iff, ShflSel.of_b_m,
      flag_bit, need_eq_some_iff, Option.bind_eq_some_iff]
  all_goals exact BitVec.eq_of_toNat_eq hsub

theorem decodeMemory_of_encode (f : Fields) (i : Instr) (h : encode i = some f.toWord) (hg : f.op.toNat / 16 = 8) :
    decodeMemory f (Ctl.of f) = some i := by
  cases i
  all_goals
    simp only [encode, Option.some.injEq, frame_eq_toWord_iff, reduceCtorEq, BitVec.ofNat_eq_ofNat, BitVec.reduceToNat] at h
  all_goals obtain ⟨hop, hsub, hc, hl⟩ := h
  all_goals simp only [hop, Nat.reduceDiv, Nat.reduceEqDiff, OfNat.zero_ne_ofNat] at hg
  all_goals
    unfold decodeMemory
    rw [hop, hsub]
    dsimp only
    simp [hc, ← hl, FmtA.ofLow_toLow, FmtM.ofLow_toLow, MM.of_bits, MSize.ofCode_eq_some_iff, Scope.ofCode_eq_some_iff,
      MB.of_zero, flag_zero, flag_one, Scope.code_inj, flag_bit, need_eq_some_iff, Option.bind_eq_some_iff]

theorem decodeAtomic_of_encode (f : Fields) (i : Instr) (h : encode i = some f.toWord) (hg : f.op.toNat / 16 = 10) :
    decodeAtomic f (Ctl.of f) = some i := by
  cases i
  all_goals
    simp only [encode, Option.some.injEq, frame_eq_toWord_iff, reduceCtorEq, BitVec.ofNat_eq_ofNat, BitVec.reduceToNat] at h
  all_goals obtain ⟨hop, hsub, hc, hl⟩ := h
  all_goals simp only [hop, Nat.reduceDiv, Nat.reduceEqDiff, OfNat.zero_ne_ofNat] at hg
  all_goals
    unfold decodeAtomic
    rw [hop, hsub]
    dsimp only
    simp [hc, ← hl, FmtA.ofLow_toLow, MT.of_bits, AOp.ofCode_eq_some_iff, RedOp.ofCode_eq_some_iff, ATy.ofCode_eq_some_iff,
      Order.ofCode_eq_some_iff, RedOrder.ofCode_eq_some_iff, Scope.ofCode_eq_some_iff, need_eq_some_iff,
      Option.bind_eq_some_iff]
  all_goals exact BitVec.eq_of_toNat_eq hsub

theorem decodeScratch_of_encode (f : Fields) (i : Instr) (h : encode i = some f.toWord) (hg : f.op.toNat / 16 = 11) :
    decodeScratch f (Ctl.of f) = some i := by
  cases i
  all_goals
    simp only [encode, Option.some.injEq, frame_eq_toWord_iff, reduceCtorEq, BitVec.ofNat_eq_ofNat, BitVec.reduceToNat] at h
  all_goals obtain ⟨hop, hsub, hc, hl⟩ := h
  all_goals simp only [hop, Nat.reduceDiv, Nat.reduceEqDiff, OfNat.zero_ne_ofNat] at hg
  all_goals
    unfold decodeScratch
    rw [hop, hsub]
    dsimp only
    simp [hc, ← hl, FmtM.ofLow_toLow, FmtA.ofLow_toLow, FmtT.ofLow_toLow, MM.of_bits, CB.of_bits, MSize.ofCode_eq_some_iff,
      Scope.ofCode_eq_some_iff, bnOf_eq_some_iff, flag_bit, need_eq_some_iff, Option.bind_eq_some_iff]

theorem decodeMatrix_of_encode (f : Fields) (i : Instr) (h : encode i = some f.toWord) (hg : f.op.toNat / 16 = 12) :
    decodeMatrix f (Ctl.of f) = some i := by
  cases i
  all_goals
    simp only [encode, Option.some.injEq, frame_eq_toWord_iff, reduceCtorEq, BitVec.ofNat_eq_ofNat, BitVec.reduceToNat] at h
  all_goals obtain ⟨hop, hsub, hc, hl⟩ := h
  all_goals simp only [hop, Nat.reduceDiv, Nat.reduceEqDiff, OfNat.zero_ne_ofNat] at hg
  all_goals
    unfold decodeMatrix
    rw [hop, hsub]
    dsimp only
    simp [hc, ← hl, MB.of_bits, MA.of_bits, FmtX.ofLow_toLow, DTy.ofCode_eq_some_iff, Rnd.ofCode_eq_some_iff,
      Ovf.ofCode_eq_some_iff, MMods.ofBits_eq_some_iff, XCtl.ofFmt_toFmt, XCtl.toFmt_a, XCtl.toFmt_b, XCtl.toFmt_m, flag_bit,
      need_eq_some_iff, Option.bind_eq_some_iff]

theorem decodeSync_of_encode (f : Fields) (i : Instr) (h : encode i = some f.toWord) (hg : f.op.toNat / 16 = 13) :
    decodeSync f (Ctl.of f) = some i := by
  cases i
  all_goals
    simp only [encode, Option.some.injEq, frame_eq_toWord_iff, reduceCtorEq, BitVec.ofNat_eq_ofNat, BitVec.reduceToNat] at h
  all_goals obtain ⟨hop, hsub, hc, hl⟩ := h
  all_goals simp only [hop, Nat.reduceDiv, Nat.reduceEqDiff, OfNat.zero_ne_ofNat] at hg
  all_goals
    unfold decodeSync
    rw [hop, hsub]
    dsimp only
    simp [hc, ← hl, FmtT.ofLow_toLow, FmtM.ofLow_toLow, CB.of_bits, Scope.ofCode_eq_some_iff, bnOf_eq_some_iff, flag_bit,
      need_eq_some_iff, Option.bind_eq_some_iff]

theorem decodeSystem_of_encode (f : Fields) (i : Instr) (h : encode i = some f.toWord) (hg : f.op.toNat / 16 = 14) :
    decodeSystem f (Ctl.of f) = some i := by
  cases i
  all_goals
    simp only [encode, Option.some.injEq, frame_eq_toWord_iff, reduceCtorEq, BitVec.ofNat_eq_ofNat, BitVec.reduceToNat] at h
  all_goals obtain ⟨hop, hsub, hc, hl⟩ := h
  all_goals simp only [hop, Nat.reduceDiv, Nat.reduceEqDiff, OfNat.zero_ne_ofNat] at hg
  all_goals
    unfold decodeSystem
    rw [hop, hsub]
    dsimp only
    simp [hc, ← hl, FmtM.ofLow_toLow, MB.of_bits, CReg.ofCode_eq_some_iff, flag_bit, need_eq_some_iff, Option.bind_eq_some_iff]

end Sys2Proof.Claims
end

section
/-! SUPPORT. Encodings: the words of instructions and the instructions of words (R89 to R97). -/

namespace Sys2Proof.Claims
open Sys2Proof

theorem encode_of_decodeFields {f : Fields} {i : Instr} (h : decodeFields f = some i) : encode i = some f.toWord := by
  unfold decodeFields at h
  dsimp only at h
  split at h
  · exact encode_of_decodeControl f i h
  · exact encode_of_decodeIntegerLow f i h
  · exact encode_of_decodeIntegerHigh f i h
  · exact encode_of_decodeFloat f i h
  · exact encode_of_decodeFloat f i h
  · exact encode_of_decodeConvert f i h
  · exact encode_of_decodeLane f i h
  · exact encode_of_decodeMemory f i h
  · exact encode_of_decodeAtomic f i h
  · exact encode_of_decodeScratch f i h
  · exact encode_of_decodeMatrix f i h
  · exact encode_of_decodeSync f i h
  · exact encode_of_decodeSystem f i h
  · cases h

/-- The pages of the opcode map: the top four bits of an op. -/
def opPages : List Nat := [0, 2, 3, 4, 5, 6, 7, 8, 10, 11, 12, 13, 14]

theorem op_of_encode {f : Fields} {i : Instr} (h : encode i = some f.toWord) : f.op.toNat / 16 ∈ opPages := by
  cases i
  all_goals
    simp only [encode, Option.some.injEq, frame_eq_toWord_iff, reduceCtorEq, BitVec.ofNat_eq_ofNat, BitVec.reduceToNat] at h
  all_goals
    rw [h.1]
    decide

theorem decodeFields_of_encode {f : Fields} {i : Instr} (h : encode i = some f.toWord) : decodeFields f = some i := by
  have hp := op_of_encode h
  unfold decodeFields
  dsimp only
  split
  next hg => exact decodeControl_of_encode f i h hg
  next hg => exact decodeIntegerLow_of_encode f i h hg
  next hg => exact decodeIntegerHigh_of_encode f i h hg
  next hg => exact decodeFloat_of_encode f i h (.inl hg)
  next hg => exact decodeFloat_of_encode f i h (.inr hg)
  next hg => exact decodeConvert_of_encode f i h hg
  next hg => exact decodeLane_of_encode f i h hg
  next hg => exact decodeMemory_of_encode f i h hg
  next hg => exact decodeAtomic_of_encode f i h hg
  next hg => exact decodeScratch_of_encode f i h hg
  next hg => exact decodeMatrix_of_encode f i h hg
  next hg => exact decodeSync_of_encode f i h hg
  next hg => exact decodeSystem_of_encode f i h hg
  next => simp_all [opPages]; omega

theorem byte_over_rest (w : W64) (k : Nat) : (w >>> (8 * (k + 1))) <<< 8 ||| (byteOfWord w k).setWidth 64 = w >>> (8 * k) := by
  unfold byteOfWord
  ext j hj
  simp only [BitVec.getElem_or, BitVec.getElem_shiftLeft, BitVec.getElem_ushiftRight, BitVec.getElem_setWidth,
    BitVec.getLsbD_extractLsb']
  by_cases h : j < 8
  · simp [h]
  · simp [h, show 8 * (k + 1) + (j - 8) = 8 * k + j by omega]

theorem foldr_bytes (w : W64) (n : Nat) :
    ((List.range n).map (byteOfWord w)).foldr (fun (b : Byte) (acc : W64) => acc <<< 8 ||| b.setWidth 64) (w >>> (8 * n)) =
      w := by
  induction n with
  | zero => simp
  | succ n ih => rw [List.range_succ, List.map_append, List.foldr_append, List.map_singleton, List.foldr_cons, List.foldr_nil,
      byte_over_rest, ih]

theorem wordOfBytes_bytesOfWord (w : W64) : wordOfBytes (bytesOfWord w) = w := by
  have h := foldr_bytes w 8
  rwa [BitVec.ushiftRight_eq_zero (by decide)] at h

/-- Settles O53: by cases on the instruction one way, along the rows of the opcode map the other. -/
theorem encodingsAgree : Obligations.EncodingsAgree := by
  refine ⟨fun i w hw he => ?_, fun w i hd => ?_, fun w => ?_⟩
  · rw [← Fields.toWord_ofWord w] at he
    unfold decode
    rw [decodeFields_of_encode he, Option.bind_some, hw]
    rfl
  · obtain ⟨j, hj, hn⟩ := Option.bind_eq_some_iff.mp hd
    obtain ⟨hw, hi⟩ := need_eq_some_iff.mp hn
    cases hi
    exact ⟨hw, (encode_of_decodeFields hj).trans (congrArg some (Fields.toWord_ofWord w))⟩
  · unfold decodeTableWord
    rw [Nat.mod_eq_of_lt w.isLt, BitVec.ofNat_toNat, BitVec.setWidth_eq, wordOfBytes_bytesOfWord]

end Sys2Proof.Claims
end

section
/-! SUPPORT. Begin: what beginning a clause leaves of the issuing team and of the units, and float words whose flags are not
enabled (R85, R163). -/

namespace Sys2Proof.Machine
open Sys2Proof Sys2Proof.Claims

/-! ## What beginning a clause leaves of the team and of the units -/

theorem MayIssue.team_begin {s : State} {i : Issuer} {w : OpWord} (h : MayIssue s i w) :
    ∃ t, (s.beginClause i).team? i.b.key = some t ∧ t.rest = i.t.rest := by
  have hr := (State.beginClause_spec h.issuer h.bundle.2).2.2.1 i.b.key
  obtain ⟨-, -, -, ht, -, -⟩ := State.issuer?_spec h.issuer
  rw [ht] at hr
  exact Option.map_eq_some_iff.mp hr

theorem MayIssue.launchOf?_begin {s : State} {i : Issuer} {w : OpWord} (h : MayIssue s i w) (k : TeamKey) :
    (s.beginClause i).launchOf? k = s.launchOf? k := by
  rw [(State.beginClause_spec h.issuer h.bundle.2).2.2.2]
  rfl

theorem MayIssue.launchHas_begin {s : State} {i : Issuer} {w : OpWord} (h : MayIssue s i w) (k : TeamKey) (p : Launch → Bool) :
    (s.beginClause i).launchHas k p = s.launchHas k p := by
  unfold State.launchHas
  rw [h.launchOf?_begin]

theorem MayIssue.scalarOf_begin {s : State} {i : Issuer} {w : OpWord} (h : MayIssue s i w) (wide : Bool) (n : Nat) :
    (s.beginClause i).scalarOf i.b.key wide n =
      if wide then i.t.scalarPair n else (i.t.scalar n).setWidth 64 := by
  obtain ⟨t, ht, hr⟩ := h.team_begin
  have hv : t.visible = i.t.visible := (congrArg Team.visible hr :)
  unfold State.scalarOf
  rw [ht]
  simp only [Team.scalarPair, Team.scalar, hv]

theorem MayIssue.ticks_begin {s : State} {i : Issuer} {w : OpWord} (h : MayIssue s i w) :
    (s.beginClause i).ticks = s.ticks := by
  rw [(State.beginClause_spec h.issuer h.bundle.2).2.2.2]

theorem MayIssue.cycle_begin {s : State} {i : Issuer} {w : OpWord} (h : MayIssue s i w) (core : Nat) :
    (s.beginClause i).cycle core = s.cycle core := by
  rw [(State.beginClause_spec h.issuer h.bundle.2).2.2.2]
  rfl

theorem impure_iff (r : SReg) : SReg.impure r = true ↔ r ∈ runSpecific := by
  cases r <;> decide

/-- The special registers of R173 as a thread reads them. -/
theorem MayIssue.special_begin {s : State} {i : Issuer} {w : OpWord} {l : Launch} {g : Grid} (h : MayIssue s i w)
    (hl : s.launchOf? i.b.key = some l) (hg : s.gridOf i.t = some g) (hid : l.id = i.b.key.launchId) {t : Team}
    (ht : t.rest = i.t.rest) (tid : Nat) (r : SReg) : (s.beginClause i).special t tid r = special s l g i.t tid r := by
  obtain ⟨-, -, -, hteam, -, -⟩ := State.issuer?_spec h.issuer
  have hk : i.t.key = i.b.key := Machine.State.team?_key hteam
  have key : t.key = i.t.key := (congrArg Team.key ht :)
  have desc : t.desc = i.t.desc := (congrArg Team.desc ht :)
  have index : t.index = i.t.index := (congrArg Team.index ht :)
  have core : t.core = i.t.core := (congrArg Team.core ht :)
  have depth : t.depth = i.t.depth := (congrArg Team.depth ht :)
  have swarm : t.swarmIdx = i.t.swarmIdx := (congrArg Team.swarmIdx ht :)
  have grid : (s.beginClause i).gridOf t = some g := by
    rw [← hg]
    unfold State.gridOf
    rw [h.launchOf?_begin, key, show t.grid = i.t.grid from (congrArg Team.grid ht :)]
  unfold State.special special
  simp only [grid, key, desc, index, core, depth, swarm, hk, hid, h.launchOf?_begin, hl]
  cases r
  case time => exact h.ticks_begin
  case clock => exact h.cycle_begin _
  all_goals rfl

theorem Issuer.begin_wide (i : Issuer) (x : Thread) (wide : Bool) (r : Reg) : (i.begin x).wide wide r = x.wide wide r := by
  unfold Thread.wide
  rw [Issuer.begin_pair, Issuer.begin_reg]

theorem wordsOfPair_pair (x : Thread) (r : Nat) : wordsOfPair (x.pair r) = [x.reg r, x.reg (r + 1)] := by
  unfold wordsOfPair Thread.pair
  rw [BitVec.extractLsb'_append_eq_right, BitVec.extractLsb'_append_eq_left]

/-- What a write of a scalar leaves, narrow and wide (R174). -/
theorem Team.writeScalar_wide (u : Team) (x : Thread) (n r : Nat) : u.writeScalar true n (x.pair r) =
    { u with
      pending := sset 0 (sset 0 u.pending n (x.reg r)) (n + 1) (x.reg (r + 1))
      written := ((u.written.filter (· != n)) ++ [n]).filter (· != n + 1) ++ [n + 1] } := by
  unfold Team.writeScalar
  rw [if_pos rfl, wordsOfPair_pair]
  rfl

theorem Team.writeScalar_narrow (u : Team) (v : W32) (n : Nat) : u.writeScalar false n (v.setWidth 64) =
    { u with pending := sset 0 u.pending n v, written := u.written.filter (· != n) ++ [n] } := by
  unfold Team.writeScalar
  simp only [Bool.false_eq_true, if_false, extractLsb'_setWidth_low]
  rfl

/-! ## Words of each thread's own, on the threads they act on -/

/-- A word whose effect is that of each thread's own on the threads it acts on. -/
theorem issue_each_on {s : State} {i : Issuer} {w : OpWord} {n : Instr} (eff : State → Site → Thread → State × Act)
    (f : Thread → Done) (he : exec n s = issue w eff s)
    (heff : MayIssue s i w → ∀ x ∈ i.on w, eff (s.beginClause i) (i.site w) (i.begin x) = (s.beginClause i,
      .done (f (i.begin x))))
    (hf : ∀ x, (f x).plain) : IssuesEach s i w n f := by
  intro h
  obtain ⟨t, ht, hi⟩ := issueWith_each h (fun _ _ _ => false) (fun _ c => c) {} (fun _ _ => none) eff f rfl
    (fun _ _ => rfl) (heff h) hf
  exact ⟨t, he.trans ht, hi⟩

/-- The flags of a float result that its launch does not trap on (R163). -/
theorem State.fpAct_begin {s : State} {i : Issuer} {w : OpWord} (h : MayIssue s i w) {fl : FpFlags}
    (hfl : fl.bits &&& s.fptrap i.b.key = 0) (a : Act) : (s.beginClause i).fpAct (i.site w).key fl a = a := by
  unfold State.fpAct
  rw [show (i.site w).key = i.b.key from rfl, State.fptrap_begin h.issuer h.bundle.2, hfl]
  rfl

/-- A float result of fixed latency. -/
theorem floatFixed_each {s : State} {i : Issuer} {c : Ctl} {reads : List Nat} {d : Reg} {lat : Nat} {n : Instr}
    (f : Thread → Nat × FpFlags) (g : Thread → FRes) (he : exec n s = floatFixed c reads d lat f s)
    (hfg : ∀ x, f x = ((g x).bits, (g x).fl)) (hb : ∀ x, g (i.begin x) = g x)
    (hfl : noFlag s i (vecWord c reads [d.toNat]) fun x => (g x).fl) :
    IssuesEach s i (vecWord c reads [d.toNat]) n fun x => .writes (.reg d.toNat) (BitVec.ofNat 64 (g x).bits) lat := by
  refine issue_each_on _ _ he (fun h x hx => ?_) fun _ => ⟨rfl, rfl⟩
  dsimp only
  rw [hfg, hb, State.fpAct_begin h (hfl x hx)]
  rfl

/-- A float result of variable latency. -/
theorem floatVar_each {s : State} {i : Issuer} {c : Ctl} {a d : Reg} {n : Instr} (f : Nat → FRes)
    (he : exec n s = floatVar c d a f s)
    (hfl : noFlag s i (vecWord c [a.toNat] [d.toNat]) fun x => (f (x.reg a.toNat).toNat).fl) :
    IssuesEach s i (vecWord c [a.toNat] [d.toNat]) n fun x =>
      .brings d [BitVec.ofNat 32 (f (x.reg a.toNat).toNat).bits] .fp := by
  refine issue_each_on _ _ he (fun h x hx => ?_) fun _ => ⟨rfl, rfl⟩
  dsimp only
  rw [Issuer.begin_reg, State.fpAct_begin h (hfl x hx)]
  rfl

end Sys2Proof.Machine
end

section
/-! SUPPORT. Scalars: the moves, the float words, the packed forms and dotts (R172 to R182). -/

namespace Sys2Proof.Claims
open Sys2Proof Sys2Proof.Machine

/-! ## Moves, special registers and team scalars (R172 to R174) -/

/-- Settles O6: the moves are the rule's as they stand, and the scalars and special registers are those of the issuing team. -/
theorem movesAndSpecials : Obligations.MovesAndSpecials := by
  refine ⟨fun s i c d a t imm => ⟨issueFixed_self rfl, issueFixed_self rfl, ?movS⟩,
    fun s i l g c d r hl hg hid hp => ?sread, fun s i x c sd a t h0 => ?swrite⟩
  case movS =>
    refine issue_each_on _ _ rfl (fun h x _ => ?_) fun _ => ⟨rfl, rfl⟩
    exact congrArg (fun v => (_, Act.write (wideDest t.is64 d) v 4)) (h.scalarOf_begin t.is64 a.toNat)
  case sread =>
    refine issue_each_on _ _ rfl (fun h x _ => ?_) fun _ => ⟨rfl, rfl⟩
    obtain ⟨u, hu, hr⟩ := h.team_begin
    have hpure : (SReg.impure r && (s.beginClause i).launchHas (i.site (vecWord c [] (slots r.is64 d))).key (·.pure)) = false := by
      rw [Bool.and_eq_false_iff, or_iff_not_imp_right]
      intro hpure
      rw [Bool.not_eq_false, h.launchHas_begin, State.launchHas, show (i.site _).key = i.b.key from rfl, hl] at hpure
      exact Bool.eq_false_iff.mpr fun hi => hp hpure ((impure_iff r).mp hi)
    rw [show (i.site (vecWord c [] (slots r.is64 d))).key = i.b.key from rfl] at *
    simp only [hpure, hu, h.special_begin hl hg hid hr, Bool.false_eq_true, if_false]
    rfl
  case swrite =>
    refine issueWith_keeps (fun _ _ y => y.tid != 0) {}
      (fun s site y => (s.modTeam site.key (·.writeScalar t.is64 sd.toNat (y.wide t.is64 a)), .nothing)) _ _ rfl
      (fun _ => by simp [h0]) (fun h => ?_) ⟨rfl, rfl⟩ (State.modTeam_keeps (Keeps.refl _) _ _ fun u => ?_)
    · rw [Issuer.begin_wide, Thread.wide]
      cases t.is64
      · simp only [Bool.false_eq_true, if_false, Team.writeScalar_narrow]
        rfl
      · simp only [if_true, Team.writeScalar_wide]
        rfl
    · split <;> rfl

/-! ## Scalar float words (R177 to R180) -/

/-- Settles O7: each word's result is the rule's own, and no flag of it is enabled. -/
theorem floatResults : Obligations.FloatResults := by
  refine ⟨fun s i c d a b e t rnd ftz rel => ⟨fun h => ?_, fun h => ?_, fun h => ?_, fun h => ?_, fun h => ?_, fun h => ?_,
      fun h => ?_, fun h => ?_, fun h => ?cmp, fun h => ?sqrt⟩,
    fun s i c d a ftz => ⟨floatVar_each (approxRcp ftz) rfl, floatVar_each (approxRsq ftz) rfl,
      floatVar_each (approxExp2 ftz) rfl, floatVar_each (approxLog2 ftz) rfl, floatVar_each (approxSinPi ftz) rfl,
      floatVar_each (approxCosPi ftz) rfl⟩⟩
  case cmp =>
    refine issue_each_on _ _ rfl (fun hm x hx => ?_) fun _ => ⟨rfl, rfl⟩
    exact congrArg (Prod.mk _) (State.fpAct_begin hm (by simpa [Thread.flt] using h x hx) _)
  case sqrt => exact floatVar_each (fun v => (fmtOfFTy t).sqrt rnd ftz (v % 2 ^ (fmtOfFTy t).width)) rfl h
  all_goals exact floatFixed_each _ _ rfl (fun _ => rfl) (fun _ => by simp only [Issuer.begin_reg]) h

/-! ## Packed halves and dotts (R177, R182) -/

theorem halfOf_eq_half (x : W32) (k : Nat) : halfOf x k = half x k := by
  unfold halfOf half
  rw [BitVec.extractLsb'_toNat, Nat.shiftRight_eq_div_pow, Nat.pow_mul]

theorem byteAt_eq_byte (x : W32) (k : Nat) : byteAt x k = byte x k := byteAt_eq_toNat x k

/-- A packed result of fixed latency. -/
theorem packed_each {s : State} {i : Issuer} {c : Ctl} {reads : List Nat} {d : Reg} {n : Instr}
    (r : Thread → Nat → FRes) (he : exec n s = floatFixed c reads d 6 (fun x => pairHalves (r x 0) (r x 1)) s)
    (hb : ∀ x, r (i.begin x) = r x)
    (hfl : noFlag s i (vecWord c reads [d.toNat]) fun x => (r x 0).fl.or (r x 1).fl) :
    IssuesEach s i (vecWord c reads [d.toNat]) n fun x =>
      .writes (.reg d.toNat) (BitVec.ofNat 64 ((r x 0).bits + 2 ^ 16 * (r x 1).bits)) 6 :=
  floatFixed_each _ (fun x => { bits := (r x 0).bits + 2 ^ 16 * (r x 1).bits, fl := (r x 0).fl.or (r x 1).fl }) he
    (fun _ => rfl) (fun x => by simp only [hb]) hfl

/-- The product of element k of dotts (R182). -/
def dotProduct (ftz : Bool) (a b : Reg) (x : Thread) (k : Nat) : FRes :=
  productF32 ftz (ts8Read (byte (x.reg a.toNat) k)) (FFmt.bf16.operand ftz (half (x.reg (b.toNat + k / 2)) (k % 2)))

/-- The result of dotts with the flags of its sum and of its products (R182). -/
def dotResult (ftz : Bool) (a b e : Reg) (x : Thread) : FRes :=
  let p := dotProduct ftz a b x
  let r := sumF32 ftz (x.reg e.toNat).toNat [(p 0).bits, (p 1).bits, (p 2).bits, (p 3).bits]
  { bits := r.bits, fl := (((r.fl.or (p 0).fl).or (p 1).fl).or (p 2).fl).or (p 3).fl }

theorem execDotts_eq (c : Ctl) (d a b e : Reg) (ftz : Bool) (s : State) : exec (.dotts c d a b e ftz) s =
    floatFixed c [a.toNat, b.toNat, b.toNat + 1, e.toNat] d 8
      (fun x => ((dotResult ftz a b e x).bits, (dotResult ftz a b e x).fl)) s := by
  unfold dotResult dotProduct
  simp only [← halfOf_eq_half, ← byteAt_eq_byte]
  rfl

theorem dotResult_begin (ftz : Bool) (a b e : Reg) (i : Issuer) (x : Thread) :
    dotResult ftz a b e (i.begin x) = dotResult ftz a b e x := by
  unfold dotResult dotProduct
  simp only [Issuer.begin_reg]

/-- Settles O8: a packed word joins its two results, and dotts adds its four products in the rule's order. -/
theorem packedHalvesAndDots : Obligations.PackedHalvesAndDots := by
  refine ⟨fun s i c d a b e t rnd ftz => ?packed, fun s i c d a b e ftz h => ?dotts⟩
  case packed =>
    refine ⟨packed_each (fun x k => (fmtOfPTy t).add rnd ftz (half (x.reg a.toNat) k) (half (x.reg b.toNat) k)) ?add ?_,
      packed_each (fun x k => (fmtOfPTy t).mul rnd ftz (half (x.reg a.toNat) k) (half (x.reg b.toNat) k)) ?mul ?_,
      packed_each (fun x k => (fmtOfPTy t).fma rnd ftz (half (x.reg a.toNat) k) (half (x.reg b.toNat) k)
        (half (x.reg e.toNat) k)) ?fma ?_⟩
    case add | mul | fma =>
      simp only [← halfOf_eq_half]
      rfl
    all_goals
      intro x
      simp only [Issuer.begin_reg]
  case dotts => exact floatFixed_each _ (dotResult ftz a b e) (execDotts_eq ..) (fun _ => rfl) (dotResult_begin ftz a b e i) h

end Sys2Proof.Claims
end

section
/-! SUPPORT. OneThread: a team of one thread about to issue a word that may name every register,
  and where it stands after the word. -/

namespace Sys2Proof.Machine
open Sys2Proof Sys2Proof.Claims

/-! ## Where a thread stands after a word -/

/-- A thread's PC in the state that a step answers. -/
def pcIn (k : TeamKey) (tid : Nat) (r : Result) : Option Nat :=
  match r with
  | .next t => (t.thread? k tid).map (·.pc)
  | .fault _ => none
  | .refused _ => none

theorem Issued.pc {s t : State} {i : Issuer} {w : OpWord} {reg : Clause → Clause} {acts : List (Nat × Done)}
    (h : Issued s t i w reg acts) {tid : Nat} {d : Done} (ha : (tid, d) ∈ acts) (hj : d.jump = none) {y : Thread}
    (hy : s.thread? i.b.key tid = some y) : (t.thread? i.b.key tid).map (·.pc) = some (i.next w reg).wordPc := by
  have hd := congrArg (Option.map Thread.pc) (h.acted _ ha y hy)
  rw [Option.map_map] at hd
  refine hd.trans ?_
  simp only [Option.map_some, Thread.data, Thread.issued, hj, Option.getD_none]

theorem IssuesEach.pc {s : State} {i : Issuer} {w : OpWord} {n : Instr} {f : Thread → Done} (h : IssuesEach s i w n f)
    (hm : MayIssue s i w) {x : Thread} (hx : x ∈ i.on w) (hj : (f (i.begin x)).jump = none) :
    pcIn i.b.key x.tid (exec n s) = some (i.next w noRegroup).wordPc := by
  obtain ⟨t, ht, hi⟩ := h hm
  rw [ht]
  exact Issued.pc hi (List.mem_map_of_mem hx) hj
    ((State.beginClause_spec hm.issuer hm.bundle.2).2.1 x (List.mem_filter.mp hx).1)

theorem IssuesOne.pc {s u : State} {i : Issuer} {w : OpWord} {x : Thread} {n : Instr} {d : Done} (h : IssuesOne s i w x n u d)
    (hm : MayIssueOne s i w x) (hj : d.jump = none) (hu : (u.thread? i.b.key x.tid).isSome = true) :
    pcIn i.b.key x.tid (exec n s) = some (i.next w noRegroup).wordPc := by
  obtain ⟨t, ht, hi⟩ := h hm
  obtain ⟨y, hy⟩ := Option.isSome_iff_exists.mp hu
  rw [ht]
  exact Issued.pc hi (List.mem_singleton.mpr rfl) hj hy

/-! ## A word of one thread, ready to issue -/

/-- A thread between clauses but for its registers and its last-page register. -/
def oneThread (regs : List (Nat × W32)) (lpr : Option LastPage) : Thread :=
  { Thread.start 0 0x10000 with regs := regs, lpr := lpr }

/-- A team of that thread, which may name every register. -/
def oneTeam (regs : List (Nat × W32)) (lpr : Option LastPage) : Team :=
  { Team.start (.user 0 1 0) 0 0 0 0 0 probeDesc [] with threads := [oneThread regs lpr] }

/-- A clause of one word of a class, begun. -/
def oneClause (cls : Nat) : Clause :=
  { Clause.start 0x10000 (BitVec.ofNat 64 (cls * 2 ^ 60)) [0] with begun := true }

def oneBundle (cls : Nat) : Bundle :=
  { id := 0, key := .user 0 1 0, tids := [0], pc := 0x10000, stamp := 0, clause := some (oneClause cls), held := false,
    waits := [], notes := [], met := true, single := false }

def oneState (cls : Nat) (regs : List (Nat × W32)) (lpr : Option LastPage) : State :=
  { State.reset with
    launches := [probeLaunch 0 1], teams := [oneTeam regs lpr], bundles := [oneBundle cls], nextBundle := 1, focus := some 0 }

def oneIssuer (cls : Nat) (regs : List (Nat × W32)) (lpr : Option LastPage) : Issuer :=
  { b := oneBundle cls, cl := oneClause cls, t := oneTeam regs lpr, ts := [oneThread regs lpr] }

/-- A control part that selects every thread. -/
def always : Ctl := { pr := 31, pn := false, st := 0 }

theorem oneIssuer_on {cls : Nat} {regs : List (Nat × W32)} {lpr : Option LastPage} {w : OpWord} (hc : w.c = always) :
    (oneIssuer cls regs lpr).on w = [oneThread regs lpr] := by
  unfold Issuer.on selects
  rw [hc]
  rfl

theorem oneIssuer_next_pc (cls : Nat) (regs : List (Nat × W32)) (lpr : Option LastPage) (w : OpWord) :
    ((oneIssuer cls regs lpr).next w noRegroup).wordPc = 0x10010 := by
  simp [Issuer.next, Clause.wordPc, oneIssuer, oneClause, Clause.start]

/-- The thread may issue a word that names registers alone. -/
theorem oneState_mayIssue {cls : Nat} {regs : List (Nat × W32)} {lpr : Option LastPage} {w : OpWord} (hc : w.c = always)
    (hl : w.illegal (oneClause cls) 256 = false) (hk : (oneState cls regs lpr).checking (.user 0 1 0) (oneClause cls) = false) :
    MayIssueOne (oneState cls regs lpr) (oneIssuer cls regs lpr) w (oneThread regs lpr) where
  issuer := rfl
  bundle := ⟨List.cons_ne_nil _ _, List.nodup_singleton 0⟩
  header := .inl rfl
  legal := hl
  free x hx := by
    obtain rfl := List.mem_singleton.mp (List.mem_filter.mp hx).1
    rfl
  past x hx := by
    obtain rfl := List.mem_singleton.mp hx
    rfl
  long x _ h := absurd (hk.symm.trans h) Bool.false_ne_true
  running := ⟨_, List.mem_singleton.mpr rfl, rfl, fun _ h => absurd h List.not_mem_nil⟩
  one := oneIssuer_on hc

/-- A last-page register that permits data accesses: VA 0x10000 lies at 0x20000. -/
def dataPage : LastPage :=
  { asid := 0, va := 0x10000, size := 65536, place := .here 0x20000, r := true, w := true, x := false, derived := false,
    rdok := true, wrok := true, edge := false }

/-- Where the one thread stands once a word has issued. -/
theorem oneState_pc {cls : Nat} {regs : List (Nat × W32)} {lpr : Option LastPage} {w : OpWord} {n : Instr} {u : State} {d : Done}
    (h : IssuesOne (oneState cls regs lpr) (oneIssuer cls regs lpr) w (oneThread regs lpr) n u d)
    (hm : MayIssueOne (oneState cls regs lpr) (oneIssuer cls regs lpr) w (oneThread regs lpr)) (hj : d.jump = none)
    (hu : Keeps ((oneState cls regs lpr).beginClause (oneIssuer cls regs lpr)) u) :
    pcIn (.user 0 1 0) 0 (exec n (oneState cls regs lpr)) = some 0x10010 := by
  obtain ⟨y, hy, -⟩ := hu.alive (.user 0 1 0) 0 (oneThread regs lpr) rfl rfl
  refine (h.pc hm hj ?_).trans (congrArg some (oneIssuer_next_pc ..))
  exact Option.isSome_iff_exists.mpr ⟨y, hy⟩

/-- Whether a state that a step answers has a property. -/
def holdsIn (p : State → Bool) (r : Result) : Bool :=
  match r with
  | .next t => p t
  | .fault _ => false
  | .refused _ => false

theorem holdsIn_of_answers {r : Result} {P : State → Prop} {p : State → Bool} (h : Answers r P) (hp : holdsIn p r = true) :
    ∃ t, P t ∧ p t = true := by
  obtain ⟨t, rfl, ht⟩ := h
  exact ⟨t, ht, hp⟩

end Sys2Proof.Machine
end

section
/-! SUPPORT. Groups: words that name a group of registers past wreg255 raise ILL (R91), whatever else holds of them. -/

namespace Sys2Proof.Claims
open Sys2Proof Sys2Proof.Machine

/-! These theorems are checked one at a time: the kernel's evaluations for them, side by side, would take the memory that the whole
text has. -/
set_option Elab.async false

/-! ## pack -/

/-- Refutes O10: pack from wreg254 names a group of four that runs past wreg255. The word raises ILL (R91),
  while the statement takes
its last two sources for slots that the word may name. -/
theorem not_conversions : ¬ Obligations.Conversions := by
  intro h
  have hm : MayIssueOne (oneState 0 [] none) (oneIssuer 0 [] none) (vecWord always [254, 255, 256,
    257] [0]) (oneThread [] none) :=
    oneState_mayIssue rfl (by decide) (by decide)
  have hon : oneThread [] none ∈ (oneIssuer 0 [] none).on (vecWord always [254, 255, 256, 257] [0]) := by
    rw [hm.one]
    exact List.mem_singleton.mpr rfl
  have hp := (h (oneState 0 [] none) (oneIssuer 0 [] none) always 0 254 .s32 .s32 .f32 .s8 0 .rn .sat false none).2.2.1
    (fun _ => (0, {})) (fun x hx => by
      rw [oneIssuer_on rfl] at hx
      obtain rfl := List.mem_singleton.mp hx
      decide) (fun x hx => (by decide : (({} : FpFlags).bits &&& (oneState 0 [] none).fptrap (.user 0 1 0)) = 0)) fun x hx => rfl
  have stands : pcIn (.user 0 1 0) 0 (exec (.pack always 0 254 .s8 .rn .sat false) (oneState 0 [] none)) = some 0x10008 := by decide +kernel
  have goes : pcIn (.user 0 1 0) 0 (exec (.pack always 0 254 .s8 .rn .sat false) (oneState 0 [] none)) = some 0x10010 :=
    (hp.pc hm.toMayIssue hon rfl).trans (congrArg some (oneIssuer_next_pc ..))
  exact absurd (stands.symm.trans goes) (by decide)

/-! ## A load that goes on -/

/-- A load of 128 bits into wreg254 to wreg257, which are no registers. -/
abbrev wideLoad : Instr := .ld always 254 10 0 .b128 .team false false

abbrev wideLoadWord : OpWord := memWord always [10, 11] [254, 255, 256, 257]

/-- Its thread holds the address 0x10000. -/
abbrev loadState : State := oneState 1 [(10, 0x10000)] (some dataPage)
abbrev loadIssuer : Issuer := oneIssuer 1 [(10, 0x10000)] (some dataPage)
abbrev loadThread : Thread := oneThread [(10, 0x10000)] (some dataPage)

theorem loadState_mayIssue : MayIssueOne loadState loadIssuer wideLoadWord loadThread :=
  oneState_mayIssue rfl (by decide) (by decide)

theorem loadState_stands : pcIn (.user 0 1 0) 0 (exec wideLoad loadState) = some 0x10008 := by decide +kernel

/-- The access of the load goes on to its place. -/
theorem loadState_gate : ((loadState.beginClause loadIssuer).gateRace (loadIssuer.site wideLoadWord) 0 (.load 0x10000 16 .team) false).2 =
    .go (.here 0x20000) .team := by decide +kernel

theorem Except.ok_of_isOk {ε α : Type} {x : Except ε α} (h : x.isOk = true) : ∃ a, x = .ok a := by
  cases x with
  | ok a => exact ⟨a, rfl⟩
  | error e => cases h

/-- Refutes O19: a load of 128 bits into wreg254 raises ILL (R91): its group runs past wreg255. The statement takes the last two
of its destinations for slots that the word may name. -/
theorem not_loads : ¬ Obligations.Loads := by
  intro h
  let r := (loadState.beginClause loadIssuer).gateRace (loadIssuer.site wideLoadWord) 0 (.load 0x10000 16 .team) false
  have ok : (r.1.readAt (loadIssuer.site wideLoadWord) 0 (.here 0x20000) .team false true).2.isOk = true := by decide +kernel
  obtain ⟨b, hb⟩ := Except.ok_of_isOk ok
  have hi := (h loadState loadIssuer loadThread always 254 10 0 .b128 .team false false r.1 _ (.here 0x20000) .team b).1
    (Prod.ext rfl loadState_gate) (Prod.ext rfl hb)
  have keeps : Keeps (loadState.beginClause loadIssuer)
      (r.1.readAt (loadIssuer.site wideLoadWord) 0 (.here 0x20000) .team false true).1 :=
    State.readAt_keeps (State.gateRace_keeps (Keeps.refl _) ..) ..
  have goes := oneState_pc hi loadState_mayIssue rfl keeps
  exact absurd (loadState_stands.symm.trans goes) (by decide)

/-! ## A load that does not go on -/

/-- The state of the wide load with an address that is misaligned. -/
abbrev askewState : State := oneState 1 [(10, 0x10001)] (some dataPage)
abbrev askewIssuer : Issuer := oneIssuer 1 [(10, 0x10001)] (some dataPage)
abbrev askewThread : Thread := oneThread [(10, 0x10001)] (some dataPage)

theorem askewState_mayIssue : MayIssueOne askewState askewIssuer wideLoadWord askewThread :=
  oneState_mayIssue rfl (by decide) (by decide)

theorem askewState_gate :
    ((askewState.beginClause askewIssuer).gateRace (askewIssuer.site wideLoadWord) 0 (.load 0x10001 16 .team) false).2 =
      .stop (.trap (Trap.at 0 .align 0 0x10001)) := by decide +kernel

/-- Refutes O14: the load raises ILL before its misaligned address is looked at, so no record has the cause ALIGN. -/
theorem not_trapsOfWords : ¬ Obligations.TrapsOfWords := by
  intro h
  let r := (askewState.beginClause askewIssuer).gateRace (askewIssuer.site wideLoadWord) 0 (.load 0x10001 16 .team) false
  have ht := (h.2 askewState askewIssuer askewThread always 254 10 0 .b128 .team false false r.1 .align).1
    (Prod.ext rfl askewState_gate)
  have fresh : ∃ z, r.1.thread? (.user 0 1 0) 0 = some z
    ∧ z.reissue.isNone = true := (Option.any_eq_true _ _).mp (by decide +kernel)
  obtain ⟨z, hz, hn⟩ := fresh
  have ill : holdsIn (fun t => t.groups.all fun g => g.records.all (·.cause == .ill)) (exec wideLoad askewState) = true := by
    decide +kernel
  obtain ⟨t, ⟨-, g, hg, -, -, hr⟩, hp⟩ :=
    holdsIn_of_answers (ht askewState_mayIssue rfl rfl rfl (by decide) z hz (Option.isNone_iff_eq_none.mp hn)) ill
  obtain ⟨e, he, hc⟩ := List.map_eq_singleton_iff.mp hr
  have hill := List.all_eq_true.mp (List.all_eq_true.mp hp g hg) e (by rw [he]; exact List.mem_singleton.mpr rfl)
  have halign : e.cause = .align := congrArg Prod.fst hc
  rw [halign] at hill
  exact absurd hill (by decide)

/-! ## Stores -/

/-- A store of 128 bits from wreg254 to wreg257. -/
abbrev wideStore : Instr := .st always 254 10 0 .b128 .team
abbrev wideStoreWord : OpWord := memWord always [10, 11, 254, 255, 256, 257] []

theorem loadState_mayIssue_store : MayIssueOne loadState loadIssuer wideStoreWord loadThread :=
  oneState_mayIssue rfl (by decide) (by decide)

theorem loadState_stands_store : pcIn (.user 0 1 0) 0 (exec wideStore loadState) = some 0x10008 := by decide +kernel

theorem loadState_gate_store :
    ((loadState.beginClause loadIssuer).gateRace (loadIssuer.site wideStoreWord) 0 (.store 0x10000 16 .team) true).2 =
      .go (.here 0x20000) .team := by decide +kernel

/-- Refutes O20: a store of 128 bits from wreg254 raises ILL (R91), and puts nothing into the FIFO. -/
theorem not_stores : ¬ Obligations.Stores := by
  intro h
  let r := (loadState.beginClause loadIssuer).gateRace (loadIssuer.site wideStoreWord) 0 (.store 0x10000 16 .team) true
  have hi := (h loadState loadIssuer loadThread always 254 10 0 .b128 .team r.1 (.here 0x20000) .team).1
    (Prod.ext rfl loadState_gate_store)
  have keeps : Keeps (loadState.beginClause loadIssuer) r.1 := State.gateRace_keeps (Keeps.refl _) ..
  have goes := oneState_pc hi loadState_mayIssue_store rfl (State.modCore_keeps keeps ..)
  exact absurd (loadState_stands_store.symm.trans goes) (by decide)

/-! ## Scratchpad words -/

/-- A scratchpad store of 128 bits from wreg254 to wreg257. -/
abbrev wideScratchStore : Instr := .sts always 254 2 0 .b128
abbrev wideScratchWord : OpWord := memWord always [2, 254, 255, 256, 257] []

/-- Refutes O23: a scratchpad store of 128 bits from wreg254 raises ILL (R91). -/
theorem not_scratchpadAccesses : ¬ Obligations.ScratchpadAccesses := by
  intro h
  have hi := (h (oneState 1 [] none) (oneIssuer 1 [] none) (oneThread [] none) always 254 2 0 .b128 false .team).2.1
    (by decide) ⟨by decide, fun e he => absurd he List.not_mem_nil⟩
  have hm : MayIssueOne (oneState 1 [] none) (oneIssuer 1 [] none) wideScratchWord (oneThread [] none) :=
    oneState_mayIssue rfl (by decide) (by decide)
  have goes := oneState_pc hi hm rfl (State.modTeam_keeps (Keeps.refl _) _ _ fun _ => rfl)
  have stands : pcIn (.user 0 1 0) 0 (exec wideScratchStore (oneState 1 [] none)) = some 0x10008 := by decide +kernel
  exact absurd (stands.symm.trans goes) (by decide)

/-- Refutes O24: a store of 128 bits from wreg254 past the allocation raises ILL (R91), and its thread is parked, not off. -/
theorem not_scratchpadViolations : ¬ Obligations.ScratchpadViolations := by
  intro h
  have hm : MayIssueOne (oneState 1 [(2, 0x10000)] none) (oneIssuer 1 [(2, 0x10000)] none) wideScratchWord (oneThread [(2,
    0x10000)] none) :=
    oneState_mayIssue rfl (by decide) (by decide)
  have ho := (h (oneState 1 [(2, 0x10000)] none) (oneIssuer 1 [(2, 0x10000)] none) (oneThread [(2,
    0x10000)] none) always 254 2 0 .b128 false
    (fun _ hb => absurd hb List.not_mem_nil) (by decide) rfl (by decide) (by decide)).2 hm
  have on : holdsIn (fun t => (t.thread? (.user 0 1 0) 0).all (·.stat != .off)) (exec wideScratchStore (oneState 1 [(2,
    0x10000)] none)) = true := by
    decide +kernel
  obtain ⟨t, ⟨y, T, hT, hy, hs, -⟩, hp⟩ := holdsIn_of_answers ho on
  have ht : t.thread? (.user 0 1 0) 0 = some y := by
    unfold State.thread?
    rw [show t.team? (.user 0 1 0) = some T from hT]
    exact hy
  rw [ht, Option.all_some, hs] at hp
  exact absurd hp (by decide)

/-! ## syscall -/

/-- A syscall whose arguments run past wreg255. -/
abbrev lateCall : Instr := .syscall always 0 250 0

/-- Refutes O36: a syscall whose eight arguments begin at wreg250 raises ILL (R91), and makes no syscall group. -/
theorem not_callsAndTraps : ¬ Obligations.CallsAndTraps := by
  intro h
  have hm : MayIssueOne (oneState 4 [] none) (oneIssuer 4 [] none) (ctlWord always [250, 251, 252, 253, 254, 255, 256, 257] [0,
    1]) (oneThread [] none) :=
    oneState_mayIssue rfl (by decide) (by decide)
  have alone : ∀ z,
    (((oneState 4 [] none).beginClause (oneIssuer 4 [] none)).releaseAll (.user 0 1 0) 0 0).thread? (.user 0 1 0) 0 = some z →
      z.reissue = none := by
    have all : ((((oneState 4 [] none).beginClause (oneIssuer 4 [] none)).releaseAll (.user 0 1 0) 0 0).thread? (.user 0 1 0) 0).all
      (·.reissue.isNone) = true := by decide +kernel
    intro z hz
    rw [hz] at all
    exact Option.isNone_iff_eq_none.mp all
  have ha := (h (oneState 4 [] none) (oneIssuer 4 [] none) (oneThread [] none) always 0 250 0 false rfl rfl rfl (by decide) alone).1 hm (by decide)
  have none' : holdsIn (fun t => t.groups.all (·.kind != .syscall)) (exec lateCall (oneState 4 [] none)) = true := by decide +kernel
  obtain ⟨t, ⟨-, g, hg, -, -, hk, -⟩, hp⟩ := holdsIn_of_answers ha none'
  exact absurd (List.all_eq_true.mp hp g hg) (by rw [hk]; decide)

end Sys2Proof.Claims
end

section
/-! SUPPORT. StaleGroups: a package that holds a group of an id still to come, and the thread that traps into it. -/

namespace Sys2Proof.Machine
open Sys2Proof Sys2Proof.Claims

/-! ## A state with a group of an id still to come -/

/-- A group with no record that carries the next id of a package after reset: filing looks groups up by their ids, so it is
this one that the next group's trap files, and that stands in the place of both. -/
def staleGroup : Group :=
  { id := 1, ctx := 0, launch := 0, key := .user 0 1 0, kind := .fault, pc := 0, dest := 0, records := [], members := [],
    slot := none, slots := 0, ack := none }

/-- The team of the one thread, at a depth of launches. -/
def deepTeam (depth : Nat) : Team := { oneTeam [] none with depth := depth }

/-- The clause of one word, begun. -/
def wordClause (cls : Nat) (word : W64) : Clause := { oneClause cls with words := [word] }

def wordBundle (cls : Nat) (word : W64) : Bundle := { oneBundle cls with clause := some (wordClause cls word) }

/-- The one thread about to issue a word, in a package that holds the stale group. -/
def staleState (cls : Nat) (word : W64) (depth : Nat) (ctxs : List (Nat × Ctx)) : State :=
  { oneState cls [] none with
    teams := [deepTeam depth], bundles := [wordBundle cls word], ctxs := ctxs, groups := [staleGroup] }

def staleIssuer (cls : Nat) (word : W64) (depth : Nat) : Issuer :=
  { b := wordBundle cls word, cl := wordClause cls word, t := deepTeam depth, ts := [oneThread [] none] }

theorem staleState_mayIssue {cls : Nat} {word : W64} {depth : Nat} {ctxs : List (Nat × Ctx)} {w : OpWord} (hc : w.c = always)
    (hl : w.illegal (wordClause cls word) 256 = false)
    (hk : (staleState cls word depth ctxs).checking (.user 0 1 0) (wordClause cls word) = false) :
    MayIssueOne (staleState cls word depth ctxs) (staleIssuer cls word depth) w (oneThread [] none) where
  issuer := rfl
  bundle := ⟨List.cons_ne_nil _ _, List.nodup_singleton 0⟩
  header := .inl rfl
  legal := hl
  free x hx := by
    obtain rfl := List.mem_singleton.mp (List.mem_filter.mp hx).1
    rfl
  past x hx := by
    obtain rfl := List.mem_singleton.mp hx
    rfl
  long x _ h := absurd (hk.symm.trans h) Bool.false_ne_true
  running := ⟨_, List.mem_singleton.mpr rfl, rfl, fun _ h => absurd h List.not_mem_nil⟩
  one := by
    unfold Issuer.on selects
    rw [hc]
    rfl

/-- No group of a state has a record. -/
def unrecorded (t : State) : Bool := t.groups.all fun g => g.records.isEmpty

theorem records_nil_of_unrecorded {t : State} (h : unrecorded t = true) {g : Group} (hg : g ∈ t.groups) : g.records = [] :=
  List.isEmpty_iff.mp (List.all_eq_true.mp h g hg)

/-- No answer of a trap leaves every group without a record. -/
theorem recorded_of_trapsAs {s u : State} {i : Issuer} {w : OpWord} {x z : Thread} {r : Result} {cause : Cause} {kind addr : Nat}
    (h : TrapsAs s i w x r u cause kind addr) (hm : MayIssueOne s i w x) (hw : i.b.key.isWalker = false)
    (hsingle : i.b.single = false) (hbins : (s.core i.t.core).bins = []) (hwf : swf Core.fresh s.cores = true)
    (hz : u.thread? i.b.key x.tid = some z) (hz' : z.reissue = none) : holdsIn unrecorded r = false := by
  by_contra hu
  obtain ⟨t, ⟨-, g, hg, -, -, hr⟩,
    ht⟩ := holdsIn_of_answers (h hm hw hsingle hbins hwf z hz hz') (Bool.eq_true_of_not_eq_false hu)
  rw [records_nil_of_unrecorded ht hg] at hr
  cases hr

theorem staleState_recorded {cls : Nat} {word : W64} {depth : Nat} {ctxs : List (Nat × Ctx)} {w : OpWord} {r : Result} {cause : Cause}
    {kind addr : Nat}
    (h : TrapsAs (staleState cls word depth ctxs) (staleIssuer cls word depth) w (oneThread [] none) r
      ((staleState cls word depth ctxs).beginClause (staleIssuer cls word depth)) cause kind addr)
    (hm : MayIssueOne (staleState cls word depth ctxs) (staleIssuer cls word depth) w (oneThread [] none)) :
    holdsIn unrecorded r = false :=
  recorded_of_trapsAs h hm rfl rfl rfl rfl (z := oneThread [] none) rfl rfl

end Sys2Proof.Machine
end

section
/-! SUPPORT. StaleGroupClaims: traps and stops whose records the stale group drops. -/

namespace Sys2Proof.Claims
open Sys2Proof Sys2Proof.Machine

/-! These theorems are checked one at a time: the kernel's evaluations for them, side by side, would take the memory that the whole
text has. -/
set_option Elab.async false

/-- A word of class 9, which no instruction has, for every thread. -/
abbrev reservedWord : W64 := 0x090F800000000000

/-- Refutes O56: the group of a reserved word's trap is filed by its id. Where a group with that id is there already, filing
puts the old group in the new one's place, and no record is left. -/
theorem not_reservedWordsTrap : ¬ Obligations.ReservedWordsTrap := by
  intro h
  have hm : MayIssueOne (staleState 0 reservedWord 0 []) (staleIssuer 0 reservedWord 0)
      { c := always, cls := none, reads := [], writes := [] } (oneThread [] none) :=
    staleState_mayIssue rfl (by decide) (by decide)
  have ht := h (staleState 0 reservedWord 0 []) (staleIssuer 0 reservedWord 0) (oneThread [] none) reservedWord always rfl
    (by decide) (by decide) (by decide)
  have hu : holdsIn unrecorded (issueWord (staleState 0 reservedWord 0 []) 0 (wordClause 0 reservedWord)) = true := by
    decide +kernel
  exact absurd (hu.symm.trans (staleState_recorded ht hm)) (by decide)

/-- Refutes O34: a spawn at depth 10 traps, and the stale group takes the place of the trap's. -/
theorem not_spawns : ¬ Obligations.Spawns := by
  intro h
  have hm : MayIssueOne (staleState 3 0 10 []) (staleIssuer 3 0 10) (syncWord always [10, 11] []) (oneThread [] none) :=
    staleState_mayIssue rfl (by decide) (by decide)
  have ht := (h (staleState 3 0 10 []) (staleIssuer 3 0 10) (oneThread [] none) always 10 (staleState 3 0 10 []) (deepTeam 10) []
    rfl).2.1 rfl rfl
  have hu : holdsIn unrecorded (exec (.spawn always 10) (staleState 3 0 10 [])) = true := by decide +kernel
  exact absurd (hu.symm.trans (staleState_recorded ht hm)) (by decide)

/-- Refutes O38: cwr of REGROUPAGE outside the walker slot is ILL, and the stale group takes the place of the trap's. -/
theorem not_controlRegisters : ¬ Obligations.ControlRegisters := by
  intro h
  have hm : MayIssueOne (staleState 4 0 0 []) (staleIssuer 4 0 0) (ctlWord always [10, 11] []) (oneThread [] none) :=
    staleState_mayIssue rfl (by decide) (by decide)
  have ht := (h (staleState 4 0 0 []) (staleIssuer 4 0 0) (oneThread [] none) always 0 10 .regroupage).2.2.2.1 (by decide) rfl
  have hu : holdsIn unrecorded (exec (.cwr always 10 .regroupage) (staleState 4 0 0 [])) = true := by decide +kernel
  exact absurd (hu.symm.trans (staleState_recorded ht hm)) (by decide)

/-- Refutes O39: tlbinv.all outside the walker slot is ILL, and the stale group takes the place of the trap's. -/
theorem not_walkerWords : ¬ Obligations.WalkerWords := by
  intro h
  have hm : MayIssueOne (staleState 1 0 0 []) (staleIssuer 1 0 0) (memWord always [] []) (oneThread [] none) :=
    staleState_mayIssue rfl (by decide) (by decide)
  have ht := ((h (staleState 1 0 0 []) (staleIssuer 1 0 0) (oneThread [] none) always 0 0 0 0 0 0 0 false
    { slot := 0, what := .call, invals := [], started := 0, failed := false, region := 0, pages := 0 }
    { asid := 0, va := 0, size := 0, place := .here 0, r := false, w := false, x := false, derived := false }).2.2.2.1 rfl).1
  have hu : holdsIn unrecorded (exec (.tlbinvAll always) (staleState 1 0 0 [])) = true := by decide +kernel
  exact absurd (hu.symm.trans (staleState_recorded ht hm)) (by decide)

/-- The name of the one thread. -/
abbrev theThread : ThreadName := { key := .user 0 1 0, tid := 0 }

/-- A context with a debugger and a breakpoint at the word. -/
def brokenCtx : Ctx :=
  { Ctx.fresh with debug := true, bps := [(0, { Breakpoint.fresh with ctl := 0x8000000000010008 })] }

/-- Refutes O37: a debugger's brk files a stop group, and the stale group takes its place. -/
theorem not_breaksAndMarks : ¬ Obligations.BreaksAndMarks := by
  intro h
  have hm : MayIssueOne (staleState 4 0 0 [(0, brokenCtx)]) (staleIssuer 4 0 0) (ctlWord always [] []) (oneThread [] none) :=
    staleState_mayIssue rfl (by decide) (by decide)
  have ha := ((h (staleState 4 0 0 [(0,
    brokenCtx)]) (staleIssuer 4 0 0) (oneThread [] none) always 0 0 false 0 1 0).2 rfl).2.1 rfl rfl
    (by decide) rfl rfl (fun k hk hn => absurd (congrArg Bundle.id (List.mem_singleton.mp hk)) hn) hm
  have hu : holdsIn unrecorded (exec (.brk always 0) (staleState 4 0 0 [(0, brokenCtx)])) = true := by decide +kernel
  obtain ⟨t, ⟨-, -, g, hg, -, -, -, hr⟩, ht⟩ := holdsIn_of_answers ha hu
  rw [records_nil_of_unrecorded ht hg] at hr
  cases hr

/-- Refutes O40: a fetch at a misaligned header traps ALIGN, and the stale group takes the place of the trap's. -/
theorem not_clauseFetches : ¬ Obligations.ClauseFetches := by
  intro h
  let b : Bundle := { oneBundle 0 with clause := none, pc := 0x10001 }
  let s : State := { staleState 0 0 0 [] with bundles := [b] }
  have hf : (s.fetchWord b (s.coreOf b.key) b.pc true).2 = .fault .align := by decide +kernel
  have ha := ((h s b (deepTeam 0) (s.fetchWord b (s.coreOf b.key) b.pc true).1 s 0 0 [] .align rfl rfl).2 rfl
    (by decide +kernel) (by decide +kernel)).1 (Prod.ext rfl hf) rfl (List.cons_ne_nil _ _) (fun y hy => by
      have all : ((s.fetchWord b (s.coreOf b.key) b.pc true).1.thread? b.key (b.tids.headD 0)).all (·.reissue.isNone) = true := by
        decide +kernel
      rw [hy] at all
      exact Option.isNone_iff_eq_none.mp all)
  have hu : holdsIn unrecorded (exec (.clauseFetch 0) s) = true := by decide +kernel
  obtain ⟨t, ⟨g, hg, -, -, -, hr⟩, ht⟩ := holdsIn_of_answers ha hu
  rw [records_nil_of_unrecorded ht hg] at hr
  cases hr

/-- Refutes O41: a breakpoint files a stop group, and the stale group takes its place. -/
theorem not_coreEvents : ¬ Obligations.CoreEvents := by
  intro h
  let s := staleState 0 0 0 [(0, brokenCtx)]
  have ha := (h s 0 rfl).2.2.2.2.2.1 theThread 0 (wordBundle 0 0) (deepTeam 0) (by decide +kernel) rfl rfl rfl (by decide)
    (fun k hk hn => absurd (congrArg Bundle.id (List.mem_singleton.mp hk)) hn)
  have hu : holdsIn unrecorded (exec (.breakpointHit theThread 0) s) = true := by decide +kernel
  obtain ⟨t, ⟨-, g, hg, -, hr⟩, ht⟩ := holdsIn_of_answers ha hu
  rw [records_nil_of_unrecorded ht hg] at hr
  cases hr

/-- A copy of a tile of one block, whose page no table maps. -/
def pagelessMove : Move :=
  { id := 5, order := 5, key := .user 0 1 0, tid := 0, pc := 0x10000, kind := .tstore
    lay := { base := 0x10000, sizes := [64, 0, 0, 0, 0], strides := [0, 0, 0, 0], format := 1, ndims := 1, box := [64, 0, 0, 0,
      0],
             coord := 0, rep := 0, reduce := 0, key := 0 }
    coords := [0, 0, 0, 0, 0], off := 0, len := 64, bar := none, scope := .team, left := [0], sent := true, stopped := none,
    interval := 0, core := 0 }

/-- Refutes O42: a tile store whose page is absent stops with a record, and the stale group takes its group's place. -/
theorem not_unitEvents : ¬ Obligations.UnitEvents := by
  intro h
  let s : State := { staleState 0 0 0 [] with moves := [pagelessMove] }
  have ha := (h s).2.2.2.1 5 0 pagelessMove rfl (by decide +kernel) rfl (by decide +kernel) (by decide +kernel)
  have hu : holdsIn unrecorded (exec (.copyPageFault 5 0) s) = true := by decide +kernel
  obtain ⟨t, ⟨-, g, hg, -, -, hr⟩, ht⟩ := holdsIn_of_answers ha hu
  rw [records_nil_of_unrecorded ht hg] at hr
  cases hr

end Sys2Proof.Claims
end

section
/-! SUPPORT. Packets: queues' registers and packets, one lemma for each operation on them. -/

namespace Sys2Proof.Machine
open Sys2Proof Sys2Proof.Claims

/-! ## Queues -/

theorem State.modQueue_eq {s : State} {q : Nat} {f : Queue → Queue} {y : Queue} (h : f (s.queue q) = y) :
    s.modQueue q f = { s with queues := sset .fresh s.queues q y } := h ▸ rfl

/-! ## Packets -/

theorem State.modPacket_eq (s : State) (n : PktName) (f : Packet → Packet) :
    s.modPacket n f = { s with packets := s.packets.map fun y => if y.name = n then f y else y } := by
  simp only [State.modPacket, modWhere, beq_iff_eq]

theorem State.packet?_modPacket {s : State} {n : PktName} {p : Packet} (h : s.packet? n = some p) (f : Packet → Packet)
    (hf : ∀ x, (f x).name = x.name) : (s.modPacket n f).packet? n = some (f p) := by
  have hp : (p.name == n) = true := List.find?_some (p := fun x : Packet => x.name == n) h
  refine (find?_modWhere _ (fun x : Packet => x.name == n) f (fun x => congrArg (· == n) (hf x)) _).trans ?_
  rw [show s.packets.find? (fun x => x.name == n) = some p from h, Option.map_some, if_pos hp]

/-- What a key holds that has been given a value which is not the default, in a list of any form. -/
theorem sget_sset_of_ne {α : Type} [DecidableEq α] {d v : α} (hv : v ≠ d) (l : List (Nat × α)) (k : Nat) :
    sget d (sset d l k v) k = v := by
  induction l with
  | nil => simp [sset, sget, hv]
  | cons e l ih =>
    obtain ⟨k', v'⟩ := e
    rcases Nat.lt_trichotomy k k' with h | h | h
    · simp [sset, sget, hv, h]
    · simp [sset, sget, hv, h]
    · simp [sset, sget, Nat.ne_of_lt h, Nat.ne_of_gt h, Nat.not_lt_of_gt h, ih]

/-- A packet that completes ends so. -/
theorem State.endPacket_of_completes {s t : State} {p : Packet} {e : PktEnd} (h : s.completePacket p e = some t) :
    s.endPacket p e = t := by
  rw [State.endPacket, h, Option.getD_some]

/-- An event is posted while the queue has room and none is deferred. -/
theorem State.postEvent_room {s : State} {e : HiveEvent} (h : s.events.length < 4096) (hd : s.deferred = []) :
    s.postEvent e = { s with events := s.events ++ [e] } := by
  refine if_pos ?_
  rw [hd, Bool.and_eq_true_iff]
  exact ⟨decide_eq_true h, rfl⟩

/-- A packet is noted, and goes to the hive. -/
theorem State.modPacket_postEvent {s : State} {n : PktName} {f : Packet → Packet} {e : HiveEvent} (h : s.events.length < 4096)
    (hd : s.deferred = []) : (s.modPacket n f).postEvent e =
      { s with packets := s.packets.map fun y => if y.name = n then f y else y, events := s.events ++ [e] } := by
  rw [State.postEvent_room (s := s.modPacket n f) h hd, State.modPacket_eq]

/-- A packet with no end of its own is carried out. -/
theorem State.orEnding_go {s : State} {n : PktName} {p : Packet} (h : s.packet? n = some p) (he : p.ending = none) (go : State) :
    s.orEnding n go = go := by
  rw [State.orEnding, h, Option.bind_some, he, Option.map_none]

/-- A packet whose context's end cut it short ends. -/
theorem State.orEnding_ends {s t : State} {n : PktName} {p : Packet} {e : PktEnd} (h : s.packet? n = some p) (he : p.ending = some e)
    (ht : s.completePacket p e = some t) (go : State) : s.orEnding n go = t := by
  rw [State.orEnding, h, Option.bind_some, he, Option.map_some]
  exact State.endPacket_of_completes ht

/-- The state in which a packet that the front end carries out has begun. -/
def State.inBegun (s : State) (p : Packet) : State :=
  if p.stage = .begun then s else { s with
    packets := s.packets.map fun y => if y.name = p.name then { y with stage := .begun, began := s.ticks } else y }

theorem State.begin?_runs {s : State} {n : PktName} {p : Packet} {kind : Nat} (h : s.packet? n = some p) (hk : p.kind = kind)
    (hs : p.stage = .begun ∨ s.mayStart p = true) : s.begin? n kind = some (s.inBegun p, p) := by
  have hf : (p.kind == kind && (p.stage == .begun || s.mayStart p)) = true := by
    rcases hs with hs | hs <;> simp [hk, hs]
  unfold State.begin? State.inBegun
  rw [h, Option.filter_some, if_pos hf, Option.map_some]
  by_cases hb : p.stage = .begun
  · rw [if_pos hb, if_pos (beq_iff_eq.mpr hb)]
  · rw [if_neg hb, if_neg (by simpa using hb), State.modPacket_eq]

theorem State.packet?_of_starting {s : State} {n : PktName} {kind : Nat} {p : Packet} (h : s.starting? n kind = some p) :
    s.packet? n = some p := by
  unfold State.starting? at h
  exact (Option.filter_eq_some_iff.mp h).1

/-- HALT at a packet stands in its queue's registers. -/
theorem State.queue_haltAt (s : State) (n : PktName) :
    ((s.haltAt n).queue n.q).halt = true ∧ ((s.haltAt n).queue n.q).hidx = BitVec.ofNat 32 n.idx := by
  unfold State.haltAt State.queue State.modQueue
  rw [sget_sset_of_ne fun hd => Bool.noConfusion (congrArg Queue.halt hd : true = false)]
  exact ⟨rfl, rfl⟩

@[simp] theorem State.packet?_sendMatch (s : State) (m : CollMsg) (n : PktName) : (s.sendMatch m).packet? n = s.packet? n := by
  unfold State.sendMatch
  split <;> rfl

/-- A packet with no signal that does not end well halts its queue. -/
theorem State.completePacket_halts {s t : State} {p : Packet} {e : PktEnd} (hs : p.signals = false)
    (h : s.completePacket p e = some t) (h3 : 3 ≤ e.state) : ∃ u : State, t = u.haltAt p.name := by
  have he : s.endOf p e = some e := if_pos (by rw [Packet.stores, hs]; rfl)
  unfold State.completePacket at h
  rw [he] at h
  simp only [decide_eq_true h3, Bool.true_or, if_true] at h
  split at h
  · cases h
  · exact ⟨_, (Option.some.inj h).symm⟩

end Sys2Proof.Machine
end

section
/-! SUPPORT. FrontEnd: the events of queues and of packets. -/

namespace Sys2Proof.Claims
open Sys2Proof Sys2Proof.Machine

/-- Settles O43: each write's condition decides between the branches, and a fetch takes the packet at FIDX. -/
theorem queueEvents : Obligations.QueueEvents := by
  intro s q v widx hq
  have hn : ¬ queueCount ≤ q := Nat.not_le.mpr hq
  refine ⟨fun _ h => ?ignored, fun hv he ha => ?enable, fun hv => ?disable, ?clear, ?doorbell, fun h => ?none,
    fun bytes hx hr hh hb => ?fetch⟩
  case ignored =>
    refine congrArg Host.Outcome.next (if_pos ?_)
    rcases h with h | h <;> simp [h]
  case enable =>
    refine congrArg Host.Outcome.next ((if_neg (by simp [hv, he, ha, hn])).trans (State.modQueue_eq ?_))
    by_cases hin : 4 ≤ (v.extractLsb' 16 5).toNat ∧ (v.extractLsb' 16 5).toNat ≤ 16
    · refine (if_neg ?_).trans (if_pos hin).symm
      rw [Bool.or_eq_true, decide_eq_true_eq, decide_eq_true_eq]
      simp only [Queue.setFields]
      omega
    · refine (if_pos ?_).trans (if_neg hin).symm
      rw [Bool.or_eq_true, decide_eq_true_eq, decide_eq_true_eq]
      simp only [Queue.setFields]
      omega
  case disable => exact congrArg Host.Outcome.next (if_neg (by simp only [hv, hn, decide_false, Bool.or_false,
    Bool.false_eq_true, not_false_iff]))
  case clear =>
    refine congrArg Host.Outcome.next ((if_neg hn).trans (State.modQueue_eq ?_))
    cases v.getLsbD 3 <;> cases v.getLsbD 2 <;> cases v.getLsbD 1 <;> simp
  case doorbell =>
    refine congrArg Host.Outcome.next ((if_neg hn).trans (State.modQueue_eq ?_))
    simp only [Bool.or_eq_true, decide_eq_true_eq, beq_iff_eq]
  case none =>
    change execPacketFetch s = _
    unfold execPacketFetch
    rw [h]
  case fetch =>
    change Answers (execPacketFetch s) _
    unfold execPacketFetch
    simp only [hx, Queue.slotAt, hr]
    exact ⟨_, congrArg Host.Outcome.next (if_pos (Bool.and_eq_true_iff.mpr ⟨hh, hb⟩)), rfl, rfl, rfl⟩

/-- R47's condition of a WAITV on a word. -/
def waitCond (p : Packet) (w : Nat) : Prop :=
  let m := 2 ^ (8 * p.field 0x58 1)
  let a := w % m &&& p.field 0x50 8 % m
  let b := p.field 0x48 8 % m &&& p.field 0x50 8 % m
  match p.field 0x59 1 with | 0 => a = b | 1 => a ≠ b | 2 => b ≤ a | _ => a < b

theorem waitHolds_iff (p : Packet) (w : Nat) : p.waitHolds w = true ↔ waitCond p w := by
  unfold Packet.waitHolds waitCond
  generalize p.field 0x59 1 = test
  match test with
  | 0 => exact beq_iff_eq
  | 1 => exact bne_iff_ne
  | 2 => exact decide_eq_true_iff
  | n + 3 => exact decide_eq_true_iff

/-- Settles O44: each packet begins as its kind and its stage say, and what it ends with is State.endPacket of its end. -/
theorem packetEvents : Obligations.PacketEvents := by
  intro s n p
  refine ⟨fun ⟨hp, hk, he, hs⟩ w hw t ht => ?write, fun ⟨hp, hk, he, hs⟩ w hw => ?waitv, fun hp hl t ht => ?late,
    fun hp hl => ?early,
    fun ⟨hp, hk, he, hs⟩ hr t ht => ?fence, fun ⟨hp, hk, he, hs⟩ hr => ?waits, fun e hp he => ?ending,
      fun hp he hroom hd => ?cancel,
    fun hp he hf hz hz' ha hl hroom hd => ?sealed, fun hp he hc t ht => ?refused, fun hp he hc hpod hp' => ?pod,
    fun e t hs ht h3 => ?halts⟩
  case write =>
    change Host.Outcome.next _ = _
    rw [State.orEnding_go hp he, State.begin?_runs hp hk hs]
    simp only
    rw [show (s.inBegun p).feStore p.ctx (p.field 0x40 8) (bytesOfNat (p.field 0x50 1) (p.field 0x48 8)) = .ok w from hw]
    exact congrArg _ (State.endPacket_of_completes ht)
  case waitv =>
    have go : exec (.waitvPacket n) s =
        .next (if p.waitHolds w then (s.inBegun p).endPacket p { state := 1 } else s.inBegun p) := by
      change Host.Outcome.next _ = _
      rw [State.orEnding_go hp he, State.begin?_runs hp hk hs]
      simp only
      rw [show (s.inBegun p).waitRead p = .ok w from hw]
    refine ⟨fun holds t ht => ?_, fun fails => ?_⟩
    · rw [Goes, go, if_pos ((waitHolds_iff p w).mpr holds), State.endPacket_of_completes (s := s.inBegun p) ht]
    · rw [Goes, go, if_neg fun h => fails ((waitHolds_iff p w).mp h)]
      rfl
  case late =>
    change Host.Outcome.next _ = _
    rw [hp]
    simp only
    rw [if_pos hl, State.endPacket_of_completes ht]
  case early =>
    change Host.Outcome.next _ = _
    rw [hp]
    simp only
    rw [hl, if_neg Bool.false_ne_true]
  case fence =>
    change Host.Outcome.next _ = _
    rw [State.orEnding_go hp he, State.begin?_runs hp hk hs]
    simp only
    rw [if_pos (show (s.inBegun p).fenceReady p = true from hr), State.endPacket_of_completes (s := s.inBegun p) ht]
  case waits =>
    change Host.Outcome.next _ = _
    rw [State.orEnding_go hp he, State.begin?_runs hp hk hs]
    simp only
    rw [if_neg (by rw [show (s.inBegun p).fenceReady p = false from hr]; exact Bool.false_ne_true)]
    rfl
  case ending =>
    refine ⟨fun t ht => ?_, fun t ht => ?_, fun t ht => ?_, fun t ht => ?_, fun t ht => ?_, fun t ht => ?_, fun t ht => ?_⟩ <;>
      exact congrArg Host.Outcome.next (State.orEnding_ends hp he ht _)
  case cancel =>
    change Host.Outcome.next _ = _
    rw [State.orEnding_go (State.packet?_of_starting hp) he, hp]
    simp only
    rw [State.modPacket_postEvent hroom hd]
  case sealed =>
    change Host.Outcome.next _ = _
    rw [State.orEnding_go (State.packet?_of_starting hp) he, hp]
    simp only
    rw [hf, hz, hz', ha, if_neg (by decide), if_neg (by decide), if_neg (c := _ < receiptMin) (Nat.not_lt.mpr hl),
      State.modPacket_postEvent hroom hd]
  case refused =>
    change Host.Outcome.next _ = _
    rw [State.orEnding_go (State.packet?_of_starting hp) he, hp]
    simp only
    rw [hc, if_pos (by decide), State.endPacket_of_completes ht]
  case pod =>
    change Answers (.next _) _
    rw [State.orEnding_go (State.packet?_of_starting hp) he, hp]
    simp only
    rw [hc, if_neg (by decide), if_pos hpod]
    exact ⟨_, rfl, _, _, (State.packet?_sendMatch ..).trans (State.packet?_modPacket hp' _ fun _ => rfl), rfl, rfl, rfl,
      if_pos hpod, rfl⟩
  case halts =>
    obtain ⟨u, rfl⟩ := State.completePacket_halts hs ht h3
    exact State.queue_haltAt u p.name

end Sys2Proof.Claims
end

section
/-! SUPPORT. Relaunch: a package whose only launch has no core to begin again on. -/

namespace Sys2Proof.Claims
open Sys2Proof Sys2Proof.Machine

/-- A kernel of swarms of one team, which uses nothing that keeps a team from starting again. -/
def loneDesc : KDesc := { probeDesc with swarm := 1, flags := 0 }

/-- A pure launch of it, whose context is granted no core. -/
def loneLaunch : Launch := { probeLaunch 0 1 with flags := 1, desc := loneDesc, grids := [{ probeGrid with desc := loneDesc }] }

/-- A package in which that launch runs one team. -/
def loneState : State :=
  { State.reset with launches := [loneLaunch], teams := [{ oneTeam [] none with desc := loneDesc }] }

/-- Refutes O52: a failing unit of a pure launch's swarm makes the launch begin again, but where no core is granted to its
context, placing it again fails it. -/
theorem not_errorEvents : ¬ Obligations.ErrorEvents := by
  intro h
  have ha := (h loneState).2.2.2.2.2.1 (.user 0 1 0) { oneTeam [] none with desc := loneDesc } loneLaunch rfl rfl rfl rfl (by decide)
    rfl (fun m hm => absurd hm List.not_mem_nil)
  have fails : holdsIn (fun t => (t.launchOf? (.user 0 1 0)).all (·.stat != .begun))
      (exec (.uncorrectableError (.teamState (.user 0 1 0))) loneState) = true := by decide +kernel
  obtain ⟨t, ⟨-, -, l', hl', hs⟩, ht⟩ := holdsIn_of_answers ha fails
  rw [hl', Option.all_some, hs] at ht
  exact absurd ht (by decide)

end Sys2Proof.Claims
end

section
/-! SUPPORT. Lanes: words that act once over the threads they select, and numbers by their bits. -/

namespace Sys2Proof.Machine
open Sys2Proof Sys2Proof.Claims

/-- A lane instruction of a bundle that has met its row: one effect over the threads that it acts on. -/
theorem issueLane_each {s : State} {i : Issuer} {w : OpWord} {n : Instr} (eff : State → Site → Thread → State × Act)
    (f : Thread → Done) (he : exec n s = issueLane w eff s)
    (heff : MayIssue s i w → ∀ x, eff (s.beginClause i) (i.site w) (i.begin x) = (s.beginClause i, .done (f (i.begin x))))
    (hf : ∀ x, (f x).plain) : IssuesLane s i w n f := by
  intro hm
  rw [he]
  exact issueWith_each hm.toMayIssue _ _ _ _ _ f (if_pos hm.met) (fun _ _ => rfl) (fun x _ => heff hm.toMayIssue x) hf

/-- A lane instruction whose value follows from the threads it acts over. -/
theorem laneFixed_each {s : State} {i : Issuer} {w : OpWord} {n : Instr} (d : Dest) (lat : Nat) (g : List Thread → Thread → W64)
    (f : Thread → W64) (he : exec n s = laneFixed w d lat g s)
    (hfg : ∀ x, g ((i.on w).map i.begin) (i.begin x) = f (i.begin x)) : IssuesLane s i w n fun x => Done.writes d (f x) lat :=
  issueLane_each _ _ he (fun _ x => Prod.ext rfl (congrArg (fun v => Act.done (Done.writes d v lat)) (hfg x))) fun _ => ⟨rfl,
    rfl⟩

/-- A number by its bits below n. -/
def bitSum (b : Nat → Bool) (n : Nat) : Nat := ((List.range n).map fun p => if b p then 2 ^ p else 0).sum

theorem bitSum_succ (b : Nat → Bool) (n : Nat) : bitSum b (n + 1) = bitSum b n + if b n then 2 ^ n else 0 := by
  simp [bitSum, List.range_succ]

theorem bitSum_lt (b : Nat → Bool) (n : Nat) : bitSum b n < 2 ^ n := by
  induction n with
  | zero => simp [bitSum]
  | succ n ih =>
    rw [bitSum_succ, Nat.pow_succ]
    split <;> omega

theorem testBit_bitSum (b : Nat → Bool) (n k : Nat) : (bitSum b n).testBit k = (decide (k < n) && b k) := by
  induction n with
  | zero => simp [bitSum]
  | succ n ih =>
    have hlt := bitSum_lt b n
    rw [bitSum_succ]
    rcases Nat.lt_trichotomy k n with h | rfl | h
    · split
      · rw [Nat.add_comm, Nat.testBit_two_pow_add_gt h, ih]
        simp [h, Nat.lt_succ_of_lt h]
      · simp [ih, h, Nat.lt_succ_of_lt h]
    · split
      · rename_i hb
        rw [Nat.add_comm, Nat.testBit_two_pow_add_eq, Nat.testBit_lt_two_pow hlt]
        simp [hb]
      · rename_i hb
        rw [Nat.add_zero, Nat.testBit_lt_two_pow hlt]
        simp [hb]
    · have h2 : bitSum b n + (if b n then 2 ^ n else 0) < 2 ^ k :=
        calc _ < 2 ^ (n + 1) := bitSum_succ b n ▸ bitSum_lt b (n + 1)
          _ ≤ 2 ^ k := Nat.pow_le_pow_right (by decide) h
      rw [Nat.testBit_lt_two_pow h2]
      simp [Nat.not_lt.mpr h]

/-- One bit of a ballot. -/
theorem foldl_ballot (p : Thread → Bool) (ts : List Thread) (m : W64) (n : Nat) (hn : n < 64) :
    (ts.foldl (fun (m : W64) u => if p u then m ||| ((1 : W64) <<< u.pos) else m) m).getLsbD n
      = (m.getLsbD n || ts.any fun u => p u && u.pos == n) := by
  induction ts generalizing m with
  | nil => simp
  | cons u ts ih =>
    rw [List.foldl_cons, ih, List.any_cons, ← Bool.or_assoc]
    congr 1
    cases p u with
    | false => simp
    | true =>
      have hone : ((1 : W64) <<< u.pos).getLsbD n = (u.pos == n) := by
        rw [BitVec.getLsbD_shiftLeft, show (1 : W64) = 1#64 from rfl, BitVec.getLsbD_one]
        rw [Bool.eq_iff_iff]
        simp [hn]
        omega
      simp only [if_true, BitVec.getLsbD_or, hone, Bool.true_and]

end Sys2Proof.Machine
end

section
/-! SUPPORT. LaneWords: votes, ballots, shuffles and reductions. -/

namespace Sys2Proof.Claims
open Sys2Proof Sys2Proof.Machine

theorem voteVal_map (vop : VoteOp) (ts : List Thread) (q : Thread → Bool) :
    voteVal vop (ts.map q) = match vop with
      | .all => ts.all q
      | .any => ts.any q
      | .uni => ts.all q || ts.all fun x => !q x := by
  cases vop <;> simp [voteVal, List.all_map, List.any_map, Function.comp_def]

/-- A vote, a ballot and a shuffle of the threads that a word acts on. -/
theorem vote_lanes (s : State) (i : Issuer) (c : Ctl) (d a : Reg) (neg : Bool) (vop : VoteOp) :
    let w := vecWord c [predSlot a.toNat] [predSlot d.toNat]
    let q (x : Thread) : Bool := xor neg (x.pred a.toNat)
    IssuesLane s i w (.vote c vop d a neg) fun _ => .writes (.pred d.toNat) (truth (match vop with
      | .all => (i.on w).all q
      | .any => (i.on w).any q
      | .uni => (i.on w).all q || (i.on w).all fun x => !q x)) 4 := by
  intro w q
  refine laneFixed_each (.pred d.toNat) 4 (fun on _ => if voteVal vop (on.map fun u => u.pred a.toNat != neg) then 1 else 0)
    (fun _ => truth (match vop with
      | .all => (i.on w).all q
      | .any => (i.on w).any q
      | .uni => (i.on w).all q || (i.on w).all fun x => !q x)) ?_ fun x => ?_
  · change execVote c vop d a neg s = _
    rfl
  have hq : ((i.on w).map i.begin).map (fun u => u.pred a.toNat != neg) = (i.on w).map q := by
    rw [List.map_map]
    refine List.map_congr_left fun x _ => ?_
    simp only [Function.comp_apply, Issuer.begin_pred, q]
    cases neg <;> simp
  rw [hq, voteVal_map]
  rfl

theorem redux_lanes {s : State} {i : Issuer} {c : Ctl} {d a : Reg} {rop : ReduxOp} {rt : RTy} {rnd : Rnd} {ftz : Bool} {r : FRes}
    (hr : r = reduxVal rop rt rnd ftz ((sortBy (fun x y => decide (x.tid ≤ y.tid)) (i.site (vecWord c [a.toNat] [d.toNat])).on).map
      fun x => (x.reg a.toNat).toNat))
    (hfl : r.fl.bits &&& s.fptrap i.b.key = 0) :
    IssuesLane s i (vecWord c [a.toNat] [d.toNat]) (.redux c rop rt d a rnd ftz) fun _ =>
      .writes (.reg d.toNat) (BitVec.ofNat 64 r.bits) 10 := by
  subst hr
  exact issueLane_each _ _ rfl (fun hm x => Prod.ext rfl (State.fpAct_begin hm hfl _)) fun _ => ⟨rfl, rfl⟩

theorem ballot_value (ts : List Thread) (q : Thread → Bool) :
    ts.foldl (fun (m : W64) u => if q u then m ||| ((1 : W64) <<< u.pos) else m) 0
      = BitVec.ofNat 64 (bitSum (fun p => ts.any fun x => x.tid % 32 == p && q x) 32) := by
  refine BitVec.eq_of_getLsbD_eq fun n hn => ?_
  rw [foldl_ballot _ _ _ _ hn, BitVec.getLsbD_ofNat, testBit_bitSum]
  simp only [show (0 : W64) = 0#64 from rfl, BitVec.getLsbD_zero, Bool.false_or, hn, decide_true, Bool.true_and]
  by_cases h32 : n < 32
  · simp only [h32, decide_true, Bool.true_and, Thread.pos, Bool.and_comm]
  · simp only [h32, decide_false, Bool.false_and, List.any_eq_false]
    intro x _
    have : x.tid % 32 < 32 := Nat.mod_lt _ (by decide)
    simp [Thread.pos]
    omega

theorem ballot_lanes (s : State) (i : Issuer) (c : Ctl) (d a : Reg) (neg : Bool) :
    let w := vecWord c [predSlot a.toNat] [d.toNat]
    let q (x : Thread) : Bool := xor neg (x.pred a.toNat)
    IssuesLane s i w (.ballot c d a neg) fun _ => .writes (.reg d.toNat) (BitVec.ofNat 64 ((List.range 32).map fun p =>
      if (i.on w).any (fun x => x.tid % 32 == p && q x) then 2 ^ p else 0).sum) 4 := by
  intro w q
  refine laneFixed_each (.reg d.toNat) 4
    (fun on _ => on.foldl (fun m u => if u.pred a.toNat != neg then m ||| ((1 : W64) <<< u.pos) else m) 0)
    (fun _ => BitVec.ofNat 64 (bitSum (fun p => (i.on w).any fun x => x.tid % 32 == p && q x) 32)) ?_ fun x => ?_
  · change execBallot c d a neg s = _
    rfl
  · simp only [List.foldl_map]
    rw [← ballot_value]
    congr 1
    funext m u
    simp only [Issuer.begin_pred, q, Thread.pos, Issuer.begin_tid]
    cases neg <;> simp

/-- What selects the source of a shuffle. -/
def selAmount (sel : ShflSel) (x : Thread) : Nat := match sel with | .reg b => (x.reg b.toNat).toNat | .imm n => n.toNat

/-- The registers that a shuffle reads. -/
def shflReads (a : Reg) (sel : ShflSel) : List Nat := a.toNat :: (match sel with | .reg b => [b.toNat] | .imm _ => [])

/-- The position that a thread reads from, where it names one within the row (R132). -/
def shflFrom (sop : ShflOp) (sel : ShflSel) (x : Thread) : Option Nat :=
  match sop with
  | .idx => some (selAmount sel x % 32)
  | .xor => some (x.tid % 32 ^^^ (selAmount sel x % 32))
  | .up => if selAmount sel x ≤ x.tid % 32 then some (x.tid % 32 - selAmount sel x) else none
  | .down => if x.tid % 32 + selAmount sel x ≤ 31 then some (x.tid % 32 + selAmount sel x) else none

/-- What a thread gets from a shuffle over some threads. -/
def shflVal (sop : ShflOp) (sel : ShflSel) (a : Reg) (on : List Thread) (x : Thread) : W64 :=
  ((((shflFrom sop sel x).bind fun p => on.find? fun y => y.tid % 32 == p).getD x).reg a.toNat).setWidth 64

theorem shflSource_eq (sop : ShflOp) (sel : ShflSel) (x : Thread) : shflSource sop x.pos (selAmount sel x) = shflFrom sop sel x := by
  have hp : x.tid % 32 < 32 := Nat.mod_lt _ (by decide)
  unfold shflSource shflFrom Thread.pos
  cases sop with
  | idx => rfl
  | xor => rfl
  | up =>
    dsimp only
    by_cases h : selAmount sel x ≤ x.tid % 32
    · rw [if_pos h, if_neg]
      simp
      omega
    · rw [if_neg h, if_pos]
      simp
      omega
  | down =>
    dsimp only
    by_cases h : x.tid % 32 + selAmount sel x ≤ 31
    · rw [if_pos h, if_neg]
      simp
      omega
    · rw [if_neg h, if_pos]
      simp
      omega

theorem shflVal_begin (i : Issuer) (sop : ShflOp) (sel : ShflSel) (a : Reg) (on : List Thread) (x : Thread) :
    shflVal sop sel a (on.map i.begin) (i.begin x) = shflVal sop sel a on (i.begin x) := by
  unfold shflVal
  congr 1
  cases shflFrom sop sel (i.begin x) with
  | none => rfl
  | some p =>
    rw [Option.bind_some, Option.bind_some, List.find?_map]
    have : (fun y => y.tid % 32 == p) ∘ i.begin = fun y => y.tid % 32 == p := by
      funext y
      simp
    rw [this]
    cases on.find? fun y => y.tid % 32 == p <;> simp

theorem shfl_lanes (s : State) (i : Issuer) (c : Ctl) (d a : Reg) (sop : ShflOp) (sel : ShflSel) :
    IssuesLane s i (vecWord c (shflReads a sel) [d.toNat]) (.shfl c sop d a sel) fun x =>
      .writes (.reg d.toNat) (shflVal sop sel a (i.on (vecWord c (shflReads a sel) [d.toNat])) x) 8 := by
  refine laneFixed_each (.reg d.toNat) 8
    (fun on t => ((((shflSource sop t.pos (selAmount sel t)).bind fun p => on.find? fun u => u.pos == p).getD t).reg a.toNat).setWidth 64)
    (shflVal sop sel a (i.on (vecWord c (shflReads a sel) [d.toNat]))) ?_ fun x => ?_
  · change execShfl c sop d a sel s = _
    cases sel <;> rfl
  · exact (congrArg (fun p => (((p.bind fun p => ((i.on (vecWord c (shflReads a sel) [d.toNat])).map i.begin).find? fun u =>
      u.pos == p).getD (i.begin x)).reg a.toNat).setWidth 64) (shflSource_eq sop sel (i.begin x))).trans (shflVal_begin ..)

/-- Settles O12: each word is one effect over the threads it selects, which beginning the clause leaves as they are. -/
theorem laneInstructions : Obligations.LaneInstructions := by
  intro s i c d a neg vop sop sel rop rt rnd ftz
  exact ⟨vote_lanes s i c d a neg vop, ballot_lanes s i c d a neg, shfl_lanes s i c d a sop sel, redux_lanes rfl⟩

end Sys2Proof.Claims
end

section
/-! SUPPORT. GoodTargets: the check of a branch's target. -/

namespace Sys2Proof.Machine
open Sys2Proof Sys2Proof.Claims

theorem directTarget_eq (i : Issuer) (off : BitVec 26) : directTarget i.cl.hdr off = target i off := by
  have h : BitVec.ofNat 64 i.cl.hdr + 8 * off.signExtend 64 = BitVec.ofInt 64 ((i.cl.hdr : Int) + 8 * off.toInt) := by
    rw [BitVec.ofInt_add, BitVec.ofInt_mul]
    rfl
  rw [directTarget, h, BitVec.toNat_ofInt]
  rfl

theorem MayIssue.inCode_begin {s : State} {i : Issuer} {w : OpWord} (h : MayIssue s i w) (k : TeamKey) (a : Nat) :
    (s.beginClause i).inCode k a = s.inCode k a := by
  rw [(State.beginClause_spec h.issuer h.bundle.2).2.2.2]
  rfl

/-- A branch, call or return to a good target. -/
theorem branchAct_good {s : State} {i : Issuer} {w : OpWord} (hm : MayIssue s i w) {a : Nat} (h : goodTarget s i a) (t : Thread)
    (link : Option (Dest × W64 × Nat)) :
    branchAct (s.beginClause i) (i.site w) t a link = .done { jump := some a, write := link } := by
  obtain ⟨h8, h56, hc⟩ := h
  have hc' : (s.beginClause i).inCode (i.site w).key a = true := (hm.inCode_begin ..).trans hc
  unfold branchAct
  rw [if_neg (by simp [h8]), if_neg]
  rw [hc', Bool.not_true, Bool.or_false, decide_eq_true_eq]
  exact Nat.not_le.mpr h56

/-- A direct branch or call to a good target. -/
theorem branchAct_direct {s : State} {i : Issuer} {w : OpWord} (hm : MayIssue s i w) {off : BitVec 26}
    (h : goodTarget s i (target i off)) (t : Thread) (link : Option (Dest × W64 × Nat)) :
    branchAct (s.beginClause i) (i.site w) t (directTarget (i.site w).cl.hdr off) link
      = .done { jump := some (target i off), write := link } :=
  (congrArg (fun a => branchAct _ _ _ a link) (directTarget_eq i off)).trans (branchAct_good hm h t link)

/-- An indirect branch or a return to a good target. -/
theorem branchAct_pair {s : State} {i : Issuer} {w : OpWord} (hm : MayIssue s i w) {a : Reg} {t : Thread}
    (h : goodTarget s i (t.pair a.toNat).toNat) : branchAct (s.beginClause i) (i.site w) (i.begin t) ((i.begin t).pair a.toNat).toNat none
      = .done { jump := some ((i.begin t).pair a.toNat).toNat } := by
  rw [Issuer.begin_pair]
  exact branchAct_good hm h _ _

end Sys2Proof.Machine
end

section
/-! SUPPORT. BranchWords: branches, calls and returns to good targets. -/

namespace Sys2Proof.Claims
open Sys2Proof Sys2Proof.Machine

/-- Settles O13: a nop does nothing but issue, and the check of a branch passes for a good target. -/
theorem branchesAndCalls : Obligations.BranchesAndCalls := by
  intro s i c d a off
  refine ⟨issue_each _ (fun _ => {}) rfl (fun _ => rfl) fun _ => ⟨rfl, rfl⟩, fun h => ⟨?bra, ?call⟩, fun h => ⟨?brx, ?ret⟩⟩
  case bra =>
    exact issue_each_on _ (fun _ => { jump := some (target i off) }) rfl
      (fun hm _ _ => Prod.ext rfl (branchAct_direct hm h _ none)) fun _ => ⟨rfl, rfl⟩
  case call =>
    exact issue_each_on _ (fun _ =>
        { jump := some (target i off), write := some (.pair d.toNat, BitVec.ofNat 64 (i.cl.hdr + 8 + 8 * i.cl.words.length),
          4) }) rfl
      (fun hm _ _ => Prod.ext rfl (branchAct_direct hm h _ _)) fun _ => ⟨rfl, rfl⟩
  case brx =>
    exact issue_each_on _ (fun x => { jump := some (x.pair a.toNat).toNat }) rfl
      (fun hm x hx => Prod.ext rfl (branchAct_pair hm (h x hx))) fun _ => ⟨rfl, rfl⟩
  case ret =>
    exact issue_each_on _ (fun x => { jump := some (x.pair a.toNat).toNat }) rfl
      (fun hm x hx => Prod.ext rfl (branchAct_pair hm (h x hx))) fun _ => ⟨rfl, rfl⟩

end Sys2Proof.Claims
end

section
/-! SUPPORT. OneTeam: a word of one thread, which may replace its team. -/

namespace Sys2Proof.Machine
open Sys2Proof Sys2Proof.Claims

/-- The one thread that a word acts on, as its effect sees it. -/
theorem MayIssueOne.site_on {s : State} {i : Issuer} {w : OpWord} {x : Thread} (h : MayIssueOne s i w x) : (i.site w).on = [i.begin x] := by
  show (i.on w).map i.begin = _
  rw [h.one]
  rfl

theorem MayIssue.asidOf_begin {s : State} {i : Issuer} {w : OpWord} (h : MayIssue s i w) (k : TeamKey) :
    (s.beginClause i).asidOf k = s.asidOf k := by
  rw [(State.beginClause_spec h.issuer h.bundle.2).2.2.2]
  rfl

/-- A team replaced by another of its key. -/
theorem State.team?_setTeam {s : State} {k : TeamKey} {T T' : Team} (h : s.team? k = some T) (hk : T'.key = k) (k' : TeamKey) :
    (s.modTeam k fun _ => T').team? k' = if k' = k then some T' else s.team? k' := by
  have e : s.modTeam k (fun _ => T') = s.modTeam k fun t => if t.key = k then T' else t := by
    unfold State.modTeam modWhere
    congr 1
    refine List.map_congr_left fun t _ => ?_
    by_cases ht : t.key = k <;> simp [ht]
  rw [e, State.team?_modTeam _ _ _ _ fun t => by split <;> simp_all]
  split
  · next hkk =>
    subst hkk
    rw [h, Option.map_some, if_pos (State.team?_key h)]
  · rfl

/-- A word whose effect replaces its team by one that stands as it stood. -/
theorem issue_setTeam {s : State} {i : Issuer} {w : OpWord} {x : Thread} {n : Instr} {T T' : Team}
    (eff : State → Site → Thread → State × Act) (d : Done) (he : exec n s = issue w eff s)
    (hT : (s.beginClause i).team? i.b.key = some T) (hk : T'.key = T.key) (hs : T'.threads = T.threads) (hb : T'.tbarIn = T.tbarIn)
    (heff : eff (s.beginClause i) (i.site w) (i.begin x) = ((s.beginClause i).modTeam i.b.key fun _ => T',
      .done d)) (hd : d.plain) :
    IssuesOne s i w x n ((s.beginClause i).modTeam i.b.key fun _ => T') d := by
  intro hm
  have hkey : T'.key = i.b.key := hk.trans (State.team?_key hT)
  have ht := State.team?_setTeam hT hkey
  rw [he]
  refine issueWith_one hm _ _ _ _ eff _ d rfl rfl heff hd rfl ?_ fun k j y hy hl => ?_
  · rw [ht, if_pos rfl, hT, Option.map_some, Option.map_some, hb]
  · refine ⟨y, ?_, hl⟩
    unfold State.thread? at hy ⊢
    rw [ht]
    split
    · next hkk =>
      subst hkk
      rw [hT] at hy
      simpa [Team.thread?, hs] using hy
    · exact hy

end Sys2Proof.Machine
end

section
/-! SUPPORT. TagWords: the operations of the tag table. -/

namespace Sys2Proof.Claims
open Sys2Proof Sys2Proof.Machine

/-- A sptag word on the team that a clause has begun for. -/
theorem sptag_one {s : State} {i : Issuer} {x : Thread} {c : Ctl} {d a : Reg} {reads : List Nat} {op : Thread →
  TagOp} {n : Instr} {T : Team}
    (hT : (s.beginClause i).team? i.b.key = some T) (he : exec n s = sptag c d a reads op s) (hop : op (i.begin x) = op x)
    (tags : List (Nat × W64 × W32)) (value : W32)
    (hr : T.tagOp (op x) (x.pair a.toNat) = ({ T with tags := tags }, value)) :
    IssuesOne s i (memWord c (pairSlots a ++ reads) (regSlots d)) x n
      ((s.beginClause i).modTeam i.b.key fun _ => { T with tags := tags }) (.brings d [value] .memory) := by
  refine issue_setTeam (fun s site x =>
    match s.team? site.key with
    | none => (s, .nothing)
    | some t =>
      let r := t.tagOp (op x) (x.pair a.toNat)
      (s.modTeam site.key (fun _ => r.1), .pend d.toNat [r.2] .memory)) _ he hT rfl rfl rfl ?_ ⟨rfl, rfl⟩
  simp only [show (i.site _).key = i.b.key from rfl, hT, hop, Issuer.begin_pair, hr]
  rfl

/-- Settles O25: what the tag table holds decides what each operation does to it. -/
theorem scratchTags : Obligations.ScratchTags := by
  intro s i x c d a b T s1 hT tag found lowest now value w1
  have hfind : T.tagFind tag = found.map fun e => (e.1, e.2.2) := rfl
  have hfree : T.tagFree = lowest := rfl
  refine ⟨?look, ?set, ?clr⟩
  case look =>
    refine sptag_one (reads := []) (op := fun _ => .look) hT rfl rfl T.tags value (Prod.ext rfl ?_)
    simp only [Team.tagOp, value]
    rw [hfind]
    cases found <;> rfl
  case set =>
    refine sptag_one (reads := regSlots b) (op := fun x => .set (x.reg b.toNat)) hT rfl (by simp) _ _ ?_
    simp only [Team.tagOp]
    rw [hfind, hfree]
    cases found with
    | some e =>
      simp only [Option.map_some, beq_iff_eq]
      rfl
    | none => cases lowest <;> rfl
  case clr =>
    refine sptag_one (reads := []) (op := fun _ => .clr) hT rfl rfl _ _ ?_
    simp only [Team.tagOp, value]
    rw [hfind]
    cases found <;> rfl

end Sys2Proof.Claims
end

section
/-! SUPPORT. Fifo: what performing stores leaves in the FIFO of a core. -/

namespace Sys2Proof.Machine
open Sys2Proof Sys2Proof.Claims

/-! ## The FIFO -/

theorem State.writeBytes_cores (s : State) (p : Place) (bs : List Byte) : (s.writeBytes p bs).cores = s.cores := by
  cases p with
  | here pa =>
    unfold State.writeBytes
    simp only
    split <;> rfl
  | peer c pa => rfl

theorem State.writeDescr_cores (s : State) (p : Place) (d : Descr) : (s.writeDescr p d).cores = s.cores := by
  cases p with
  | here pa =>
    unfold State.writeDescr
    simp only
    split <;> rfl
  | peer c pa => rfl

theorem State.failLaunchOf_cores (s : State) (k : TeamKey) (c : Cause) (g : Nat) : (s.failLaunchOf k c g).cores = s.cores := by
  cases k <;> rfl

theorem State.core_congr {s t : State} (h : s.cores = t.cores) (n : Nat) : s.core n = t.core n := by
  unfold State.core
  rw [h]

/-- What the L1 lines of a core hold once a store is performed. -/
def patchLine (e : StoreEntry) (x : Nat × Block) : Nat × Block :=
  if x.1 == e.place.blockKey then
    (x.1, { x.2 with bytes := patch x.2.bytes (e.place.pa % 64) e.bytes, descr := e.descr.getD x.2.descr }) else x

/-- A store changes the lines of its core that hold its block, and nothing else of any core. -/
theorem State.performEntry_cores (s : State) (core : Nat) (e : StoreEntry) :
    (s.performEntry core e).cores = (s.modCore core fun c => { c with l1 := c.l1.map (patchLine e) }).cores := by
  have key (u : State) (h : u.cores = s.cores) : (u.modCore core fun c => { c with l1 := c.l1.map (patchLine e) }).cores
      = (s.modCore core fun c => { c with l1 := c.l1.map (patchLine e) }).cores := by
    unfold State.modCore State.setCore
    simp only [State.core_congr h, h]
  refine key _ ?_
  have h1 : (if s.answers e.place then s else s.failLaunchOf e.key .machine 0).cores = s.cores := by
    split
    · rfl
    · exact State.failLaunchOf_cores ..
  refine Eq.trans ?_ h1
  split
  · exact State.writeDescr_cores ..
  · exact State.writeBytes_cores ..

theorem State.modCore_swf {s : State} (h : swf Core.fresh s.cores = true) (n : Nat) (f : Core → Core) :
    swf Core.fresh (s.modCore n f).cores = true := swf_sset _ _ _ _ h

theorem State.performEntry_fifo {s : State} (h : swf Core.fresh s.cores = true) (core : Nat) (e : StoreEntry) (n : Nat) :
    swf Core.fresh (s.performEntry core e).cores = true ∧ ((s.performEntry core e).core n).fifo = (s.core n).fifo := by
  have hc := s.performEntry_cores core e
  refine ⟨hc ▸ State.modCore_swf h _ _, ?_⟩
  rw [State.core_congr hc, State.core_modCore h]
  split
  · next hn => rw [hn]
  · rfl

/-- The stores that are performed leave the FIFO, oldest first. -/
theorem State.performFifo_fifo (n : Nat) : ∀ {s : State} (_ : swf Core.fresh s.cores = true) (core : Nat),
    ((s.performFifo core n).core core).fifo = (s.core core).fifo.drop n := by
  induction n with
  | zero => exact fun _ _ => rfl
  | succ n ih =>
    intro s h core
    unfold State.performFifo
    cases hf : (s.core core).fifo with
    | nil => rw [hf, List.drop_nil]
    | cons e rest =>
      have hm := State.modCore_swf h core fun c => { c with fifo := rest }
      obtain ⟨hp, hq⟩ := State.performEntry_fifo hm core e core
      rw [ih hp, hq, State.core_modCore h, if_pos rfl, List.drop_succ_cons]

theorem lastOf_snoc (k : TeamKey) (l : List StoreEntry) (e : StoreEntry) :
    lastOf k (l ++ [e]) = if e.key = k then l.length + 1 else lastOf k l := by
  unfold lastOf
  rw [List.zipIdx_append, List.filter_append, List.foldl_append]
  by_cases h : e.key = k <;> simp [List.zipIdx_cons, h]

theorem lastOf_le (k : TeamKey) (l : List StoreEntry) : lastOf k l ≤ l.length := by
  induction l using List.reverseRecOn with
  | nil => exact Nat.le_refl 0
  | append_singleton l e ih =>
    rw [lastOf_snoc, List.length_append, List.length_singleton]
    split <;> omega

/-- No store of a team stands behind its last one. -/
theorem drop_lastOf (k : TeamKey) (l : List StoreEntry) : ∀ e ∈ l.drop (lastOf k l), e.key ≠ k := by
  induction l using List.reverseRecOn with
  | nil => simp
  | append_singleton l e ih =>
    rw [lastOf_snoc]
    split
    · rw [List.drop_eq_nil_of_le (by simp)]
      simp
    · next he =>
      rw [List.drop_append_of_le_length (lastOf_le k l)]
      intro x hx
      rcases List.mem_append.mp hx with hx | hx
      · exact ih x hx
      · rwa [List.mem_singleton.mp hx]

end Sys2Proof.Machine
end

section
/-! SUPPORT. FenceWords: fences. -/

namespace Sys2Proof.Claims
open Sys2Proof Sys2Proof.Machine

/-- Settles O22: the drain performs every store up to the team's last, so that none of them is left. -/
theorem fences : Obligations.Fences := by
  intro s i x c sc u
  refine ⟨issue_keeps (fun s site t => (((s.drain site.key).acquire site.core sc).bumpInterval site.key t.tid,
    .nothing)) _ {} rfl
      (fun _ => ?_) ⟨rfl, rfl⟩ ?_, fun h k e he => ?_⟩
  · have ha : u.acquire i.t.core sc = if sc = .team then u else u.modCore i.t.core fun k => { k with l1 := [] } := by
      cases sc <;> rfl
    rw [← ha, Issuer.begin_tid]
    rfl
  · refine State.bumpInterval_keeps ?_ _ _
    split
    · exact State.drain_keeps (Keeps.refl _) _
    · exact State.modCore_keeps (State.drain_keeps (Keeps.refl _) _) ..
  · unfold State.drain at he
    rw [State.performFifo_fifo _ h] at he
    exact drop_lastOf k _ e he

end Sys2Proof.Claims
end

section
/-! SUPPORT. Prefetch: prefetches and the hint ring. -/

namespace Sys2Proof.Machine
open Sys2Proof Sys2Proof.Claims

theorem State.writeBytes_hintTail (s : State) (p : Place) (bs : List Byte) : (s.writeBytes p bs).hintTail = s.hintTail := by
  cases p with
  | here pa =>
    unfold State.writeBytes
    simp only
    split <;> rfl
  | peer c pa => rfl

/-- A prefetch that translates to a place that answers brings its line. -/
theorem State.prefetch_line {s u : State} {site : Site} {tid va : Nat} {p : Place} {peer : Bool} {b : Block}
    (ha : s.access site.key site.core tid va 1 [.read] .read site.b.notes = (u, .ok p peer)) (hb : u.readBlock p = some b) :
    s.prefetch site tid va true = (u.modCore site.core fun c => { c with l1 := putLine c.l1 p.blockKey b }, .nothing) := by
  simp only [State.prefetch, ha, Bool.not_true, Bool.false_eq_true, if_false, hb]

/-- A prefetch of the translation alone. -/
theorem State.prefetch_only {s u : State} {site : Site} {tid va : Nat} {p : Place} {peer : Bool}
    (ha : s.access site.key site.core tid va 1 [.read] .read site.b.notes = (u, .ok p peer)) :
    s.prefetch site tid va false = (u, .nothing) := by
  simp only [State.prefetch, ha, Bool.not_false, if_true]

end Sys2Proof.Machine
end

section
/-! SUPPORT. HintWords: prefetches and migration hints. -/

namespace Sys2Proof.Claims
open Sys2Proof Sys2Proof.Machine

/-- What a hint leaves at the ring's tail, or in the count of hints dropped (R201). -/
def hintState (s s1 : State) (i : Issuer) (va dir : Nat) : State :=
  if (s.hintTail + 1) % 1024 = s.hintHead % 1024 then
    { s1 with hintDrop := BitVec.ofNat 32 (min 0xFFFFFFFF (s.hintDrop.toNat + 1)) }
  else
    { s1.writeBytes (.here (s.hintBase + 16 * s.hintTail)) (bytesOfNat 8 (va / 65536 * 65536)
        ++ bytesOfNat 2 (s.asidOf i.b.key) ++ bytesOfNat 1 (i.t.core / 40) ++ bytesOfNat 1 dir ++ bytesOfNat 4 0) with
      hintTail := (s.hintTail + 1) % 1024 }

theorem putHint_begin {s : State} {i : Issuer} {w : OpWord} (hm : MayIssue s i w) (va dir : Nat) :
    (s.beginClause i).putHint (pageOf va) ((s.beginClause i).asidOf i.b.key) (dieOf i.t.core) dir = hintState s (s.beginClause i) i va dir := by
  rw [hm.asidOf_begin]
  have hf := (State.beginClause_spec hm.issuer hm.bundle.2).2.2.2
  have ht : (s.beginClause i).hintTail = s.hintTail := by rw [hf]
  have hh : (s.beginClause i).hintHead = s.hintHead := by rw [hf]
  have hb : (s.beginClause i).hintBase = s.hintBase := by rw [hf]
  have hd : (s.beginClause i).hintDrop = s.hintDrop := by rw [hf]
  by_cases hfull : (s.hintTail + 1) % 1024 = s.hintHead % 1024
  · refine (if_pos (by rw [ht, hh]; exact beq_iff_eq.mpr hfull)).trans (Eq.trans ?_ (if_pos hfull).symm)
    rw [hd]
    rfl
  · refine (if_neg (by rw [ht, hh]; exact fun h => hfull (beq_iff_eq.mp h))).trans (Eq.trans ?_ (if_neg hfull).symm)
    simp only [State.writeBytes_hintTail, ht, hb]
    rfl

/-- A migration hint word of one thread. -/
theorem pmig_one {s : State} {i : Issuer} {x : Thread} {c : Ctl} {a : Reg} {off : BitVec 16} {dir : Nat} {n : Instr}
    (he : exec n s = pmig c a off dir s) :
    IssuesOne s i (memWord c (pairSlots a) []) x n (hintState s (s.beginClause i) i (x.pair a.toNat + off.signExtend 64).toNat dir) {} := by
  intro hm
  have hk : Keeps (s.beginClause i) (hintState s (s.beginClause i) i (x.pair a.toNat + off.signExtend 64).toNat dir) := by
    rw [← putHint_begin hm.toMayIssue]
    exact State.putHint_keeps (Keeps.refl _) ..
  refine issue_keeps (fun s site t =>
    let page := pageOf (t.address a off)
    let seen := site.on.any fun u => u.tid < t.tid && pageOf (u.address a off) == page
    (if seen then s else s.putHint page (s.asidOf site.key) (dieOf site.core) dir,
      .nothing)) _ {} he (fun hm => Prod.ext ?_ rfl)
    ⟨rfl, rfl⟩ hk hm
  have alone : ((i.site (memWord c (pairSlots a) [])).on.any fun u => u.tid < (i.begin x).tid
      && pageOf (u.address a off) == pageOf ((i.begin x).address a off)) = false := by
    simp [hm.site_on]
  refine (if_neg (by rw [alone]; exact Bool.false_ne_true)).trans ?_
  rw [Thread.address, Issuer.begin_pair]
  exact putHint_begin hm.toMayIssue _ dir

theorem access_keeps_of {s u : State} {k : TeamKey} {core tid va n : Nat} {accs : List Acc} {pu : Purity} {notes : List WalkNote} {r}
    (h : s.access k core tid va n accs pu notes = (u, r)) : Keeps s u := by
  have := State.access_keeps (Keeps.refl s) k core tid va n accs pu notes
  rwa [h] at this

/-- Settles O21: a prefetch changes its core's lines alone, and a hint the ring's tail. -/
theorem prefetchesAndHints : Obligations.PrefetchesAndHints := by
  intro s i x c a off sc u p peer b s1 w va hint
  refine ⟨fun ha hb => ⟨?pref, ?tr⟩, ?comb, ?pool⟩
  case pref =>
    refine issue_keeps (fun s site t => s.prefetch site t.tid (t.address a off) true) _ {} rfl (fun _ => ?_) ⟨rfl, rfl⟩
      (State.modCore_keeps (access_keeps_of ha) ..)
    rw [Thread.address, Issuer.begin_pair, Issuer.begin_tid]
    exact State.prefetch_line ha hb
  case tr =>
    refine issue_keeps (fun s site t => s.prefetch site t.tid (t.address a off) false) _ {} rfl (fun _ => ?_) ⟨rfl, rfl⟩
      (access_keeps_of ha)
    rw [Thread.address, Issuer.begin_pair, Issuer.begin_tid]
    exact State.prefetch_only ha
  case comb => exact pmig_one rfl
  case pool => exact pmig_one rfl

end Sys2Proof.Claims
end

section
/-! SUPPORT. Regroup: the bin of a thread whose team has none. -/

namespace Sys2Proof.Machine
open Sys2Proof Sys2Proof.Claims

/-! ## Bins -/

/-- Fewer than 64 bins leave a bin number free. -/
theorem freeBin_isSome {bins : List Bin} (h : bins.length < 64) : ∃ n, freeBin bins = some n := by
  refine Option.ne_none_iff_exists'.mp fun hn => ?_
  have used : ∀ n ∈ List.range 64, n ∈ bins.map (·.idx) := by
    intro n hn'
    have := List.find?_eq_none.mp hn n hn'
    simpa using this
  have := (List.nodup_range (n := 64)).subperm used |>.length_le
  simp at this
  omega

/-- A bin of one thread. -/
def State.newBin (s : State) (k : TeamKey) (tid pc n : Nat) : Bin :=
  { idx := n, key := k, pc := pc, tids := [tid], filed := s.cycle (s.coreOf k), age := (s.core (s.coreOf k)).regroupAge }

/-- A thread whose team has no bin is filed into a new one. -/
theorem State.fileThread_new {s : State} {k : TeamKey} {tid pc : Nat} (hk : ∀ b ∈ (s.core (s.coreOf k)).bins, b.key ≠ k)
    (hl : (s.core (s.coreOf k)).bins.length < 64) : ∃ n, s.fileThread k tid pc =
      (s.modCore (s.coreOf k) fun c => { c with bins := c.bins ++ [s.newBin k tid pc n] }).modThread k tid
        fun x => { x with stat := .binned n, clause := none } := by
  obtain ⟨n, hn⟩ := freeBin_isSome hl
  have hf : (s.core (s.coreOf k)).bins.find? (fun b => b.key == k && b.pc == pc) = none := by
    rw [List.find?_eq_none]
    intro b hb
    simp [hk b hb]
  refine ⟨n, ?_⟩
  unfold State.fileThread
  simp only [hf, hn]
  rfl

end Sys2Proof.Machine
end

section
/-! SUPPORT. RegroupWords: reform, rejoin and the clause's end. -/

namespace Sys2Proof.Claims
open Sys2Proof Sys2Proof.Machine

/-- The word of a regroup instruction. -/
def regroupWord (c : Ctl) : OpWord := { c := c, cls := some 4, reads := [], writes := [], regroup := true }

/-- A regroup word of a clause: what it asks of the clause's end. -/
theorem regroup_each {s : State} {i : Issuer} {c : Ctl} {n : Instr} (f : Site → Clause →
  Clause) (he : exec n s = regroupWith c f s)
    (hm : MayIssue s i (regroupWord c)) :
    Answers (exec n s) fun t => Issued (s.beginClause i) t i (regroupWord c)
      (f (i.site (regroupWord c)))
      ((i.on (regroupWord c)).map fun x => (x.tid, ({} : Done))) := by
  rw [he]
  exact issueWith_each hm _ _ _ _ _ (fun _ => {}) rfl (fun _ _ => rfl) (fun _ _ => rfl) fun _ => ⟨rfl, rfl⟩

/-- Settles O16: the words are remembered to the clause's end, which takes the first case that holds of a thread. -/
theorem regrouping : Obligations.Regrouping := by
  refine ⟨fun s i c => ?words, fun s k c x hx hs => ⟨fun hr => ?meets, fun hr hmem hk hl _ hwf => ?filed, fun hr hn => ?on⟩⟩
  case words =>
    intro w acts hm
    refine ⟨?_, regroup_each (fun _ cl => { cl with rejoin := true }) rfl hm, regroup_each (fun _ cl => cl) rfl hm⟩
    have h := regroup_each (n := .reform c) (fun site cl => { cl with reform := site.on.map (·.tid) }) rfl hm
    have on : (i.site (regroupWord c)).on.map (·.tid) = (i.on (regroupWord c)).map (·.tid) := by
      show ((i.on (regroupWord c)).map i.begin).map (·.tid) = _
      rw [List.map_map]
      exact List.map_congr_left fun x _ => Issuer.begin_tid i x
    rwa [on] at h
  case meets =>
    unfold State.endThread
    simp only [hx, hr, if_true]
    refine ⟨trivial, ?_⟩
    refine (State.thread?_modThread s k k x.tid x.tid
      (fun y => { y with stat := .parked (.meeting x.pc false), clause := none }) fun _ => rfl).trans ((if_pos ⟨rfl,
        rfl⟩).trans ?_)
    rw [hx]
    rfl
  case filed =>
    obtain ⟨n, hn⟩ := State.fileThread_new (tid := x.tid) (pc := x.pc) hk hl
    have he : s.endThread k c x.tid = (s.fileThread k x.tid x.pc, false) := by
      unfold State.endThread
      simp [hx, hr, hmem]
    rw [he, hn]
    refine ⟨rfl, s.newBin k x.tid x.pc n, ?_, rfl, rfl, rfl, rfl⟩
    rw [State.core_congr (State.modThread_cores ..), State.core_modCore hwf, if_pos rfl]
    exact List.mem_append_right _ (List.mem_singleton.mpr rfl)
  case on =>
    unfold State.endThread
    simp [hx, hr, hn, hs]

end Sys2Proof.Claims
end

section
/-! SUPPORT. Access: the checks of an access, and what a load finds. -/

namespace Sys2Proof.Machine
open Sys2Proof Sys2Proof.Claims

/-! ## The checks of an access -/

/-- A thread with no acquire in its core's buffer has none to flush. -/
theorem State.flushAcquires_none {s : State} {k : TeamKey} {tid : Nat}
    (h : ∀ e ∈ (s.core (s.coreOf k)).atoms, e.key = k → e.tid = tid →
      e.op.order.acquires = false) : s.flushAcquires k tid = s := by
  have hn : (s.core (s.coreOf k)).atoms.filter (fun e => e.key == k && e.tid == tid && e.op.order.acquires) = [] := by
    rw [List.filter_eq_nil_iff]
    intro e he
    simp only [Bool.and_eq_true, beq_iff_eq, not_and, Bool.not_eq_true]
    exact fun ⟨hk, ht⟩ => h e he hk ht
  unfold State.flushAcquires
  simp only [hn]
  rfl

theorem MayIssue.coreOf_begin {s : State} {i : Issuer} {w : OpWord} (h : MayIssue s i w) (k : TeamKey) :
    (s.beginClause i).coreOf k = s.coreOf k := by
  have hr := (State.beginClause_spec h.issuer h.bundle.2).2.2.1 k
  unfold State.coreOf
  cases ht : s.team? k <;> cases ht' : (s.beginClause i).team? k <;> rw [ht, ht'] at hr <;> simp at hr
  exact (congrArg Team.core hr : _)

theorem MayIssue.answers_begin {s : State} {i : Issuer} {w : OpWord} (h : MayIssue s i w) (p : Place) :
    (s.beginClause i).answers p = s.answers p := by
  rw [(State.beginClause_spec h.issuer h.bundle.2).2.2.2]
  rfl

theorem MayIssue.ctx_begin {s : State} {i : Issuer} {w : OpWord} (h : MayIssue s i w) (n : Nat) :
    (s.beginClause i).ctx n = s.ctx n := by
  rw [(State.beginClause_spec h.issuer h.bundle.2).2.2.2]
  rfl

theorem MayIssue.atoms_begin {s : State} {i : Issuer} {w : OpWord} (h : MayIssue s i w) (n : Nat) :
    ((s.beginClause i).core n).atoms = (s.core n).atoms := by
  rw [(State.beginClause_spec h.issuer h.bundle.2).2.2.2]
  rfl

/-- The race detector looks at no access of a walker thread, and at none of a launch that does not ask for it. -/
theorem State.raceCheck_off {s : State} {k : TeamKey} {tid va n pc kind : Nat} {sc : Scope} {writes : Bool} {ival : W32}
    (h : k.isWalker = true ∨ s.launchHas k (·.race) = false) : s.raceCheck k tid va n pc kind sc writes ival = (s, false) := by
  unfold State.raceCheck
  cases k with
  | walker core slot => rfl
  | user ctx l team =>
    have hn : s.launchHas (.user ctx l team) (·.race) = false := h.resolve_left Bool.false_ne_true
    simp only
    cases hl : s.launch? ctx l with
    | none => rfl
    | some L =>
      simp only [State.launchHas, State.launchOf?, hl] at hn
      simp only [hn, Bool.not_false, if_true]

/-- The checks of an access in a state with nothing to flush and no detector on. -/
theorem State.gateRace_stop {s : State} {site : Site} {tid : Nat} {g : GAcc} {writes : Bool} {c : Cause}
    (hf : s.flushAcquires site.key tid = s)
    (ha : s.access site.key site.core tid g.va g.n g.accs g.pu site.b.notes = (s, .fault c)) :
    s.gateRace site tid g writes = (s, .stop (.trap (Trap.at tid c g.recKind g.va))) := by
  simp only [State.gateRace, State.gate, hf, ha]

theorem State.gateRace_go {s : State} {site : Site} {tid : Nat} {g : GAcc} {writes : Bool} {p : Place} {peer : Bool}
    (hf : s.flushAcquires site.key tid = s)
    (ha : s.access site.key site.core tid g.va g.n g.accs g.pu site.b.notes = (s, .ok p peer))
    (hr : site.key.isWalker = true ∨ s.launchHas site.key (·.race) = false) :
    s.gateRace site tid g writes = (s, .go p (g.sc.reach peer)) := by
  have hc := State.raceCheck_off (tid := tid) (va := g.va) (n := g.n) (pc := site.pc) (kind := g.kind) (sc := g.sc.reach peer)
    (writes := writes) (ival := s.ivalOf site.key tid) hr
  simp only [State.gateRace, State.gate, hf, ha, hc]
  rfl

/-- The access of an address that no page is looked up for. -/
theorem State.access_misaligned {s : State} {k : TeamKey} {core tid va n : Nat} {accs : List Acc} {pu : Purity} {notes : List WalkNote}
    (h : va % n ≠ 0) : s.access k core tid va n accs pu notes = (s, .fault .align) := if_pos (bne_iff_ne.mpr h)

theorem State.access_beyond {s : State} {k : TeamKey} {core tid va n : Nat} {accs : List Acc} {pu : Purity} {notes : List WalkNote}
    (h : va % n = 0) (hb : 2 ^ 56 ≤ va) : s.access k core tid va n accs pu notes = (s, .fault .pageProt) :=
  (if_neg (by simp [h])).trans (if_pos hb)

theorem State.access_walker {s : State} {k : TeamKey} {core tid va n : Nat} {accs : List Acc} {pu : Purity} {notes : List WalkNote}
    (h : va % n = 0) (hb : va < 2 ^ 56) (hk : k.isWalker = true) : s.access k core tid va n accs pu notes =
      (s, if s.answers (.here va) then .ok (.here va) false else .fault .machine) :=
  (if_neg (by simp [h])).trans ((if_neg (Nat.not_le.mpr hb)).trans (if_pos hk))

/-- R61's check of an access through a page: no launch of the thread's objects. -/
def State.passesPurity (s : State) (k : TeamKey) (p : LastPage) (pu : Purity) (va n : Nat) : Bool :=
  match s.launchOf? k with | some l => l.purityOk p pu va n | none => true

theorem MayIssue.passesPurity_begin {s : State} {i : Issuer} {w : OpWord} (h : MayIssue s i w) (k : TeamKey) (p : LastPage) (pu : Purity)
    (va n : Nat) : (s.beginClause i).passesPurity k p pu va n = s.passesPurity k p pu va n := by
  unfold State.passesPurity
  rw [h.launchOf?_begin]

/-- The access of an address that the thread's last-page register covers. -/
theorem State.access_lastPage {s : State} {k : TeamKey} {core tid va n : Nat} {accs : List Acc} {pu : Purity} {notes : List WalkNote}
    {x : Thread} {p : LastPage} (h : va % n = 0) (hb : va < 2 ^ 56) (hk : k.isWalker = false) (hx : s.thread? k tid = some x)
    (hp : x.lpr = some p) (ha : p.asid = (s.ctx k.ctxId).asid) (hlo : p.va ≤ va) (hhi : va < p.va + p.size) :
    s.access k core tid va n accs pu notes =
      if !accs.all p.permits then (s, .fault .pageProt)
      else if !s.passesPurity k p pu va n then (s, .fault .purity)
      else (s, .ok (p.place.add (va - p.va)) p.place.isPeer) := by
  have ht : s.translate k core tid va notes = (s, .page p) := by
    unfold State.translate
    simp only [hx, Option.bind_some, hp, ha, beq_self_eq_true, Bool.true_and, hlo, hhi, decide_true, if_true]
  unfold State.access
  rw [if_neg (by simp [h]), if_neg (Nat.not_le.mpr hb), hk, if_neg Bool.false_ne_true, ht]
  rfl

/-! ## What a load finds -/

/-- A load that no line of its core serves, where nothing answers. -/
theorem State.loadBlock_none {s : State} {core : Nat} {sc : Scope} {na : Bool} {p : Place}
    (hs : sc ≠ .team ∨ ((s.core core).l1.any fun y => y.1 == p.blockKey) = false) (hb : s.readBlock p = none) :
    s.loadBlock core sc na p = (s, none) := by
  unfold State.loadBlock
  simp only [hb]
  cases hl : (s.core core).l1.find? fun x => x.1 == p.blockKey with
  | none => rfl
  | some l =>
    have hsc : sc ≠ .team := hs.resolve_right fun hn => by
      have := List.any_eq_false.mp hn l (List.mem_of_find?_eq_some hl)
      exact this (List.find?_some (p := fun x : Nat × Block => x.1 == p.blockKey) hl)
    simp only
    rw [if_neg (by simpa using hsc)]

/-- A load that no line of its core serves reads memory. -/
theorem State.loadBlock_some {s : State} {core : Nat} {sc : Scope} {na : Bool} {p : Place} {b : Block}
    (hs : sc ≠ .team ∨ ((s.core core).l1.any fun y => y.1 == p.blockKey) = false) (hb : s.readBlock p = some b) :
    s.loadBlock core sc na p = (if ((s.core core).l1.any fun y => y.1 == p.blockKey) = true ∨ (sc = .team ∧ na = false) then
      s.modCore core fun c => { c with l1 := putLine c.l1 p.blockKey b } else s, some b) := by
  unfold State.loadBlock
  simp only [hb]
  cases hl : (s.core core).l1.find? fun x => x.1 == p.blockKey with
  | none =>
    have hn : ((s.core core).l1.any fun y => y.1 == p.blockKey) = false := by
      rw [List.any_eq_false]
      exact fun y hy => List.find?_eq_none.mp hl y hy
    simp only [hn, Option.isSome_none, Bool.false_or, Bool.false_eq_true, false_or]
    cases sc <;> cases na <;> rfl
  | some l =>
    have hy : ((s.core core).l1.any fun y => y.1 == p.blockKey) = true :=
      List.any_eq_true.mpr ⟨l, List.mem_of_find?_eq_some hl, List.find?_some (p := fun x : Nat × Block => x.1 == p.blockKey) hl⟩
    have hsc : sc ≠ .team := hs.resolve_right (by rw [hy]; decide)
    simp only
    rw [if_neg (by simpa using hsc), hy]
    simp

theorem putLine_ne_nil (l : List (Nat × Block)) (k : Nat) (b : Block) : putLine l k b ≠ [] := List.cons_ne_nil _ _

/-- A line of a core changes none of its stores. -/
theorem State.ownStores_putLine (s : State) (core : Nat) (k : TeamKey) (tid : Nat) (p : Place) (b : Block) (n : Nat) (b' : Block) :
    (s.modCore core fun c => { c with l1 := putLine c.l1 n b' }).ownStores core k tid p b = s.ownStores core k tid p b := by
  have hc : (s.modCore core fun c => { c with l1 := putLine c.l1 n b' }).core core
      = { s.core core with l1 := putLine (s.core core).l1 n b' } :=
    sget_sset_of_ne (fun hf => putLine_ne_nil _ _ _ (congrArg Core.l1 hf)) _ _
  unfold State.ownStores
  rw [hc]

/-- What a read ends with, once its block and the thread's own stores over it are known. -/
theorem State.readAt_some {s u : State} {site : Site} {tid : Nat} {p : Place} {sc : Scope} {na data : Bool} {b own : Block}
    (hl : s.loadBlock site.core sc na p = (u, some b)) (ho : u.ownStores site.core site.key tid p b = own) :
    (s.readAt site tid p sc na data).1 = u ∧ (s.readAt site tid p sc na data).2 = match own.poison.filter fun _ => data with
      | some c => .error c
      | none => if crosses site.core p && fmtReserved (fmtOf own.descr) then .error .format else .ok own := by
  unfold State.readAt State.loadFor
  simp only [hl, Option.map_some, ho]
  cases own.poison.filter fun _ => data with
  | some c => exact ⟨rfl, rfl⟩
  | none =>
    simp only
    split <;> exact ⟨rfl, rfl⟩

end Sys2Proof.Machine
end

section
/-! SUPPORT. AccessOrder: the order of the checks, and the order of what a load reads. -/

namespace Sys2Proof.Claims
open Sys2Proof Sys2Proof.Machine

/-- Settles O17: the checks in order, each with the ones before it passed. -/
theorem accessChecks : Obligations.AccessChecks := by
  intro s i x w g writes hm hatoms s1 r stop
  have hf : s1.flushAcquires (i.site w).key x.tid = s1 := by
    refine State.flushAcquires_none fun e he => ?_
    rw [hm.coreOf_begin, hm.atoms_begin] at he
    exact hatoms e he
  refine ⟨fun h => State.gateRace_stop hf (State.access_misaligned h),
    fun h hb => State.gateRace_stop hf (State.access_beyond h hb),
    fun h hb hk => ?walker, fun p h hb hk hx ha hlo hhi => ?page⟩
  case walker =>
    have hacc := State.access_walker (s := s1) (core := (i.site w).core) (tid := x.tid) (n := g.n) (accs := g.accs) (pu := g.pu)
      (notes := (i.site w).b.notes) h hb hk
    have hans : s1.answers (.here g.va) = s.answers (.here g.va) := hm.answers_begin _
    rw [hans] at hacc
    cases hyes : s.answers (.here g.va) with
    | true =>
      rw [hyes] at hacc
      exact State.gateRace_go hf hacc (.inl hk)
    | false =>
      rw [hyes] at hacc
      exact State.gateRace_stop hf hacc
  case page =>
    intro isPure
    have hin : x ∈ i.ts := (List.mem_filter.mp (show x ∈ i.on w by rw [hm.one]; exact List.mem_singleton.mpr rfl)).1
    have hx1 : s1.thread? i.b.key x.tid = some (i.begin x) := (State.beginClause_spec hm.issuer hm.bundle.2).2.1 x hin
    have hacc := State.access_lastPage (core := (i.site w).core) (accs := g.accs) (pu := g.pu) (notes := (i.site w).b.notes) h hb hk hx1
      ((Issuer.begin_lpr i x).trans hx) (ha.trans (congrArg Ctx.asid (hm.ctx_begin _).symm)) hlo hhi
    rw [hm.passesPurity_begin] at hacc
    refine ⟨fun hp => ?_, fun hp hpure => ?_, fun hp hpure hrace => ?_⟩
    · refine State.gateRace_stop hf (hacc.trans (if_pos ?_))
      rw [hp]
      rfl
    · refine State.gateRace_stop hf (hacc.trans ((if_neg ?_).trans (if_pos hpure)))
      rw [hp]
      exact Bool.false_ne_true
    · refine State.gateRace_go hf (hacc.trans ((if_neg ?_).trans (if_neg ?_))) (.inr ((hm.launchHas_begin ..).trans hrace))
      · rw [hp]
        exact Bool.false_ne_true
      · exact ne_true_of_eq_false hpure

/-- Settles O18: the read cache's line is used at team scope alone, and the thread's own stores lie over either. -/
theorem loadsRead : Obligations.LoadsRead := by
  intro s site tid p sc na data held r hs
  refine ⟨fun hb => ?_, fun b hb => ?_⟩
  · have hl := State.loadBlock_none (na := na) hs hb
    simp only [r, State.readAt, State.loadFor, hl]
    rfl
  · have hl := State.loadBlock_some (na := na) hs hb
    have hown : ∀ u : State, u = (if held = true ∨ (sc = .team ∧ na = false) then
        s.modCore site.core fun c => { c with l1 := putLine c.l1 p.blockKey b } else s) →
        u.ownStores site.core site.key tid p b = s.ownStores site.core site.key tid p b := by
      rintro u rfl
      split
      · exact State.ownStores_putLine ..
      · rfl
    obtain ⟨h1, h2⟩ := State.readAt_some (data := data) hl (hown _ rfl)
    refine ⟨h1, h2.trans ?_⟩
    dsimp only
    cases (s.ownStores site.core site.key tid p b).poison with
    | none => cases p <;> rfl
    | some c => cases data <;> cases p <;> rfl

end Sys2Proof.Claims
end

section
/-! SUPPORT. FiledExit: an exit that files a thread of its own word. -/

namespace Sys2Proof.Claims
open Sys2Proof Sys2Proof.Machine

/-- A clause that is over, but for filing threads 1 and 2. -/
def filingClause : Clause := { oneClause 4 with idx := 1, reform := [1, 2] }

/-- A thread that waits for barrier 0 at that clause's end. -/
def filedThread (tid : Nat) : Thread :=
  { Thread.start tid 0x10010 with stat := .parked (.barWait 0), arr := 1, clause := some filingClause }

/-- A team of a thread between clauses and of two that wait. -/
def filedTeam : Team := { oneTeam [] none with threads := [oneThread [] none, filedThread 1, filedThread 2] }

def filedBundle : Bundle := { oneBundle 4 with tids := [0, 1] }

/-- A bundle that names the running thread and one of the waiting ones is about to exit. -/
def filedState : State := { oneState 4 [] none with teams := [filedTeam], bundles := [filedBundle] }

def filedIssuer : Issuer := { b := filedBundle, cl := oneClause 4, t := filedTeam, ts := [oneThread [] none, filedThread 1] }

theorem filedIssuer_on : filedIssuer.on (branchWord always [] []) = [oneThread [] none, filedThread 1] := rfl

theorem filedState_mayIssue : MayIssue filedState filedIssuer (branchWord always [] []) where
  issuer := rfl
  bundle := by decide
  header := .inl rfl
  legal := by decide
  free x hx := by
    rcases List.mem_pair.mp (filedIssuer_on ▸ hx) with rfl | rfl <;> rfl
  past x hx := by
    rcases List.mem_pair.mp hx with rfl | rfl <;> rfl
  long x _ h := absurd h (by decide)
  running := ⟨_, List.mem_cons_self, rfl, fun _ h => absurd h List.not_mem_nil⟩

/-- Refutes O15: an exit may end the last wait on a barrier, which files a thread that is yet to exit into a bin. The bin's draw
then sets the exited thread running. -/
theorem not_exits : ¬ Obligations.Exits := by
  intro h
  have fails : holdsIn (fun t => (t.thread? (.user 0 1 0) 1).all (·.stat != .exited)) (exec (.exit always) filedState) = true := by
    decide +kernel
  obtain ⟨t, ht,
    hf⟩ := holdsIn_of_answers (h filedState filedIssuer always filedState_mayIssue (fun b hb => absurd hb List.not_mem_nil) rfl) fails
  obtain ⟨y, hy, hs,
    -⟩ := ht (filedThread 1) (by rw [filedIssuer_on]; exact List.mem_cons_of_mem _ (List.mem_singleton.mpr rfl))
  have hy : t.thread? (.user 0 1 0) 1 = some y := hy
  rw [hy, Option.all_some, hs] at hf
  exact absurd hf (by decide)

end Sys2Proof.Claims
end

section
/-! SUPPORT. DrawnPark: a package in which the end of a parking thread's clause draws a bin that holds it. -/

namespace Sys2Proof.Machine
open Sys2Proof Sys2Proof.Claims

/-! ## A parked thread that a bin of another core holds -/

/-- A clause of one word, begun, which files thread 1 at its end. -/
def lateClause : Clause := { oneClause 3 with reform := [1] }

/-- The bundle of the thread that is about to park. -/
def lateBundle : Bundle := { oneBundle 3 with clause := some lateClause }

/-- A team of that thread and of one that no bundle names. -/
def lateTeam (x : Thread) : Team := { oneTeam [] none with threads := [x, Thread.start 2 0x10000] }

/-- A team of core 1 that thread 1 alone runs in. -/
def lateOther : Team :=
  { Team.start (.user 0 1 1) 1 0 0 0 0 probeDesc [] with threads := [Thread.start 1 0x10000] }

/-- A core whose 64 bins are in use, each by the thread that is about to park. -/
def lateCore : Core :=
  { Core.fresh with bins := (List.range 64).map fun n => ({ idx := n, key := .user 0 1 0, pc := 0x20000, tids := [0], filed := 0, age := 64 } : Bin) }

/-- Two bundles of one id: the parking thread's, and one of the other team, which is the one found once the first is empty. Its
clause's end files its thread on core 1, where the oldest bin is drawn to make room. -/
def lateState (x : Thread) : State :=
  { State.reset with
    launches := [probeLaunch 0 1], teams := [lateTeam x, lateOther], cores := [(1, lateCore)],
    bundles := [lateBundle, { lateBundle with key := .user 0 1 1, tids := [1] }], nextBundle := 1, focus := some 0 }

def lateIssuer (x : Thread) : Issuer := { b := lateBundle, cl := lateClause, t := lateTeam x, ts := [x] }

theorem lateIssuer_on {x : Thread} {w : OpWord} (hc : w.c = always) : (lateIssuer x).on w = [x] := by
  unfold Issuer.on selects
  rw [hc]
  rfl

/-- The thread may issue a word of class 3, where nothing is pending in it. -/
theorem lateState_mayIssue {x : Thread} {w : OpWord} (hc : w.c = always) (hl : w.illegal lateClause 256 = false)
    (ht : x.tid = 0) (hp : x.pend = []) (hs : x.live = true) : MayIssueOne (lateState x) (lateIssuer x) w x where
  issuer := by
    have hx : (lateTeam x).thread? 0 = some x := List.find?_cons_of_pos (by simp [ht])
    show some ({ lateIssuer x with ts := [0].filterMap (lateTeam x).thread? } : Issuer) = _
    rw [List.filterMap_cons, hx]
    rfl
  bundle := ⟨List.cons_ne_nil _ _, List.nodup_singleton 0⟩
  header := .inl rfl
  legal := hl
  free y hy := by
    obtain rfl := List.mem_singleton.mp (List.mem_filter.mp hy).1
    unfold State.mustWait Thread.waitsFor State.fpHolds
    rw [hp]
    rfl
  past y hy := by
    obtain rfl := List.mem_singleton.mp hy
    unfold State.fpHolds
    rw [hp]
    rfl
  long y _ h := absurd (show (oneState 3 [] none).checking (.user 0 1 0) lateClause = true from h) (by decide)
  running := ⟨_, List.mem_singleton.mpr rfl, hs, fun _ h => absurd h List.not_mem_nil⟩
  one := lateIssuer_on hc

/-- The first thread of the first team is running. -/
def runsAgain (t : State) : Bool := (t.thread? (.user 0 1 0) 0).all (·.stat == .running)

/-- A word of that state that leaves its thread running does not park it. -/
theorem lateState_unparked {x : Thread} {w : OpWord} {n : Instr} {u : State} {p : Park}
    (h : ParksOne (lateState x) (lateIssuer x) w x n u p) (hm : MayIssueOne (lateState x) (lateIssuer x) w x) (ht : x.tid = 0)
    (hr : holdsIn runsAgain (exec n (lateState x)) = true) : False := by
  obtain ⟨t, ⟨y, z, -, hy, hs, -⟩, hf⟩ := holdsIn_of_answers (h hm rfl rfl rfl) hr
  rw [ht] at hy
  have hy' : t.thread? (.user 0 1 0) 0 = some y := hy
  unfold runsAgain at hf
  rw [hy', Option.all_some, hs] at hf
  exact absurd (beq_iff_eq.mp hf) nofun

end Sys2Proof.Machine
end

section
/-! SUPPORT. DrawnWaits: words that park their thread. -/

namespace Sys2Proof.Claims
open Sys2Proof Sys2Proof.Machine

/-- A thread with an operation of its batch 0 outstanding. -/
abbrev sealedThread : Thread := { oneThread [] none with batches := [(0, [7])] }

/-- Refutes O31: a cwait on a batch that is not empty parks its thread, which the draw of the bin sets running. -/
theorem not_sealsAndFlows : ¬ Obligations.SealsAndFlows := by
  intro h
  exact lateState_unparked ((h (lateState sealedThread) (lateIssuer sealedThread) sealedThread always 0 0).2.2.1 (by decide))
    (lateState_mayIssue rfl (by decide) rfl rfl rfl) rfl (by decide +kernel)

/-- Refutes O28: a bar.wait on a phase to come parks its thread, which the draw of the bin sets running. -/
theorem not_barrierWords : ¬ Obligations.BarrierWords := by
  intro h
  obtain ⟨-, -, -, -, -,
    hp⟩ := h (lateState (oneThread [] none)) (lateIssuer (oneThread [] none)) (oneThread [] none) always 0 0 false false
  exact lateState_unparked (hp (.inl (by decide)))
    (lateState_mayIssue rfl (by decide) rfl rfl rfl) rfl (by decide +kernel)

/-- A thread that waits for the 64 bits at 0x10000 to reach 5. -/
abbrev joiningThread : Thread := oneThread [(10, 0x10000), (12, 5)] (some dataPage)
abbrev joinWord : OpWord := syncWord always [10, 11, 12, 13] []

theorem joining_gate : (((lateState joiningThread).beginClause (lateIssuer joiningThread)).gateRace ((lateIssuer joiningThread).site joinWord) 0
    (.load 0x10000 8 .team) false).2 = .go (.here 0x20000) .team := by decide +kernel

/-- Refutes O33: a join below its value parks its thread, which the draw of the bin sets running. -/
theorem not_memoryWaits : ¬ Obligations.MemoryWaits := by
  intro h
  let r := ((lateState joiningThread).beginClause (lateIssuer joiningThread)).gateRace ((lateIssuer joiningThread).site joinWord) 0
    (.load 0x10000 8 .team) false
  let q := r.1.readAt ((lateIssuer joiningThread).site joinWord) 0 (.here 0x20000) .team false true
  have few : q.2.toOption.any (fun b => decide (natOfBytes (b.bytes.take 8) = 0)) = true := by decide +kernel
  obtain ⟨b, hb, hn⟩ := (Option.any_eq_true _ _).mp few
  have hq : q.2 = .ok b := by
    cases hr : q.2 with
    | ok a => rw [hr] at hb; exact congrArg Except.ok (Option.some.inj hb)
    | error e => rw [hr] at hb; cases hb
  have hp := (h (lateState joiningThread) (lateIssuer joiningThread) joiningThread always 0 10 12 false false .team .team r.1 q.1
    (.here 0x20000) b).2 (Prod.ext rfl joining_gate) (Prod.ext rfl hq)
  refine lateState_unparked (hp.2 ?_) (lateState_mayIssue rfl (by decide) rfl rfl rfl) rfl (by decide +kernel)
  show (BitVec.ofNat 64 (natOfBytes (b.bytes.take 8))).toNat < _
  rw [of_decide_eq_true hn]
  decide

/-- Refutes O35: a tbar parks its thread, which the draw of the bin sets running. -/
theorem not_flushesAndTeamBarriers : ¬ Obligations.FlushesAndTeamBarriers := by
  intro h
  have hm : MayIssueOne (lateState (oneThread [] none)) (lateIssuer (oneThread [] none)) (syncWord always [] []) (oneThread [] none) :=
    lateState_mayIssue rfl (by decide) rfl rfl rfl
  have runs : holdsIn runsAgain (exec (.tbar always .team) (lateState (oneThread [] none))) = true := by decide +kernel
  obtain ⟨t, ⟨T, y, hT, hy, hs, -⟩, hf⟩ := holdsIn_of_answers ((h _ _ _ always .team).2 hm rfl rfl rfl
    ⟨Thread.start 2 0x10000, List.mem_cons_of_mem _ (List.mem_singleton.mpr rfl), by decide, rfl, rfl,
      fun e he => absurd he List.not_mem_nil⟩) runs
  have hy' : t.thread? (.user 0 1 0) 0 = some y := by
    unfold State.thread?
    rw [show t.team? (.user 0 1 0) = some T from hT]
    exact hy
  unfold runsAgain at hf
  rw [hy', Option.all_some, hs] at hf
  exact absurd (beq_iff_eq.mp hf) nofun

end Sys2Proof.Claims
end

section
/-! SUPPORT. Stores: what writes to memory, atomics and accesses leave of the teams. -/

namespace Sys2Proof.Machine
open Sys2Proof Sys2Proof.Claims

/-! ## What a write to memory changes -/

/-- From s to t memory has been written: beside memory only what is held of its contents elsewhere has changed, and the launches
that use the pages. -/
structure Wrote (s t : State) : Prop where
  frame : t = { s with
    mem := t.mem, descs := t.descs, poison := t.poison, peerMem := t.peerMem, peerDescs := t.peerDescs,
      peerPoison := t.peerPoison,
    digests := t.digests, reuse := t.reuse, icache := t.icache, launches := t.launches }

theorem Wrote.refl (s : State) : Wrote s s := ⟨rfl⟩
theorem Wrote.trans {s t u : State} (h : Wrote s t) (h' : Wrote t u) : Wrote s u := by
  constructor
  rw [h'.frame]
  conv_lhs => rw [h.frame]
theorem Wrote.foldl {α : Type} {s0 : State} (f : State → α → State) (hf : ∀ s x, Wrote s (f s x)) (l : List α) :
    ∀ {s : State}, Wrote s0 s → Wrote s0 (l.foldl f s) := by
  induction l with
  | nil => exact fun h => h
  | cons x l ih => exact fun h => ih (h.trans (hf _ x))

theorem Wrote.teams {s t : State} (h : Wrote s t) : t.teams = s.teams := by rw [h.frame]
theorem Wrote.cores {s t : State} (h : Wrote s t) : t.cores = s.cores := by rw [h.frame]

theorem State.writeBytes_wrote (s : State) (p : Place) (bs : List Byte) : Wrote s (s.writeBytes p bs) := by
  unfold State.writeBytes
  split
  · split
    · exact ⟨rfl⟩
    · exact .refl s
  · exact ⟨rfl⟩
theorem State.writeDescr_wrote (s : State) (p : Place) (d : Descr) : Wrote s (s.writeDescr p d) := by
  unfold State.writeDescr
  split
  · split
    · exact ⟨rfl⟩
    · exact .refl s
  · exact ⟨rfl⟩
theorem State.writePoison_wrote (s : State) (p : Place) (m : Option Cause) : Wrote s (s.writePoison p m) := by
  unfold State.writePoison
  split <;> exact ⟨rfl⟩
theorem State.failLaunchOf_wrote (s : State) (k : TeamKey) (c : Cause) (g : Nat) : Wrote s (s.failLaunchOf k c g) := by
  unfold State.failLaunchOf
  split
  · exact ⟨rfl⟩
  · exact .refl s

/-! ## Teams whose threads alone have changed -/

/-- From s to t the teams have changed in their threads alone, and the package is the one it was. -/
structure SameTeams (s t : State) : Prop where
  teams : t.teams.map Team.rest = s.teams.map Team.rest
  coord : t.coord = s.coord

theorem SameTeams.refl (s : State) : SameTeams s s := ⟨rfl, rfl⟩
theorem SameTeams.trans {s t u : State} (h : SameTeams s t) (h' : SameTeams t u) : SameTeams s u :=
  ⟨h'.teams.trans h.teams, h'.coord.trans h.coord⟩
theorem SameTeams.of {s t : State} (h : t.teams = s.teams) (hc : t.coord = s.coord) : SameTeams s t :=
  ⟨congrArg (List.map Team.rest) h, hc⟩
theorem SameTeams.other {s t u : State} (h : SameTeams s t) (b : u.teams = t.teams) (c : u.coord = t.coord) : SameTeams s u :=
  h.trans (.of b c)
theorem SameTeams.modCore (s : State) (n : Nat) (f : Core → Core) : SameTeams s (s.modCore n f) := .of rfl rfl
theorem Wrote.sameTeams {s t : State} (h : Wrote s t) : SameTeams s t := .of h.teams (by rw [h.frame])
theorem SameTeams.modThread (s : State) (k : TeamKey) (j : Nat) (f : Thread → Thread) : SameTeams s (s.modThread k j f) :=
  ⟨map_modWhere (fun t : Team => t.key == k) (fun t => t.modThread j f) Team.rest (fun _ _ => rfl) s.teams, rfl⟩
theorem SameTeams.foldl {α : Type} (f : State → α → State) (hf : ∀ s x, SameTeams s (f s x)) (l : List α) :
    ∀ s, SameTeams s (l.foldl f s) := by
  induction l with
  | nil => exact SameTeams.refl
  | cons x l ih => exact fun s => (hf s x).trans (ih _)
theorem SameTeams.ite {s t u : State} {c : Prop} [Decidable c] (h : SameTeams s t) (h' : SameTeams s u) :
    SameTeams s (if c then t else u) := by
  split
  · exact h
  · exact h'
theorem SameTeams.fst {α : Type} {s t : State} {p : State × α} {a : α} (e : p = (t,
  a)) (h : SameTeams s p.1) : SameTeams s t := by
  rw [e] at h
  exact h

theorem SameTeams.team? {s t : State} (h : SameTeams s t) (k : TeamKey) : (t.team? k).map Team.rest = (s.team? k).map Team.rest := by
  unfold State.team?
  rw [← find?_of_map Team.rest (fun t => t.key == k) (fun t => t.key == k) (fun _ => rfl),
    ← find?_of_map Team.rest (fun t => t.key == k) (fun t => t.key == k) (fun _ => rfl), h.teams]

theorem State.performEntry_sameTeams (s : State) (core : Nat) (e : StoreEntry) : SameTeams s (s.performEntry core e) := by
  unfold State.performEntry
  extract_lets key off s1 s2
  have h1 : Wrote s s1 := by
    unfold s1
    split
    · exact .refl s
    · exact State.failLaunchOf_wrote ..
  have h2 : Wrote s1 s2 := by
    unfold s2
    split
    · exact State.writeDescr_wrote ..
    · exact State.writeBytes_wrote ..
  exact (h1.trans h2).sameTeams.other rfl rfl

theorem State.performFifo_sameTeams (n : Nat) : ∀ (s : State) (core : Nat), SameTeams s (s.performFifo core n) := by
  induction n with
  | zero => exact fun s _ => .refl s
  | succ n ih =>
    intro s core
    unfold State.performFifo
    split
    · exact .refl s
    · exact (SameTeams.modCore s core _).trans ((State.performEntry_sameTeams ..).trans (ih ..))

theorem State.atomDrain_sameTeams (s : State) (k : TeamKey) (o : AtomOp) : SameTeams s (s.atomDrain k o) := by
  have hd : SameTeams s (s.drain k) := State.performFifo_sameTeams ..
  unfold State.atomDrain
  exact .ite (hd.trans (State.performFifo_sameTeams ..)) hd

theorem State.acquire_sameTeams (s : State) (core : Nat) (sc : Scope) : SameTeams s (s.acquire core sc) :=
  .ite (.refl s) (.of rfl rfl)

theorem State.performAtom_sameTeams (s : State) (k : TeamKey) (o : AtomOp) : SameTeams s (s.performAtom k o).1 := by
  have hd := State.atomDrain_sameTeams s k o
  unfold State.performAtom
  dsimp only
  split
  · exact hd
  · split
    · exact hd
    · rename_i b _ _ _
      dsimp only
      have hv (u : State) (h : SameTeams s u) (v : Option W64) (f : W64 → StoreEntry) : SameTeams s (match v with
          | none => u
          | some v => u.performEntry (s.coreOf k) (f v)) := by
        cases v with
        | none => exact h
        | some v => exact h.trans (State.performEntry_sameTeams ..)
      have h1 := hv ((s.atomDrain k o).freshLine (s.coreOf k) o.place b) (hd.trans (.of rfl rfl)) (o.newValue (o.word b))
      exact .ite ((h1 _).trans (State.acquire_sameTeams ..)) (h1 _)

theorem State.atomDone_sameTeams (s : State) (k : TeamKey) (tid : Nat) (o : AtomOp) (old : W64) :
    SameTeams s (s.atomDone k tid o old) := by
  unfold State.atomDone
  extract_lets iv s1
  have h1 : SameTeams s s1 := by
    refine .ite ?_ (.refl s)
    unfold State.raceMark
    split
    · exact .refl s
    · exact .ite (.of rfl rfl) (.refl s)
  exact h1.trans (.ite (.ite (.modThread ..) (.refl _)) (.refl _))

theorem State.applyEntry_sameTeams (s : State) (e : AtomEntry) : SameTeams s (s.applyEntry e) := by
  have hp := State.performAtom_sameTeams s e.key e.op
  unfold State.applyEntry
  split
  rename_i s1 r e1
  rw [e1] at hp
  split
  · exact hp.trans (State.failLaunchOf_wrote ..).sameTeams
  · rename_i old
    refine hp.trans ((State.atomDone_sameTeams s1 e.key e.tid e.op old).trans ?_)
    dsimp only
    split
    · exact .refl _
    · exact .modThread ..

theorem State.flushAtoms_sameTeams (s : State) (core : Nat) (p : AtomEntry → Bool) : SameTeams s (s.flushAtoms core p) :=
  (SameTeams.modCore s core _).trans (.foldl _ State.applyEntry_sameTeams _ _)

theorem State.flushTeam_sameTeams (s : State) (k : TeamKey) : SameTeams s (s.flushTeam k) := State.flushAtoms_sameTeams ..

/-! ## Teams over an access -/

theorem State.sysWrite_wrote {s t : State} {ctx va : Nat} {bs : List Byte} (h : s.sysWrite ctx va bs = .ok t) : Wrote s t := by
  unfold State.sysWrite at h
  split at h
  · cases h
  · obtain rfl := Except.ok.inj h
    refine .foldl _ (fun s x => ?_) _ (.refl s)
    split
    · exact .refl s
    · exact State.writeBytes_wrote ..

theorem State.ringPut_sameTeams (s : State) (ctx : Nat) (get : Ctx → Ring) (set : Ctx → Ring →
  Ctx) (unit : Nat) (bs : List Byte) :
    SameTeams s (s.ringPut ctx get set unit bs).1 := by
  unfold State.ringPut
  dsimp only
  split
  · exact .of rfl rfl
  · split
    · exact .of rfl rfl
    · rename_i u hu
      exact (State.sysWrite_wrote hu).sameTeams.trans (.of rfl rfl)

theorem State.raceMark_sameTeams (s : State) (k : TeamKey) (tid va n : Nat) (sc : Scope) (atomic : Bool) (ival : W32) :
    SameTeams s (s.raceMark k tid va n sc atomic ival) := by
  unfold State.raceMark
  split
  · exact .refl s
  · exact .ite (.of rfl rfl) (.refl s)

theorem State.raceCheck_sameTeams (s : State) (k : TeamKey) (tid va n pc kind : Nat) (sc : Scope) (writes : Bool) (ival : W32) :
    SameTeams s (s.raceCheck k tid va n pc kind sc writes ival).1 := by
  unfold State.raceCheck
  split
  · exact .refl s
  · split
    · exact .refl s
    · split
      · exact .refl s
      · dsimp only
        split
        · exact .refl s
        · split
          · dsimp only
            refine SameTeams.trans ?_ (State.raceMark_sameTeams ..)
            exact .foldl _ (fun _ _ => State.ringPut_sameTeams ..) _ s
          · exact .foldl _ (fun _ _ => State.ringPut_sameTeams ..) _ s

theorem State.translate_sameTeams (s : State) (k : TeamKey) (core tid va : Nat) (notes : List WalkNote) :
    SameTeams s (s.translate k core tid va notes).1 := by
  have hg : ∀ hit, SameTeams s (State.translate.go k core tid va notes s hit).1 := fun hit => by
    unfold State.translate.go
    split
    · exact (SameTeams.modCore s core _).trans (.modThread ..)
    · split <;> exact .refl s
  unfold State.translate
  dsimp only
  split
  · split
    · exact .refl s
    · exact hg _
  · exact hg _

theorem State.access_sameTeams (s : State) (k : TeamKey) (core tid va n : Nat) (accs : List Acc) (pu : Purity) (notes : List WalkNote) :
    SameTeams s (s.access k core tid va n accs pu notes).1 := by
  have ht := State.translate_sameTeams s k core tid va notes
  unfold State.access
  split
  · exact .refl s
  · split
    · exact .refl s
    · split
      · exact .refl s
      · dsimp only
        split
        · exact ht
        · exact ht
        · split
          · exact ht
          · split <;> split <;> exact ht

theorem State.flushAcquires_sameTeams (s : State) (k : TeamKey) (tid : Nat) : SameTeams s (s.flushAcquires k tid) := by
  unfold State.flushAcquires
  dsimp only
  split
  · exact .refl s
  · exact State.flushAtoms_sameTeams ..

theorem State.gateRace_sameTeams (s : State) (site : Site) (tid : Nat) (g : GAcc) (writes : Bool) :
    SameTeams s (s.gateRace site tid g writes).1 := by
  have hg : SameTeams s (s.gate site tid g).1 := by
    have h := (State.flushAcquires_sameTeams s site.key tid).trans
      (State.access_sameTeams _ site.key site.core tid g.va g.n g.accs g.pu site.b.notes)
    unfold State.gate
    dsimp only
    split <;> exact h
  unfold State.gateRace
  dsimp only
  split
  · exact hg
  · split <;> exact hg.trans (State.raceCheck_sameTeams ..)

theorem State.freeBit_sameTeams (s : State) : SameTeams s s.freeBit.1 := .of rfl rfl

theorem State.loadFor_sameTeams (s : State) (core : Nat) (k : TeamKey) (tid : Nat) (sc : Scope) (na : Bool) (p : Place) :
    SameTeams s (s.loadFor core k tid sc na p).1 := by
  have mem (line : Option (Nat × Block)) (t : State) (h : SameTeams s t) : SameTeams s (match t.readBlock p with
      | none => (t, none)
      | some b =>
        if line.isSome || (sc == Scope.team && !na) then (t.modCore core fun c => { c with l1 := putLine c.l1 p.blockKey b },
          some b)
        else (t, some b)).1 := by
    split
    · exact h
    · split
      · exact h.trans (.of rfl rfl)
      · exact h
  unfold State.loadFor State.loadBlock
  dsimp only
  split
  · split
    · split
      · exact State.freeBit_sameTeams s
      · exact mem _ _ (State.freeBit_sameTeams s)
    · exact mem _ _ (.refl s)
  · exact mem _ _ (.refl s)

theorem State.readAt_sameTeams (s : State) (site : Site) (tid : Nat) (p : Place) (sc : Scope) (na data : Bool) :
    SameTeams s (s.readAt site tid p sc na data).1 := by
  have h := State.loadFor_sameTeams s site.core site.key tid sc na p
  unfold State.readAt
  dsimp only
  split
  · exact h
  · split
    · exact h
    · split <;> exact h

end Sys2Proof.Machine
end

section
/-! SUPPORT. Phases: the phases of barriers and of the team barrier. -/

namespace Sys2Proof.Claims
open Sys2Proof Sys2Proof.Machine

/-- What is left of a team after its threads have been released. -/
theorem team?_release {s : State} {k : TeamKey} {T : Team} (h : s.team? k = some T) (tids : List Nat) (back met : Bool) :
    ∃ T', (s.release k tids back met).team? k = some T' ∧ T'.data = T.data := by
  have hd := (SchedGrow.release s k tids back met).1.team?_data k
  rw [h, Option.map_some] at hd
  exact Option.map_eq_some_iff.mp hd

/-- A phase that is complete ends, and what it wakes keeps the team's barriers. -/
theorem barEvent_ready {s : State} {k : TeamKey} {n : Nat} {T : Team} (h : s.team? k = some T) (hr : T.phaseReady n = true) :
    ∃ T', (s.barEvent k n).team? k = some T' ∧ T'.data = (T.completePhase n).data := by
  have ht : (s.modTeam k (·.completePhase n)).team? k = some (T.completePhase n) := by
    rw [State.team?_modTeam s k k (·.completePhase n) fun _ => rfl, if_pos rfl, h]
    rfl
  unfold State.barEvent
  simp only [h, hr, if_true]
  unfold State.wakeBar
  rw [ht]
  exact team?_release ht _ _ _

theorem getLsbD_setArr_false (y : Thread) {n : Nat} (hn : n < 16) : (y.setArr n false).arr.getLsbD n = false := by
  have h1 : (1 <<< n : BitVec 16).getLsbD n = true := (by decide : ∀ n < 16, (1 <<< n : BitVec 16).getLsbD n = true) n hn
  show (y.arr &&& ~~~(1 <<< n : BitVec 16)).getLsbD n = false
  rw [BitVec.getLsbD_and, BitVec.getLsbD_not, h1]
  simp

/-- A team barrier that all have arrived at ends its phase, and what it releases keeps the team's scalars. -/
theorem tbarEvent_complete {s : State} {k : TeamKey} {T : Team} (h : s.team? k = some T)
    (hc : (T.liveTids.isEmpty || !T.liveTids.all fun x => T.tbarIn.any fun a => a.1 == x) = false) :
    ∃ T', (s.tbarEvent k).team? k = some T' ∧ T'.rest = { T.publish.rest with tbarPhase := T.tbarPhase + 1, tbarIn := [] } := by
  unfold State.tbarEvent
  simp only [h, hc, Bool.false_eq_true, if_false]
  generalize hu : (if s.launchHas k (·.det) = true then s.flushTeam k else s) = u
  have hsame : SameTeams s u := hu ▸ .ite (State.flushTeam_sameTeams s k) (.refl s)
  have hr := hsame.team? k
  rw [h, Option.map_some] at hr
  obtain ⟨U, hU, hUr⟩ := Option.map_eq_some_iff.mp hr
  generalize hv : (u.modTeam k fun t => { t.publish with tbarPhase := t.tbarPhase + 1, tbarIn := [] }) = v
  have hV : v.team? k = some { U.publish with tbarPhase := U.tbarPhase + 1, tbarIn := [] } := by
    rw [← hv, State.team?_modTeam u k k (fun t => { t.publish with tbarPhase := t.tbarPhase + 1, tbarIn := [] }) fun _ => rfl,
      if_pos rfl, hU]
    rfl
  generalize hw : T.tbarIn.foldl (fun s a => s.acquire T.core a.2) v = w
  have hwv : SameTeams v w := hw ▸ .foldl _ (fun s a => State.acquire_sameTeams s ..) _ _
  have hr := hwv.team? k
  rw [hV, Option.map_some] at hr
  obtain ⟨W, hW, hWr⟩ := Option.map_eq_some_iff.mp hr
  obtain ⟨T', hT', hd⟩ := team?_release hW (T.liveTids.filter fun x => T.tbarIn.any fun a => a.1 == x) false false
  refine ⟨T', hT', (congrArg Team.rest hd : _).trans (hWr.trans ?_)⟩
  have hp : ({ U.rest.publish with tbarPhase := U.rest.tbarPhase + 1, tbarIn := [] } : Team)
      = { T.rest.publish with tbarPhase := T.rest.tbarPhase + 1, tbarIn := [] } := by rw [hUr]
  exact hp

theorem sget_publish (l : List Nat) (p : List (Nat × W32)) (n : Nat) : ∀ v : List (Nat × W32), swf 0 v = true →
    sget 0 (l.foldl (fun v n => sset 0 v n (sget 0 p n)) v) n = if n ∈ l then sget 0 p n else sget 0 v n := by
  induction l with
  | nil => exact fun v _ => rfl
  | cons m l ih =>
    intro v hv
    rw [List.foldl_cons, ih _ (swf_sset _ _ _ _ hv)]
    by_cases hl : n ∈ l
    · simp [hl]
    · by_cases hm : n = m
      · subst hm
        rw [if_neg hl, if_pos List.mem_cons_self]
        exact sget_sset_same _ _ _ _ hv
      · rw [if_neg hl, if_neg (by simp [hl, hm])]
        exact sget_sset_ne _ _ _ hv hm

/-- Whether every live thread of a team that has some has arrived. -/
theorem arrived_iff (T : Team) : (T.liveTids.isEmpty || !T.liveTids.all fun x => T.tbarIn.any fun a => a.1 == x) = false ↔
    T.liveTids ≠ [] ∧ ∀ j ∈ T.liveTids, ∃ e ∈ T.tbarIn, e.1 = j := by
  simp only [Bool.or_eq_false_iff, List.isEmpty_eq_false_iff, Bool.not_eq_false', List.all_eq_true, List.any_eq_true,
    beq_iff_eq]

/-- Settles O29: what ends a phase leaves the barriers and the scalars to the threads that it lets go. -/
theorem barrierPhases : Obligations.BarrierPhases := by
  refine ⟨fun s k n T h hn hwf => ?_, fun s k T h hwf => ⟨fun hnot => ?_, fun hne hall => ?_⟩⟩
  · intro b live ready
    have hready : T.phaseReady n = true ↔ ready := by
      simp only [Team.phaseReady, ready, b, live, Bool.and_eq_true, Bool.or_eq_true, Bool.not_eq_true', List.all_eq_true,
        decide_eq_true_eq]
    refine ⟨fun hnot => ?_, fun hr => ?_⟩
    · unfold State.barEvent
      rw [h]
      exact if_neg fun hr => hnot (hready.mp hr)
    · obtain ⟨T', hT', hd⟩ := barEvent_ready h (hready.mpr hr)
      have hbars : T'.data.bars = (T.completePhase n).data.bars := congrArg Team.bars hd
      have hthreads : T'.data.threads = (T.completePhase n).data.threads := congrArg Team.threads hd
      refine ⟨T', hT', ?_, fun m hm => ?_, fun y hy => ?_⟩
      · refine (congrArg (fun l => sget BarReg.fresh l n) hbars).trans ((sget_sset_same _ _ _ _ hwf).trans ?_)
        refine congrArg (fun g => ({ b with xgot := g, xadd := 0, phase := b.phase + 1 } : BarReg)) ?_
        have hle : (T.bar n).xexp.toNat + (T.bar n).xadd.toNat ≤ (T.bar n).xgot.toNat := hr.2
        show (T.bar n).xgot - ((T.bar n).xexp.setWidth 16 + (T.bar n).xadd) =
          BitVec.ofNat 16 ((T.bar n).xgot.toNat - ((T.bar n).xexp.toNat + (T.bar n).xadd.toNat))
        bv_omega
      · exact (congrArg (fun l => sget BarReg.fresh l m) hbars).trans (sget_sset_ne _ _ _ hwf hm)
      · have hm : y.data ∈ T'.data.threads := List.mem_map_of_mem hy
        rw [hthreads] at hm
        obtain ⟨z, hz, hzy⟩ := List.mem_map.mp hm
        obtain ⟨z0, -, rfl⟩ := List.mem_map.mp hz
        have := getLsbD_setArr_false z0 hn
        have harr : (z0.setArr n false).data.arr = y.data.arr := congrArg Thread.arr hzy
        exact harr ▸ this
  · have hopen := (Bool.not_eq_false _).mp (mt (arrived_iff T).mp hnot)
    unfold State.tbarEvent
    simp only [h, hopen, if_true]
  · obtain ⟨T', hT', hr⟩ := tbarEvent_complete h ((arrived_iff T).mpr ⟨hne, hall⟩)
    have hphase : T'.rest.tbarPhase = T.tbarPhase + 1 := congrArg Team.tbarPhase hr
    have hin : T'.rest.tbarIn = [] := congrArg Team.tbarIn hr
    have hwritten : T'.rest.written = [] := congrArg Team.written hr
    refine ⟨T', hT', hphase, hin, hwritten, fun n => ?_⟩
    have hvis : T'.rest.visible = T.publish.visible := by rw [hr]; rfl
    exact (congrArg (fun l => sget 0 l n) hvis).trans (sget_publish _ _ _ _ hwf)

end Sys2Proof.Claims
end

section
/-! SUPPORT. AtomicValues: memory while stores are performed, and the value that an atomic makes. -/

namespace Sys2Proof.Machine
open Sys2Proof Sys2Proof.Claims

/-! ## Memory while stores are performed -/

theorem State.failLaunchOf_wf {s : State} (h : s.MemoryWf) (k : TeamKey) (c : Cause) (g : Nat) : (s.failLaunchOf k c g).MemoryWf := by
  cases k <;> exact h

theorem Wrote.portCap {s t : State} (h : Wrote s t) : t.portCap = s.portCap := by rw [h.frame]

/-- A performed store leaves memory in canonical form, and the capacity of the package as it is. -/
theorem State.performEntry_wf {s : State} (h : s.MemoryWf) (core : Nat) (e : StoreEntry) :
    (s.performEntry core e).MemoryWf ∧ (s.performEntry core e).portCap = s.portCap := by
  unfold State.performEntry
  extract_lets key off s1 s2
  have h1 : s1.MemoryWf ∧ Wrote s s1 := by
    unfold s1
    split
    · exact ⟨h, .refl s⟩
    · exact ⟨State.failLaunchOf_wf h .., State.failLaunchOf_wrote ..⟩
  have h2 : s2.MemoryWf ∧ Wrote s1 s2 := by
    unfold s2
    split
    · exact ⟨State.writeDescr_wf h1.1 .., State.writeDescr_wrote ..⟩
    · exact ⟨State.writeBytes_wf h1.1 .., State.writeBytes_wrote ..⟩
  exact ⟨h2.1, (h1.2.trans h2.2).portCap⟩

theorem State.performFifo_wf (n : Nat) : ∀ {s : State} (_ : s.MemoryWf) (core : Nat),
    (s.performFifo core n).MemoryWf ∧ (s.performFifo core n).portCap = s.portCap := by
  induction n with
  | zero => exact fun h _ => ⟨h, rfl⟩
  | succ n ih =>
    intro s h core
    unfold State.performFifo
    split
    · exact ⟨h, rfl⟩
    · rename_i e rest _
      have he := State.performEntry_wf (s := s.modCore core fun c => { c with fifo := rest }) h core e
      exact ⟨(ih he.1 core).1, (ih he.1 core).2.trans he.2⟩

theorem State.populated_congr {s t : State} (h : t.portCap = s.portCap) (pa : Nat) : t.populated pa = s.populated pa := by
  unfold State.populated State.portData
  rw [h]

theorem State.acquire_mem (s : State) (core : Nat) (sc : Scope) : (s.acquire core sc).mem = s.mem := by
  unfold State.acquire
  split <;> rfl

/-- A store of bytes where memory is. -/
theorem State.performEntry_here {s : State} (h : s.MemoryWf) {pa : Nat} (hp : s.populated pa = true) (hw : inWindows pa = false)
    (core : Nat) {e : StoreEntry} (he : e.place = .here pa) (hd : e.descr = none) (a : Nat) :
    sget 0 (s.performEntry core e).mem a = if pa ≤ a
      ∧ a < pa + e.bytes.length then e.bytes.getD (a - pa) 0 else sget 0 s.mem a := by
  have hans : s.answers e.place = true := by
    rw [he]
    show (if inWindows pa = true then (s.regionAt pa).isSome else s.populated pa) = true
    rw [hw]
    exact hp
  rw [he] at hans
  unfold State.performEntry
  simp only [hans, if_true, hd, he]
  exact State.writeBytes_here h hp hw e.bytes a

theorem length_bytesOfNat (n v : Nat) : (bytesOfNat n v).length = n := by simp [bytesOfNat]

theorem getD_bytesOfNat (n : Nat) (v : W64) {i : Nat} (h : i < n) : (bytesOfNat n v.toNat).getD i 0 = v.extractLsb' (8 * i) 8 := by
  have hi : i < (bytesOfNat n v.toNat).length := by rwa [length_bytesOfNat]
  rw [List.getD_eq_getElem _ _ hi]
  simp only [bytesOfNat, List.getElem_map, List.getElem_range]
  apply BitVec.eq_of_toNat_eq
  simp only [BitVec.toNat_ofNat, BitVec.extractLsb'_toNat, Nat.shiftRight_eq_div_pow]
  rw [pow_mul]
  rfl

/-! ## The value that an atomic makes -/

/-- A value in the width of an atomic. -/
def AtomOp.wrapped (o : AtomOp) (x : W64) : W64 := if o.ty.is64 then x else (x.extractLsb' 0 32).setWidth 64

/-- The value that an atomic but a cas makes. -/
def AtomOp.made (o : AtomOp) (old : W64) : W64 :=
  match o.op with
  | .add => if o.ty == .f32 then
      BitVec.ofNat 64 (FFmt.f32.add .rn false (old.extractLsb' 0 32).toNat (o.b.extractLsb' 0 32).toNat).bits
    else o.wrapped (old + o.b)
  | .min => o.wrapped (if o.ty.val o.b < o.ty.val old then o.b else old)
  | .max => o.wrapped (if o.ty.val old < o.ty.val o.b then o.b else old)
  | .and => o.wrapped (old &&& o.b)
  | .or => o.wrapped (old ||| o.b)
  | .xor => o.wrapped (old ^^^ o.b)
  | .xchg => o.wrapped o.b

theorem AtomOp.newValue_cas {o : AtomOp} (h : o.cas = true) (old : W64) :
    o.newValue old = if o.wrapped old == o.wrapped o.b then some (o.wrapped o.c) else none := if_pos h

theorem AtomOp.newValue_op {o : AtomOp} (h : o.cas = false) (old : W64) : o.newValue old = some (o.made old) := by
  refine (if_neg (ne_true_of_eq_false h)).trans ?_
  unfold AtomOp.made
  cases o.op <;> rfl

theorem AtomOp.wrapped_eq (o : AtomOp) (y : W64) : o.wrapped y = BitVec.ofNat 64 (y.toNat % 2 ^ (8 * o.ty.bytes)) := by
  unfold AtomOp.wrapped ATy.bytes
  split
  · have := y.isLt
    exact BitVec.eq_of_toNat_eq (by simp; omega)
  · exact BitVec.eq_of_toNat_eq (by simp)

theorem AtomOp.wrapped_inj (o : AtomOp) (x y : W64) :
    o.wrapped x = o.wrapped y ↔ x.toNat % 2 ^ (8 * o.ty.bytes) = y.toNat % 2 ^ (8 * o.ty.bytes) := by
  have small (z : W64) : z.toNat % 2 ^ (8 * o.ty.bytes) < 2 ^ 64 := (Nat.mod_le _ _).trans_lt z.isLt
  rw [AtomOp.wrapped_eq, AtomOp.wrapped_eq, ← BitVec.toNat_inj, BitVec.toNat_ofNat, BitVec.toNat_ofNat,
    Nat.mod_eq_of_lt (small x), Nat.mod_eq_of_lt (small y)]

/-- A sum in the width of an atomic: a carry out of 64 bits is out of its width. -/
theorem AtomOp.wrapped_add (o : AtomOp) (x y : W64) :
    o.wrapped (x + y) = BitVec.ofNat 64 ((x.toNat + y.toNat) % 2 ^ (8 * o.ty.bytes)) := by
  rw [AtomOp.wrapped_eq, BitVec.toNat_add, Nat.mod_mod_of_dvd]
  refine Nat.pow_dvd_pow 2 ?_
  unfold ATy.bytes
  split <;> decide

/-- One atomic at its word, its core's stores having been performed. -/
theorem State.performAtom_here {s u : State} {k : TeamKey} {o : AtomOp} {pa : Nat} {b : Block} (hu : s.atomDrain k o = u)
    (hwf : u.MemoryWf) (ho : o.place = .here pa) (hp : u.populated pa = true) (hw : inWindows pa = false)
    (hb : u.readBlock (.here pa) = some b) (hpoison : b.poison = none) :
    (s.performAtom k o).2 = .ok (o.word b) ∧ ∀ a, sget 0 (s.performAtom k o).1.mem a = match o.newValue (o.word b) with
      | some v => if pa ≤ a ∧ a < pa + o.ty.bytes then v.extractLsb' (8 * (a - pa)) 8 else sget 0 u.mem a
      | none => sget 0 u.mem a := by
  unfold State.performAtom
  simp only [hu, ho, hb, hpoison, true_and]
  intro a
  have acq : ∀ t : State, (if o.order.acquires = true then t.acquire (s.coreOf k) o.scope else t).mem = t.mem := by
    intro t
    split
    · exact State.acquire_mem ..
    · rfl
  rw [acq]
  cases hv : o.newValue (o.word b) with
  | none => rfl
  | some v =>
    refine (State.performEntry_here (s := u.freshLine (s.coreOf k) (.here pa) b) hwf hp hw _ rfl rfl a).trans ?_
    rw [length_bytesOfNat]
    by_cases ha : pa ≤ a ∧ a < pa + o.ty.bytes
    · rw [if_pos ha, getD_bytesOfNat _ _ (by omega)]
      exact (if_pos ha).symm
    · rw [if_neg ha]
      exact (if_neg ha).symm

end Sys2Proof.Machine
end

section
/-! SUPPORT. AtomicStep: one atomic at its word. -/

namespace Sys2Proof.Claims
open Sys2Proof Sys2Proof.Machine

/-- Settles O26: an atomic writes what it makes of the word, cut to its width, and nothing where it makes none. -/
theorem atomicSteps : Obligations.AtomicSteps := by
  refine ⟨fun o old => ?values, fun s k o pa b0 b => ?step⟩
  case values =>
    intro n cut val
    have hcut : ∀ y : W64, o.wrapped y = cut y.toNat := AtomOp.wrapped_eq o
    have hval : ∀ y, o.ty.val y = val y := fun y => by
      simp only [val]
      cases o.ty <;> rfl
    refine ⟨fun hc => ?_, fun hc hop hf => ?_, fun hc hop hf => ?_, fun hc hop => ?_, fun hc hop => ?_, fun hc hop => ?_,
      fun hc hop => ?_, fun hc hop => ?_, fun hc hop => ?_⟩
    · rw [AtomOp.newValue_cas hc, hcut o.c]
      exact if_congr (beq_iff_eq.trans (AtomOp.wrapped_inj ..)) rfl rfl
    all_goals rw [AtomOp.newValue_op hc, AtomOp.made, hop]
    · exact congrArg some ((if_neg (by simpa using hf)).trans (AtomOp.wrapped_add ..))
    · refine congrArg some ((if_pos (by simpa using hf)).trans ?_)
      simp only [BitVec.extractLsb'_toNat, Nat.shiftRight_zero]
    all_goals simp only [hcut, hval]
  case step =>
    intro v n word core u hwf ho _ hp hw hb0 hb hpoison old r
    have hword : ∀ b, o.word b = word b := fun b => by
      unfold AtomOp.word
      rw [ho]
      rfl
    have hv := State.performFifo_wf (lastOf k (s.core (s.coreOf k)).fifo) hwf (s.coreOf k)
    have hu : s.atomDrain k o = u := by
      unfold State.atomDrain
      simp only [ho]
      rw [hb0]
      simp only [hword]
      rfl
    have huwf : u.MemoryWf ∧ u.portCap = s.portCap := by
      unfold u
      split
      · have := State.performFifo_wf (v.core core).fifo.length hv.1 core
        exact ⟨this.1, this.2.trans hv.2⟩
      · exact hv
    have := State.performAtom_here hu huwf.1 ho ((State.populated_congr huwf.2 pa).trans hp) hw hb hpoison
    rw [hword] at this
    exact this

end Sys2Proof.Claims
end

section
/-! SUPPORT. AtomicWords: an atomic that goes on. -/

namespace Sys2Proof.Machine
open Sys2Proof Sys2Proof.Claims

/-! ## An atomic that goes on -/

@[simp] theorem Issuer.begin_nextPend (i : Issuer) (x : Thread) : (i.begin x).nextPend = x.nextPend := by rw [Issuer.begin_eq]

/-- An atomic with its operands as a thread holds them. -/
def AtomOp.operands (o : AtomOp) (a b e : Reg) (y : Thread) : AtomOp :=
  { o with va := (y.pair a.toNat).toNat, b := y.wide o.ty.is64 b, c := if o.cas then y.wide o.ty.is64 e else 0 }

theorem AtomOp.operands_begin (o : AtomOp) (a b e : Reg) (i : Issuer) (x : Thread) : o.operands a b e (i.begin x) = o.operands a b e x := by
  unfold AtomOp.operands
  simp only [Issuer.begin_pair, Issuer.begin_wide]

/-- What an atomic's word leaves in its thread: the old value, where it has a destination. -/
def atomBrings (t : ATy) (d : Option Reg) (old : W64) : Done := d.elim {} fun r => Done.brings r (t.words old) .atomic

/-- What it leaves there in a deterministic launch: a result still to come. -/
def atomWaits (t : ATy) (d : Option Reg) : Done := d.elim {} fun r => { pend := some (r.toNat, (t.words 0).length, none, .atomic) }

theorem atomBrings_plain (t : ATy) (d : Option Reg) (old : W64) : (atomBrings t d old).plain := by cases d <;> exact ⟨rfl, rfl⟩
theorem atomWaits_plain (t : ATy) (d : Option Reg) : (atomWaits t d).plain := by cases d <;> exact ⟨rfl, rfl⟩

/-- An atomic of a launch that is not deterministic is performed at its word. -/
theorem State.atomAct_performed {s u u1 u2 : State} {site : Site} {x : Thread} {o : AtomOp} {d : Option Reg} {p : Place} {sc : Scope}
    {old : W64} (hg : s.gate site x.tid o.acc = (u, .go p sc))
    (hr : u.raceCheck site.key x.tid o.va o.ty.bytes site.pc 2 sc false (u.ivalOf site.key x.tid) = (u1, false))
    (hd : u.launchHas site.key (·.det) = false) (hb : (u1.drain site.key).atomBlocked p = none)
    (hp : (u1.drain site.key).performAtom site.key { o with place := p, scope := sc } = (u2, .ok old)) :
    s.atomAct site x o d = (u2.atomDone site.key x.tid { o with place := p, scope := sc } old,
      .done (atomBrings o.ty d old)) := by
  unfold State.atomAct
  simp only [hg, hd, hr, hb, hp, Bool.false_and, Bool.false_eq_true, if_false]
  cases d <;> rfl

/-- One of a deterministic launch enters its core's buffer. -/
theorem State.atomAct_buffered {s u u1 : State} {site : Site} {x : Thread} {o : AtomOp} {d : Option Reg} {p : Place} {sc : Scope}
    (hg : s.gate site x.tid o.acc = (u, .go p sc))
    (hr : u.raceCheck site.key x.tid o.va o.ty.bytes site.pc 2 sc false (u.ivalOf site.key x.tid) = (u1, false))
    (hd : u.launchHas site.key (·.det) = true) (hq : u.quotaUsed site.key < atomQuota) (hb : u1.atomBlocked p = none) :
    s.atomAct site x o d =
      ((u1.bufferAtom site x { o with place := p, scope := sc } d).1, .done (atomWaits o.ty d)) := by
  unfold State.atomAct
  simp only [hg, hd, hr, hb, decide_eq_false (Nat.not_le.mpr hq), Bool.and_false, Bool.false_eq_true, if_false, if_true]
  cases d <;> rfl

/-- An atomic's word that is performed, or that is buffered, keeps where the threads stand. -/
theorem State.performed_keeps {s u u1 u2 : State} {site : Site} {k : TeamKey} {x : Thread} {o o' : AtomOp} {p : Place} {sc : Scope} {old : W64}
    {n : Nat} (hg : s.gate site x.tid o.acc = (u, .go p sc))
    (hr : u.raceCheck k x.tid o.va o.ty.bytes n 2 sc false (u.ivalOf k x.tid) = (u1, false))
    (hp : (u1.drain k).performAtom k o' = (u2, .ok old)) : Keeps s (u2.atomDone k x.tid o' old) := by
  have h1 : Keeps s u := Keeps.fst hg (State.gate_keeps (Keeps.refl s) ..)
  have h2 : Keeps s u1 := Keeps.fst hr (State.raceCheck_keeps h1 ..)
  exact State.atomDone_keeps (Keeps.fst hp (State.performAtom_keeps (State.drain_keeps h2 k) ..)) ..

theorem State.buffered_keeps {s u u1 : State} {site : Site} {k : TeamKey} {x : Thread} {o : AtomOp} {p : Place} {sc : Scope} {n : Nat}
    (hg : s.gate site x.tid o.acc = (u, .go p sc))
    (hr : u.raceCheck k x.tid o.va o.ty.bytes n 2 sc false (u.ivalOf k x.tid) = (u1, false)) (o' : AtomOp) (d : Option Reg) :
    Keeps s (u1.bufferAtom site x o' d).1 := by
  have h1 : Keeps s u := Keeps.fst hg (State.gate_keeps (Keeps.refl s) ..)
  have h2 : Keeps s u1 := Keeps.fst hr (State.raceCheck_keeps h1 ..)
  exact State.modThread_keeps (State.modCore_keeps h2 ..) _ _ _ fun _ => ⟨rfl, rfl⟩

end Sys2Proof.Machine
end

section
/-! SUPPORT. AtomicClaims: atom, cas and red. -/

namespace Sys2Proof.Claims
open Sys2Proof Sys2Proof.Machine

/-- A word whose effect is an atomic, in a launch that is not deterministic and in one that is. -/
theorem atomAct_issues {s u u1 : State} {i : Issuer} {x : Thread} {w : OpWord} {n : Instr} {o : AtomOp} {op : Thread → AtomOp}
    {res : Option Reg} {p : Place} {sc : Scope} (he : exec n s = issue w (fun s site x => s.atomAct site x (op x) res) s)
    (ho : op (i.begin x) = o)
    (hg : (s.beginClause i).gate (i.site w) x.tid o.acc = (u, .go p sc))
    (hr : u.raceCheck i.b.key x.tid o.va o.ty.bytes i.cl.wordPc 2 sc false (u.ivalOf i.b.key x.tid) = (u1, false)) :
    (∀ u2 old, u.launchHas i.b.key (·.det) = false → (u1.drain i.b.key).atomBlocked p = none →
        (u1.drain i.b.key).performAtom i.b.key { o with place := p, scope := sc } = (u2, .ok old) →
        IssuesOne s i w x n (u2.atomDone i.b.key x.tid { o with place := p, scope := sc } old) (atomBrings o.ty res old))
      ∧ (u.launchHas i.b.key (·.det) = true → u.quotaUsed i.b.key < 128 → u1.atomBlocked p = none →
        IssuesOne s i w x n (u1.bufferAtom (i.site w) (i.begin x) { o with place := p, scope := sc } res).1 (atomWaits o.ty res)) := by
  subst ho
  have hg' : (s.beginClause i).gate (i.site w) (i.begin x).tid (op (i.begin x)).acc = (u, .go p sc) := by rwa [Issuer.begin_tid]
  have hr' : u.raceCheck i.b.key (i.begin x).tid (op (i.begin x)).va (op (i.begin x)).ty.bytes i.cl.wordPc 2 sc false
      (u.ivalOf i.b.key (i.begin x).tid) = (u1, false) := by rwa [Issuer.begin_tid]
  refine ⟨fun u2 old hd hb hp => ?_, fun hd hq hb => ?_⟩
  · refine issue_keeps _ _ _ he (fun _ => ?_) (atomBrings_plain ..) (State.performed_keeps hg hr hp)
    have := State.atomAct_performed (d := res) hg' hr' hd hb hp
    rwa [Issuer.begin_tid] at this
  · exact issue_keeps _ _ _ he (fun _ => State.atomAct_buffered hg' hr' hd hq hb) (atomWaits_plain ..)
      (State.buffered_keeps hg' hr' ..)

/-- Settles O27: what is in force of the launch decides whether the atomic is performed or buffered. -/
theorem atomics : Obligations.Atomics := by
  intro s i x c op rop t ord rord sc sc' d a b e u u1 u2 p old s1 pairA out val atom cas red done
  have key : ∀ (w : OpWord) (n : Instr) (o : AtomOp) (f : Thread → AtomOp) (res : Option Reg), o.ty = t →
      exec n s = issue w (fun s site x => s.atomAct site x (f x) res) s → f (i.begin x) = o → done w n o res := by
    rintro w n o f res rfl he ho hg hr
    obtain ⟨hnow, hlater⟩ := atomAct_issues he ho hg hr
    refine ⟨fun hd _ hb hp => ?_, fun hd hq hb => ?_⟩
    · have := hnow u2 old hd hb hp
      cases res <;> exact this
    · have := hlater hd hq hb
      simp only [State.bufferAtom, Issuer.begin_tid, Issuer.begin_atomSeq, Issuer.begin_nextPend] at this
      cases res <;> exact this
  exact ⟨key (memWord c (pairA ++ slots t.is64 b) out) _ atom (atom.operands a b e) (some d) rfl rfl (AtomOp.operands_begin ..),
    key (memWord c (pairA ++ slots t.is64 b
      ++ slots t.is64 e) out) _ cas (cas.operands a b e) (some d) rfl rfl (AtomOp.operands_begin ..),
    key (memWord c (pairA ++ slots t.is64 b) []) _ red (red.operands a b e) none rfl rfl (AtomOp.operands_begin ..)⟩

end Sys2Proof.Claims
end

section
/-! SUPPORT. Copies: a copy, a tile store or a transfer that passes its checks. -/

namespace Sys2Proof.Machine
open Sys2Proof Sys2Proof.Claims

/-! ## Copies -/

theorem State.putRecords_keeps {s0 s : State} (h : Keeps s0 s) (g : Group) (slot : Nat) : Keeps s0 (s.putRecords g slot) :=
  Keeps.foldl _ _ (fun _ _ h => State.writeBytes_keeps h ..) h

theorem State.postEvent_keeps {s0 s : State} (h : Keeps s0 s) (e : HiveEvent) : Keeps s0 (s.postEvent e) := .ite (h.other rfl rfl) (h.other rfl rfl)

theorem State.fileGroup_keeps {s0 s : State} (h : Keeps s0 s) (id : Nat) : Keeps s0 (s.fileGroup id) := by
  unfold State.fileGroup
  split
  · exact h
  · split
    · exact h
    · split
      · exact h
      · rename_i g _ _ _ slot _
        have hp := State.putRecords_keeps h { g with slot := some slot, slots := g.records.length } slot
        refine State.postEvent_keeps ?_ _
        exact hp.other rfl rfl

theorem State.takeReport_keeps {s0 s : State} (h : Keeps s0 s) (k : TeamKey) (kind : GroupKind) (r : FaultRec) (ms : List Nat) :
    Keeps s0 (s.takeReport k kind r ms) := by
  refine State.fileGroup_keeps ?_ _
  exact h.other rfl rfl

theorem State.sendMove_keeps {s0 s : State} (h : Keeps s0 s) (m : Move) : Keeps s0 (s.sendMove m) := by
  unfold State.sendMove
  extract_lets own cross left s1 s2 s3 single
  have h1 : Keeps s0 s1 := State.modMove_keeps h ..
  split
  · exact State.modMove_keeps h1 ..
  · split
    · exact State.failLaunchOf_keeps h1 ..
    · split
      · exact State.takeReport_keeps (State.modMove_keeps h1 ..) ..
      · exact State.failLaunchOf_keeps h1 ..
      · split
        · exact State.failLaunchOf_keeps h1 ..
        · exact .ite (State.sendAll_keeps (State.modMove_keeps h1 ..) ..) (State.sendAll_keeps (State.modMove_keeps h1 ..) ..)

/-- The operation of a copy that starts. -/
def moveOf (u : State) (site : Site) (x : Thread) (kind : MoveKind) (lay : Layout) (cs : List Int) (off : Nat) (bar : Option Nat)
    (sc : Scope) : Move :=
  { id := u.nextOp, order := u.nextOp, key := site.key, tid := x.tid, pc := site.pc, kind := kind, lay := lay, coords := cs, off := off,
    len := lay.tileBytes, bar := bar, scope := sc,
      left := List.range (lay.blocks * (if kind.isXfer then lay.ranks.length else 1)),
    sent := !kind.isXfer, stopped := none, interval := u.ivalOf site.key x.tid, core := site.core }

/-- The layout of a copy: one without what transfers alone name. -/
def layoutOf (kind : MoveKind) (b : Block) : Layout :=
  if kind.isXfer then Layout.ofBytes b.bytes else { Layout.ofBytes b.bytes with rep := 0, reduce := 0, key := 0 }

/-- The race detector's answer to a copy; it looks at no transfer. -/
def State.moveChecked (s : State) (site : Site) (tid : Nat) (kind : MoveKind) (lay : Layout) (cs : List Int) (sc : Scope) : State × Bool :=
  if kind.isXfer then (s, false) else s.moveRace site tid lay cs (!kind.inbound) sc

/-- A copy that passes every check of R232. -/
theorem State.moveAct_starts {s u u1 u2 : State} {site : Site} {x : Thread} {kind : MoveKind} {d a b : Reg} {bn : Option (BitVec 4)}
    {sc sc' : Scope} {extra : State → Layout → List Int → Bool} {scopeOf : Layout → Scope} {go : State → Move → State} {T : Team} {p : Place}
    {blk : Block} {lay : Layout} {cs : List Int} {off : Nat}
    (hT : s.team? site.key = some T) (hoff : (x.reg d.toNat).toNat = off) (halign : off % 64 = 0)
    (hg : s.gateRace site x.tid (.load (x.pair a.toNat).toNat 64 sc) false = (u, .go p sc'))
    (hr : u.readAt site x.tid p sc' false true = (u1, .ok blk)) (hlay : layoutOf kind blk = lay)
    (hcs : (List.range 5).map (fun j => (x.reg (b.toNat + j)).toInt) = cs) (hok : lay.contentOk blk.bytes = true)
    (hx : extra u1 lay cs = false) (hal : lay.aligned cs kind.isXfer = true) (hfit : off + lay.tileBytes ≤ T.desc.scratch)
    (hpure : ∀ l, u1.launchOf? site.key = some l → l.movePure lay cs kind = true)
    (hw : kind.inbound = false → T.written? off lay.tileBytes = true)
    (hwait : u1.moveWaits site T off lay.tileBytes (bn.map (·.toNat)) = false)
    (hrace : u1.moveChecked site x.tid kind lay cs sc = (u2, false)) :
    s.moveAct site x kind d a b bn sc extra scopeOf go =
      (go (u2.startMove (moveOf u2 site x kind lay cs off (bn.map (·.toNat)) (scopeOf lay)))
        (moveOf u2 site x kind lay cs off (bn.map (·.toNat)) (scopeOf lay)), .nothing) := by
  unfold layoutOf at hlay
  unfold State.moveChecked at hrace
  have hp : (match u1.launchOf? site.key with | some l => l.movePure lay cs kind | none => true) = true := by
    cases hl : u1.launchOf? site.key with
    | none => rfl
    | some l => exact hpure l hl
  have hin : (!kind.inbound && !T.written? off lay.tileBytes) = false := by
    cases hk : kind.inbound with
    | true => rfl
    | false => simp [hw hk]
  unfold State.moveAct
  simp only [hT, hoff, halign, hg, hr, hlay, hcs, hok, hx, hal, hin, hwait, hrace, Nat.not_lt.mpr hfit, bne_self_eq_false,
    Bool.not_true, Bool.or_false,
    Bool.false_eq_true, if_false]
  exact (if_neg (ne_true_of_eq_false (congrArg (!·) hp))).trans rfl

end Sys2Proof.Machine
end

section
/-! SUPPORT. CopyClaims: tcopy, tstore and txfer. -/

namespace Sys2Proof.Claims
open Sys2Proof Sys2Proof.Machine

theorem State.moveChecked_keeps {s0 s : State} (h : Keeps s0 s) (site : Site) (tid : Nat) (kind : MoveKind) (lay : Layout)
    (cs : List Int) (sc : Scope) : Keeps s0 (s.moveChecked site tid kind lay cs sc).1 := .iteFst h (State.moveRace_keeps h ..)

theorem State.xferScope_congr {s t : State} (h : t.coord = s.coord) (die : Nat) (l : Layout) (sc : Scope) :
    t.xferScope die l sc = s.xferScope die l sc := by
  unfold State.xferScope State.dieCoord State.isOurs
  rw [h]

/-- Settles O30: the word's checks in order, each of which passes, and what starts is the operation of the statement. -/
theorem copiesStart : Obligations.CopiesStart := by
  intro s i x c kind d a b bn sc sc' u u1 u2 T p blk s1 five w off raw lay cs bar m hT halign hg hr hok hal hfit hpure hw hwait hrace
  have hu1 : Keeps s1 u1 :=
    Keeps.fst hr (State.readAt_keeps (Keeps.fst hg (State.gateRace_keeps (Keeps.refl s1) ..)) ..)
  have hcoord : u1.coord = s1.coord :=
    ((SameTeams.fst hg (State.gateRace_sameTeams ..)).trans (SameTeams.fst hr (State.readAt_sameTeams ..))).coord
  have key : ∀ (n : Instr) (extra : Site → State → Layout → List Int → Bool) (scopeOf : Site → State → Layout → Scope)
      (go : State → Move → State),
      exec n s = issue w (fun s site x => s.moveAct site x kind d a b bn sc (extra site) (scopeOf site s) go) s →
      extra (i.site w) u1 lay cs = false → scopeOf (i.site w) s1 lay = m.scope →
        u1.moveChecked (i.site w) x.tid kind lay cs sc = (u2, false) →
      (∀ t, Keeps s1 t → Keeps s1 (go t m)) → IssuesOne s i w x n (go (u2.startMove m) m) {} := by
    intro n extra scopeOf go he hx hsc hk hgo
    have hs := State.moveAct_starts (x := i.begin x) (d := d) (a := a) (b := b) (bn := bn) (go := go) (scopeOf := scopeOf (i.site w) s1) (cs := cs)
      hT (congrArg BitVec.toNat (Issuer.begin_reg ..)) halign (by rwa [Issuer.begin_tid,
        Issuer.begin_pair]) (by rwa [Issuer.begin_tid]) rfl
      (by simp only [Issuer.begin_reg]; rfl) hok hx hal hfit hpure hw hwait (by rwa [Issuer.begin_tid])
    have hm : moveOf u2 (i.site w) (i.begin x) kind lay cs off (bn.map (·.toNat)) (scopeOf (i.site w) s1 lay) = m := by
      rw [hsc]
      simp only [moveOf, Issuer.begin_tid]
      rfl
    rw [show layoutOf kind blk = lay from rfl, hm] at hs
    have hu2 : Keeps s1 u2 := Keeps.fst hk (State.moveChecked_keeps hu1 ..)
    exact issue_keeps _ _ _ he (fun _ => hs) ⟨rfl, rfl⟩ (hgo _ (State.startMove_keeps hu2 m))
  refine ⟨fun hk => ?_, fun hk => ?_, fun hx hu hbad => ?_⟩
  · subst hk
    exact key _ (fun _ _ _ _ => false) (fun _ _ _ => sc) (fun s _ => s) rfl rfl rfl (hrace rfl) fun _ h => h
  · subst hk
    exact key _ (fun _ _ _ _ => false) (fun _ _ _ => sc) (fun s _ => s) rfl rfl rfl (hrace rfl) fun _ h => h
  · subst hu
    have hgo := fun t h => State.sendMove_keeps (s0 := s1) (s := t) h m
    have hsc : s1.xferScope (i.t.core / 40) lay sc = m.scope := (State.xferScope_congr hcoord ..).symm.trans (if_pos hx).symm
    have hc : u2.moveChecked (i.site w) x.tid kind lay cs sc = (u2, false) := if_pos hx
    cases kind with
    | tcopy => cases hx
    | tstore => cases hx
    | push =>
      exact key _ (fun site u l cs => u.xferBad site.key.ctxId (dieOf site.core) false l cs)
        (fun site u l => u.xferScope (dieOf site.core) l sc) (fun u m => u.sendMove m) rfl hbad hsc hc hgo
    | pull =>
      exact key _ (fun site u l cs => u.xferBad site.key.ctxId (dieOf site.core) true l cs)
        (fun site u l => u.xferScope (dieOf site.core) l sc) (fun u m => u.sendMove m) rfl hbad hsc hc hgo

end Sys2Proof.Claims
end

section
/-! SUPPORT. Matrix: a matrix word that passes its checks. -/

namespace Sys2Proof.Machine
open Sys2Proof Sys2Proof.Claims

/-- The operation that a matrix word queues. -/
def matOpOf (s : State) (site : Site) (tid : Nat) (q : XCtl) (f : MatForm) (T : Team) : MatOp :=
  { id := s.nextOp, order := s.nextOp, key := site.key, tid := tid, pc := site.pc, kind := f.kind, acc := q.acc.toNat,
    a := T.latchA f, index := (match f.kind with | .mmag _ => T.indexVec f.aOff | _ => []), b := T.latchB f,
    dest := (f.writes.headD (0, 0)).1, bAddr := f.bOff, bStride := f.stride, streamed := [], set := q.set.map (·.toNat),
    waits := ((bitsOf q.wait).flatMap fun j => sget [] (s.pair (pairOf site.core)).slots j).eraseDups, begun := false,
      stopped := none }

theorem State.launchHas_and {s : State} {k : TeamKey} {p : Launch → Bool} (h : s.launchHas k p = false) (q : Launch → Bool) :
    s.launchHas k (fun l => p l && q l) = false := by
  unfold State.launchHas at *
  cases hl : s.launchOf? k with
  | none => rfl
  | some l =>
    rw [hl] at h
    exact (congrArg (· && q l) h).trans (Bool.false_and _)

/-- A matrix word that passes every check of R242. -/
theorem State.matAct_queues {s : State} {site : Site} {x : Thread} {q : XCtl} {f : MatForm} {T : Team} (hT : s.team? site.key = some T)
    (halign : ∀ y ∈ f.aligned, y % 64 = 0) (hflag : ∀ a, f.kind = .accst a true → ∀ w ∈ f.writes, w.1 % 4 = 0)
    (hstream : ∀ m, f.kind = .mms m → f.bOff % 64 = 0 ∧ f.stride % 64 = 0 ∧ max 64 (m.rowBytes .b) ≤ f.stride
      ∧ s.launchHas site.key (·.pure) = false)
    (hfit : T.holds (f.reads ++ f.gathered T ++ f.writes) = true) (hwait : s.matWaits site f (f.reads ++ f.gathered T) = false)
    (hw : ∀ r ∈ f.reads ++ f.gathered T, T.written? r.1 r.2 = true) (hm : T.markIn (f.reads ++ f.gathered T) = none)
    (hb : f.kind.blocksBad (T.latchA f) (T.latchB f) = none) :
    s.matAct site x q f = (s.queueMat site f (matOpOf s site x.tid q f T), .nothing) := by
  have hf : f.aligned.find? (fun y => y % 64 != 0) = none := List.find?_eq_none.mpr fun y hy => by simp [halign y hy]
  have hall : ((f.reads ++ f.gathered T).all fun r => T.written? r.1 r.2) = true := List.all_eq_true.mpr hw
  unfold State.matAct
  simp only [hT, hf, hfit, hwait, hall, hm, hb, Bool.not_true, Bool.false_eq_true, if_false]
  cases hk : f.kind with
  | accst a fl =>
    have hno : (fl && f.writes.any fun w => w.1 % 4 != 0) = false := by
      cases fl with
      | false => rfl
      | true => exact List.any_eq_false.mpr fun w hw => by simp [hflag a hk w hw]
    simp only [hno, Bool.false_and, Bool.false_eq_true, if_false, matOpOf, hk]
  | mms m =>
    obtain ⟨hoff, hstride, hmax, hp⟩ := hstream m hk
    have hlt : f.stride < Nat.max 64 (m.rowBytes .b) ↔ False := iff_false_intro (Nat.not_lt.mpr hmax)
    simp only [hoff, hstride, hlt, State.launchHas_and hp, Bool.false_and, Bool.and_false, Bool.or_false, Bool.false_eq_true,
      if_false, matOpOf, hk,
      bne_self_eq_false, decide_false, MatKind.mods?]
  | mma m => simp only [Bool.false_and, Bool.false_eq_true, if_false, matOpOf, hk]
  | mmag m => simp only [Bool.false_and, Bool.false_eq_true, if_false, matOpOf, hk]
  | accz => simp only [Bool.false_and, Bool.false_eq_true, if_false, matOpOf, hk]
  | accld => simp only [Bool.false_and, Bool.false_eq_true, if_false, matOpOf, hk]
  | drain t r o a => simp only [Bool.false_and, Bool.false_eq_true, if_false, matOpOf, hk]

end Sys2Proof.Machine
end

section
/-! SUPPORT. MatrixClaims: the seven matrix words. -/

namespace Sys2Proof.Claims
open Sys2Proof Sys2Proof.Machine

theorem matOpOf_begin {s : State} {i : Issuer} {w : OpWord} (h : MayIssue s i w) (q : XCtl) (f : MatForm) (T : Team) (tid : Nat) :
    matOpOf (s.beginClause i) (i.site w) tid q f T = matOpOf s (i.site w) tid q f T := by
  unfold matOpOf
  rw [(State.beginClause_spec h.issuer h.bundle.2).2.2.2]
  rfl

/-- Settles O32: the word's checks in order, each of which passes, and the operation of the statement. -/
theorem matrixWordsQueue : Obligations.MatrixWordsQueue := by
  intro s i x c q a b m t rnd ovf accf fl T s1 A B p done hT hswarm
  have key : ∀ (n : Instr) (reads : List Nat) (f : MatForm) (form : Thread → MatForm), exec n s = matWord c reads q form s →
      form (i.begin x) = f → (∀ a, f.kind = .accst a true → ∀ w ∈ f.writes, w.1 % 4 = 0) →
      (∀ m, f.kind = .mms m → f.bOff % 64 = 0 ∧ f.stride % 64 = 0 ∧ max 64 (m.rowBytes .b) ≤ f.stride
        ∧ s.launchHas i.b.key (·.pure) = false) → done (mxWord c reads) n f := by
    rintro n reads f form he rfl hflag hstream halign hfit hwait hw hm hb hi
    have hs := State.matAct_queues (s := s1) (site := i.site (mxWord c reads)) (x := i.begin x) (q := q) hT halign hflag
      (fun m hm => ⟨(hstream m hm).1, (hstream m hm).2.1, (hstream m hm).2.2.1,
        (hi.launchHas_begin ..).trans (hstream m hm).2.2.2⟩) hfit hwait hw hm hb
    rw [Issuer.begin_tid, matOpOf_begin hi.toMayIssue] at hs
    refine issueWith_keeps (fun s site _ => match s.team? site.key with | some t => t.swarmIdx != 0 | none => false) {}
      (fun s site th => s.matAct site th q (form th)) _ _ he (fun _ => ?_) (fun _ => hs) ⟨rfl,
        rfl⟩ (State.queueMat_keeps (Keeps.refl _) ..) hi
    have hTs : (s.beginClause i).team? (i.site (mxWord c reads)).key = some T := hT
    simp only [hTs, hswarm]
    rfl
  refine ⟨?mma, ?mmag, fun hb hs hmax hp => ?mms, ?accz, ?accld, fun hfl => ?accst, ?drain⟩
  case mma =>
    refine key (.mma c q a b m) [a.toNat, b.toNat] _ _ rfl ?_ nofun nofun
    simp only [Issuer.begin_reg]
    rfl
  case mmag =>
    refine key (.mmag c q a b m) [a.toNat, a.toNat + 1, b.toNat] _ _ rfl ?_ nofun nofun
    simp only [Issuer.begin_reg]
    rfl
  case mms =>
    refine key (.mms c q a b m) [a.toNat, b.toNat, b.toNat + 1,
      if b.toNat + 2 < 256 then b.toNat + 2 else noSlot] _ _ rfl ?_ nofun ?_
    · simp only [Issuer.begin_reg, Issuer.begin_pair]
      rfl
    · rintro _ ⟨⟩
      exact ⟨hb, hs, hmax, hp⟩
  case accz => exact key (.accz c q) [] _ _ rfl rfl nofun nofun
  case accld =>
    refine key (.accld c q a) [a.toNat] _ _ rfl ?_ nofun nofun
    simp only [Issuer.begin_reg]
    rfl
  case accst =>
    refine key (.accst c q a accf fl) [a.toNat] _ _ rfl ?_ ?_ nofun
    · simp only [Issuer.begin_reg]
      rfl
    · rintro _ ⟨⟩ v hv
      rw [List.mem_singleton.mp hv]
      exact hfl rfl
  case drain =>
    refine key (.drain c q a b t rnd ovf accf) [a.toNat, b.toNat] _ _ rfl ?_ nofun nofun
    simp only [Issuer.begin_reg]
    rfl

end Sys2Proof.Claims
end

section
/-! SUPPORT. Shootdowns: what TLBSHOOT, derived regions and page moves leave, and where memory is as it was. -/

namespace Sys2Proof.Machine
open Sys2Proof Sys2Proof.Claims

/-! ## Shootdowns -/

theorem State.invalidate_cores (s : State) (core : Nat) (i : Inval) : (s.invalidate core i).cores = (s.modCore core fun c =>
    { c with tlb := c.tlb.filter fun e => !i.hits e.asid e.va e.size
             walks := c.walks.map fun w => w.meet i (c.tlb.filter fun e => i.hits e.asid e.va e.size) }).cores := rfl

/-- One core loses what is invalidated from its TLB. -/
theorem State.invalidate_tlb {s : State} (h : swf Core.fresh s.cores = true) (core : Nat) (i : Inval) (k : Nat) :
    ((s.invalidate core i).core k).tlb =
      if k = core then (s.core k).tlb.filter fun e => !i.hits e.asid e.va e.size else (s.core k).tlb := by
  rw [State.core_congr (State.invalidate_cores s core i), State.core_modCore h]
  split <;> rfl

theorem State.invalidate_cores_wf {s : State} (h : swf Core.fresh s.cores = true) (core : Nat) (i : Inval) :
    swf Core.fresh (s.invalidate core i).cores = true := by
  rw [State.invalidate_cores]
  exact State.modCore_swf h ..

/-- The first cores lose it, one after another. -/
theorem State.invalidate_range (i : Inval) (n : Nat) : ∀ {s : State} (_ : swf Core.fresh s.cores = true),
    swf Core.fresh ((List.range n).foldl (fun s c => s.invalidate c i) s).cores = true ∧ ∀ k,
      (((List.range n).foldl (fun s c => s.invalidate c i) s).core k).tlb =
        if k < n then (s.core k).tlb.filter fun e => !i.hits e.asid e.va e.size else (s.core k).tlb := by
  induction n with
  | zero => exact fun h => ⟨h, fun _ => rfl⟩
  | succ n ih =>
    intro s h
    obtain ⟨hwf, htlb⟩ := ih h
    rw [List.range_succ, List.foldl_append]
    refine ⟨State.invalidate_cores_wf hwf n i, fun k => (State.invalidate_tlb hwf n i k).trans ?_⟩
    rw [htlb k]
    rcases Nat.lt_trichotomy k n with hk | rfl | hk
    · rw [if_neg (by omega), if_pos hk, if_pos (by omega)]
    · rw [if_pos rfl, if_neg (by omega), if_pos (by omega)]
    · rw [if_neg (by omega), if_neg (by omega), if_neg (by omega)]

theorem State.invalidateAll_tlb {s : State} (h : swf Core.fresh s.cores = true) (i : Inval) {k : Nat} (hk : k < 320) :
    ((s.invalidateAll i).core k).tlb = (s.core k).tlb.filter fun e => !i.hits e.asid e.va e.size :=
  ((State.invalidate_range i coreCount h).2 k).trans (if_pos hk)

/-! ## Where memory is as it was -/

/-- From s to t memory and what answers are as they were. -/
structure SameMemory (s t : State) : Prop where
  mem : t.mem = s.mem
  descs : t.descs = s.descs
  peerMem : t.peerMem = s.peerMem
  peerDescs : t.peerDescs = s.peerDescs
  portCap : t.portCap = s.portCap

theorem SameMemory.refl (s : State) : SameMemory s s := ⟨rfl, rfl, rfl, rfl, rfl⟩
theorem SameMemory.trans {s t u : State} (h : SameMemory s t) (h' : SameMemory t u) : SameMemory s u :=
  ⟨h'.mem.trans h.mem, h'.descs.trans h.descs, h'.peerMem.trans h.peerMem, h'.peerDescs.trans h.peerDescs,
    h'.portCap.trans h.portCap⟩
theorem SameMemory.foldl {α : Type} (f : State → α → State) (hf : ∀ s x, SameMemory s (f s x)) (l : List α) :
    ∀ s, SameMemory s (l.foldl f s) := by
  induction l with
  | nil => exact SameMemory.refl
  | cons x l ih => exact fun s => (hf s x).trans (ih _)
theorem SameMemory.wf {s t : State} (h : SameMemory s t) (hs : s.MemoryWf) : t.MemoryWf := by
  unfold State.MemoryWf
  rw [h.mem, h.descs, h.peerMem, h.peerDescs]
  exact hs

theorem State.invalidateAll_sameMemory (s : State) (i : Inval) : SameMemory s (s.invalidateAll i) :=
  SameMemory.foldl (fun s c => s.invalidate c i) (fun _ _ => ⟨rfl, rfl, rfl, rfl, rfl⟩) (List.range coreCount) s

theorem State.putDigest_sameMemory (s : State) (page : Nat) (d : List Byte) : SameMemory s (s.putDigest page d) := by
  unfold State.putDigest
  dsimp only
  split <;> exact ⟨rfl, rfl, rfl, rfl, rfl⟩

theorem State.rekeyPage_sameMemory (s : State) (old new : Nat) : SameMemory s (s.rekeyPage old new) := by
  unfold State.rekeyPage
  extract_lets pg line code digest s1 s2 s3
  have h1 : SameMemory s s1 := ⟨rfl, rfl, rfl, rfl, rfl⟩
  have h2 : SameMemory s1 s2 := by
    unfold s2
    cases digest with
    | some d => exact State.putDigest_sameMemory s1 ..
    | none => exact .refl s1
  have h3 : SameMemory s2 s3 := ⟨rfl, rfl, rfl, rfl, rfl⟩
  refine (h1.trans (h2.trans h3)).trans ?_
  refine SameMemory.foldl _ (fun _ _ => ?_) _ s3
  exact ⟨rfl, rfl, rfl, rfl, rfl⟩

theorem Wrote.ctx {s t : State} (h : Wrote s t) (n : Nat) : t.ctx n = s.ctx n := by
  unfold State.ctx
  rw [h.frame]

theorem State.writeBytes_descs (s : State) (p : Place) (bs : List Byte) : (s.writeBytes p bs).descs = s.descs := by
  unfold State.writeBytes
  split
  · split <;> rfl
  · rfl

/-! ## Bytes and numbers -/

theorem bytesOfNat_succ (n v : Nat) : bytesOfNat (n + 1) v = BitVec.ofNat 8 v :: bytesOfNat n (v / 256) := by
  unfold bytesOfNat
  rw [List.range_succ_eq_map, List.map_cons, List.map_map, Nat.pow_zero, Nat.div_one]
  congr 1
  refine List.map_congr_left fun i _ => ?_
  simp only [Function.comp, Nat.succ_eq_add_one, Nat.div_div_eq_div_mul, pow_succ']

/-- The bytes of a number give it back, modulo what they hold. -/
theorem natOfBytes_bytesOfNat (n : Nat) : ∀ v, natOfBytes (bytesOfNat n v) = v % 256 ^ n := by
  induction n with
  | zero => exact fun v => (Nat.mod_one v).symm
  | succ n ih =>
    intro v
    rw [bytesOfNat_succ]
    show (BitVec.ofNat 8 v).toNat + 256 * natOfBytes (bytesOfNat n (v / 256)) = _
    rw [ih, BitVec.toNat_ofNat, pow_succ' 256 n]
    exact (Nat.mod_mul ..).symm

/-- A number stored where memory is. -/
theorem State.storedNat_writeBytes {s : State} (h : s.MemoryWf) {pa : Nat} (hp : s.populated pa = true) (hw : inWindows pa = false)
    (n v : Nat) : (s.writeBytes (.here pa) (bytesOfNat n v)).storedNat pa n = v % 256 ^ n := by
  unfold State.storedNat
  rw [← natOfBytes_bytesOfNat]
  congr 1
  refine List.ext_getElem (by simp [sgetMany, length_bytesOfNat]) fun i hi hi' => ?_
  rw [length_bytesOfNat] at hi'
  simp only [sgetMany, List.getElem_map, List.getElem_range]
  rw [State.writeBytes_here h hp hw, length_bytesOfNat, if_pos (by omega), Nat.add_sub_cancel_left, List.getD_eq_getElem]

theorem natOfBytes_lt (l : List Byte) : natOfBytes l < 256 ^ l.length := by
  induction l with
  | nil => exact Nat.one_pos
  | cons b l ih =>
    show b.toNat + 256 * natOfBytes l < _
    rw [List.length_cons, pow_succ']
    have := b.isLt
    omega

/-! ## Page moves -/

/-- The entry that a walk ends at is in memory; below the root it is at a multiple of 8. -/
theorem State.leafFrom_some {s : State} {va at0 e : Nat} (n : Nat) : ∀ {table : Nat}, s.leafFrom va table n = some (at0, e) →
    s.populated at0 = true ∧ inWindows at0 = false ∧ e = s.storedNat at0 8 ∧ (table % 8 = 0 ∨ 1 < n → at0 % 8 = 0) := by
  induction n with
  | zero => intro table h; cases h
  | succ lv ih =>
    intro table h
    unfold State.leafFrom at h
    simp only at h
    split at h
    · cases h
    · rename_i hpa
      simp only [Bool.or_eq_true, Bool.not_eq_true', not_or, Bool.not_eq_false, Bool.not_eq_true] at hpa
      split at h
      · split at h
        · rename_i hlv
          obtain ⟨rfl, rfl⟩ := Prod.mk.inj (Option.some.inj h)
          have h0 : lv = 0 := by
            simp only [Bool.and_eq_true, beq_iff_eq] at hlv
            exact hlv.1.1
          exact ⟨hpa.1, hpa.2, rfl, fun ht => by omega⟩
        · cases h
      · split at h
        · obtain ⟨hp, hw, he, hal⟩ := ih h
          exact ⟨hp, hw, he, fun _ => hal (.inl (by omega))⟩
        · cases h

/-- What the first n blocks of a page's move have copied. -/
structure Copied (s t : State) (old new n : Nat) : Prop where
  wf : t.MemoryWf
  portCap : t.portCap = s.portCap
  mem : ∀ a, sget 0 t.mem a = if new ≤ a ∧ a < new + 64 * n then sget 0 s.mem (old + (a - new)) else sget 0 s.mem a
  descs : ∀ d, sget plainDescr t.descs d =
    if new / 64 ≤ d ∧ d < new / 64 + n then sget plainDescr s.descs (old / 64 + (d - new / 64)) else sget plainDescr s.descs d

/-- The block that a move reads is the one that memory holds, but in a window. -/
theorem State.readBlock_getD_storedBlock (s : State) {pa : Nat} (h : inWindows pa = false) :
    (s.readBlock (.here pa)).getD (s.storedBlock pa) = s.storedBlock pa := by
  show (if inWindows pa = true then _ else if s.populated pa = true then some (s.storedBlock pa) else none).getD _ = _
  rw [h, if_neg Bool.false_ne_true]
  split <;> rfl

theorem inWindows_page {pa : Nat} (h : inWindows pa = false) (hal : pa % 65536 = 0) {k : Nat} (hk : k < 65536) :
    inWindows (pa + k) = false := by
  unfold inWindows windowBase portSpan at *
  simp only [Bool.and_eq_false_iff, decide_eq_false_iff_not] at *
  omega

/-- One more block. -/
theorem Copied.step {s t : State} {old new n : Nat} (h : Copied s t old new n) (ho : old % 65536 = 0) (hn : new % 65536 = 0) (_ : old ≠ new)
    (hlt : n < 1024) {b : Block} (hb : b = t.storedBlock (old + 64 * n)) :
    Copied s { t with mem := ssetMany 0 t.mem (new + 64 * n) b.bytes, descs := sset plainDescr t.descs ((new + 64 * n) / 64) b.descr
                      poison := setMark t.poison ((new + 64 * n) / 64) b.poison } old new (n + 1) := by
  have hlen : b.bytes.length = 64 := by rw [hb]; simp [State.storedBlock, sgetMany]
  refine ⟨⟨swf_ssetMany _ _ _ _ h.wf.1, swf_sset _ _ _ _ h.wf.2.1, h.wf.2.2⟩, h.portCap, fun a => ?_, fun d => ?_⟩
  · by_cases ha : new + 64 * n ≤ a ∧ a < new + 64 * n + 64
    · have hi : a - (new + 64 * n) < b.bytes.length := by omega
      have := sget_ssetMany_at 0 b.bytes t.mem (new + 64 * n) (a - (new + 64 * n)) hi h.wf.1
      rw [show new + 64 * n + (a - (new + 64 * n)) = a by omega] at this
      rw [if_pos (by omega)]
      refine this.trans ?_
      simp only [hb, State.storedBlock, sgetMany, List.getElem_map, List.getElem_range]
      rw [h.mem, if_neg (by omega)]
      congr 1
      omega
    · refine (sget_ssetMany_ne 0 b.bytes t.mem (new + 64 * n) a h.wf.1 (by omega)).trans ((h.mem a).trans ?_)
      by_cases hin : new ≤ a ∧ a < new + 64 * n
      · rw [if_pos hin, if_pos (by omega)]
      · rw [if_neg hin, if_neg (by omega)]
  · by_cases hd : d = (new + 64 * n) / 64
    · subst hd
      rw [if_pos (by omega)]
      refine (sget_sset_same _ _ _ _ h.wf.2.1).trans ?_
      rw [hb]
      show sget plainDescr t.descs ((old + 64 * n) / 64) = _
      rw [h.descs, if_neg (by omega)]
      congr 1
      omega
    · refine (sget_sset_ne _ _ _ h.wf.2.1 hd).trans ((h.descs d).trans ?_)
      by_cases hin : new / 64 ≤ d ∧ d < new / 64 + n
      · rw [if_pos hin, if_pos (by omega)]
      · rw [if_neg hin, if_neg (by omega)]

theorem State.copyPage_copied {s : State} {old new : Nat} (hs : s.MemoryWf) (hw : inWindows old = false) (ho : old % 65536 = 0)
    (hn : new % 65536 = 0) (hne : old ≠ new) : Copied s (s.copyPage old new) old new 1024 := by
  unfold State.copyPage
  suffices ∀ n ≤ 1024, Copied s ((List.range n).foldl (fun s i =>
      { s with mem := ssetMany 0 s.mem (new + 64 * i) ((s.readBlock (.here (old + 64 * i))).getD (s.storedBlock (old + 64 * i))).bytes,
               descs := sset plainDescr s.descs ((new + 64 * i) / 64)
                 ((s.readBlock (.here (old + 64 * i))).getD (s.storedBlock (old + 64 * i))).descr
               poison := setMark s.poison ((new + 64 * i) / 64)
                 ((s.readBlock (.here (old + 64 * i))).getD (s.storedBlock (old + 64 * i))).poison }) s) old new n from this 1024 le_rfl
  intro n
  induction n with
  | zero => exact fun _ => ⟨hs, rfl, fun a => by simp, fun d => by simp⟩
  | succ n ih =>
    intro hle
    rw [List.range_succ, List.foldl_append]
    exact (ih (by omega)).step ho hn hne (by omega) (State.readBlock_getD_storedBlock _ (inWindows_page hw ho (by omega)))

end Sys2Proof.Machine
end

section
/-! SUPPORT. TranslationClaims: TLB writes, derived regions, page moves and hints. -/

namespace Sys2Proof.Claims
open Sys2Proof Sys2Proof.Machine

theorem tlbshoot_stays {s : State} {v : W64} {kind : Nat} (h : s.shootBusy = true ∨ (v.extractLsb' 61 2).toNat ≠ kind) :
    s.tlbshoot v kind = s := by
  unfold State.tlbshoot
  split
  · rfl
  · rename_i hb
    split
    · rfl
    · exact if_pos (bne_iff_ne.mpr (h.resolve_left hb))

theorem tlbshoot_writes {s : State} {v : W64} {kind : Nat} {i : Inval} (hb : s.shootBusy = false)
    (hk : (v.extractLsb' 61 2).toNat = kind) (hi : shootInval v = some i) :
    s.tlbshoot v kind = if v.getLsbD 63 = false then { s with shoot := shootFields v }
      else ({ s with shoot := shootFields v, shootBusy := true } : State).invalidateAll i := by
  simp [State.tlbshoot, hb, hk, hi]

theorem invalidateAll_shoot (s : State) (i : Inval) :
    (s.invalidateAll i).shoot = s.shoot ∧ (s.invalidateAll i).shootBusy = s.shootBusy := by
  unfold State.invalidateAll
  generalize List.range coreCount = l
  induction l generalizing s with
  | nil => exact ⟨rfl, rfl⟩
  | cons c l ih => exact ih (s.invalidate c i)

/-- A write of TLBSHOOT that names what is invalidated as the register's kind does. -/
theorem shootdown {s : State} {v : W64} {kind : Nat} {n : Instr} {i : Inval} {hit : TlbEntry → Bool} (hcores : swf Core.fresh s.cores = true)
    (he : exec n s = .next (s.tlbshoot v kind)) (hi : (v.extractLsb' 61 2).toNat = kind → shootInval v = some i)
    (hh : (v.extractLsb' 61 2).toNat = kind → ∀ e, i.hits e.asid e.va e.size = hit e) :
    (s.shootBusy = true ∨ (v.extractLsb' 61 2).toNat ≠ kind → Stays n s)
      ∧ (s.shootBusy = false → (v.extractLsb' 61 2).toNat = kind → v.getLsbD 63 = false →
          Goes n s { s with shoot := v &&& 0x60FFFFFFFFFFFFFF })
      ∧ (s.shootBusy = false → (v.extractLsb' 61 2).toNat = kind → v.getLsbD 63 = true → Answers (exec n s) fun t =>
          t.shootBusy = true ∧ t.shoot = v &&& 0x60FFFFFFFFFFFFFF
            ∧ ∀ k, k < 320 → (t.core k).tlb = (s.core k).tlb.filter fun e => !hit e) := by
  refine ⟨fun h => he.trans (congrArg _ (tlbshoot_stays h)), fun hb hk hgo => ?_, fun hb hk hgo => ?_⟩
  · exact he.trans (congrArg _ ((tlbshoot_writes hb hk (hi hk)).trans (if_pos hgo)))
  · refine ⟨_, he.trans (congrArg _ ((tlbshoot_writes hb hk (hi hk)).trans (if_neg (by rw [hgo]; decide)))), ?_⟩
    obtain ⟨hshoot, hbusy⟩ := invalidateAll_shoot { s with shoot := shootFields v, shootBusy := true } i
    refine ⟨hbusy, hshoot, fun k hk' => ?_⟩
    simp only [← hh hk]
    exact State.invalidateAll_tlb (s := { s with shoot := shootFields v, shootBusy := true }) hcores i hk'

/-- A page's move with nothing in any FIFO. -/
def migrated (s : State) (ctx va old new at0 e : Nat) : State :=
  let u := (s.writeBytes (.here at0) (bytesOfNat 8 (e / 2 * 2))).invalidateAll (.page (s.ctx ctx).asid (va / 65536))
  let t := (u.copyPage old new).rekeyPage old new
  (t.writeBytes (.here at0) (bytesOfNat 8 (e % 65536 + new + e / 2 ^ 52 * 2 ^ 52 + (1 - e % 2)))).wake

theorem performFifo_empty {s : State} {core : Nat} (h : (s.core core).fifo = []) (n : Nat) : s.performFifo core n = s := by
  cases n with
  | zero => rfl
  | succ n =>
    unfold State.performFifo
    rw [h]

/-- What a table gives at an index is in the table, or the value that it leaves out. -/
theorem sget_mem_or {α : Type} [DecidableEq α] (d : α) (l : List (Nat × α)) (k : Nat) : (k, sget d l k) ∈ l
  ∨ sget d l k = d := by
  induction l with
  | nil => exact .inr rfl
  | cons e l ih =>
    unfold sget
    split
    · rename_i h
      exact .inl (h ▸ List.mem_cons_self)
    · split
      · exact .inr rfl
      · exact ih.imp_left (List.mem_cons_of_mem _)

/-- Cores with nothing to perform. -/
theorem performAll_empty {s : State} (h : ∀ k ∈ s.cores, k.2.fifo = []) (l : List Nat) :
    l.foldl (fun s c => s.performFifo c (s.core c).fifo.length) s = s := by
  have hf : ∀ c, (s.core c).fifo = [] := fun c => by
    rcases sget_mem_or Core.fresh s.cores c with hc | hc
    · exact h _ hc
    · unfold State.core
      rw [hc]
      rfl
  induction l with
  | nil => rfl
  | cons c l ih => exact (congrArg (fun u => l.foldl _ u) (performFifo_empty (hf c) _)).trans ih

theorem populated_small {s : State} {pa : Nat} (h : s.populated pa = true) (hw : inWindows pa = false) : pa < 2 ^ 51 := by
  unfold State.populated at h
  rw [hw] at h
  rw [Bool.or_false, Bool.or_eq_true, Bool.and_eq_true, Bool.and_eq_true] at h
  rcases h with h | ⟨⟨-, h⟩, -⟩
  · exact (of_decide_eq_true h).trans (by decide)
  · exact (of_decide_eq_true h).trans (by decide)

/-- What a page's move leaves: the copy of the page, and the entry with the new place. -/
theorem migrated_spec {s : State} {ctx va old new at0 e : Nat} (hs : s.MemoryWf) (hp : s.populated at0 = true) (hw : inWindows at0 = false)
    (hal : at0 % 8 = 0) (he : e < 2 ^ 64) (ho : old % 65536 = 0) (hn : new % 65536 = 0) (hne : old ≠ new) (hwo : inWindows old = false)
    (hnew : new < 2 ^ 51) (hao : pageOf at0 ≠ pageOf old) (han : pageOf at0 ≠ pageOf new) :
    let t := migrated s ctx va old new at0 e
    (∀ k, k < 65536 → sget 0 t.mem (new + k) = sget 0 s.mem (old + k))
      ∧ (∀ k, k < 1024 → sget plainDescr t.descs (new / 64 + k) = sget plainDescr s.descs (old / 64 + k))
      ∧ t.storedNat at0 8 = e % 65536 / 2 * 2 + 1 + new + e / 2 ^ 52 * 2 ^ 52 := by
  unfold pageOf at hao han
  generalize hu : (s.writeBytes (.here at0) (bytesOfNat 8 (e / 2 * 2))).invalidateAll (.page (s.ctx ctx).asid (va / 65536)) = u
  have hsame : SameMemory (s.writeBytes (.here at0) (bytesOfNat 8 (e / 2 * 2))) u := hu ▸ State.invalidateAll_sameMemory ..
  have hcopy : Copied u (u.copyPage old new) old new 1024 := State.copyPage_copied (hsame.wf (State.writeBytes_wf hs ..)) hwo ho hn hne
  have hkey : SameMemory (u.copyPage old new) ((u.copyPage old new).rekeyPage old new) := State.rekeyPage_sameMemory ..
  have hwf : ((u.copyPage old new).rekeyPage old new).MemoryWf := hkey.wf hcopy.wf
  have hpop : ((u.copyPage old new).rekeyPage old new).populated at0 = true := by
    rw [State.populated_congr (hkey.portCap.trans (hcopy.portCap.trans (hsame.portCap.trans (State.writeBytes_wrote ..).portCap)))]
    exact hp
  have hbytes : ∀ a, at0 + 8 ≤ a ∨ a < at0 → sget 0 u.mem a = sget 0 s.mem a := fun a ha => by
    rw [hsame.mem, State.writeBytes_here hs hp hw, length_bytesOfNat, if_neg (by omega)]
  have hdescs : ∀ d, sget plainDescr u.descs d = sget plainDescr s.descs d := fun d => by
    rw [hsame.descs, State.writeBytes_descs]
  intro t
  have ht : t = (((u.copyPage old new).rekeyPage old new).writeBytes (.here at0)
      (bytesOfNat 8 (e % 65536 + new + e / 2 ^ 52 * 2 ^ 52 + (1 - e % 2)))).wake := by rw [← hu]; rfl
  rw [ht]
  refine ⟨fun k hk => ?_, fun k hk => ?_, ?_⟩
  · refine (State.writeBytes_here hwf hpop hw _ _).trans ?_
    rw [length_bytesOfNat, if_neg (by omega), hkey.mem, hcopy.mem, if_pos (by omega), Nat.add_sub_cancel_left]
    exact hbytes _ (by omega)
  · refine (congrArg (fun l => sget plainDescr l _) (State.writeBytes_descs ..)).trans ?_
    rw [hkey.descs, hcopy.descs, if_pos (by omega), Nat.add_sub_cancel_left, hdescs]
  · refine (State.storedNat_writeBytes hwf hpop hw 8 _).trans ?_
    omega

theorem tlbshootDone_who (s : State) :
    s.oldAccesses (if (s.shoot.extractLsb' 61 2).toNat == 2 then none else some (cfgAsid s.shoot)) =
      s.oldAccesses (if (s.shoot.extractLsb' 61 2).toNat = 2 then none else some (s.shoot.extractLsb' 0 16).toNat) := by
  simp only [beq_iff_eq]
  rfl

/-- What a page's move is while nothing waits to be performed. -/
theorem pageMigrate_moves {s : State} {ctx va new at0 e : Nat} (hl : s.leafFrom va (s.ctx ctx).root 4 = some (at0, e))
    (hf : ∀ k ∈ s.cores, k.2.fifo = []) (hn : new % 65536 = 0) (hne : e / 65536 % 2 ^ 36 * 65536 ≠ new)
    (hpo : s.populated (e / 65536 % 2 ^ 36 * 65536) = true) (hpn : s.populated new = true)
    (hwo : inWindows (e / 65536 % 2 ^ 36 * 65536) = false) (hwn : inWindows new = false) (hr : s.regions = []) :
    exec (.pageMigrate ctx va new) s = .next (migrated s ctx va (e / 65536 % 2 ^ 36 * 65536) new at0 e) := by
  have hb : (s.readBlock (.here (e / 65536 % 2 ^ 36 * 65536))).isNone = false := by
    show (if inWindows _ = true then _ else if s.populated _ = true then some _ else none).isNone = false
    rw [hwo, hpo]
    rfl
  change execPageMigrate ctx va new s = _
  unfold execPageMigrate
  simp only [hl, hn, hpn, hwn, hb, hr, beq_eq_false_iff_ne.mpr hne, List.any_nil, bne_self_eq_false, Bool.not_true,
    Bool.or_false, Bool.false_eq_true,
    if_false]
  rw [performAll_empty hf, (State.writeBytes_wrote ..).ctx]
  rfl

/-- Settles O60: a shootdown's filter, the cases of a descriptor's write, and a page's move block by block. -/
theorem translationEvents : Obligations.TranslationEvents := by
  intro s ctx v hcores c asid op page fields hit write
  refine ⟨⟨?page, ?asid, ?all⟩, ⟨?done, ?going⟩, ?derived, ?unmapped, ?moves, ?drained, ?drains⟩
  case page =>
    have hi (hk : (v.extractLsb' 61 2).toNat = 0) : shootInval v = some (.page asid (v.extractLsb' 16 40).toNat) := by
      simp [shootInval, hk]
      rfl
    refine shootdown hcores rfl hi fun hk e => ?_
    have hop : op = 0 := hk
    simp only [hit, hop]
    rfl
  case asid =>
    have hi (hk : (v.extractLsb' 61 2).toNat = 1) : shootInval v = some (.asid asid) := by
      simp [shootInval, hk]
      rfl
    refine shootdown hcores rfl hi fun hk e => ?_
    have hop : op = 1 := hk
    simp only [hit, hop]
    rfl
  case all =>
    refine shootdown (i := .all) hcores rfl (fun hk => by simp [shootInval, hk]) fun hk e => ?_
    have hop : op = 2 := hk
    simp only [hit, hop, Inval.hits]
  case done =>
    intro hb ho
    change execTlbshootDone s = _
    unfold execTlbshootDone
    refine congrArg _ (if_pos ?_)
    rw [hb, tlbshootDone_who, ho]
    rfl
  case going =>
    intro h
    change execTlbshootDone s = _
    unfold execTlbshootDone
    refine congrArg _ (if_neg ?_)
    rw [tlbshootDone_who]
    rcases h with h | h <;> rw [h]
    · simp
    · rw [Bool.not_true, Bool.and_false]
      exact Bool.false_ne_true
  case derived =>
    intro i hi hwf d keeps
    have hlt : decide (derivedCount ≤ i) = false := decide_eq_false (Nat.not_le.mpr hi)
    have open' (ha : (s.derivedAt i).v = false) (hv : v.getLsbD 24 = true) :
        ¬ (derivedCount ≤ i || !v.getLsbD 24 || (s.derivedAt i).v) = true := by
      rw [hlt, hv, ha]
      decide
    have shut (hv : v.getLsbD 24 = false) : ¬ (derivedCount ≤ i || v.getLsbD 24) = true := by
      rw [hlt, hv]
      decide
    refine ⟨fun hv ha => ?_, fun hv ha => ⟨fun hz hok => ?_, fun hbad => ?_⟩, fun hv ha => ?_, fun hv ha => ?_⟩
    · exact congrArg _ (if_pos (by simp [ha]))
    · have hgo : exec (.derivedRegionValidate i v) s = .next ((s.modDerived i fun _ => { d with v := true }).touchWindow d) := by
        refine congrArg _ ((if_neg (open' ha hv)).trans (if_pos ?_))
        rw [show s.derivedOk i _ = true from hok, hz]
        rfl
      exact ⟨_, hgo, sget_sset_same _ _ _ _ hwf⟩
    · refine congrArg _ ((if_neg (open' ha hv)).trans (if_neg ?_))
      rw [show s.derivedOk i _ = false from hbad, Bool.and_false]
      exact Bool.false_ne_true
    · exact congrArg _ ((if_neg (shut hv)).trans (congrArg keeps (if_pos ha)))
    · exact congrArg _ ((if_neg (shut hv)).trans (congrArg keeps (if_neg (ne_true_of_eq_false ha))))
  case unmapped =>
    intro va new hl
    change execPageMigrate ctx va new s = _
    unfold execPageMigrate
    rw [hl]
  case moves =>
    intro va new at0 e hl hmem hfifo old hn hne hpo hpn hwo hwn hr hao han
    obtain ⟨hp, hw, he, hal⟩ := State.leafFrom_some 4 hl
    have hlt : e < 2 ^ 64 := by
      rw [he]
      have := natOfBytes_lt (sgetMany 0 s.mem at0 8)
      rwa [show (sgetMany 0 s.mem at0 8).length = 8 by simp [sgetMany]] at this
    exact ⟨_, pageMigrate_moves hl hfifo hn hne hpo hpn hwo hwn hr, migrated_spec hmem hp hw (hal (.inr (by decide))) hlt
      (Nat.mul_mod_left ..) hn hne hwo (populated_small hpn hwn) hao han⟩
  case drained =>
    exact fun h => congrArg _ (if_pos (beq_iff_eq.mpr h))
  case drains =>
    exact fun h => congrArg _ (if_neg (mt beq_iff_eq.mp h))

end Sys2Proof.Claims
end

section
/-! SUPPORT. Streams: trace records and what they leave. -/

namespace Sys2Proof.Machine
open Sys2Proof Sys2Proof.Claims

/-! ## Streams -/

/-- What is inserted into a list that holds nothing of its kind is found there. -/
theorem find?_insertBy {α : Type} (le : α → α → Bool) {p : α → Bool} {x : α} (hx : p x = true) (l : List α) (hl : ∀ y ∈ l,
  p y = false) :
    (insertBy le x l).find? p = some x := by
  induction l with
  | nil => exact List.find?_cons_of_pos hx
  | cons y l ih =>
    unfold insertBy
    split
    · rw [List.find?_cons_of_neg (by rw [hl y List.mem_cons_self]; decide)]
      exact ih fun z hz => hl z (List.mem_cons_of_mem _ hz)
    · exact List.find?_cons_of_pos hx

theorem Core.stream_ctx (c : Core) (ctx : Nat) : (c.stream ctx).ctx = ctx := by
  unfold Core.stream
  cases h : c.streams.find? fun x => x.ctx == ctx with
  | none => rfl
  | some x => exact beq_iff_eq.mp (List.find?_some (p := fun x : Stream => x.ctx == ctx) h)

/-- A stream that has been set is the one that is there. -/
theorem Core.stream_setStream (c : Core) {x : Stream} {ctx : Nat} (h : x.ctx = ctx) : (c.setStream x).stream ctx = x := by
  unfold Core.setStream Core.stream
  have apart : ∀ y ∈ c.streams.filter fun y => y.ctx != x.ctx, (y.ctx == ctx) = false := fun y hy =>
    beq_eq_false_iff_ne.mpr (h ▸ bne_iff_ne.mp (List.mem_filter.mp hy).2)
  exact congrArg (·.getD (Stream.fresh ctx)) (find?_insertBy (fun a b => decide (a.ctx ≤ b.ctx)) (p := fun y : Stream => y.ctx == ctx)
    (beq_iff_eq.mpr h) _ apart)

/-! The functions of records are unfolded as functions here,
  with their arguments put in afterwards: a projection of one of their
results, or one of their equations checked as it stands, would have the kernel run the writes that they look at. -/

theorem State.putLost_wrote {s t : State} {core : Nat} {x y : Stream} (h : s.putLost core x = (t, y)) : Wrote s t := by
  have unfolded : @State.putLost = @State.putLost := rfl
  conv_rhs at unfolded => delta State.putLost
  rw [unfolded] at h
  beta_reduce at h
  split at h
  · rename_i e
    obtain ⟨rfl, -⟩ := Prod.mk.inj h
    exact State.sysWrite_wrote e
  · obtain ⟨rfl, -⟩ := Prod.mk.inj h
    exact .refl s

theorem State.putTrace_wrote {s t : State} {core : Nat} {x y : Stream} {bs : List Byte} {ok : Bool}
    (h : s.putTrace core x bs = (t, y, ok)) : Wrote s t := by
  have unfolded : @State.putTrace = @State.putTrace := rfl
  conv_rhs at unfolded => delta State.putTrace
  rw [unfolded] at h
  beta_reduce at h
  extract_lets c at0 n tail full lose write at h
  have hw : ∀ x y t ok, write x = (t, y, ok) → Wrote s t := fun x y t ok h => by
    unfold write at h
    split at h
    · obtain ⟨rfl, -⟩ := Prod.mk.inj h
      exact .refl s
    · rename_i e
      split at h
      · obtain ⟨rfl, -⟩ := Prod.mk.inj h
        exact State.sysWrite_wrote e
      · rename_i e'
        obtain ⟨rfl, -⟩ := Prod.mk.inj h
        exact (State.sysWrite_wrote e).trans (State.sysWrite_wrote e')
  have hl : ∀ x y t ok, lose x = (t, y, ok) → Wrote s t := fun x y t ok h => by
    unfold lose at h
    split at h
    rename_i e
    obtain ⟨rfl, -⟩ := Prod.mk.inj h
    exact State.putLost_wrote e
  split at h
  · exact hw _ _ _ _ h
  · split at h
    · obtain ⟨rfl, -⟩ := Prod.mk.inj h
      exact .refl s
    · extract_lets y at h
      split at h
      · exact hl _ _ _ _ h
      · exact hw _ _ _ _ h

/-- A record leaves the table of cores in canonical form. -/
theorem State.traceRecord_swf {s : State} (h : swf Core.fresh s.cores = true) (core ctx : Nat) (r : TraceRec) :
    swf Core.fresh (s.traceRecord core ctx r).cores = true := by
  have keep : ∀ (t : State) (x : Stream), Wrote s t →
    swf Core.fresh (t.modCore core (·.setStream x)).cores = true := fun t x ht =>
    State.modCore_swf (ht.cores ▸ h) ..
  have stay : ∀ {t u : State} {x y : Stream}, (t, x) = (u, y) → Wrote s t → Wrote s u := fun e ht => by
    obtain ⟨rfl, -⟩ := Prod.mk.inj e
    exact ht
  generalize ht : s.traceRecord core ctx r = t
  have unfolded : @State.traceRecord = @State.traceRecord := rfl
  conv_rhs at unfolded => delta State.traceRecord
  rw [unfolded] at ht
  beta_reduce at ht
  extract_lets x keep' at ht
  split at ht
  · exact ht ▸ keep _ _ (.refl s)
  · split at ht
    rename_i s1 x1 e1
    have h1 : Wrote s s1 := by
      split at e1
      · exact State.putLost_wrote e1
      · exact stay e1 (.refl s)
    split at ht
    rename_i s2 x2 ok e2
    have h2 : Wrote s s2 := by
      split at e2
      · obtain ⟨rfl, -⟩ := Prod.mk.inj e2
        exact h1
      · split at e2
        · obtain ⟨rfl, -⟩ := Prod.mk.inj e2
          exact h1
        · extract_lets rs at e2
          split at e2
          rename_i e3
          obtain ⟨rfl, -⟩ := Prod.mk.inj e2
          exact h1.trans (State.putTrace_wrote e3)
    split at ht
    · exact ht ▸ keep _ _ h2
    · split at ht
      · split at ht
        rename_i e3
        exact ht ▸ keep _ _ (h2.trans (State.putLost_wrote e3))
      · split at ht
        rename_i e3
        exact ht ▸ keep _ _ (h2.trans (State.putTrace_wrote e3))

/-- Bytes of a record that are stored at a stream's tail, where it has room. -/
theorem State.putTrace_stored {s u w : State} {core ctx : Nat} {bs : List Byte} {y : Stream} (hctx : y.ctx = ctx)
    (hroom : (y.tail % (s.ctx ctx).segmentSlots + 1) % (s.ctx ctx).segmentSlots ≠ y.headSeen % (s.ctx ctx).segmentSlots)
    (hu : s.sysWrite ctx ((s.ctx ctx).segmentAt core + 64 + 32 * (y.tail % (s.ctx ctx).segmentSlots)) bs = .ok u)
    (hw : u.sysWrite ctx ((s.ctx ctx).segmentAt core)
      (bytesOfNat 8 ((y.tail % (s.ctx ctx).segmentSlots + 1) % (s.ctx ctx).segmentSlots)) = .ok w) :
    s.putTrace core y bs = (w, { y with tail := (y.tail % (s.ctx ctx).segmentSlots + 1) % (s.ctx ctx).segmentSlots },
      true) := by
  subst hctx
  generalize hp : s.putTrace core y bs = p
  have unfolded : @State.putTrace = @State.putTrace := rfl
  conv_rhs at unfolded => delta State.putTrace
  rw [unfolded] at hp
  beta_reduce at hp
  extract_lets c at0 n tail full lose write at hp
  have hfull : full y.headSeen = false := beq_eq_false_iff_ne.mpr hroom
  rw [hfull, Bool.not_false, if_pos rfl] at hp
  unfold write at hp
  split at hp
  · rename_i e
    exact nomatch e.symm.trans hu
  · rename_i u' e
    obtain rfl := Except.ok.inj (e.symm.trans hu)
    split at hp
    · rename_i e'
      exact nomatch e'.symm.trans hw
    · rename_i w' e'
      obtain rfl := Except.ok.inj (e'.symm.trans hw)
      exact hp.symm

/-- A record of a stream that has begun and has room. -/
theorem State.traceRecord_stored {s u w : State} {core ctx : Nat} {r : TraceRec} {y : Stream} (hy : (s.core core).stream ctx = y)
    (hb : y.started = true) (hs : y.suspended = false) (hr : y.resync = none) (hd : s.ticks - y.last < 2 ^ 32)
    (hroom : (y.tail % (s.ctx ctx).segmentSlots + 1) % (s.ctx ctx).segmentSlots ≠ y.headSeen % (s.ctx ctx).segmentSlots)
    (hu : s.sysWrite ctx ((s.ctx ctx).segmentAt core + 64 + 32 * (y.tail % (s.ctx ctx).segmentSlots)) (r.bytes (s.ticks - y.last) 0) = .ok u)
    (hw : u.sysWrite ctx ((s.ctx ctx).segmentAt core)
      (bytesOfNat 8 ((y.tail % (s.ctx ctx).segmentSlots + 1) % (s.ctx ctx).segmentSlots)) = .ok w) :
    s.traceRecord core ctx r = w.modCore core (·.setStream
      { y with tail := (y.tail % (s.ctx ctx).segmentSlots + 1) % (s.ctx ctx).segmentSlots, last := s.ticks }) := by
  have hput := State.putTrace_stored (y := y) (hy ▸ Core.stream_ctx ..) hroom hu hw
  have hwhy : y.resyncWhy s.ticks = none := by
    unfold Stream.resyncWhy
    simp only [hb, hr, Bool.not_true, Bool.false_eq_true, if_false]
    exact if_neg (Nat.not_le.mpr hd)
  have hticks : w.ticks = s.ticks := by
    rw [(State.sysWrite_wrote hw).frame, (State.sysWrite_wrote hu).frame]
  have hsusp : ¬ y.suspended = true := by rw [hs]; decide
  have hresync : ¬ (y.resync == some 4) = true := by rw [hr]; decide
  generalize ht : s.traceRecord core ctx r = t
  have unfolded : @State.traceRecord = @State.traceRecord := rfl
  conv_rhs at unfolded => delta State.traceRecord
  rw [unfolded] at ht
  beta_reduce at ht
  extract_lets x keep at ht
  have hx : x = y := hy
  clear_value x
  subst hx
  rw [if_neg hsusp, if_neg hresync] at ht
  split at ht
  rename_i s1 x1 e1
  obtain ⟨rfl, rfl⟩ := Prod.mk.inj e1
  rw [if_neg hsusp, hwhy] at ht
  split at ht
  rename_i s2 x2 ok e2
  obtain ⟨rfl, e3⟩ := Prod.mk.inj e2
  obtain ⟨rfl, rfl⟩ := Prod.mk.inj e3
  rw [if_neg hsusp, if_neg (by decide), hput] at ht
  rw [← ht, ← hticks]
  rfl

end Sys2Proof.Machine
end

section
/-! SUPPORT. RegisterGroups: addresses of register groups, and what a write of TRACECFG leaves. -/

namespace Sys2Proof.Machine
open Sys2Proof Sys2Proof.Claims

/-! ## Register groups -/

/-- An address of a group names its register. -/
theorem groupAt_some {base stride count a i o : Nat} (e : a = base + stride * i + o) (hi : i < count) (ho : o < stride) :
    groupAt base stride count a = some (i, o) := by
  subst e
  have hlt : stride * i + o < stride * count := by
    calc stride * i + o < stride * i + stride := by omega
      _ = stride * (i + 1) := rfl
      _ ≤ stride * count := Nat.mul_le_mul_left _ hi
  unfold groupAt
  have e : base + stride * i + o - base = stride * i + o := by omega
  rw [if_pos (by rw [Bool.and_eq_true, decide_eq_true_eq, decide_eq_true_eq]; omega), e,
    Nat.mul_add_div (by omega), Nat.div_eq_of_lt ho, Nat.mul_add_mod, Nat.mod_eq_of_lt ho]
  rfl

theorem groupAt_none {base stride count a : Nat} (h : a < base
  ∨ base + stride * count ≤ a) : groupAt base stride count a = none := by
  unfold groupAt
  exact if_neg (by rw [Bool.and_eq_true, decide_eq_true_eq, decide_eq_true_eq]; omega)

/-- Setting what is there changes nothing, unless it is what an unlisted key reads as. -/
theorem sset_sget {α : Type} [DecidableEq α] {d : α} {l : List (Nat × α)} {k : Nat} (h : sget d l k ≠ d) :
    sset d l k (sget d l k) = l := by
  induction l with
  | nil => exact absurd rfl h
  | cons p l ih =>
    obtain ⟨k', v⟩ := p
    unfold sget at h ⊢
    unfold sset
    split at h
    · rename_i e
      rw [if_pos e, if_neg (by omega), if_pos e.symm, if_neg h, e]
    · split at h
      · exact absurd rfl h
      · rename_i hne hlt
        rw [if_neg hne, if_neg hlt, if_neg hlt, if_neg (Ne.symm hne), ih h]

theorem sget_congr {α : Type} {d : α} {l m : List (Nat × α)} (h : l = m) (k : Nat) : sget d l k = sget d m k := by rw [h]

/-! ## Islands and streams -/

/-- A write of TRACECFG changes no context but its own. -/
theorem State.setTrace_ctxs (s : State) (ctx : Nat) (v : W64) :
    (s.setTrace ctx v).ctxs = (s.modCtx ctx fun c => { c with trace := v &&& 0x00FFFFFFFFFF0F7F }).ctxs := by
  have keep (f : Nat → Core → Core) (l : List Nat) : ∀ t : State, (l.foldl (fun t c => t.modCore c (f c)) t).ctxs = t.ctxs := by
    induction l with
    | nil => exact fun _ => rfl
    | cons c l ih => exact fun t => ih _
  unfold State.setTrace
  extract_lets mask was s1 anew upd
  exact keep (fun _ x => { x with streams := if anew then x.streams.filter fun y => y.ctx != ctx else x.streams.map upd }) _ _

end Sys2Proof.Machine
end

section
/-! SUPPORT. PowerClaims: clocks, shaping, trace and register writes. -/

namespace Sys2Proof.Claims
open Sys2Proof Sys2Proof.Machine

/-- The clauses of O50 about an island. -/
theorem islandWrites (s : State) (v : W64) {k : Nat} (hk : k < 160) :
    let i := s.island k
    let put (x : Island) : State := { s with islands := sset .fresh s.islands k x }
    let f := (v.extractLsb' 0 16).toNat
    let maxq := (v.extractLsb' 16 5).toNat
    let tau := (v.extractLsb' 0 16).toNat
    let now := s.islandCycle k
    Goes (.islctlWrite k v) s (put { i with
        nextFreq := if 400 ≤ f ∧ f ≤ 1600 ∧ f % 100 = 0 then f else i.nextFreq, nextGate := v.getLsbD 16 })
      ∧ (maxq = 0 ∨ 16 < maxq ∨ tau = 0 → Stays (.issueshapeWrite k v) s)
      ∧ (1 ≤ maxq → maxq ≤ 16 → 1 ≤ tau → Goes (.issueshapeWrite k v) s
        (let j := i.latch now
         put { j with nextMaxq := maxq, nextTau := tau, shapeAt := j.c0 + ((now - j.c0) / 16 + 1) * 16 })) := by
  intro i put f maxq tau now
  have hshape : exec (.issueshapeWrite k v) s = .next (s.setShape k v) := by
    change execIssueshapeWrite k v s = _
    unfold execIssueshapeWrite
    rw [if_neg (by simp only [pairIslands]; omega)]
  refine ⟨?_, fun h => hshape.trans ?_, fun h1 h16 ht => hshape.trans ?_⟩
  · change execIslctlWrite k v s = _
    unfold execIslctlWrite
    have hf : (freqOk k f = true) = (400 ≤ f ∧ f ≤ 1600 ∧ f % 100 = 0) := by
      simp only [freqOk, pairIslands, hk, decide_true, Bool.true_and, Bool.and_eq_true, decide_eq_true_eq, beq_iff_eq,
        and_assoc]
    rw [if_neg (by simp only [islandCount]; omega)]
    simp only [State.modIsland]
    rw [show (v.extractLsb' 0 16).toNat = f from rfl]
    simp only [hf]
    rfl
  · unfold State.setShape
    exact congrArg _ (if_pos (by simp only [Bool.or_eq_true, decide_eq_true_eq, beq_iff_eq]; omega))
  · unfold State.setShape
    exact congrArg _ (if_neg (by simp only [Bool.or_eq_true, decide_eq_true_eq, beq_iff_eq]; omega))

/-- The clause of O50 about a change of an island's clock. -/
theorem clockChange (s : State) {k : Nat} (hk : k < 160) :
    let i := s.island k
    let now := s.islandCycle k
    let gate := i.nextGate && (s.residents (2 * k)).isEmpty && (s.residents (2 * k + 1)).isEmpty
    (i.freq = i.nextFreq → i.gate = gate → Stays (.islandClockChange k) s)
      ∧ (i.freq ≠ i.nextFreq ∨ i.gate ≠ gate → swf Island.fresh s.islands = true →
        Answers (exec (.islandClockChange k) s) fun t =>
          t.island k = { i with base := now, since := 8 * s.ticks + s.eighth, freq := i.nextFreq, gate := gate }
            ∧ t.islandCycle k = now) := by
  intro i now gate
  have hgate : s.gateDue k = gate := by
    unfold State.gateDue
    rw [show decide (pairIslands ≤ k) = false from decide_eq_false (by simp only [pairIslands]; omega), Bool.false_or]
    simp only [coresOfPair, List.all_cons, List.all_nil, Bool.and_true, gate, i, Bool.and_assoc]
  have hbound : ¬ islandCount ≤ k := by simp only [islandCount]; omega
  refine ⟨fun hf hg => ?_, fun h hwf => ?_⟩
  · change execIslandClockChange k s = _
    unfold execIslandClockChange
    simp only [hgate]
    exact congrArg _ (if_pos (by
      rw [Bool.or_eq_true, Bool.and_eq_true, beq_iff_eq, beq_iff_eq]
      exact Or.inr ⟨hf, hg⟩))
  · have he : Answers (exec (.islandClockChange k) s) fun t =>
        t.island k = { i with base := now, since := s.now8, freq := i.nextFreq, gate := gate } ∧ t.now8 = s.now8 := by
      refine ⟨(s.modIsland k fun i => { i with base := now, since := s.now8, freq := i.nextFreq, gate := gate }).resyncPair k
        (if gate then 3 else 2), ?_, sget_sset_same _ _ _ _ hwf, rfl⟩
      change execIslandClockChange k s = _
      unfold execIslandClockChange
      simp only [hgate]
      rw [if_neg, if_pos (by simp only [pairIslands]; omega)]
      rw [Bool.or_eq_true, decide_eq_true_eq, Bool.and_eq_true, beq_iff_eq, beq_iff_eq]
      rintro (h' | ⟨hf, hg⟩)
      · exact hbound h'
      · exact h.elim (· hf) (· hg)
    obtain ⟨t, ht, hisl, hnow⟩ := he
    refine ⟨t, ht, hisl, ?_⟩
    unfold State.islandCycle
    simp only [hisl, hnow, Nat.sub_self, Nat.zero_mul, Nat.zero_div, ite_self, Nat.add_zero]

/-- The record that a sample of a core writes for a context (R367). -/
def sampleOf (s : State) (core ctx : Nat) : TraceRec :=
  match ((s.core core).slot 0).last with
  | some (k, tid, pc, cycle) =>
    if k.ctx? == some ctx && cycle == s.cycle core then
      { type := 2, flags := 0, tid := tid, launch := k.launchId, team := k.teamId, value := pc, code := 0 }
    else { type := 2, flags := 2, tid := 0, launch := 0, team := 0, value := 0, code := 0 }
  | none => { type := 2, flags := 2, tid := 0, launch := 0, team := 0, value := 0, code := 0 }

/-- A sample that is due. -/
theorem traceSample_due {s : State} {core ctx : Nat} (hc : core < 320) (h : s.sampleDue core ctx = true) :
    exec (.traceSample core ctx) s = .next ((s.traceRecord core ctx (sampleOf s core ctx)).modCore core fun c =>
      c.setStream { c.stream ctx with sampled := s.samplePeriodOf core ctx }) := by
  change execTraceSample core ctx s = _
  unfold execTraceSample
  rw [if_neg (by
    rw [h, Bool.not_true, Bool.or_false, decide_eq_true_eq]
    exact Nat.not_le.mpr hc)]
  rfl

/-- The sample's period is noted, and the rest of the stream is what the record has made of it. -/
theorem sampled_stream {t : State} (h : swf Core.fresh t.cores = true) {core ctx : Nat} {x : Stream} (hx : (t.core core).stream ctx = x)
    (p : Nat) : ((t.modCore core fun c => c.setStream { c.stream ctx with sampled := p }).core core).stream ctx =
      { x with sampled := p } := by
  rw [State.core_modCore h, if_pos rfl, hx]
  subst hx
  exact Core.stream_setStream _ (Core.stream_ctx ..)

/-- The stream that has been set in a core is the one that is there. -/
theorem set_stream {t : State} (h : swf Core.fresh t.cores = true) {core ctx : Nat} {x : Stream} (hx : x.ctx = ctx) :
    ((t.modCore core (·.setStream x)).core core).stream ctx = x := by
  rw [State.core_modCore h, if_pos rfl]
  exact Core.stream_setStream _ hx

/-- The clauses of O50 about a sample. -/
theorem samples (s : State) {core ctx : Nat} (hc : core < 320) (hwf : swf Core.fresh s.cores = true) :
    (s.sampleDue core ctx = false → Stays (.traceSample core ctx) s)
      ∧ (s.sampleDue core ctx = true → Answers (exec (.traceSample core ctx) s) fun t =>
        ((t.core core).stream ctx).sampled = s.samplePeriodOf core ctx)
      ∧ (let y := (s.core core).stream ctx
         let n := (s.ctx ctx).segmentSlots
         let tail := y.tail % n
         ∀ u w, s.sampleDue core ctx = true → y.started = true → y.suspended = false → y.resync = none →
           s.ticks - y.last < 2 ^ 32 → (tail + 1) % n ≠ y.headSeen % n →
           s.sysWrite ctx ((s.ctx ctx).segmentAt core + 64 + 32 * tail) ((sampleOf s core ctx).bytes (s.ticks - y.last) 0) = .ok u →
           u.sysWrite ctx ((s.ctx ctx).segmentAt core) (bytesOfNat 8 ((tail + 1) % n)) = .ok w →
           Answers (exec (.traceSample core ctx) s) fun t => t = { w with cores := t.cores }
             ∧ (t.core core).stream ctx = { y with
               tail := (tail + 1) % n, last := s.ticks, sampled := s.samplePeriodOf core ctx }) := by
  refine ⟨fun h => ?_, fun h => ⟨_, traceSample_due hc h, ?_⟩, fun u w h hb hs hr hd hroom hu hw => ⟨_, traceSample_due hc h,
    ?_⟩⟩
  · change execTraceSample core ctx s = _
    unfold execTraceSample
    rw [if_pos (by rw [h, Bool.not_false, Bool.or_true])]
  · exact congrArg Stream.sampled (sampled_stream (State.traceRecord_swf hwf ..) rfl _)
  · have hrec := State.traceRecord_stored (core := core) (r := sampleOf s core ctx) rfl hb hs hr hd hroom hu hw
    have hcores : swf Core.fresh w.cores = true := by
      rw [(State.sysWrite_wrote hw).cores, (State.sysWrite_wrote hu).cores]
      exact hwf
    rw [hrec]
    have hset := set_stream (core := core) (ctx := ctx) (x := { (s.core core).stream ctx with
      tail := (((s.core core).stream ctx).tail % (s.ctx ctx).segmentSlots + 1) % (s.ctx ctx).segmentSlots, last := s.ticks })
      hcores (Core.stream_ctx (s.core core) ctx)
    exact ⟨rfl, sampled_stream (State.modCore_swf hcores ..) hset _⟩

/-- A register of no group. -/
theorem registerWrite_single {s : State} {who : Writer} {a : Nat} {v : W64}
    (h : ∀ g ∈ [(0x00100000, 0x40, queueCount), (0x00110000, 0x10, ctxCount), (0x00150000, 0x40, derivedCount), (0x00160000,
      0x10, ctxCount),
      (0x00170000, 0x10, dieCount), (0x00181000, 0x10, ctxCount), (0x00190000, 0x10, ctxCount), (0x001A0000, 0x100, ctxCount),
      (0x001D0000, 0x10, ctxCount)], groupAt g.1 g.2.1 g.2.2 a = none) :
    exec (.registerWrite who a v) s = .next (s.writeSingle who a v) := by
  change execRegisterWrite who a v s = _
  simp only [List.forall_mem_cons, List.not_mem_nil] at h
  obtain ⟨h1, h2, h3, h4, h5, h6, h7, h8, h9, -⟩ := h
  simp only [execRegisterWrite, State.writeReg, h1, h2, h3, h4, h5, h6, h7, h8, h9]
  rfl

/-- A register of a queue. -/
theorem registerWrite_queue {who : Writer} {a q o : Nat} (s : State) (v : W64) (h : groupAt 0x00100000 0x40 queueCount a = some (q, o)) :
    exec (.registerWrite who a v) s = .next (s.writeQueue q o v) := by
  change execRegisterWrite who a v s = _
  simp only [execRegisterWrite, State.writeReg, h]
  rfl

/-- A register of a context that is not CTXCFG. -/
theorem registerWrite_root {who : Writer} {c : Nat} (s : State) (v : W64) (hc : c < 64) :
    exec (.registerWrite who (0x00110008 + 0x10 * c) v) s =
      .next (if !(s.ctx c).en then s.modCtx c fun x => { x with root := keepBits v 13 39 } else s) := by
  have h1 : groupAt 0x00100000 0x40 queueCount (0x00110008 + 0x10 * c) = none :=
    groupAt_none (.inr (by simp only [queueCount]; omega))
  have h2 : groupAt 0x00110000 0x10 ctxCount (0x00110008 + 0x10 * c) = some (c, 8) :=
    groupAt_some (by omega) hc (by decide)
  change execRegisterWrite who _ v s = _
  simp only [execRegisterWrite, State.writeReg, h1, h2]
  rfl

/-- A register of a derived region. -/
theorem registerWrite_derived {who : Writer} {i o : Nat} (s : State) (v : W64) (hi : i < 256) (ho : o < 0x40) :
    exec (.registerWrite who (0x00150000 + 0x40 * i + o) v) s = .next (s.modDerived i fun d => d.write o v) := by
  have h1 : groupAt 0x00100000 0x40 queueCount (0x00150000 + 0x40 * i + o) = none :=
    groupAt_none (.inr (by simp only [queueCount]; omega))
  have h2 : groupAt 0x00110000 0x10 ctxCount (0x00150000 + 0x40 * i + o) = none :=
    groupAt_none (.inr (by simp only [ctxCount]; omega))
  have h3 : groupAt 0x00150000 0x40 derivedCount (0x00150000 + 0x40 * i + o) = some (i, o) := groupAt_some rfl hi ho
  change execRegisterWrite who _ v s = _
  simp only [execRegisterWrite, State.writeReg, h1, h2, h3]
  rfl

/-- The clauses of O50 about registers that stand alone. -/
theorem singleWrites (s : State) (v : W64) (who : Writer) :
    Goes (.registerWrite who 0x00130000 v) s { s with swapThr := (v.extractLsb' 0 16).toNat }
      ∧ Goes (.registerWrite who 0x00140000 v) s { s with walkCfg := v &&& 0xFFFFFFFFFFFFFFF8 }
      ∧ Goes (.registerWrite who 0x00140008 v) s { s with walkCode := v &&& 0x000FFFFFFFFF00FF }
      ∧ Goes (.registerWrite who 0x00140020 v) s { s with hintBase := (v.extractLsb' 14 38).toNat * 2 ^ 14 }
      ∧ Goes (.registerWrite who 0x00180010 v) s { s with faultBase := (v.extractLsb' 18 34).toNat * 2 ^ 18 }
      ∧ Goes (.registerWrite who 0x001A8008 v) s { s with focusTeam := v.extractLsb' 32 32, focusTid := v.extractLsb' 16 16 }
      ∧ Goes (.registerWrite .host 0x001F0000 v) s s ∧ Goes (.registerWrite .host 0x001E0020 v) s s
      ∧ (let lim := (v.extractLsb' 0 9).toNat
         Goes (.registerWrite .hive 0x001F0000 v) s (if 10 ≤ lim ∧ lim ≤ 400 then { s with slewLim := lim } else s)) := by
  refine ⟨registerWrite_single (by decide), registerWrite_single (by decide), registerWrite_single (by decide),
    registerWrite_single (by decide), registerWrite_single (by decide), registerWrite_single (by decide),
    registerWrite_single (by decide), registerWrite_single (by decide), ?_⟩
  refine (registerWrite_single (by decide)).trans (congrArg _ ?_)
  simp only [State.writeSingle, beq_self_eq_true, Bool.true_and, Bool.and_eq_true, decide_eq_true_eq]
  rfl

/-- The clauses of O50 about registers of queues, contexts and derived regions. -/
theorem groupWrites (s : State) (v : W64) (who : Writer) :
    (∀ q, q < 256 → (s.queue q).en = true → Goes (.registerWrite who (0x00100000 + 0x40 * q) v) s s)
      ∧ (∀ q, q < 256 → (s.queue q).en = false → Goes (.registerWrite who (0x00100000 + 0x40 * q) v) s
        { s with queues := sset .fresh s.queues q { s.queue q with base := (v.extractLsb' 7 49).toNat * 2 ^ 7 } })
      ∧ (∀ c, c < 64 → (s.ctx c).en = true → Goes (.registerWrite who (0x00110008 + 0x10 * c) v) s s)
      ∧ (∀ c, c < 64 → (s.ctx c).en = false → Goes (.registerWrite who (0x00110008 + 0x10 * c) v) s
        { s with ctxs := sset .fresh s.ctxs c { s.ctx c with root := (v.extractLsb' 13 39).toNat * 2 ^ 13 } })
      ∧ (∀ i o, i < 256 → o < 0x30 → (s.derivedAt i).v = true → swf Derived.fresh s.derived = true →
        Answers (exec (.registerWrite who (0x00150000 + 0x40 * i + o) v) s) fun t => t.derivedAt i = s.derivedAt i) := by
  have hqueue (q : Nat) (hq : q < 256) : exec (.registerWrite who (0x00100000 + 0x40 * q) v) s =
      .next (s.modQueue q fun x => if x.en then x else { x with base := keepBits v 7 49 }) :=
    registerWrite_queue s v (groupAt_some (o := 0) rfl hq (by decide))
  refine ⟨fun q hq he => (hqueue q hq).trans ?_, fun q hq he => (hqueue q hq).trans ?_, fun c hc he => ?_, fun c hc he => ?_,
    fun i o hi ho hv hwf => ⟨_, registerWrite_derived s v hi (by omega), ?_⟩⟩
  · have hne : s.queue q ≠ .fresh := fun e => by
      rw [e] at he
      exact absurd he (by decide)
    simp only [State.modQueue, he, if_true]
    rw [State.queue, sset_sget hne]
  · simp only [State.modQueue, he]
    rfl
  · refine (registerWrite_root s v hc).trans ?_
    rw [he]
    rfl
  · refine (registerWrite_root s v hc).trans ?_
    rw [he]
    rfl
  · have hwrite : (s.derivedAt i).write o v = s.derivedAt i := if_pos hv
    exact (sget_sset_same _ _ _ _ hwf).trans hwrite

/-- Settles O50: what is written to islands and registers, and a sample through the rule of a record that is stored. -/
theorem powerAndTraceEvents : Obligations.PowerAndTraceEvents := by
  intro s v
  refine ⟨fun k hk => ?_, fun ctx hctx hwf => ?_, fun core ctx hc hwf => ?_, fun who => ?_⟩
  · obtain ⟨hctl, hstay, hshape⟩ := islandWrites s v hk
    exact ⟨hctl, hstay, hshape, clockChange s hk⟩
  · have he : exec (.tracecfgWrite ctx v) s = .next (s.setTrace ctx v) := by
      change execTracecfgWrite ctx v s = _
      unfold execTracecfgWrite
      rw [if_neg (by simp only [ctxCount]; omega)]
    refine ⟨_, he, ?_⟩
    exact (sget_congr (State.setTrace_ctxs s ctx v) ctx).trans (sget_sset_same _ _ _ _ hwf)
  · obtain ⟨hstay, hperiod, hstored⟩ := samples s (ctx := ctx) hc hwf
    refine ⟨hstay, hperiod, ?_⟩
    intro cfg y bytes seg n tail sample idle rec' u w hdue hb hs hr hd hroom hu hw
    have hrec : rec' = (sampleOf s core ctx).bytes (s.ticks - y.last) 0 := by
      unfold sampleOf
      simp only [rec']
      rcases ((s.core core).slot 0).last with _ | ⟨k | k, tid, pc, cyc⟩
      · rfl
      · simp only [TeamKey.ctx?, Bool.and_eq_true, beq_iff_eq, Option.some.injEq]
        split <;> rfl
      · rfl
    rw [hrec] at hu
    exact hstored u w hdue hb hs hr hd hroom hu hw
  · obtain ⟨h1, h2, h3, h4, h5, h6, h7, h8, h9⟩ := singleWrites s v who
    exact ⟨h1, h2, h3, h4, h5, h6, h7, h8, h9, groupWrites s v who⟩

end Sys2Proof.Claims
end

section
/-! SUPPORT. RetiringDraw: a team that retires while a stale bin holds its threads. -/

namespace Sys2Proof.Claims
open Sys2Proof Sys2Proof.Machine

/-- A grid of four teams, of which none has retired. -/
def fourGrid : Grid := { probeGrid with gx := 4, gy := 1, gz := 1, retired := 0 }

/-- The team that retires: its thread has ended. -/
def endedTeam : Team := { oneTeam [] none with threads := [{ Thread.start 0 0x10000 with stat := .exited }] }

/-- A thread that waits at the issue of a copy, in a clause that is over but for filing it. -/
def copyWaiter : Thread := { Thread.start 0 0x10000 with stat := .parked .copy, clause := some { oneClause 3 with idx := 1, reform := [0] } }

/-- A team of a core, of the key of another core's. -/
def copyTeam (core : Nat) : Team := { Team.start (.user 0 1 1) core 0 0 0 0 probeDesc [] with threads := [copyWaiter] }

/-- A team of core 0 retires. Two teams of one key are on cores 1 and 0; core 1's bins hold threads of the retired one. -/
def retiringState : State :=
  { State.reset with
    launches := [{ probeLaunch 0 1 with grids := [fourGrid] }], teams := [endedTeam, copyTeam 1, copyTeam 0], cores := [(1,
      lateCore)] }

/-- Refutes O46: a team that retires has copies issued again that waited on its core. One such thread is filed on another core,
where a stale bin of the retired team is drawn, and a bundle of it is made. -/
theorem not_dispatchEvents : ¬ Obligations.DispatchEvents := by
  intro h
  obtain ⟨-, -, -, -, -, -, -, -, hretire⟩ := h retiringState 0 (by decide)
  obtain ⟨-, hends⟩ := hretire (.user 0 1 0) endedTeam { probeLaunch 0 1 with grids := [fourGrid] } rfl rfl
  have drawn : holdsIn (fun t => t.bundles.any fun b => b.key == .user 0 1 0) (exec (.teamRetire (.user 0 1 0)) retiringState) = true := by
    decide +kernel
  obtain ⟨t, ⟨-, hb, -⟩, ha⟩ := holdsIn_of_answers (hends fourGrid (by decide +kernel) rfl (by decide)) drawn
  obtain ⟨b, hmem, hkey⟩ := List.any_eq_true.mp ha
  exact hb b hmem (beq_iff_eq.mp hkey)

end Sys2Proof.Claims
end

section
/-! SUPPORT. Hits: launches over writes to memory, and the ends of packets. -/

namespace Sys2Proof.Machine
open Sys2Proof Sys2Proof.Claims

/-! ## Launches over writes to memory -/

/-- What a failure makes of a launch's standing: one that has ended already keeps it. -/
def LaunchStat.fail (c : Cause) : LaunchStat → LaunchStat
  | .waiting => .failed c
  | .begun => .failed c
  | .reusing => .failed c
  | .failed d => .failed d
  | .done => .done

theorem Launch.fail_eq (l : Launch) (c : Cause) (g : Nat) :
    l.fail c g = { l with stat := l.stat.fail c, failGroup := (l.fail c g).failGroup } := by
  unfold Launch.fail
  cases h : l.stat <;> simp only [LaunchStat.fail] <;> rw [← h]

theorem Launch.fail_stat (l : Launch) (c : Cause) (g : Nat) : (l.fail c g).stat = l.stat.fail c := by rw [Launch.fail_eq]

theorem LaunchStat.fail_fail (c : Cause) (x : LaunchStat) : (x.fail c).fail c = x.fail c := by cases x <;> rfl

/-- Writes to a launch's pages: they are noted, and the launch fails where they are its code. -/
structure Launch.Hit (l l' : Launch) : Prop where
  rest : l' = { l with stat := l'.stat, failGroup := l'.failGroup, dirtyIn := l'.dirtyIn }
  stat : l'.stat = l.stat ∨ l'.stat = l.stat.fail .machine

theorem Launch.Hit.refl (l : Launch) : l.Hit l := ⟨rfl, .inl rfl⟩
theorem Launch.Hit.trans {l l' l'' : Launch} (h : l.Hit l') (h' : l'.Hit l'') : l.Hit l'' where
  rest := by
    rw [h'.rest]
    conv_lhs => rw [h.rest]
  stat := by
    rcases h.stat with e | e <;> rcases h'.stat with e' | e' <;> rw [e', e]
    · exact .inl rfl
    · exact .inr rfl
    · exact .inr rfl
    · exact .inr (LaunchStat.fail_fail ..)
theorem Launch.Hit.ctx {l l' : Launch} (h : l.Hit l') : l'.ctx = l.ctx := by rw [h.rest]
theorem Launch.Hit.id {l l' : Launch} (h : l.Hit l') : l'.id = l.id := by rw [h.rest]
theorem Launch.Hit.completed {l l' : Launch} (h : l.Hit l') : l'.completed = l.completed := by rw [h.rest]

/-- From s to t each launch has become what a function makes of it, which stands in a relation to it. -/
def LaunchesBy (R : Launch → Launch → Prop) (s t : State) : Prop :=
  ∃ f : Launch → Launch, (∀ l, R l (f l)) ∧ t.launches = s.launches.map f

theorem LaunchesBy.of_eq {R : Launch → Launch → Prop} (hR : ∀ l, R l l) {s t : State} (h : t.launches = s.launches) :
    LaunchesBy R s t := ⟨id, hR, by rw [h, List.map_id]⟩
theorem LaunchesBy.trans {R : Launch → Launch → Prop} (hR : ∀ l l' l'', R l l' → R l' l'' → R l l'') {s t u : State}
    (h : LaunchesBy R s t) (h' : LaunchesBy R t u) : LaunchesBy R s u := by
  obtain ⟨f, hf, e⟩ := h
  obtain ⟨g, hg, e'⟩ := h'
  exact ⟨g ∘ f, fun l => hR _ _ _ (hf l) (hg _), by rw [e', e, List.map_map]⟩

/-- From s to t writes to memory have hit the launches' pages. -/
abbrev LaunchesHit (s t : State) : Prop := LaunchesBy Launch.Hit s t

theorem LaunchesHit.refl (s : State) : LaunchesHit s s := .of_eq Launch.Hit.refl rfl
theorem LaunchesHit.of {s t : State} (h : t.launches = s.launches) : LaunchesHit s t := .of_eq Launch.Hit.refl h
theorem LaunchesHit.trans {s t u : State} (h : LaunchesHit s t) (h' : LaunchesHit t u) : LaunchesHit s u :=
  LaunchesBy.trans (R := Launch.Hit) (fun _ _ _ => Launch.Hit.trans) h h'
theorem LaunchesHit.foldl {α : Type} (f : State → α → State) (hf : ∀ s x, LaunchesHit s (f s x)) (l : List α) :
    ∀ s, LaunchesHit s (l.foldl f s) := by
  induction l with
  | nil => exact LaunchesHit.refl
  | cons x l ih => exact fun s => (hf s x).trans (ih _)

theorem State.trackWrite_hit (s : State) (p : Place) (n : Nat) : LaunchesHit s (s.trackWrite p n) := by
  refine ⟨_, fun l => ?_, rfl⟩
  have dirty (b : Bool) : l.Hit (if b then { l with dirtyIn := true } else l) := by
    split
    · exact ⟨rfl, .inl rfl⟩
    · exact .refl l
  have fails (x : Launch) (b : Bool) (h : l.Hit x) : l.Hit (if b then x.fail .machine 0 else x) := by
    split
    · exact h.trans ⟨by rw [Launch.fail_eq], .inr (Launch.fail_stat ..)⟩
    · exact h
  exact fails _ _ (dirty _)

theorem State.writeBytes_hit (s : State) (p : Place) (bs : List Byte) : LaunchesHit s (s.writeBytes p bs) := by
  unfold State.writeBytes
  split
  · split
    · exact (State.trackWrite_hit ..).trans (.of rfl)
    · exact .refl s
  · exact (State.trackWrite_hit ..).trans (.of rfl)

theorem State.writeDescr_hit (s : State) (p : Place) (d : Descr) : LaunchesHit s (s.writeDescr p d) := by
  unfold State.writeDescr
  split
  · split
    · exact (State.trackWrite_hit ..).trans (.of rfl)
    · exact .refl s
  · exact (State.trackWrite_hit ..).trans (.of rfl)

theorem State.sysWrite_hit {s t : State} {ctx va : Nat} {bs : List Byte} (h : s.sysWrite ctx va bs = .ok t) : LaunchesHit s t := by
  unfold State.sysWrite at h
  split at h
  · cases h
  · obtain rfl := Except.ok.inj h
    refine .foldl _ (fun s x => ?_) _ s
    split
    · exact .refl s
    · exact State.writeBytes_hit ..

/-! ## Stores of the front end, and the ends of packets -/

theorem State.feStore_ok {s t : State} {ctx va : Nat} {bs : List Byte} (h : s.feStore ctx va bs = .ok t) : s.sysWrite ctx va bs = .ok t := by
  unfold State.feStore at h
  split at h
  · cases h
  · exact h

theorem State.feStore_wrote {s t : State} {ctx va : Nat} {bs : List Byte} (h : s.feStore ctx va bs = .ok t) : Wrote s t :=
  State.sysWrite_wrote (State.feStore_ok h)
theorem State.feStore_hit {s t : State} {ctx va : Nat} {bs : List Byte} (h : s.feStore ctx va bs = .ok t) : LaunchesHit s t :=
  State.sysWrite_hit (State.feStore_ok h)

/-- A packet that has ended, or ends once its page is there. -/
def Packet.Over (p : Packet) : Prop := p.stage = .done ∨ p.ending.isSome = true

/-- From s to t packets have ended: memory has been written, and each packet that is left is one that was there, which is over
where it was, or is named. -/
structure PacketsEnd (names : List PktName) (s t : State) : Prop where
  frame : t = { s with
    mem := t.mem, descs := t.descs, poison := t.poison, peerMem := t.peerMem, peerDescs := t.peerDescs,
      peerPoison := t.peerPoison,
    digests := t.digests, reuse := t.reuse, icache := t.icache, launches := t.launches, packets := t.packets,
      queues := t.queues,
    msix := t.msix }
  launches : LaunchesHit s t
  packets : ∀ q ∈ t.packets, ∃ q0 ∈ s.packets, q.name = q0.name ∧ q.ctx = q0.ctx ∧ q.launch = q0.launch
    ∧ (q0.Over ∨ q0.name ∈ names → q.Over)

theorem PacketsEnd.of_wrote {s t : State} (h : Wrote s t) (hl : LaunchesHit s t) : PacketsEnd [] s t where
  frame := by
    conv_lhs => rw [h.frame]
    rw [h.frame]
  launches := hl
  packets q hq := ⟨q, by rwa [h.frame] at hq, rfl, rfl, rfl, fun h => h.elim (fun h => h) (fun h => absurd h List.not_mem_nil)⟩

theorem PacketsEnd.trans {ns ms : List PktName} {s t u : State} (h : PacketsEnd ns s t) (h' : PacketsEnd ms t u) :
    PacketsEnd (ns ++ ms) s u where
  frame := by
    rw [h'.frame]
    conv_lhs => rw [h.frame]
  launches := h.launches.trans h'.launches
  packets q hq := by
    obtain ⟨q1, h1, n1, c1, l1, o1⟩ := h'.packets q hq
    obtain ⟨q0, h0, n0, c0, l0, o0⟩ := h.packets q1 h1
    refine ⟨q0, h0, n1.trans n0, c1.trans c0, l1.trans l0, fun ho => ?_⟩
    rw [List.mem_append] at ho
    rcases ho with ho | ho | ho
    · exact o1 (.inl (o0 (.inl ho)))
    · exact o1 (.inl (o0 (.inr ho)))
    · exact o1 (.inr (n0 ▸ ho))

/-- A packet's record is changed into that of one that is over. -/
theorem PacketsEnd.modPacket (s : State) (n : PktName) (f : Packet → Packet)
    (hf : ∀ p, (f p).name = p.name ∧ (f p).ctx = p.ctx ∧ (f p).launch = p.launch ∧ (f p).Over) :
    PacketsEnd [n] s (s.modPacket n f) where
  frame := rfl
  launches := .of rfl
  packets q hq := by
    obtain ⟨q0, h0, rfl⟩ := List.mem_map.mp hq
    refine ⟨q0, h0, ?_⟩
    obtain ⟨hn, hc, hl, ho⟩ := hf q0
    split
    · exact ⟨hn, hc, hl, fun _ => ho⟩
    · rename_i hne
      refine ⟨rfl, rfl, rfl, fun h => h.elim (fun h => h) fun h => ?_⟩
      exact absurd (beq_iff_eq.mpr (List.mem_singleton.mp h)) hne

theorem PacketsEnd.modQueue (s : State) (n : Nat) (f : Queue → Queue) : PacketsEnd [] s (s.modQueue n f) where
  frame := rfl
  launches := .of rfl
  packets q hq := ⟨q, hq, rfl, rfl, rfl, fun h => h.elim (fun h => h) (fun h => absurd h List.not_mem_nil)⟩

theorem PacketsEnd.fewer (s : State) (p : Packet → Bool) : PacketsEnd [] s { s with packets := s.packets.filter p } where
  frame := rfl
  launches := .of rfl
  packets q hq := ⟨q, (List.mem_filter.mp hq).1, rfl, rfl, rfl,
    fun h => h.elim (fun h => h) (fun h => absurd h List.not_mem_nil)⟩

theorem State.advanceCidx_end (q n : Nat) : ∀ s : State, PacketsEnd [] s (s.advanceCidx q n) := by
  induction n with
  | zero => exact fun s => .of_wrote (.refl s) (.refl s)
  | succ n ih =>
    intro s
    unfold State.advanceCidx
    extract_lets x here
    split
    · exact .of_wrote (.refl s) (.refl s)
    · split
      · exact .of_wrote (.refl s) (.refl s)
      · exact (PacketsEnd.fewer s fun p => !here p).trans ((PacketsEnd.modQueue ..).trans (ih _))

theorem State.feStore_end {s t : State} {ctx va : Nat} {bs : List Byte} (h : s.feStore ctx va bs = .ok t) : PacketsEnd [] s t :=
  .of_wrote (State.feStore_wrote h) (State.feStore_hit h)

/-- A packet that completes is over. -/
theorem State.completePacket_end {s t : State} {p : Packet} {e : PktEnd} (h : s.completePacket p e = some t) : PacketsEnd [p.name] s t := by
  have same (u : State) : PacketsEnd [] u u := .of_wrote (.refl u) (.refl u)
  unfold State.completePacket at h
  split at h
  · cases h
  · extract_lets st at h
    have hst : ∀ u, st = .ok u → PacketsEnd [] s u := fun _ => State.feStore_end
    clear_value st
    split at h
    · cases h
    · extract_lets bad s1 s2 s3 s4 s5 at h
      have h1 : PacketsEnd [] s s1 := by
        unfold s1
        split
        · exact hst _ rfl
        · exact same s
      have h2 : PacketsEnd [] s1 s2 := by
        unfold s2
        split
        · split
          · rename_i e2
            exact State.feStore_end e2
          · exact same s1
        · exact same s1
      have h3 : PacketsEnd [] s2 s3 := by
        unfold s3
        split
        · exact ⟨rfl, .of rfl, (same s2).packets⟩
        · exact same s2
      have h5 : PacketsEnd [p.name] s s5 := h1.trans (h2.trans (h3.trans
        ((PacketsEnd.modPacket s3 p.name (fun x => { x with stage := .done }) fun q => ⟨rfl, rfl, rfl, .inl rfl⟩).trans
          (State.advanceCidx_end ..))))
      obtain rfl := Option.some.inj h
      split
      · exact h5.trans (PacketsEnd.modQueue ..)
      · exact h5

/-- A packet that ends is over, or ends once its page is there. -/
theorem State.endPacket_end (s : State) (p : Packet) (e : PktEnd) : PacketsEnd [p.name] s (s.endPacket p e) := by
  unfold State.endPacket
  cases h : s.completePacket p e with
  | some t => exact State.completePacket_end h
  | none => exact PacketsEnd.modPacket s p.name _ fun q => ⟨rfl, rfl, rfl, .inr rfl⟩

end Sys2Proof.Machine
end

section
/-! SUPPORT. Ends: what a teardown makes of packets, launches and flows. -/

namespace Sys2Proof.Machine
open Sys2Proof Sys2Proof.Claims

/-! ## Contexts -/

theorem State.ctx_modCtx {s : State} (h : swf Ctx.fresh s.ctxs = true) (n : Nat) (f : Ctx →
  Ctx) : (s.modCtx n f).ctx n = f (s.ctx n) :=
  sget_sset_same _ _ _ _ h
theorem State.modCtx_swf {s : State} (h : swf Ctx.fresh s.ctxs = true) (n : Nat) (f : Ctx →
  Ctx) : swf Ctx.fresh (s.modCtx n f).ctxs = true :=
  swf_sset _ _ _ _ h
theorem State.en_modCtx {s : State} (h : swf Ctx.fresh s.ctxs = true) (n : Nat) (f : Ctx → Ctx) (hf : ∀ c, (f c).en = c.en) :
    ((s.modCtx n f).ctx n).en = (s.ctx n).en := by
  rw [State.ctx_modCtx h, hf]
theorem State.ctx_congr {s t : State} (h : t.ctxs = s.ctxs) (n : Nat) : t.ctx n = s.ctx n := by
  unfold State.ctx
  rw [h]

/-! ## The packets and launches of a context that is torn down -/

/-- The packets of a list end one after another. -/
theorem State.endPackets_end (e : PktEnd) (l : List Packet) : ∀ s : State,
    PacketsEnd (l.map (·.name)) s (l.foldl (fun s p => s.endPacket p e) s) := by
  induction l with
  | nil => exact fun s => .of_wrote (.refl s) (.refl s)
  | cons p l ih => exact fun s => (State.endPacket_end s p e).trans (ih _)

/-- What a teardown makes of a launch: it may fail with MACHINE, and have its completion record. -/
structure Launch.Ends (l l' : Launch) : Prop where
  ctx : l'.ctx = l.ctx
  id : l'.id = l.id
  completed : l.completed.isSome = true → l'.completed.isSome = true
  stat : l'.stat = l.stat ∨ l'.stat = l.stat.fail .machine

theorem Launch.Ends.refl (l : Launch) : l.Ends l := ⟨rfl, rfl, fun h => h, .inl rfl⟩
theorem Launch.Ends.trans {l l' l'' : Launch} (h : l.Ends l') (h' : l'.Ends l'') : l.Ends l'' where
  ctx := h'.ctx.trans h.ctx
  id := h'.id.trans h.id
  completed c := h'.completed (h.completed c)
  stat := by
    rcases h.stat with e | e <;> rcases h'.stat with e' | e' <;> rw [e', e]
    · exact .inl rfl
    · exact .inr rfl
    · exact .inr rfl
    · exact .inr (LaunchStat.fail_fail ..)
theorem Launch.Hit.ends {l l' : Launch} (h : l.Hit l') : l.Ends l' := ⟨h.ctx, h.id, fun c => by rwa [h.completed], h.stat⟩

/-- A launch whose completion record has been made, and that has failed unless it had ended before. -/
def Launch.Ended (l : Launch) : Prop := l.completed.isSome = true ∧ l.stat = l.stat.fail .machine

theorem Launch.Ends.ended {l l' : Launch} (h : l.Ends l') (e : l.Ended) : l'.Ended := by
  obtain ⟨hc, hs⟩ := e
  refine ⟨h.completed hc, ?_⟩
  have e' : l'.stat = l.stat := h.stat.elim (fun h => h) (fun h => h.trans hs.symm)
  rw [e']
  exact hs

/-- One launch's end at the teardown of its context. -/
def State.endLaunch (s : State) (ctx : Nat) (l : Launch) : State :=
  (s.failLaunch ctx l.id .machine 0).appendCompletion l 4 ((l.failedCause?.getD .machine).code) false []

/-- What it makes of each launch. -/
def Launch.endAs (ctx id pos : Nat) (x : Launch) : Launch :=
  if x.ctx == ctx && x.id == id then { x.fail .machine 0 with completed := some pos } else x

theorem Launch.endAs_ends (ctx id pos : Nat) (x : Launch) : x.Ends (x.endAs ctx id pos) := by
  unfold Launch.endAs
  split
  · rw [Launch.fail_eq]
    exact ⟨rfl, rfl, fun _ => rfl, .inr rfl⟩
  · exact .refl x

theorem Launch.endAs_ended {ctx id pos : Nat} {x : Launch} (hc : x.ctx = ctx) (hi : x.id = id) : (x.endAs ctx id pos).Ended := by
  unfold Launch.endAs
  rw [if_pos (by rw [hc, hi, beq_self_eq_true, beq_self_eq_true]; rfl), Launch.fail_eq]
  exact ⟨rfl, (LaunchStat.fail_fail ..).symm⟩

theorem State.endLaunch_launches (s : State) {ctx : Nat} {l : Launch} (hl : l.ctx = ctx) :
    ∃ pos, (s.endLaunch ctx l).launches = s.launches.map (Launch.endAs ctx l.id pos) := by
  refine ⟨((s.failLaunch ctx l.id .machine 0).ctx l.ctx).chainLength, ?_⟩
  refine (List.map_map (l := s.launches)).trans (List.map_congr_left fun x _ => ?_)
  unfold Launch.endAs
  dsimp only [Function.comp]
  rw [hl]
  split
  · rename_i h
    rw [if_pos (by rw [Launch.fail_eq]; exact h)]
  · rfl

/-- The context's launches end one after another: each of the list has then ended. -/
theorem State.endLaunches_launches {ctx : Nat} (ls : List Launch) (hls : ∀ l ∈ ls, l.ctx = ctx) : ∀ s : State,
    LaunchesBy Launch.Ends s (ls.foldl (·.endLaunch ctx) s)
      ∧ ∀ l ∈ ls, ∀ x ∈ (ls.foldl (·.endLaunch ctx) s).launches, x.ctx = ctx → x.id = l.id → x.Ended := by
  induction ls with
  | nil => exact fun s => ⟨.of_eq Launch.Ends.refl rfl, fun _ h => absurd h List.not_mem_nil⟩
  | cons l ls ih =>
    intro s
    obtain ⟨pos, hfirst⟩ := State.endLaunch_launches s (hls l List.mem_cons_self)
    obtain ⟨hrest, hended⟩ := ih (fun m hm => hls m (List.mem_cons_of_mem _ hm)) (s.endLaunch ctx l)
    refine ⟨.trans (R := Launch.Ends) (fun _ _ _ => Launch.Ends.trans) ⟨_, Launch.endAs_ends ctx l.id pos, hfirst⟩ hrest, ?_⟩
    intro m hm x hx hctx hid
    rcases List.mem_cons.mp hm with rfl | hm
    · obtain ⟨f, hf, e⟩ := hrest
      rw [List.foldl_cons, e, hfirst, List.map_map] at hx
      obtain ⟨y, -, rfl⟩ := List.mem_map.mp hx
      have hends := (Launch.endAs_ends ctx m.id pos y).trans (hf _)
      exact (hf _).ended (Launch.endAs_ended (hends.ctx.symm.trans hctx) (hends.id.symm.trans hid))
    · exact hended m hm x hx hctx hid

theorem State.appendCompletion_ctx {s : State} (h : swf Ctx.fresh s.ctxs = true) (l : Launch) (state cause : Nat) (reused : Bool)
    (ds : List (List Byte)) : swf Ctx.fresh (s.appendCompletion l state cause reused ds).ctxs = true
      ∧ ((s.appendCompletion l state cause reused ds).ctx l.ctx).en = (s.ctx l.ctx).en := by
  unfold State.appendCompletion
  extract_lets pos e s1
  have hwf : swf Ctx.fresh s1.ctxs = true := State.modCtx_swf h ..
  have hctx : (s1.ctx l.ctx).en = (s.ctx l.ctx).en := State.en_modCtx h _ _ fun _ => rfl
  exact ⟨hwf, hctx⟩

/-- The ends of launches leave their context as it was enabled. -/
theorem State.endLaunches_enabled {ctx : Nat} (ls : List Launch) (hls : ∀ l ∈ ls, l.ctx = ctx) : ∀ {s : State},
    swf Ctx.fresh s.ctxs = true → swf Ctx.fresh (ls.foldl (·.endLaunch ctx) s).ctxs = true
      ∧ ((ls.foldl (·.endLaunch ctx) s).ctx ctx).en = (s.ctx ctx).en := by
  induction ls with
  | nil => exact fun h => ⟨h, rfl⟩
  | cons l ls ih =>
    intro s h
    have hfail : swf Ctx.fresh (s.failLaunch ctx l.id .machine 0).ctxs = true := h
    obtain ⟨hwf, hen⟩ := State.appendCompletion_ctx hfail l 4 ((l.failedCause?.getD .machine).code) false []
    rw [hls l List.mem_cons_self] at hen
    obtain ⟨hwf', hen'⟩ := ih (fun m hm => hls m (List.mem_cons_of_mem _ hm)) (s := s.endLaunch ctx l) hwf
    exact ⟨hwf', hen'.trans hen⟩

/-- From s to t contexts and launches alone have changed. -/
structure CtxsLaunches (s t : State) : Prop where
  frame : t = { s with ctxs := t.ctxs, launches := t.launches }

theorem CtxsLaunches.trans {s t u : State} (h : CtxsLaunches s t) (h' : CtxsLaunches t u) : CtxsLaunches s u := by
  constructor
  rw [h'.frame]
  conv_lhs => rw [h.frame]

theorem State.appendCompletion_frame (s : State) (l : Launch) (state cause : Nat) (reused : Bool) (ds : List (List Byte)) :
    CtxsLaunches s (s.appendCompletion l state cause reused ds) := ⟨rfl⟩
theorem State.failLaunch_frame (s : State) (ctx id : Nat) (c : Cause) (g : Nat) : CtxsLaunches s (s.failLaunch ctx id c g) := ⟨rfl⟩

/-- What the ends of launches leave of the rest. -/
theorem State.endLaunches_frame {ctx : Nat} (ls : List Launch) : ∀ s : State,
  CtxsLaunches s (ls.foldl (·.endLaunch ctx) s) := by
  induction ls with
  | nil => exact fun _ => ⟨rfl⟩
  | cons l ls ih => exact fun s => ((State.failLaunch_frame ..).trans (State.appendCompletion_frame ..)).trans (ih (s.endLaunch ctx l))

/-! ## The flows of a context that is torn down -/

/-- From s to t memory has been written, and the launches hit. -/
structure WroteHit (s t : State) : Prop where
  wrote : Wrote s t
  hit : LaunchesHit s t
  reuse : ∀ r ∈ t.reuse, r ∈ s.reuse

theorem WroteHit.refl (s : State) : WroteHit s s := ⟨.refl s, .refl s, fun _ h => h⟩
theorem WroteHit.trans {s t u : State} (h : WroteHit s t) (h' : WroteHit t u) : WroteHit s u :=
  ⟨h.wrote.trans h'.wrote, h.hit.trans h'.hit, fun r hr => h.reuse r (h'.reuse r hr)⟩
theorem WroteHit.foldl {α : Type} (f : State → α → State) (hf : ∀ s x, WroteHit s (f s x)) (l : List α) :
    ∀ s, WroteHit s (l.foldl f s) := by
  induction l with
  | nil => exact WroteHit.refl
  | cons x l ih => exact fun s => (hf s x).trans (ih _)

theorem State.writeBytes_wroteHit (s : State) (p : Place) (bs : List Byte) : WroteHit s (s.writeBytes p bs) where
  wrote := State.writeBytes_wrote ..
  hit := State.writeBytes_hit ..
  reuse r hr := by
    unfold State.writeBytes at hr
    split at hr
    · split at hr
      · exact (List.mem_filter.mp hr).1
      · exact hr
    · exact (List.mem_filter.mp hr).1

theorem State.zeroFlows_wroteHit (s : State) (ctx : Nat) : WroteHit s (s.zeroFlows ctx) := by
  unfold State.zeroFlows
  refine .foldl _ (fun s r => .foldl _ (fun s i => ?_) _ s) _ s
  exact (WroteHit.foldl _ (fun _ _ => State.writeBytes_wroteHit ..) _ s).trans (State.writeBytes_wroteHit ..)

end Sys2Proof.Machine
end

section
/-! SUPPORT. TornDown: sorting, quotas, what a teardown leaves, and cores that are lost. -/

namespace Sys2Proof.Machine
open Sys2Proof Sys2Proof.Claims

/-! ## Sorting -/

theorem insertBy_perm {α : Type} (le : α → α → Bool) (x : α) (l : List α) : (insertBy le x l).Perm (x :: l) := by
  induction l with
  | nil => exact .refl _
  | cons y l ih =>
    unfold insertBy
    split
    · exact (ih.cons y).trans (.swap x y l)
    · exact .refl _

/-- Sorting a list only reorders it. -/
theorem sortBy_perm {α : Type} (le : α → α → Bool) (l : List α) : (sortBy le l).Perm l := by
  have gather : ∀ acc : List α, (l.foldl (fun acc x => insertBy le x acc) acc).Perm (acc ++ l) := by
    induction l with
    | nil => exact fun acc => by rw [List.append_nil]; exact .refl _
    | cons x l ih =>
      intro acc
      exact (ih _).trans (((insertBy_perm le x acc).append_right l).trans List.perm_middle.symm)
  exact gather []

theorem sortBy_singleton {α : Type} (le : α → α → Bool) (x : α) : sortBy le [x] = [x] := rfl

/-- A context keeps no more results than its quota. -/
theorem State.evictReuse_length (s : State) (ctx quota : Nat) :
    ((s.evictReuse ctx quota).reuse.filter fun r => r.ctx == ctx).length ≤ quota := by
  unfold State.evictReuse
  extract_lets mine out
  have hperm : mine.Perm (s.reuse.filter fun r => r.ctx == ctx) := sortBy_perm ..
  have hgone : (mine.take (mine.length - quota)).filter (fun r => !out.contains r) = [] := by
    rw [List.filter_eq_nil_iff]
    intro r hr
    rw [Bool.not_eq_true', Bool.not_eq_false, List.contains_iff_mem]
    exact hr
  calc ((s.reuse.filter fun r => !out.contains r).filter fun r => r.ctx == ctx).length
      = ((s.reuse.filter fun r => r.ctx == ctx).filter fun r => !out.contains r).length := by rw [List.filter_comm]
    _ = (mine.filter fun r => !out.contains r).length := (hperm.filter _).length_eq.symm
    _ = ((mine.take (mine.length - quota)).filter (fun r => !out.contains r)
          ++ (mine.drop (mine.length - quota)).filter fun r => !out.contains r).length := by
        rw [← List.filter_append, List.take_append_drop]
    _ ≤ (mine.drop (mine.length - quota)).length := by
        rw [hgone, List.nil_append]
        exact List.length_filter_le ..
    _ ≤ quota := by rw [List.length_drop]; omega

/-- Queued launches take entries: their packets alone change. -/
theorem State.promote_frame (ctx n : Nat) : ∀ s : State, s.promote ctx n = { s with packets := (s.promote ctx n).packets } := by
  induction n with
  | zero => exact fun _ => rfl
  | succ n ih =>
    intro s
    unfold State.promote
    split
    · rfl
    · rename_i l _
      split
      · refine (ih (s.modPacket l.pkt fun p => { p with stage := .waiting })).trans ?_
        rfl
      · rfl

theorem State.promote_ctx (s : State) (ctx n c : Nat) : (s.promote ctx n).ctx c = s.ctx c := by
  rw [State.promote_frame]
  rfl
theorem State.promote_reuse (s : State) (ctx n : Nat) : (s.promote ctx n).reuse = s.reuse := by rw [State.promote_frame]
theorem State.promote_teams (s : State) (ctx n : Nat) : (s.promote ctx n).teams = s.teams := by rw [State.promote_frame]

/-! ## A context that is torn down -/

/-- What a teardown leaves of a context. -/
structure TornDown (ctx : Nat) (s t : State) : Prop where
  ctxs : swf Ctx.fresh t.ctxs = true
  en : (t.ctx ctx).en = false
  frozen : (t.ctx ctx).frozen = true
  cores : (t.ctx ctx).cores = 0
  colls : (t.ctx ctx).colls = []
  reuse : ∀ r ∈ t.reuse, r.ctx ≠ ctx
  segments : ∀ g ∈ t.segments, g.ctx ≠ ctx
  pods : ∀ d ∈ t.pods, d.ctx ≠ ctx
  collMsgs : ∀ m ∈ t.collMsgs, m.ctx ≠ ctx
  packets : ∀ p ∈ t.packets, p.ctx = ctx → p.launch = 0 → p.Over
  launches : ∀ l ∈ t.launches, l.ctx = ctx → l.completed.isSome = true
  failed : ∀ l ∈ s.launches, l.ctx = ctx → l.completed = none → l.stat = .begun →
    ∃ l' ∈ t.launches, l'.ctx = ctx ∧ l'.id = l.id ∧ l'.stat = .failed .machine

/-- The packets that no launch completes, after they have ended. -/
theorem State.endPackets_over (s : State) (ctx : Nat) : ∀ q ∈ (s.endPackets ctx).packets, q.ctx = ctx → q.launch = 0 →
  q.Over := by
  intro q hq hc hl
  obtain ⟨q0, h0, hn, hc0, hl0, ho⟩ := (State.endPackets_end (.failed .machine)
    (s.packets.filter fun p => p.ctx == ctx && p.open && p.launch == 0) s).packets q hq
  refine ho ?_
  by_cases hopen : q0.open = true
  · refine .inr (List.mem_map.mpr ⟨q0, List.mem_filter.mpr ⟨h0, ?_⟩, rfl⟩)
    rw [hopen, ← hc0, ← hl0, hc, hl, beq_self_eq_true, beq_self_eq_true]
    rfl
  · refine .inl (.inl ?_)
    unfold Packet.open at hopen
    rw [bne_iff_ne, not_not] at hopen
    exact hopen

theorem State.endPackets_spec (s : State) (ctx : Nat) : PacketsEnd
    ((s.packets.filter fun p => p.ctx == ctx && p.open && p.launch == 0).map (·.name)) s (s.endPackets ctx) := State.endPackets_end ..

theorem beq_ne_of_filter {α : Type} {l : List α} (f : α →
  Nat) {n : Nat} {x : α} (h : x ∈ l.filter fun x => f x != n) : f x ≠ n :=
  bne_iff_ne.mp (List.mem_filter.mp h).2

theorem PacketsEnd.ctxs {ns : List PktName} {s t : State} (h : PacketsEnd ns s t) : t.ctxs = s.ctxs := by rw [h.frame]
theorem Wrote.ctxs {s t : State} (h : Wrote s t) : t.ctxs = s.ctxs := by rw [h.frame]
theorem Wrote.packets {s t : State} (h : Wrote s t) : t.packets = s.packets := by rw [h.frame]
theorem Wrote.segments {s t : State} (h : Wrote s t) : t.segments = s.segments := by rw [h.frame]
theorem Wrote.pods {s t : State} (h : Wrote s t) : t.pods = s.pods := by rw [h.frame]
theorem Wrote.collMsgs {s t : State} (h : Wrote s t) : t.collMsgs = s.collMsgs := by rw [h.frame]
theorem CtxsLaunches.packets {s t : State} (h : CtxsLaunches s t) : t.packets = s.packets := by rw [h.frame]

theorem State.teardown_spec {s : State} (h : swf Ctx.fresh s.ctxs = true) (ctx : Nat) : TornDown ctx s (s.teardown ctx) := by
  unfold State.teardown
  extract_lets s1 mine s2 s3 s4
  have hend : PacketsEnd _ (s.modCtx ctx fun c => { c with en := false }) s1 := State.endPackets_spec ..
  have hover : ∀ q ∈ s1.packets, q.ctx = ctx → q.launch = 0 → q.Over :=
    State.endPackets_over (s.modCtx ctx fun c => { c with en := false }) ctx
  clear_value s1
  have hwf1 : swf Ctx.fresh s1.ctxs = true := by
    rw [hend.ctxs]
    exact State.modCtx_swf h ..
  have hen1 : (s1.ctx ctx).en = false := by rw [State.ctx_congr hend.ctxs, State.ctx_modCtx h]
  have hmine : ∀ l ∈ mine, l.ctx = ctx := fun l hl => beq_iff_eq.mp (Bool.and_eq_true_iff.mp (List.mem_filter.mp hl).2).1
  obtain ⟨hwf2, hen2⟩ := State.endLaunches_enabled mine hmine hwf1
  have hframe : CtxsLaunches s1 s2 := State.endLaunches_frame (ctx := ctx) mine s1
  obtain ⟨hby, hended⟩ := State.endLaunches_launches mine hmine s1
  have hby : LaunchesBy Launch.Ends s1 s2 := hby
  have hended : ∀ l ∈ mine, ∀ x ∈ s2.launches, x.ctx = ctx → x.id = l.id → x.Ended := hended
  have hwf2 : swf Ctx.fresh s2.ctxs = true := hwf2
  have hen2 : (s2.ctx ctx).en = false := hen2.trans hen1
  clear_value s2
  have hflow : WroteHit s3 s4 := State.zeroFlows_wroteHit s3 ctx
  clear_value s4
  have hwf4 : swf Ctx.fresh s4.ctxs = true := by
    rw [hflow.wrote.ctxs]
    exact hwf2
  have hctx := State.ctx_modCtx hwf4 ctx fun c => { c with frozen := true, cores := 0, colls := [] }
  obtain ⟨f, hf, hf4⟩ := hflow.hit
  obtain ⟨g, hg, hg2⟩ := hby
  have hlaunches : ∀ x ∈ s1.launches, f (g x) ∈ s4.launches := fun x hx => by
    rw [hf4]
    exact List.mem_map_of_mem (show g x ∈ s2.launches by rw [hg2]; exact List.mem_map_of_mem hx)
  have hmem : ∀ x ∈ s1.launches, x.ctx = ctx → x.completed = none → (f (g x)).Ended := fun x hx hc hn => by
    have hm : x ∈ mine := List.mem_filter.mpr ⟨hx, by rw [hc, hn, beq_self_eq_true]; rfl⟩
    have hx2 : g x ∈ s2.launches := by
      rw [hg2]
      exact List.mem_map_of_mem hx
    exact (hf _).ends.ended (hended x hm _ hx2 ((hg x).ctx.trans hc) (hg x).id)
  refine
    { ctxs := State.modCtx_swf hwf4 ctx fun c => { c with frozen := true, cores := 0, colls := [] }
      en := (congrArg Ctx.en hctx).trans ?_
      frozen := congrArg Ctx.frozen hctx
      cores := congrArg Ctx.cores hctx
      colls := congrArg Ctx.colls hctx
      reuse := fun r hr => beq_ne_of_filter Reuse.ctx (hflow.reuse r hr)
      segments := fun r hr => beq_ne_of_filter Segment.ctx (hflow.wrote.segments ▸ hr)
      pods := fun r hr => beq_ne_of_filter Pod.ctx (hflow.wrote.pods ▸ hr)
      collMsgs := fun r hr => beq_ne_of_filter CollMsg.ctx (hflow.wrote.collMsgs ▸ hr)
      packets := fun q hq => hover q (hframe.packets ▸ hflow.wrote.packets ▸ hq)
      launches := fun l' hl' hc => ?_
      failed := fun l hl hc hn hb => ?_ }
  · exact (congrArg Ctx.en (State.ctx_congr hflow.wrote.ctxs ctx)).trans hen2
  · change l' ∈ s4.launches at hl'
    rw [hf4, show s3.launches = s2.launches from rfl, hg2, List.map_map] at hl'
    obtain ⟨x, hx, rfl⟩ := List.mem_map.mp hl'
    have hends : x.Ends (f (g x)) := (hg x).trans (hf _).ends
    cases hx' : x.completed with
    | some n => exact hends.completed (by rw [hx']; rfl)
    | none => exact (hmem x hx (hends.ctx.symm.trans hc) hx').1
  · obtain ⟨e, he, hes⟩ := hend.launches
    have hx : e l ∈ s1.launches := by
      rw [hes]
      exact List.mem_map_of_mem hl
    have hl1 : l.Ends (f (g (e l))) := (he l).ends.trans ((hg _).trans (hf _).ends)
    have hstop := hmem (e l) hx ((he l).ctx.trans hc) ((he l).completed.trans hn)
    refine ⟨f (g (e l)), hlaunches _ hx, hl1.ctx.trans hc, hl1.id, ?_⟩
    rcases hl1.stat with e' | e'
    · have := hstop.2
      rw [e', hb] at this
      exact absurd this nofun
    · rw [e', hb]
      rfl

/-! ## Cores that a context loses -/

/-- From s to t launches and dies alone have changed. -/
structure LaunchesDies (s t : State) : Prop where
  frame : t = { s with launches := t.launches, dies := t.dies }

theorem LaunchesDies.refl (s : State) : LaunchesDies s s := ⟨rfl⟩
theorem LaunchesDies.trans {s t u : State} (h : LaunchesDies s t) (h' : LaunchesDies t u) : LaunchesDies s u := by
  constructor
  rw [h'.frame]
  conv_lhs => rw [h.frame]
theorem LaunchesDies.foldl {α : Type} (f : State → α → State) (hf : ∀ s x, LaunchesDies s (f s x)) (l : List α) :
    ∀ s, LaunchesDies s (l.foldl f s) := by
  induction l with
  | nil => exact LaunchesDies.refl
  | cons x l ih => exact fun s => (hf s x).trans (ih _)
theorem LaunchesDies.ctxs {s t : State} (h : LaunchesDies s t) : t.ctxs = s.ctxs := by rw [h.frame]
theorem LaunchesDies.teams {s t : State} (h : LaunchesDies s t) : t.teams = s.teams := by rw [h.frame]

theorem State.endReservations_frame (s : State) : LaunchesDies s s.endReservations := by
  unfold State.endReservations
  exact .foldl _ (fun _ _ => ⟨rfl⟩) _ s
theorem State.loseCores_frame (s : State) (lost : Launch → List Nat) : LaunchesDies s (s.loseCores lost) :=
  LaunchesDies.trans ⟨rfl⟩ (State.endReservations_frame _)
theorem State.failStuck_frame (s : State) (ctx : Nat) : LaunchesDies s (s.failStuck ctx) := by
  unfold State.failStuck
  exact .foldl _ (fun _ _ => ⟨rfl⟩) _ s

/-! ## A word of a context's grant -/

/-- Bits of a grant after a write of one word of it. -/
theorem grant_getLsbD (cores : BitVec 320) (v : W64) {word k : Nat} (hk : k < 320) :
    ((cores &&& ~~~BitVec.ofNat 320 ((2 ^ 64 - 1) * 2 ^ (64 * word))) ||| BitVec.ofNat 320 (v.toNat * 2 ^ (64 * word))).getLsbD k =
      if 64 * word ≤ k ∧ k < 64 * word + 64 then v.getLsbD (k - 64 * word) else cores.getLsbD k := by
  have hv : (v.toNat * 2 ^ (64 * word)).testBit k = (decide (64 * word ≤ k) && v.getLsbD (k - 64 * word)) := by
    rw [← Nat.shiftLeft_eq, Nat.testBit_shiftLeft]
    rfl
  have hm : ((2 ^ 64 - 1) * 2 ^ (64 * word)).testBit k = (decide (64 * word ≤ k) && decide (k - 64 * word < 64)) := by
    rw [← Nat.shiftLeft_eq, Nat.testBit_shiftLeft, Nat.testBit_two_pow_sub_one]
  rw [BitVec.getLsbD_or, BitVec.getLsbD_and, BitVec.getLsbD_not, BitVec.getLsbD_ofNat, BitVec.getLsbD_ofNat, hv, hm]
  by_cases hlo : 64 * word ≤ k
  · by_cases hhi : k - 64 * word < 64
    · rw [if_pos ⟨hlo, by omega⟩]
      simp [hlo, hhi, hk]
    · rw [if_neg (by omega), BitVec.getLsbD_of_ge v _ (by omega)]
      simp [hhi, hk]
  · rw [if_neg (by omega)]
    simp [hlo, hk]

end Sys2Proof.Machine
end

section
/-! SUPPORT. ContextClaims: CTXCFG and CTXCORE. -/

namespace Sys2Proof.Claims
open Sys2Proof Sys2Proof.Machine

/-- What R40's tests ask. -/
theorem quotasOk_iff (s : State) (ctx : Nat) (v : W64) : s.quotasOk ctx v = true ↔
    16 ≤ cfgIv v ∧ cfgIv v + ((s.othersEnabled ctx).map (·.ivQuota)).sum ≤ 1024
      ∧ cfgReuse v + ((s.othersEnabled ctx).map (·.reuseQuota)).sum ≤ 65536 := by
  unfold State.quotasOk
  simp only [Bool.and_eq_true, decide_eq_true_eq]
  omega

theorem asidTaken_iff (s : State) (ctx : Nat) (v : W64) : ((s.othersEnabled ctx).any fun c => c.asid == cfgAsid v) = true ↔
    ∃ o ∈ s.othersEnabled ctx, o.asid = cfgAsid v := by
  simp only [List.any_eq_true, beq_iff_eq]

theorem ctx_within {ctx : Nat} (h : ctx < 64) : decide (ctxCount ≤ ctx) = false := decide_eq_false (Nat.not_le.mpr h)

theorem ctxEnable_passes {s : State} {ctx : Nat} {v : W64} (hctx : ctx < 64) (hd : s.boot.done = true) (hv : v.getLsbD 63 = true)
    (he : (s.ctx ctx).en = false) (hq : s.quotasOk ctx v = true)
    (ha : ((s.othersEnabled ctx).any fun c => c.asid == cfgAsid v) = false) :
    exec (.ctxEnable ctx v) s = .next (s.modCtx ctx fun c =>
      { c with en := true, ivQuota := cfgIv v, reuseQuota := cfgReuse v, asid := cfgAsid v, chain := List.replicate 32 0,
               launches := 0, completions := 0, unsealed := [], frozen := false, enabledAt := s.ticks }) := by
  change execCtxEnable ctx v s = _
  unfold execCtxEnable
  rw [if_neg (by simp only [hd, he, hv, hq, ha, ctx_within hctx, Bool.not_true, Bool.or_self, Bool.false_eq_true,
    not_false_iff])]

theorem ctxEnable_ignored {s : State} {ctx : Nat} {v : W64}
    (h : s.boot.done = false ∨ s.quotasOk ctx v = false ∨ ((s.othersEnabled ctx).any fun c => c.asid == cfgAsid v) = true) :
    Stays (.ctxEnable ctx v) s := by
  change execCtxEnable ctx v s = _
  unfold execCtxEnable
  rw [if_pos (by rcases h with h | h | h <;> simp [h])]

theorem ctxQuotaChange_ignored {s : State} {ctx : Nat} {v : W64} (h : s.boot.done = false ∨ s.quotasOk ctx v = false) :
    Stays (.ctxQuotaChange ctx v) s := by
  change execCtxQuotaChange ctx v s = _
  unfold execCtxQuotaChange
  rw [if_pos (by rcases h with h | h <;> simp [h])]

theorem ctxQuotaChange_passes {s : State} {ctx : Nat} {v : W64} (hwf : swf Ctx.fresh s.ctxs = true) (hctx : ctx < 64)
    (hd : s.boot.done = true) (hv : v.getLsbD 63 = true) (he : (s.ctx ctx).en = true) (hq : s.quotasOk ctx v = true) :
    Answers (exec (.ctxQuotaChange ctx v) s) fun t => t.ctx ctx = { s.ctx ctx with ivQuota := cfgIv v, reuseQuota := cfgReuse v }
      ∧ (t.reuse.filter fun r => r.ctx == ctx).length ≤ cfgReuse v ∧ t.teams = s.teams := by
  have heq : exec (.ctxQuotaChange ctx v) s = .next ((((s.modCtx ctx fun c =>
      { c with ivQuota := cfgIv v, reuseQuota := cfgReuse v }).evictReuse ctx (cfgReuse v)).promote ctx (s.launches.length + 1)).wake) := by
    change execCtxQuotaChange ctx v s = _
    unfold execCtxQuotaChange
    rw [if_neg (by simp only [hd, he, hv, hq, ctx_within hctx, Bool.not_true, Bool.or_self, Bool.false_eq_true, not_false_iff])]
    rfl
  refine ⟨_, heq,
    (State.promote_ctx ..).trans (State.ctx_modCtx hwf ctx fun c => { c with ivQuota := cfgIv v, reuseQuota := cfgReuse v }),
    ?_, State.promote_teams ..⟩
  rw [show (State.wake _).reuse = _ from State.promote_reuse ..]
  exact State.evictReuse_length ..

theorem ctxTeardown_ignored {s : State} {ctx : Nat} {v : W64} (h : s.boot.done = false) : Stays (.ctxTeardown ctx v) s := by
  change execCtxTeardown ctx v s = _
  unfold execCtxTeardown
  rw [if_pos (by simp [h])]

theorem ctxTeardown_passes {s : State} {ctx : Nat} {v : W64} (hctx : ctx < 64) (hd : s.boot.done = true) (hv : v.getLsbD 63 = false) :
    exec (.ctxTeardown ctx v) s = .next (if (s.ctx ctx).en then
        (s.teardown ctx).modCtx ctx fun c => { c with ivQuota := cfgIv v, reuseQuota := cfgReuse v }
      else s.modCtx ctx fun c => { c with ivQuota := cfgIv v, reuseQuota := cfgReuse v, asid := cfgAsid v }) := by
  change execCtxTeardown ctx v s = _
  unfold execCtxTeardown
  rw [if_neg (by simp only [hd, hv, ctx_within hctx, Bool.not_true, Bool.or_self, Bool.false_eq_true, not_false_iff])]

theorem ctxcoreWrite_clash {s : State} {ctx word : Nat} {v : W64}
    (h : ∃ k, k < 64 ∧ v.getLsbD k = true ∧ s.coreTaken ctx (64 * word + k) = true) : Stays (.ctxcoreWrite ctx word v) s := by
  obtain ⟨k, hk, hv, ht⟩ := h
  have hany : ((List.range 64).any fun i => v.getLsbD i && s.coreTaken ctx (64 * word + i)) = true :=
    List.any_eq_true.mpr ⟨k, List.mem_range.mpr hk, by rw [hv, ht]; rfl⟩
  change execCtxcoreWrite ctx word v s = _
  unfold execCtxcoreWrite
  rw [if_pos (by rw [hany, Bool.or_true])]

theorem ctxcoreWrite_passes {s : State} {ctx word : Nat} {v : W64} (hwf : swf Ctx.fresh s.ctxs = true) (hctx : ctx < 64) (hw : word < 5)
    (h : ¬ ∃ k, k < 64 ∧ v.getLsbD k = true ∧ s.coreTaken ctx (64 * word + k) = true) :
    Answers (exec (.ctxcoreWrite ctx word v) s) fun t => ∀ k, k < 320 → (t.ctx ctx).cores.getLsbD k
      = if 64 * word ≤ k ∧ k < 64 * word + 64 then v.getLsbD (k - 64 * word) else (s.ctx ctx).cores.getLsbD k := by
  have hany : ((List.range 64).any fun i => v.getLsbD i && s.coreTaken ctx (64 * word + i)) = false := by
    rw [List.any_eq_false]
    intro k hk hb
    rw [Bool.and_eq_true] at hb
    exact h ⟨k, List.mem_range.mp hk, hb⟩
  have he : Answers (exec (.ctxcoreWrite ctx word v) s) fun t => t.ctxs = (s.modCtx ctx fun c => { c with
      cores := (c.cores &&& ~~~BitVec.ofNat 320 ((2 ^ 64 - 1) * 2 ^ (64 * word))) ||| BitVec.ofNat 320 (v.toNat * 2 ^ (64 * word)) }).ctxs := by
    change Answers (execCtxcoreWrite ctx word v s) _
    unfold execCtxcoreWrite
    rw [if_neg (by simp only [hany, ctx_within hctx, decide_eq_false (Nat.not_le.mpr hw), Bool.or_self, Bool.false_eq_true,
      not_false_iff])]
    exact ⟨_, rfl, ((State.loseCores_frame ..).trans (State.failStuck_frame ..)).ctxs⟩
  obtain ⟨t, ht, hc⟩ := he
  refine ⟨t, ht, fun k hk => ?_⟩
  rw [State.ctx_congr hc, State.ctx_modCtx hwf]
  exact grant_getLsbD _ v hk

/-- Settles O47: R40's tests, then what a teardown's stages leave, and a grant's bits. -/
theorem contextEvents : Obligations.ContextEvents := by
  intro s ctx v hctx hwf _ c others iv reuse asid fits put
  have hfits : s.quotasOk ctx v = true ↔ fits := quotasOk_iff s ctx v
  refine ⟨fun hd => ⟨ctxEnable_ignored (.inl hd), ctxQuotaChange_ignored (.inl hd), ctxTeardown_ignored hd⟩,
    fun hd hv he => ⟨?_, ?_⟩,
    fun hd hv he => ⟨?_, ?_⟩, fun hd hv => ⟨?_, ?_⟩, fun word hw => ⟨ctxcoreWrite_clash, ctxcoreWrite_passes hwf hctx hw⟩⟩
  · intro hf ha
    refine ctxEnable_passes hctx hd hv he (hfits.mpr hf) (Bool.eq_false_iff.mpr fun h => ?_)
    obtain ⟨o, ho, e⟩ := (asidTaken_iff s ctx v).mp h
    exact ha o ho e
  · rintro (hf | ha)
    · exact ctxEnable_ignored (.inr (.inl (Bool.eq_false_iff.mpr fun h => hf (hfits.mp h))))
    · exact ctxEnable_ignored (.inr (.inr ((asidTaken_iff s ctx v).mpr ha)))
  · exact fun hf => ctxQuotaChange_passes hwf hctx hd hv he (hfits.mpr hf)
  · exact fun hf => ctxQuotaChange_ignored (.inr (Bool.eq_false_iff.mpr fun h => hf (hfits.mp h)))
  · intro he
    have hx := ctxTeardown_passes hctx hd hv
    rw [if_pos he] at hx
    have ht := State.teardown_spec hwf ctx
    have hc := State.ctx_modCtx ht.ctxs ctx fun c => { c with ivQuota := cfgIv v, reuseQuota := cfgReuse v }
    exact ⟨_, hx, (congrArg Ctx.en hc).trans ht.en, (congrArg Ctx.frozen hc).trans ht.frozen,
      (congrArg Ctx.cores hc).trans ht.cores,
      (congrArg Ctx.colls hc).trans ht.colls, congrArg Ctx.ivQuota hc, congrArg Ctx.reuseQuota hc, ht.reuse, ht.segments,
        ht.pods,
      ht.collMsgs, ht.packets, ht.launches, ht.failed⟩
  · intro he
    have hx := ctxTeardown_passes hctx hd hv
    rw [he] at hx
    exact hx

end Sys2Proof.Claims
end

section
/-! SUPPORT. Settled: what settling a team, waking copies and ending waits leave as it was. -/

namespace Sys2Proof.Machine
open Sys2Proof Sys2Proof.Claims

/-! ## What scheduling and pending effects leave -/

/-- A launch but for its standing, the mark of a write to its inputs and the race detector's shadow. -/
def Launch.standing (l : Launch) : Launch := { l with stat := .waiting, failGroup := 0, dirtyIn := false, shadow := [] }

/-- A team but for its threads, its park, its scalars' visible copies and its barrier's phase. -/
def Team.home (t : Team) : Team :=
  { t with threads := [], parkedSince := none, visible := [], written := [], tbarPhase := 0, tbarIn := [] }

/-- From s to t threads have gone on and effects that were pending have been performed: beside memory only what holds threads has
changed, and in launches their standing. -/
structure Settled (s t : State) : Prop where
  frame : t = { s with
    teams := t.teams, bundles := t.bundles, nextBundle := t.nextBundle, cores := t.cores,
    mem := t.mem, descs := t.descs, poison := t.poison, peerMem := t.peerMem, peerDescs := t.peerDescs,
      peerPoison := t.peerPoison,
    digests := t.digests, reuse := t.reuse, icache := t.icache, launches := t.launches }
  launches : t.launches.map Launch.standing = s.launches.map Launch.standing
  teams : t.teams.map Team.home = s.teams.map Team.home

theorem Settled.refl (s : State) : Settled s s := ⟨rfl, rfl, rfl⟩
theorem Settled.trans {s t u : State} (h : Settled s t) (h' : Settled t u) : Settled s u where
  frame := by
    rw [h'.frame]
    conv_lhs => rw [h.frame]
  launches := h'.launches.trans h.launches
  teams := h'.teams.trans h.teams
theorem Settled.foldl {α : Type} (f : State → α → State) (hf : ∀ s x, Settled s (f s x)) (l : List α) : ∀ s,
  Settled s (l.foldl f s) := by
  induction l with
  | nil => exact Settled.refl
  | cons x l ih => exact fun s => (hf s x).trans (ih _)
theorem Settled.ite {s t u : State} {c : Prop} [Decidable c] (h : Settled s t) (h' : Settled s u) : Settled s (if c then t else u) := by
  split
  · exact h
  · exact h'

theorem Settled.ctxs {s t : State} (h : Settled s t) : t.ctxs = s.ctxs := by rw [h.frame]
theorem Settled.pods {s t : State} (h : Settled s t) : t.pods = s.pods := by rw [h.frame]

theorem Launch.Hit.standing {l l' : Launch} (h : l.Hit l') : l'.standing = l.standing := by
  rw [h.rest]
  rfl

/-- The launches' standing has changed. -/
theorem LaunchesHit.standing {s t : State} (h : LaunchesHit s t) : t.launches.map Launch.standing = s.launches.map Launch.standing := by
  obtain ⟨f, hf, e⟩ := h
  rw [e, List.map_map]
  exact List.map_congr_left fun l _ => (hf l).standing

theorem Settled.of_wrote {s t : State} (h : Wrote s t) (hl : LaunchesHit s t) : Settled s t where
  frame := by
    conv_lhs => rw [h.frame]
    rw [h.frame]
  launches := hl.standing
  teams := by rw [h.teams]

theorem Settled.modCore (s : State) (n : Nat) (f : Core → Core) : Settled s (s.modCore n f) := ⟨rfl, rfl, rfl⟩
theorem Settled.modTeam (s : State) (k : TeamKey) (f : Team → Team) (hf : ∀ t,
  (f t).home = t.home) : Settled s (s.modTeam k f) :=
  ⟨rfl, rfl, map_modWhere (fun t : Team => t.key == k) f Team.home (fun t _ => hf t) s.teams⟩
theorem Settled.modThread (s : State) (k : TeamKey) (j : Nat) (f : Thread → Thread) : Settled s (s.modThread k j f) :=
  .modTeam s k (·.modThread j f) fun _ => rfl
theorem Settled.modLaunch (s : State) (ctx id : Nat) (f : Launch → Launch) (hf : ∀ l, (f l).standing = l.standing) :
    Settled s (s.modLaunch ctx id f) :=
  ⟨rfl, map_modWhere (fun l : Launch => l.ctx == ctx && l.id == id) f Launch.standing (fun l _ => hf l) s.launches, rfl⟩

theorem Sched.settled {s t : State} (h : Sched s t) : Settled s t where
  frame := by
    conv_lhs => rw [h.frame]
    rw [h.frame]
  launches := by rw [h.frame]
  teams := by
    have e : Team.home = Team.home ∘ Team.data := rfl
    rw [e, ← List.map_map, ← List.map_map, h.teams]

theorem Launch.fail_standing (l : Launch) (c : Cause) (g : Nat) : (l.fail c g).standing = l.standing := by
  rw [Launch.fail_eq]
  rfl

theorem State.failLaunch_settled (s : State) (ctx id : Nat) (c : Cause) (g : Nat) : Settled s (s.failLaunch ctx id c g) :=
  .modLaunch s ctx id _ fun l => Launch.fail_standing l c g

theorem State.failLaunchOf_settled (s : State) (k : TeamKey) (c : Cause) (g : Nat) : Settled s (s.failLaunchOf k c g) := by
  unfold State.failLaunchOf
  split
  · exact State.failLaunch_settled ..
  · exact .refl s

theorem State.writeBytes_settled (s : State) (p : Place) (bs : List Byte) : Settled s (s.writeBytes p bs) :=
  .of_wrote (State.writeBytes_wrote ..) (State.writeBytes_hit ..)
theorem State.writeDescr_settled (s : State) (p : Place) (d : Descr) : Settled s (s.writeDescr p d) :=
  .of_wrote (State.writeDescr_wrote ..) (State.writeDescr_hit ..)

/-! ## Pending stores and atomics -/

theorem State.performEntry_settled (s : State) (core : Nat) (e : StoreEntry) : Settled s (s.performEntry core e) := by
  unfold State.performEntry
  extract_lets key off s1 s2
  have h1 : Settled s s1 := .ite (.refl s) (State.failLaunchOf_settled ..)
  have h2 : Settled s1 s2 := by
    unfold s2
    split
    · exact State.writeDescr_settled ..
    · exact State.writeBytes_settled ..
  exact (h1.trans h2).trans (.modCore ..)

theorem State.performFifo_settled (n : Nat) : ∀ (s : State) (core : Nat), Settled s (s.performFifo core n) := by
  induction n with
  | zero => exact fun s _ => .refl s
  | succ n ih =>
    intro s core
    unfold State.performFifo
    split
    · exact .refl s
    · exact (Settled.modCore s core _).trans ((State.performEntry_settled ..).trans (ih ..))

theorem State.drain_settled (s : State) (k : TeamKey) : Settled s (s.drain k) := State.performFifo_settled ..

theorem State.atomDrain_settled (s : State) (k : TeamKey) (o : AtomOp) : Settled s (s.atomDrain k o) := by
  have hd : Settled s (s.drain k) := State.drain_settled ..
  unfold State.atomDrain
  exact .ite (hd.trans (State.performFifo_settled ..)) hd

theorem State.acquire_settled (s : State) (core : Nat) (sc : Scope) : Settled s (s.acquire core sc) := .ite (.refl s) (.modCore ..)

/-- The write of an atomic that has a new value. -/
theorem State.newValue_settled {s u : State} (h : Settled s u) (core : Nat) (v : Option W64) (f : W64 → StoreEntry) :
    Settled s (match v with | none => u | some v => u.performEntry core (f v)) := by
  cases v with
  | none => exact h
  | some v => exact h.trans (State.performEntry_settled ..)

theorem State.performAtom_settled (s : State) (k : TeamKey) (o : AtomOp) : Settled s (s.performAtom k o).1 := by
  have hd := State.atomDrain_settled s k o
  unfold State.performAtom
  dsimp only
  split
  · exact hd
  · rename_i b _
    split
    · exact hd
    · have h1 := State.newValue_settled (hd.trans (.modCore ..) : Settled s ((s.atomDrain k o).freshLine (s.coreOf k) o.place b))
        (s.coreOf k) (o.newValue (o.word b))
      exact .ite ((h1 _).trans (State.acquire_settled ..)) (h1 _)

theorem State.raceMark_settled (s : State) (k : TeamKey) (tid va n : Nat) (sc : Scope) (atomic : Bool) (ival : W32) :
    Settled s (s.raceMark k tid va n sc atomic ival) := by
  unfold State.raceMark
  split
  · exact .refl s
  · exact .ite (.modLaunch _ _ _ _ fun _ => rfl) (.refl s)

theorem State.atomDone_settled (s : State) (k : TeamKey) (tid : Nat) (o : AtomOp) (old : W64) : Settled s (s.atomDone k tid o old) := by
  unfold State.atomDone
  extract_lets iv s1
  have h1 : Settled s s1 := .ite (State.raceMark_settled ..) (.refl s)
  exact h1.trans (.ite (.ite (.modThread ..) (.refl _)) (.refl _))

theorem State.applyEntry_settled (s : State) (e : AtomEntry) : Settled s (s.applyEntry e) := by
  have hp := State.performAtom_settled s e.key e.op
  unfold State.applyEntry
  split
  rename_i s1 r e1
  rw [e1] at hp
  split
  · exact hp.trans (State.failLaunchOf_settled ..)
  · rename_i old
    refine hp.trans ((State.atomDone_settled s1 e.key e.tid e.op old).trans ?_)
    dsimp only
    split
    · exact .refl _
    · exact .modThread ..

theorem State.flushAtoms_settled (s : State) (core : Nat) (p : AtomEntry → Bool) : Settled s (s.flushAtoms core p) :=
  (Settled.modCore s core _).trans (.foldl _ State.applyEntry_settled _ _)
theorem State.flushTeam_settled (s : State) (k : TeamKey) : Settled s (s.flushTeam k) := State.flushAtoms_settled ..

/-! ## Parks whose causes have ended -/

theorem State.regroup_settled (s : State) (k : TeamKey) (tids : List Nat) (met single : Bool) : Settled s (s.regroup k tids met single) :=
  (SchedGrow.regroup ..).1.settled
theorem State.release_settled (s : State) (k : TeamKey) (tids : List Nat) (back met : Bool) : Settled s (s.release k tids back met) :=
  (SchedGrow.release ..).1.settled

theorem State.tbarEvent_settled (s : State) (k : TeamKey) : Settled s (s.tbarEvent k) := by
  unfold State.tbarEvent
  split
  · exact .refl s
  · extract_lets live s1 s2 s3
    have h1 : Settled s s1 := .ite (State.flushTeam_settled ..) (.refl s)
    have h2 : Settled s1 s2 := .modTeam s1 k _ fun _ => rfl
    have h3 : Settled s2 s3 := .foldl _ (fun _ _ => State.acquire_settled ..) _ s2
    exact .ite (.refl s) (((h1.trans h2).trans h3).trans (State.release_settled ..))

theorem State.settle_settled (s : State) (k : TeamKey) : Settled s (s.settle k) :=
  ((((State.tbarEvent_settled s k).trans (SchedGrow.retryHeld ..).1.settled).trans (SchedGrow.retryArrive ..).1.settled).trans
    (SchedGrow.releaseRows ..).1.settled).trans (SchedGrow.drawFull ..).1.settled

theorem State.wake_settled (s : State) : Settled s s.wake := ⟨rfl, rfl, rfl⟩

/-- A team after others have gone on. -/
theorem Settled.team? {s t : State} (h : Settled s t) (k : TeamKey) : (t.team? k).map Team.home = (s.team? k).map Team.home := by
  unfold State.team?
  rw [← find?_of_map Team.home (fun t => t.key == k) (fun t => t.key == k) (fun _ => rfl),
    ← find?_of_map Team.home (fun t => t.key == k) (fun t => t.key == k) (fun _ => rfl), h.teams]

end Sys2Proof.Machine
end

section
/-! SUPPORT. Pods and segments: frames of the waits that end, and the order of segments. -/

namespace Sys2Proof.Machine
open Sys2Proof Sys2Proof.Claims

/-! ## Pods while waits end -/

theorem State.putRecords_wroteHit (s : State) (g : Group) (slot : Nat) : WroteHit s (s.putRecords g slot) :=
  .foldl _ (fun _ _ => State.writeBytes_wroteHit ..) _ s

theorem State.postEvent_pods (s : State) (e : HiveEvent) : (s.postEvent e).pods = s.pods := by
  unfold State.postEvent
  split <;> rfl

theorem State.fileGroup_pods (s : State) (id : Nat) : (s.fileGroup id).pods = s.pods := by
  unfold State.fileGroup
  split
  · rfl
  · split
    · rfl
    · split
      · rfl
      · exact (State.postEvent_pods ..).trans (State.putRecords_wroteHit ..).wrote.pods

theorem State.rejoinGroup_pods (s : State) (g : Group) (pc : Nat) (recs : List FaultRec) (tids : List Nat) :
    (s.rejoinGroup g pc recs tids).pods = s.pods := by
  unfold State.rejoinGroup
  extract_lets recs' g'
  split
  · rfl
  · split
    · exact (State.putRecords_wroteHit ..).wrote.pods
    · exact State.fileGroup_pods ..

theorem State.takeGroup_pods (s : State) (k : TeamKey) (kind : GroupKind) (pc dest : Nat) (inner : Option Clause) (traps : List Trap)
    (each : Bool) : (s.takeGroup k kind pc dest inner traps each).pods = s.pods := by
  unfold State.takeGroup
  extract_lets old id recs tids s1
  have h1 : s1.pods = s.pods := (Settled.foldl _ (fun _ _ => .modThread ..) tids s).pods
  clear_value old id recs tids s1
  cases old
  · exact (State.fileGroup_pods ..).trans h1
  · exact (State.rejoinGroup_pods ..).trans h1

theorem State.finishWait_pods (s : State) (k : TeamKey) (core : Nat) (x : Thread) (w : MemWait) (b : Block) :
    (s.finishWait k core x w b).1.pods = s.pods := by
  unfold State.finishWait
  split
  · exact State.takeGroup_pods ..
  · extract_lets s1
    have h1 : s1.pods = s.pods := by
      unfold s1
      split <;> rfl
    exact (Settled.pods (.modThread (s1.acquire core w.scope) k x.tid _)).trans ((State.acquire_settled s1 core w.scope).pods.trans h1)

/-- One thread's wait that has ended. -/
def State.endWait (t : Team) (acc : State × List Nat) (x : Thread) : State × List Nat :=
  match x.parkedAs with
  | some (.memory w) => match acc.1.waitBlock t.key w with
    | some b =>
      let (s, on) := acc.1.finishWait t.key t.core x w b
      (s, if on then acc.2 ++ [x.tid] else acc.2)
    | none => acc
  | _ => acc

theorem State.endWait_pods (t : Team) (acc : State × List Nat) (x : Thread) : (State.endWait t acc x).1.pods = acc.1.pods := by
  unfold State.endWait
  split
  · split
    · exact State.finishWait_pods ..
    · rfl
  · rfl

theorem State.endWaits_pods (s : State) (t : Team) (due : Thread → Bool) : (s.endWaits t due).pods = s.pods := by
  have hfold : ∀ (xs : List Thread) (acc : State × List Nat),
    (xs.foldl (State.endWait t) acc).1.pods = acc.1.pods := fun xs => by
    induction xs with
    | nil => exact fun _ => rfl
    | cons x xs ih => exact fun acc => (ih _).trans (State.endWait_pods ..)
  unfold State.endWaits
  split
  rename_i s1 go e
  have h1 : s1.pods = s.pods := by
    have := hfold (t.threads.filter due) (s, [])
    rw [show (t.threads.filter due).foldl (State.endWait t) (s, []) = (s1, go) from e] at this
    exact this
  exact (State.settle_settled ..).pods.trans ((Settled.pods (.modCore (s1.release t.key go false false) t.core _)).trans
    ((State.release_settled ..).pods.trans h1))

/-! ## Segments -/

/-- Changing the entries of a key. -/
theorem modWhere_key {α β : Type} [BEq β] [LawfulBEq β] [DecidableEq β] (key : α → β) (k : β) (f : α → α) (l : List α) :
    modWhere (fun x => key x == k) f l = l.map fun x => if key x = k then f x else x := by
  unfold modWhere
  simp only [beq_iff_eq]

theorem State.writePart_wrote (s : State) (p : Place) (off : Nat) (bs : List Byte) (d : Descr) (m : Option Cause) :
    Wrote s (s.writePart p off bs d m) := by
  have h := (State.writeBytes_wrote s (p.block.add off) bs).trans (State.writeDescr_wrote _ p d)
  unfold State.writePart
  extract_lets s1
  split
  · exact h.trans (State.writePoison_wrote ..)
  · exact h

theorem State.updateRecv_wrote (s : State) (g : Segment) (bs : List Block) : Wrote s (s.updateRecv g bs) := by
  unfold State.updateRecv
  split
  · exact .refl s
  · exact .foldl _ (fun s x => ((State.writePart_wrote ..).trans (State.writeBytes_wrote ..)).trans (State.writeBytes_wrote ..)) _ (.refl s)

theorem State.bumpGen_wrote (s : State) (ctx : Nat) (f : Flow) (key : Nat) : Wrote s (s.bumpGen ctx f key) := by
  unfold State.bumpGen
  split
  · exact State.writeBytes_wrote ..
  · extract_lets s1
    refine Wrote.trans (.foldl _ (fun s r => ?_) _ (.refl s)) (State.writeBytes_wrote ..)
    split
    · exact .foldl _ (fun _ _ => State.writeBytes_wrote ..) _ (.refl s)
    · exact .refl s

/-- The numbers of an order that has had one segment applied. -/
def Segment.firstSeq (g : Segment) : SeqNum := { ctx := g.ctx, key := g.key, src := g.src, dst := g.dst, send := 0, recv := 1 }

theorem Segment.firstSeq_isOf (g : Segment) : g.firstSeq.isOf g = true := by
  simp [SeqNum.isOf, Segment.firstSeq]

/-- A segment that has been applied is the last of its order. -/
theorem State.advanceSeq_next (s : State) (g : Segment) : (s.advanceSeq g).nextSeqOf g = (s.nextSeqOf g + 1) % 2 ^ 32 := by
  unfold State.advanceSeq
  split
  · rename_i h
    obtain ⟨q, hq⟩ := Option.isSome_iff_exists.mp (List.find?_isSome.mpr (List.any_eq_true.mp h))
    have hafter := find?_modWhere (fun q : SeqNum => q.isOf g) (fun q => q.isOf g) (fun q => { q with recv := (q.recv + 1) % 2 ^ 32 })
      (fun _ => rfl) s.seqNums
    rw [hq, Option.map_some, if_pos (List.find?_some hq)] at hafter
    unfold State.nextSeqOf
    rw [hq, hafter]
  · rename_i h
    have hnone : s.seqNums.find? (fun q => q.isOf g) = none := List.find?_eq_none.mpr fun q hq hf => h (List.any_eq_true.mpr ⟨q, hq, hf⟩)
    have hnew : (s.seqNums ++ [g.firstSeq]).find? (fun q : SeqNum => q.isOf g) = some g.firstSeq := by
      rw [List.find?_append, hnone, List.find?_cons, g.firstSeq_isOf]
      rfl
    unfold State.nextSeqOf
    rw [hnone]
    exact congrArg (fun r : Option SeqNum => match r with | some q => q.recv | none => 0) hnew

theorem State.advanceSeq_segments (s : State) (g : Segment) : (s.advanceSeq g).segments = s.segments := by
  unfold State.advanceSeq
  split <;> rfl

end Sys2Proof.Machine
end

section
/-! SUPPORT. LateBars. -/

namespace Sys2Proof.Machine
open Sys2Proof Sys2Proof.Claims

/-- Late barriers are counted in the flows' registers alone. -/
theorem State.countLateBar_keeps (s : State) : s.countLateBar.mem = s.mem ∧ s.countLateBar.pods = s.pods := by
  unfold State.countLateBar
  exact List.foldlRecOn (motive := fun t : State => t.mem = s.mem ∧ t.pods = s.pods) _ _ ⟨rfl, rfl⟩ fun _ h _ _ => h

end Sys2Proof.Machine
end

section
/-! SUPPORT. LinkClaims: segments, NAKs, collectives and pod barriers. -/

namespace Sys2Proof.Claims
open Sys2Proof Sys2Proof.Machine

/-! ## Segments received -/

/-- A segment that goes back as a NAK. -/
def sentBack (g : Segment) (s : State) (crc : Bool) : State :=
  { s with segments := s.segments.map fun x => if x.id = g.id then
    { x with kind := .nak, crcErr := crc, fails := if crc then x.fails + 1 else x.fails } else x }

theorem nakSegment_eq (s : State) (g : Segment) (crc : Bool) : s.nakSegment g crc = sentBack g s crc :=
  congrArg (fun l => { s with segments := l }) (modWhere_key Segment.id g.id _ s.segments)

section
variable {s : State} {n : SegName} {g : Segment} {flips : List Nat}

theorem not_due {k : SegKind} (h : g.kind ≠ k ∨ s.segmentReady g = false) : (g.kind != k || !s.segmentReady g) = true := by
  rcases h with h | h
  · rw [bne_iff_ne.mpr h, Bool.true_or]
  · rw [h, Bool.not_false, Bool.or_true]

theorem due {k : SegKind} (hk : g.kind = k) (h : s.segmentReady g = true) : (g.kind != k || !s.segmentReady g) = false := by
  rw [hk, h, bne_self_eq_false, Bool.not_true, Bool.or_false]

theorem data_stays (h : s.segment? n = some g) (hd : (g.kind != .data || !s.segmentReady g) = true) : Stays (.segmentDataReceive n flips) s := by
  change execSegmentDataReceive n flips s = _
  unfold execSegmentDataReceive
  simp only [h, hd, if_true]

theorem refresh_stays (h : s.segment? n = some g) (hd : (g.kind != .refresh || !s.segmentReady g) = true) :
    Stays (.segmentRefreshReceive n flips) s := by
  change execSegmentRefreshReceive n flips s = _
  unfold execSegmentRefreshReceive
  simp only [h, hd, if_true]

section
variable (h : s.segment? n = some g)
include h

theorem data_lags (hd : (g.kind != .data || !s.segmentReady g) = false) (hc : s.checkSegment g flips = .lags) :
    Goes (.segmentDataReceive n flips) s (sentBack g s false) := by
  change execSegmentDataReceive n flips s = _
  unfold execSegmentDataReceive
  simp only [h, hd, hc, Bool.false_eq_true, if_false, nakSegment_eq]

theorem refresh_lags (hd : (g.kind != .refresh || !s.segmentReady g) = false) (hc : s.checkSegment g flips = .lags) :
    Goes (.segmentRefreshReceive n flips) s (sentBack g s false) := by
  change execSegmentRefreshReceive n flips s = _
  unfold execSegmentRefreshReceive
  simp only [h, hd, hc, Bool.false_eq_true, if_false, nakSegment_eq]

theorem data_bad (hd : (g.kind != .data || !s.segmentReady g) = false) (hc : s.checkSegment g flips = .bad) :
    Goes (.segmentDataReceive n flips) s (sentBack g (s.failCrc g) true) := by
  change execSegmentDataReceive n flips s = _
  unfold execSegmentDataReceive
  simp only [h, hd, hc, Bool.false_eq_true, if_false, nakSegment_eq]

theorem refresh_bad (hd : (g.kind != .refresh || !s.segmentReady g) = false) (hc : s.checkSegment g flips = .bad) :
    Goes (.segmentRefreshReceive n flips) s (sentBack g (s.failCrc g) true) := by
  change execSegmentRefreshReceive n flips s = _
  unfold execSegmentRefreshReceive
  simp only [h, hd, hc, Bool.false_eq_true, if_false, nakSegment_eq]

theorem data_applies {bs : List Block} {u : State} (hd : (g.kind != .data || !s.segmentReady g) = false)
    (hc : s.checkSegment g flips = .pass bs) (ha : s.applySegment g (fromPeer n) bs = some u) :
    Goes (.segmentDataReceive n flips) s u := by
  change execSegmentDataReceive n flips s = _
  unfold execSegmentDataReceive
  simp only [h, hd, hc, ha, Bool.false_eq_true, if_false, Option.getD_some]

theorem refresh_applies {bs : List Block} {u : State} (hd : (g.kind != .refresh || !s.segmentReady g) = false)
    (hc : s.checkSegment g flips = .pass bs) (ha : s.applySegment g (fromPeer n) bs = some u) :
    Goes (.segmentRefreshReceive n flips) s (u.countFlow g false) := by
  change execSegmentRefreshReceive n flips s = _
  unfold execSegmentRefreshReceive
  simp only [h, hd, hc, ha, Bool.false_eq_true, if_false, Option.map_some, Option.getD_some]

end
end

/-- A segment of no move and of no collective is over once it has been applied. -/
theorem plain_segment_over {s : State} {g : Segment} {bs : List Block} (hcoll : g.coll = none) (hmove : g.move = none)
    (hf : s.segments.find? (fun x => x.id == g.id) = some g) (hk : g.kind = .data) (hr : s.segmentReady g = true)
    (hc : s.checkSegment g [] = .pass bs) :
    Answers (exec (.segmentDataReceive (.sent g.id) []) s) fun t => (∀ x ∈ t.segments, x.id ≠ g.id)
      ∧ t.nextSeqOf g = (s.nextSeqOf g + 1) % 2 ^ 32 := by
  have ha : s.applySegment g false bs = some (({ s.updateRecv g bs with
      segments := (s.updateRecv g bs).segments.filter fun x => x.id != g.id } : State).advanceSeq g) := by
    unfold State.applySegment
    simp only [hcoll, hmove, Option.map_some]
  refine ⟨_, data_applies (n := .sent g.id) hf (due hk hr) hc ha, fun x hx => ?_, ?_⟩
  · rw [State.advanceSeq_segments] at hx
    exact bne_iff_ne.mp (List.mem_filter.mp hx).2
  · rw [State.advanceSeq_next]
    have hs : (s.updateRecv g bs).seqNums = s.seqNums := by rw [(State.updateRecv_wrote s g bs).frame]
    unfold State.nextSeqOf
    rw [hs]

/-! ## NAKs -/

theorem nak_unknown {s : State} {nak : Nat} (hf : s.segments.find? (fun g => g.id == nak) = none) : Stays (.segmentNakReceive nak) s := by
  change execSegmentNakReceive nak s = _
  unfold execSegmentNakReceive
  rw [hf]

theorem nak_stays {s : State} {g : Segment} (hf : s.segments.find? (fun x => x.id == g.id) = some g) (hk : g.kind ≠ .nak) :
    Stays (.segmentNakReceive g.id) s := by
  change execSegmentNakReceive g.id s = _
  unfold execSegmentNakReceive
  simp only [hf, bne_iff_ne.mpr hk, if_true]

theorem flitReplay_stays (s : State) (n : Nat) : Stays (.flitReplay n) s := by
  change execFlitReplay n s = _
  unfold execFlitReplay
  rw [ite_self]

/-- A NAK's eighth failure takes the context down. -/
theorem nak_teardown {s : State} {g : Segment} (hf : s.segments.find? (fun x => x.id == g.id) = some g) (hk : g.kind = .nak)
    (h8 : 8 ≤ g.fails) : Goes (.segmentNakReceive g.id) s (s.teardown g.ctx) := by
  change execSegmentNakReceive g.id s = _
  unfold execSegmentNakReceive
  simp only [hf, hk, bne_self_eq_false, Bool.false_eq_true, if_false, show maxFails ≤ g.fails from h8, if_true]

theorem nak_refreshes {s : State} {g : Segment} (hf : s.segments.find? (fun x => x.id == g.id) = some g) (hk : g.kind = .nak)
    (h8 : g.fails < 8) :
    Answers (exec (.segmentNakReceive g.id) s) fun t =>
      ∃ x, t.segments.find? (fun x => x.id == g.id) = some x ∧ x.kind = .refresh ∧ x.first = true
        ∧ x.blocks = g.blocks ∧ x.seq = g.seq
        ∧ x.payload = (codeBlocks (g.blocks.map fun b => (b.data, noPrediction)) true).bits := by
  change Answers (execSegmentNakReceive g.id s) _
  unfold execSegmentNakReceive
  rw [hf]
  simp -zeta only [hk, bne_self_eq_false, Bool.false_eq_true, if_false, show ¬ maxFails ≤ g.fails from Nat.not_le.mpr h8]
  extract_lets f s1 gen s2 str toRefresh
  clear_value f
  have h1 : s1.segments = s.segments := by
    unfold s1
    split
    · split
      · exact (State.bumpGen_wrote ..).segments
      · rfl
    · rfl
  have h2 : s2.segments = s1.segments := by
    clear_value gen s1
    unfold s2
    split
    · exact (Wrote.foldl _ (fun _ _ => State.writeBytes_wrote ..) _ (.refl s1)).segments
    · rfl
  refine ⟨_, rfl, toRefresh g, ?_, rfl, rfl, rfl, rfl, rfl⟩
  change (modWhere (fun x => x.id == g.id) toRefresh s2.segments).find? (fun x => x.id == g.id) = _
  rw [find?_modWhere (fun x : Segment => x.id == g.id) (fun x => x.id == g.id) toRefresh (fun _ => rfl), h2, h1, hf,
    Option.map_some,
    if_pos (beq_self_eq_true g.id)]

/-! ## Collectives -/

theorem modPacket_eq (s : State) (n : PktName) (f : Packet → Packet) :
    s.modPacket n f = { s with packets := s.packets.map fun y => if y.name = n then f y else y } :=
  congrArg (fun l => { s with packets := l }) (modWhere_key Packet.name n f s.packets)

/-- A collective after a change of its step's record. -/
def holding (s : State) (n : PktName) (f : Coll → Coll) : State :=
  { s with packets := s.packets.map fun y => if y.name = n then { y with coll := y.coll.map f } else y }

theorem modColl_eq (s : State) (n : PktName) (f : Coll → Coll) : s.modColl n f = holding s n f :=
  modPacket_eq s n _

/-- A message that comes before its collective has begun here. -/
theorem early_match {s : State} {n : PktName} {p : Packet} {m : Nat} {msg : List Byte} (hc : s.coll? n = none)
    (hp : s.packet? n = some p) (hk : p.kind = 2) (ho : p.open = true) (he : p.ending = none) (hm : m < p.members)
    (hother : s.isOurs (p.rank m) = false) : Goes (.collMatchReceive n m msg) s (s.sendMatch (keptMsg p.ctx m msg)) := by
  change execCollMatchReceive n m msg s = _
  unfold execCollMatchReceive
  simp only [hc, hp, hk, ho, he, hm, hother, beq_self_eq_true, Option.isNone_none, decide_true, Bool.not_false, Bool.and_self,
    if_true]

/-- A stamp that comes before its pod barrier has begun here. -/
theorem early_stamp {s : State} {n : PktName} {p : Packet} {m : Nat} (hc : s.coll? n = none)
    (hp : s.packet? n = some p) (hk : p.kind = 2) (ho : p.open = true) (he : p.ending = none) (hm : m < p.members)
    (hpod : p.isPod = true) (hnew : ∀ y ∈ s.packets, y.name = n → ∀ e ∈ y.early, e.1 ≠ m) (stamp : Nat) :
    Goes (.podArrivalReceive n m stamp) s { s with
      packets := s.packets.map fun y => if y.name = n then { y with early := y.early ++ [(m, stamp)] } else y } := by
  change execPodArrivalReceive n m stamp s = _
  unfold execPodArrivalReceive
  simp only [hc, hp, hk, ho, he, hm, hpod, beq_self_eq_true, Option.isNone_none, decide_true, Bool.and_self, if_true,
    modPacket_eq]
  refine congrArg (fun l => Host.Outcome.next { s with packets := l }) (List.map_congr_left fun y hy => ?_)
  split
  · rename_i hn
    unfold Packet.keepStamp
    rw [if_neg]
    intro hany
    obtain ⟨e, he, heq⟩ := List.any_eq_true.mp hany
    exact hnew y hy hn e he (beq_iff_eq.mp heq)
  · rfl

section
variable {s : State} {n : PktName} {p : Packet} {c : Coll}

/-- The release instant that a pod barrier's stamps give. -/
def releaseTick (stamps : List (Nat × Nat)) : Nat := (stamps.map (·.2)).foldl max 0 + 4096

/-- The message is the one that the member sent, or the member is of another package. -/
def Honest (s : State) (p : Packet) (number m : Nat) (msg : List Byte) : Prop :=
  (∀ sent, s.sentMatch? p number m = some sent → msg = sent) ∧ (s.sentMatch? p number m = none → s.isOurs (p.rank m) = false)

/-- The message that a member's own names. -/
def sameMessage (p : Packet) (c : Coll) (m : Nat) (msg : List Byte) : Prop :=
  withoutMe msg = withoutMe (p.matchMsg c) ∧ msg.getD 11 0 = BitVec.ofNat 8 m

theorem differs_of_not_same {p : Packet} {c : Coll} {m : Nat} {msg : List Byte} (h : ¬ sameMessage p c m msg) :
    (withoutMe msg != withoutMe (p.matchMsg c) || msg.getD 11 0 != BitVec.ofNat 8 m) = true := by
  rw [Bool.or_eq_true, bne_iff_ne, bne_iff_ne]
  exact Decidable.not_and_iff_not_or_not.mp h

theorem differs_of_same {p : Packet} {c : Coll} {m : Nat} {msg : List Byte} (h : sameMessage p c m msg) :
    (withoutMe msg != withoutMe (p.matchMsg c) || msg.getD 11 0 != BitVec.ofNat 8 m) = false := by
  rw [h.1, h.2, bne_self_eq_false, bne_self_eq_false, Bool.or_self]

section
variable {m : Nat} {msg : List Byte} (hc : s.coll? n = some (p, c)) (hrun : c.running = false) (hm : m ∉ c.matched)
  (hlt : m < p.members) (hnum : natOfBytes (msg.take 8) = c.number) (hh : Honest s p c.number m msg)
include hc hrun hm hlt hnum hh

/-- A match that may be looked at. -/
theorem exec_match : exec (.collMatchReceive n m msg) s =
    .next (if withoutMe msg != withoutMe (p.matchMsg c) || msg.getD 11 0 != BitVec.ofNat 8 m then s.collMismatch p c
      else if c.matched.length + 1 == p.members && !p.isPod then
        ((holding s p.name fun c' => { c' with matched := c'.matched ++ [m], running := c.matched.length + 1 == p.members }).collStart
          p c 0).getD s
      else holding s p.name fun c' => { c' with matched := c'.matched ++ [m], running := c.matched.length + 1 == p.members }) := by
  change execCollMatchReceive n m msg s = _
  unfold execCollMatchReceive
  have hin : c.matched.contains m = false := by
    rw [← Bool.not_eq_true, List.contains_iff_mem]
    exact hm
  have hle : decide (p.members ≤ m) = false := decide_eq_false (Nat.not_le.mpr hlt)
  have hnum' : (natOfBytes (msg.take 8) != c.number) = false := by rw [hnum, bne_self_eq_false]
  obtain ⟨hsent, hnone⟩ := hh
  cases e : s.sentMatch? p c.number m with
  | some sent =>
    obtain rfl := hsent sent e
    simp only [hc, hrun, hin, hle, hnum', e, beq_self_eq_true, Bool.not_true, Bool.or_self, Bool.false_eq_true, if_false,
      modColl_eq]
  | none =>
    simp only [hc, hrun, hin, hle, hnum', e, hnone e, Bool.not_false, Bool.not_true, Bool.or_self, Bool.false_eq_true,
      if_false, modColl_eq]

theorem match_differs (h : ¬ sameMessage p c m msg) : Goes (.collMatchReceive n m msg) s (s.collMismatch p c) := by
  unfold Goes
  rw [exec_match hc hrun hm hlt hnum hh, if_pos (differs_of_not_same h)]

theorem match_kept (h : sameMessage p c m msg) (hmore : c.matched.length + 1 < p.members) :
    Goes (.collMatchReceive n m msg) s (holding s p.name fun c => { c with matched := c.matched ++ [m], running := false }) := by
  have hall : (c.matched.length + 1 == p.members) = false := beq_eq_false_iff_ne.mpr (Nat.ne_of_lt hmore)
  unfold Goes
  simp only [exec_match hc hrun hm hlt hnum hh, differs_of_same h, hall, Bool.false_and, Bool.false_eq_true, if_false]

theorem match_starts {u : State} (h : sameMessage p c m msg) (hlast : c.matched.length + 1 = p.members) (hpod : p.isPod = false)
    (hu : (holding s p.name fun c => { c with matched := c.matched ++ [m], running := true }).collStart p c 0 = some u) :
    Goes (.collMatchReceive n m msg) s u := by
  have hall : (c.matched.length + 1 == p.members) = true := beq_iff_eq.mpr hlast
  unfold Goes
  simp only [exec_match hc hrun hm hlt hnum hh, differs_of_same h, hall, hpod, Bool.not_false, Bool.and_self,
    Bool.false_eq_true, if_false,
    if_true, hu, Option.getD_some]

end

variable (hc : s.coll? n = some (p, c))
include hc

theorem collTimeout_ends {u : State} (hl : s.collLate p c = true) (hu : s.completePacket p { state := 5 } = some u) :
    Goes (.collTimeout n) s u := by
  change execCollTimeout n s = _
  unfold execCollTimeout
  simp only [hc, hl, if_true, State.endPacket_of_completes hu]

theorem collTimeout_stays (hl : s.collLate p c = false) : Stays (.collTimeout n) s := by
  change execCollTimeout n s = _
  unfold execCollTimeout
  simp only [hc, hl, Bool.false_eq_true, if_false]

theorem collStep_stays {k : Nat} (h : c.running = false ∨ c.step ≠ k
  ∨ s.collDone p c = false) : Stays (.collStepComplete n k) s := by
  have hno : (!c.running || p.isPod || c.step != k || !s.collDone p c) = true := by
    rw [Bool.or_eq_true, Bool.or_eq_true, Bool.or_eq_true, bne_iff_ne, Bool.not_eq_true', Bool.not_eq_true']
    tauto
  change execCollStepComplete n k s = _
  unfold execCollStepComplete
  simp only [hc, hno, if_true]

theorem collStep_ends {u w t : State} (hrun : c.running = true) (hpod : p.isPod = false) (hd : s.collDone p c = true)
    (hlast : c.step + 1 = c.steps) (hu : s.collCombine p c = .ok u)
    (hw : u.feStore p.ctx (p.flagBase + 8 * c.step) (bytesOfNat 8 c.number) = .ok w)
    (ht : w.completePacket p { state := 1 } = some t) : Goes (.collStepComplete n c.step) s t := by
  change execCollStepComplete n c.step s = _
  unfold execCollStepComplete
  simp only [hc, hrun, hpod, hd, bne_self_eq_false, Bool.not_true, Bool.or_self, Bool.false_eq_true, if_false, hu, hw,
    show ¬ c.step + 1 < c.steps from hlast.not_lt, State.endPacket_of_completes ht]

/-! ## Pod barriers -/

theorem podArrival_goes {m stamp : Nat} (hpod : p.isPod = true) (hlt : m < p.members) (hnew : ∀ e ∈ c.stamps, e.1 ≠ m) :
    Goes (.podArrivalReceive n m stamp) s (holding s p.name fun c' =>
      if (c.stamps ++ [(m, stamp)]).length = p.members then
        { c' with stamps := c.stamps ++ [(m, stamp)], release := some (releaseTick (c.stamps ++ [(m, stamp)])),
                  late := decide (releaseTick (c.stamps ++ [(m, stamp)]) < s.ticks + 256) }
      else { c' with stamps := c.stamps ++ [(m, stamp)] }) := by
  have hany : c.stamps.any (fun e => e.1 == m) = false := List.any_eq_false.mpr fun e he => by
    rw [beq_iff_eq]
    exact hnew e he
  change execPodArrivalReceive n m stamp s = _
  unfold execPodArrivalReceive
  simp only [hc, hpod, hany, decide_eq_false (Nat.not_le.mpr hlt), Bool.not_true, Bool.or_self, Bool.false_eq_true, if_false,
    modColl_eq,
    beq_iff_eq]
  rfl

theorem podRelease_stays {r : Nat} (hr : c.release = some r) (h : s.ticks < r
  ∨ s.collGone p = true) : Stays (.podBarrierRelease n) s := by
  have hno : (!p.isPod || !c.running || decide (s.ticks < r) || s.collGone p) = true := by
    rw [Bool.or_eq_true, Bool.or_eq_true, Bool.or_eq_true, decide_eq_true_eq]
    tauto
  change execPodBarrierRelease n s = _
  unfold execPodBarrierRelease
  simp only [hc, hr, hno, if_true]

theorem podRelease_goes {r : Nat} {u w : State} (hr : c.release = some r) (hle : r ≤ s.ticks) (hpod : p.isPod = true)
    (hrun : c.running = true) (hg : s.collGone p = false) (hu : s.feStore p.ctx p.flagBase (bytesOfNat 8 c.number) = .ok u)
    (hw : u.completePacket p { state := 1 } = some w) :
    Answers (exec (.podBarrierRelease n) s) fun t => t.mem = w.mem ∧ t.pods = w.pods ++ [
      { pkt := p.name, ctx := p.ctx, flag := p.flagBase, release := r, stagger := p.stagger, filed := [] }] := by
  change Answers (execPodBarrierRelease n s) _
  unfold execPodBarrierRelease
  simp only [hc, hr, hpod, hrun, hg, decide_eq_false (Nat.not_lt.mpr hle), Bool.not_true, Bool.or_self, Bool.false_eq_true,
    if_false, hu,
    State.endPacket_of_completes hw]
  split
  · exact ⟨_, rfl, (State.countLateBar_keeps w).1, congrArg (· ++ _) (State.countLateBar_keeps w).2⟩
  · exact ⟨_, rfl, rfl, rfl⟩

end

/-- A core group filed for a pod barrier. -/
def filing (n : PktName) (k : Nat) (d : Pod) : Pod := if d.pkt == n then { d with filed := d.filed ++ [k] } else d

/-- A pod barrier keeps its entry until all of its core groups are filed. -/
theorem find?_filed {n : PktName} {k : Nat} {d : Pod} (l : List Pod) (hf : l.find? (fun d => d.pkt == n) = some d)
    (hlen : d.filed.length < 15) :
    ((l.map (filing n k)).filter fun d => decide (d.filed.length < podGroups)).find? (fun d => d.pkt == n) =
      some { d with filed := d.filed ++ [k] } := by
  induction l with
  | nil => nomatch hf
  | cons x l ih =>
    cases hx : x.pkt == n with
    | true =>
      rw [List.find?_cons, hx] at hf
      obtain rfl : x = d := Option.some.inj hf
      have hshort : decide ((x.filed ++ [k]).length < podGroups) = true := by
        rw [List.length_append, decide_eq_true_eq]
        exact Nat.succ_lt_succ hlen
      rw [List.map_cons, filing, if_pos hx, List.filter_cons, if_pos hshort, List.find?_cons]
      simp only [hx]
    | false =>
      rw [List.find?_cons, hx] at hf
      rw [List.map_cons, filing, if_neg (Bool.eq_false_iff.mp hx), List.filter_cons]
      split
      · rw [List.find?_cons, hx]
        exact ih hf
      · exact ih hf

section
variable {s : State} {n : PktName} {d : Pod} {k : Nat} (hf : s.pods.find? (fun d => d.pkt == n) = some d)
include hf

theorem podGroup_stays (h : 16 ≤ k ∨ k ∈ d.filed ∨ s.ticks < d.release + k * d.stagger) : Stays (.podGroupFile n k) s := by
  have hno : (decide (podGroups ≤ k) || d.filed.contains k || decide (s.ticks < d.release + k * d.stagger)) = true := by
    rw [Bool.or_eq_true, Bool.or_eq_true, decide_eq_true_eq, decide_eq_true_eq, List.contains_iff_mem, or_assoc]
    exact h
  change execPodGroupFile n k s = _
  unfold execPodGroupFile
  simp only [hf, hno, if_true]

theorem podGroup_files (hk : k < 16) (hnew : k ∉ d.filed) (hdue : d.release + k * d.stagger ≤ s.ticks) (hlen : d.filed.length < 15) :
    Answers (exec (.podGroupFile n k) s) fun t =>
      ∃ d', t.pods.find? (fun d => d.pkt == n) = some d' ∧ d'.filed = d.filed ++ [k] := by
  have hgo : (decide (podGroups ≤ k) || d.filed.contains k || decide (s.ticks < d.release + k * d.stagger)) = false := by
    rw [Bool.or_eq_false_iff, Bool.or_eq_false_iff, decide_eq_false_iff_not, decide_eq_false_iff_not, ← Bool.not_eq_true,
      List.contains_iff_mem]
    exact ⟨⟨Nat.not_le.mpr hk, hnew⟩, Nat.not_lt.mpr hdue⟩
  change Answers (execPodGroupFile n k s) _
  unfold execPodGroupFile
  simp only [hf, hgo, Bool.false_eq_true, if_false]
  refine ⟨_, rfl, { d with filed := d.filed ++ [k] }, ?_, rfl⟩
  have hpods : ((s.podTeams d k).foldl (fun s t => s.endWaits t (s.podOver d t)) s).pods = s.pods :=
    List.foldlRecOn (motive := fun u : State => u.pods = s.pods) _ _ rfl fun _ h _ _ => (State.endWaits_pods ..).trans h
  change ((List.map _ (State.pods _)).filter _).find? _ = _
  rw [hpods]
  exact find?_filed s.pods hf hlen

end

/-- Settles O51: each event is its function's branch for the case; an applied segment moves its order's number on,
  a NAK's eighth failure is
the teardown, and a pod barrier's groups are filed in its entry. -/
theorem linkEvents : Obligations.LinkEvents := by
  unfold Obligations.LinkEvents
  intro s
  refine ⟨fun n g flips h => ⟨⟨fun hd => data_stays h (not_due hd), fun hk hr => ⟨fun hc => data_lags h (due hk hr) hc,
      fun hc => data_bad h (due hk hr) hc, fun bs u hc ha => data_applies h (due hk hr) hc ha⟩⟩,
    ⟨fun hd => refresh_stays h (not_due hd), fun hk hr => ⟨fun hc => refresh_lags h (due hk hr) hc,
      fun hc => refresh_bad h (due hk hr) hc, fun bs u hc ha => refresh_applies h (due hk hr) hc ha⟩⟩⟩,
    fun g bs hcoll hmove hf hk hr hc => plain_segment_over hcoll hmove hf hk hr hc,
    fun nak hf => nak_unknown hf,
    fun g hf => ⟨nak_stays hf, nak_teardown hf, nak_refreshes hf⟩,
    fun n => flitReplay_stays s n,
    fun n p m msg hc hp hk ho he hm => ⟨early_match hc hp hk ho he hm,
      fun hpod hnew stamp => early_stamp hc hp hk ho he hm hpod hnew stamp⟩,
    fun n p c hc => ⟨fun m msg hrun hm hlt hnum hh => ?_, fun u => collTimeout_ends hc, collTimeout_stays hc,
      fun k => collStep_stays hc,
      fun u w t => collStep_ends hc, fun m stamp => podArrival_goes hc, fun r => podRelease_stays hc,
      fun r u w => podRelease_goes hc⟩,
    fun n d k hf => ⟨podGroup_stays hf, podGroup_files hf⟩⟩
  have honest : Honest s p c.number m msg := ⟨fun sent e => by rw [e] at hh; exact hh, fun e => by rw [e] at hh; exact hh⟩
  exact ⟨match_differs hc hrun hm hlt hnum honest, match_kept hc hrun hm hlt hnum honest,
    fun h hl hp u => match_starts hc hrun hm hlt hnum honest h hl hp⟩

end Sys2Proof.Claims
end

section
/-! SUPPORT. Seats: teams that are saved. -/

namespace Sys2Proof.Machine
open Sys2Proof Sys2Proof.Claims

/-! ## Saved teams -/

/-- Where a team's place is: its core, and whether it is there or saved. -/
def Team.seat (t : Team) : Nat × Place2 := (t.core, t.place)

/-- The seat of the team of a key. -/
def State.seat? (s : State) (k : TeamKey) : Option (Nat × Place2) := (s.team? k).map Team.seat

theorem State.seat_congr {s t : State} (h : t.teams = s.teams) (k : TeamKey) : t.seat? k = s.seat? k := by
  unfold State.seat? State.team?
  rw [h]

theorem Settled.seat? {s t : State} (h : Settled s t) (k : TeamKey) : t.seat? k = s.seat? k := by
  have e : Team.seat = Team.seat ∘ Team.home := rfl
  unfold State.seat?
  rw [e, ← Option.map_map, ← Option.map_map, h.team? k]

theorem State.wakeCopies_settled (s : State) (core : Nat) : Settled s (s.wakeCopies core) := by
  unfold State.wakeCopies
  exact (Settled.foldl _ (fun _ _ => State.release_settled ..) _ s).trans (State.wake_settled _)

/-- A change of the team of a key, seen from any key. -/
theorem State.seat_modTeam (s : State) (k k' : TeamKey) (f : Team → Team) (g : Nat × Place2 → Nat × Place2)
    (hkey : ∀ t, (f t).key = t.key) (hf : ∀ t, (f t).seat = g t.seat) :
    (s.modTeam k f).seat? k' = (s.seat? k').map fun x => if k' = k then g x else x := by
  unfold State.seat?
  rw [State.team?_modTeam s k k' f hkey]
  by_cases h : k' = k
  · simp only [h, if_true, Option.map_map, Function.comp_def, hf]
  · simp only [h, if_false, Option.map_id_fun', id_eq]

/-- A team that is saved. -/
theorem State.saveTeam_seat {s : State} {k : TeamKey} {t : Team} (ht : s.team? k = some t) (held swapped : Bool) (k' : TeamKey) :
    (s.saveTeam k held swapped).seat? k' =
      (s.seat? k').map fun x => if k' = k then (x.1, .saved (dieOf x.1) held swapped) else x := by
  unfold State.saveTeam
  simp -zeta only [ht]
  extract_lets s1 lead p s2 s3 s4 s5 s6 s7
  have h2 : s2.seat? k' = s.seat? k' :=
    ((Settled.foldl _ (fun s b => Settled.foldl _ (fun _ _ => .modThread ..) _ s) _ s1).seat? k').trans
      (((State.flushTeam_settled s k).trans (State.drain_settled _ k)).seat? k')
  have h3 : s3.seat? k' = (s.seat? k').map fun x => if k' = k then (x.1, .saved (dieOf x.1) held swapped) else x := by
    rw [← h2]
    exact State.seat_modTeam s2 k k' _ (fun x => (x.1, .saved (dieOf x.1) held swapped)) (fun _ => rfl) fun _ => rfl
  have h4 : s4.seat? k' = s3.seat? k' := by
    clear_value s3 lead
    unfold s4
    split
    · exact State.seat_congr rfl k'
    · rfl
  have h7 : s7.seat? k' = s4.seat? k' := State.seat_congr (s := s4) (t := s7) rfl k'
  have h8 : (s7.trimMonitor t.core).seat? k' = s7.seat? k' := State.seat_congr (s := s7) (t := s7.trimMonitor t.core) rfl k'
  exact ((State.wakeCopies_settled ..).seat? k').trans (h8.trans (h7.trans (h4.trans h3)))

/-- Teams that are saved one after another. -/
theorem State.saveTeams_seat (held swapped : Bool) (ts : List Team) : ∀ {s : State}, (∀ T ∈ ts, (s.seat? T.key).isSome) → ∀ k,
    (ts.foldl (fun s t => s.saveTeam t.key held swapped) s).seat? k =
      (s.seat? k).map fun x => if k ∈ ts.map Team.key then (x.1, .saved (dieOf x.1) held swapped) else x := by
  induction ts with
  | nil =>
    intro s _ k
    simp only [List.foldl_nil, List.map_nil, List.not_mem_nil, if_false, Option.map_id_fun', id_eq]
  | cons T ts ih =>
    intro s h k
    obtain ⟨t, ht⟩ := Option.isSome_iff_exists.mp (Option.isSome_map.symm.trans (h T List.mem_cons_self))
    have hsave := State.saveTeam_seat ht held swapped
    rw [List.foldl_cons, ih (fun U hU => by rw [hsave, Option.isSome_map]; exact h U (List.mem_cons_of_mem _ hU)), hsave,
      Option.map_map]
    congr 1
    funext x
    simp only [Function.comp, List.map_cons, List.mem_cons]
    by_cases h1 : k = T.key
    · simp only [h1, if_true, true_or, ite_self]
    · simp only [h1, if_false, false_or]

end Sys2Proof.Machine
end

section
/-! SUPPORT. PreemptClaims. -/

namespace Sys2Proof.Claims
open Sys2Proof Sys2Proof.Machine

/-! ## Pre-emption -/

theorem preempt_write (s : State) (v : W64) :
    let ctx := (v.extractLsb' 48 6).toNat
    let n := (v.extractLsb' 9 9).toNat
    let first := (v.extractLsb' 0 9).toNat
    let good := s.vacate = none ∧ 1 ≤ n ∧ first + n ≤ 320
    let fields : W64 := v &&& 0x403F00000003FFFF
    (good → v.getLsbD 63 = true → Goes (.preemptVacate v) s { s with
        preempt := fields, vacate := some { ctx := ctx, first := first, count := n, hold := v.getLsbD 62 } })
      ∧ (good → v.getLsbD 63 = false → Goes (.preemptVacate v) s { s with preempt := fields })
      ∧ (¬ good → Stays (.preemptVacate v) s) := by
  intro ctx n first good fields
  have hiff : good ↔
    ¬ (s.vacate.isSome || preemptCount v == 0 || decide (coreCount < preemptFirst v + preemptCount v)) = true := by
    rw [Bool.or_eq_true, Bool.or_eq_true, beq_iff_eq, decide_eq_true_eq, not_or, not_or, Bool.not_eq_true,
      Option.isSome_eq_false_iff,
      Option.isNone_iff_eq_none, Nat.not_lt, and_assoc, ← ne_eq, ← Nat.one_le_iff_ne_zero]
    exact Iff.rfl
  change (_ → _ → execPreemptVacate v s = _) ∧ (_ → _ → execPreemptVacate v s = _) ∧ (_ → execPreemptVacate v s = _)
  unfold execPreemptVacate
  refine ⟨fun h hv => ?_, fun h hv => ?_, fun h => ?_⟩
  · rw [if_neg (hiff.mp h), if_pos hv]
    rfl
  · rw [if_neg (hiff.mp h), if_neg (Bool.eq_false_iff.mp hv)]
    rfl
  · rw [if_pos (not_not.mp (mt hiff.mpr h))]

theorem preempt_done {s : State} {x : Vacate} (hx : s.vacate = some x) :
    let out (T : Team) : Prop := T ∈ s.teams ∧ T.isResident = true ∧ s.vacating T = true
    ((∃ T, out T ∧ s.quiet T = false) → Stays .preemptDone s)
      ∧ ((∀ T, out T → s.quiet T = true) → Answers (exec .preemptDone s) fun t => t.vacate = none
        ∧ ∀ T, out T → ∃ T', t.team? T.key = some T' ∧ T'.place = .saved (dieOf T'.core) x.hold false) := by
  intro out
  have hmem : ∀ T, T ∈ s.teams.filter (fun t => t.isResident && s.vacating t) ↔ out T := fun T => by
    rw [List.mem_filter, Bool.and_eq_true]
  change (_ → execPreemptDone s = _) ∧ (_ → Answers (execPreemptDone s) _)
  unfold execPreemptDone
  simp only [hx]
  refine ⟨fun ⟨T, hT, hq⟩ => ?_, fun h => ?_⟩
  · rw [if_neg fun hall => Bool.eq_false_iff.mp hq (List.all_eq_true.mp hall T ((hmem T).mpr hT))]
  · rw [if_pos (List.all_eq_true.mpr fun T hT => h T ((hmem T).mp hT))]
    refine ⟨_, rfl, rfl, fun T hT => ?_⟩
    have hkey : ∀ U ∈ (s.teams.filter fun t => t.isResident && s.vacating t).reverse, (s.seat? U.key).isSome := fun U hU => by
      have hin := ((hmem U).mp (List.mem_reverse.mp hU)).1
      rw [State.seat?, Option.isSome_map, State.team?, List.find?_isSome]
      exact ⟨U, hin, beq_self_eq_true U.key⟩
    obtain ⟨y, hy⟩ := Option.isSome_iff_exists.mp (hkey T (List.mem_reverse.mpr ((hmem T).mpr hT)))
    have hsaved := State.saveTeams_seat x.hold false _ hkey T.key
    rw [hy, Option.map_some, if_pos (List.mem_map_of_mem (List.mem_reverse.mpr ((hmem T).mpr hT)))] at hsaved
    have hend : ∀ u w : State, u.seat? T.key = some (y.1, .saved (dieOf y.1) x.hold false) → w.teams = u.teams →
        ∃ T', w.team? T.key = some T' ∧ T'.place = .saved (dieOf T'.core) x.hold false := fun u w hu hw => by
      rw [← State.seat_congr hw] at hu
      obtain ⟨T', hT', hs⟩ := Option.map_eq_some_iff.mp hu
      obtain ⟨hc, hp⟩ := Prod.mk.inj hs
      exact ⟨T', hT', by rw [hp, hc]⟩
    exact hend _ _ hsaved (State.loseCores_frame _ _).teams

end Sys2Proof.Claims
end

section
/-! SUPPORT. CoreCalls: walker threads of CORECALL. -/

namespace Sys2Proof.Machine
open Sys2Proof Sys2Proof.Claims

/-! ## Walker threads of CORECALL -/

theorem callCore_callFields (v : W64) : callCore (callFields v) = callCore v := by
  unfold callCore callFields
  rw [BitVec.extractLsb'_and, show (0x1FFFFFFFFFFFFFF8 : W64).extractLsb' 52 9 = BitVec.allOnes 9 from rfl, BitVec.and_allOnes]

theorem callEntry_callFields (v : W64) : callEntry (callFields v) = callEntry v := by
  unfold callEntry callFields
  rw [BitVec.extractLsb'_and, show (0x1FFFFFFFFFFFFFF8 : W64).extractLsb' 3 49 = BitVec.allOnes 49 from rfl, BitVec.and_allOnes]

/-- A walker's team begins with one thread at the entry. -/
theorem State.startWalker_team (s : State) (core slot entry : Nat) (what : WalkFor) :
    ∃ T x, T ∈ (s.startWalker core slot entry what []).teams ∧ T.key = .walker core slot ∧ T.core = core ∧ T.threads = [x]
      ∧ x.pc = entry ∧ x.regs = [] ∧ x.preds = 0 := by
  let start : Team := (Team.start (.walker core slot) core 0 0 0 0 (.walker entry) []).modThread 0 fun x => { x with regs := [] }
  let begun : Team := { start.modThread 0 (fun x => { x with stat := .running, clause := none }) with parkedSince := none }
  refine ⟨begun, { Thread.start 0 entry with regs := [] }, ?_, rfl, rfl, rfl, rfl, rfl, rfl⟩
  have hmk : (s.startWalker core slot entry what []).teams =
      modWhere (fun t => t.key == .walker core slot) (fun t => { t with parkedSince := none })
        (modWhere (fun t => t.key == .walker core slot) (fun t : Team => t.modThread 0 fun x => { x with stat := .running, clause := none })
          (s.teams ++ [start])) := rfl
  rw [hmk]
  unfold modWhere
  rw [List.map_map]
  refine List.mem_map.mpr ⟨start, List.mem_append_right _ List.mem_cons_self, ?_⟩
  have hkey : ∀ t : Team, t.key = .walker core slot → (t.key == TeamKey.walker core slot) = true := fun _ h => beq_iff_eq.mpr h
  rw [Function.comp, if_pos (hkey start rfl), if_pos (hkey (start.modThread 0 _) rfl)]

end Sys2Proof.Machine
end

section
/-! SUPPORT. ResumeClaims: CTXRESUME, CORECALL and an attaching debugger. -/

namespace Sys2Proof.Claims
open Sys2Proof Sys2Proof.Machine

/-! ## CTXRESUME and CORECALL -/

/-- A team of the context that is held saved. -/
def HeldOf (ctx : Nat) (T : Team) : Prop := T.key.ctx? = some ctx ∧ ∃ d w, T.place = .saved d true w

theorem ctxresume_frees (s : State) (v : W64) :
    let ctx := (v.extractLsb' 0 6).toNat
    ((∀ T ∈ s.teams, ¬ HeldOf ctx T) → Stays (.ctxresume v) s)
      ∧ ((∃ T ∈ s.teams, HeldOf ctx T) → Answers (exec (.ctxresume v) s) fun t => (∀ T ∈ t.teams, ¬ HeldOf ctx T)
        ∧ t.teams.map (·.key) = s.teams.map (·.key) ∧ t.bundles = s.bundles) := by
  intro ctx
  change (_ → execCtxresume v s = _) ∧ (_ → Answers (execCtxresume v s) _)
  unfold execCtxresume
  extract_lets held ls s'
  have hiff : ∀ T : Team, held T = true ↔ HeldOf ctx T := fun T => by
    unfold held HeldOf
    rw [Bool.and_eq_true, beq_iff_eq]
    refine and_congr Iff.rfl ?_
    cases T.place with
    | resident => exact ⟨nofun, fun ⟨_, _, e⟩ => nomatch e⟩
    | saved d h w => exact ⟨fun e => ⟨d, w, by rw [show h = true from e]⟩, fun ⟨_, _, e⟩ => (Place2.saved.inj e).2.1⟩
  refine ⟨fun h => ?_, fun ⟨T, hT, hh⟩ => ?_⟩
  · rw [if_neg fun hany => ?_]
    obtain ⟨T, hT, hh⟩ := List.any_eq_true.mp hany
    exact h T hT ((hiff T).mp hh)
  · rw [if_pos (List.any_eq_true.mpr ⟨T, hT, (hiff T).mpr hh⟩)]
    have hframe := (State.endReservations_frame s').frame
    refine ⟨_, rfl, fun U hU => ?_, ?_, by rw [hframe]⟩
    · rw [show s'.endReservations.teams = s'.teams by rw [hframe]] at hU
      obtain ⟨W, hW, rfl⟩ := List.mem_map.mp hU
      by_cases hW : held W
      · rw [if_pos hW]
        rintro ⟨-, d, w, hp⟩
        change (match W.place with | .saved d _ w => Place2.saved d false w | .resident => .resident) = _ at hp
        cases e : W.place with
        | resident => rw [e] at hp; nomatch hp
        | saved d' h' w' => rw [e] at hp; nomatch hp
      · rw [if_neg hW]
        exact fun h => hW ((hiff W).mpr h)
    · rw [show s'.endReservations.teams = s'.teams by rw [hframe]]
      refine (List.map_map ..).trans (List.map_congr_left fun W _ => ?_)
      simp only [Function.comp]
      split <;> rfl

theorem corecall_calls (s : State) (v : W64) :
    let core := (v.extractLsb' 52 9).toNat
    let fields : W64 := v &&& 0x1FFFFFFFFFFFFFF8
    (s.callBusy = true ∨ 320 ≤ core → Stays (.corecall v) s)
      ∧ (s.callBusy = false → core < 320 → v.getLsbD 63 = false → Goes (.corecall v) s { s with call := fields })
      ∧ (s.callBusy = false → core < 320 → v.getLsbD 63 = true → s.freeWalker core = none →
        Goes (.corecall v) s { s with call := fields, callBusy := true })
      ∧ (∀ slot, s.callBusy = false → core < 320 → v.getLsbD 63 = true → s.freeWalker core = some slot →
        (∀ w ∈ (s.core core).walks, w.what ≠ .call) →
        Answers (exec (.corecall v) s) fun t => t.callBusy = true ∧ t.call = fields
          ∧ ∃ T x, T ∈ t.teams ∧ T.key = .walker core slot ∧ T.core = core ∧ T.threads = [x]
            ∧ x.pc = (v.extractLsb' 3 49).toNat * 8 ∧ x.regs = [] ∧ x.preds = 0) := by
  intro core fields
  have hgo : s.callBusy = false → core < 320 → (s.callBusy || decide (coreCount ≤ callCore v)) = false := fun hb hc => by
    rw [hb, Bool.false_or]
    exact decide_eq_false (Nat.not_le.mpr hc)
  let begun : State := { s with call := callFields v, callBusy := true }
  have hcore : callCore begun.call = core := callCore_callFields v
  have hcall : s.callBusy = false → core < 320 → v.getLsbD 63 = true →
    execCorecall v s = .next begun.startCall := fun hb hc hv => by
    unfold execCorecall
    rw [if_neg (Bool.eq_false_iff.mp (hgo hb hc)), if_pos hv]
  change (_ → execCorecall v s = _) ∧ (_ → _ → _ → execCorecall v s = _) ∧ (_ → _ → _ → _ → execCorecall v s = _)
    ∧ ∀ slot, _ → _ → _ → _ → _ → Answers (execCorecall v s) _
  refine ⟨fun h => ?_, fun hb hc hv => ?_, fun hb hc hv hf => ?_, fun slot hb hc hv hf hw => ?_⟩
  · unfold execCorecall
    rw [if_pos]
    rw [Bool.or_eq_true, decide_eq_true_eq]
    exact h
  · unfold execCorecall
    rw [if_neg (Bool.eq_false_iff.mp (hgo hb hc)), if_neg (Bool.eq_false_iff.mp hv)]
    rfl
  · rw [hcall hb hc hv]
    unfold State.startCall
    simp only [hcore, show begun.freeWalker core = none from hf, ite_self]
    rfl
  · rw [hcall hb hc hv]
    have hnone : ((begun.core core).walks.any fun w => w.what == WalkFor.call) = false := List.any_eq_false.mpr fun w hw' => by
      rw [beq_iff_eq]
      exact hw w hw'
    unfold State.startCall
    simp only [hcore, hnone, show begun.callBusy = true from rfl, Bool.not_true, Bool.or_self, Bool.false_eq_true, if_false,
      show begun.freeWalker core = some slot from hf]
    refine ⟨_, rfl, rfl, rfl, ?_⟩
    have h := State.startWalker_team begun core slot (callEntry begun.call) .call
    obtain ⟨T, x, hT, hk, hcore, hx, hpc, hrest⟩ := h
    exact ⟨T, x, hT, hk, hcore, hx, hpc.trans (callEntry_callFields v), hrest⟩

/-! ## DBGATTACH -/

theorem debugAttach_goes (s : State) {ctx : Nat} (h : ctx < 64) :
    Goes (.debugAttach ctx) s { s with ctxs := sset .fresh s.ctxs ctx { s.ctx ctx with debug := true } } := by
  change execDebugAttach ctx s = _
  unfold execDebugAttach
  rw [if_neg (show ¬ ctxCount ≤ ctx from Nat.not_le.mpr h)]
  rfl

end Sys2Proof.Claims
end

section
/-! SUPPORT. Holds: launches that a debugger holds, and that go on. -/

namespace Sys2Proof.Machine
open Sys2Proof Sys2Proof.Claims

/-! ## Launches that go on -/

/-- A launch's id, and whether a debugger holds it. -/
def Launch.hold (l : Launch) : Nat × Nat × Bool := (l.ctx, l.id, l.stopped)

/-- What a resumption of a launch makes of a launch's hold. -/
def resumed (ctx : Nat) (ids : List Nat) (x : Nat × Nat × Bool) : Nat × Nat × Bool :=
  if x.1 = ctx ∧ x.2.1 ∈ ids then (x.1, x.2.1, false) else x

theorem Settled.holds {s t : State} (h : Settled s t) : t.launches.map Launch.hold = s.launches.map Launch.hold := by
  have e : Launch.hold = Launch.hold ∘ Launch.standing := rfl
  rw [e, ← List.map_map, ← List.map_map, h.launches]

theorem State.goOn_settled (s : State) (k : TeamKey) (tids : List Nat) (single : Bool) : Settled s (s.goOn k tids single) := by
  unfold State.goOn
  split
  · exact .refl s
  · extract_lets s1
    have h1 : Settled s s1 := Settled.foldl _ (fun _ _ => .modThread ..) tids s
    split
    · exact h1.trans (State.regroup_settled ..)
    · exact h1.trans (Settled.foldl _ (fun _ _ => .modThread ..) tids s1)

/-- Groups that are dropped are gone, and change nothing but the fault ring. -/
theorem State.dropGroups_spec (gs : List Group) : ∀ s : State,
    let t := gs.foldl (fun s g => s.dropGroup g) s
    t.ctxs = s.ctxs ∧ t.launches = s.launches ∧ ∀ g ∈ t.groups, g ∈ s.groups ∧ ∀ d ∈ gs, g.id ≠ d.id := by
  induction gs with
  | nil => exact fun s => ⟨rfl, rfl, fun g hg => ⟨hg, nofun⟩⟩
  | cons d gs ih =>
    intro s t
    obtain ⟨hc, hl, hg⟩ := ih (s.dropGroup d)
    refine ⟨hc, hl, fun g h => ?_⟩
    obtain ⟨hin, hne⟩ := hg g h
    obtain ⟨hs, hd⟩ := List.mem_filter.mp hin
    exact ⟨hs, List.forall_mem_cons.mpr ⟨bne_iff_ne.mp hd, hne⟩⟩

/-- The threads of a team that go on. -/
def State.resumeTeam (s : State) (t : Team) : State :=
  ((s.modTeam t.key fun t => { t with threads := t.threads.map fun x => { x with stopNext := false } }).goOn t.key t.stoppedTids
    false).settle t.key

theorem State.resumeTeam_settled (s : State) (t : Team) : Settled s (s.resumeTeam t) :=
  ((Settled.modTeam s t.key (fun t => { t with threads := t.threads.map fun x => { x with stopNext := false } }) fun _ => rfl).trans
    (State.goOn_settled ..)).trans (State.settle_settled ..)

/-- A launch that goes on. -/
theorem State.resumeLaunch_spec (s : State) (ctx id : Nat) :
    let t := s.resumeLaunch ctx id
    t.ctxs = s.ctxs ∧ t.launches.map Launch.hold = (s.launches.map Launch.hold).map (resumed ctx [id])
      ∧ ∀ g ∈ t.groups, ¬ (g.ctx = ctx ∧ g.launch = id ∧ g.kind = .stop) := by
  unfold State.resumeLaunch
  extract_lets ts s1 s2 s3 isStop
  have h1 : Settled s s1 := Settled.foldl (fun s t => s.resumeTeam t) State.resumeTeam_settled ts s
  clear_value s1
  have hhold : s3.launches.map Launch.hold = (s.launches.map Launch.hold).map (resumed ctx [id]) := by
    refine Eq.trans ?_ (congrArg (List.map (resumed ctx [id])) h1.holds)
    change (modWhere (fun l => l.ctx == ctx && l.id == id) (fun l => { l with stopped := false }) s1.launches).map Launch.hold = _
    unfold modWhere
    rw [List.map_map, List.map_map]
    refine List.map_congr_left fun l _ => ?_
    simp only [Function.comp, Bool.and_eq_true, beq_iff_eq, resumed, Launch.hold, List.mem_singleton]
    split <;> rfl
  obtain ⟨hc, hl, hg⟩ := State.dropGroups_spec (s3.groups.filter isStop) s3
  refine ⟨hc.trans h1.ctxs, (congrArg (List.map Launch.hold) hl).trans hhold, fun g h => ?_⟩
  obtain ⟨hin, hne⟩ := hg g h
  rintro ⟨hctx, hid, hk⟩
  refine hne g (List.mem_filter.mpr ⟨hin, ?_⟩) rfl
  unfold isStop
  rw [hctx, hid, hk, beq_self_eq_true, beq_self_eq_true]
  rfl

/-- Launches of a context that go on one after another. -/
theorem State.resumeLaunches_spec (ctx : Nat) (ls : List Launch) : ∀ s : State,
    let t := ls.foldl (fun s l => s.resumeLaunch ctx l.id) s
    t.ctxs = s.ctxs ∧ t.launches.map Launch.hold = (s.launches.map Launch.hold).map (resumed ctx (ls.map Launch.id)) := by
  induction ls with
  | nil =>
    refine fun s => ⟨rfl, ?_⟩
    simp only [List.foldl_nil, List.map_nil, List.map_map]
    exact List.map_congr_left fun l _ => by simp only [Function.comp, resumed, List.not_mem_nil, and_false, if_false]
  | cons l ls ih =>
    intro s t
    obtain ⟨hc, hl, -⟩ := State.resumeLaunch_spec s ctx l.id
    obtain ⟨hc', hl'⟩ := ih (s.resumeLaunch ctx l.id)
    refine ⟨hc'.trans hc, hl'.trans ?_⟩
    rw [hl, List.map_map (f := resumed ctx [l.id])]
    refine List.map_congr_left fun x _ => ?_
    simp only [Function.comp, resumed, List.map_cons, List.mem_cons, List.not_mem_nil, or_false]
    by_cases h : x.1 = ctx ∧ x.2.1 = l.id
    · simp only [h, and_self, if_true, true_or, ite_self]
    · have hor : x.1 = ctx ∧ (x.2.1 = l.id ∨ x.2.1 ∈ ls.map Launch.id) ↔ x.1 = ctx ∧ x.2.1 ∈ ls.map Launch.id := by tauto
      simp only [h, if_false, hor]

end Sys2Proof.Machine
end

section
/-! SUPPORT. Stops: teams at which nothing waits, and launches that stop. -/

namespace Sys2Proof.Machine
open Sys2Proof Sys2Proof.Claims

/-! ## Teams at which nothing waits -/

/-- A team no thread of which is parked, and none of which is at the team barrier. -/
def Team.Calm (t : Team) : Prop := t.tbarIn = [] ∧ ∀ x ∈ t.threads, x.parkedAs = none

theorem Thread.parkedAs_ne {x : Thread} (h : x.parkedAs = none) (p : Park) : x.stat ≠ .parked p := fun e => by
  unfold Thread.parkedAs at h
  rw [e] at h
  exact nomatch h

theorem State.release_nil (s : State) (k : TeamKey) (back met : Bool) : s.release k [] back met = s := by
  cases back <;> rfl

theorem filter_none {α : Type} (p : α → Bool) (l : List α) (h : ∀ x ∈ l, p x = false) : l.filter p = [] :=
  List.filter_eq_nil_iff.mpr fun x hx => by rw [h x hx]; exact Bool.false_ne_true

section
variable {s : State} {k : TeamKey} (h : ∀ t, s.team? k = some t → t.Calm)
include h

theorem State.tbarEvent_calm : s.tbarEvent k = s := by
  unfold State.tbarEvent
  cases ht : s.team? k with
  | none => rfl
  | some t =>
    obtain ⟨hin, -⟩ := h t ht
    have hall : (t.liveTids.isEmpty || !t.liveTids.all fun x => t.tbarIn.any fun a => a.1 == x) = true := by
      rw [hin]
      cases t.liveTids <;> rfl
    simp only [hall, if_true]

theorem State.retryHeld_calm : s.retryHeld k = s := by
  have hnone : s.parkedFor k (fun p => p == .quota) = [] := by
    unfold State.parkedFor
    cases ht : s.team? k with
    | none => rfl
    | some t => exact congrArg (List.map _) (filter_none _ _ fun x hx => by rw [(h t ht).2 x hx])
  unfold State.retryHeld
  cases ht : s.team? k with
  | none => rfl
  | some t => simp only [hnone, State.release_nil, ite_self]

theorem State.retryArrive_calm : s.retryArrive k = s := by
  unfold State.retryArrive
  cases ht : s.team? k with
  | none => exact State.release_nil ..
  | some t =>
    refine Eq.trans (congrArg (fun l => s.release k l true false) (congrArg (List.map Thread.tid) (filter_none _ _ fun x hx => ?_)))
      (State.release_nil ..)
    rw [(h t ht).2 x hx]

theorem State.releaseRows_calm : s.releaseRows k = s := by
  unfold State.releaseRows
  cases ht : s.team? k with
  | none => rfl
  | some t =>
    have hmeet : ∀ x ∈ t.threads, x.meetingAt = none := fun x hx => by
      unfold Thread.meetingAt
      split
      · rename_i a lane e
        exact absurd e (Thread.parkedAs_ne ((h t ht).2 x hx) _)
      · rfl
    have hwait : ∀ row, (t.threads.filter fun x => x.row == row).filter (fun x => x.meetingAt.isSome) = [] := fun row =>
      filter_none _ _ fun x hx => by rw [hmeet x (List.mem_filter.mp hx).1]; rfl
    simp only [hwait, List.filter_nil, List.map_nil, State.release_nil, ite_self]
    exact List.foldlRecOn (motive := fun u => u = s) _ _ rfl fun _ hu _ _ => hu

end

theorem State.drawFull_empty {s : State} {k : TeamKey} (h : ∀ t, s.team? k = some t →
  (s.core t.core).bins = []) : s.drawFull k = s := by
  unfold State.drawFull
  cases ht : s.team? k with
  | none => rfl
  | some t => simp only [h t ht, List.filter_nil, List.foldl_nil]

/-- Nothing goes on where nothing waits. -/
theorem State.settle_calm {s : State} {k : TeamKey} (h : ∀ t, s.team? k = some t → t.Calm)
    (hb : ∀ t, s.team? k = some t → (s.core t.core).bins = []) : s.settle k = s := by
  unfold State.settle
  rw [State.tbarEvent_calm h, State.retryHeld_calm h, State.retryArrive_calm h, State.releaseRows_calm h,
    State.drawFull_empty hb]

/-! ## Launches that stop -/

/-- A thread that stops at its bundle's PC. -/
def Thread.stopAt (pc : Nat) (x : Thread) : Thread := { x with stat := .stopped, stopNext := false, pc := pc, clause := none }

/-- A thread that is to stop as a launch's stop marks it. -/
def Thread.markStop (resident : Bool) (x : Thread) : Thread :=
  match x.stat with
  | .running => if resident then { x with stopNext := true } else { x with stat := .stopped, stopNext := false }
  | .binned _ => { x with stopNext := true }
  | .parked _ => { x with stopNext := true }
  | .stopped => x
  | .exited => x
  | .off => x

/-- A change that keeps a thread's id, registers and predicates, parks no thread, and lets none go on that has stopped. -/
structure Thread.Stops (x y : Thread) : Prop where
  tid : y.tid = x.tid
  regs : y.regs = x.regs
  preds : y.preds = x.preds
  calm : x.parkedAs = none → y.parkedAs = none
  stopped : x.stat = .stopped → y.stat = .stopped

theorem Thread.Stops.refl (x : Thread) : x.Stops x := ⟨rfl, rfl, rfl, id, id⟩
theorem Thread.Stops.trans {x y z : Thread} (h : x.Stops y) (h' : y.Stops z) : x.Stops z :=
  ⟨h'.tid.trans h.tid, h'.regs.trans h.regs, h'.preds.trans h.preds, h'.calm ∘ h.calm, h'.stopped ∘ h.stopped⟩

theorem Thread.stopAt_stops (pc : Nat) (x : Thread) : x.Stops (x.stopAt pc) := ⟨rfl, rfl, rfl, fun _ => rfl, fun _ => rfl⟩

theorem Thread.markStop_stops (resident : Bool) (x : Thread) : x.Stops (x.markStop resident) := by
  unfold Thread.markStop
  split
  · split
    · exact ⟨rfl, rfl, rfl, id, id⟩
    · exact ⟨rfl, rfl, rfl, fun _ => rfl, fun _ => rfl⟩
  · exact ⟨rfl, rfl, rfl, id, id⟩
  · exact ⟨rfl, rfl, rfl, id, id⟩
  · exact .refl x
  · exact .refl x
  · exact .refl x

/-- A change of a team's threads, none of which goes on by it. -/
structure Team.Stops (t u : Team) : Prop where
  key : u.key = t.key
  core : u.core = t.core
  tbarIn : u.tbarIn = t.tbarIn
  threads : ∃ f : Thread → Thread, (∀ x : Thread, x.Stops (f x)) ∧ u.threads = t.threads.map f

theorem Team.Stops.refl (t : Team) : t.Stops t := ⟨rfl, rfl, rfl, id, Thread.Stops.refl, (List.map_id _).symm⟩
theorem Team.Stops.trans {t u v : Team} (h : t.Stops u) (h' : u.Stops v) : t.Stops v := by
  obtain ⟨f, hf, e⟩ := h.threads
  obtain ⟨g, hg, e'⟩ := h'.threads
  exact ⟨h'.key.trans h.key, h'.core.trans h.core, h'.tbarIn.trans h.tbarIn, g ∘ f, fun x => (hf x).trans (hg (f x)),
    by rw [e', e, List.map_map]⟩

theorem Team.modThread_stops (t : Team) (j : Nat) (f : Thread → Thread) (hf : ∀ x : Thread,
  x.Stops (f x)) : t.Stops (t.modThread j f) :=
  ⟨rfl, rfl, rfl, fun x => if x.tid == j then f x else x, fun x => by dsimp only; split; exacts [hf x, .refl x], rfl⟩

theorem Team.Stops.calm {t u : Team} (h : t.Stops u) (hc : t.Calm) : u.Calm := by
  obtain ⟨f, hf, e⟩ := h.threads
  refine ⟨h.tbarIn.trans hc.1, fun y hy => ?_⟩
  rw [e] at hy
  obtain ⟨x, hx, rfl⟩ := List.mem_map.mp hy
  exact (hf x).calm (hc.2 x hx)

theorem Team.Stops.thread? {t u : Team} (h : t.Stops u) {j : Nat} {x : Thread} (hx : t.thread? j = some x) :
    ∃ y, u.thread? j = some y ∧ x.Stops y := by
  obtain ⟨f, hf, e⟩ := h.threads
  refine ⟨f x, ?_, hf x⟩
  unfold Team.thread?
  rw [e, find?_of_map f (fun x => x.tid == j) (fun x => x.tid == j) (fun x => by rw [(hf x).tid])]
  exact congrArg (Option.map f) hx

/-- From s to t threads have stopped, and none has gone on. -/
structure Stopping (s t : State) : Prop where
  cores : t.cores = s.cores
  launches : t.launches = s.launches
  teams : ∃ F : Team → Team, (∀ T : Team, T.Stops (F T)) ∧ t.teams = s.teams.map F

theorem Stopping.refl (s : State) : Stopping s s := ⟨rfl, rfl, id, Team.Stops.refl, (List.map_id _).symm⟩
theorem Stopping.trans {s t u : State} (h : Stopping s t) (h' : Stopping t u) : Stopping s u := by
  obtain ⟨f, hf, e⟩ := h.teams
  obtain ⟨g, hg, e'⟩ := h'.teams
  exact ⟨h'.cores.trans h.cores, h'.launches.trans h.launches, g ∘ f, fun x => (hf x).trans (hg (f x)), by rw [e', e,
    List.map_map]⟩
theorem Stopping.foldl {α : Type} (f : State → α → State) (hf : ∀ s x, Stopping s (f s x)) (l : List α) : ∀ s,
  Stopping s (l.foldl f s) := by
  induction l with
  | nil => exact Stopping.refl
  | cons x l ih => exact fun s => (hf s x).trans (ih _)

theorem Stopping.modThread (s : State) (k : TeamKey) (j : Nat) (f : Thread → Thread) (hf : ∀ x : Thread, x.Stops (f x)) :
    Stopping s (s.modThread k j f) :=
  ⟨rfl, rfl, fun t => if t.key == k then t.modThread j f else t,
    fun t => by dsimp only; split; exacts [Team.modThread_stops t j f hf, .refl t], rfl⟩

theorem Stopping.team? {s t : State} (h : Stopping s t) (k : TeamKey) {u : Team} (hu : t.team? k = some u) :
    ∃ T, s.team? k = some T ∧ T.Stops u := by
  obtain ⟨F, hF, e⟩ := h.teams
  unfold State.team? at hu
  rw [e, find?_of_map F (fun t => t.key == k) (fun t => t.key == k) (fun t => by rw [(hF t).key])] at hu
  obtain ⟨T, hT, rfl⟩ := Option.map_eq_some_iff.mp hu
  exact ⟨T, hT, hF T⟩

theorem Stopping.thread? {s t : State} (h : Stopping s t) {k : TeamKey} {j : Nat} {x : Thread} (hx : s.thread? k j = some x) :
    ∃ y, t.thread? k j = some y ∧ x.Stops y := by
  obtain ⟨F, hF, e⟩ := h.teams
  obtain ⟨T, hT, hx⟩ := Option.bind_eq_some_iff.mp hx
  obtain ⟨y, hy, hs⟩ := (hF T).thread? hx
  refine ⟨y, Option.bind_eq_some_iff.mpr ⟨F T, ?_, hy⟩, hs⟩
  unfold State.team?
  rw [e, find?_of_map F (fun t => t.key == k) (fun t => t.key == k) (fun t => by rw [(hF t).key])]
  exact congrArg (Option.map F) hT

/-- The threads of one bundle stop. -/
def State.stopBundle (s : State) (b : Bundle) : State := b.tids.foldl (fun s t => s.modThread b.key t (Thread.stopAt b.pc)) s

theorem State.stopBundle_stopping (s : State) (b : Bundle) : Stopping s (s.stopBundle b) :=
  Stopping.foldl _ (fun s t => .modThread s b.key t _ (Thread.stopAt_stops b.pc)) b.tids s

/-- A thread of a bundle that stops. -/
theorem State.stopBundle_stops {s : State} {b : Bundle} {j : Nat} (hj : j ∈ b.tids) {x : Thread} (hx : s.thread? b.key j = some x) :
    ∃ y, (s.stopBundle b).thread? b.key j = some y ∧ x.Stops y ∧ y.stat = .stopped := by
  have hstop : ∀ (l : List Nat) (s : State),
    Stopping s (l.foldl (fun s t => s.modThread b.key t (Thread.stopAt b.pc)) s) := fun l =>
    Stopping.foldl _ (fun s t => .modThread s b.key t _ (Thread.stopAt_stops b.pc)) l
  obtain ⟨l1, l2, e⟩ := List.append_of_mem hj
  unfold State.stopBundle
  rw [e, List.foldl_append, List.foldl_cons]
  obtain ⟨y, hy, h1⟩ := (hstop l1 s).thread? hx
  have hmid := State.thread?_modThread (l1.foldl (fun s t => s.modThread b.key t (Thread.stopAt b.pc)) s) b.key b.key j j
    (Thread.stopAt b.pc) fun _ => rfl
  rw [hy, if_pos ⟨rfl, rfl⟩, Option.map_some] at hmid
  obtain ⟨z, hz, h2⟩ := (hstop l2 _).thread? hmid
  exact ⟨z, hz, (h1.trans (Thread.stopAt_stops ..)).trans h2, h2.stopped rfl⟩

/-- The stop of a launch stops threads of its teams, those of its bundles between clauses among them. -/
theorem State.stopLaunch_spec (s : State) (ctx id : Nat) :
    let t := s.stopLaunch ctx id
    Stopping (s.modLaunch ctx id fun l => { l with stopped := true }) t
      ∧ ∀ b ∈ s.bundles, b.key.launch? = some (ctx, id) → b.clause = none → ∀ j ∈ b.tids, ∀ x, s.thread? b.key j = some x →
        ∃ y, t.thread? b.key j = some y ∧ x.Stops y ∧ y.stat = .stopped := by
  unfold State.stopLaunch
  extract_lets mine between s1 mark s2 s3
  have h2 : Stopping s1 s2 :=
    ⟨rfl, rfl, fun t => if mine t.key then { t with threads := t.threads.map (mark t) } else t, fun t => by
      dsimp only
      split
      · exact ⟨rfl, rfl, rfl, mark t, Thread.markStop_stops t.isResident, rfl⟩
      · exact .refl t, rfl⟩
  have h3 : Stopping s2 s3 := Stopping.foldl _ State.stopBundle_stopping _ s2
  refine ⟨(h2.trans h3).trans ⟨rfl, rfl, (Stopping.refl s3).teams⟩, fun b hb hk hc j hj x hx => ?_⟩
  have hin : b ∈ s2.bundles.filter between := List.mem_filter.mpr ⟨hb, by
    unfold between mine
    rw [hk, hc, beq_self_eq_true]
    rfl⟩
  obtain ⟨l1, l2, e⟩ := List.append_of_mem hin
  obtain ⟨x2, hx2, hs2⟩ := h2.thread? (show s1.thread? b.key j = some x from hx)
  obtain ⟨x3, hx3, hs3⟩ := (Stopping.foldl _ State.stopBundle_stopping l1 s2).thread? hx2
  obtain ⟨x4, hx4, hs4, hst⟩ := State.stopBundle_stops hj hx3
  obtain ⟨x5, hx5, hs5⟩ := (Stopping.foldl _ State.stopBundle_stopping l2 _).thread? hx4
  have e3 : s3 = l2.foldl State.stopBundle ((l1.foldl State.stopBundle s2).stopBundle b) := by
    change (s2.bundles.filter between).foldl State.stopBundle s2 = _
    rw [e, List.foldl_append, List.foldl_cons]
  refine ⟨x5, ?_, ((hs2.trans hs3).trans hs4).trans hs5, hs5.stopped hst⟩
  change s3.thread? b.key j = _
  rw [e3]
  exact hx5

end Sys2Proof.Machine
end

section
/-! SUPPORT. DebugClaims: the debugger, and the family of pre-emption. -/

namespace Sys2Proof.Claims
open Sys2Proof Sys2Proof.Machine

/-! ## The debugger -/

theorem debugDetach_goes_on {s : State} {ctx : Nat} (h : ctx < 64) (hwf : swf Ctx.fresh s.ctxs = true) :
    Answers (exec (.debugDetach ctx) s) fun t => (t.ctx ctx).debug = false
      ∧ (t.ctx ctx).bps = (s.ctx ctx).bps.map (fun e => (e.1, { e.2 with ctl := e.2.ctl &&& 0x7FFFFFFFFFFFFFFF }))
      ∧ ∀ l ∈ t.launches, l.ctx = ctx → l.stopped = false := by
  change Answers (execDebugDetach ctx s) _
  unfold execDebugDetach
  rw [if_neg (show ¬ ctxCount ≤ ctx from Nat.not_le.mpr h)]
  extract_lets s1
  have h1 : s1.ctx ctx = { s.ctx ctx with
      debug := false, bps := (s.ctx ctx).bps.map fun e => (e.1, { e.2 with ctl := e.2.ctl &&& 0x7FFFFFFFFFFFFFFF }) } :=
    State.ctx_modCtx hwf ctx _
  obtain ⟨hc, hl⟩ := State.resumeLaunches_spec ctx (s1.launches.filter fun l => l.ctx == ctx) s1
  refine ⟨_, rfl, ?_, ?_, fun l hl' hctx => ?_⟩
  · rw [State.ctx_congr hc, h1]
  · rw [State.ctx_congr hc, h1]
  · have hmem := List.mem_map_of_mem (f := Launch.hold) hl'
    rw [hl] at hmem
    obtain ⟨x, hx, e⟩ := List.mem_map.mp hmem
    obtain ⟨l0, hl0, rfl⟩ := List.mem_map.mp hx
    have hc0 : l0.ctx = ctx := by
      have e1 : (resumed ctx ((s1.launches.filter fun l => l.ctx == ctx).map Launch.id) l0.hold).1 = l0.ctx := by
        unfold resumed
        split <;> rfl
      exact e1.symm.trans ((congrArg Prod.fst e).trans hctx)
    have hin : l0.hold.1 = ctx ∧ l0.hold.2.1 ∈ (s1.launches.filter fun l => l.ctx == ctx).map Launch.id :=
      ⟨hc0, List.mem_map_of_mem (List.mem_filter.mpr ⟨hl0, beq_iff_eq.mpr hc0⟩)⟩
    rw [resumed, if_pos hin] at e
    exact (congrArg (fun x => x.2.2) e).symm

section
variable {s : State} {ctx launch : Nat}

theorem debug_stays (h : s.debuggable ctx launch = false) : Stays (.debugStop ctx launch) s ∧ Stays (.debugResume ctx launch) s
    ∧ Stays (.debugStepFocused ctx launch) s ∧ Stays (.debugStepAll ctx launch) s := by
  change execDebugStop ctx launch s = _ ∧ execDebugResume ctx launch s = _ ∧ execDebugStepFocused ctx launch s = _
    ∧ execDebugStepAll ctx launch s = _
  unfold execDebugStop execDebugResume execDebugStepFocused execDebugStepAll
  simp only [h, Bool.false_eq_true, if_false, Bool.not_false, if_true, and_self]

theorem launchTeams_mem {T : Team} : T ∈ s.launchTeams ctx launch ↔ T ∈ s.teams ∧ T.key.launch? = some (ctx, launch) := by
  unfold State.launchTeams
  rw [List.mem_filter, beq_iff_eq]

variable (h : s.debuggable ctx launch = true)
include h

theorem debugStop_stops {l : Launch} (hl : s.launch? ctx launch = some l)
    (simple : ∀ T ∈ s.teams, T.key.launch? = some (ctx, launch) → T.tbarIn = [] ∧ (s.core T.core).bins = []
      ∧ ∀ x ∈ T.threads, x.parkedAs = none) :
    Answers (exec (.debugStop ctx launch) s) fun t =>
      (∃ l', t.launch? ctx launch = some l' ∧ l'.stopped = true)
        ∧ ∀ b ∈ s.bundles, b.key.launch? = some (ctx, launch) → b.clause = none → ∀ j ∈ b.tids, ∀ x,
          s.thread? b.key j = some x →
          ∃ y, t.thread? b.key j = some y ∧ y.stat = .stopped ∧ y.regs = x.regs ∧ y.preds = x.preds := by
  obtain ⟨hstop, hthreads⟩ := State.stopLaunch_spec s ctx launch
  have hsettle : ∀ T ∈ s.launchTeams ctx launch,
    (s.stopLaunch ctx launch).settle T.key = s.stopLaunch ctx launch := fun T hT => by
    have hkey : ∀ u, (s.stopLaunch ctx launch).team? T.key = some u → ∃ U : Team, (U.tbarIn = [] ∧ (s.core U.core).bins = []
        ∧ ∀ x ∈ U.threads, x.parkedAs = none) ∧ U.Stops u := fun u hu => by
      obtain ⟨U, hU, hs⟩ := hstop.team? T.key hu
      have hk : U.key = T.key := beq_iff_eq.mp (List.find?_some (p := fun t : Team => t.key == T.key) hU)
      exact ⟨U, simple U (List.mem_of_find?_eq_some hU) (hk ▸ (launchTeams_mem.mp hT).2), hs⟩
    refine State.settle_calm (fun u hu => ?_) fun u hu => ?_
    · obtain ⟨U, ⟨hin, -, hcalm⟩, hs⟩ := hkey u hu
      exact hs.calm ⟨hin, hcalm⟩
    · obtain ⟨U, ⟨-, hbins, -⟩, hs⟩ := hkey u hu
      rw [hs.core, State.core_congr hstop.cores]
      exact hbins
  have hfold : (s.launchTeams ctx launch).foldl (fun s t => s.settle t.key) (s.stopLaunch ctx launch) = s.stopLaunch ctx launch :=
    List.foldlRecOn (motive := fun u => u = s.stopLaunch ctx launch) _ _ rfl fun u hu T hT => by rw [hu]; exact hsettle T hT
  change Answers (execDebugStop ctx launch s) _
  unfold execDebugStop
  simp only [h, if_true, hfold]
  refine ⟨_, rfl, ⟨{ l with stopped := true }, ?_, rfl⟩, fun b hb hk hc j hj x hx => ?_⟩
  · unfold State.launch?
    rw [hstop.launches]
    refine (find?_modWhere (fun l : Launch => l.ctx == ctx && l.id == launch) (fun l => l.ctx == ctx && l.id == launch)
      (fun l => { l with stopped := true }) (fun _ => rfl) s.launches).trans ?_
    have hl : s.launches.find? (fun l => l.ctx == ctx && l.id == launch) = some l := hl
    rw [hl, Option.map_some, if_pos (List.find?_some (p := fun l : Launch => l.ctx == ctx && l.id == launch) hl)]
  · obtain ⟨y, hy, hs, hst⟩ := hthreads b hb hk hc j hj x hx
    exact ⟨y, hy, hst, hs.regs, hs.preds⟩

theorem debugResume_resumes {l : Launch} (hl : s.launch? ctx launch = some l) :
    Answers (exec (.debugResume ctx launch) s) fun t =>
      (∃ l', t.launch? ctx launch = some l' ∧ l'.stopped = false)
        ∧ ∀ g ∈ t.groups, ¬ (g.ctx = ctx ∧ g.launch = launch ∧ g.kind = .stop) := by
  obtain ⟨-, hholds, hg⟩ := State.resumeLaunch_spec s ctx launch
  change Answers (execDebugResume ctx launch s) _
  unfold execDebugResume
  rw [if_pos h]
  refine ⟨_, rfl, ?_, hg⟩
  have hfind : ∀ ls : List Launch, (ls.map Launch.hold).find? (fun x => x.1 == ctx && x.2.1 == launch) =
      (ls.find? fun l => l.ctx == ctx && l.id == launch).map Launch.hold := fun ls => find?_of_map _ _ _ (fun _ => rfl) ls
  have hkeep : ∀ x : Nat × Nat × Bool, ((resumed ctx [launch] x).1 == ctx && (resumed ctx [launch] x).2.1 == launch) =
      (x.1 == ctx && x.2.1 == launch) := fun x => by
    unfold resumed
    split <;> rfl
  have e : ((s.resumeLaunch ctx launch).launch? ctx launch).map Launch.hold =
      ((s.launch? ctx launch).map Launch.hold).map (resumed ctx [launch]) := by
    unfold State.launch?
    rw [← hfind, ← hfind, hholds]
    exact find?_of_map _ _ _ hkeep _
  obtain ⟨hc, hid⟩ : l.ctx = ctx ∧ l.id = launch := by
    have := List.find?_some (p := fun l : Launch => l.ctx == ctx && l.id == launch) hl
    rwa [Bool.and_eq_true, beq_iff_eq, beq_iff_eq] at this
  rw [hl, Option.map_some, Option.map_some] at e
  obtain ⟨l', hl', hh⟩ := Option.map_eq_some_iff.mp e
  rw [resumed, if_pos ⟨hc, List.mem_singleton.mpr hid⟩] at hh
  exact ⟨l', hl', congrArg (fun x => x.2.2) hh⟩

theorem debugStepFocused_stays (ht : s.team? (.user ctx launch s.focusTeam.toNat) = none) : Stays (.debugStepFocused ctx launch) s := by
  change execDebugStepFocused ctx launch s = _
  unfold execDebugStepFocused
  simp only [h, Bool.not_true, Bool.false_eq_true, if_false, ht]

theorem debugStepFocused_steps {T : Team} {g : List Nat} (ht : s.team? (.user ctx launch s.focusTeam.toNat) = some T)
    (hg : (s.subgroups T).find? (fun g => g.contains s.focusTid.toNat) = some g) :
    Goes (.debugStepFocused ctx launch) s (s.stepGroup T.key g) := by
  change execDebugStepFocused ctx launch s = _
  unfold execDebugStepFocused
  simp only [h, Bool.not_true, Bool.false_eq_true, if_false, ht, hg]

theorem debugStepAll_steps {T : Team} {g : List Nat} (ht : s.launchTeams ctx launch = [T]) (hg : s.subgroups T = [g]) :
    Goes (.debugStepAll ctx launch) s (s.stepGroup T.key g) := by
  change execDebugStepAll ctx launch s = _
  unfold execDebugStepAll
  simp only [h, Bool.not_true, Bool.false_eq_true, if_false, ht, sortBy_singleton, List.flatMap_cons, List.flatMap_nil, hg,
    List.map_cons,
    List.map_nil, List.append_nil, List.foldl_cons, List.foldl_nil]

end

/-- Settles O49: a write that is taken has its fields, a saved team's seat is saved, a held one's is free,
  a resumed launch is held no more,
and where nothing waits the stop of a launch lets no thread go on. -/
theorem preemptAndDebugEvents : Obligations.PreemptAndDebugEvents := by
  unfold Obligations.PreemptAndDebugEvents
  intro s v
  refine ⟨preempt_write s v, fun hx => ?_, fun x hx => preempt_done hx, ctxresume_frees s v, corecall_calls s v,
    fun ctx hctx => ⟨debugAttach_goes s hctx, fun hwf => debugDetach_goes_on hctx hwf⟩,
    fun ctx launch l hl => ⟨debug_stays, fun h => ⟨fun simple _ => debugStop_stops h hl simple, debugResume_resumes h hl,
      debugStepFocused_stays h, fun T g => debugStepFocused_steps h, fun T g => debugStepAll_steps h⟩⟩⟩
  change execPreemptDone s = _
  unfold execPreemptDone
  rw [hx]

end Sys2Proof.Claims
end

section
/-! SUPPORT. LongRecords: a package in which a report files an old group's long record next to a region that feeds a launch's code. -/

namespace Sys2Proof.Machine
open Sys2Proof Sys2Proof.Claims

/-! ## A state in which a long record of an old group is filed -/

/-- A system call's group whose record holds thirteen arguments, 136 bytes of it,
  and that carries the next id of a package after reset: it is
this group that the next report files. -/
def longGroup : Group :=
  { staleGroup with
    kind := .syscall, records := [{ (Trap.plain 0 .machine).record 0x10000 0 0 1 with args := List.replicate 13 0 }] }

/-- A derived region whose data begins 64 bytes past the fault ring, and whose window is the launch's page of code. -/
def feedingRegion : Derived :=
  { Derived.fresh with window := 0x100000, length := 0x10000, base := 0x40040, index := 0x200000, stream := 0x200000, v := true }

/-- The launch whose code lies in that window. -/
def feedLaunch : Launch := { probeLaunch 0 1 with codePages := [16] }

/-- A team with a spawn record whose kernel is misaligned. -/
def badSpawn : PendingLaunch := { slot := 0, bytes := [1], order := 0, pc := 0x10008 }
def feedTeam : Team := { Team.start (.user 0 1 0) 0 0 0 0 0 probeDesc [] with spawns := [badSpawn] }

/-- A floating-point trap in a window that has been open for 256 cycles. -/
def feedTrap : FpTrap := { key := .user 0 1 0, tid := 0, pc := 0x10000, cycle := 0, stamp := 0, flags := 1 }
def feedWindow : FpWindow := { ctx := 0, launch := 1, opened := 0, closed := false, traps := [feedTrap] }

/-- Any packet: that of the launch. -/
def feedPacket : Packet :=
  { name := { q := 0, idx := 0 }, ctx := 0, prio := 0, seq := 0, slot := 0, bytes := [], submit := 0, stage := .begun,
    launch := 1, began := 0, coll := none, sealed := none, idDue := false, ending := none }

/-- The fault ring stands at 0, and its next slot is the last one, the nearest to the region's data. -/
def feedState : State :=
  { State.reset with
    faultBase := 0, faultSlot := 4095, groups := [longGroup], derived := [(0, feedingRegion)], launches := [feedLaunch],
    teams := [feedTeam], packets := [feedPacket], cores := [(0, { Core.fresh with windows := [feedWindow] })],
    islands := [(0, { Island.fresh with base := 256 })] }

/-- A record of 64 bytes in the ring writes nothing of the launch's code. -/
theorem feedState_ringApart : ringApart feedState feedLaunch := by
  intro a _ hlt p hp
  obtain rfl : p = 16 := List.mem_singleton.mp hp
  have ha : a < 262144 := by
    change a < 0 + 64 * 4096 at hlt
    omega
  have hpage : (pageOf a == 16) = false := beq_eq_false_iff_ne.mpr fun e => by
    unfold pageOf at e
    omega
  have hbase : overlaps 0x40040 0x10000 a 64 = false := by
    unfold overlaps
    rw [decide_eq_false (show ¬ 0x40040 < a + 64 by omega), Bool.false_and]
  have hindex : ∀ n, overlaps 0x200000 n a 64 = false := fun n => by
    unfold overlaps
    rw [decide_eq_false (show ¬ 0x200000 < a + 64 by omega), Bool.false_and]
  change (pageOf a == 16 || State.feeds feedState (.here a) 64 16) = false
  rw [hpage, Bool.false_or]
  have hregion : (overlaps feedingRegion.base.toNat feedingRegion.length.toNat a 64 ||
      overlaps feedingRegion.index.toNat feedingRegion.indexBytes a 64 ||
      overlaps feedingRegion.stream.toNat feedingRegion.bytes.toNat a 64) = false := by
    rw [show overlaps feedingRegion.base.toNat feedingRegion.length.toNat a 64 = false from hbase,
      show overlaps feedingRegion.index.toNat _ a 64 = false from hindex _,
      show overlaps feedingRegion.stream.toNat _ a 64 = false from hindex _]
    rfl
  unfold State.feeds
  simp only [show feedState.derived = [(0, feedingRegion)] from rfl, List.any_cons, List.any_nil, Place.pa, hregion,
    Bool.and_false,
    Bool.or_false]

/-- The launch has failed as one whose code has been written. -/
def codeWritten (t : State) : Bool := (t.launch? 0 1).any fun l => l.stat == .failed .machine

end Sys2Proof.Machine
end

section
/-! SUPPORT. LaunchAndFaultClaims: a launch whose code a report's record has written. -/

namespace Sys2Proof.Claims
open Sys2Proof Sys2Proof.Machine

theorem spawn_writes_code : holdsIn codeWritten (exec (.spawnAccept (.user 0 1 0)) feedState) = true := by decide +kernel
theorem window_writes_code : holdsIn codeWritten (exec (.fpWindowClose 0 0 1) feedState) = true := by decide +kernel
theorem feed_turn : feedState.spawnTurn? = some (.user 0 1 0) := by decide +kernel
theorem feed_fails : feedState.checkLaunch feedLaunch.ctx (LRec.ofBytes badSpawn.bytes) true
    (feedLaunch.spawnDiffers (LRec.ofBytes badSpawn.bytes)) = .fail 2 := by decide +kernel

/-- Refutes O45: the spawn's report files the group of an id still to come,
  whose record of 136 bytes reaches the data of a region whose
window is the launch's code; the launch fails with MACHINE before it fails with SPAWN_BAD. -/
theorem not_launchEvents : ¬ Obligations.LaunchEvents := by
  unfold Obligations.LaunchEvents
  intro h
  obtain ⟨-, -, -, -, hspawn, -⟩ := h feedState feedPacket.name feedPacket feedLaunch rfl rfl rfl
  obtain ⟨-, hturn⟩ := hspawn (.user 0 1 0) feedTeam feedLaunch badSpawn rfl rfl rfl rfl
  obtain ⟨t, ⟨l', hl', hbad⟩, hw⟩ := holdsIn_of_answers ((hturn feed_turn).1 2 feedState_ringApart feed_fails) spawn_writes_code
  change t.launch? 0 1 = some l' at hl'
  rw [codeWritten, hl', Option.any_some, hbad] at hw
  exact absurd hw (by decide)

/-- Refutes O48: the window's report files the group of an id still to come,
  whose record of 136 bytes reaches the data of a region whose
window is the launch's code; the launch fails with MACHINE before it fails with the trap's cause. -/
theorem not_faultEvents : ¬ Obligations.FaultEvents := by
  unfold Obligations.FaultEvents
  intro h
  obtain ⟨-, -, -, -, -, -, -, -, -, -, -, -, -, -, -, hwindow⟩ := h feedState
  obtain ⟨-, hclose⟩ := hwindow 0 0 1 feedWindow rfl
  obtain ⟨t, ⟨l', hl', hbad⟩, hw⟩ :=
    holdsIn_of_answers (hclose feedTrap feedLaunch rfl (by decide +kernel) rfl rfl rfl feedState_ringApart) window_writes_code
  rw [codeWritten, hl', Option.any_some, hbad] at hw
  exact absurd hw (by decide)

end Sys2Proof.Claims
end
